-- ==== Sys2Proof/Word.lean ====
section
/-! DEFINITION. The word types of the VG4: bytes, 32-bit lanes, 64-bit uniform registers and lane masks (R4, R5), and the
sparse map type in which registers and memory are held (a list of key and value pairs, keys rising, no entry equal to the
default). The operations on them stand in Machine/Bits.lean. -/

namespace Sys2Proof

/-- One byte of memory. -/
abbrev Byte := BitVec 8
/-- One 32-bit lane of a vector register. -/
abbrev W32 := BitVec 32
/-- A uniform register, a virtual address, a register pair (R5). -/
abbrev W64 := BitVec 64
/-- A lane mask: lane l is bit l (R5). -/
abbrev Mask := BitVec 64

/-- A sparse map over Nat: keys strictly rising, no entry equal to the map's default (`FMap.wf`). -/
abbrev FMap (α : Type) := List (Nat × α)

end Sys2Proof
end

