-- ==== Sys2Proof/Syntax.lean ====
section
/-! DEFINITION. The steps of the machine as syntax: `Instr` has one constructor for each row of the table of operations and
events. Instruction rows carry their decoded operands (R312 to R321); event rows carry what the event brings with it (a
message of R95 with its fields, a register write of the host, the group or engine command concerned). -/

namespace Sys2Proof

/-- The type codes of R319. `l6` is code 0x15 in either of the two layouts of R272. -/
inductive Ty where
  | b32 | i32 | n32 | i16x2 | n16x2 | i8x4 | n8x4 | i64 | n64 | f32 | bf16x2 | f16x2 | e4m3x4 | e5m2x4 | l6
  deriving DecidableEq, Repr

/-- A V source operand (R314): vector register, latch L0 to L2, the zero operand, the lane index, or a k register. -/
inductive VSrc where
  | reg (n : Nat) | latch (n : Nat) | zero | lane | k (n : Nat)
  deriving DecidableEq, Repr

/-- A V destination operand (R314): vector register, the zero code (result discarded), or a k register where the
instruction gives a uniform result. -/
inductive VDst where
  | reg (n : Nat) | zero | k (n : Nat)
  deriving DecidableEq, Repr

/-- The header fields of R312 that are not operands: MOD, TY, HOLD, NW and MSK. -/
structure Hdr where
  mod : Nat
  ty : Ty
  hold : Nat
  nw : Bool
  msk : Nat
  deriving DecidableEq, Repr

/-- The address forms of R388: AM 0 a register pair, AM 1 a k base plus a per-lane offset, AM 2 a per-lane offset.
`disp` is the raw 10-bit DISP field of R387. -/
inductive Addr where
  | pair (n disp : Nat) | base (kb : Nat) (off : VSrc) (disp : Nat) | off (off : VSrc) (disp : Nat)
  deriving DecidableEq, Repr

/-- The lane chosen by kfromv (R354). -/
inductive LaneSel where
  | lane (n : Nat) | k (n : Nat) | first
  deriving DecidableEq, Repr

/-- An accumulator row operand a[e], a[kn] or a[kn + e] (R414): `none` is the zero code. -/
structure RowOp where
  base : Option Nat
  e : Nat
  deriving DecidableEq, Repr

/-- The destination of accout: registers from v`n`, or the memory form with the record address in k`n` (R419). -/
inductive AccDst where
  | reg (n : Nat) | mem (k : Nat)
  deriving DecidableEq, Repr

/-- A host port (R22). -/
inductive Port where
  | a | b
  deriving DecidableEq, Repr

/-- A region label (R112). -/
inductive Label where
  | uncl | priv | ro | migr | pc | cont
  deriving DecidableEq, Repr

/-- GRANT of R96: the state in which the requester holds the grain. -/
inductive Grant where
  | s | e | m | t
  deriving DecidableEq, Repr

/-- A group, and the live slot concerned where that matters: block number on the device, GID, and `low` for the lower
live entry (R161 SLOT). -/
structure GRef where
  blk : Nat
  gid : Nat
  low : Bool
  deriving DecidableEq, Repr

/-- The trap codes of R163. -/
inductive TrapCode where
  | ill | unif | align | prot | xreg | accwin | labelFalse | streamCorr | scopeDenied | launchDepth | dataUe | dieLost
  | wlCfg | soft | debug
  deriving DecidableEq, Repr

/-- A trap to be taken: its code and trap words (R162, R163, R135), the RESTART bit, and for a trap delivered at a boundary
the PC and the mask that its record names, whether that is a latch chain (R161), and the instruction itself. -/
structure Trap where
  code : TrapCode
  words : BitVec 256
  restart : Bool
  named : Option (W64 × Mask × Bool × W64)
  deriving DecidableEq, Repr

/-- A granule of a block's saved state (R192). -/
inductive Granule where
  | vreg (n : Nat) | acc (n : Nat) | stream (n : Nat) | slab (n : Nat) | control (gid : Nat) | narrow (n : Nat)
  deriving DecidableEq, Repr

/-- A message of R95 with the fields of R95 and R96, and the fields of an uncached access (R89) or of a base-die reduction
element (R83). `pa` is the grain's address in the physical space of Machine/State.lean. -/
structure Msg where
  pa : Nat
  gsz : Nat
  req : Nat
  ctx : Nat
  vf : Nat
  tag : Nat
  frm : Nat
  dst : Nat
  grant : Grant
  dirty : Bool
  wb : Bool
  keep : Bool
  region : Bool
  reason : Nat
  lbyte : Nat
  aag : Nat
  actx : Nat
  pend : Nat
  data : List Byte
  bmask : List Bool
  mode : Label
  lval : Nat
  res : W64
  heat : Bool
  write : Bool
  off : Nat
  aop : Nat
  ty : Ty
  deriving DecidableEq, Repr

/-- A flit as it arrives (R24): its 256 bytes after correction, beat k being bytes 32k to 32k + 31, the symbol corrections that it took, and
the receiver's eye-margin estimate of the worst lane at that time (R29). -/
structure Flit where
  bytes : List Byte
  corr : Nat
  margin : Nat
  deriving DecidableEq, Repr

/-- What the management controller has when it renews the monitors (R32, R33): the ring-oscillator drift per die, the errors corrected in each
stack since the last reading, those of the die-to-die links, and the remaining life that it predicts, in hours. -/
structure Reading where
  ageing : List Nat
  hbm : List Nat
  links : Nat
  hours : Nat
  deriving DecidableEq, Repr

/-- A message of class MGT (R27): a device reports its identity over a port, or the driver, through host port `host`, assigns
the span identifier and this device's span number, or writes the routing table entry of a span device (the Ubyozo ports that
reach it); the peer of a port asks for the flits that failed to be sent again (R26). -/
inductive MgtMsg where
  | identity (port : Nat) (ident : W64)
  | assign (host : Port) (span dev : Nat)
  | route (host : Port) (dev : Nat) (ports : BitVec 16)
  | replay (port : Nat)
  deriving DecidableEq, Repr

/-- The RW fields of a context descriptor (R138) as one write carries them. -/
structure DescWrite where
  root : BitVec 40
  vf : Nat
  padBase : Nat
  padLim : Nat
  wdt : Nat
  deriving DecidableEq, Repr

/-- The device registers that the host writes without a row of their own (R9, REGISTER_WRITE). `cxwr` is the write of a
descriptor's RW fields that leaves EN as it is (R138). -/
inductive DevReg where
  | heatctl | ltctl | schedctl | svbase | qtbase | cxbase | pdbase (n : Nat) | pdmap (n : Nat) | ctbase | ctlim | ctsyncp
  | shootva | shootn | preemptc | fqbase | dbgsel | cxwr (ctx : Nat) (d : DescWrite)
  deriving DecidableEq, Repr

/-- A firmware image offered to the device (R56): the die it is for, its security version, whether its SLH-DSA signature
verifies, its SHA-256 hash, and whether the driver commits the update. -/
structure FwImage where
  die : Nat
  version : Nat
  sigOk : Bool
  hash : BitVec 256
  commit : Bool
  deriving DecidableEq, Repr

/-- One constructor per row of the table of operations and events: the events first, then the instructions. -/
inductive Instr where
  /-- MODULE_RESET (R10): Module reset returns every register to its reset value, frees MSEM, reassigns logical cores from the fuse map and resumes the health monitors from the last snapshot. -/
  | moduleReset
  /-- POWER_LOSS (R34): Loss of module power stops management and health monitoring, losing at most one hour of trend history. -/
  | powerLoss
  /-- DIE_LOSS (R19): An uncorrectable internal fault, a die-to-die link failure or a thermal trip loses a die, and every context whose touched-dies mask includes it traps with DIE.LOST in all its groups. -/
  | dieLoss (dies : BitVec 16)
  /-- DIE_RESET (R21): The driver, holding MSEM, resets a lost die and returns it to service. -/
  | dieReset (port : Port) (die : Nat)
  /-- CLOCK_THROTTLE (R31): When power or temperature exceeds its limit the management controller lowers the core clock by one 100 MHz step, not below 1.2 GHz. -/
  | clockThrottle
  /-- CLOCK_RESTORE (R31): Once the excess has cleared the management controller raises the core clock by one step. -/
  | clockRestore
  /-- HEALTH_UPDATE (R32): Every 10 minutes the management controller recomputes the predicted remaining life and updates the remaining-life register. -/
  | healthUpdate (conf worst : Nat) (r : Reading)
  /-- HEALTH_SNAPSHOT (R34): Every hour the controller stores a snapshot of the monitors in module flash. -/
  | healthSnapshot
  /-- HBM_ERROR_WINDOW (R32): At the end of each one-hour window the per-stack error-trend counter closes its count of corrected errors. -/
  | hbmErrorWindow (stack : Nat)
  /-- FLIT_RECEIVE (R26): A Ubyozo flit arrives, is checked by CRC after correction, and is delivered in sequence order to the message layer of its class or replayed from the sender's retry buffer. -/
  | flitReceive (port : Nat) (f : Flit)
  /-- PORT_DOWN (R28): A Ubyozo port that fails eight consecutive replays goes down, traffic moves to remaining routes, and requests to an unreachable peer complete with an error response. -/
  | portDown (port : Nat)
  /-- PORT_RETRAIN (R26): A port that went down retrains its link. -/
  | portRetrain (port : Nat)
  /-- SPAN_MGT_MESSAGE (R27): A management-class message after link training reports device identity or carries span formation and routing. -/
  | spanMgtMessage (m : MgtMsg)
  /-- UBYOZO_ERRCNT_READ (R29): A read of a port's error counter register returns its counts and clears the read-clear fields. -/
  | ubyozoErrcntRead (host : Port) (port : Nat)
  /-- HOST_LINK_DOWN (R39): A host port link goes down, freeing MSEM if that port owned it and making pool decoders on that port return error responses. -/
  | hostLinkDown (port : Port)
  /-- HOST_LINK_UP (R68): A host port link returns and pool decoders on that port serve their windows again. -/
  | hostLinkUp (port : Port)
  /-- MSEM_ACQUIRE (R38): A write of ACQ = 1 grants a free MSEM to the writing port, increments GEN, sets LEASE to 0 and resolves same-cycle ties by LAST; it has no effect while MSEM is held. -/
  | msemAcquire (a b : Bool)
  /-- MSEM_RELEASE (R39): The owner's write of REL = 1 frees MSEM and sets LEASE to 0. -/
  | msemRelease (port : Port)
  /-- MSEM_LEASE_WRITE (R39): The owner's write with ACQ = 0 and REL = 0 writes LEASE and restarts the lease from that write. -/
  | msemLeaseWrite (port : Port) (lease : BitVec 16)
  /-- MSEM_LEASE_EXPIRY (R39): When LEASE milliseconds pass after the owner's last write of LEASE, MSEM is freed and EXPD is set. -/
  | msemLeaseExpiry
  /-- MSEM_EXPD_CLEAR (R37): A write of 1 to EXPD clears it. -/
  | msemExpdClear (port : Port)
  /-- MGMT_ERROR_CLEAR (R39): A write of 1 to bit 0 of a port's management error register clears it. -/
  | mgmtErrorClear (port : Port)
  /-- POLICY_WRITE (R40): The hypervisor writes a VF policy register; MSEM fields change only under MSEM, overlapping queue ranges and MAXSCOPE 7 are refused, and EN is checked against overlap. -/
  | policyWrite (port : Port) (vf : Nat) (val : W64)
  /-- PARTITION_WRITE (R42): The hypervisor writes a VF partition register, whose CLMASK changes only under MSEM. -/
  | partitionWrite (port : Port) (vf : Nat) (val : W64)
  /-- TENANT_RESET (R53): A function-level reset or a write of EN = 0 stops every queue of the VF, discards its groups, cancels unstarted engine commands and drops its pending faults within 50 us. -/
  | tenantReset (vf : Nat)
  /-- REGISTER_WRITE (R9): A write to a device register without a behaviour of its own sets its writable fields, ignoring reserved bits and applying any MSEM condition. -/
  | registerWrite (port : Port) (fn : Nat) (reg : DevReg) (val : W64)
  /-- CMPSTAT_READ (R81): A read of a VF's CMPSTAT returns its counts and clears the read-clear fields. -/
  | cmpstatRead (port : Port) (vf : Nat)
  /-- QUEUE_START (R46): QCTL command 1 starts a stopped queue, reading its record and setting running, or stopped with FCODE 0x06 if PRIO exceeds MAXPRIO. -/
  | queueStart (port : Port) (fn q : Nat)
  /-- QUEUE_STOP (R46): QCTL command 2 halts the queue's walk at the next block boundary. -/
  | queueStop (port : Port) (fn q : Nat)
  /-- QUEUE_RESET (R46): QCTL command 3 stops the queue, cancels its waits and clears DONE and FCODE. -/
  | queueReset (port : Port) (fn q : Nat)
  /-- CTSYNC (R80): QCTL command 4 from the PF sets CTSYNCP BUSY and makes the home slice drop its cached compression-table entry P. -/
  | ctsync (port : Port) (fn : Nat)
  /-- CTSYNC_COMPLETE (R80): Once the home slice has dropped entry P, BUSY in CTSYNCP is cleared. -/
  | ctsyncComplete
  /-- SHOOT (R149): QCTL command 5 starts a TLB shootdown of the range in SHOOTVA and SHOOTN and sets BUSY. -/
  | shoot (port : Port) (fn : Nat)
  /-- SHOOT_COMPLETE (R149): Once no TLB holds the range and every access translated through an old entry is performed or rolled back, BUSY in SHOOTN clears. -/
  | shootComplete (fn : Nat)
  /-- PREEMPT (R189): QCTL command 6 halts the context named in PREEMPTC on the selected clusters and holds it halted. -/
  | preempt (port : Port) (fn : Nat)
  /-- RELEASE (R189): QCTL command 7 ends the hold on the context named in PREEMPTC. -/
  | release (port : Port) (fn : Nat)
  /-- QUEUE_BLOCK_SERVE (R49): The queue engine serves one command block: waits for SER, evaluates COND, performs OP or acts by FAIL, and moves to NEXT or ALT, stopping with an FCODE on a failed check. -/
  | queueBlockServe (q : Nat)
  /-- QUEUE_SER_RESUME (R49): A block waiting on SER resumes once every earlier block's work has retired. -/
  | queueSerResume (q : Nat)
  /-- QUEUE_WAIT_RECHECK (R49): An invalidation of the held CADR grain makes a waiting queue re-evaluate COND and resume when it succeeds. -/
  | queueWaitRecheck (q : Nat)
  /-- QUEUE_NEXT_RECHECK (R50): An invalidation of the held NEXT grain makes a parked queue re-read NEXT with acquire and resume on a non-zero value. -/
  | queueNextRecheck (q : Nat)
  /-- QUEUE_COMPLETION_WRITE (R49): When work with NOTE set retires with success, DONE is incremented and stored to CADDR with release, in chain order. -/
  | queueCompletionWrite (q : Nat)
  /-- QUEUE_ENGINE_NAK (R478): A Nak to one of the queue engine's own accesses stops the queue with FCODE 0x04 or 0x09 at the failing block. -/
  | queueEngineNak (q reason : Nat)
  /-- CONTEXT_CREATE (R139): A descriptor write of EN = 1 creates the context, clears TDM, CST and STOPC, and zeroes the new pad window bytes. -/
  | contextCreate (port : Port) (fn ctx : Nat) (d : DescWrite)
  /-- CONTEXT_DESTROY (R139): A descriptor write of EN = 0, accepted only with no live queue of the context, discards every group of the context. -/
  | contextDestroy (port : Port) (fn ctx : Nat)
  /-- FQ_REPLAY (R157): A write of ACT = 0 to FQREPLAY wakes every waiter on TOKEN to replay by its source. -/
  | fqReplay (port : Port) (fn token : Nat)
  /-- FQ_KILL (R158): A write of ACT = 1 to FQREPLAY kills the batch, and each waiter takes its trap or stop. -/
  | fqKill (port : Port) (fn token : Nat)
  /-- FQ_HEAD_WRITE (R151): A driver write of HEAD frees ring slots, letting records that waited in the device be written and TAIL advance. -/
  | fqHeadWrite (port : Port) (fn : Nat) (head : W32)
  /-- FAULT_BATCH_POST (R151): The device writes a batch of fault records contiguously with release, advances TAIL and raises MSI-X vector 0 if TAIL equalled HEAD. -/
  | faultBatchPost (fn : Nat)
  /-- RUN_AHEAD_END (R155): Run-ahead ends at its first limit; the group posts its batch, rolls back and enters fault wait. -/
  | runAheadEnd (g : GRef)
  /-- TRAP_DELIVER (R160): A trap writes its record at TREC and enters handler mode at TVEC, or stops the context and posts a CAUSE 5 record. -/
  | trapDeliver (g : GRef) (t : Trap)
  /-- BOUNDARY_TRAP (R477): A trap due at a boundary is taken when one of the group's live entries next issues, or posted as CAUSE 5 if the group has exited. -/
  | boundaryTrap (g : GRef)
  /-- DIE_HALT (R167): Setting a DBGHALT bit halts the die at the next instruction boundary of every core and piece boundary of its engines, holding requests to it. -/
  | dieHalt (port : Port) (dies : BitVec 16)
  /-- DIE_HALT_CLEAR (R167): Clearing a DBGHALT bit resumes the die and releases its held requests in order. -/
  | dieHaltClear (port : Port) (dies : BitVec 16)
  /-- WATCHDOG_EXPIRY (R168): A launch that has not retired within WDT milliseconds of unhalted time posts a CAUSE 6 record. -/
  | watchdogExpiry (launch : Nat)
  /-- HEAT_HALVE (R74): A write of HALVE = 1 under MSEM while BUSY = 0 starts halving every heat byte and sets BUSY. -/
  | heatHalve (port : Port)
  /-- HEAT_HALVE_DONE (R74): The halving of the full table ends and BUSY clears. -/
  | heatHalveDone
  /-- FIRMWARE_UPDATE (R56): A firmware update under MSEM checks the SLH-DSA signature and security version and raises the fuse minimum only when committed. -/
  | firmwareUpdate (port : Port) (img : FwImage)
  /-- SPDM_REQUEST (R57): An SPDM request over the DOE mailbox is answered with signed measurements. -/
  | spdmRequest (port : Port)
  /-- RDS (R100): A read request arrives at the home and is served by the label's protocol table, granting S, E or T. -/
  | rds (m : Msg)
  /-- RDX (R100): A read-for-ownership request arrives at the home, invalidates or forwards from other holders and grants exclusivity. -/
  | rdx (m : Msg)
  /-- UPG (R100): An upgrade request arrives at the home and grants exclusivity, or is served as RdX when stale or from a non-holder. -/
  | upg (m : Msg)
  /-- EVC (R100): A clean eviction notice arrives at the home and is answered with WbAck. -/
  | evc (m : Msg)
  /-- WBD (R102): A dirty write-back arrives at the home, is applied at once and answered with WbAck. -/
  | wbd (m : Msg)
  /-- UPDATE_WRITE (R125): A WbD with KEEP = 1 sent by a PC owner on its own is queued as a request, written to L2 and sends Upd to every subscriber. -/
  | updateWrite (m : Msg)
  /-- UPDATE_COMMIT (R125): When every subscriber Ack is in, the home sends WbAck to the writer and committing Acks to subscribers, performing the store. -/
  | updateCommit (grain : Nat)
  /-- UNCACHED_READ (R89): An uncached read from an engine is served at the home after recalling conflicting copies as RdS does. -/
  | uncachedRead (m : Msg)
  /-- UNCACHED_WRITE (R89): An uncached write is performed at the home after recalling conflicting copies as RdX does. -/
  | uncachedWrite (m : Msg)
  /-- BD_REDUCTION_ELEMENT (R83): A base-die reduction element is applied as one atomic read-modify-write at the home slice after recalling cached copies. -/
  | bdReductionElement (m : Msg)
  /-- FWDS (R101): A FwdS snoop at the owner L1 sends Data(S) to the requester and moves the owner to S or O. -/
  | fwds (m : Msg)
  /-- FWDX (R101): A FwdX snoop at the owner L1 sends the grain to the requester and gives up the copy, answering Cfl if pending. -/
  | fwdx (m : Msg)
  /-- INV (R101): An Inv snoop makes an L1 drop its copy and answer Ack, or Cfl naming its pending request. -/
  | inv (m : Msg)
  /-- UPD (R125): An Upd snoop makes a subscriber stage the new bytes, stall its loads of the grain and answer Ack. -/
  | upd (m : Msg)
  /-- BINV (R101): A BInv recall makes a holder drop its copy, answering WbD if dirty, or every T copy of the region if REGION = 1. -/
  | binv (m : Msg)
  /-- ACK (R99): A snoop answer or requester completion Ack arrives at the home, and the transaction closes once all answers are in. -/
  | ack (m : Msg)
  /-- CFL (R100): A Cfl answer at the home marks the named pending request stale. -/
  | cfl (m : Msg)
  /-- NAK (R97): A Nak response reaches the requester, leaving the access unperformed and raising DATA.UE or LABEL.FALSE. -/
  | nak (m : Msg)
  /-- DATA (R103): Data arrives at the requester, which performs the waiting access in the granted state and sends the completion Ack. -/
  | data (m : Msg)
  /-- COMMIT_ACK (R125): A committing Ack at a subscriber exposes its staged Upd bytes. -/
  | commitAck (m : Msg)
  /-- WBACK (R101): WbAck reaches the evictor, which drops the grain from its write-back buffer. -/
  | wback (m : Msg)
  /-- L1_EVICT (R101): An L1 evicts a grain silently, with EvC or with WbD by its state. -/
  | l1Evict (agent grain : Nat)
  /-- BOUNCE_DELAY_EXPIRY (R105): The bounce delay of a grain ends and the L1 sends its delayed RdX or Upg. -/
  | bounceDelayExpiry (agent grain : Nat)
  /-- BOUNCE_RESET (R105): An L1 that keeps a grain exclusive for 1,024 cycles returns its bounce count to 0. -/
  | bounceReset (agent grain : Nat)
  /-- HOST_SNOOP (R106): A host snoop of a host line is turned by the I/O die into Inv, FwdS or FwdX towards the device L1s holding its grain. -/
  | hostSnoop (line : Nat) (write : Bool)
  /-- HOST_ACCESS (R107): A host read or write to device memory under HDM-DB enters the home as RdS, RdX or WbD from agent 160 or 161. -/
  | hostAccess (m : Msg)
  /-- LRD (R132): The label command LRD returns the region's label byte. -/
  | lrd (m : Msg)
  /-- LSET (R132): The label command LSET takes the region through SWITCHING to the new label with ASRT set and records the asserter. -/
  | lset (m : Msg)
  /-- LLOCK (R132): The label command LLOCK sets LOCK and records the locking agent and context. -/
  | llock (m : Msg)
  /-- LUNL (R132): The label command LUNL clears LOCK. -/
  | lunl (m : Msg)
  /-- LHIST (R132): The label command LHIST returns HIST and NCHG. -/
  | lhist (m : Msg)
  /-- WINDOW_CLOSE (R120): The 64th counted transaction closes the classifier window, computes the verdict and may start SWITCHING. -/
  | windowClose (region : Nat)
  /-- SWITCHING_COMPLETE (R127): The last recall answer of SWITCHING arrives; the home writes the new label byte and serves the held requests in order. -/
  | switchingComplete (region : Nat)
  /-- REGION_ENTRY_EVICT (R116): An unpinned region-table entry is evicted, writing back its label byte and losing its counters. -/
  | regionEntryEvict (region : Nat)
  /-- COMP_READ_MISS (R76): A read missing in the home L2 of a compressed page reads its entry and sectors, decompresses into the L2 and checks CRC. -/
  | compReadMiss (page : Nat)
  /-- COMP_WRITEBACK (R77): A dirty line of a compressed page leaving the L2 recompresses the page, storing it, storing it raw, or pinning it and posting COMP.EXP. -/
  | compWriteback (page : Nat)
  /-- COMP_WRITEBACK_RETRY (R79): After CTSYNC and replay of COMP.EXP, the slice retries the write-back and clears PIN, releasing held requests. -/
  | compWritebackRetry (page : Nat)
  /-- BLOCK_PLACE (R175): A pending block is placed on the first core in walk order where its footprint fits, raising a pre-emption request if it cannot. -/
  | blockPlace (launch : Nat)
  /-- SLICE_EXPIRY (R185): A pending block that has waited longer than SLICE for space held by an equal-priority VF raises a pre-emption request. -/
  | sliceExpiry (launch : Nat)
  /-- HALT_COMPLETE (R186): Every target core has halted the context's groups, drained the engines and recorded unaccepted accesses. -/
  | haltComplete (ctx : Nat)
  /-- BLOCK_RESUME (R193): A released halted block whose footprint fits again resumes on its core with evicted granules marked absent. -/
  | blockResume (blk : Nat)
  /-- GRANULE_FILL (R193): The first access to an absent granule stalls while the core fills it from the save slot. -/
  | granuleFill (blk : Nat) (g : Granule)
  /-- BLOCK_RETIRE (R179): A block retires when its groups have exited, its counters are 0 and its launches have retired; its launch retires with a release when all blocks have. -/
  | blockRetire (blk : Nat)
  /-- YIELD_EXPIRY (R335): A yielding path becomes ready again after 64 cycles. -/
  | yieldExpiry (g : GRef)
  /-- XACQ_GRANT (R232): A queued xacq is granted when its whole size is free in the block pool, zeroing the new registers. -/
  | xacqGrant (blk : Nat)
  /-- ACCESS_RETURN (R393): An asynchronous load or returning atomic returns and writes its destination lanes, and its in-flight counter falls in order. -/
  | accessReturn (op : Nat)
  /-- STACK_FILL (R228): Spilled reconvergence-stack entries are filled back on chip, stalling the group's issue until done. -/
  | stackFill (g : GRef)
  /-- COPY_COMMAND_COMPLETE (R408): A copy-engine command completes when every element is performed, and its path-3 counter falls. -/
  | copyCommandComplete (op : Nat)
  /-- BD_PIECE_APPLY (R82): A base-die command piece is served by the server of its routing page. -/
  | bdPieceApply (op piece : Nat)
  /-- BD_COMMAND_COMPLETE (R82): A base-die command completes when its last piece completes, and its path-5 counter falls. -/
  | bdCommandComplete (op : Nat)
  /-- TEAM_MMAT_START (R427): When the last team member's mmat arrives, the engine starts one share per member in member order. -/
  | teamMmatStart (blk team : Nat)
  /-- MATRIX_OP_COMPLETE (R416): A matrix op completes, writing rows or promoting narrow accumulators. -/
  | matrixOpComplete (core : Nat)
  /-- MATRIX_BATCH_COMPLETE (R416): A batch completes when all its ops have, and the path-4 counter falls in number order. -/
  | matrixBatchComplete (g : GRef)
  /-- STREAM_WINDOW_RUN (R436): A closed stream window runs all its passes, draws its generators and writes its count destinations. -/
  | streamWindowRun (core : Nat)
  /-- FLOOR_ROUND_START (R206): Every 512 cycles while the worklist holds or awaits items a floor round collects each shard's local minimum. -/
  | floorRoundStart (wl : Nat)
  /-- FLOOR_ROUND_ANNOUNCE (R206): A shard adopts a round result as F := min(R, CAP), shifting buckets and spilling or refilling chunks. -/
  | floorRoundAnnounce (wl shard : Nat)
  /-- LOWER_RECEIVE (R207): A shard receiving LOWER(key) lowers F and CAP and acknowledges. -/
  | lowerReceive (wl shard key frm : Nat)
  /-- LOWER_ACK_COMPLETE (R207): When every LOWER acknowledgement has arrived the stalled push's item enters. -/
  | lowerAckComplete (wl shard : Nat)
  /-- STEAL_REQUEST (R210): A shard with a waiting pop and no eligible item asks other shards in order, and a victim gives up to 8 eligible items. -/
  | stealRequest (wl shard : Nat)
  /-- STEAL_CONFIRM (R211): The thief enters the stolen items and confirms the steal when no round is open at itself. -/
  | stealConfirm (wl shard : Nat)
  /-- TERMINATION_WAVE (R213): A termination wave collects the push and retire totals and emptiness, declaring termination after two agreeing waves. -/
  | terminationWave (wl : Nat)
  /-- SHARD_HANDOVER (R217): A shard spills its items, saves its state to the bound worklist's slot and is zeroed before another record or context binds. -/
  | shardHandover (core : Nat)
  /-- SHARD_UNREACHABLE_TIMEOUT (R218): A shard unreachable for 10 ms makes every group of the worklist trap with DATA.UE at its next worklist instruction. -/
  | shardUnreachableTimeout (wl shard : Nat)
  /-- PAD_WORD_SKIP (R309): Fetch meeting a pad word continues at the next 32-byte boundary. -/
  | padWordSkip (w : W32)
  /-- ILLEGAL_WORD (R325): A fetched word whose MAJ or FN is unassigned, whose length crosses its 32-byte window, or whose MAJ is 0x3F outside firmware raises ILL at issue. -/
  | illegalWord (w : BitVec 128)
  /-- FETCH_FAULT (R156): A fetch whose translation finds the page not valid or X = 0 posts a one-page batch without run-ahead, and the group enters fault wait. -/
  | fetchFault (g : GRef)
  /-- ACK_WITH_GRANT (R99): The home's Ack carrying GRANT reaches the requester of an Upg, which performs its waiting access, answers deferred snoops and returns its completion Ack. -/
  | ackWithGrant (m : Msg)
  /-- LABEL_COMMAND_RESULT (R455): The home's answer to a label command reaches the issuing group, which writes the result word to kd with acquire and leaves the waiting state. -/
  | labelCommandResult (m : Msg)
  /-- PAD_SLICE_ACCESS (R66): A d-level access, or a d-level copy element, arrives at its pad slice and is served there in arrival order as one transaction per slice. -/
  | padSliceAccess (op slice : Nat)
  /-- CLUSTER_SLAB_ACCESS (R393): A c-level access arrives at the slab of the named core of the cluster-mode set and is served there in arrival order. -/
  | clusterSlabAccess (op : Nat)
  /-- NOP (R335): Has no effect. -/
  | nop
  /-- BRA (R332): Branches uniformly by a mask condition, trapping UNIF when lanes disagree. -/
  | bra (c : Nat) (neg : Bool) (off : W32)
  /-- BRD (R224): Divergent branch pushing two paths that join at rpc. -/
  | brd (c : Nat) (neg : Bool) (tgt rpc : W32)
  /-- BRX (R333): Branches to a 64-bit register target, uniform across active lanes. -/
  | brx (a : VSrc)
  /-- CALL (R334): Writes the return address to a k register and branches. -/
  | call (nw : Bool) (kd : Nat) (off : W32)
  /-- RET (R334): Sets PC to a k register. -/
  | ret (ka : Nat)
  /-- EXIT (R227): Clears the path's lanes from every stack entry; the group exits when no lane remains. -/
  | exit
  /-- YIELD (R335): Makes the issuing path not ready for 64 cycles. -/
  | yield
  /-- TRAP (R336): Raises SOFT with the immediate in the trap words. -/
  | trap (imm : W32)
  /-- TRET (R337): Ends handler mode, re-issuing the trapped instruction when RESTART = 1, then continuing at NPC. -/
  | tret
  /-- LAUNCH (R339): Releases, returns a handle and launches the record at depth + 1. -/
  | launch (nw : Bool) (kd ka : Nat)
  /-- SPAWN (R339): Launches one block of one group from a record with an optional argument. -/
  | spawn (nw : Bool) (kd ka : Nat) (arg : Option Nat)
  /-- LWAIT (R340): Waits for a launch to retire and writes its status with acquire. -/
  | lwait (nw : Bool) (kd ka : Nat)
  /-- BAR (R343): Arrives at a block barrier and waits for its phase to complete. -/
  | bar (n : Nat) (cnt : Option Nat)
  /-- ARRIVE (R343): Arrives at a block barrier and writes the phase number without waiting. -/
  | arrive (nw : Bool) (kd n : Nat) (cnt : Option Nat)
  /-- AWAIT (R343): Waits until a barrier's phase number exceeds the given value. -/
  | await (n kp : Nat)
  /-- CBAR (R345): Arrives at a cluster barrier of the set and waits. -/
  | cbar (n : Nat) (cnt : Option Nat) (rank file : Nat)
  /-- XACQ (R232): Requests an extended register block, joining the block's acquire queue. -/
  | xacq (n : Nat)
  /-- XREL (R233): Releases the whole extended block to the pool. -/
  | xrel
  /-- RGIVE (R234): Returns the top registers of the extended block to the pool. -/
  | rgive (n : Nat)
  /-- RCLAIM (R234): Grows the extended block if the registers are free at once, writing success. -/
  | rclaim (nw : Bool) (kd n : Nat)
  /-- ROLESW (R236): Switches the group to another role's register block and entry. -/
  | rolesw (n : Nat)
  /-- SETFMT (R350): Writes the issuing path's FMT from a k register. -/
  | setfmt (ka : Nat)
  /-- SETFMT_IMM (R350): Writes the issuing path's FMT from an immediate. -/
  | setfmtImm (imm : W32)
  /-- GETFMT (R350): Reads FMT into a k register. -/
  | getfmt (nw : Bool) (kd : Nat)
  /-- CRD (R348): Reads a control register into a k register. -/
  | crd (nw : Bool) (kd c : Nat)
  /-- CWR (R350): Writes a writable control register after its checks. -/
  | cwr (c ka : Nat)
  /-- CLOCK (R350): Writes the core cycle count to a k register. -/
  | clock (nw : Bool) (kd : Nat)
  /-- KMOV (R352): Copies a k register. -/
  | kmov (h : Hdr) (kd ka : Nat)
  /-- KADD (R352): Adds two k registers, wrapping or saturating. -/
  | kadd (h : Hdr) (kd ka kb : Nat)
  /-- KADD_IMM (R352): Adds an immediate to a k register. -/
  | kaddImm (h : Hdr) (kd ka : Nat) (imm : W32)
  /-- KSUB (R352): Subtracts k registers. -/
  | ksub (h : Hdr) (kd ka kb : Nat)
  /-- KSUB_IMM (R352): Subtracts an immediate from a k register. -/
  | ksubImm (h : Hdr) (kd ka : Nat) (imm : W32)
  /-- KMUL (R352): Multiplies k registers. -/
  | kmul (h : Hdr) (kd ka kb : Nat)
  /-- KMUL_IMM (R352): Multiplies a k register by an immediate. -/
  | kmulImm (h : Hdr) (kd ka : Nat) (imm : W32)
  /-- KMAD (R352): Multiply-adds k registers. -/
  | kmad (h : Hdr) (kd ka kb kc : Nat)
  /-- KMAD_IMM (R352): Multiply-adds with an immediate multiplier. -/
  | kmadImm (h : Hdr) (kd ka : Nat) (imm : W32) (kc : Nat)
  /-- KAND (R352): Bitwise AND of k registers. -/
  | kand (h : Hdr) (kd ka kb : Nat)
  /-- KAND_IMM (R352): Bitwise AND with an immediate. -/
  | kandImm (h : Hdr) (kd ka : Nat) (imm : W32)
  /-- KOR (R352): Bitwise OR of k registers. -/
  | kor (h : Hdr) (kd ka kb : Nat)
  /-- KOR_IMM (R352): Bitwise OR with an immediate. -/
  | korImm (h : Hdr) (kd ka : Nat) (imm : W32)
  /-- KXOR (R352): Bitwise XOR of k registers. -/
  | kxor (h : Hdr) (kd ka kb : Nat)
  /-- KXOR_IMM (R352): Bitwise XOR with an immediate. -/
  | kxorImm (h : Hdr) (kd ka : Nat) (imm : W32)
  /-- KSHL (R352): Shifts a k register left. -/
  | kshl (h : Hdr) (kd ka kb : Nat)
  /-- KSHL_IMM (R352): Shifts a k register left by an immediate. -/
  | kshlImm (h : Hdr) (kd ka : Nat) (imm : W32)
  /-- KSHR (R352): Shifts a k register right logically. -/
  | kshr (h : Hdr) (kd ka kb : Nat)
  /-- KSHR_IMM (R352): Shifts right logically by an immediate. -/
  | kshrImm (h : Hdr) (kd ka : Nat) (imm : W32)
  /-- KSRA (R352): Shifts a k register right arithmetically. -/
  | ksra (h : Hdr) (kd ka kb : Nat)
  /-- KSRA_IMM (R352): Shifts right arithmetically by an immediate. -/
  | ksraImm (h : Hdr) (kd ka : Nat) (imm : W32)
  /-- KMIN (R352): Lesser of two k registers. -/
  | kmin (h : Hdr) (kd ka kb : Nat)
  /-- KMIN_IMM (R352): Lesser of a k register and an immediate. -/
  | kminImm (h : Hdr) (kd ka : Nat) (imm : W32)
  /-- KMAX (R352): Greater of two k registers. -/
  | kmax (h : Hdr) (kd ka kb : Nat)
  /-- KMAX_IMM (R352): Greater of a k register and an immediate. -/
  | kmaxImm (h : Hdr) (kd ka : Nat) (imm : W32)
  /-- KCMP (R352): Compares k registers, writing 1 or 0. -/
  | kcmp (h : Hdr) (kd ka kb : Nat)
  /-- KCMP_IMM (R352): Compares a k register with an immediate. -/
  | kcmpImm (h : Hdr) (kd ka : Nat) (imm : W32)
  /-- KSEL (R352): Selects one of two k registers by a third. -/
  | ksel (h : Hdr) (kd ka kb kc : Nat)
  /-- KLEA (R352): Computes base plus shifted index plus displacement. -/
  | klea (h : Hdr) (kd ka kb sh disp : Nat)
  /-- KPOPC (R352): Counts the 1 bits of a k register. -/
  | kpopc (h : Hdr) (kd ka : Nat)
  /-- KCLZ (R352): Counts the leading zeros of a k register. -/
  | kclz (h : Hdr) (kd ka : Nat)
  /-- KLI (R353): Loads a 32-bit immediate extended to 64 bits. -/
  | kli (h : Hdr) (kd : Nat) (imm : W32)
  /-- KLI64 (R353): Loads a 64-bit immediate. -/
  | kli64 (h : Hdr) (kd : Nat) (imm : W64)
  /-- KFROMV (R354): Reads one lane of a vector register into a k register. -/
  | kfromv (h : Hdr) (kd va : Nat) (sel : LaneSel)
  /-- ADD (R362): Per-lane integer add, wrapping or saturating. -/
  | add (h : Hdr) (d : VDst) (a b : VSrc)
  /-- ADD_IMM (R362): Per-lane add of an immediate. -/
  | addImm (h : Hdr) (d : VDst) (a : VSrc) (imm : W32)
  /-- ADDC (R362): Add with carry-in and carry-out masks. -/
  | addc (h : Hdr) (d : VDst) (a b : VSrc) (cin cout : Nat)
  /-- SUB (R362): Per-lane integer subtract. -/
  | sub (h : Hdr) (d : VDst) (a b : VSrc)
  /-- SUB_IMM (R362): Per-lane subtract of an immediate. -/
  | subImm (h : Hdr) (d : VDst) (a : VSrc) (imm : W32)
  /-- MUL (R362): Per-lane integer multiply. -/
  | mul (h : Hdr) (d : VDst) (a b : VSrc)
  /-- MUL_IMM (R362): Per-lane multiply by an immediate. -/
  | mulImm (h : Hdr) (d : VDst) (a : VSrc) (imm : W32)
  /-- MULH (R362): High half of the exact product. -/
  | mulh (h : Hdr) (d : VDst) (a b : VSrc)
  /-- MULH_IMM (R362): High half of the product with an immediate. -/
  | mulhImm (h : Hdr) (d : VDst) (a : VSrc) (imm : W32)
  /-- MAD (R362): Per-lane multiply-add. -/
  | mad (h : Hdr) (d : VDst) (a b c : VSrc)
  /-- MAD_IMM (R362): Per-lane multiply-add with an immediate. -/
  | madImm (h : Hdr) (d : VDst) (a : VSrc) (imm : W32) (c : VSrc)
  /-- ABS (R362): Per-lane absolute value. -/
  | abs (h : Hdr) (d : VDst) (a : VSrc)
  /-- AND (R364): Bitwise AND. -/
  | and (h : Hdr) (d : VDst) (a b : VSrc)
  /-- AND_IMM (R364): Bitwise AND with an immediate. -/
  | andImm (h : Hdr) (d : VDst) (a : VSrc) (imm : W32)
  /-- OR (R364): Bitwise OR. -/
  | or (h : Hdr) (d : VDst) (a b : VSrc)
  /-- OR_IMM (R364): Bitwise OR with an immediate. -/
  | orImm (h : Hdr) (d : VDst) (a : VSrc) (imm : W32)
  /-- XOR (R364): Bitwise XOR. -/
  | xor (h : Hdr) (d : VDst) (a b : VSrc)
  /-- XOR_IMM (R364): Bitwise XOR with an immediate. -/
  | xorImm (h : Hdr) (d : VDst) (a : VSrc) (imm : W32)
  /-- LOP3 (R364): Arbitrary three-input bitwise function by truth table. -/
  | lop3 (h : Hdr) (d : VDst) (a b c : VSrc) (tbl : BitVec 8)
  /-- SHL (R364): Per-element left shift. -/
  | shl (h : Hdr) (d : VDst) (a b : VSrc)
  /-- SHL_IMM (R364): Left shift by an immediate. -/
  | shlImm (h : Hdr) (d : VDst) (a : VSrc) (imm : W32)
  /-- SHR (R364): Per-element logical right shift. -/
  | shr (h : Hdr) (d : VDst) (a b : VSrc)
  /-- SHR_IMM (R364): Logical right shift by an immediate. -/
  | shrImm (h : Hdr) (d : VDst) (a : VSrc) (imm : W32)
  /-- SRA (R364): Per-element arithmetic right shift. -/
  | sra (h : Hdr) (d : VDst) (a b : VSrc)
  /-- SRA_IMM (R364): Arithmetic right shift by an immediate. -/
  | sraImm (h : Hdr) (d : VDst) (a : VSrc) (imm : W32)
  /-- MIN (R366): Per-element integer minimum. -/
  | min (h : Hdr) (d : VDst) (a b : VSrc)
  /-- MIN_IMM (R366): Minimum with an immediate. -/
  | minImm (h : Hdr) (d : VDst) (a : VSrc) (imm : W32)
  /-- MAX (R366): Per-element integer maximum. -/
  | max (h : Hdr) (d : VDst) (a b : VSrc)
  /-- MAX_IMM (R366): Maximum with an immediate. -/
  | maxImm (h : Hdr) (d : VDst) (a : VSrc) (imm : W32)
  /-- CMP (R366): Integer compare into a mask register. -/
  | cmp (h : Hdr) (md : Nat) (a b : VSrc)
  /-- CMP_IMM (R366): Integer compare with an immediate into a mask. -/
  | cmpImm (h : Hdr) (md : Nat) (a : VSrc) (imm : W32)
  /-- SEL (R366): Per-lane select by a mask. -/
  | sel (h : Hdr) (d : VDst) (a b : VSrc) (mc : Nat)
  /-- MOV (R366): Per-lane move. -/
  | mov (h : Hdr) (d : VDst) (a : VSrc)
  /-- MOV_IMM (R366): Per-lane move of an immediate. -/
  | movImm (h : Hdr) (d : VDst) (imm : W32)
  /-- MOVK (R366): Writes a k value into one lane of a vector register. -/
  | movk (h : Hdr) (d : VDst) (kv kl : Nat)
  /-- POPC (R368): Counts the 1 bits of each lane. -/
  | popc (h : Hdr) (d : VDst) (a : VSrc)
  /-- CLZ (R368): Counts leading zeros of each lane. -/
  | clz (h : Hdr) (d : VDst) (a : VSrc)
  /-- BREV (R368): Reverses the bits of each lane. -/
  | brev (h : Hdr) (d : VDst) (a : VSrc)
  /-- BFE (R368): Extracts a bit field. -/
  | bfe (h : Hdr) (d : VDst) (a b : VSrc)
  /-- BFE_IMM (R368): Extracts a bit field described by an immediate. -/
  | bfeImm (h : Hdr) (d : VDst) (a : VSrc) (imm : W32)
  /-- BFI (R368): Inserts a bit field. -/
  | bfi (h : Hdr) (d : VDst) (a b c : VSrc)
  /-- BFI_IMM (R368): Inserts a bit field described by an immediate. -/
  | bfiImm (h : Hdr) (d : VDst) (a : VSrc) (imm : W32) (c : VSrc)
  /-- FADD (R370): Float add with one rounding. -/
  | fadd (h : Hdr) (d : VDst) (a b : VSrc)
  /-- FADD_IMM (R370): Float add of an immediate. -/
  | faddImm (h : Hdr) (d : VDst) (a : VSrc) (imm : W32)
  /-- FSUB (R370): Float subtract. -/
  | fsub (h : Hdr) (d : VDst) (a b : VSrc)
  /-- FSUB_IMM (R370): Float subtract of an immediate. -/
  | fsubImm (h : Hdr) (d : VDst) (a : VSrc) (imm : W32)
  /-- FMUL (R370): Float multiply. -/
  | fmul (h : Hdr) (d : VDst) (a b : VSrc)
  /-- FMUL_IMM (R370): Float multiply by an immediate. -/
  | fmulImm (h : Hdr) (d : VDst) (a : VSrc) (imm : W32)
  /-- FMA (R370): Fused multiply-add with one rounding. -/
  | fma (h : Hdr) (d : VDst) (a b c : VSrc)
  /-- FMA_IMM (R370): Fused multiply-add with an immediate. -/
  | fmaImm (h : Hdr) (d : VDst) (a : VSrc) (imm : W32) (c : VSrc)
  /-- FMIN (R370): Float minimum. -/
  | fmin (h : Hdr) (d : VDst) (a b : VSrc)
  /-- FMIN_IMM (R370): Float minimum with an immediate. -/
  | fminImm (h : Hdr) (d : VDst) (a : VSrc) (imm : W32)
  /-- FMAX (R370): Float maximum. -/
  | fmax (h : Hdr) (d : VDst) (a b : VSrc)
  /-- FMAX_IMM (R370): Float maximum with an immediate. -/
  | fmaxImm (h : Hdr) (d : VDst) (a : VSrc) (imm : W32)
  /-- FCMP (R371): Float compare into a mask register. -/
  | fcmp (h : Hdr) (md : Nat) (a b : VSrc)
  /-- FCMP_IMM (R371): Float compare with an immediate into a mask. -/
  | fcmpImm (h : Hdr) (md : Nat) (a : VSrc) (imm : W32)
  /-- FCLASS (R372): Writes the class bit of each float element. -/
  | fclass (h : Hdr) (d : VDst) (a : VSrc)
  /-- FSCALE (R370): Multiplies by a power of two with rounding. -/
  | fscale (h : Hdr) (d : VDst) (a b : VSrc)
  /-- FSCALE_IMM (R370): Scales by an immediate power of two. -/
  | fscaleImm (h : Hdr) (d : VDst) (a : VSrc) (imm : W32)
  /-- FRND (R370): Rounds to an integral float value. -/
  | frnd (h : Hdr) (d : VDst) (a : VSrc)
  /-- FRCP (R292): Correctly rounded reciprocal. -/
  | frcp (h : Hdr) (d : VDst) (a : VSrc)
  /-- FSQRT (R292): Correctly rounded square root. -/
  | fsqrt (h : Hdr) (d : VDst) (a : VSrc)
  /-- FRSQ (R296): Reciprocal square root by the defined algorithm. -/
  | frsq (h : Hdr) (d : VDst) (a : VSrc)
  /-- FEXP2 (R294): Base-2 exponential by the defined algorithm. -/
  | fexp2 (h : Hdr) (d : VDst) (a : VSrc)
  /-- FLOG2 (R295): Base-2 logarithm by the defined algorithm. -/
  | flog2 (h : Hdr) (d : VDst) (a : VSrc)
  /-- CVT (R376): Converts elements between types, selecting the part by ELEM. -/
  | cvt (h : Hdr) (d : VDst) (a : VSrc) (src : Ty) (elem : Nat)
  /-- LPACK (R377): Converts 16 values to l6 and packs them into three registers. -/
  | lpack (h : Hdr) (d : VDst) (va : Nat) (src : Ty)
  /-- LUNPK (R377): Unpacks l6 packed codes into floats or byte-form codes. -/
  | lunpk (h : Hdr) (d : VDst) (va : Nat)
  /-- SHFL (R379): Each lane reads another lane chosen by a selector. -/
  | shfl (h : Hdr) (d : VDst) (a b : VSrc)
  /-- SHFL_IMM (R379): Shuffle with an immediate selector. -/
  | shflImm (h : Hdr) (d : VDst) (a : VSrc) (imm : W32)
  /-- BCAST (R379): Broadcasts one lane chosen by a k register. -/
  | bcast (h : Hdr) (d : VDst) (a : VSrc) (kl : Nat)
  /-- BCAST_IMM (R379): Broadcasts one lane chosen by an immediate. -/
  | bcastImm (h : Hdr) (d : VDst) (a : VSrc) (imm : W32)
  /-- COMPRESS (R380): Keeps the two larger elements of each group of four and writes metadata. -/
  | compress (h : Hdr) (d : VDst) (a b : VSrc) (vm slot : Nat)
  /-- EXPAND (R381): Restores 2:4-compressed elements to their positions. -/
  | expand (h : Hdr) (d : VDst) (a vm : VSrc) (slot : Nat)
  /-- REDADD (R383): Sums the active lanes. -/
  | redadd (h : Hdr) (d : VDst) (a : VSrc)
  /-- REDMIN (R383): Minimum over active lanes. -/
  | redmin (h : Hdr) (d : VDst) (a : VSrc)
  /-- REDMAX (R383): Maximum over active lanes. -/
  | redmax (h : Hdr) (d : VDst) (a : VSrc)
  /-- REDAND (R383): AND over active lanes. -/
  | redand (h : Hdr) (d : VDst) (a : VSrc)
  /-- REDOR (R383): OR over active lanes. -/
  | redor (h : Hdr) (d : VDst) (a : VSrc)
  /-- REDXOR (R383): XOR over active lanes. -/
  | redxor (h : Hdr) (d : VDst) (a : VSrc)
  /-- SCAN (R385): Inclusive or exclusive prefix operation over active lanes. -/
  | scan (h : Hdr) (d : VDst) (a : VSrc)
  /-- REDMIN_INDEX (R384): Minimum over active lanes with the index of the lowest winning lane. -/
  | redminIndex (h : Hdr) (d di : VDst) (a b : VSrc)
  /-- REDMAX_INDEX (R384): Maximum over active lanes with the index of the lowest winning lane. -/
  | redmaxIndex (h : Hdr) (d di : VDst) (a b : VSrc)
  /-- BALLOT (R386): Writes a bit per active lane with a non-zero value. -/
  | ballot (h : Hdr) (kd : Nat) (a : VSrc)
  /-- VANY (R386): Writes 1 if any active lane is non-zero. -/
  | vany (h : Hdr) (kd : Nat) (a : VSrc)
  /-- VALL (R386): Writes 1 if every active lane is non-zero. -/
  | vall (h : Hdr) (kd : Nat) (a : VSrc)
  /-- ELECT (R386): Writes the lowest set bit of the active mask AND a mask. -/
  | elect (h : Hdr) (md ms : Nat)
  /-- MCNT (R386): Counts the set bits of the active mask AND a mask. -/
  | mcnt (h : Hdr) (kd ms : Nat)
  /-- MLOG (R386): Logical operation on whole mask registers. -/
  | mlog (h : Hdr) (md ma mb : Nat)
  /-- LDG (R393): Per-lane global load through the L1. -/
  | ldg (h : Hdr) (d : VDst) (ad : Addr) (scope : Nat)
  /-- STG (R393): Per-lane global store through the L1. -/
  | stg (h : Hdr) (ad : Addr) (b : VSrc) (scope : Nat)
  /-- PREF (R396): Prefetches grains with RdS without trapping. -/
  | pref (h : Hdr) (ad : Addr)
  /-- LDS (R393): Load from the block slab. -/
  | lds (h : Hdr) (d : VDst) (ad : Addr)
  /-- STS (R393): Store to the block slab. -/
  | sts (h : Hdr) (ad : Addr) (b : VSrc)
  /-- LDC (R395): Load from the slab of a cluster-mode core. -/
  | ldc (h : Hdr) (d : VDst) (off : VSrc) (disp rank file scope : Nat)
  /-- STC (R395): Store to the slab of a cluster-mode core. -/
  | stc (h : Hdr) (off : VSrc) (disp rank file : Nat) (b : VSrc) (scope : Nat)
  /-- LDD (R393): Load from the device pad window. -/
  | ldd (h : Hdr) (d : VDst) (ad : Addr) (scope : Nat)
  /-- STD (R393): Store to the device pad window. -/
  | std (h : Hdr) (ad : Addr) (b : VSrc) (scope : Nat)
  /-- LDL (R393): Load from lane-private memory. -/
  | ldl (h : Hdr) (d : VDst) (ad : Addr)
  /-- STL (R393): Store to lane-private memory. -/
  | stl (h : Hdr) (ad : Addr) (b : VSrc)
  /-- ATOM (R398): Returning atomic operation at the L1. -/
  | atom (h : Hdr) (d : VDst) (ad : Addr) (b : VSrc) (aop scope : Nat)
  /-- ATOMC (R398): Atomic compare-and-swap returning the old value. -/
  | atomc (h : Hdr) (d : VDst) (ad : Addr) (b c : VSrc) (scope : Nat)
  /-- RED (R398): Non-returning atomic operation. -/
  | red (h : Hdr) (ad : Addr) (b : VSrc) (aop scope : Nat)
  /-- ATOMS (R398): Atomic store performed uncached at the home. -/
  | atoms (h : Hdr) (ad : Addr) (b : VSrc) (scope : Nat)
  /-- FENCE (R264): Orders accesses of the classes in P before those in Q, or acts as fence.sc. -/
  | fence (sc : Bool) (p q scope : Nat)
  /-- OFENCE (R400): Marks earlier asynchronous register writes that later matrix ops must wait for. -/
  | ofence
  /-- WAITP (R401): Waits until an in-flight counter falls to a threshold. -/
  | waitp (p kn : Nat)
  /-- CFLUSH (R396): Evicts grains from the L1 and waits for their WbAcks. -/
  | cflush (h : Hdr) (ad : Addr)
  /-- CINV (R396): Drops grains held in S or T from the L1. -/
  | cinv (h : Hdr) (ad : Addr)
  /-- TCOPY (R405): Reads and checks a tensor record and queues a copy to memory or registers. -/
  | tcopy (nw : Bool) (d : Option Nat) (krec : Nat)
  /-- TSTORE (R405): Queues a copy from registers to the tensor record's destination. -/
  | tstore (krec vs : Nat)
  /-- TFILL (R405): Queues a fill of the record's destination with a k value. -/
  | tfill (krec kval : Nat)
  /-- BDGATHER (R410): Base-die gather of indexed rows. -/
  | bdgather (kd ka kl kc rsz : Nat) (iw : Bool)
  /-- BDSCAT (R410): Base-die scatter of rows to indexed places. -/
  | bdscat (kd ka kl kc rsz : Nat) (iw : Bool)
  /-- BDRED (R410): Base-die reduction of rows into indexed places. -/
  | bdred (ty : Ty) (kd ka : Nat) (kl : Option Nat) (kc rsz : Nat) (iw : Bool) (rop : Nat)
  /-- BDCONV (R410): Base-die element conversion. -/
  | bdconv (ty src : Ty) (kd ka kc : Nat)
  /-- ACCWIN (R418): Leader sets a group's accumulator window. -/
  | accwin (kg kb kl : Nat)
  /-- ACCZ (R421): Zeroes accumulator rows. -/
  | accz (r : RowOp) (c : Nat)
  /-- ACCLD (R421): Loads accumulator rows from memory through a tensor record. -/
  | accld (r : RowOp) (krec : Nat)
  /-- ACCST (R421): Stores accumulator rows to memory through a tensor record. -/
  | accst (krec : Nat) (r : RowOp)
  /-- ACCOUT (R421): Converts accumulator rows to registers or memory. -/
  | accout (h : Hdr) (d : AccDst) (r : RowOp) (c : Nat)
  /-- MMA (R425): Matrix op summing fragment products into 64 accumulator rows. -/
  | mma (r : RowOp) (a b sc : Nat)
  /-- MMAT (R427): Team matrix op using the leader's B. -/
  | mmat (r : RowOp) (a b sc : Nat)
  /-- MMAS (R426): Matrix op with a 2:4-compressed A. -/
  | mmas (r : RowOp) (a b sc : Nat)
  /-- MFENCE (R429): Closes the open batch and returns its number. -/
  | mfence (kd : Nat)
  /-- MWAIT (R429): Waits until batches up to a number have completed. -/
  | mwait (ka : Nat)
  /-- MSTAT (R430): Returns the status of a batch. -/
  | mstat (kd : Nat) (ka : Option Nat)
  /-- SGEN (R440): Generates a stream from a unipolar probability. -/
  | sgen (zd : Nat) (a : VSrc) (cls : Nat)
  /-- SGENB (R440): Generates a stream from a bipolar value. -/
  | sgenb (zd : Nat) (a : VSrc) (cls : Nat)
  /-- SREGEN (R440): Regenerates a stream's current density under another class. -/
  | sregen (zd za cls : Nat)
  /-- SSEED (R441): Closes the window and reseeds a generator class. -/
  | sseed (ka cls : Nat)
  /-- SLEN (R442): Closes the window and sets pass length and count. -/
  | slen (imm : W32)
  /-- SRND (R443): Closes the window and draws one word per active lane. -/
  | srnd (msk : Nat) (d : VDst) (cls : Nat)
  /-- SAND (R444): ANDs two independent streams. -/
  | sand (zd za zb : Nat)
  /-- SOR (R444): ORs two independent streams. -/
  | sor (zd za zb : Nat)
  /-- SXOR (R444): XORs two independent streams. -/
  | sxor (zd za zb : Nat)
  /-- SXNOR (R444): XNORs two independent streams. -/
  | sxnor (zd za zb : Nat)
  /-- SNOT (R444): Inverts a stream. -/
  | snot (zd za : Nat)
  /-- SMUX (R444): Selects between streams by a select stream. -/
  | smux (zd za zb zs : Nat)
  /-- SMIN (R444): Minimum of correlated streams. -/
  | smin (zd za zb : Nat)
  /-- SMAX (R444): Maximum of correlated streams. -/
  | smax (zd za zb : Nat)
  /-- SDEP (R446): Writes the dependency tags of two streams. -/
  | sdep (kd za zb : Nat)
  /-- SCNT (R447): Counts a stream's ones, closing the window. -/
  | scnt (msk : Nat) (d : VDst) (za out : Nat)
  /-- SCNTA (R447): Adds a stream's count to a register, closing the window. -/
  | scnta (msk : Nat) (d : VDst) (za : Nat)
  /-- WLCFG (R449): Binds the group to a worklist record. -/
  | wlcfg (ka : Option Nat)
  /-- WLPUSH (R450): Pushes items at the group's shard after a release. -/
  | wlpush (msk : Nat) (n64 : Bool) (a b : VSrc)
  /-- WLPOP (R451): Pops eligible items, optionally waiting. -/
  | wlpop (msk : Nat) (n64 : Bool) (d : VDst) (md : Nat) (wait : Bool)
  /-- WLRET (R452): Retires held items with a release. -/
  | wlret (msk : Nat) (b : VSrc)
  /-- WLFLOOR (R453): Returns the shard's floor F. -/
  | wlfloor (kd : Nat)
  /-- WLDONE (R453): Returns whether termination has been declared. -/
  | wldone (kd : Nat)
  /-- WLSTAT (R453): Returns shard counts by selector. -/
  | wlstat (kd sel : Nat)
  /-- LBLRD (R455): Sends LRD to the region's home and returns the result word. -/
  | lblrd (kd ka : Nat)
  /-- LBLSET (R455): Sends LSET to the region's home and waits for SWITCHING to complete. -/
  | lblset (kd ka lbl : Nat)
  /-- LBLLOCK (R455): Sends LLOCK to the region's home. -/
  | lbllock (kd ka : Nat)
  /-- LBLUNL (R455): Sends LUNL to the region's home. -/
  | lblunl (kd ka : Nat)
  /-- LBLHIST (R455): Sends LHIST to the region's home. -/
  | lblhist (kd ka : Nat)
  deriving DecidableEq, Repr

end Sys2Proof
end

