-- ==== Sys2Proof/Machine/Bits.lean ====
section
/-! DEFINITION. The bit-field, sign-extension, byte-order and sparse-map helpers that every other file uses (R4, R5, R291). -/

namespace Sys2Proof

/-! ## Sparse maps -/

/-- The value at `k`, or the map's default `d`. -/
def FMap.get {α : Type} (d : α) : FMap α → Nat → α
  | [], _ => d
  | (k', v) :: r, k => if k' = k then v else FMap.get d r k

/-- Write `v` at `k`, keeping the keys rising and dropping an entry equal to the default `d`. -/
def FMap.set {α : Type} [DecidableEq α] (d : α) : FMap α → Nat → α → FMap α
  | [], k, v => if v = d then [] else [(k, v)]
  | (k', w) :: r, k, v =>
    if k' = k then (if v = d then r.filter (·.1 ≠ k) else (k, v) :: r)
    else if k < k' ∧ v ≠ d then (k, v) :: (k', w) :: r
    else (k', w) :: FMap.set d r k v

/-- The canonical form: keys strictly rising above `lo`, no entry equal to the default. -/
def FMap.wfFrom {α : Type} [DecidableEq α] (d : α) : Nat → FMap α → Bool
  | _, [] => true
  | lo, (k, v) :: r => decide (lo ≤ k) && decide (v ≠ d) && FMap.wfFrom d (k + 1) r

/-- The canonical form of a whole map. -/
def FMap.wf {α : Type} [DecidableEq α] (d : α) (m : FMap α) : Bool := FMap.wfFrom d 0 m

/-- Write several entries, the later ones over the earlier. -/
def FMap.setAll {α : Type} [DecidableEq α] (d : α) (m : FMap α) (es : List (Nat × α)) : FMap α :=
  es.foldl (fun m e => FMap.set d m e.1 e.2) m

end Sys2Proof

namespace Sys2Proof.Machine

open Sys2Proof

/-! ## Bit fields -/

/-- x[hi:lo] of R4 as a number. -/
def bits (x hi lo : Nat) : Nat := (x / 2 ^ lo) % 2 ^ (hi + 1 - lo)

/-- One bit of a number. -/
def bit (x i : Nat) : Bool := (x / 2 ^ i) % 2 = 1

/-- x with bits hi:lo replaced by v. -/
def setBits (x hi lo v : Nat) : Nat :=
  (x / 2 ^ (hi + 1)) * 2 ^ (hi + 1) + (v % 2 ^ (hi + 1 - lo)) * 2 ^ lo + x % 2 ^ lo

/-- The field x of w bits read as two's complement (SignExtend of R291). -/
def sext (w x : Nat) : Int := if bit x (w - 1) then (x % 2 ^ w : Nat) - (2 ^ w : Nat) else (x % 2 ^ w : Nat)

/-- An integer modulo 2^w. -/
def wrapN (w : Nat) (x : Int) : Nat := (x % (2 ^ w : Nat)).toNat

/-- clamp of R291. -/
def clampI (x lo hi : Int) : Int := if x < lo then lo else if hi < x then hi else x

/-- The number of 1 bits among the low n bits of x. -/
def popcountN : Nat → Nat → Nat
  | 0, _ => 0
  | n + 1, x => x % 2 + popcountN n (x / 2)

/-- BitRev of R291: the low n bits of x in reverse order. -/
def bitRevN : Nat → Nat → Nat
  | 0, _ => 0
  | n + 1, x => (x % 2) * 2 ^ n + bitRevN n (x / 2)

/-- Leading zeros of x in w bits. -/
def clzN (w x : Nat) : Nat := if x % 2 ^ w = 0 then w else w - 1 - Nat.log2 (x % 2 ^ w)

/-- The lanes 0 to 63 (R5). -/
def lanes : List Nat := List.range 64

/-- Lane l of a mask. -/
def laneOn (m : Mask) (l : Nat) : Bool := m.getLsbD l

/-- The lanes of a mask in ascending order. -/
def activeLanes (m : Mask) : List Nat := lanes.filter (laneOn m)

/-- The mask of the lanes for which f holds. -/
def maskOf (f : Nat → Bool) : Mask := BitVec.ofNat 64 (lanes.foldl (fun a l => if f l then a + 2 ^ l else a) 0)

/-! ## Bytes -/

/-- The n little-endian bytes of x (R5). -/
def toBytes : Nat → Nat → List Byte
  | 0, _ => []
  | n + 1, x => BitVec.ofNat 8 x :: toBytes n (x / 256)

/-- The number that little-endian bytes hold (R5). -/
def ofBytes : List Byte → Nat
  | [] => 0
  | b :: r => b.toNat + 256 * ofBytes r

/-- The elements of a list that f maps to a value, with the value. -/
def findMap {α β : Type} (f : α → Option β) : List α → Option β
  | [] => none
  | a :: r => match f a with
    | some b => some b
    | none => findMap f r

/-- Replace the elements for which p holds. -/
def mapIf {α : Type} (p : α → Bool) (f : α → α) (l : List α) : List α := l.map fun a => if p a then f a else a

/-- The part of a list from position i, of length n, filled with d beyond its end. -/
def slice {α : Type} (d : α) (l : List α) (i n : Nat) : List α := (List.range n).map fun j => l.getD (i + j) d

/-- The list with its elements from position i replaced by those of v. -/
def splice {α : Type} (l : List α) (i : Nat) (v : List α) : List α :=
  (List.range l.length).zip l |>.map fun (j, x) => if i ≤ j then (v[j - i]?).getD x else x

end Sys2Proof.Machine
end

