-- ==== Sys2Proof/Machine/Numeric.lean ====
section
/-! DEFINITION. Number formats and exact arithmetic: the formats of R271, Round and Overflow (R277, R278), integer targets
(R279), conversions (R280, R284), l6 (R283, R285, R287), the exact sums of R282, and the roots and transcendentals of R292 to
R296. Values are exact: a float is a sign, a natural mantissa and a power of two. -/

namespace Sys2Proof.Machine

open Sys2Proof

/-- A float format of R271. -/
structure Fmt where
  bits : Nat
  fb : Nat
  bias : Nat
  maxBits : Nat
  infBits : Option Nat
  nanBits : Nat
  deriving DecidableEq, Repr

def fmtF32 : Fmt := ⟨32, 23, 127, 0x7F7FFFFF, some 0x7F800000, 0x7FC00000⟩
def fmtBf16 : Fmt := ⟨16, 7, 127, 0x7F7F, some 0x7F80, 0x7FC0⟩
def fmtF16 : Fmt := ⟨16, 10, 15, 0x7BFF, some 0x7C00, 0x7E00⟩
def fmtE4m3 : Fmt := ⟨8, 3, 7, 0x7E, none, 0x7F⟩
def fmtE5m2 : Fmt := ⟨8, 2, 15, 0x7B, some 0x7C, 0x7E⟩

/-- EMIN of R277: the exponent of the smallest normal. -/
def Fmt.emin (F : Fmt) : Int := 1 - (F.bias : Int)

/-- An exact float value: NaN, an infinity, or (-1)^neg * m * 2^e, where m = 0 is a signed zero. -/
inductive FVal where
  | nan | inf (neg : Bool) | fin (neg : Bool) (m : Nat) (e : Int)
  deriving DecidableEq, Repr

/-- The value a code of format F stands for (R271). -/
def Fmt.decode (F : Fmt) (c : Nat) : FVal :=
  let mag := c % 2 ^ (F.bits - 1)
  let neg := bit c (F.bits - 1)
  if F.maxBits < mag then (if F.infBits = some mag then .inf neg else .nan)
  else
    let ex := mag / 2 ^ F.fb
    let fr := mag % 2 ^ F.fb
    if ex = 0 then .fin neg fr (F.emin - F.fb) else .fin neg (2 ^ F.fb + fr) ((ex : Int) - F.bias - F.fb)

/-- The sign bit of format F. -/
def Fmt.sign (F : Fmt) (neg : Bool) : Nat := if neg then 2 ^ (F.bits - 1) else 0

/-- The rounding modes of R275 and R320. -/
inductive Rnd where
  | rne | rtz | rdn | rup | sr
  deriving DecidableEq, Repr

/-- Overflow of R278; e4m3 saturates in every mode. -/
def Fmt.overflow (F : Fmt) (mode : Rnd) (neg : Bool) : Nat :=
  F.sign neg + (match F.infBits with
    | none => F.maxBits
    | some i => match mode, neg with
      | .rtz, _ => F.maxBits
      | .rdn, false => F.maxBits
      | .rup, true => F.maxBits
      | _, _ => i)

/-- The infinity of F, or NaN where F has none (R271, R280). -/
def Fmt.inf (F : Fmt) (neg : Bool) : Nat := match F.infBits with
  | some i => F.sign neg + i
  | none => F.nanBits

/-- A positive exact magnitude as Round needs it: floor(log2) and, for a unit 2^p, the magnitude in that unit rounded down
with whether anything was cut off. -/
structure Mag where
  lg : Int
  scaled : Int → Nat × Bool

/-- m * 2^e, m > 0. -/
def Mag.dyadic (m : Nat) (e : Int) : Mag where
  lg := Nat.log2 m + e
  scaled p := if p ≤ e then (m * 2 ^ (e - p).toNat, false)
    else (m / 2 ^ (p - e).toNat, decide (m % 2 ^ (p - e).toNat ≠ 0))

/-- (1 / m) * 2^e, m > 0. -/
def Mag.recip (m : Nat) (e : Int) : Mag where
  lg := e - (if 2 ^ Nat.log2 m = m then Nat.log2 m else Nat.log2 m + 1)
  scaled p := if p ≤ e then (2 ^ (e - p).toNat / m, decide (2 ^ (e - p).toNat % m ≠ 0))
    else (1 / (m * 2 ^ (p - e).toNat), decide (m * 2 ^ (p - e).toNat ≠ 1))

/-- The integer square root of n by bits, from bit b down. -/
def isqrtFrom (n : Nat) : Nat → Nat → Nat
  | 0, r => r
  | b + 1, r => if (r + 2 ^ b) * (r + 2 ^ b) ≤ n then isqrtFrom n b (r + 2 ^ b) else isqrtFrom n b r

/-- floor(sqrt n). -/
def isqrt (n : Nat) : Nat := isqrtFrom n (Nat.log2 n / 2 + 1) 0

/-- sqrt(m * 2^e), m > 0. -/
def Mag.sqrt (m : Nat) (e : Int) : Mag where
  lg := (Nat.log2 m + e) / 2
  scaled p :=
    let v := (Mag.dyadic m e).scaled (2 * p)
    let r := isqrt v.1
    (r, decide (r * r ≠ v.1) || v.2)

/-- The increment of R277: low17 holds the top 17 bits of D and `st` whether anything lies below them. -/
def roundUp (mode : Rnd) (neg : Bool) (k low17 : Nat) (st : Bool) (w : Nat) : Bool :=
  match mode with
  | .rne => decide (2 ^ 16 < low17) || (decide (low17 = 2 ^ 16) && (st || k % 2 = 1))
  | .rtz => false
  | .rdn => neg && (decide (low17 ≠ 0) || st)
  | .rup => !neg && (decide (low17 ≠ 0) || st)
  | .sr => decide (2 ^ 16 ≤ low17 / 2 + w)

/-- Round(x, F, mode, w) of R277 for x = (-1)^neg * a with a > 0, as a code of F. -/
def roundMag (F : Fmt) (mode : Rnd) (neg : Bool) (a : Mag) (w : Nat) : Nat :=
  let e := max a.lg F.emin
  let q := e - F.fb
  let (t, st) := a.scaled (q - 17)
  let k := t / 2 ^ 17
  let m := if roundUp mode neg k (t % 2 ^ 17) st w then k + 1 else k
  let mag := if m < 2 ^ F.fb then m else (e + F.bias - 1).toNat * 2 ^ F.fb + m
  if F.maxBits < mag then F.overflow mode neg else F.sign neg + mag

/-- Round of an exact value; a zero keeps its sign, NaN and infinities take the codes of F. -/
def roundF (F : Fmt) (mode : Rnd) (w : Nat) : FVal → Nat
  | .nan => F.nanBits
  | .inf neg => F.inf neg
  | .fin neg m e => if m = 0 then F.sign neg else roundMag F mode neg (Mag.dyadic m e) w

/-- Rounding to an integer with q = 1 (R279): the signed integer nearest by mode. -/
def roundI (mode : Rnd) (w : Nat) (neg : Bool) (m : Nat) (e : Int) : Int :=
  if m = 0 then 0 else
  let (t, st) := (Mag.dyadic m e).scaled (-17)
  let k := t / 2 ^ 17
  let k' := if roundUp mode neg k (t % 2 ^ 17) st w then k + 1 else k
  if neg then -(k' : Int) else k'

/-! ## Exact arithmetic on values -/

/-- The signed integer in units of 2^p, for p no greater than the exponent. -/
def FVal.units (p : Int) : FVal → Int
  | .fin neg m e => let v : Int := (m * 2 ^ (e - p).toNat : Nat); if neg then -v else v
  | _ => 0

/-- The exact value v * 2^p, with `zneg` the sign of an exact zero. -/
def FVal.ofUnits (zneg : Bool) (v p : Int) : FVal :=
  if v = 0 then .fin zneg 0 0 else .fin (decide (v < 0)) v.natAbs p

def FVal.isNeg : FVal → Bool
  | .nan => false | .inf n => n | .fin n _ _ => n

def FVal.isZero : FVal → Bool
  | .fin _ 0 _ => true | _ => false

def FVal.neg : FVal → FVal
  | .nan => .nan | .inf n => .inf (!n) | .fin n m e => .fin (!n) m e

/-- The exponent below which a value has no bits. -/
def FVal.expo : FVal → Int
  | .fin _ m e => if m = 0 then 0 else e
  | _ => 0

/-- The exact sum (R273, R370): NaN for NaN or opposite infinities; an exact zero sum is -0 only under RDN or when both
terms are -0. -/
def FVal.add (mode : Rnd) (a b : FVal) : FVal :=
  match a, b with
  | .nan, _ => .nan
  | _, .nan => .nan
  | .inf x, .inf y => if x = y then .inf x else .nan
  | .inf x, _ => .inf x
  | _, .inf y => .inf y
  | .fin x m e, .fin y n f =>
    let p := min (FVal.expo (.fin x m e)) (FVal.expo (.fin y n f))
    FVal.ofUnits (if m = 0 ∧ n = 0 ∧ x = y then x else mode = .rdn)
      (FVal.units p (.fin x m (if m = 0 then p else e)) + FVal.units p (.fin y n (if n = 0 then p else f))) p

/-- The exact product (R273): 0 times infinity is NaN. -/
def FVal.mul (a b : FVal) : FVal :=
  match a, b with
  | .nan, _ => .nan
  | _, .nan => .nan
  | .inf x, b => if b.isZero then .nan else .inf (x ^^ b.isNeg)
  | a, .inf y => if a.isZero then .nan else .inf (a.isNeg ^^ y)
  | .fin x m e, .fin y n f => .fin (x ^^ y) (m * n) (if m * n = 0 then 0 else e + f)

/-- The exact sum of a list with the special cases of R282: NaN if a term is NaN or infinities of both signs stand among the
terms; an exact zero sum is -0 when every term is -0 (and there is one) or under RDN. -/
def FVal.sum (mode : Rnd) (ts : List FVal) : FVal :=
  if ts.any (· = .nan) || (ts.any (· = .inf true) && ts.any (· = .inf false)) then .nan
  else if ts.any (· = .inf true) then .inf true
  else if ts.any (· = .inf false) then .inf false
  else
    let p := ts.foldl (fun p t => min p t.expo) 0
    let zneg := if mode = .rdn then true else !ts.isEmpty && ts.all fun t => t.isNeg && t.isZero
    FVal.ofUnits zneg (ts.foldl (fun s t => s + (if t.isZero then 0 else t.units p)) 0) p

/-- The order of two values that are not NaN, -0 below +0 when `signed` (R370), else equal (R371). -/
def FVal.lt (signedZero : Bool) (a b : FVal) : Bool :=
  match a, b with
  | .nan, _ => false
  | _, .nan => false
  | .inf x, .inf y => x && !y
  | .inf x, _ => x
  | _, .inf y => !y
  | .fin x m e, .fin y n f =>
    let p := min (FVal.expo (.fin x m e)) (FVal.expo (.fin y n f))
    let u := FVal.units p (.fin x m (if m = 0 then p else e))
    let v := FVal.units p (.fin y n (if n = 0 then p else f))
    if u = 0 ∧ v = 0 then signedZero && x && !y else decide (u < v)

/-! ## Integers -/

/-- Sat32 of R279. -/
def sat32 (x : Int) : Int × Bool :=
  let y := clampI x (-2147483648) 2147483647
  (y, decide (x ≠ y))

/-- Sat4 and Sat6 of R279. -/
def sat4 (x : Nat) : Nat := min x 15
def sat6 (x : Nat) : Nat := min x 63

/-! ## The logarithmic format -/

/-- T6 of R283. -/
def t6 (f : Nat) : Nat := [4096, 4871, 5793, 6889].getD f 0

/-- The value an l6 code stands for (R283); NaR is NaN here. -/
def l6Decode (c : Nat) : FVal :=
  let neg := bit c 5
  if c % 32 = 16 then (if neg then .nan else .fin false 0 0)
  else
    let e := sext 5 c
    .fin neg (t6 (e % 4).toNat) (e / 4 - 12)

/-- The magnitude of the finite non-zero code with logarithm e, in units of 2^-16. -/
def l6Mag (e : Int) : Nat := t6 (e % 4).toNat * 2 ^ (e / 4 + 4).toNat

/-- The choice of R284 among zero and the codes from logarithm -15 up: `cur` is the best so far (none for zero), `twice` is
twice the magnitude in units of 2^-16 as a floor with whether it is inexact. -/
def l6Pick (twice : Nat) (inexact : Bool) : Nat → Int → Option Int → Option Int
  | 0, _, cur => cur
  | n + 1, e, cur =>
    let sum := (match cur with
      | none => 0
      | some c => l6Mag c) + l6Mag e
    let up := decide (sum < twice) || (decide (sum = twice) &&
      (inexact || (match cur with
        | none => false
        | some c => decide (c % 2 ≠ 0))))
    if up then l6Pick twice inexact n (e + 1) (some e) else cur

/-- A conversion to l6 (R284). -/
def l6Encode : FVal → Nat
  | .nan => 0x30
  | .inf _ => 0x30
  | .fin neg m e =>
    if m = 0 then 0x10
    else
      let (t, st) := (Mag.dyadic m e).scaled (-17)
      match l6Pick t st 31 (-15) none with
      | none => 0x10
      | some x => (if neg then 32 else 0) + wrapN 5 x

/-- L6Product of R285: the 32-bit fixed-point product with 16 fraction bits, and the NaR flag. -/
def l6Product (a b : Nat) : Int × Bool :=
  if a % 64 = 0x30 ∨ b % 64 = 0x30 then (0, true)
  else if a % 32 = 16 ∨ b % 32 = 16 then (0, false)
  else
    let s := sext 5 a + sext 5 b
    let i := s / 4
    let m : Int := t6 (s % 4).toNat
    let m := if bit a 5 ^^ bit b 5 then -m else m
    (if 0 ≤ i + 4 then m * (2 ^ (i + 4).toNat : Nat) else m / (2 ^ (-(i + 4)).toNat : Nat), false)

/-! ## Element types -/

end Sys2Proof.Machine

namespace Sys2Proof

open Sys2Proof.Machine

/-- The float format of a type, if it is one. -/
def Ty.fmt? : Ty → Option Fmt
  | .f32 => some fmtF32 | .bf16x2 => some fmtBf16 | .f16x2 => some fmtF16
  | .e4m3x4 => some fmtE4m3 | .e5m2x4 => some fmtE5m2
  | _ => none

/-- The element width of R272 (l6 in its byte form). -/
def Ty.width : Ty → Nat
  | .b32 | .i32 | .n32 | .f32 => 32
  | .i16x2 | .n16x2 | .bf16x2 | .f16x2 => 16
  | .i8x4 | .n8x4 | .e4m3x4 | .e5m2x4 | .l6 => 8
  | .i64 | .n64 => 64

/-- The signed integer types. -/
def Ty.signed : Ty → Bool
  | .i32 | .i16x2 | .i8x4 | .i64 => true
  | _ => false

/-- The pair types (R315). -/
def Ty.pair : Ty → Bool
  | .i64 | .n64 => true
  | _ => false

/-- Elements per lane (R376 counts the pair types as one). -/
def Ty.elems (t : Ty) : Nat := if t.pair then 1 else 32 / t.width

/-- The integer an element code stands for. -/
def Ty.int (t : Ty) (c : Nat) : Int := if t.signed then sext t.width c else (c % 2 ^ t.width : Nat)

/-- The least and greatest integer of an integer type. -/
def Ty.minI (t : Ty) : Int := if t.signed then -(2 ^ (t.width - 1) : Nat) else 0
def Ty.maxI (t : Ty) : Int := if t.signed then (2 ^ (t.width - 1) : Nat) - 1 else (2 ^ t.width : Nat) - 1

/-- The exact value of an element of type t: integers, floats and l6 in byte form (bits 7:6 ignored, R375). -/
def Ty.value (t : Ty) (c : Nat) : FVal :=
  match t.fmt? with
  | some F => F.decode c
  | none => if t = .l6 then l6Decode (c % 64) else FVal.ofUnits false (t.int c) 0

end Sys2Proof

namespace Sys2Proof.Machine

open Sys2Proof

/-- Convert of R291: the conversion of R280 of an element code from type s to type d. -/
def convert (s d : Ty) (mode : Rnd) (w : Nat) (c : Nat) : Nat :=
  match d.fmt? with
  | some F => roundF F mode w (s.value c)
  | none =>
    if d = .l6 then l6Encode (s.value c)
    else match s.value c with
      | .nan => 0
      | .inf neg => wrapN d.width (if neg then d.minI else d.maxI)
      | .fin neg m e => wrapN d.width (clampI (roundI mode w neg m e) d.minI d.maxI)

/-! ## Float operations (R370 to R372) -/

/-- fadd, fsub, fmul and fma of R370: one rounding of the exact result. -/
def faddF (F : Fmt) (mode : Rnd) (w a b : Nat) : Nat := roundF F mode w (FVal.add mode (F.decode a) (F.decode b))
def fsubF (F : Fmt) (mode : Rnd) (w a b : Nat) : Nat := roundF F mode w (FVal.add mode (F.decode a) (F.decode b).neg)
def fmulF (F : Fmt) (mode : Rnd) (w a b : Nat) : Nat := roundF F mode w (FVal.mul (F.decode a) (F.decode b))
def fmaF (F : Fmt) (mode : Rnd) (w a b c : Nat) : Nat :=
  roundF F mode w (FVal.add mode (FVal.mul (F.decode a) (F.decode b)) (F.decode c))

/-- fscale of R370: an infinity or zero is returned unchanged. -/
def fscaleF (F : Fmt) (mode : Rnd) (w a : Nat) (n : Int) : Nat :=
  match F.decode a with
  | .nan => F.nanBits
  | .inf _ => a
  | .fin neg m e => if m = 0 then a else roundMag F mode neg (Mag.dyadic m (e + n)) w

/-- frnd of R370: a itself where it is not finite or is at least 2^FB; NaN becomes canonical (R273). -/
def frndF (F : Fmt) (mode : Rnd) (w a : Nat) : Nat :=
  match F.decode a with
  | .nan => F.nanBits
  | .inf _ => a
  | .fin neg m e =>
    if m = 0 ∨ (F.fb : Int) ≤ Nat.log2 m + e then a
    else
      let v := roundI mode w neg m e
      if v = 0 then F.sign neg else roundMag F .rne neg (Mag.dyadic v.natAbs 0) 0

/-- fclass of R372; a NaN is signalling when the top bit of its fraction is 0. -/
def fclassF (F : Fmt) (a : Nat) : Nat :=
  match F.decode a with
  | .nan => if bit a (F.fb - 1) then 512 else 256
  | .inf neg => if neg then 1 else 128
  | .fin neg m _ =>
    if m = 0 then (if neg then 8 else 16)
    else if m < 2 ^ F.fb then (if neg then 4 else 32)
    else (if neg then 2 else 64)

/-- The conditions of fcmp (R371), by the MOD codes of family CMP (R320): 6 is unordered, 7 ordered. -/
def fcmpF (F : Fmt) (cond a b : Nat) : Bool :=
  let x := F.decode a
  let y := F.decode b
  let un := x = .nan || y = .nan
  match cond with
  | 0 => !un && !x.lt false y && !y.lt false x
  | 1 => un || x.lt false y || y.lt false x
  | 2 => !un && x.lt false y
  | 3 => !un && !y.lt false x
  | 4 => !un && y.lt false x
  | 5 => !un && !x.lt false y
  | 6 => un
  | _ => !un

/-! ## Roots and transcendentals -/

/-- frcp of R292. -/
def frcpF (F : Fmt) (mode : Rnd) (w c : Nat) : Nat :=
  match F.decode c with
  | .nan => F.nanBits
  | .inf neg => F.sign neg
  | .fin neg m e => if m = 0 then F.inf neg else roundMag F mode neg (Mag.recip m (-e)) w

/-- fsqrt of R292. -/
def fsqrtF (F : Fmt) (mode : Rnd) (w c : Nat) : Nat :=
  match F.decode c with
  | .nan => F.nanBits
  | .inf neg => if neg then F.nanBits else F.inf false
  | .fin neg m e => if m = 0 then F.sign neg else if neg then F.nanBits else roundMag F mode false (Mag.sqrt m e) w

/-- TE of R293: nearest(2^(i/64) * 2^30). -/
def te : List Nat :=
  [1073741824, 1085434106, 1097253708, 1109202018, 1121280436, 1133490379, 1145833280, 1158310587, 1170923762, 1183674286, 1196563654, 1209593378, 1222764986, 1236080024, 1249540052, 1263146652] ++
  [1276901417, 1290805962, 1304861917, 1319070932, 1333434672, 1347954824, 1362633090, 1377471191, 1392470869, 1407633882, 1422962010, 1438457051, 1454120821, 1469955159, 1485961921, 1502142985] ++
  [1518500250, 1535035634, 1551751076, 1568648537, 1585730000, 1602997467, 1620452965, 1638098541, 1655936265, 1673968228, 1692196547, 1710623359, 1729250827, 1748081133, 1767116489, 1786359126] ++
  [1805811301, 1825475297, 1845353420, 1865448001, 1885761398, 1906295993, 1927054196, 1948038440, 1969251188, 1990694927, 2012372174, 2034285470, 2056437387, 2078830522, 2101467502, 2124350982]

/-- TL1 of R293: nearest(2^31 / (1 + i/64)). -/
def tl1 : List Nat :=
  [2147483648, 2114445438, 2082408386, 2051327664, 2021161080, 1991868891, 1963413621, 1935759908, 1908874354, 1882725390, 1857283155, 1832519380, 1808407283, 1784921474, 1762037865, 1739733588] ++
  [1717986918, 1696777203, 1676084798, 1655891006, 1636178018, 1616928864, 1598127366, 1579758086, 1561806289, 1544257904, 1527099483, 1510318170, 1493901668, 1477838209, 1462116526, 1446725826] ++
  [1431655765, 1416896428, 1402438301, 1388272257, 1374389535, 1360781718, 1347440720, 1334358772, 1321528399, 1308942414, 1296593901, 1284476201, 1272582903, 1260907830, 1249445032, 1238188770] ++
  [1227133513, 1216273925, 1205604855, 1195121335, 1184818564, 1174691910, 1164736894, 1154949189, 1145324612, 1135859120, 1126548799, 1117389866, 1108378657, 1099511628, 1090785345, 1082196484]

/-- TL2 of R293: nearest(log2(1 + i/64) * 2^32). -/
def tl2 : List Nat :=
  [0, 96069025, 190671291, 283850912, 375650043, 466108993, 555266330, 643158981, 729822324, 815290272, 899595355, 982768792, 1064840562, 1145839467, 1225793196, 1304728379] ++
  [1382670639, 1459644648, 1535674166, 1610782092, 1684990500, 1758320682, 1830793181, 1902427829, 1973243777, 2043259528, 2112492963, 2180961373, 2248681479, 2315669461, 2381940981, 2447511201] ++
  [2512394810, 2576606038, 2640158677, 2703066101, 2765341278, 2826996792, 2888044853, 2948497313, 3008365682, 3067661140, 3126394546, 3184576458, 3242217134, 3299326552, 3355914416, 3411990165] ++
  [3467562987, 3522641820, 3577235372, 3631352118, 3685000315, 3738188006, 3790923031, 3843213029, 3895065449, 3946487554, 3997486426, 4048068976, 4098241947, 4148011918, 4197385310, 4246368396]

/-- TQ of R293: nearest((1 + (i + 0.5)/32)^(-1/2) * 2^31). -/
def tq : List Nat :=
  [2130900515, 2098855072, 2068213208, 2038875364, 2010751598, 1983760420, 1957827796, 1932886296, 1908874354, 1885735628, 1863418444, 1841875310, 1821062491, 1800939636, 1781469447, 1762617387] ++
  [1744351429, 1726641819, 1709460876, 1692782810, 1676583559, 1660840642, 1645533028, 1630641020, 1616146146, 1602031062, 1588279468, 1574876026, 1561806289, 1549056637, 1536614214, 1524466875] ++
  [1512603139, 1501012140, 1489683584, 1478607716, 1467775280, 1457177486, 1446805984, 1436652834, 1426710480, 1416971728, 1407429723, 1398077927, 1388910104, 1379920300, 1371102827, 1362452250] ++
  [1353963368, 1345631207, 1337451002, 1329418191, 1321528399, 1313777432, 1306161267, 1298676040, 1291318043, 1284083712, 1276969620, 1269972473, 1263089103, 1256316458, 1249651603, 1243091706] ++
  [1236634043, 1230275986, 1224014999, 1217848637, 1211774541, 1205790433, 1199894112, 1194083452, 1188356400, 1182710970, 1177145240, 1171657354, 1166245512, 1160907976, 1155643060, 1150449133] ++
  [1145324612, 1140267967, 1135277711, 1130352405, 1125490652, 1120691096, 1115952423, 1111273357, 1106652658, 1102089122, 1097581581, 1093128899, 1088729972, 1084383727, 1080089122, 1075845140]

/-- fexp2 of R294. -/
def fexp2F (mode : Rnd) (w c : Nat) : Nat :=
  match fmtF32.decode c with
  | .nan => fmtF32.nanBits
  | .inf neg => if neg then 0 else fmtF32.inf false
  | .fin neg m e =>
    let v : FVal := .fin neg m e
    let X : Int := if v.lt false (FVal.ofUnits false (-151) 0) then -151 * 2 ^ 24
      else if (FVal.ofUnits false 128 0).lt false v then 128 * 2 ^ 24
      else
        let s := (Mag.dyadic m e).scaled (-24)
        if m = 0 then 0 else if neg then -((s.1 : Int) + (if s.2 then 1 else 0)) else s.1
    let I := X / 2 ^ 24
    let f := (X % 2 ^ 24).toNat
    let i := f / 2 ^ 18
    let u := f % 2 ^ 18
    let q := (238388331 * u) / 2 ^ 24
    let q := ((1031764991 + q) * u) / 2 ^ 24
    let q := ((2977044472 + q) * u) / 2 ^ 24
    let M := te.getD i 0 + (te.getD i 0 * q) / 2 ^ 32
    roundMag fmtF32 mode false (Mag.dyadic M (I - 30)) w

/-- A positive f32 value m * 2^e written M * 2^(x - 23) with 2^23 ≤ M < 2^24. -/
def normalise (m : Nat) (e : Int) : Nat × Int :=
  let s := 23 - Nat.log2 m
  (m * 2 ^ s, e - s + 23)

/-- flog2 of R295. -/
def flog2F (mode : Rnd) (w c : Nat) : Nat :=
  match fmtF32.decode c with
  | .nan => fmtF32.nanBits
  | .inf neg => if neg then fmtF32.nanBits else fmtF32.inf false
  | .fin neg m e =>
    if m = 0 then fmtF32.inf true else if neg then fmtF32.nanBits else
    let (Mx, x) := normalise m e
    let i := Mx / 2 ^ 17 - 64
    let z : Int := ((Mx * tl1.getD i 0) / 2 ^ 22 : Nat) - 2 ^ 32
    let q := (516360668 * z) / 2 ^ 32
    let q := ((q - 774541002) * z) / 2 ^ 32
    let q := ((q + 1549082005) * z) / 2 ^ 32
    roundF fmtF32 mode w (FVal.ofUnits false (x * 2 ^ 32 + (tl2.getD i 0 : Int) + q * 4) (-32))

/-- frsq of R296. -/
def frsqF (mode : Rnd) (w c : Nat) : Nat :=
  match fmtF32.decode c with
  | .nan => fmtF32.nanBits
  | .inf neg => if neg then fmtF32.nanBits else 0
  | .fin neg m e =>
    if m = 0 then fmtF32.inf neg else if neg then fmtF32.nanBits else
    let (Mx, x) := normalise m e
    let (Mq, x) := if x % 2 = 0 then (Mx, x) else (Mx * 2, x - 1)
    let i := (Mq - 2 ^ 23) / 2 ^ 18
    let y := tq.getD i 0
    let s := (y * y) / 2 ^ 31
    let t : Int := ((Mq * s) / 2 ^ 23 : Nat) - 2 ^ 31
    let g := (t * 671088640) / 2 ^ 31
    let g := (t * (805306368 - g)) / 2 ^ 31
    let g := 2 ^ 31 + (t * (g - 1073741824)) / 2 ^ 31
    roundF fmtF32 mode w (FVal.ofUnits false (((y : Int) * g) / 2 ^ 31) (-31 - x / 2))

/-! ## Generators -/

/-- SplitMix64 of R288. -/
def splitMix64 (v : W64) : W64 :=
  let z := v + 0x9E3779B97F4A7C15#64
  let z := (z ^^^ (z >>> 30)) * 0xBF58476D1CE4E5B9#64
  let z := (z ^^^ (z >>> 27)) * 0x94D049BB133111EB#64
  z ^^^ (z >>> 31)

/-- The initial state of class c in lane l (R288, R441). -/
def genInit (seed : W64) (c bid gid l : Nat) : W64 :=
  let x := splitMix64 (seed ^^^ BitVec.ofNat 64 (c * 2 ^ 56) ^^^ BitVec.ofNat 64 (bid * 2 ^ 32) ^^^
    BitVec.ofNat 64 (gid * 2 ^ 8) ^^^ BitVec.ofNat 64 l)
  if x = 0 then 0x9E3779B97F4A7C15#64 else x

/-- The xorshift step of R288. -/
def xorshift (x : W64) : W64 :=
  let x := x ^^^ (x <<< 13)
  let x := x ^^^ (x >>> 7)
  x ^^^ (x <<< 17)

/-- The draw of class 14 or 15 at counter j with pass length len (R289). -/
def rampDraw (c j len : Nat) : Nat :=
  if c = 14 then (j % len) * (65536 / len) else bitRevN (Nat.log2 len) (j % len) * (65536 / len)

/-- fmin and fmax of R370: -0 below +0, a number over a NaN, canonical NaN for two. -/
def fminF (F : Fmt) (mx : Bool) (a b : Nat) : Nat :=
  let x := F.decode a
  let y := F.decode b
  if x = .nan then (if y = .nan then F.nanBits else b)
  else if y = .nan then a
  else if (if mx then y.lt true x else x.lt true y) then a else b

/-- Op of R291 on element codes of type t: AOP 0 add, 1 min, 2 max, 3 and, 4 or, 5 xor, 6 exch. -/
def atomOp (t : Ty) (aop old b : Nat) : Nat :=
  match aop with
  | 0 => match t.fmt? with
    | some F => roundF F .rne 0 (FVal.add .rne (F.decode old) (F.decode b))
    | none => (old + b) % 2 ^ t.width
  | 1 => match t.fmt? with
    | some F => fminF F false old b
    | none => if t.int b < t.int old then b else old
  | 2 => match t.fmt? with
    | some F => fminF F true old b
    | none => if t.int old < t.int b then b else old
  | 3 => old &&& b
  | 4 => old ||| b
  | 5 => old ^^^ b
  | _ => b

end Sys2Proof.Machine
end

