-- ==== Sys2Proof/Machine/Accept.lean ====
section
/-! DEFINITION. Which instructions are legal (R314 to R325): for every constructor of `Instr` the checks that its operands, type,
modifier, HOLD, NW and mask must pass, each with the reason it gives. Which of several failing checks comes first shows in no effect: each raises ILL with the same record. -/

namespace Sys2Proof.Machine

open Sys2Proof

/-- Why a word or an instruction is illegal (R325, R310). `range` is an event whose numbers name nothing. -/
inductive DecodeError where
  | crossesWindow | major | function | length | reserved | operand | pairOdd | scope | type | modifier | hold | nw | mask
  | immediate | range
  deriving DecidableEq, Repr

/-- The type sets of R360, R374 and R320's RND family. -/
def intTys : List Ty := [.i32, .n32, .i16x2, .n16x2, .i8x4, .n8x4, .i64, .n64]
def cvtTys : List Ty := intTys ++ [.f32, .bf16x2, .f16x2, .e4m3x4, .e5m2x4, .l6]
def rndMods : List Nat := [0, 1, 2, 3, 4, 5]

/-- cvt and accout to l6 take the modifier family L6 (R323, R419). -/
def cvtMods (t : Ty) : List Nat := if t = .l6 then [0, 5] else rndMods
def accoutMods (t : Ty) : List Nat := if t = .l6 then [0, 5] else rndMods

/-- The number of parts ELEM may name (R376). -/
def cvtParts (s d : Ty) : Nat := max s.elems d.elems / min s.elems d.elems

/-- The checks of the header fields: TY, MOD (R319, R320), HOLD, NW (R318) and MSK. -/
def hdrOk (h : Hdr) (mods : List Nat) (tys : List Ty) (hold nw msk : Bool) : List (Bool × DecodeError) :=
  [(msk && decide (h.msk < 16) || decide (h.msk = 0), .mask), (tys.contains h.ty, .type), (mods.contains h.mod, .modifier),
   (hold && decide (h.hold < 4) || decide (h.hold = 0), .hold), (nw || !h.nw, .nw)]

/-- A V source (R314, R315): a latch only where the class may lie in a chain (R240). -/
def vsrcOk (latch : Bool) (t : Ty) : VSrc → Bool
  | .reg n => decide (n < 1536) && (!t.pair || decide (n % 2 = 0))
  | .latch n => latch && decide (n < 3)
  | .zero => true
  | .lane => true
  | .k n => decide (n < 64)

/-- A legal V code of a matrix operand (R314, R427); a latch is none, since no matrix op lies in a chain (R318, R240). -/
def vcodeOk (n : Nat) : Bool := decide (n < 1536 ∨ n = 1539 ∨ n = 1540 ∨ (1600 ≤ n ∧ n < 1664))

/-- A V destination (R314); a k register only where the result may be uniform. -/
def vdstOk (kOk : Bool) (t : Ty) : VDst → Bool
  | .reg n => decide (n < 1536) && (!t.pair || decide (n % 2 = 0))
  | .zero => true
  | .k n => kOk && decide (n < 64)

/-- The target of brx: an even register or a k register (R331). -/
def brxOk : VSrc → Bool
  | .reg n => decide (n < 1536 ∧ n % 2 = 0)
  | .k n => decide (n < 64)
  | .latch _ => false
  | .zero => false
  | .lane => false

/-- The per-lane offset of R388: a vector register, a latch or the zero code. -/
def offOk (latch : Bool) : VSrc → Bool
  | .reg n => decide (n < 1536)
  | .latch n => latch && decide (n < 3)
  | .zero => true
  | .lane => false
  | .k _ => false

/-- An address in one of the modes AM 0, 1, 2 that its level accepts (R388). -/
def addrOk (am0 am1 am2 latch : Bool) : Addr → Bool
  | .pair n d => am0 && decide (n < 1536 ∧ n % 2 = 0 ∧ d < 1024)
  | .base kb o d => am1 && offOk latch o && decide (kb < 64 ∧ d < 1024)
  | .off o d => am2 && offOk latch o && decide (d < 1024)

/-- No displacement (R387: the atomics have none). -/
def noDisp : Addr → Bool
  | .pair _ d => d == 0
  | .base _ _ d => d == 0
  | .off _ d => d == 0

/-- The destination of accout (R419). -/
def accDstOk : AccDst → Bool
  | .reg n => decide (n < 1536)
  | .mem k => decide (k < 64)

/-- The register form's count is a multiple of the elements per lane; the memory form carries no count (R419). -/
def accoutCount (d : AccDst) (t : Ty) (c : Nat) : Bool := match d with
  | .reg _ => decide (c % t.elems = 0)
  | .mem _ => decide (c = 1)

/-- The lane selector of kfromv (R354). -/
def laneSelOk : LaneSel → Bool
  | .lane n => decide (n < 64)
  | .k n => decide (n < 64)
  | .first => true

/-- The checks of an instruction, each with the reason its failure gives. -/
def reasons : Instr → List (Bool × DecodeError)
  | .moduleReset => []
  | .powerLoss => []
  | .dieLoss _ => []
  | .dieReset _ die => [(decide (die < 16), .range)]
  | .clockThrottle => []
  | .clockRestore => []
  | .healthUpdate conf worst r => [(decide (r.ageing.length = 5 ∧ r.hbm.length = 8 ∧ conf < 256 ∧ worst < 256), .range)]
  | .healthSnapshot => []
  | .hbmErrorWindow stack => [(decide (stack < 8), .range)]
  | .flitReceive port f => [(decide (port < 16 ∧ f.bytes.length = 256 ∧ f.margin < 256), .range)]
  | .portDown port => [(decide (port < 16), .range)]
  | .portRetrain port => [(decide (port < 16), .range)]
  | .spanMgtMessage m => (match m with
    | .identity port _ => [(decide (port < 16), .range)]
    | .replay port => [(decide (port < 16), .range)]
    | .assign _ _ _ => []
    | .route _ dev _ => [(decide (dev < 16), .range)])
  | .ubyozoErrcntRead _ port => [(decide (port < 16), .range)]
  | .hostLinkDown _ => []
  | .hostLinkUp _ => []
  | .msemAcquire _ _ => []
  | .msemRelease _ => []
  | .msemLeaseWrite _ _ => []
  | .msemLeaseExpiry => []
  | .msemExpdClear _ => []
  | .mgmtErrorClear _ => []
  | .policyWrite _ vf _ => [(decide (vf < 64), .range)]
  | .partitionWrite _ vf _ => [(decide (vf < 64), .range)]
  | .tenantReset vf => [(decide (vf < 64), .range)]
  | .registerWrite _ _ _ _ => []
  | .cmpstatRead _ vf => [(decide (vf < 64), .range)]
  | .queueStart _ _ _ => []
  | .queueStop _ _ _ => []
  | .queueReset _ _ _ => []
  | .ctsync _ _ => []
  | .ctsyncComplete => []
  | .shoot _ _ => []
  | .shootComplete _ => []
  | .preempt _ _ => []
  | .release _ _ => []
  | .queueBlockServe _ => []
  | .queueSerResume _ => []
  | .queueWaitRecheck _ => []
  | .queueNextRecheck _ => []
  | .queueCompletionWrite _ => []
  | .queueEngineNak _ _ => []
  | .contextCreate _ _ ctx _ => [(decide (ctx < 65536), .range)]
  | .contextDestroy _ _ ctx => [(decide (ctx < 65536), .range)]
  | .fqReplay _ _ token => [(decide (token < 65536), .range)]
  | .fqKill _ _ token => [(decide (token < 65536), .range)]
  | .fqHeadWrite _ _ _ => []
  | .faultBatchPost _ => []
  | .runAheadEnd _ => []
  | .trapDeliver _ _ => []
  | .boundaryTrap _ => []
  | .dieHalt _ _ => []
  | .dieHaltClear _ _ => []
  | .watchdogExpiry _ => []
  | .heatHalve _ => []
  | .heatHalveDone => []
  | .firmwareUpdate _ _ => []
  | .spdmRequest _ => []
  | .rds _ => []
  | .rdx _ => []
  | .upg _ => []
  | .evc _ => []
  | .wbd _ => []
  | .updateWrite _ => []
  | .updateCommit _ => []
  | .uncachedRead _ => []
  | .uncachedWrite _ => []
  | .bdReductionElement _ => []
  | .fwds _ => []
  | .fwdx _ => []
  | .inv _ => []
  | .upd _ => []
  | .binv _ => []
  | .ack _ => []
  | .cfl _ => []
  | .nak _ => []
  | .data _ => []
  | .commitAck _ => []
  | .wback _ => []
  | .l1Evict _ _ => []
  | .bounceDelayExpiry _ _ => []
  | .bounceReset _ _ => []
  | .hostSnoop _ _ => []
  | .hostAccess _ => []
  | .lrd _ => []
  | .lset _ => []
  | .llock _ => []
  | .lunl _ => []
  | .lhist _ => []
  | .windowClose _ => []
  | .switchingComplete _ => []
  | .regionEntryEvict _ => []
  | .compReadMiss _ => []
  | .compWriteback _ => []
  | .compWritebackRetry _ => []
  | .blockPlace _ => []
  | .sliceExpiry _ => []
  | .haltComplete _ => []
  | .blockResume _ => []
  | .granuleFill _ _ => []
  | .blockRetire _ => []
  | .yieldExpiry _ => []
  | .xacqGrant _ => []
  | .accessReturn _ => []
  | .stackFill _ => []
  | .copyCommandComplete _ => []
  | .bdPieceApply _ _ => []
  | .bdCommandComplete _ => []
  | .teamMmatStart _ _ => []
  | .matrixOpComplete _ => []
  | .matrixBatchComplete _ => []
  | .streamWindowRun _ => []
  | .floorRoundStart _ => []
  | .floorRoundAnnounce _ _ => []
  | .lowerReceive _ _ _ _ => []
  | .lowerAckComplete _ _ => []
  | .stealRequest _ _ => []
  | .stealConfirm _ _ => []
  | .terminationWave _ => []
  | .shardHandover _ => []
  | .shardUnreachableTimeout _ _ => []
  | .padWordSkip w => [(decide (w.toNat % 4 = 3), .length)]
  | .illegalWord _ => []
  | .fetchFault _ => []
  | .ackWithGrant _ => []
  | .labelCommandResult _ => []
  | .padSliceAccess _ _ => []
  | .clusterSlabAccess _ => []
  | .nop => []
  | .bra c _ _ => [(decide (c < 16), .operand)]
  | .brd c _ _ _ => [(decide (c < 16), .operand)]
  | .brx a => [(brxOk a, .operand)]
  | .call _ kd _ => [(decide (kd < 64), .operand)]
  | .ret ka => [(decide (ka < 64), .operand)]
  | .exit => []
  | .yield => []
  | .trap _ => []
  | .tret => []
  | .launch _ kd ka => [(decide (kd < 64), .operand), (decide (ka < 64), .operand)]
  | .spawn _ kd ka arg => [(decide (kd < 64), .operand), (decide (ka < 64), .operand), (arg.all (decide <| · < 64), .operand)]
  | .lwait _ kd ka => [(decide (kd < 64), .operand), (decide (ka < 64), .operand)]
  | .bar n cnt => [(decide (n ≤ 15), .operand), (cnt.all (decide <| · < 64), .operand)]
  | .arrive _ kd n cnt => [(decide (kd < 64), .operand), (decide (n ≤ 15), .operand), (cnt.all (decide <| · < 64), .operand)]
  | .await n kp => [(decide (n ≤ 15), .operand), (decide (kp < 64), .operand)]
  | .cbar n cnt rank file => [(decide (n ≤ 3), .operand), (cnt.all (decide <| · < 64), .operand), (decide (rank < 16), .operand), (decide (file < 16), .operand), (decide (rank ≤ 9), .operand)]
  | .xacq n => [(decide (n ≤ 255), .immediate)]
  | .xrel => []
  | .rgive n => [(decide (n ≤ 255), .immediate)]
  | .rclaim _ kd n => [(decide (kd < 64), .operand), (decide (n ≤ 255), .immediate)]
  | .rolesw n => [(decide (n ≤ 255), .immediate)]
  | .setfmt ka => [(decide (ka < 64), .operand)]
  | .setfmtImm _ => []
  | .getfmt _ kd => [(decide (kd < 64), .operand)]
  | .crd _ kd c => [(decide (kd < 64), .operand), (decide (c ≤ 18), .operand)]
  | .cwr c ka => [([0, 4, 5, 6, 8, 9].contains c, .operand), (decide (ka < 64), .operand)]
  | .clock _ kd => [(decide (kd < 64), .operand)]
  | .kmov h kd ka => hdrOk h ([0]) [.b32] true true false ++ [(decide (kd < 64), .operand), (decide (ka < 64), .operand)]
  | .kadd h kd ka kb => hdrOk h ([0, 1]) [.i64, .n64] true true false ++ [(decide (kd < 64), .operand), (decide (ka < 64), .operand), (decide (kb < 64), .operand)]
  | .ksub h kd ka kb => hdrOk h ([0, 1]) [.i64, .n64] true true false ++ [(decide (kd < 64), .operand), (decide (ka < 64), .operand), (decide (kb < 64), .operand)]
  | .kmul h kd ka kb => hdrOk h ([0, 1]) [.i64, .n64] true true false ++ [(decide (kd < 64), .operand), (decide (ka < 64), .operand), (decide (kb < 64), .operand)]
  | .kaddImm h kd ka _ => hdrOk h ([0, 1]) [.i64, .n64] true true false ++ [(decide (kd < 64), .operand), (decide (ka < 64), .operand)]
  | .ksubImm h kd ka _ => hdrOk h ([0, 1]) [.i64, .n64] true true false ++ [(decide (kd < 64), .operand), (decide (ka < 64), .operand)]
  | .kmulImm h kd ka _ => hdrOk h ([0, 1]) [.i64, .n64] true true false ++ [(decide (kd < 64), .operand), (decide (ka < 64), .operand)]
  | .kmad h kd ka kb kc => hdrOk h ([0, 1]) [.i64, .n64] true true false ++ [(decide (kd < 64), .operand), (decide (ka < 64), .operand), (decide (kb < 64), .operand), (decide (kc < 64), .operand)]
  | .kmadImm h kd ka _ kc => hdrOk h ([0, 1]) [.i64, .n64] true true false ++ [(decide (kd < 64), .operand), (decide (ka < 64), .operand), (decide (kc < 64), .operand)]
  | .kand h kd ka kb => hdrOk h ([0]) [.b32] true true false ++ [(decide (kd < 64), .operand), (decide (ka < 64), .operand), (decide (kb < 64), .operand)]
  | .kor h kd ka kb => hdrOk h ([0]) [.b32] true true false ++ [(decide (kd < 64), .operand), (decide (ka < 64), .operand), (decide (kb < 64), .operand)]
  | .kxor h kd ka kb => hdrOk h ([0]) [.b32] true true false ++ [(decide (kd < 64), .operand), (decide (ka < 64), .operand), (decide (kb < 64), .operand)]
  | .kshl h kd ka kb => hdrOk h ([0]) [.b32] true true false ++ [(decide (kd < 64), .operand), (decide (ka < 64), .operand), (decide (kb < 64), .operand)]
  | .kshr h kd ka kb => hdrOk h ([0]) [.b32] true true false ++ [(decide (kd < 64), .operand), (decide (ka < 64), .operand), (decide (kb < 64), .operand)]
  | .ksra h kd ka kb => hdrOk h ([0]) [.b32] true true false ++ [(decide (kd < 64), .operand), (decide (ka < 64), .operand), (decide (kb < 64), .operand)]
  | .kandImm h kd ka _ => hdrOk h ([0]) [.b32] true true false ++ [(decide (kd < 64), .operand), (decide (ka < 64), .operand)]
  | .korImm h kd ka _ => hdrOk h ([0]) [.b32] true true false ++ [(decide (kd < 64), .operand), (decide (ka < 64), .operand)]
  | .kxorImm h kd ka _ => hdrOk h ([0]) [.b32] true true false ++ [(decide (kd < 64), .operand), (decide (ka < 64), .operand)]
  | .kshlImm h kd ka _ => hdrOk h ([0]) [.b32] true true false ++ [(decide (kd < 64), .operand), (decide (ka < 64), .operand)]
  | .kshrImm h kd ka _ => hdrOk h ([0]) [.b32] true true false ++ [(decide (kd < 64), .operand), (decide (ka < 64), .operand)]
  | .ksraImm h kd ka _ => hdrOk h ([0]) [.b32] true true false ++ [(decide (kd < 64), .operand), (decide (ka < 64), .operand)]
  | .kmin h kd ka kb => hdrOk h ([0]) [.i64, .n64] true true false ++ [(decide (kd < 64), .operand), (decide (ka < 64), .operand), (decide (kb < 64), .operand)]
  | .kmax h kd ka kb => hdrOk h ([0]) [.i64, .n64] true true false ++ [(decide (kd < 64), .operand), (decide (ka < 64), .operand), (decide (kb < 64), .operand)]
  | .kminImm h kd ka _ => hdrOk h ([0]) [.i64, .n64] true true false ++ [(decide (kd < 64), .operand), (decide (ka < 64), .operand)]
  | .kmaxImm h kd ka _ => hdrOk h ([0]) [.i64, .n64] true true false ++ [(decide (kd < 64), .operand), (decide (ka < 64), .operand)]
  | .kcmp h kd ka kb => hdrOk h ([0, 1, 2, 3, 4, 5]) [.i64, .n64] true true false ++ [(decide (kd < 64), .operand), (decide (ka < 64), .operand), (decide (kb < 64), .operand)]
  | .kcmpImm h kd ka _ => hdrOk h ([0, 1, 2, 3, 4, 5]) [.i64, .n64] true true false ++ [(decide (kd < 64), .operand), (decide (ka < 64), .operand)]
  | .ksel h kd ka kb kc => hdrOk h ([0]) [.b32] true true false ++ [(decide (kd < 64), .operand), (decide (ka < 64), .operand), (decide (kb < 64), .operand), (decide (kc < 64), .operand)]
  | .klea h kd ka kb sh disp => hdrOk h ([0]) [.b32] true true false ++ [(decide (kd < 64), .operand), (decide (ka < 64), .operand), (decide (kb < 64), .operand), (decide (sh < 8), .operand), (decide (disp < 262144), .operand)]
  | .kpopc h kd ka => hdrOk h ([0]) [.b32] true true false ++ [(decide (kd < 64), .operand), (decide (ka < 64), .operand)]
  | .kclz h kd ka => hdrOk h ([0]) [.b32] true true false ++ [(decide (kd < 64), .operand), (decide (ka < 64), .operand)]
  | .kli h kd _ => hdrOk h ([0]) [.i64, .n64] false true false ++ [(decide (kd < 64), .operand)]
  | .kli64 h kd _ => hdrOk h ([0]) [.b32] false true false ++ [(decide (kd < 64), .operand)]
  | .kfromv h kd va sel => hdrOk h ([0]) [.b32, .i32, .i64, .n64] false true false ++ [(decide (kd < 64), .operand), (decide (va < 1536 ∧ (h.ty.pair = true → va % 2 = 0)), .operand), (laneSelOk sel, .operand)]
  | .add h d a b => hdrOk h ([0, 1]) intTys true true true ++ [(vdstOk false h.ty d, .operand), (vsrcOk true h.ty a, .operand), (vsrcOk true h.ty b, .operand)]
  | .addImm h d a _ => hdrOk h ([0, 1]) intTys true true true ++ [(vdstOk false h.ty d, .operand), (vsrcOk true h.ty a, .operand)]
  | .addc h d a b cin cout => hdrOk h ([0]) [.n32, .n64] true true true ++ [(vdstOk false h.ty d, .operand), (vsrcOk true h.ty a, .operand), (vsrcOk true h.ty b, .operand), (decide (cin < 16), .operand), (decide (cout < 16), .operand), (decide (cin = 0 ∨ cout ≠ cin), .operand)]
  | .sub h d a b => hdrOk h ([0, 1]) intTys true true true ++ [(vdstOk false h.ty d, .operand), (vsrcOk true h.ty a, .operand), (vsrcOk true h.ty b, .operand)]
  | .mul h d a b => hdrOk h ([0, 1]) intTys true true true ++ [(vdstOk false h.ty d, .operand), (vsrcOk true h.ty a, .operand), (vsrcOk true h.ty b, .operand)]
  | .subImm h d a _ => hdrOk h ([0, 1]) intTys true true true ++ [(vdstOk false h.ty d, .operand), (vsrcOk true h.ty a, .operand)]
  | .mulImm h d a _ => hdrOk h ([0, 1]) intTys true true true ++ [(vdstOk false h.ty d, .operand), (vsrcOk true h.ty a, .operand)]
  | .mulh h d a b => hdrOk h ([0]) intTys true true true ++ [(vdstOk false h.ty d, .operand), (vsrcOk true h.ty a, .operand), (vsrcOk true h.ty b, .operand)]
  | .mulhImm h d a _ => hdrOk h ([0]) intTys true true true ++ [(vdstOk false h.ty d, .operand), (vsrcOk true h.ty a, .operand)]
  | .mad h d a b c => hdrOk h ([0, 1]) intTys true true true ++ [(vdstOk false h.ty d, .operand), (vsrcOk true h.ty a, .operand), (vsrcOk true h.ty b, .operand), (vsrcOk true h.ty c, .operand)]
  | .madImm h d a _ c => hdrOk h ([0, 1]) intTys true true true ++ [(vdstOk false h.ty d, .operand), (vsrcOk true h.ty a, .operand), (vsrcOk true h.ty c, .operand)]
  | .abs h d a => hdrOk h ([0, 1]) [.i32, .i16x2, .i8x4, .i64] true true true ++ [(vdstOk false h.ty d, .operand), (vsrcOk true h.ty a, .operand)]
  | .and h d a b => hdrOk h ([0]) [.b32, .n64] true true true ++ [(vdstOk false h.ty d, .operand), (vsrcOk true h.ty a, .operand), (vsrcOk true h.ty b, .operand)]
  | .or h d a b => hdrOk h ([0]) [.b32, .n64] true true true ++ [(vdstOk false h.ty d, .operand), (vsrcOk true h.ty a, .operand), (vsrcOk true h.ty b, .operand)]
  | .xor h d a b => hdrOk h ([0]) [.b32, .n64] true true true ++ [(vdstOk false h.ty d, .operand), (vsrcOk true h.ty a, .operand), (vsrcOk true h.ty b, .operand)]
  | .andImm h d a _ => hdrOk h ([0]) [.b32, .n64] true true true ++ [(vdstOk false h.ty d, .operand), (vsrcOk true h.ty a, .operand)]
  | .orImm h d a _ => hdrOk h ([0]) [.b32, .n64] true true true ++ [(vdstOk false h.ty d, .operand), (vsrcOk true h.ty a, .operand)]
  | .xorImm h d a _ => hdrOk h ([0]) [.b32, .n64] true true true ++ [(vdstOk false h.ty d, .operand), (vsrcOk true h.ty a, .operand)]
  | .lop3 h d a b c _ => hdrOk h ([0]) [.b32, .n64] true true true ++ [(vdstOk false h.ty d, .operand), (vsrcOk true h.ty a, .operand), (vsrcOk true h.ty b, .operand), (vsrcOk true h.ty c, .operand)]
  | .shl h d a b => hdrOk h ([0]) [.b32, .n16x2, .n8x4, .n64] true true true ++ [(vdstOk false h.ty d, .operand), (vsrcOk true h.ty a, .operand), (vsrcOk true h.ty b, .operand)]
  | .shr h d a b => hdrOk h ([0]) [.b32, .n16x2, .n8x4, .n64] true true true ++ [(vdstOk false h.ty d, .operand), (vsrcOk true h.ty a, .operand), (vsrcOk true h.ty b, .operand)]
  | .sra h d a b => hdrOk h ([0]) [.b32, .n16x2, .n8x4, .n64] true true true ++ [(vdstOk false h.ty d, .operand), (vsrcOk true h.ty a, .operand), (vsrcOk true h.ty b, .operand)]
  | .shlImm h d a _ => hdrOk h ([0]) [.b32, .n16x2, .n8x4, .n64] true true true ++ [(vdstOk false h.ty d, .operand), (vsrcOk true h.ty a, .operand)]
  | .shrImm h d a _ => hdrOk h ([0]) [.b32, .n16x2, .n8x4, .n64] true true true ++ [(vdstOk false h.ty d, .operand), (vsrcOk true h.ty a, .operand)]
  | .sraImm h d a _ => hdrOk h ([0]) [.b32, .n16x2, .n8x4, .n64] true true true ++ [(vdstOk false h.ty d, .operand), (vsrcOk true h.ty a, .operand)]
  | .min h d a b => hdrOk h ([0]) intTys true true true ++ [(vdstOk false h.ty d, .operand), (vsrcOk true h.ty a, .operand), (vsrcOk true h.ty b, .operand)]
  | .max h d a b => hdrOk h ([0]) intTys true true true ++ [(vdstOk false h.ty d, .operand), (vsrcOk true h.ty a, .operand), (vsrcOk true h.ty b, .operand)]
  | .minImm h d a _ => hdrOk h ([0]) intTys true true true ++ [(vdstOk false h.ty d, .operand), (vsrcOk true h.ty a, .operand)]
  | .maxImm h d a _ => hdrOk h ([0]) intTys true true true ++ [(vdstOk false h.ty d, .operand), (vsrcOk true h.ty a, .operand)]
  | .cmp h md a b => hdrOk h ([0, 1, 2, 3, 4, 5]) [.i32, .n32, .i64, .n64] false true true ++ [(decide (0 < md ∧ md < 16), .operand), (vsrcOk true h.ty a, .operand), (vsrcOk true h.ty b, .operand)]
  | .cmpImm h md a _ => hdrOk h ([0, 1, 2, 3, 4, 5]) [.i32, .n32, .i64, .n64] false true true ++ [(decide (0 < md ∧ md < 16), .operand), (vsrcOk true h.ty a, .operand)]
  | .sel h d a b mc => hdrOk h ([0]) [.b32, .n64] true true true ++ [(vdstOk false h.ty d, .operand), (vsrcOk true h.ty a, .operand), (vsrcOk true h.ty b, .operand), (decide (mc < 16), .operand)]
  | .mov h d a => hdrOk h ([0]) [.b32, .i64, .n64] true true true ++ [(vdstOk false h.ty d, .operand), (vsrcOk true h.ty a, .operand)]
  | .movImm h d _ => hdrOk h ([0]) [.b32, .i64, .n64] true true true ++ [(vdstOk false h.ty d, .operand)]
  | .movk h d kv kl => hdrOk h ([0]) [.b32, .n64] true true true ++ [(vdstOk false h.ty d, .operand), (decide (kv < 64), .operand), (decide (kl < 64), .operand)]
  | .popc h d a => hdrOk h ([0]) [.b32, .n64] true true true ++ [(vdstOk false h.ty d, .operand), (vsrcOk true h.ty a, .operand)]
  | .clz h d a => hdrOk h ([0]) [.b32, .n64] true true true ++ [(vdstOk false h.ty d, .operand), (vsrcOk true h.ty a, .operand)]
  | .brev h d a => hdrOk h ([0]) [.b32, .n64] true true true ++ [(vdstOk false h.ty d, .operand), (vsrcOk true h.ty a, .operand)]
  | .bfe h d a b => hdrOk h ([0]) [.n32, .i32] true true true ++ [(vdstOk false h.ty d, .operand), (vsrcOk true h.ty a, .operand), (vsrcOk true h.ty b, .operand)]
  | .bfeImm h d a _ => hdrOk h ([0]) [.n32, .i32] true true true ++ [(vdstOk false h.ty d, .operand), (vsrcOk true h.ty a, .operand)]
  | .bfi h d a b c => hdrOk h ([0]) [.b32] true true true ++ [(vdstOk false h.ty d, .operand), (vsrcOk true h.ty a, .operand), (vsrcOk true h.ty b, .operand), (vsrcOk true h.ty c, .operand)]
  | .bfiImm h d a _ c => hdrOk h ([0]) [.b32] true true true ++ [(vdstOk false h.ty d, .operand), (vsrcOk true h.ty a, .operand), (vsrcOk true h.ty c, .operand)]
  | .fadd h d a b => hdrOk h (rndMods) [.f32, .bf16x2, .f16x2] true true true ++ [(vdstOk false h.ty d, .operand), (vsrcOk true h.ty a, .operand), (vsrcOk true h.ty b, .operand)]
  | .fsub h d a b => hdrOk h (rndMods) [.f32, .bf16x2, .f16x2] true true true ++ [(vdstOk false h.ty d, .operand), (vsrcOk true h.ty a, .operand), (vsrcOk true h.ty b, .operand)]
  | .fmul h d a b => hdrOk h (rndMods) [.f32, .bf16x2, .f16x2] true true true ++ [(vdstOk false h.ty d, .operand), (vsrcOk true h.ty a, .operand), (vsrcOk true h.ty b, .operand)]
  | .faddImm h d a _ => hdrOk h (rndMods) [.f32, .bf16x2, .f16x2] true true true ++ [(vdstOk false h.ty d, .operand), (vsrcOk true h.ty a, .operand)]
  | .fsubImm h d a _ => hdrOk h (rndMods) [.f32, .bf16x2, .f16x2] true true true ++ [(vdstOk false h.ty d, .operand), (vsrcOk true h.ty a, .operand)]
  | .fmulImm h d a _ => hdrOk h (rndMods) [.f32, .bf16x2, .f16x2] true true true ++ [(vdstOk false h.ty d, .operand), (vsrcOk true h.ty a, .operand)]
  | .fma h d a b c => hdrOk h (rndMods) [.f32, .bf16x2, .f16x2] true true true ++ [(vdstOk false h.ty d, .operand), (vsrcOk true h.ty a, .operand), (vsrcOk true h.ty b, .operand), (vsrcOk true h.ty c, .operand)]
  | .fmaImm h d a _ c => hdrOk h (rndMods) [.f32, .bf16x2, .f16x2] true true true ++ [(vdstOk false h.ty d, .operand), (vsrcOk true h.ty a, .operand), (vsrcOk true h.ty c, .operand)]
  | .fmin h d a b => hdrOk h (rndMods) [.f32, .bf16x2, .f16x2] true true true ++ [(vdstOk false h.ty d, .operand), (vsrcOk true h.ty a, .operand), (vsrcOk true h.ty b, .operand)]
  | .fmax h d a b => hdrOk h (rndMods) [.f32, .bf16x2, .f16x2] true true true ++ [(vdstOk false h.ty d, .operand), (vsrcOk true h.ty a, .operand), (vsrcOk true h.ty b, .operand)]
  | .fminImm h d a _ => hdrOk h (rndMods) [.f32, .bf16x2, .f16x2] true true true ++ [(vdstOk false h.ty d, .operand), (vsrcOk true h.ty a, .operand)]
  | .fmaxImm h d a _ => hdrOk h (rndMods) [.f32, .bf16x2, .f16x2] true true true ++ [(vdstOk false h.ty d, .operand), (vsrcOk true h.ty a, .operand)]
  | .fcmp h md a b => hdrOk h ([0, 1, 2, 3, 4, 5, 6, 7]) [.f32] false true true ++ [(decide (0 < md ∧ md < 16), .operand), (vsrcOk true h.ty a, .operand), (vsrcOk true h.ty b, .operand)]
  | .fcmpImm h md a _ => hdrOk h ([0, 1, 2, 3, 4, 5, 6, 7]) [.f32] false true true ++ [(decide (0 < md ∧ md < 16), .operand), (vsrcOk true h.ty a, .operand)]
  | .fclass h d a => hdrOk h (rndMods) [.f32, .bf16x2, .f16x2] true true true ++ [(vdstOk false h.ty d, .operand), (vsrcOk true h.ty a, .operand)]
  | .fscale h d a b => hdrOk h (rndMods) [.f32, .bf16x2, .f16x2] true true true ++ [(vdstOk false h.ty d, .operand), (vsrcOk true h.ty a, .operand), (vsrcOk true h.ty b, .operand)]
  | .fscaleImm h d a _ => hdrOk h (rndMods) [.f32, .bf16x2, .f16x2] true true true ++ [(vdstOk false h.ty d, .operand), (vsrcOk true h.ty a, .operand)]
  | .frnd h d a => hdrOk h (rndMods) [.f32, .bf16x2, .f16x2] true true true ++ [(vdstOk false h.ty d, .operand), (vsrcOk true h.ty a, .operand)]
  | .frcp h d a => hdrOk h (rndMods) [.f32, .bf16x2, .f16x2] true true true ++ [(vdstOk false h.ty d, .operand), (vsrcOk true h.ty a, .operand)]
  | .fsqrt h d a => hdrOk h (rndMods) [.f32, .bf16x2, .f16x2] true true true ++ [(vdstOk false h.ty d, .operand), (vsrcOk true h.ty a, .operand)]
  | .frsq h d a => hdrOk h (rndMods) [.f32] true true true ++ [(vdstOk false h.ty d, .operand), (vsrcOk true h.ty a, .operand)]
  | .fexp2 h d a => hdrOk h (rndMods) [.f32] true true true ++ [(vdstOk false h.ty d, .operand), (vsrcOk true h.ty a, .operand)]
  | .flog2 h d a => hdrOk h (rndMods) [.f32] true true true ++ [(vdstOk false h.ty d, .operand), (vsrcOk true h.ty a, .operand)]
  | .cvt h d a src elem => hdrOk h (cvtMods h.ty) cvtTys true true true ++ [(vdstOk false h.ty d, .operand), (vsrcOk true src a, .operand), (decide (elem < 4), .operand), (cvtTys.contains src && decide (src ≠ h.ty), .type), (decide (elem < cvtParts src h.ty), .operand)]
  | .lpack h d va src => hdrOk h ([0, 5]) [.l6] false false true ++ [(vdstOk false .b32 d, .operand), (decide (va < 1536), .operand), ([Ty.f32, .bf16x2, .f16x2, .l6].contains src, .type)]
  | .lunpk h d va => hdrOk h (rndMods) [.f32, .l6] false false true ++ [(vdstOk false .b32 d, .operand), (decide (va < 1536), .operand)]
  | .shfl h d a b => hdrOk h ([0]) [.b32, .n64] true true true ++ [(vdstOk false h.ty d, .operand), (vsrcOk true h.ty a, .operand), (vsrcOk true h.ty b, .operand)]
  | .shflImm h d a _ => hdrOk h ([0]) [.b32, .n64] true true true ++ [(vdstOk false h.ty d, .operand), (vsrcOk true h.ty a, .operand)]
  | .bcast h d a kl => hdrOk h ([0]) [.b32, .n64] true true true ++ [(vdstOk false h.ty d, .operand), (vsrcOk true h.ty a, .operand), (decide (kl < 64), .operand)]
  | .bcastImm h d a _ => hdrOk h ([0]) [.b32, .n64] true true true ++ [(vdstOk false h.ty d, .operand), (vsrcOk true h.ty a, .operand)]
  | .compress h d a b vm slot => hdrOk h ([0]) [.e4m3x4, .e5m2x4, .i8x4, .n8x4, .bf16x2, .f16x2] false false true ++ [(vdstOk false h.ty d, .operand), (vsrcOk true h.ty a, .operand), (vsrcOk true h.ty b, .operand), (decide (vm < 1536 ∨ vm = 1539), .operand), (decide (slot < 4), .operand), (decide (d ≠ .reg vm ∧ (d ≠ .zero ∨ vm ≠ 1539)), .operand)]
  | .expand h d a vm slot => hdrOk h ([0]) [.e4m3x4, .e5m2x4, .i8x4, .n8x4, .bf16x2, .f16x2] false false true ++ [(vdstOk false .b32 d, .operand), (vsrcOk true h.ty a, .operand), (vsrcOk true h.ty vm, .operand), (decide (slot < 4), .operand)]
  | .redadd h d a => hdrOk h (rndMods) [.i32, .n32, .i64, .n64, .f32] true true true ++ [(vdstOk true h.ty d, .operand), (vsrcOk true h.ty a, .operand)]
  | .redmin h d a => hdrOk h ([0]) [.i32, .n32, .i64, .n64, .f32] true true true ++ [(vdstOk true h.ty d, .operand), (vsrcOk true h.ty a, .operand)]
  | .redmax h d a => hdrOk h ([0]) [.i32, .n32, .i64, .n64, .f32] true true true ++ [(vdstOk true h.ty d, .operand), (vsrcOk true h.ty a, .operand)]
  | .redand h d a => hdrOk h ([0]) [.b32, .n64] true true true ++ [(vdstOk true h.ty d, .operand), (vsrcOk true h.ty a, .operand)]
  | .redor h d a => hdrOk h ([0]) [.b32, .n64] true true true ++ [(vdstOk true h.ty d, .operand), (vsrcOk true h.ty a, .operand)]
  | .redxor h d a => hdrOk h ([0]) [.b32, .n64] true true true ++ [(vdstOk true h.ty d, .operand), (vsrcOk true h.ty a, .operand)]
  | .scan h d a => hdrOk h ([0, 1, 2, 3, 4, 5, 8, 9, 10, 11, 12, 13]) [.b32, .i32, .n32, .i64, .n64, .f32] true true true ++ [(vdstOk false h.ty d, .operand), (vsrcOk true h.ty a, .operand), ((if [3, 4, 5, 11, 12, 13].contains h.mod then [Ty.b32, .n64] else [.i32, .n32, .i64, .n64, .f32]).contains h.ty, .type)]
  | .redminIndex h d di a b => hdrOk h ([0]) [.i32, .n32, .i64, .n64, .f32] true true true ++ [(vdstOk true h.ty d, .operand), (vdstOk true h.ty di, .operand), (vsrcOk true h.ty a, .operand), (vsrcOk true h.ty b, .operand)]
  | .redmaxIndex h d di a b => hdrOk h ([0]) [.i32, .n32, .i64, .n64, .f32] true true true ++ [(vdstOk true h.ty d, .operand), (vdstOk true h.ty di, .operand), (vsrcOk true h.ty a, .operand), (vsrcOk true h.ty b, .operand)]
  | .ballot h kd a => hdrOk h ([0]) [.b32] false true true ++ [(decide (kd < 64), .operand), (vsrcOk true h.ty a, .operand)]
  | .vany h kd a => hdrOk h ([0]) [.b32] false true true ++ [(decide (kd < 64), .operand), (vsrcOk true h.ty a, .operand)]
  | .vall h kd a => hdrOk h ([0]) [.b32] false true true ++ [(decide (kd < 64), .operand), (vsrcOk true h.ty a, .operand)]
  | .elect h md ms => hdrOk h ([0]) [.b32] false false true ++ [(decide (0 < md ∧ md < 16), .operand), (decide (ms < 16), .operand)]
  | .mcnt h kd ms => hdrOk h ([0]) [.b32] false true true ++ [(decide (kd < 64), .operand), (decide (ms < 16), .operand)]
  | .mlog h md ma mb => hdrOk h ([0, 1, 2, 3, 4, 5, 6]) [.b32] false false true ++ [(decide (0 < md ∧ md < 16), .operand), (decide (ma < 16), .operand), (decide (mb < 16), .operand), (decide (h.mod < 4 ∨ mb = 0), .operand), (decide (h.mod ≠ 6 ∨ ma = 0), .operand)]
  | .ldg h d ad scope => hdrOk h ([0, 1]) [.b32, .i32, .n32, .i64, .n64, .i16x2, .n16x2, .i8x4, .n8x4] false true true ++ [(vdstOk false h.ty d, .operand), (addrOk true true false true ad, .operand), (decide (scope ≤ 6), .scope)]
  | .stg h ad b scope => hdrOk h ([0, 2]) [.b32, .i32, .n32, .i64, .n64, .i16x2, .n16x2, .i8x4, .n8x4] false false true ++ [(addrOk true true false true ad, .operand), (vsrcOk true h.ty b, .operand), (decide (scope ≤ 6), .scope)]
  | .pref h ad => hdrOk h ([0]) [.b32, .i32, .n32, .i64, .n64, .i16x2, .n16x2, .i8x4, .n8x4] false false true ++ [(addrOk true true false true ad, .operand)]
  | .lds h d ad => hdrOk h ([0]) [.b32, .i32, .n32, .i64, .n64, .i16x2, .n16x2, .i8x4, .n8x4] false true true ++ [(vdstOk false h.ty d, .operand), (addrOk false true true true ad, .operand)]
  | .sts h ad b => hdrOk h ([0]) [.b32, .i32, .n32, .i64, .n64, .i16x2, .n16x2, .i8x4, .n8x4] false false true ++ [(addrOk false true true true ad, .operand), (vsrcOk true h.ty b, .operand)]
  | .ldc h d off disp rank file scope => hdrOk h ([0, 1]) [.b32, .i32, .n32, .i64, .n64, .i16x2, .n16x2, .i8x4, .n8x4] false true true ++ [(vdstOk false h.ty d, .operand), (offOk true off, .operand), (decide (disp < 256), .operand), (decide (rank < 16), .operand), (decide (file < 16), .operand), (decide (scope ≤ 6), .scope), (decide (rank ≤ 9), .operand)]
  | .stc h off disp rank file b scope => hdrOk h ([0, 2]) [.b32, .i32, .n32, .i64, .n64, .i16x2, .n16x2, .i8x4, .n8x4] false false true ++ [(offOk true off, .operand), (decide (disp < 256), .operand), (decide (rank < 16), .operand), (decide (file < 16), .operand), (vsrcOk true h.ty b, .operand), (decide (scope ≤ 6), .scope), (decide (rank ≤ 9), .operand)]
  | .ldd h d ad scope => hdrOk h ([0, 1]) [.b32, .i32, .n32, .i64, .n64, .i16x2, .n16x2, .i8x4, .n8x4] false true true ++ [(vdstOk false h.ty d, .operand), (addrOk false true true true ad, .operand), (decide (scope ≤ 6), .scope)]
  | .std h ad b scope => hdrOk h ([0, 2]) [.b32, .i32, .n32, .i64, .n64, .i16x2, .n16x2, .i8x4, .n8x4] false false true ++ [(addrOk false true true true ad, .operand), (vsrcOk true h.ty b, .operand), (decide (scope ≤ 6), .scope)]
  | .ldl h d ad => hdrOk h ([0]) [.b32, .i32, .n32, .i64, .n64, .i16x2, .n16x2, .i8x4, .n8x4] false true true ++ [(vdstOk false h.ty d, .operand), (addrOk false true true true ad, .operand)]
  | .stl h ad b => hdrOk h ([0]) [.b32, .i32, .n32, .i64, .n64, .i16x2, .n16x2, .i8x4, .n8x4] false false true ++ [(addrOk false true true true ad, .operand), (vsrcOk true h.ty b, .operand)]
  | .atom h d ad b aop scope => hdrOk h ([0, 1, 2, 3, 4]) [.b32, .i32, .n32, .i64, .n64, .f32] false true true ++ [(vdstOk false h.ty d, .operand), (addrOk true true false false ad && noDisp ad, .operand), (vsrcOk false h.ty b, .operand), (decide (aop < 16), .operand), (decide (scope ≤ 6), .scope), (decide (aop ≤ 6), .operand), ((if 3 ≤ aop then [Ty.b32, .n64] else [.i32, .n32, .i64, .n64, .f32]).contains h.ty, .type)]
  | .atomc h d ad b c scope => hdrOk h ([0, 1, 2, 3, 4]) [.b32, .n64] false true true ++ [(vdstOk false h.ty d, .operand), (addrOk true true false false ad && noDisp ad, .operand), (vsrcOk false h.ty b, .operand), (vsrcOk false h.ty c, .operand), (decide (scope ≤ 6), .scope)]
  | .red h ad b aop scope => hdrOk h ([0, 2]) [.b32, .i32, .n32, .i64, .n64, .f32] false false true ++ [(addrOk true true false false ad && noDisp ad, .operand), (vsrcOk false h.ty b, .operand), (decide (aop < 16), .operand), (decide (scope ≤ 6), .scope), (decide (aop ≤ 5), .operand), ((if 3 ≤ aop then [Ty.b32, .n64] else [.i32, .n32, .i64, .n64, .f32]).contains h.ty, .type)]
  | .atoms h ad b scope => hdrOk h ([0, 2]) [.b32, .i32, .n32, .i64, .n64, .i16x2, .n16x2, .i8x4, .n8x4] false false true ++ [(addrOk true true false false ad && noDisp ad, .operand), (vsrcOk false h.ty b, .operand), (decide (scope ≤ 6), .scope)]
  | .fence sc p q scope => [(decide (p < 64), .operand), (decide (q < 64), .operand), (decide (scope ≤ 6), .scope), (decide (sc = false ∨ (p = 0 ∧ q = 0)), .operand)]
  | .ofence => []
  | .waitp p kn => [(decide (p ≤ 7), .operand), (decide (kn < 64), .operand)]
  | .cflush h ad => hdrOk h ([0]) [.b32] false false true ++ [(addrOk true true false false ad, .operand)]
  | .cinv h ad => hdrOk h ([0]) [.b32] false false true ++ [(addrOk true true false false ad, .operand)]
  | .tcopy nw d krec => [(d.all (decide <| · < 1536), .operand), (decide (krec < 64), .operand), (decide (nw = false ∨ d ≠ none), .nw)]
  | .tstore krec vs => [(decide (krec < 64), .operand), (decide (vs < 1536), .operand)]
  | .tfill krec kval => [(decide (krec < 64), .operand), (decide (kval < 64), .operand)]
  | .bdgather kd ka kl kc rsz _ => [(decide (kd < 64), .operand), (decide (ka < 64), .operand), (decide (kl < 64), .operand), (decide (kc < 64), .operand), (decide (rsz < 1024), .operand)]
  | .bdscat kd ka kl kc rsz _ => [(decide (kd < 64), .operand), (decide (ka < 64), .operand), (decide (kl < 64), .operand), (decide (kc < 64), .operand), (decide (rsz < 1024), .operand)]
  | .bdred ty kd ka kl kc rsz _ rop => [(([Ty.i32, .n32, .i64, .n64, .f32]).contains ty, .type)] ++ [(decide (kd < 64), .operand), (decide (ka < 64), .operand), (kl.all (decide <| · < 64), .operand), (decide (kc < 64), .operand), (decide (rsz < 1024), .operand), (decide (rop < 4), .operand), (decide (rop < 3), .operand), (decide (ty.pair = false ∨ rsz % 2 = 1), .operand)]
  | .bdconv ty src kd ka kc => [(([Ty.f32, .i32, .bf16x2, .f16x2, .e4m3x4, .e5m2x4, .l6]).contains ty, .type)] ++ [(decide (kd < 64), .operand), (decide (ka < 64), .operand), (decide (kc < 64), .operand), ([Ty.f32, .i32, .bf16x2, .f16x2, .e4m3x4, .e5m2x4, .l6].contains src && decide (src ≠ ty), .type)]
  | .accwin kg kb kl => [(decide (kg < 64), .operand), (decide (kb < 64), .operand), (decide (kl < 64), .operand)]
  | .accz r c => [(r.base.all (decide <| · < 64), .operand), (decide (r.e < 2 ^ 14), .operand), (decide (0 < c ∧ c ≤ 2048), .operand)]
  | .accld r krec => [(r.base.all (decide <| · < 64), .operand), (decide (r.e < 2 ^ 14), .operand), (decide (krec < 64), .operand)]
  | .accst krec r => [(decide (krec < 64), .operand), (r.base.all (decide <| · < 64), .operand), (decide (r.e < 2 ^ 14), .operand)]
  | .accout h d r c => hdrOk h (accoutMods h.ty) [.f32, .i32, .bf16x2, .f16x2, .i8x4, .e4m3x4, .e5m2x4, .l6] false false false ++ [(accDstOk d, .operand), (r.base.all (decide <| · < 64), .operand), (decide (r.e < 2 ^ 14), .operand), (decide (0 < c ∧ c ≤ 2048), .operand), (accoutCount d h.ty c, .operand)]
  | .mma r a b sc => [(r.base.all (decide <| · < 64), .operand), (decide (r.e < 2 ^ 14), .operand), (vcodeOk a, .operand), (vcodeOk b, .operand), (vcodeOk sc, .operand)]
  | .mmat r a b sc => [(r.base.all (decide <| · < 64), .operand), (decide (r.e < 2 ^ 14), .operand), (vcodeOk a, .operand), (vcodeOk b, .operand), (vcodeOk sc, .operand)]
  | .mmas r a b sc => [(r.base.all (decide <| · < 64), .operand), (decide (r.e < 2 ^ 14), .operand), (vcodeOk a, .operand), (vcodeOk b, .operand), (vcodeOk sc, .operand), (decide (a % 2 = 0), .pairOdd)]
  | .mfence kd => [(decide (kd < 64), .operand)]
  | .mwait ka => [(decide (ka < 64), .operand)]
  | .mstat kd ka => [(decide (kd < 64), .operand), (ka.all (decide <| · < 64), .operand)]
  | .sgen zd a cls => [(decide (zd < 64), .operand), (vsrcOk false .b32 a, .operand), (decide (cls < 16), .operand)]
  | .sgenb zd a cls => [(decide (zd < 64), .operand), (vsrcOk false .b32 a, .operand), (decide (cls < 16), .operand)]
  | .sregen zd za cls => [(decide (zd < 64), .operand), (decide (za < 64), .operand), (decide (cls < 16), .operand)]
  | .sseed ka cls => [(decide (ka < 64), .operand), (decide (cls < 16), .operand)]
  | .slen imm => [(decide (imm &&& 0xFFF000F8#32 = 0#32), .immediate)]
  | .srnd msk d cls => [(decide (msk < 16), .operand)] ++ [(vdstOk false .b32 d, .operand), (decide (cls ≤ 15), .operand)]
  | .sand zd za zb => [(decide (zd < 64), .operand), (decide (za < 64), .operand), (decide (zb < 64), .operand)]
  | .sor zd za zb => [(decide (zd < 64), .operand), (decide (za < 64), .operand), (decide (zb < 64), .operand)]
  | .sxor zd za zb => [(decide (zd < 64), .operand), (decide (za < 64), .operand), (decide (zb < 64), .operand)]
  | .sxnor zd za zb => [(decide (zd < 64), .operand), (decide (za < 64), .operand), (decide (zb < 64), .operand)]
  | .snot zd za => [(decide (zd < 64), .operand), (decide (za < 64), .operand)]
  | .smux zd za zb zs => [(decide (zd < 64), .operand), (decide (za < 64), .operand), (decide (zb < 64), .operand), (decide (zs < 64), .operand)]
  | .smin zd za zb => [(decide (zd < 64), .operand), (decide (za < 64), .operand), (decide (zb < 64), .operand)]
  | .smax zd za zb => [(decide (zd < 64), .operand), (decide (za < 64), .operand), (decide (zb < 64), .operand)]
  | .sdep kd za zb => [(decide (kd < 64), .operand), (decide (za < 64), .operand), (decide (zb < 64), .operand)]
  | .scnt msk d za out => [(decide (msk < 16), .operand)] ++ [(vdstOk false .b32 d, .operand), (decide (za < 64), .operand), (decide (out < 4), .operand), (decide (out < 3), .operand)]
  | .scnta msk d za => [(decide (msk < 16), .operand)] ++ [(vdstOk false .b32 d, .operand), (decide (za < 64), .operand)]
  | .wlcfg ka => [(ka.all (decide <| · < 64), .operand)]
  | .wlpush msk n64 a b => [(decide (msk < 16), .operand)] ++ [(vsrcOk false (if n64 then Ty.n64 else Ty.n32) a, .operand), (vsrcOk false .b32 b, .operand)]
  | .wlpop msk n64 d md _ => [(decide (msk < 16), .operand)] ++ [(vdstOk false (if n64 then Ty.n64 else Ty.n32) d, .operand), (decide (0 < md ∧ md < 16), .operand)]
  | .wlret msk b => [(decide (msk < 16), .operand)] ++ [(vsrcOk false .b32 b, .operand)]
  | .wlfloor kd => [(decide (kd < 64), .operand)]
  | .wldone kd => [(decide (kd < 64), .operand)]
  | .wlstat kd sel => [(decide (kd < 64), .operand), (decide (sel ≤ 3), .operand)]
  | .lblrd kd ka => [(decide (kd < 64), .operand), (decide (ka < 64), .operand)]
  | .lblset kd ka lbl => [(decide (kd < 64), .operand), (decide (ka < 64), .operand), (decide (lbl ≤ 5), .operand)]
  | .lbllock kd ka => [(decide (kd < 64), .operand), (decide (ka < 64), .operand)]
  | .lblunl kd ka => [(decide (kd < 64), .operand), (decide (ka < 64), .operand)]
  | .lblhist kd ka => [(decide (kd < 64), .operand), (decide (ka < 64), .operand)]

/-- The first check that fails, if any. -/
def firstFail : List (Bool × DecodeError) → Option DecodeError
  | [] => none
  | (true, _) :: r => firstFail r
  | (false, e) :: _ => some e

end Sys2Proof.Machine
end

