-- ==== Sys2Proof/WellFormed.lean ====
section
/-! DEFINITION. Well-formed instructions: those whose every check of Machine/Accept.lean holds (R314 to R325), so that they have
an encoding. -/

namespace Sys2Proof

/-- An instruction that R325 does not call illegal. -/
def Instr.wf (i : Instr) : Bool := (Machine.firstFail (Machine.reasons i)).isNone

end Sys2Proof
end

