-- ==== Sys2Proof/Decode.lean ====
section
/-! DEFINITION. Decoding and encoding of instruction words (R309 to R325). A word is a number of 64, 96 or 128 bits; its form
(R313) splits it into fields; the row of its (MAJ, FN) (R323) reads the operands. A word is legal when the instruction read
from it encodes to the same fields, so that no reserved or unused bit is set, and passes the checks of Machine/Accept.lean. -/

namespace Sys2Proof.Machine

open Sys2Proof

/-! ## Forms and fields -/

/-- The forms of R313. -/
inductive Form where
  | b | i | s | q | si | ii
  deriving DecidableEq, Repr

/-- The length of a form in bytes (R313). -/
def formLen : Form → Nat
  | .b => 8
  | .i => 12
  | .s => 12
  | .q => 16
  | .si => 16
  | .ii => 16

/-- The LEN code of a form (R309). -/
def formCode : Form → Nat
  | .b => 0
  | .i => 1
  | .s => 1
  | .q => 2
  | .si => 2
  | .ii => 2

/-- The fields of a word (R312, R313). -/
structure Fields where
  form : Form
  maj : Nat
  fn : Nat
  msk : Nat
  nw : Nat
  hold : Nat
  dst : Nat
  sa : Nat
  sb : Nat
  ty : Nat
  mod : Nat
  sc : Nat
  ext : Nat
  imm : Nat
  immB : Nat
  deriving DecidableEq, Repr

/-- All fields 0. -/
def Fields.zero : Fields := ⟨.b, 0, 0, 0, 0, 0, 0, 0, 0, 0, 0, 0, 0, 0, 0⟩

/-- Bits 63:0 of a word (R312). -/
def headWord (f : Fields) : Nat :=
  formCode f.form + f.maj * 2 ^ 2 + f.fn * 2 ^ 8 + f.msk * 2 ^ 14 + f.nw * 2 ^ 18 + f.hold * 2 ^ 19 + f.dst * 2 ^ 21 +
    f.sa * 2 ^ 32 + f.sb * 2 ^ 43 + f.ty * 2 ^ 54 + f.mod * 2 ^ 60

/-- Bits 127:64 of a word (R313). -/
def tailWord (f : Fields) : Nat := match f.form with
  | .b => 0
  | .i => f.imm
  | .s => f.sc + f.ext * 2 ^ 11
  | .q => f.imm
  | .si => f.sc + f.ext * 2 ^ 11 + f.immB * 2 ^ 32
  | .ii => f.imm + f.immB * 2 ^ 32

/-- The word of some fields. -/
def fieldsWord (f : Fields) : Nat := headWord f + tailWord f * 2 ^ 64

/-- The fields of a word read in a form. -/
def wordFields (form : Form) (w : Nat) : Fields :=
  let h : Fields := ⟨form, bits w 7 2, bits w 13 8, bits w 17 14, bits w 18 18, bits w 20 19, bits w 31 21, bits w 42 32,
    bits w 53 43, bits w 59 54, bits w 63 60, 0, 0, 0, 0⟩
  match form with
  | .b => h
  | .i => { h with imm := bits w 95 64 }
  | .s => { h with sc := bits w 74 64, ext := bits w 95 75 }
  | .q => { h with imm := bits w 127 64 }
  | .si => { h with sc := bits w 74 64, ext := bits w 95 75, immB := bits w 127 96 }
  | .ii => { h with imm := bits w 95 64, immB := bits w 127 96 }

/-! ## Operand codes (R314) and type codes (R319) -/

def kCode (n : Nat) : Nat := 1600 + n
def kCode0 : Option Nat → Nat
  | none => 0
  | some n => kCode n
def kCodeZ : Option Nat → Nat
  | none => 1539
  | some n => kCode n

def kOf (c : Nat) : Except DecodeError Nat := if 1600 ≤ c ∧ c < 1664 then .ok (c - 1600) else .error .operand
def kOf0 (c : Nat) : Except DecodeError (Option Nat) := if c = 0 then .ok none else (kOf c).map some
def kOfZ (c : Nat) : Except DecodeError (Option Nat) := if c = 1539 then .ok none else (kOf c).map some
def regOfZ (c : Nat) : Except DecodeError (Option Nat) :=
  if c = 1539 then .ok none else if c < 1536 then .ok (some c) else .error .operand
def boolOf (c : Nat) : Except DecodeError Bool := if c = 0 then .ok false else if c = 1 then .ok true else .error .operand

end Sys2Proof.Machine

namespace Sys2Proof

open Sys2Proof.Machine

def VSrc.code : VSrc → Nat
  | .reg n => n
  | .latch n => 1536 + n
  | .zero => 1539
  | .lane => 1540
  | .k n => kCode n

def VSrc.ofCode (c : Nat) : Except DecodeError VSrc :=
  if c < 1536 then .ok (.reg c) else if c < 1539 then .ok (.latch (c - 1536)) else if c = 1539 then .ok .zero
  else if c = 1540 then .ok .lane else (kOf c).map .k

def VDst.code : VDst → Nat
  | .reg n => n
  | .zero => 1539
  | .k n => kCode n

def VDst.ofCode (c : Nat) : Except DecodeError VDst :=
  if c < 1536 then .ok (.reg c) else if c = 1539 then .ok .zero else (kOf c).map .k

def AccDst.code : AccDst → Nat
  | .reg n => n
  | .mem k => kCode k

def AccDst.ofCode (c : Nat) : Except DecodeError AccDst := if c < 1536 then .ok (.reg c) else (kOf c).map .mem

/-- Type codes (R319). -/
def Ty.code : Ty → Nat
  | .b32 => 0x00 | .i32 => 0x01 | .n32 => 0x02 | .i16x2 => 0x03 | .n16x2 => 0x04 | .i8x4 => 0x05 | .n8x4 => 0x06
  | .i64 => 0x07 | .n64 => 0x08 | .f32 => 0x10 | .bf16x2 => 0x11 | .f16x2 => 0x12 | .e4m3x4 => 0x13 | .e5m2x4 => 0x14
  | .l6 => 0x15

def allTys : List Ty :=
  [.b32, .i32, .n32, .i16x2, .n16x2, .i8x4, .n8x4, .i64, .n64, .f32, .bf16x2, .f16x2, .e4m3x4, .e5m2x4, .l6]

def Ty.ofCode (c : Nat) : Except DecodeError Ty := match allTys.find? (·.code == c) with
  | some t => .ok t
  | none => .error .type

def tyN64 (c : Nat) : Except DecodeError Bool := if c = 0x02 then .ok false else if c = 0x08 then .ok true else .error .type

/-- The SA field and the EXT bits of an address (R387): AM in 17:16, KB in 15:10, DISP in 9:0. -/
def Addr.opCode : Addr → Nat
  | .pair n _ => n
  | .base _ o _ => o.code
  | .off o _ => o.code

def Addr.ext : Addr → Nat
  | .pair _ d => d
  | .base kb _ d => 2 ^ 16 + kb * 2 ^ 10 + d
  | .off _ d => 2 * 2 ^ 16 + d

def addrOf (sa ext : Nat) : Except DecodeError Addr :=
  let d := bits ext 9 0
  match bits ext 17 16 with
  | 0 => .ok (.pair sa d)
  | 1 => (VSrc.ofCode sa).map fun o => .base (bits ext 15 10) o d
  | 2 => (VSrc.ofCode sa).map fun o => .off o d
  | _ => .error .operand

/-- The SB field and the EXT bits of kfromv's lane (R354). -/
def LaneSel.sb : LaneSel → Nat
  | .lane _ => 0
  | .k n => kCode n
  | .first => 0

def LaneSel.ext : LaneSel → Nat
  | .lane n => n
  | .k _ => 2 ^ 6
  | .first => 2 ^ 7

def laneSelOf (sb ext : Nat) : Except DecodeError LaneSel :=
  if bits ext 7 6 = 0 then .ok (.lane (bits ext 5 0)) else if bits ext 7 6 = 1 then (kOf sb).map .k
  else if bits ext 7 6 = 2 then .ok .first else .error .operand

/-- The header fields of an instruction with one. -/
def Hdr.fields (h : Hdr) : Fields :=
  { Fields.zero with msk := h.msk, nw := h.nw.toNat, hold := h.hold, ty := h.ty.code, mod := h.mod }

end Sys2Proof

namespace Sys2Proof.Machine

open Sys2Proof

def Fields.hdr (f : Fields) : Except DecodeError Hdr :=
  (Ty.ofCode f.ty).map fun t => ⟨f.mod, t, f.hold, f.nw = 1, f.msk⟩

/-! ## Encoding -/

/-! The fields of each instruction (R323 and the encoding table of its chapter). -/

def fldNop : Fields := { Fields.zero with form := .b, maj := 0x00, fn := 0x00 }
def fldBra (c : Nat) (neg : Bool) (off : W32) : Fields := { Fields.zero with form := .i, maj := 0x00, fn := 0x01, sa := c, sb := neg.toNat, imm := off.toNat }
def fldBrd (c : Nat) (neg : Bool) (tgt : W32) (rpc : W32) : Fields := { Fields.zero with form := .ii, maj := 0x00, fn := 0x02, sa := c, sb := neg.toNat, imm := tgt.toNat, immB := rpc.toNat }
def fldBrx (a : VSrc) : Fields := { Fields.zero with form := .b, maj := 0x00, fn := 0x03, ty := Ty.n64.code, sa := a.code }
def fldCall (nw : Bool) (kd : Nat) (off : W32) : Fields := { Fields.zero with form := .i, maj := 0x00, fn := 0x04, nw := nw.toNat, dst := kCode kd, imm := off.toNat }
def fldRet (ka : Nat) : Fields := { Fields.zero with form := .b, maj := 0x00, fn := 0x05, sa := kCode ka }
def fldExit : Fields := { Fields.zero with form := .b, maj := 0x00, fn := 0x06 }
def fldYield : Fields := { Fields.zero with form := .b, maj := 0x00, fn := 0x07 }
def fldTrap (imm : W32) : Fields := { Fields.zero with form := .i, maj := 0x00, fn := 0x08, imm := imm.toNat }
def fldTret : Fields := { Fields.zero with form := .b, maj := 0x00, fn := 0x09 }
def fldLaunch (nw : Bool) (kd : Nat) (ka : Nat) : Fields := { Fields.zero with form := .b, maj := 0x01, fn := 0x00, nw := nw.toNat, dst := kCode kd, sa := kCode ka }
def fldSpawn (nw : Bool) (kd : Nat) (ka : Nat) (arg : Option Nat) : Fields := { Fields.zero with form := .b, maj := 0x01, fn := 0x01, nw := nw.toNat, dst := kCode kd, sa := kCode ka, sb := kCode0 arg }
def fldLwait (nw : Bool) (kd : Nat) (ka : Nat) : Fields := { Fields.zero with form := .b, maj := 0x01, fn := 0x02, nw := nw.toNat, dst := kCode kd, sa := kCode ka }
def fldBar (n : Nat) (cnt : Option Nat) : Fields := { Fields.zero with form := .b, maj := 0x02, fn := 0x00, sa := n, sb := kCode0 cnt }
def fldArrive (nw : Bool) (kd : Nat) (n : Nat) (cnt : Option Nat) : Fields := { Fields.zero with form := .b, maj := 0x02, fn := 0x01, nw := nw.toNat, dst := kCode kd, sa := n, sb := kCode0 cnt }
def fldAwait (n : Nat) (kp : Nat) : Fields := { Fields.zero with form := .b, maj := 0x02, fn := 0x02, sa := n, sb := kCode kp }
def fldCbar (n : Nat) (cnt : Option Nat) (rank : Nat) (file : Nat) : Fields := { Fields.zero with form := .s, maj := 0x02, fn := 0x03, sa := n, sb := kCode0 cnt, ext := rank + file * 2 ^ 4 }
def fldXacq (n : Nat) : Fields := { Fields.zero with form := .i, maj := 0x03, fn := 0x00, imm := n }
def fldXrel : Fields := { Fields.zero with form := .b, maj := 0x03, fn := 0x01 }
def fldRgive (n : Nat) : Fields := { Fields.zero with form := .i, maj := 0x03, fn := 0x02, imm := n }
def fldRclaim (nw : Bool) (kd : Nat) (n : Nat) : Fields := { Fields.zero with form := .i, maj := 0x03, fn := 0x03, nw := nw.toNat, dst := kCode kd, imm := n }
def fldRolesw (n : Nat) : Fields := { Fields.zero with form := .i, maj := 0x03, fn := 0x04, imm := n }
def fldSetfmt (ka : Nat) : Fields := { Fields.zero with form := .b, maj := 0x04, fn := 0x00, sa := kCode ka }
def fldSetfmtImm (imm : W32) : Fields := { Fields.zero with form := .i, maj := 0x04, fn := 0x20, imm := imm.toNat }
def fldGetfmt (nw : Bool) (kd : Nat) : Fields := { Fields.zero with form := .b, maj := 0x04, fn := 0x01, nw := nw.toNat, dst := kCode kd }
def fldCrd (nw : Bool) (kd : Nat) (c : Nat) : Fields := { Fields.zero with form := .b, maj := 0x04, fn := 0x02, nw := nw.toNat, dst := kCode kd, sa := c }
def fldCwr (c : Nat) (ka : Nat) : Fields := { Fields.zero with form := .b, maj := 0x04, fn := 0x03, dst := c, sa := kCode ka }
def fldClock (nw : Bool) (kd : Nat) : Fields := { Fields.zero with form := .b, maj := 0x04, fn := 0x04, nw := nw.toNat, dst := kCode kd }
def fldKmov (h : Hdr) (kd : Nat) (ka : Nat) : Fields := { h.fields with form := .b, maj := 0x05, fn := 0x00, dst := kCode kd, sa := kCode ka }
def fldKadd (h : Hdr) (kd : Nat) (ka : Nat) (kb : Nat) : Fields := { h.fields with form := .b, maj := 0x05, fn := 0x01, dst := kCode kd, sa := kCode ka, sb := kCode kb }
def fldKsub (h : Hdr) (kd : Nat) (ka : Nat) (kb : Nat) : Fields := { h.fields with form := .b, maj := 0x05, fn := 0x02, dst := kCode kd, sa := kCode ka, sb := kCode kb }
def fldKmul (h : Hdr) (kd : Nat) (ka : Nat) (kb : Nat) : Fields := { h.fields with form := .b, maj := 0x05, fn := 0x03, dst := kCode kd, sa := kCode ka, sb := kCode kb }
def fldKaddImm (h : Hdr) (kd : Nat) (ka : Nat) (imm : W32) : Fields := { h.fields with form := .i, maj := 0x05, fn := 0x21, dst := kCode kd, sa := kCode ka, imm := imm.toNat }
def fldKsubImm (h : Hdr) (kd : Nat) (ka : Nat) (imm : W32) : Fields := { h.fields with form := .i, maj := 0x05, fn := 0x22, dst := kCode kd, sa := kCode ka, imm := imm.toNat }
def fldKmulImm (h : Hdr) (kd : Nat) (ka : Nat) (imm : W32) : Fields := { h.fields with form := .i, maj := 0x05, fn := 0x23, dst := kCode kd, sa := kCode ka, imm := imm.toNat }
def fldKmad (h : Hdr) (kd : Nat) (ka : Nat) (kb : Nat) (kc : Nat) : Fields := { h.fields with form := .s, maj := 0x05, fn := 0x04, dst := kCode kd, sa := kCode ka, sb := kCode kb, sc := kCode kc }
def fldKmadImm (h : Hdr) (kd : Nat) (ka : Nat) (imm : W32) (kc : Nat) : Fields := { h.fields with form := .si, maj := 0x05, fn := 0x24, dst := kCode kd, sa := kCode ka, immB := imm.toNat, sc := kCode kc }
def fldKand (h : Hdr) (kd : Nat) (ka : Nat) (kb : Nat) : Fields := { h.fields with form := .b, maj := 0x05, fn := 0x05, dst := kCode kd, sa := kCode ka, sb := kCode kb }
def fldKor (h : Hdr) (kd : Nat) (ka : Nat) (kb : Nat) : Fields := { h.fields with form := .b, maj := 0x05, fn := 0x06, dst := kCode kd, sa := kCode ka, sb := kCode kb }
def fldKxor (h : Hdr) (kd : Nat) (ka : Nat) (kb : Nat) : Fields := { h.fields with form := .b, maj := 0x05, fn := 0x07, dst := kCode kd, sa := kCode ka, sb := kCode kb }
def fldKshl (h : Hdr) (kd : Nat) (ka : Nat) (kb : Nat) : Fields := { h.fields with form := .b, maj := 0x05, fn := 0x08, dst := kCode kd, sa := kCode ka, sb := kCode kb }
def fldKshr (h : Hdr) (kd : Nat) (ka : Nat) (kb : Nat) : Fields := { h.fields with form := .b, maj := 0x05, fn := 0x09, dst := kCode kd, sa := kCode ka, sb := kCode kb }
def fldKsra (h : Hdr) (kd : Nat) (ka : Nat) (kb : Nat) : Fields := { h.fields with form := .b, maj := 0x05, fn := 0x0A, dst := kCode kd, sa := kCode ka, sb := kCode kb }
def fldKandImm (h : Hdr) (kd : Nat) (ka : Nat) (imm : W32) : Fields := { h.fields with form := .i, maj := 0x05, fn := 0x25, dst := kCode kd, sa := kCode ka, imm := imm.toNat }
def fldKorImm (h : Hdr) (kd : Nat) (ka : Nat) (imm : W32) : Fields := { h.fields with form := .i, maj := 0x05, fn := 0x26, dst := kCode kd, sa := kCode ka, imm := imm.toNat }
def fldKxorImm (h : Hdr) (kd : Nat) (ka : Nat) (imm : W32) : Fields := { h.fields with form := .i, maj := 0x05, fn := 0x27, dst := kCode kd, sa := kCode ka, imm := imm.toNat }
def fldKshlImm (h : Hdr) (kd : Nat) (ka : Nat) (imm : W32) : Fields := { h.fields with form := .i, maj := 0x05, fn := 0x28, dst := kCode kd, sa := kCode ka, imm := imm.toNat }
def fldKshrImm (h : Hdr) (kd : Nat) (ka : Nat) (imm : W32) : Fields := { h.fields with form := .i, maj := 0x05, fn := 0x29, dst := kCode kd, sa := kCode ka, imm := imm.toNat }
def fldKsraImm (h : Hdr) (kd : Nat) (ka : Nat) (imm : W32) : Fields := { h.fields with form := .i, maj := 0x05, fn := 0x2A, dst := kCode kd, sa := kCode ka, imm := imm.toNat }
def fldKmin (h : Hdr) (kd : Nat) (ka : Nat) (kb : Nat) : Fields := { h.fields with form := .b, maj := 0x05, fn := 0x0B, dst := kCode kd, sa := kCode ka, sb := kCode kb }
def fldKmax (h : Hdr) (kd : Nat) (ka : Nat) (kb : Nat) : Fields := { h.fields with form := .b, maj := 0x05, fn := 0x0C, dst := kCode kd, sa := kCode ka, sb := kCode kb }
def fldKminImm (h : Hdr) (kd : Nat) (ka : Nat) (imm : W32) : Fields := { h.fields with form := .i, maj := 0x05, fn := 0x2B, dst := kCode kd, sa := kCode ka, imm := imm.toNat }
def fldKmaxImm (h : Hdr) (kd : Nat) (ka : Nat) (imm : W32) : Fields := { h.fields with form := .i, maj := 0x05, fn := 0x2C, dst := kCode kd, sa := kCode ka, imm := imm.toNat }
def fldKcmp (h : Hdr) (kd : Nat) (ka : Nat) (kb : Nat) : Fields := { h.fields with form := .b, maj := 0x05, fn := 0x0D, dst := kCode kd, sa := kCode ka, sb := kCode kb }
def fldKcmpImm (h : Hdr) (kd : Nat) (ka : Nat) (imm : W32) : Fields := { h.fields with form := .i, maj := 0x05, fn := 0x2D, dst := kCode kd, sa := kCode ka, imm := imm.toNat }
def fldKsel (h : Hdr) (kd : Nat) (ka : Nat) (kb : Nat) (kc : Nat) : Fields := { h.fields with form := .s, maj := 0x05, fn := 0x0E, dst := kCode kd, sa := kCode ka, sb := kCode kb, sc := kCode kc }
def fldKlea (h : Hdr) (kd : Nat) (ka : Nat) (kb : Nat) (sh : Nat) (disp : Nat) : Fields := { h.fields with form := .s, maj := 0x05, fn := 0x0F, dst := kCode kd, sa := kCode ka, sb := kCode kb, ext := sh + disp * 2 ^ 3 }
def fldKpopc (h : Hdr) (kd : Nat) (ka : Nat) : Fields := { h.fields with form := .b, maj := 0x05, fn := 0x10, dst := kCode kd, sa := kCode ka }
def fldKclz (h : Hdr) (kd : Nat) (ka : Nat) : Fields := { h.fields with form := .b, maj := 0x05, fn := 0x11, dst := kCode kd, sa := kCode ka }
def fldKli (h : Hdr) (kd : Nat) (imm : W32) : Fields := { h.fields with form := .i, maj := 0x06, fn := 0x00, dst := kCode kd, imm := imm.toNat }
def fldKli64 (h : Hdr) (kd : Nat) (imm : W64) : Fields := { h.fields with form := .q, maj := 0x06, fn := 0x01, dst := kCode kd, imm := imm.toNat }
def fldKfromv (h : Hdr) (kd : Nat) (va : Nat) (sel : LaneSel) : Fields := { h.fields with form := .s, maj := 0x07, fn := 0x00, dst := kCode kd, sa := va, sb := sel.sb, ext := sel.ext }
def fldAdd (h : Hdr) (d : VDst) (a : VSrc) (b : VSrc) : Fields := { h.fields with form := .b, maj := 0x08, fn := 0x00, dst := d.code, sa := a.code, sb := b.code }
def fldAddImm (h : Hdr) (d : VDst) (a : VSrc) (imm : W32) : Fields := { h.fields with form := .i, maj := 0x08, fn := 0x20, dst := d.code, sa := a.code, imm := imm.toNat }
def fldAddc (h : Hdr) (d : VDst) (a : VSrc) (b : VSrc) (cin : Nat) (cout : Nat) : Fields := { h.fields with form := .s, maj := 0x08, fn := 0x01, dst := d.code, sa := a.code, sb := b.code, sc := cin, ext := cout }
def fldSub (h : Hdr) (d : VDst) (a : VSrc) (b : VSrc) : Fields := { h.fields with form := .b, maj := 0x08, fn := 0x02, dst := d.code, sa := a.code, sb := b.code }
def fldMul (h : Hdr) (d : VDst) (a : VSrc) (b : VSrc) : Fields := { h.fields with form := .b, maj := 0x08, fn := 0x03, dst := d.code, sa := a.code, sb := b.code }
def fldSubImm (h : Hdr) (d : VDst) (a : VSrc) (imm : W32) : Fields := { h.fields with form := .i, maj := 0x08, fn := 0x22, dst := d.code, sa := a.code, imm := imm.toNat }
def fldMulImm (h : Hdr) (d : VDst) (a : VSrc) (imm : W32) : Fields := { h.fields with form := .i, maj := 0x08, fn := 0x23, dst := d.code, sa := a.code, imm := imm.toNat }
def fldMulh (h : Hdr) (d : VDst) (a : VSrc) (b : VSrc) : Fields := { h.fields with form := .b, maj := 0x08, fn := 0x04, dst := d.code, sa := a.code, sb := b.code }
def fldMulhImm (h : Hdr) (d : VDst) (a : VSrc) (imm : W32) : Fields := { h.fields with form := .i, maj := 0x08, fn := 0x24, dst := d.code, sa := a.code, imm := imm.toNat }
def fldMad (h : Hdr) (d : VDst) (a : VSrc) (b : VSrc) (c : VSrc) : Fields := { h.fields with form := .s, maj := 0x08, fn := 0x05, dst := d.code, sa := a.code, sb := b.code, sc := c.code }
def fldMadImm (h : Hdr) (d : VDst) (a : VSrc) (imm : W32) (c : VSrc) : Fields := { h.fields with form := .si, maj := 0x08, fn := 0x25, dst := d.code, sa := a.code, immB := imm.toNat, sc := c.code }
def fldAbs (h : Hdr) (d : VDst) (a : VSrc) : Fields := { h.fields with form := .b, maj := 0x08, fn := 0x06, dst := d.code, sa := a.code }
def fldAnd (h : Hdr) (d : VDst) (a : VSrc) (b : VSrc) : Fields := { h.fields with form := .b, maj := 0x09, fn := 0x00, dst := d.code, sa := a.code, sb := b.code }
def fldOr (h : Hdr) (d : VDst) (a : VSrc) (b : VSrc) : Fields := { h.fields with form := .b, maj := 0x09, fn := 0x01, dst := d.code, sa := a.code, sb := b.code }
def fldXor (h : Hdr) (d : VDst) (a : VSrc) (b : VSrc) : Fields := { h.fields with form := .b, maj := 0x09, fn := 0x02, dst := d.code, sa := a.code, sb := b.code }
def fldAndImm (h : Hdr) (d : VDst) (a : VSrc) (imm : W32) : Fields := { h.fields with form := .i, maj := 0x09, fn := 0x20, dst := d.code, sa := a.code, imm := imm.toNat }
def fldOrImm (h : Hdr) (d : VDst) (a : VSrc) (imm : W32) : Fields := { h.fields with form := .i, maj := 0x09, fn := 0x21, dst := d.code, sa := a.code, imm := imm.toNat }
def fldXorImm (h : Hdr) (d : VDst) (a : VSrc) (imm : W32) : Fields := { h.fields with form := .i, maj := 0x09, fn := 0x22, dst := d.code, sa := a.code, imm := imm.toNat }
def fldLop3 (h : Hdr) (d : VDst) (a : VSrc) (b : VSrc) (c : VSrc) (tbl : BitVec 8) : Fields := { h.fields with form := .si, maj := 0x09, fn := 0x03, dst := d.code, sa := a.code, sb := b.code, sc := c.code, immB := tbl.toNat }
def fldShl (h : Hdr) (d : VDst) (a : VSrc) (b : VSrc) : Fields := { h.fields with form := .b, maj := 0x09, fn := 0x04, dst := d.code, sa := a.code, sb := b.code }
def fldShr (h : Hdr) (d : VDst) (a : VSrc) (b : VSrc) : Fields := { h.fields with form := .b, maj := 0x09, fn := 0x05, dst := d.code, sa := a.code, sb := b.code }
def fldSra (h : Hdr) (d : VDst) (a : VSrc) (b : VSrc) : Fields := { h.fields with form := .b, maj := 0x09, fn := 0x06, dst := d.code, sa := a.code, sb := b.code }
def fldShlImm (h : Hdr) (d : VDst) (a : VSrc) (imm : W32) : Fields := { h.fields with form := .i, maj := 0x09, fn := 0x24, dst := d.code, sa := a.code, imm := imm.toNat }
def fldShrImm (h : Hdr) (d : VDst) (a : VSrc) (imm : W32) : Fields := { h.fields with form := .i, maj := 0x09, fn := 0x25, dst := d.code, sa := a.code, imm := imm.toNat }
def fldSraImm (h : Hdr) (d : VDst) (a : VSrc) (imm : W32) : Fields := { h.fields with form := .i, maj := 0x09, fn := 0x26, dst := d.code, sa := a.code, imm := imm.toNat }
def fldMin (h : Hdr) (d : VDst) (a : VSrc) (b : VSrc) : Fields := { h.fields with form := .b, maj := 0x0A, fn := 0x00, dst := d.code, sa := a.code, sb := b.code }
def fldMax (h : Hdr) (d : VDst) (a : VSrc) (b : VSrc) : Fields := { h.fields with form := .b, maj := 0x0A, fn := 0x01, dst := d.code, sa := a.code, sb := b.code }
def fldMinImm (h : Hdr) (d : VDst) (a : VSrc) (imm : W32) : Fields := { h.fields with form := .i, maj := 0x0A, fn := 0x20, dst := d.code, sa := a.code, imm := imm.toNat }
def fldMaxImm (h : Hdr) (d : VDst) (a : VSrc) (imm : W32) : Fields := { h.fields with form := .i, maj := 0x0A, fn := 0x21, dst := d.code, sa := a.code, imm := imm.toNat }
def fldCmp (h : Hdr) (md : Nat) (a : VSrc) (b : VSrc) : Fields := { h.fields with form := .b, maj := 0x0A, fn := 0x02, dst := md, sa := a.code, sb := b.code }
def fldCmpImm (h : Hdr) (md : Nat) (a : VSrc) (imm : W32) : Fields := { h.fields with form := .i, maj := 0x0A, fn := 0x22, dst := md, sa := a.code, imm := imm.toNat }
def fldSel (h : Hdr) (d : VDst) (a : VSrc) (b : VSrc) (mc : Nat) : Fields := { h.fields with form := .s, maj := 0x0A, fn := 0x03, dst := d.code, sa := a.code, sb := b.code, sc := mc }
def fldMov (h : Hdr) (d : VDst) (a : VSrc) : Fields := { h.fields with form := .b, maj := 0x0A, fn := 0x04, dst := d.code, sa := a.code }
def fldMovImm (h : Hdr) (d : VDst) (imm : W32) : Fields := { h.fields with form := .i, maj := 0x0A, fn := 0x24, dst := d.code, imm := imm.toNat }
def fldMovk (h : Hdr) (d : VDst) (kv : Nat) (kl : Nat) : Fields := { h.fields with form := .b, maj := 0x0A, fn := 0x05, dst := d.code, sa := kCode kv, sb := kCode kl }
def fldPopc (h : Hdr) (d : VDst) (a : VSrc) : Fields := { h.fields with form := .b, maj := 0x0B, fn := 0x00, dst := d.code, sa := a.code }
def fldClz (h : Hdr) (d : VDst) (a : VSrc) : Fields := { h.fields with form := .b, maj := 0x0B, fn := 0x01, dst := d.code, sa := a.code }
def fldBrev (h : Hdr) (d : VDst) (a : VSrc) : Fields := { h.fields with form := .b, maj := 0x0B, fn := 0x02, dst := d.code, sa := a.code }
def fldBfe (h : Hdr) (d : VDst) (a : VSrc) (b : VSrc) : Fields := { h.fields with form := .b, maj := 0x0B, fn := 0x03, dst := d.code, sa := a.code, sb := b.code }
def fldBfeImm (h : Hdr) (d : VDst) (a : VSrc) (imm : W32) : Fields := { h.fields with form := .i, maj := 0x0B, fn := 0x23, dst := d.code, sa := a.code, imm := imm.toNat }
def fldBfi (h : Hdr) (d : VDst) (a : VSrc) (b : VSrc) (c : VSrc) : Fields := { h.fields with form := .s, maj := 0x0B, fn := 0x04, dst := d.code, sa := a.code, sb := b.code, sc := c.code }
def fldBfiImm (h : Hdr) (d : VDst) (a : VSrc) (imm : W32) (c : VSrc) : Fields := { h.fields with form := .si, maj := 0x0B, fn := 0x24, dst := d.code, sa := a.code, immB := imm.toNat, sc := c.code }
def fldFadd (h : Hdr) (d : VDst) (a : VSrc) (b : VSrc) : Fields := { h.fields with form := .b, maj := 0x10, fn := 0x00, dst := d.code, sa := a.code, sb := b.code }
def fldFsub (h : Hdr) (d : VDst) (a : VSrc) (b : VSrc) : Fields := { h.fields with form := .b, maj := 0x10, fn := 0x01, dst := d.code, sa := a.code, sb := b.code }
def fldFmul (h : Hdr) (d : VDst) (a : VSrc) (b : VSrc) : Fields := { h.fields with form := .b, maj := 0x10, fn := 0x02, dst := d.code, sa := a.code, sb := b.code }
def fldFaddImm (h : Hdr) (d : VDst) (a : VSrc) (imm : W32) : Fields := { h.fields with form := .i, maj := 0x10, fn := 0x20, dst := d.code, sa := a.code, imm := imm.toNat }
def fldFsubImm (h : Hdr) (d : VDst) (a : VSrc) (imm : W32) : Fields := { h.fields with form := .i, maj := 0x10, fn := 0x21, dst := d.code, sa := a.code, imm := imm.toNat }
def fldFmulImm (h : Hdr) (d : VDst) (a : VSrc) (imm : W32) : Fields := { h.fields with form := .i, maj := 0x10, fn := 0x22, dst := d.code, sa := a.code, imm := imm.toNat }
def fldFma (h : Hdr) (d : VDst) (a : VSrc) (b : VSrc) (c : VSrc) : Fields := { h.fields with form := .s, maj := 0x10, fn := 0x03, dst := d.code, sa := a.code, sb := b.code, sc := c.code }
def fldFmaImm (h : Hdr) (d : VDst) (a : VSrc) (imm : W32) (c : VSrc) : Fields := { h.fields with form := .si, maj := 0x10, fn := 0x23, dst := d.code, sa := a.code, immB := imm.toNat, sc := c.code }
def fldFmin (h : Hdr) (d : VDst) (a : VSrc) (b : VSrc) : Fields := { h.fields with form := .b, maj := 0x10, fn := 0x04, dst := d.code, sa := a.code, sb := b.code }
def fldFmax (h : Hdr) (d : VDst) (a : VSrc) (b : VSrc) : Fields := { h.fields with form := .b, maj := 0x10, fn := 0x05, dst := d.code, sa := a.code, sb := b.code }
def fldFminImm (h : Hdr) (d : VDst) (a : VSrc) (imm : W32) : Fields := { h.fields with form := .i, maj := 0x10, fn := 0x24, dst := d.code, sa := a.code, imm := imm.toNat }
def fldFmaxImm (h : Hdr) (d : VDst) (a : VSrc) (imm : W32) : Fields := { h.fields with form := .i, maj := 0x10, fn := 0x25, dst := d.code, sa := a.code, imm := imm.toNat }
def fldFcmp (h : Hdr) (md : Nat) (a : VSrc) (b : VSrc) : Fields := { h.fields with form := .b, maj := 0x11, fn := 0x00, dst := md, sa := a.code, sb := b.code }
def fldFcmpImm (h : Hdr) (md : Nat) (a : VSrc) (imm : W32) : Fields := { h.fields with form := .i, maj := 0x11, fn := 0x20, dst := md, sa := a.code, imm := imm.toNat }
def fldFclass (h : Hdr) (d : VDst) (a : VSrc) : Fields := { h.fields with form := .b, maj := 0x11, fn := 0x01, dst := d.code, sa := a.code }
def fldFscale (h : Hdr) (d : VDst) (a : VSrc) (b : VSrc) : Fields := { h.fields with form := .b, maj := 0x11, fn := 0x02, dst := d.code, sa := a.code, sb := b.code }
def fldFscaleImm (h : Hdr) (d : VDst) (a : VSrc) (imm : W32) : Fields := { h.fields with form := .i, maj := 0x11, fn := 0x22, dst := d.code, sa := a.code, imm := imm.toNat }
def fldFrnd (h : Hdr) (d : VDst) (a : VSrc) : Fields := { h.fields with form := .b, maj := 0x11, fn := 0x03, dst := d.code, sa := a.code }
def fldFrcp (h : Hdr) (d : VDst) (a : VSrc) : Fields := { h.fields with form := .b, maj := 0x12, fn := 0x00, dst := d.code, sa := a.code }
def fldFsqrt (h : Hdr) (d : VDst) (a : VSrc) : Fields := { h.fields with form := .b, maj := 0x12, fn := 0x01, dst := d.code, sa := a.code }
def fldFrsq (h : Hdr) (d : VDst) (a : VSrc) : Fields := { h.fields with form := .b, maj := 0x12, fn := 0x02, dst := d.code, sa := a.code }
def fldFexp2 (h : Hdr) (d : VDst) (a : VSrc) : Fields := { h.fields with form := .b, maj := 0x12, fn := 0x03, dst := d.code, sa := a.code }
def fldFlog2 (h : Hdr) (d : VDst) (a : VSrc) : Fields := { h.fields with form := .b, maj := 0x12, fn := 0x04, dst := d.code, sa := a.code }
def fldCvt (h : Hdr) (d : VDst) (a : VSrc) (src : Ty) (elem : Nat) : Fields := { h.fields with form := .s, maj := 0x13, fn := 0x00, dst := d.code, sa := a.code, ext := src.code + elem * 2 ^ 6 }
def fldLpack (h : Hdr) (d : VDst) (va : Nat) (src : Ty) : Fields := { h.fields with form := .s, maj := 0x13, fn := 0x01, dst := d.code, sa := va, ext := src.code }
def fldLunpk (h : Hdr) (d : VDst) (va : Nat) : Fields := { h.fields with form := .s, maj := 0x13, fn := 0x02, dst := d.code, sa := va }
def fldShfl (h : Hdr) (d : VDst) (a : VSrc) (b : VSrc) : Fields := { h.fields with form := .b, maj := 0x14, fn := 0x00, dst := d.code, sa := a.code, sb := b.code }
def fldShflImm (h : Hdr) (d : VDst) (a : VSrc) (imm : W32) : Fields := { h.fields with form := .i, maj := 0x14, fn := 0x20, dst := d.code, sa := a.code, imm := imm.toNat }
def fldBcast (h : Hdr) (d : VDst) (a : VSrc) (kl : Nat) : Fields := { h.fields with form := .b, maj := 0x14, fn := 0x01, dst := d.code, sa := a.code, sb := kCode kl }
def fldBcastImm (h : Hdr) (d : VDst) (a : VSrc) (imm : W32) : Fields := { h.fields with form := .i, maj := 0x14, fn := 0x21, dst := d.code, sa := a.code, imm := imm.toNat }
def fldCompress (h : Hdr) (d : VDst) (a : VSrc) (b : VSrc) (vm : Nat) (slot : Nat) : Fields := { h.fields with form := .s, maj := 0x14, fn := 0x02, dst := d.code, sa := a.code, sb := b.code, sc := vm, ext := slot }
def fldExpand (h : Hdr) (d : VDst) (a : VSrc) (vm : VSrc) (slot : Nat) : Fields := { h.fields with form := .s, maj := 0x14, fn := 0x03, dst := d.code, sa := a.code, sb := vm.code, ext := slot }
def fldRedadd (h : Hdr) (d : VDst) (a : VSrc) : Fields := { h.fields with form := .b, maj := 0x15, fn := 0x00, dst := d.code, sa := a.code }
def fldRedmin (h : Hdr) (d : VDst) (a : VSrc) : Fields := { h.fields with form := .b, maj := 0x15, fn := 0x01, dst := d.code, sa := a.code }
def fldRedmax (h : Hdr) (d : VDst) (a : VSrc) : Fields := { h.fields with form := .b, maj := 0x15, fn := 0x02, dst := d.code, sa := a.code }
def fldRedand (h : Hdr) (d : VDst) (a : VSrc) : Fields := { h.fields with form := .b, maj := 0x15, fn := 0x03, dst := d.code, sa := a.code }
def fldRedor (h : Hdr) (d : VDst) (a : VSrc) : Fields := { h.fields with form := .b, maj := 0x15, fn := 0x04, dst := d.code, sa := a.code }
def fldRedxor (h : Hdr) (d : VDst) (a : VSrc) : Fields := { h.fields with form := .b, maj := 0x15, fn := 0x05, dst := d.code, sa := a.code }
def fldScan (h : Hdr) (d : VDst) (a : VSrc) : Fields := { h.fields with form := .b, maj := 0x15, fn := 0x06, dst := d.code, sa := a.code }
def fldRedminIndex (h : Hdr) (d : VDst) (di : VDst) (a : VSrc) (b : VSrc) : Fields := { h.fields with form := .s, maj := 0x15, fn := 0x08, dst := d.code, sc := di.code, sa := a.code, sb := b.code }
def fldRedmaxIndex (h : Hdr) (d : VDst) (di : VDst) (a : VSrc) (b : VSrc) : Fields := { h.fields with form := .s, maj := 0x15, fn := 0x09, dst := d.code, sc := di.code, sa := a.code, sb := b.code }
def fldBallot (h : Hdr) (kd : Nat) (a : VSrc) : Fields := { h.fields with form := .b, maj := 0x16, fn := 0x00, dst := kCode kd, sa := a.code }
def fldVany (h : Hdr) (kd : Nat) (a : VSrc) : Fields := { h.fields with form := .b, maj := 0x16, fn := 0x01, dst := kCode kd, sa := a.code }
def fldVall (h : Hdr) (kd : Nat) (a : VSrc) : Fields := { h.fields with form := .b, maj := 0x16, fn := 0x02, dst := kCode kd, sa := a.code }
def fldElect (h : Hdr) (md : Nat) (ms : Nat) : Fields := { h.fields with form := .b, maj := 0x16, fn := 0x03, dst := md, sa := ms }
def fldMcnt (h : Hdr) (kd : Nat) (ms : Nat) : Fields := { h.fields with form := .b, maj := 0x16, fn := 0x04, dst := kCode kd, sa := ms }
def fldMlog (h : Hdr) (md : Nat) (ma : Nat) (mb : Nat) : Fields := { h.fields with form := .b, maj := 0x16, fn := 0x05, dst := md, sa := ma, sb := mb }
def fldLdg (h : Hdr) (d : VDst) (ad : Addr) (scope : Nat) : Fields := { h.fields with form := .s, maj := 0x18, fn := 0x00, dst := d.code, sa := ad.opCode, ext := ad.ext + scope * 2 ^ 18 }
def fldStg (h : Hdr) (ad : Addr) (b : VSrc) (scope : Nat) : Fields := { h.fields with form := .s, maj := 0x18, fn := 0x01, sa := ad.opCode, sb := b.code, ext := ad.ext + scope * 2 ^ 18 }
def fldPref (h : Hdr) (ad : Addr) : Fields := { h.fields with form := .s, maj := 0x18, fn := 0x02, sa := ad.opCode, ext := ad.ext }
def fldLds (h : Hdr) (d : VDst) (ad : Addr) : Fields := { h.fields with form := .s, maj := 0x19, fn := 0x00, dst := d.code, sa := ad.opCode, ext := ad.ext }
def fldSts (h : Hdr) (ad : Addr) (b : VSrc) : Fields := { h.fields with form := .s, maj := 0x19, fn := 0x01, sa := ad.opCode, sb := b.code, ext := ad.ext }
def fldLdc (h : Hdr) (d : VDst) (off : VSrc) (disp : Nat) (rank : Nat) (file : Nat) (scope : Nat) : Fields := { h.fields with form := .s, maj := 0x19, fn := 0x02, dst := d.code, sa := off.code, ext := disp * 2 ^ 8 + rank + file * 2 ^ 4 + scope * 2 ^ 18 + 2 * 2 ^ 16 }
def fldStc (h : Hdr) (off : VSrc) (disp : Nat) (rank : Nat) (file : Nat) (b : VSrc) (scope : Nat) : Fields := { h.fields with form := .s, maj := 0x19, fn := 0x03, sa := off.code, sb := b.code, ext := disp * 2 ^ 8 + rank + file * 2 ^ 4 + scope * 2 ^ 18 + 2 * 2 ^ 16 }
def fldLdd (h : Hdr) (d : VDst) (ad : Addr) (scope : Nat) : Fields := { h.fields with form := .s, maj := 0x19, fn := 0x04, dst := d.code, sa := ad.opCode, ext := ad.ext + scope * 2 ^ 18 }
def fldStd (h : Hdr) (ad : Addr) (b : VSrc) (scope : Nat) : Fields := { h.fields with form := .s, maj := 0x19, fn := 0x05, sa := ad.opCode, sb := b.code, ext := ad.ext + scope * 2 ^ 18 }
def fldLdl (h : Hdr) (d : VDst) (ad : Addr) : Fields := { h.fields with form := .s, maj := 0x19, fn := 0x06, dst := d.code, sa := ad.opCode, ext := ad.ext }
def fldStl (h : Hdr) (ad : Addr) (b : VSrc) : Fields := { h.fields with form := .s, maj := 0x19, fn := 0x07, sa := ad.opCode, sb := b.code, ext := ad.ext }
def fldAtom (h : Hdr) (d : VDst) (ad : Addr) (b : VSrc) (aop : Nat) (scope : Nat) : Fields := { h.fields with form := .s, maj := 0x1A, fn := 0x00, dst := d.code, sa := ad.opCode, sb := b.code, ext := ad.ext + aop + scope * 2 ^ 18 }
def fldAtomc (h : Hdr) (d : VDst) (ad : Addr) (b : VSrc) (c : VSrc) (scope : Nat) : Fields := { h.fields with form := .s, maj := 0x1A, fn := 0x01, dst := d.code, sa := ad.opCode, sb := b.code, sc := c.code, ext := ad.ext + scope * 2 ^ 18 }
def fldRed (h : Hdr) (ad : Addr) (b : VSrc) (aop : Nat) (scope : Nat) : Fields := { h.fields with form := .s, maj := 0x1A, fn := 0x02, sa := ad.opCode, sb := b.code, ext := ad.ext + aop + scope * 2 ^ 18 }
def fldAtoms (h : Hdr) (ad : Addr) (b : VSrc) (scope : Nat) : Fields := { h.fields with form := .s, maj := 0x1A, fn := 0x03, sa := ad.opCode, sb := b.code, ext := ad.ext + scope * 2 ^ 18 }
def fldFence (sc : Bool) (p : Nat) (q : Nat) (scope : Nat) : Fields := { Fields.zero with form := .s, maj := 0x1B, fn := 0x00, mod := (if sc then 4 else 0), ext := p + q * 2 ^ 6 + scope * 2 ^ 18 }
def fldOfence : Fields := { Fields.zero with form := .b, maj := 0x1B, fn := 0x01 }
def fldWaitp (p : Nat) (kn : Nat) : Fields := { Fields.zero with form := .b, maj := 0x1B, fn := 0x02, sa := p, sb := kCode kn }
def fldCflush (h : Hdr) (ad : Addr) : Fields := { h.fields with form := .s, maj := 0x1B, fn := 0x03, sa := ad.opCode, ext := ad.ext }
def fldCinv (h : Hdr) (ad : Addr) : Fields := { h.fields with form := .s, maj := 0x1B, fn := 0x04, sa := ad.opCode, ext := ad.ext }
def fldTcopy (nw : Bool) (d : Option Nat) (krec : Nat) : Fields := { Fields.zero with form := .s, maj := 0x1C, fn := 0x00, nw := nw.toNat, dst := d.getD 1539, sa := kCode krec }
def fldTstore (krec : Nat) (vs : Nat) : Fields := { Fields.zero with form := .s, maj := 0x1C, fn := 0x01, sa := kCode krec, sb := vs }
def fldTfill (krec : Nat) (kval : Nat) : Fields := { Fields.zero with form := .s, maj := 0x1C, fn := 0x02, sa := kCode krec, sb := kCode kval }
def fldBdgather (kd : Nat) (ka : Nat) (kl : Nat) (kc : Nat) (rsz : Nat) (iw : Bool) : Fields := { Fields.zero with form := .s, maj := 0x1D, fn := 0x00, dst := kCode kd, sa := kCode ka, sb := kCode kl, sc := kCode kc, ext := rsz + iw.toNat * 2 ^ 10 }
def fldBdscat (kd : Nat) (ka : Nat) (kl : Nat) (kc : Nat) (rsz : Nat) (iw : Bool) : Fields := { Fields.zero with form := .s, maj := 0x1D, fn := 0x01, dst := kCode kd, sa := kCode ka, sb := kCode kl, sc := kCode kc, ext := rsz + iw.toNat * 2 ^ 10 }
def fldBdred (ty : Ty) (kd : Nat) (ka : Nat) (kl : Option Nat) (kc : Nat) (rsz : Nat) (iw : Bool) (rop : Nat) : Fields := { Fields.zero with form := .s, maj := 0x1D, fn := 0x02, ty := ty.code, dst := kCode kd, sa := kCode ka, sb := kCodeZ kl, sc := kCode kc, ext := rsz + iw.toNat * 2 ^ 10 + rop * 2 ^ 11 }
def fldBdconv (ty : Ty) (src : Ty) (kd : Nat) (ka : Nat) (kc : Nat) : Fields := { Fields.zero with form := .s, maj := 0x1D, fn := 0x03, ty := ty.code, dst := kCode kd, sa := kCode ka, sc := kCode kc, sb := 1539, ext := src.code }
def fldAccwin (kg : Nat) (kb : Nat) (kl : Nat) : Fields := { Fields.zero with form := .b, maj := 0x20, fn := 0x00, dst := kCode kg, sa := kCode kb, sb := kCode kl }
def fldAccz (r : RowOp) (c : Nat) : Fields := { Fields.zero with form := .s, maj := 0x20, fn := 0x01, dst := kCodeZ r.base, sc := c - 1, ext := r.e }
def fldAccld (r : RowOp) (krec : Nat) : Fields := { Fields.zero with form := .s, maj := 0x20, fn := 0x02, ty := Ty.f32.code, dst := kCodeZ r.base, sa := kCode krec, ext := r.e }
def fldAccst (krec : Nat) (r : RowOp) : Fields := { Fields.zero with form := .s, maj := 0x20, fn := 0x03, ty := Ty.f32.code, dst := kCode krec, sa := kCodeZ r.base, ext := r.e }
def fldAccout (h : Hdr) (d : AccDst) (r : RowOp) (c : Nat) : Fields := { h.fields with form := .s, maj := 0x20, fn := 0x04, dst := d.code, sa := kCodeZ r.base, sc := c - 1, ext := r.e }
def fldMma (r : RowOp) (a : Nat) (b : Nat) (sc : Nat) : Fields := { Fields.zero with form := .s, maj := 0x21, fn := 0x00, dst := kCodeZ r.base, sa := a, sb := b, sc := sc, ext := r.e }
def fldMmat (r : RowOp) (a : Nat) (b : Nat) (sc : Nat) : Fields := { Fields.zero with form := .s, maj := 0x21, fn := 0x01, dst := kCodeZ r.base, sa := a, sb := b, sc := sc, ext := r.e }
def fldMmas (r : RowOp) (a : Nat) (b : Nat) (sc : Nat) : Fields := { Fields.zero with form := .s, maj := 0x21, fn := 0x02, dst := kCodeZ r.base, sa := a, sb := b, sc := sc, ext := r.e }
def fldMfence (kd : Nat) : Fields := { Fields.zero with form := .b, maj := 0x22, fn := 0x00, dst := kCode kd }
def fldMwait (ka : Nat) : Fields := { Fields.zero with form := .b, maj := 0x22, fn := 0x01, sa := kCode ka }
def fldMstat (kd : Nat) (ka : Option Nat) : Fields := { Fields.zero with form := .b, maj := 0x22, fn := 0x02, dst := kCode kd, sa := kCodeZ ka }
def fldSgen (zd : Nat) (a : VSrc) (cls : Nat) : Fields := { Fields.zero with form := .s, maj := 0x28, fn := 0x00, dst := zd, sa := a.code, ext := cls }
def fldSgenb (zd : Nat) (a : VSrc) (cls : Nat) : Fields := { Fields.zero with form := .s, maj := 0x28, fn := 0x01, dst := zd, sa := a.code, ext := cls }
def fldSregen (zd : Nat) (za : Nat) (cls : Nat) : Fields := { Fields.zero with form := .s, maj := 0x28, fn := 0x02, dst := zd, sa := za, ext := cls }
def fldSseed (ka : Nat) (cls : Nat) : Fields := { Fields.zero with form := .s, maj := 0x28, fn := 0x03, sa := kCode ka, ext := cls }
def fldSlen (imm : W32) : Fields := { Fields.zero with form := .i, maj := 0x28, fn := 0x04, imm := imm.toNat }
def fldSrnd (msk : Nat) (d : VDst) (cls : Nat) : Fields := { Fields.zero with form := .b, maj := 0x28, fn := 0x05, msk := msk, dst := d.code, sa := cls }
def fldSand (zd : Nat) (za : Nat) (zb : Nat) : Fields := { Fields.zero with form := .b, maj := 0x29, fn := 0x00, dst := zd, sa := za, sb := zb }
def fldSor (zd : Nat) (za : Nat) (zb : Nat) : Fields := { Fields.zero with form := .b, maj := 0x29, fn := 0x01, dst := zd, sa := za, sb := zb }
def fldSxor (zd : Nat) (za : Nat) (zb : Nat) : Fields := { Fields.zero with form := .b, maj := 0x29, fn := 0x02, dst := zd, sa := za, sb := zb }
def fldSxnor (zd : Nat) (za : Nat) (zb : Nat) : Fields := { Fields.zero with form := .b, maj := 0x29, fn := 0x03, dst := zd, sa := za, sb := zb }
def fldSnot (zd : Nat) (za : Nat) : Fields := { Fields.zero with form := .b, maj := 0x29, fn := 0x04, dst := zd, sa := za }
def fldSmux (zd : Nat) (za : Nat) (zb : Nat) (zs : Nat) : Fields := { Fields.zero with form := .s, maj := 0x29, fn := 0x05, dst := zd, sa := za, sb := zb, sc := zs }
def fldSmin (zd : Nat) (za : Nat) (zb : Nat) : Fields := { Fields.zero with form := .b, maj := 0x29, fn := 0x06, dst := zd, sa := za, sb := zb }
def fldSmax (zd : Nat) (za : Nat) (zb : Nat) : Fields := { Fields.zero with form := .b, maj := 0x29, fn := 0x07, dst := zd, sa := za, sb := zb }
def fldSdep (kd : Nat) (za : Nat) (zb : Nat) : Fields := { Fields.zero with form := .b, maj := 0x29, fn := 0x08, dst := kCode kd, sa := za, sb := zb }
def fldScnt (msk : Nat) (d : VDst) (za : Nat) (out : Nat) : Fields := { Fields.zero with form := .s, maj := 0x2A, fn := 0x00, msk := msk, dst := d.code, sa := za, ext := out }
def fldScnta (msk : Nat) (d : VDst) (za : Nat) : Fields := { Fields.zero with form := .s, maj := 0x2A, fn := 0x01, msk := msk, dst := d.code, sa := za }
def fldWlcfg (ka : Option Nat) : Fields := { Fields.zero with form := .b, maj := 0x2C, fn := 0x00, sa := kCodeZ ka }
def fldWlpush (msk : Nat) (n64 : Bool) (a : VSrc) (b : VSrc) : Fields := { Fields.zero with form := .b, maj := 0x2C, fn := 0x01, msk := msk, ty := (if n64 then Ty.n64 else Ty.n32).code, sa := a.code, sb := b.code }
def fldWlpop (msk : Nat) (n64 : Bool) (d : VDst) (md : Nat) (wait : Bool) : Fields := { Fields.zero with form := .b, maj := 0x2C, fn := 0x02, msk := msk, ty := (if n64 then Ty.n64 else Ty.n32).code, dst := d.code, sa := md, sb := wait.toNat }
def fldWlret (msk : Nat) (b : VSrc) : Fields := { Fields.zero with form := .b, maj := 0x2C, fn := 0x03, msk := msk, sa := b.code }
def fldWlfloor (kd : Nat) : Fields := { Fields.zero with form := .b, maj := 0x2C, fn := 0x04, dst := kCode kd }
def fldWldone (kd : Nat) : Fields := { Fields.zero with form := .b, maj := 0x2C, fn := 0x05, dst := kCode kd }
def fldWlstat (kd : Nat) (sel : Nat) : Fields := { Fields.zero with form := .b, maj := 0x2C, fn := 0x06, dst := kCode kd, sa := sel }
def fldLblrd (kd : Nat) (ka : Nat) : Fields := { Fields.zero with form := .b, maj := 0x2D, fn := 0x00, dst := kCode kd, sa := kCode ka }
def fldLblset (kd : Nat) (ka : Nat) (lbl : Nat) : Fields := { Fields.zero with form := .b, maj := 0x2D, fn := 0x01, dst := kCode kd, sa := kCode ka, sb := lbl }
def fldLbllock (kd : Nat) (ka : Nat) : Fields := { Fields.zero with form := .b, maj := 0x2D, fn := 0x02, dst := kCode kd, sa := kCode ka }
def fldLblunl (kd : Nat) (ka : Nat) : Fields := { Fields.zero with form := .b, maj := 0x2D, fn := 0x03, dst := kCode kd, sa := kCode ka }
def fldLblhist (kd : Nat) (ka : Nat) : Fields := { Fields.zero with form := .b, maj := 0x2D, fn := 0x04, dst := kCode kd, sa := kCode ka }

/-- The fields of an instruction (R323 and the encoding table of its chapter); an event has none. -/
def instrFields : Instr → Option Fields
  | .moduleReset => none
  | .powerLoss => none
  | .dieLoss _ => none
  | .dieReset _ _ => none
  | .clockThrottle => none
  | .clockRestore => none
  | .healthUpdate _ _ _ => none
  | .healthSnapshot => none
  | .hbmErrorWindow _ => none
  | .flitReceive _ _ => none
  | .portDown _ => none
  | .portRetrain _ => none
  | .spanMgtMessage _ => none
  | .ubyozoErrcntRead _ _ => none
  | .hostLinkDown _ => none
  | .hostLinkUp _ => none
  | .msemAcquire _ _ => none
  | .msemRelease _ => none
  | .msemLeaseWrite _ _ => none
  | .msemLeaseExpiry => none
  | .msemExpdClear _ => none
  | .mgmtErrorClear _ => none
  | .policyWrite _ _ _ => none
  | .partitionWrite _ _ _ => none
  | .tenantReset _ => none
  | .registerWrite _ _ _ _ => none
  | .cmpstatRead _ _ => none
  | .queueStart _ _ _ => none
  | .queueStop _ _ _ => none
  | .queueReset _ _ _ => none
  | .ctsync _ _ => none
  | .ctsyncComplete => none
  | .shoot _ _ => none
  | .shootComplete _ => none
  | .preempt _ _ => none
  | .release _ _ => none
  | .queueBlockServe _ => none
  | .queueSerResume _ => none
  | .queueWaitRecheck _ => none
  | .queueNextRecheck _ => none
  | .queueCompletionWrite _ => none
  | .queueEngineNak _ _ => none
  | .contextCreate _ _ _ _ => none
  | .contextDestroy _ _ _ => none
  | .fqReplay _ _ _ => none
  | .fqKill _ _ _ => none
  | .fqHeadWrite _ _ _ => none
  | .faultBatchPost _ => none
  | .runAheadEnd _ => none
  | .trapDeliver _ _ => none
  | .boundaryTrap _ => none
  | .dieHalt _ _ => none
  | .dieHaltClear _ _ => none
  | .watchdogExpiry _ => none
  | .heatHalve _ => none
  | .heatHalveDone => none
  | .firmwareUpdate _ _ => none
  | .spdmRequest _ => none
  | .rds _ => none
  | .rdx _ => none
  | .upg _ => none
  | .evc _ => none
  | .wbd _ => none
  | .updateWrite _ => none
  | .updateCommit _ => none
  | .uncachedRead _ => none
  | .uncachedWrite _ => none
  | .bdReductionElement _ => none
  | .fwds _ => none
  | .fwdx _ => none
  | .inv _ => none
  | .upd _ => none
  | .binv _ => none
  | .ack _ => none
  | .cfl _ => none
  | .nak _ => none
  | .data _ => none
  | .commitAck _ => none
  | .wback _ => none
  | .l1Evict _ _ => none
  | .bounceDelayExpiry _ _ => none
  | .bounceReset _ _ => none
  | .hostSnoop _ _ => none
  | .hostAccess _ => none
  | .lrd _ => none
  | .lset _ => none
  | .llock _ => none
  | .lunl _ => none
  | .lhist _ => none
  | .windowClose _ => none
  | .switchingComplete _ => none
  | .regionEntryEvict _ => none
  | .compReadMiss _ => none
  | .compWriteback _ => none
  | .compWritebackRetry _ => none
  | .blockPlace _ => none
  | .sliceExpiry _ => none
  | .haltComplete _ => none
  | .blockResume _ => none
  | .granuleFill _ _ => none
  | .blockRetire _ => none
  | .yieldExpiry _ => none
  | .xacqGrant _ => none
  | .accessReturn _ => none
  | .stackFill _ => none
  | .copyCommandComplete _ => none
  | .bdPieceApply _ _ => none
  | .bdCommandComplete _ => none
  | .teamMmatStart _ _ => none
  | .matrixOpComplete _ => none
  | .matrixBatchComplete _ => none
  | .streamWindowRun _ => none
  | .floorRoundStart _ => none
  | .floorRoundAnnounce _ _ => none
  | .lowerReceive _ _ _ _ => none
  | .lowerAckComplete _ _ => none
  | .stealRequest _ _ => none
  | .stealConfirm _ _ => none
  | .terminationWave _ => none
  | .shardHandover _ => none
  | .shardUnreachableTimeout _ _ => none
  | .padWordSkip _ => none
  | .illegalWord _ => none
  | .fetchFault _ => none
  | .ackWithGrant _ => none
  | .labelCommandResult _ => none
  | .padSliceAccess _ _ => none
  | .clusterSlabAccess _ => none
  | .nop => some (fldNop)
  | .bra c neg off => some (fldBra c neg off)
  | .brd c neg tgt rpc => some (fldBrd c neg tgt rpc)
  | .brx a => some (fldBrx a)
  | .call nw kd off => some (fldCall nw kd off)
  | .ret ka => some (fldRet ka)
  | .exit => some (fldExit)
  | .yield => some (fldYield)
  | .trap imm => some (fldTrap imm)
  | .tret => some (fldTret)
  | .launch nw kd ka => some (fldLaunch nw kd ka)
  | .spawn nw kd ka arg => some (fldSpawn nw kd ka arg)
  | .lwait nw kd ka => some (fldLwait nw kd ka)
  | .bar n cnt => some (fldBar n cnt)
  | .arrive nw kd n cnt => some (fldArrive nw kd n cnt)
  | .await n kp => some (fldAwait n kp)
  | .cbar n cnt rank file => some (fldCbar n cnt rank file)
  | .xacq n => some (fldXacq n)
  | .xrel => some (fldXrel)
  | .rgive n => some (fldRgive n)
  | .rclaim nw kd n => some (fldRclaim nw kd n)
  | .rolesw n => some (fldRolesw n)
  | .setfmt ka => some (fldSetfmt ka)
  | .setfmtImm imm => some (fldSetfmtImm imm)
  | .getfmt nw kd => some (fldGetfmt nw kd)
  | .crd nw kd c => some (fldCrd nw kd c)
  | .cwr c ka => some (fldCwr c ka)
  | .clock nw kd => some (fldClock nw kd)
  | .kmov h kd ka => some (fldKmov h kd ka)
  | .kadd h kd ka kb => some (fldKadd h kd ka kb)
  | .ksub h kd ka kb => some (fldKsub h kd ka kb)
  | .kmul h kd ka kb => some (fldKmul h kd ka kb)
  | .kaddImm h kd ka imm => some (fldKaddImm h kd ka imm)
  | .ksubImm h kd ka imm => some (fldKsubImm h kd ka imm)
  | .kmulImm h kd ka imm => some (fldKmulImm h kd ka imm)
  | .kmad h kd ka kb kc => some (fldKmad h kd ka kb kc)
  | .kmadImm h kd ka imm kc => some (fldKmadImm h kd ka imm kc)
  | .kand h kd ka kb => some (fldKand h kd ka kb)
  | .kor h kd ka kb => some (fldKor h kd ka kb)
  | .kxor h kd ka kb => some (fldKxor h kd ka kb)
  | .kshl h kd ka kb => some (fldKshl h kd ka kb)
  | .kshr h kd ka kb => some (fldKshr h kd ka kb)
  | .ksra h kd ka kb => some (fldKsra h kd ka kb)
  | .kandImm h kd ka imm => some (fldKandImm h kd ka imm)
  | .korImm h kd ka imm => some (fldKorImm h kd ka imm)
  | .kxorImm h kd ka imm => some (fldKxorImm h kd ka imm)
  | .kshlImm h kd ka imm => some (fldKshlImm h kd ka imm)
  | .kshrImm h kd ka imm => some (fldKshrImm h kd ka imm)
  | .ksraImm h kd ka imm => some (fldKsraImm h kd ka imm)
  | .kmin h kd ka kb => some (fldKmin h kd ka kb)
  | .kmax h kd ka kb => some (fldKmax h kd ka kb)
  | .kminImm h kd ka imm => some (fldKminImm h kd ka imm)
  | .kmaxImm h kd ka imm => some (fldKmaxImm h kd ka imm)
  | .kcmp h kd ka kb => some (fldKcmp h kd ka kb)
  | .kcmpImm h kd ka imm => some (fldKcmpImm h kd ka imm)
  | .ksel h kd ka kb kc => some (fldKsel h kd ka kb kc)
  | .klea h kd ka kb sh disp => some (fldKlea h kd ka kb sh disp)
  | .kpopc h kd ka => some (fldKpopc h kd ka)
  | .kclz h kd ka => some (fldKclz h kd ka)
  | .kli h kd imm => some (fldKli h kd imm)
  | .kli64 h kd imm => some (fldKli64 h kd imm)
  | .kfromv h kd va sel => some (fldKfromv h kd va sel)
  | .add h d a b => some (fldAdd h d a b)
  | .addImm h d a imm => some (fldAddImm h d a imm)
  | .addc h d a b cin cout => some (fldAddc h d a b cin cout)
  | .sub h d a b => some (fldSub h d a b)
  | .mul h d a b => some (fldMul h d a b)
  | .subImm h d a imm => some (fldSubImm h d a imm)
  | .mulImm h d a imm => some (fldMulImm h d a imm)
  | .mulh h d a b => some (fldMulh h d a b)
  | .mulhImm h d a imm => some (fldMulhImm h d a imm)
  | .mad h d a b c => some (fldMad h d a b c)
  | .madImm h d a imm c => some (fldMadImm h d a imm c)
  | .abs h d a => some (fldAbs h d a)
  | .and h d a b => some (fldAnd h d a b)
  | .or h d a b => some (fldOr h d a b)
  | .xor h d a b => some (fldXor h d a b)
  | .andImm h d a imm => some (fldAndImm h d a imm)
  | .orImm h d a imm => some (fldOrImm h d a imm)
  | .xorImm h d a imm => some (fldXorImm h d a imm)
  | .lop3 h d a b c tbl => some (fldLop3 h d a b c tbl)
  | .shl h d a b => some (fldShl h d a b)
  | .shr h d a b => some (fldShr h d a b)
  | .sra h d a b => some (fldSra h d a b)
  | .shlImm h d a imm => some (fldShlImm h d a imm)
  | .shrImm h d a imm => some (fldShrImm h d a imm)
  | .sraImm h d a imm => some (fldSraImm h d a imm)
  | .min h d a b => some (fldMin h d a b)
  | .max h d a b => some (fldMax h d a b)
  | .minImm h d a imm => some (fldMinImm h d a imm)
  | .maxImm h d a imm => some (fldMaxImm h d a imm)
  | .cmp h md a b => some (fldCmp h md a b)
  | .cmpImm h md a imm => some (fldCmpImm h md a imm)
  | .sel h d a b mc => some (fldSel h d a b mc)
  | .mov h d a => some (fldMov h d a)
  | .movImm h d imm => some (fldMovImm h d imm)
  | .movk h d kv kl => some (fldMovk h d kv kl)
  | .popc h d a => some (fldPopc h d a)
  | .clz h d a => some (fldClz h d a)
  | .brev h d a => some (fldBrev h d a)
  | .bfe h d a b => some (fldBfe h d a b)
  | .bfeImm h d a imm => some (fldBfeImm h d a imm)
  | .bfi h d a b c => some (fldBfi h d a b c)
  | .bfiImm h d a imm c => some (fldBfiImm h d a imm c)
  | .fadd h d a b => some (fldFadd h d a b)
  | .fsub h d a b => some (fldFsub h d a b)
  | .fmul h d a b => some (fldFmul h d a b)
  | .faddImm h d a imm => some (fldFaddImm h d a imm)
  | .fsubImm h d a imm => some (fldFsubImm h d a imm)
  | .fmulImm h d a imm => some (fldFmulImm h d a imm)
  | .fma h d a b c => some (fldFma h d a b c)
  | .fmaImm h d a imm c => some (fldFmaImm h d a imm c)
  | .fmin h d a b => some (fldFmin h d a b)
  | .fmax h d a b => some (fldFmax h d a b)
  | .fminImm h d a imm => some (fldFminImm h d a imm)
  | .fmaxImm h d a imm => some (fldFmaxImm h d a imm)
  | .fcmp h md a b => some (fldFcmp h md a b)
  | .fcmpImm h md a imm => some (fldFcmpImm h md a imm)
  | .fclass h d a => some (fldFclass h d a)
  | .fscale h d a b => some (fldFscale h d a b)
  | .fscaleImm h d a imm => some (fldFscaleImm h d a imm)
  | .frnd h d a => some (fldFrnd h d a)
  | .frcp h d a => some (fldFrcp h d a)
  | .fsqrt h d a => some (fldFsqrt h d a)
  | .frsq h d a => some (fldFrsq h d a)
  | .fexp2 h d a => some (fldFexp2 h d a)
  | .flog2 h d a => some (fldFlog2 h d a)
  | .cvt h d a src elem => some (fldCvt h d a src elem)
  | .lpack h d va src => some (fldLpack h d va src)
  | .lunpk h d va => some (fldLunpk h d va)
  | .shfl h d a b => some (fldShfl h d a b)
  | .shflImm h d a imm => some (fldShflImm h d a imm)
  | .bcast h d a kl => some (fldBcast h d a kl)
  | .bcastImm h d a imm => some (fldBcastImm h d a imm)
  | .compress h d a b vm slot => some (fldCompress h d a b vm slot)
  | .expand h d a vm slot => some (fldExpand h d a vm slot)
  | .redadd h d a => some (fldRedadd h d a)
  | .redmin h d a => some (fldRedmin h d a)
  | .redmax h d a => some (fldRedmax h d a)
  | .redand h d a => some (fldRedand h d a)
  | .redor h d a => some (fldRedor h d a)
  | .redxor h d a => some (fldRedxor h d a)
  | .scan h d a => some (fldScan h d a)
  | .redminIndex h d di a b => some (fldRedminIndex h d di a b)
  | .redmaxIndex h d di a b => some (fldRedmaxIndex h d di a b)
  | .ballot h kd a => some (fldBallot h kd a)
  | .vany h kd a => some (fldVany h kd a)
  | .vall h kd a => some (fldVall h kd a)
  | .elect h md ms => some (fldElect h md ms)
  | .mcnt h kd ms => some (fldMcnt h kd ms)
  | .mlog h md ma mb => some (fldMlog h md ma mb)
  | .ldg h d ad scope => some (fldLdg h d ad scope)
  | .stg h ad b scope => some (fldStg h ad b scope)
  | .pref h ad => some (fldPref h ad)
  | .lds h d ad => some (fldLds h d ad)
  | .sts h ad b => some (fldSts h ad b)
  | .ldc h d off disp rank file scope => some (fldLdc h d off disp rank file scope)
  | .stc h off disp rank file b scope => some (fldStc h off disp rank file b scope)
  | .ldd h d ad scope => some (fldLdd h d ad scope)
  | .std h ad b scope => some (fldStd h ad b scope)
  | .ldl h d ad => some (fldLdl h d ad)
  | .stl h ad b => some (fldStl h ad b)
  | .atom h d ad b aop scope => some (fldAtom h d ad b aop scope)
  | .atomc h d ad b c scope => some (fldAtomc h d ad b c scope)
  | .red h ad b aop scope => some (fldRed h ad b aop scope)
  | .atoms h ad b scope => some (fldAtoms h ad b scope)
  | .fence sc p q scope => some (fldFence sc p q scope)
  | .ofence => some (fldOfence)
  | .waitp p kn => some (fldWaitp p kn)
  | .cflush h ad => some (fldCflush h ad)
  | .cinv h ad => some (fldCinv h ad)
  | .tcopy nw d krec => some (fldTcopy nw d krec)
  | .tstore krec vs => some (fldTstore krec vs)
  | .tfill krec kval => some (fldTfill krec kval)
  | .bdgather kd ka kl kc rsz iw => some (fldBdgather kd ka kl kc rsz iw)
  | .bdscat kd ka kl kc rsz iw => some (fldBdscat kd ka kl kc rsz iw)
  | .bdred ty kd ka kl kc rsz iw rop => some (fldBdred ty kd ka kl kc rsz iw rop)
  | .bdconv ty src kd ka kc => some (fldBdconv ty src kd ka kc)
  | .accwin kg kb kl => some (fldAccwin kg kb kl)
  | .accz r c => some (fldAccz r c)
  | .accld r krec => some (fldAccld r krec)
  | .accst krec r => some (fldAccst krec r)
  | .accout h d r c => some (fldAccout h d r c)
  | .mma r a b sc => some (fldMma r a b sc)
  | .mmat r a b sc => some (fldMmat r a b sc)
  | .mmas r a b sc => some (fldMmas r a b sc)
  | .mfence kd => some (fldMfence kd)
  | .mwait ka => some (fldMwait ka)
  | .mstat kd ka => some (fldMstat kd ka)
  | .sgen zd a cls => some (fldSgen zd a cls)
  | .sgenb zd a cls => some (fldSgenb zd a cls)
  | .sregen zd za cls => some (fldSregen zd za cls)
  | .sseed ka cls => some (fldSseed ka cls)
  | .slen imm => some (fldSlen imm)
  | .srnd msk d cls => some (fldSrnd msk d cls)
  | .sand zd za zb => some (fldSand zd za zb)
  | .sor zd za zb => some (fldSor zd za zb)
  | .sxor zd za zb => some (fldSxor zd za zb)
  | .sxnor zd za zb => some (fldSxnor zd za zb)
  | .snot zd za => some (fldSnot zd za)
  | .smux zd za zb zs => some (fldSmux zd za zb zs)
  | .smin zd za zb => some (fldSmin zd za zb)
  | .smax zd za zb => some (fldSmax zd za zb)
  | .sdep kd za zb => some (fldSdep kd za zb)
  | .scnt msk d za out => some (fldScnt msk d za out)
  | .scnta msk d za => some (fldScnta msk d za)
  | .wlcfg ka => some (fldWlcfg ka)
  | .wlpush msk n64 a b => some (fldWlpush msk n64 a b)
  | .wlpop msk n64 d md wait => some (fldWlpop msk n64 d md wait)
  | .wlret msk b => some (fldWlret msk b)
  | .wlfloor kd => some (fldWlfloor kd)
  | .wldone kd => some (fldWldone kd)
  | .wlstat kd sel => some (fldWlstat kd sel)
  | .lblrd kd ka => some (fldLblrd kd ka)
  | .lblset kd ka lbl => some (fldLblset kd ka lbl)
  | .lbllock kd ka => some (fldLbllock kd ka)
  | .lblunl kd ka => some (fldLblunl kd ka)
  | .lblhist kd ka => some (fldLblhist kd ka)

/-! ## Decoding (noncomputable only because compiled code cannot build the constructors past the 245th; the kernel can) -/

noncomputable section

/-- A row of the function tables (R323): MAJ, FN, form, and how its operands are read. -/
structure Row where
  maj : Nat
  fn : Nat
  form : Form
  parse : Fields → Except DecodeError Instr

/-- MAJ 0x00 to 0x04. -/
def rowsControl : List Row := [
  ⟨0x00, 0x00, .b, fun _ => pure .nop⟩,
  ⟨0x00, 0x01, .i, fun f => do let c := f.sa; let neg ← boolOf f.sb; let off := BitVec.ofNat 32 f.imm; pure (.bra c neg off)⟩,
  ⟨0x00, 0x02, .ii, fun f => do let c := f.sa; let neg ← boolOf f.sb; let tgt := BitVec.ofNat 32 f.imm; let rpc := BitVec.ofNat 32 f.immB; pure (.brd c neg tgt rpc)⟩,
  ⟨0x00, 0x03, .b, fun f => do let a ← VSrc.ofCode f.sa; pure (.brx a)⟩,
  ⟨0x00, 0x04, .i, fun f => do let nw := f.nw = 1; let kd ← kOf f.dst; let off := BitVec.ofNat 32 f.imm; pure (.call nw kd off)⟩,
  ⟨0x00, 0x05, .b, fun f => do let ka ← kOf f.sa; pure (.ret ka)⟩,
  ⟨0x00, 0x06, .b, fun _ => pure .exit⟩,
  ⟨0x00, 0x07, .b, fun _ => pure .yield⟩,
  ⟨0x00, 0x08, .i, fun f => do let imm := BitVec.ofNat 32 f.imm; pure (.trap imm)⟩,
  ⟨0x00, 0x09, .b, fun _ => pure .tret⟩,
  ⟨0x01, 0x00, .b, fun f => do let nw := f.nw = 1; let kd ← kOf f.dst; let ka ← kOf f.sa; pure (.launch nw kd ka)⟩,
  ⟨0x01, 0x01, .b, fun f => do let nw := f.nw = 1; let kd ← kOf f.dst; let ka ← kOf f.sa; let arg ← kOf0 f.sb; pure (.spawn nw kd ka arg)⟩,
  ⟨0x01, 0x02, .b, fun f => do let nw := f.nw = 1; let kd ← kOf f.dst; let ka ← kOf f.sa; pure (.lwait nw kd ka)⟩,
  ⟨0x02, 0x00, .b, fun f => do let n := f.sa; let cnt ← kOf0 f.sb; pure (.bar n cnt)⟩,
  ⟨0x02, 0x01, .b, fun f => do let nw := f.nw = 1; let kd ← kOf f.dst; let n := f.sa; let cnt ← kOf0 f.sb; pure (.arrive nw kd n cnt)⟩,
  ⟨0x02, 0x02, .b, fun f => do let n := f.sa; let kp ← kOf f.sb; pure (.await n kp)⟩,
  ⟨0x02, 0x03, .s, fun f => do let n := f.sa; let cnt ← kOf0 f.sb; let rank := bits f.ext 3 0; let file := bits f.ext 7 4; pure (.cbar n cnt rank file)⟩,
  ⟨0x03, 0x00, .i, fun f => do let n := f.imm; pure (.xacq n)⟩,
  ⟨0x03, 0x01, .b, fun _ => pure .xrel⟩,
  ⟨0x03, 0x02, .i, fun f => do let n := f.imm; pure (.rgive n)⟩,
  ⟨0x03, 0x03, .i, fun f => do let nw := f.nw = 1; let kd ← kOf f.dst; let n := f.imm; pure (.rclaim nw kd n)⟩,
  ⟨0x03, 0x04, .i, fun f => do let n := f.imm; pure (.rolesw n)⟩,
  ⟨0x04, 0x00, .b, fun f => do let ka ← kOf f.sa; pure (.setfmt ka)⟩,
  ⟨0x04, 0x20, .i, fun f => do let imm := BitVec.ofNat 32 f.imm; pure (.setfmtImm imm)⟩,
  ⟨0x04, 0x01, .b, fun f => do let nw := f.nw = 1; let kd ← kOf f.dst; pure (.getfmt nw kd)⟩,
  ⟨0x04, 0x02, .b, fun f => do let nw := f.nw = 1; let kd ← kOf f.dst; let c := f.sa; pure (.crd nw kd c)⟩,
  ⟨0x04, 0x03, .b, fun f => do let c := f.dst; let ka ← kOf f.sa; pure (.cwr c ka)⟩,
  ⟨0x04, 0x04, .b, fun f => do let nw := f.nw = 1; let kd ← kOf f.dst; pure (.clock nw kd)⟩]

/-- MAJ 0x05 to 0x07. -/
def rowsUniform : List Row := [
  ⟨0x05, 0x00, .b, fun f => do let h ← f.hdr; let kd ← kOf f.dst; let ka ← kOf f.sa; pure (.kmov h kd ka)⟩,
  ⟨0x05, 0x01, .b, fun f => do let h ← f.hdr; let kd ← kOf f.dst; let ka ← kOf f.sa; let kb ← kOf f.sb; pure (.kadd h kd ka kb)⟩,
  ⟨0x05, 0x02, .b, fun f => do let h ← f.hdr; let kd ← kOf f.dst; let ka ← kOf f.sa; let kb ← kOf f.sb; pure (.ksub h kd ka kb)⟩,
  ⟨0x05, 0x03, .b, fun f => do let h ← f.hdr; let kd ← kOf f.dst; let ka ← kOf f.sa; let kb ← kOf f.sb; pure (.kmul h kd ka kb)⟩,
  ⟨0x05, 0x21, .i, fun f => do let h ← f.hdr; let kd ← kOf f.dst; let ka ← kOf f.sa; let imm := BitVec.ofNat 32 f.imm; pure (.kaddImm h kd ka imm)⟩,
  ⟨0x05, 0x22, .i, fun f => do let h ← f.hdr; let kd ← kOf f.dst; let ka ← kOf f.sa; let imm := BitVec.ofNat 32 f.imm; pure (.ksubImm h kd ka imm)⟩,
  ⟨0x05, 0x23, .i, fun f => do let h ← f.hdr; let kd ← kOf f.dst; let ka ← kOf f.sa; let imm := BitVec.ofNat 32 f.imm; pure (.kmulImm h kd ka imm)⟩,
  ⟨0x05, 0x04, .s, fun f => do let h ← f.hdr; let kd ← kOf f.dst; let ka ← kOf f.sa; let kb ← kOf f.sb; let kc ← kOf f.sc; pure (.kmad h kd ka kb kc)⟩,
  ⟨0x05, 0x24, .si, fun f => do let h ← f.hdr; let kd ← kOf f.dst; let ka ← kOf f.sa; let imm := BitVec.ofNat 32 f.immB; let kc ← kOf f.sc; pure (.kmadImm h kd ka imm kc)⟩,
  ⟨0x05, 0x05, .b, fun f => do let h ← f.hdr; let kd ← kOf f.dst; let ka ← kOf f.sa; let kb ← kOf f.sb; pure (.kand h kd ka kb)⟩,
  ⟨0x05, 0x06, .b, fun f => do let h ← f.hdr; let kd ← kOf f.dst; let ka ← kOf f.sa; let kb ← kOf f.sb; pure (.kor h kd ka kb)⟩,
  ⟨0x05, 0x07, .b, fun f => do let h ← f.hdr; let kd ← kOf f.dst; let ka ← kOf f.sa; let kb ← kOf f.sb; pure (.kxor h kd ka kb)⟩,
  ⟨0x05, 0x08, .b, fun f => do let h ← f.hdr; let kd ← kOf f.dst; let ka ← kOf f.sa; let kb ← kOf f.sb; pure (.kshl h kd ka kb)⟩,
  ⟨0x05, 0x09, .b, fun f => do let h ← f.hdr; let kd ← kOf f.dst; let ka ← kOf f.sa; let kb ← kOf f.sb; pure (.kshr h kd ka kb)⟩,
  ⟨0x05, 0x0A, .b, fun f => do let h ← f.hdr; let kd ← kOf f.dst; let ka ← kOf f.sa; let kb ← kOf f.sb; pure (.ksra h kd ka kb)⟩,
  ⟨0x05, 0x25, .i, fun f => do let h ← f.hdr; let kd ← kOf f.dst; let ka ← kOf f.sa; let imm := BitVec.ofNat 32 f.imm; pure (.kandImm h kd ka imm)⟩,
  ⟨0x05, 0x26, .i, fun f => do let h ← f.hdr; let kd ← kOf f.dst; let ka ← kOf f.sa; let imm := BitVec.ofNat 32 f.imm; pure (.korImm h kd ka imm)⟩,
  ⟨0x05, 0x27, .i, fun f => do let h ← f.hdr; let kd ← kOf f.dst; let ka ← kOf f.sa; let imm := BitVec.ofNat 32 f.imm; pure (.kxorImm h kd ka imm)⟩,
  ⟨0x05, 0x28, .i, fun f => do let h ← f.hdr; let kd ← kOf f.dst; let ka ← kOf f.sa; let imm := BitVec.ofNat 32 f.imm; pure (.kshlImm h kd ka imm)⟩,
  ⟨0x05, 0x29, .i, fun f => do let h ← f.hdr; let kd ← kOf f.dst; let ka ← kOf f.sa; let imm := BitVec.ofNat 32 f.imm; pure (.kshrImm h kd ka imm)⟩,
  ⟨0x05, 0x2A, .i, fun f => do let h ← f.hdr; let kd ← kOf f.dst; let ka ← kOf f.sa; let imm := BitVec.ofNat 32 f.imm; pure (.ksraImm h kd ka imm)⟩,
  ⟨0x05, 0x0B, .b, fun f => do let h ← f.hdr; let kd ← kOf f.dst; let ka ← kOf f.sa; let kb ← kOf f.sb; pure (.kmin h kd ka kb)⟩,
  ⟨0x05, 0x0C, .b, fun f => do let h ← f.hdr; let kd ← kOf f.dst; let ka ← kOf f.sa; let kb ← kOf f.sb; pure (.kmax h kd ka kb)⟩,
  ⟨0x05, 0x2B, .i, fun f => do let h ← f.hdr; let kd ← kOf f.dst; let ka ← kOf f.sa; let imm := BitVec.ofNat 32 f.imm; pure (.kminImm h kd ka imm)⟩,
  ⟨0x05, 0x2C, .i, fun f => do let h ← f.hdr; let kd ← kOf f.dst; let ka ← kOf f.sa; let imm := BitVec.ofNat 32 f.imm; pure (.kmaxImm h kd ka imm)⟩,
  ⟨0x05, 0x0D, .b, fun f => do let h ← f.hdr; let kd ← kOf f.dst; let ka ← kOf f.sa; let kb ← kOf f.sb; pure (.kcmp h kd ka kb)⟩,
  ⟨0x05, 0x2D, .i, fun f => do let h ← f.hdr; let kd ← kOf f.dst; let ka ← kOf f.sa; let imm := BitVec.ofNat 32 f.imm; pure (.kcmpImm h kd ka imm)⟩,
  ⟨0x05, 0x0E, .s, fun f => do let h ← f.hdr; let kd ← kOf f.dst; let ka ← kOf f.sa; let kb ← kOf f.sb; let kc ← kOf f.sc; pure (.ksel h kd ka kb kc)⟩,
  ⟨0x05, 0x0F, .s, fun f => do let h ← f.hdr; let kd ← kOf f.dst; let ka ← kOf f.sa; let kb ← kOf f.sb; let sh := bits f.ext 2 0; let disp := bits f.ext 20 3; pure (.klea h kd ka kb sh disp)⟩,
  ⟨0x05, 0x10, .b, fun f => do let h ← f.hdr; let kd ← kOf f.dst; let ka ← kOf f.sa; pure (.kpopc h kd ka)⟩,
  ⟨0x05, 0x11, .b, fun f => do let h ← f.hdr; let kd ← kOf f.dst; let ka ← kOf f.sa; pure (.kclz h kd ka)⟩,
  ⟨0x06, 0x00, .i, fun f => do let h ← f.hdr; let kd ← kOf f.dst; let imm := BitVec.ofNat 32 f.imm; pure (.kli h kd imm)⟩,
  ⟨0x06, 0x01, .q, fun f => do let h ← f.hdr; let kd ← kOf f.dst; let imm := BitVec.ofNat 64 f.imm; pure (.kli64 h kd imm)⟩,
  ⟨0x07, 0x00, .s, fun f => do let h ← f.hdr; let kd ← kOf f.dst; let va := f.sa; let sel ← laneSelOf f.sb f.ext; pure (.kfromv h kd va sel)⟩]

/-- MAJ 0x08 to 0x0B. -/
def rowsVector : List Row := [
  ⟨0x08, 0x00, .b, fun f => do let h ← f.hdr; let d ← VDst.ofCode f.dst; let a ← VSrc.ofCode f.sa; let b ← VSrc.ofCode f.sb; pure (.add h d a b)⟩,
  ⟨0x08, 0x20, .i, fun f => do let h ← f.hdr; let d ← VDst.ofCode f.dst; let a ← VSrc.ofCode f.sa; let imm := BitVec.ofNat 32 f.imm; pure (.addImm h d a imm)⟩,
  ⟨0x08, 0x01, .s, fun f => do let h ← f.hdr; let d ← VDst.ofCode f.dst; let a ← VSrc.ofCode f.sa; let b ← VSrc.ofCode f.sb; let cin := f.sc; let cout := bits f.ext 3 0; pure (.addc h d a b cin cout)⟩,
  ⟨0x08, 0x02, .b, fun f => do let h ← f.hdr; let d ← VDst.ofCode f.dst; let a ← VSrc.ofCode f.sa; let b ← VSrc.ofCode f.sb; pure (.sub h d a b)⟩,
  ⟨0x08, 0x03, .b, fun f => do let h ← f.hdr; let d ← VDst.ofCode f.dst; let a ← VSrc.ofCode f.sa; let b ← VSrc.ofCode f.sb; pure (.mul h d a b)⟩,
  ⟨0x08, 0x22, .i, fun f => do let h ← f.hdr; let d ← VDst.ofCode f.dst; let a ← VSrc.ofCode f.sa; let imm := BitVec.ofNat 32 f.imm; pure (.subImm h d a imm)⟩,
  ⟨0x08, 0x23, .i, fun f => do let h ← f.hdr; let d ← VDst.ofCode f.dst; let a ← VSrc.ofCode f.sa; let imm := BitVec.ofNat 32 f.imm; pure (.mulImm h d a imm)⟩,
  ⟨0x08, 0x04, .b, fun f => do let h ← f.hdr; let d ← VDst.ofCode f.dst; let a ← VSrc.ofCode f.sa; let b ← VSrc.ofCode f.sb; pure (.mulh h d a b)⟩,
  ⟨0x08, 0x24, .i, fun f => do let h ← f.hdr; let d ← VDst.ofCode f.dst; let a ← VSrc.ofCode f.sa; let imm := BitVec.ofNat 32 f.imm; pure (.mulhImm h d a imm)⟩,
  ⟨0x08, 0x05, .s, fun f => do let h ← f.hdr; let d ← VDst.ofCode f.dst; let a ← VSrc.ofCode f.sa; let b ← VSrc.ofCode f.sb; let c ← VSrc.ofCode f.sc; pure (.mad h d a b c)⟩,
  ⟨0x08, 0x25, .si, fun f => do let h ← f.hdr; let d ← VDst.ofCode f.dst; let a ← VSrc.ofCode f.sa; let imm := BitVec.ofNat 32 f.immB; let c ← VSrc.ofCode f.sc; pure (.madImm h d a imm c)⟩,
  ⟨0x08, 0x06, .b, fun f => do let h ← f.hdr; let d ← VDst.ofCode f.dst; let a ← VSrc.ofCode f.sa; pure (.abs h d a)⟩,
  ⟨0x09, 0x00, .b, fun f => do let h ← f.hdr; let d ← VDst.ofCode f.dst; let a ← VSrc.ofCode f.sa; let b ← VSrc.ofCode f.sb; pure (.and h d a b)⟩,
  ⟨0x09, 0x01, .b, fun f => do let h ← f.hdr; let d ← VDst.ofCode f.dst; let a ← VSrc.ofCode f.sa; let b ← VSrc.ofCode f.sb; pure (.or h d a b)⟩,
  ⟨0x09, 0x02, .b, fun f => do let h ← f.hdr; let d ← VDst.ofCode f.dst; let a ← VSrc.ofCode f.sa; let b ← VSrc.ofCode f.sb; pure (.xor h d a b)⟩,
  ⟨0x09, 0x20, .i, fun f => do let h ← f.hdr; let d ← VDst.ofCode f.dst; let a ← VSrc.ofCode f.sa; let imm := BitVec.ofNat 32 f.imm; pure (.andImm h d a imm)⟩,
  ⟨0x09, 0x21, .i, fun f => do let h ← f.hdr; let d ← VDst.ofCode f.dst; let a ← VSrc.ofCode f.sa; let imm := BitVec.ofNat 32 f.imm; pure (.orImm h d a imm)⟩,
  ⟨0x09, 0x22, .i, fun f => do let h ← f.hdr; let d ← VDst.ofCode f.dst; let a ← VSrc.ofCode f.sa; let imm := BitVec.ofNat 32 f.imm; pure (.xorImm h d a imm)⟩,
  ⟨0x09, 0x03, .si, fun f => do let h ← f.hdr; let d ← VDst.ofCode f.dst; let a ← VSrc.ofCode f.sa; let b ← VSrc.ofCode f.sb; let c ← VSrc.ofCode f.sc; let tbl := BitVec.ofNat 8 f.immB; pure (.lop3 h d a b c tbl)⟩,
  ⟨0x09, 0x04, .b, fun f => do let h ← f.hdr; let d ← VDst.ofCode f.dst; let a ← VSrc.ofCode f.sa; let b ← VSrc.ofCode f.sb; pure (.shl h d a b)⟩,
  ⟨0x09, 0x05, .b, fun f => do let h ← f.hdr; let d ← VDst.ofCode f.dst; let a ← VSrc.ofCode f.sa; let b ← VSrc.ofCode f.sb; pure (.shr h d a b)⟩,
  ⟨0x09, 0x06, .b, fun f => do let h ← f.hdr; let d ← VDst.ofCode f.dst; let a ← VSrc.ofCode f.sa; let b ← VSrc.ofCode f.sb; pure (.sra h d a b)⟩,
  ⟨0x09, 0x24, .i, fun f => do let h ← f.hdr; let d ← VDst.ofCode f.dst; let a ← VSrc.ofCode f.sa; let imm := BitVec.ofNat 32 f.imm; pure (.shlImm h d a imm)⟩,
  ⟨0x09, 0x25, .i, fun f => do let h ← f.hdr; let d ← VDst.ofCode f.dst; let a ← VSrc.ofCode f.sa; let imm := BitVec.ofNat 32 f.imm; pure (.shrImm h d a imm)⟩,
  ⟨0x09, 0x26, .i, fun f => do let h ← f.hdr; let d ← VDst.ofCode f.dst; let a ← VSrc.ofCode f.sa; let imm := BitVec.ofNat 32 f.imm; pure (.sraImm h d a imm)⟩,
  ⟨0x0A, 0x00, .b, fun f => do let h ← f.hdr; let d ← VDst.ofCode f.dst; let a ← VSrc.ofCode f.sa; let b ← VSrc.ofCode f.sb; pure (.min h d a b)⟩,
  ⟨0x0A, 0x01, .b, fun f => do let h ← f.hdr; let d ← VDst.ofCode f.dst; let a ← VSrc.ofCode f.sa; let b ← VSrc.ofCode f.sb; pure (.max h d a b)⟩,
  ⟨0x0A, 0x20, .i, fun f => do let h ← f.hdr; let d ← VDst.ofCode f.dst; let a ← VSrc.ofCode f.sa; let imm := BitVec.ofNat 32 f.imm; pure (.minImm h d a imm)⟩,
  ⟨0x0A, 0x21, .i, fun f => do let h ← f.hdr; let d ← VDst.ofCode f.dst; let a ← VSrc.ofCode f.sa; let imm := BitVec.ofNat 32 f.imm; pure (.maxImm h d a imm)⟩,
  ⟨0x0A, 0x02, .b, fun f => do let h ← f.hdr; let md := f.dst; let a ← VSrc.ofCode f.sa; let b ← VSrc.ofCode f.sb; pure (.cmp h md a b)⟩,
  ⟨0x0A, 0x22, .i, fun f => do let h ← f.hdr; let md := f.dst; let a ← VSrc.ofCode f.sa; let imm := BitVec.ofNat 32 f.imm; pure (.cmpImm h md a imm)⟩,
  ⟨0x0A, 0x03, .s, fun f => do let h ← f.hdr; let d ← VDst.ofCode f.dst; let a ← VSrc.ofCode f.sa; let b ← VSrc.ofCode f.sb; let mc := f.sc; pure (.sel h d a b mc)⟩,
  ⟨0x0A, 0x04, .b, fun f => do let h ← f.hdr; let d ← VDst.ofCode f.dst; let a ← VSrc.ofCode f.sa; pure (.mov h d a)⟩,
  ⟨0x0A, 0x24, .i, fun f => do let h ← f.hdr; let d ← VDst.ofCode f.dst; let imm := BitVec.ofNat 32 f.imm; pure (.movImm h d imm)⟩,
  ⟨0x0A, 0x05, .b, fun f => do let h ← f.hdr; let d ← VDst.ofCode f.dst; let kv ← kOf f.sa; let kl ← kOf f.sb; pure (.movk h d kv kl)⟩,
  ⟨0x0B, 0x00, .b, fun f => do let h ← f.hdr; let d ← VDst.ofCode f.dst; let a ← VSrc.ofCode f.sa; pure (.popc h d a)⟩,
  ⟨0x0B, 0x01, .b, fun f => do let h ← f.hdr; let d ← VDst.ofCode f.dst; let a ← VSrc.ofCode f.sa; pure (.clz h d a)⟩,
  ⟨0x0B, 0x02, .b, fun f => do let h ← f.hdr; let d ← VDst.ofCode f.dst; let a ← VSrc.ofCode f.sa; pure (.brev h d a)⟩,
  ⟨0x0B, 0x03, .b, fun f => do let h ← f.hdr; let d ← VDst.ofCode f.dst; let a ← VSrc.ofCode f.sa; let b ← VSrc.ofCode f.sb; pure (.bfe h d a b)⟩,
  ⟨0x0B, 0x23, .i, fun f => do let h ← f.hdr; let d ← VDst.ofCode f.dst; let a ← VSrc.ofCode f.sa; let imm := BitVec.ofNat 32 f.imm; pure (.bfeImm h d a imm)⟩,
  ⟨0x0B, 0x04, .s, fun f => do let h ← f.hdr; let d ← VDst.ofCode f.dst; let a ← VSrc.ofCode f.sa; let b ← VSrc.ofCode f.sb; let c ← VSrc.ofCode f.sc; pure (.bfi h d a b c)⟩,
  ⟨0x0B, 0x24, .si, fun f => do let h ← f.hdr; let d ← VDst.ofCode f.dst; let a ← VSrc.ofCode f.sa; let imm := BitVec.ofNat 32 f.immB; let c ← VSrc.ofCode f.sc; pure (.bfiImm h d a imm c)⟩]

/-- MAJ 0x10 to 0x13. -/
def rowsFloat : List Row := [
  ⟨0x10, 0x00, .b, fun f => do let h ← f.hdr; let d ← VDst.ofCode f.dst; let a ← VSrc.ofCode f.sa; let b ← VSrc.ofCode f.sb; pure (.fadd h d a b)⟩,
  ⟨0x10, 0x01, .b, fun f => do let h ← f.hdr; let d ← VDst.ofCode f.dst; let a ← VSrc.ofCode f.sa; let b ← VSrc.ofCode f.sb; pure (.fsub h d a b)⟩,
  ⟨0x10, 0x02, .b, fun f => do let h ← f.hdr; let d ← VDst.ofCode f.dst; let a ← VSrc.ofCode f.sa; let b ← VSrc.ofCode f.sb; pure (.fmul h d a b)⟩,
  ⟨0x10, 0x20, .i, fun f => do let h ← f.hdr; let d ← VDst.ofCode f.dst; let a ← VSrc.ofCode f.sa; let imm := BitVec.ofNat 32 f.imm; pure (.faddImm h d a imm)⟩,
  ⟨0x10, 0x21, .i, fun f => do let h ← f.hdr; let d ← VDst.ofCode f.dst; let a ← VSrc.ofCode f.sa; let imm := BitVec.ofNat 32 f.imm; pure (.fsubImm h d a imm)⟩,
  ⟨0x10, 0x22, .i, fun f => do let h ← f.hdr; let d ← VDst.ofCode f.dst; let a ← VSrc.ofCode f.sa; let imm := BitVec.ofNat 32 f.imm; pure (.fmulImm h d a imm)⟩,
  ⟨0x10, 0x03, .s, fun f => do let h ← f.hdr; let d ← VDst.ofCode f.dst; let a ← VSrc.ofCode f.sa; let b ← VSrc.ofCode f.sb; let c ← VSrc.ofCode f.sc; pure (.fma h d a b c)⟩,
  ⟨0x10, 0x23, .si, fun f => do let h ← f.hdr; let d ← VDst.ofCode f.dst; let a ← VSrc.ofCode f.sa; let imm := BitVec.ofNat 32 f.immB; let c ← VSrc.ofCode f.sc; pure (.fmaImm h d a imm c)⟩,
  ⟨0x10, 0x04, .b, fun f => do let h ← f.hdr; let d ← VDst.ofCode f.dst; let a ← VSrc.ofCode f.sa; let b ← VSrc.ofCode f.sb; pure (.fmin h d a b)⟩,
  ⟨0x10, 0x05, .b, fun f => do let h ← f.hdr; let d ← VDst.ofCode f.dst; let a ← VSrc.ofCode f.sa; let b ← VSrc.ofCode f.sb; pure (.fmax h d a b)⟩,
  ⟨0x10, 0x24, .i, fun f => do let h ← f.hdr; let d ← VDst.ofCode f.dst; let a ← VSrc.ofCode f.sa; let imm := BitVec.ofNat 32 f.imm; pure (.fminImm h d a imm)⟩,
  ⟨0x10, 0x25, .i, fun f => do let h ← f.hdr; let d ← VDst.ofCode f.dst; let a ← VSrc.ofCode f.sa; let imm := BitVec.ofNat 32 f.imm; pure (.fmaxImm h d a imm)⟩,
  ⟨0x11, 0x00, .b, fun f => do let h ← f.hdr; let md := f.dst; let a ← VSrc.ofCode f.sa; let b ← VSrc.ofCode f.sb; pure (.fcmp h md a b)⟩,
  ⟨0x11, 0x20, .i, fun f => do let h ← f.hdr; let md := f.dst; let a ← VSrc.ofCode f.sa; let imm := BitVec.ofNat 32 f.imm; pure (.fcmpImm h md a imm)⟩,
  ⟨0x11, 0x01, .b, fun f => do let h ← f.hdr; let d ← VDst.ofCode f.dst; let a ← VSrc.ofCode f.sa; pure (.fclass h d a)⟩,
  ⟨0x11, 0x02, .b, fun f => do let h ← f.hdr; let d ← VDst.ofCode f.dst; let a ← VSrc.ofCode f.sa; let b ← VSrc.ofCode f.sb; pure (.fscale h d a b)⟩,
  ⟨0x11, 0x22, .i, fun f => do let h ← f.hdr; let d ← VDst.ofCode f.dst; let a ← VSrc.ofCode f.sa; let imm := BitVec.ofNat 32 f.imm; pure (.fscaleImm h d a imm)⟩,
  ⟨0x11, 0x03, .b, fun f => do let h ← f.hdr; let d ← VDst.ofCode f.dst; let a ← VSrc.ofCode f.sa; pure (.frnd h d a)⟩,
  ⟨0x12, 0x00, .b, fun f => do let h ← f.hdr; let d ← VDst.ofCode f.dst; let a ← VSrc.ofCode f.sa; pure (.frcp h d a)⟩,
  ⟨0x12, 0x01, .b, fun f => do let h ← f.hdr; let d ← VDst.ofCode f.dst; let a ← VSrc.ofCode f.sa; pure (.fsqrt h d a)⟩,
  ⟨0x12, 0x02, .b, fun f => do let h ← f.hdr; let d ← VDst.ofCode f.dst; let a ← VSrc.ofCode f.sa; pure (.frsq h d a)⟩,
  ⟨0x12, 0x03, .b, fun f => do let h ← f.hdr; let d ← VDst.ofCode f.dst; let a ← VSrc.ofCode f.sa; pure (.fexp2 h d a)⟩,
  ⟨0x12, 0x04, .b, fun f => do let h ← f.hdr; let d ← VDst.ofCode f.dst; let a ← VSrc.ofCode f.sa; pure (.flog2 h d a)⟩,
  ⟨0x13, 0x00, .s, fun f => do let h ← f.hdr; let d ← VDst.ofCode f.dst; let a ← VSrc.ofCode f.sa; let src ← Ty.ofCode (bits f.ext 5 0); let elem := bits f.ext 7 6; pure (.cvt h d a src elem)⟩,
  ⟨0x13, 0x01, .s, fun f => do let h ← f.hdr; let d ← VDst.ofCode f.dst; let va := f.sa; let src ← Ty.ofCode (bits f.ext 5 0); pure (.lpack h d va src)⟩,
  ⟨0x13, 0x02, .s, fun f => do let h ← f.hdr; let d ← VDst.ofCode f.dst; let va := f.sa; pure (.lunpk h d va)⟩]

/-- MAJ 0x14 to 0x16. -/
def rowsLanes : List Row := [
  ⟨0x14, 0x00, .b, fun f => do let h ← f.hdr; let d ← VDst.ofCode f.dst; let a ← VSrc.ofCode f.sa; let b ← VSrc.ofCode f.sb; pure (.shfl h d a b)⟩,
  ⟨0x14, 0x20, .i, fun f => do let h ← f.hdr; let d ← VDst.ofCode f.dst; let a ← VSrc.ofCode f.sa; let imm := BitVec.ofNat 32 f.imm; pure (.shflImm h d a imm)⟩,
  ⟨0x14, 0x01, .b, fun f => do let h ← f.hdr; let d ← VDst.ofCode f.dst; let a ← VSrc.ofCode f.sa; let kl ← kOf f.sb; pure (.bcast h d a kl)⟩,
  ⟨0x14, 0x21, .i, fun f => do let h ← f.hdr; let d ← VDst.ofCode f.dst; let a ← VSrc.ofCode f.sa; let imm := BitVec.ofNat 32 f.imm; pure (.bcastImm h d a imm)⟩,
  ⟨0x14, 0x02, .s, fun f => do let h ← f.hdr; let d ← VDst.ofCode f.dst; let a ← VSrc.ofCode f.sa; let b ← VSrc.ofCode f.sb; let vm := f.sc; let slot := bits f.ext 1 0; pure (.compress h d a b vm slot)⟩,
  ⟨0x14, 0x03, .s, fun f => do let h ← f.hdr; let d ← VDst.ofCode f.dst; let a ← VSrc.ofCode f.sa; let vm ← VSrc.ofCode f.sb; let slot := bits f.ext 1 0; pure (.expand h d a vm slot)⟩,
  ⟨0x15, 0x00, .b, fun f => do let h ← f.hdr; let d ← VDst.ofCode f.dst; let a ← VSrc.ofCode f.sa; pure (.redadd h d a)⟩,
  ⟨0x15, 0x01, .b, fun f => do let h ← f.hdr; let d ← VDst.ofCode f.dst; let a ← VSrc.ofCode f.sa; pure (.redmin h d a)⟩,
  ⟨0x15, 0x02, .b, fun f => do let h ← f.hdr; let d ← VDst.ofCode f.dst; let a ← VSrc.ofCode f.sa; pure (.redmax h d a)⟩,
  ⟨0x15, 0x03, .b, fun f => do let h ← f.hdr; let d ← VDst.ofCode f.dst; let a ← VSrc.ofCode f.sa; pure (.redand h d a)⟩,
  ⟨0x15, 0x04, .b, fun f => do let h ← f.hdr; let d ← VDst.ofCode f.dst; let a ← VSrc.ofCode f.sa; pure (.redor h d a)⟩,
  ⟨0x15, 0x05, .b, fun f => do let h ← f.hdr; let d ← VDst.ofCode f.dst; let a ← VSrc.ofCode f.sa; pure (.redxor h d a)⟩,
  ⟨0x15, 0x06, .b, fun f => do let h ← f.hdr; let d ← VDst.ofCode f.dst; let a ← VSrc.ofCode f.sa; pure (.scan h d a)⟩,
  ⟨0x15, 0x08, .s, fun f => do let h ← f.hdr; let d ← VDst.ofCode f.dst; let di ← VDst.ofCode f.sc; let a ← VSrc.ofCode f.sa; let b ← VSrc.ofCode f.sb; pure (.redminIndex h d di a b)⟩,
  ⟨0x15, 0x09, .s, fun f => do let h ← f.hdr; let d ← VDst.ofCode f.dst; let di ← VDst.ofCode f.sc; let a ← VSrc.ofCode f.sa; let b ← VSrc.ofCode f.sb; pure (.redmaxIndex h d di a b)⟩,
  ⟨0x16, 0x00, .b, fun f => do let h ← f.hdr; let kd ← kOf f.dst; let a ← VSrc.ofCode f.sa; pure (.ballot h kd a)⟩,
  ⟨0x16, 0x01, .b, fun f => do let h ← f.hdr; let kd ← kOf f.dst; let a ← VSrc.ofCode f.sa; pure (.vany h kd a)⟩,
  ⟨0x16, 0x02, .b, fun f => do let h ← f.hdr; let kd ← kOf f.dst; let a ← VSrc.ofCode f.sa; pure (.vall h kd a)⟩,
  ⟨0x16, 0x03, .b, fun f => do let h ← f.hdr; let md := f.dst; let ms := f.sa; pure (.elect h md ms)⟩,
  ⟨0x16, 0x04, .b, fun f => do let h ← f.hdr; let kd ← kOf f.dst; let ms := f.sa; pure (.mcnt h kd ms)⟩,
  ⟨0x16, 0x05, .b, fun f => do let h ← f.hdr; let md := f.dst; let ma := f.sa; let mb := f.sb; pure (.mlog h md ma mb)⟩]

/-- MAJ 0x18 to 0x1D. -/
def rowsMemory : List Row := [
  ⟨0x18, 0x00, .s, fun f => do let h ← f.hdr; let d ← VDst.ofCode f.dst; let ad ← addrOf f.sa f.ext; let scope := bits f.ext 20 18; pure (.ldg h d ad scope)⟩,
  ⟨0x18, 0x01, .s, fun f => do let h ← f.hdr; let ad ← addrOf f.sa f.ext; let b ← VSrc.ofCode f.sb; let scope := bits f.ext 20 18; pure (.stg h ad b scope)⟩,
  ⟨0x18, 0x02, .s, fun f => do let h ← f.hdr; let ad ← addrOf f.sa f.ext; pure (.pref h ad)⟩,
  ⟨0x19, 0x00, .s, fun f => do let h ← f.hdr; let d ← VDst.ofCode f.dst; let ad ← addrOf f.sa f.ext; pure (.lds h d ad)⟩,
  ⟨0x19, 0x01, .s, fun f => do let h ← f.hdr; let ad ← addrOf f.sa f.ext; let b ← VSrc.ofCode f.sb; pure (.sts h ad b)⟩,
  ⟨0x19, 0x02, .s, fun f => do let h ← f.hdr; let d ← VDst.ofCode f.dst; let off ← VSrc.ofCode f.sa; let disp := bits f.ext 15 8; let rank := bits f.ext 3 0; let file := bits f.ext 7 4; let scope := bits f.ext 20 18; pure (.ldc h d off disp rank file scope)⟩,
  ⟨0x19, 0x03, .s, fun f => do let h ← f.hdr; let off ← VSrc.ofCode f.sa; let disp := bits f.ext 15 8; let rank := bits f.ext 3 0; let file := bits f.ext 7 4; let b ← VSrc.ofCode f.sb; let scope := bits f.ext 20 18; pure (.stc h off disp rank file b scope)⟩,
  ⟨0x19, 0x04, .s, fun f => do let h ← f.hdr; let d ← VDst.ofCode f.dst; let ad ← addrOf f.sa f.ext; let scope := bits f.ext 20 18; pure (.ldd h d ad scope)⟩,
  ⟨0x19, 0x05, .s, fun f => do let h ← f.hdr; let ad ← addrOf f.sa f.ext; let b ← VSrc.ofCode f.sb; let scope := bits f.ext 20 18; pure (.std h ad b scope)⟩,
  ⟨0x19, 0x06, .s, fun f => do let h ← f.hdr; let d ← VDst.ofCode f.dst; let ad ← addrOf f.sa f.ext; pure (.ldl h d ad)⟩,
  ⟨0x19, 0x07, .s, fun f => do let h ← f.hdr; let ad ← addrOf f.sa f.ext; let b ← VSrc.ofCode f.sb; pure (.stl h ad b)⟩,
  ⟨0x1A, 0x00, .s, fun f => do let h ← f.hdr; let d ← VDst.ofCode f.dst; let ad ← addrOf f.sa (bits f.ext 17 10 * 2 ^ 10); let b ← VSrc.ofCode f.sb; let aop := bits f.ext 3 0; let scope := bits f.ext 20 18; pure (.atom h d ad b aop scope)⟩,
  ⟨0x1A, 0x01, .s, fun f => do let h ← f.hdr; let d ← VDst.ofCode f.dst; let ad ← addrOf f.sa (bits f.ext 17 10 * 2 ^ 10); let b ← VSrc.ofCode f.sb; let c ← VSrc.ofCode f.sc; let scope := bits f.ext 20 18; pure (.atomc h d ad b c scope)⟩,
  ⟨0x1A, 0x02, .s, fun f => do let h ← f.hdr; let ad ← addrOf f.sa (bits f.ext 17 10 * 2 ^ 10); let b ← VSrc.ofCode f.sb; let aop := bits f.ext 3 0; let scope := bits f.ext 20 18; pure (.red h ad b aop scope)⟩,
  ⟨0x1A, 0x03, .s, fun f => do let h ← f.hdr; let ad ← addrOf f.sa (bits f.ext 17 10 * 2 ^ 10); let b ← VSrc.ofCode f.sb; let scope := bits f.ext 20 18; pure (.atoms h ad b scope)⟩,
  ⟨0x1B, 0x00, .s, fun f => do let sc := f.mod = 4; let p := bits f.ext 5 0; let q := bits f.ext 11 6; let scope := bits f.ext 20 18; pure (.fence sc p q scope)⟩,
  ⟨0x1B, 0x01, .b, fun _ => pure .ofence⟩,
  ⟨0x1B, 0x02, .b, fun f => do let p := f.sa; let kn ← kOf f.sb; pure (.waitp p kn)⟩,
  ⟨0x1B, 0x03, .s, fun f => do let h ← f.hdr; let ad ← addrOf f.sa f.ext; pure (.cflush h ad)⟩,
  ⟨0x1B, 0x04, .s, fun f => do let h ← f.hdr; let ad ← addrOf f.sa f.ext; pure (.cinv h ad)⟩,
  ⟨0x1C, 0x00, .s, fun f => do let nw := f.nw = 1; let d ← regOfZ f.dst; let krec ← kOf f.sa; pure (.tcopy nw d krec)⟩,
  ⟨0x1C, 0x01, .s, fun f => do let krec ← kOf f.sa; let vs := f.sb; pure (.tstore krec vs)⟩,
  ⟨0x1C, 0x02, .s, fun f => do let krec ← kOf f.sa; let kval ← kOf f.sb; pure (.tfill krec kval)⟩,
  ⟨0x1D, 0x00, .s, fun f => do let kd ← kOf f.dst; let ka ← kOf f.sa; let kl ← kOf f.sb; let kc ← kOf f.sc; let rsz := bits f.ext 9 0; let iw := bits f.ext 10 10 = 1; pure (.bdgather kd ka kl kc rsz iw)⟩,
  ⟨0x1D, 0x01, .s, fun f => do let kd ← kOf f.dst; let ka ← kOf f.sa; let kl ← kOf f.sb; let kc ← kOf f.sc; let rsz := bits f.ext 9 0; let iw := bits f.ext 10 10 = 1; pure (.bdscat kd ka kl kc rsz iw)⟩,
  ⟨0x1D, 0x02, .s, fun f => do let ty ← Ty.ofCode f.ty; let kd ← kOf f.dst; let ka ← kOf f.sa; let kl ← kOfZ f.sb; let kc ← kOf f.sc; let rsz := bits f.ext 9 0; let iw := bits f.ext 10 10 = 1; let rop := bits f.ext 12 11; pure (.bdred ty kd ka kl kc rsz iw rop)⟩,
  ⟨0x1D, 0x03, .s, fun f => do let ty ← Ty.ofCode f.ty; let src ← Ty.ofCode (bits f.ext 5 0); let kd ← kOf f.dst; let ka ← kOf f.sa; let kc ← kOf f.sc; pure (.bdconv ty src kd ka kc)⟩]

/-- MAJ 0x20 to 0x22. -/
def rowsMatrix : List Row := [
  ⟨0x20, 0x00, .b, fun f => do let kg ← kOf f.dst; let kb ← kOf f.sa; let kl ← kOf f.sb; pure (.accwin kg kb kl)⟩,
  ⟨0x20, 0x01, .s, fun f => do let rb ← kOfZ f.dst; let r : RowOp := ⟨rb, bits f.ext 13 0⟩; let c := f.sc + 1; pure (.accz r c)⟩,
  ⟨0x20, 0x02, .s, fun f => do let rb ← kOfZ f.dst; let r : RowOp := ⟨rb, bits f.ext 13 0⟩; let krec ← kOf f.sa; pure (.accld r krec)⟩,
  ⟨0x20, 0x03, .s, fun f => do let krec ← kOf f.dst; let rb ← kOfZ f.sa; let r : RowOp := ⟨rb, bits f.ext 13 0⟩; pure (.accst krec r)⟩,
  ⟨0x20, 0x04, .s, fun f => do let h ← f.hdr; let d ← AccDst.ofCode f.dst; let rb ← kOfZ f.sa; let r : RowOp := ⟨rb, bits f.ext 13 0⟩; let c := f.sc + 1; pure (.accout h d r c)⟩,
  ⟨0x21, 0x00, .s, fun f => do let rb ← kOfZ f.dst; let r : RowOp := ⟨rb, bits f.ext 13 0⟩; let a := f.sa; let b := f.sb; let sc := f.sc; pure (.mma r a b sc)⟩,
  ⟨0x21, 0x01, .s, fun f => do let rb ← kOfZ f.dst; let r : RowOp := ⟨rb, bits f.ext 13 0⟩; let a := f.sa; let b := f.sb; let sc := f.sc; pure (.mmat r a b sc)⟩,
  ⟨0x21, 0x02, .s, fun f => do let rb ← kOfZ f.dst; let r : RowOp := ⟨rb, bits f.ext 13 0⟩; let a := f.sa; let b := f.sb; let sc := f.sc; pure (.mmas r a b sc)⟩,
  ⟨0x22, 0x00, .b, fun f => do let kd ← kOf f.dst; pure (.mfence kd)⟩,
  ⟨0x22, 0x01, .b, fun f => do let ka ← kOf f.sa; pure (.mwait ka)⟩,
  ⟨0x22, 0x02, .b, fun f => do let kd ← kOf f.dst; let ka ← kOfZ f.sa; pure (.mstat kd ka)⟩]

/-- MAJ 0x28 to 0x2D. -/
def rowsStream : List Row := [
  ⟨0x28, 0x00, .s, fun f => do let zd := f.dst; let a ← VSrc.ofCode f.sa; let cls := bits f.ext 3 0; pure (.sgen zd a cls)⟩,
  ⟨0x28, 0x01, .s, fun f => do let zd := f.dst; let a ← VSrc.ofCode f.sa; let cls := bits f.ext 3 0; pure (.sgenb zd a cls)⟩,
  ⟨0x28, 0x02, .s, fun f => do let zd := f.dst; let za := f.sa; let cls := bits f.ext 3 0; pure (.sregen zd za cls)⟩,
  ⟨0x28, 0x03, .s, fun f => do let ka ← kOf f.sa; let cls := bits f.ext 3 0; pure (.sseed ka cls)⟩,
  ⟨0x28, 0x04, .i, fun f => do let imm := BitVec.ofNat 32 f.imm; pure (.slen imm)⟩,
  ⟨0x28, 0x05, .b, fun f => do let msk := f.msk; let d ← VDst.ofCode f.dst; let cls := f.sa; pure (.srnd msk d cls)⟩,
  ⟨0x29, 0x00, .b, fun f => do let zd := f.dst; let za := f.sa; let zb := f.sb; pure (.sand zd za zb)⟩,
  ⟨0x29, 0x01, .b, fun f => do let zd := f.dst; let za := f.sa; let zb := f.sb; pure (.sor zd za zb)⟩,
  ⟨0x29, 0x02, .b, fun f => do let zd := f.dst; let za := f.sa; let zb := f.sb; pure (.sxor zd za zb)⟩,
  ⟨0x29, 0x03, .b, fun f => do let zd := f.dst; let za := f.sa; let zb := f.sb; pure (.sxnor zd za zb)⟩,
  ⟨0x29, 0x04, .b, fun f => do let zd := f.dst; let za := f.sa; pure (.snot zd za)⟩,
  ⟨0x29, 0x05, .s, fun f => do let zd := f.dst; let za := f.sa; let zb := f.sb; let zs := f.sc; pure (.smux zd za zb zs)⟩,
  ⟨0x29, 0x06, .b, fun f => do let zd := f.dst; let za := f.sa; let zb := f.sb; pure (.smin zd za zb)⟩,
  ⟨0x29, 0x07, .b, fun f => do let zd := f.dst; let za := f.sa; let zb := f.sb; pure (.smax zd za zb)⟩,
  ⟨0x29, 0x08, .b, fun f => do let kd ← kOf f.dst; let za := f.sa; let zb := f.sb; pure (.sdep kd za zb)⟩,
  ⟨0x2A, 0x00, .s, fun f => do let msk := f.msk; let d ← VDst.ofCode f.dst; let za := f.sa; let out := bits f.ext 1 0; pure (.scnt msk d za out)⟩,
  ⟨0x2A, 0x01, .s, fun f => do let msk := f.msk; let d ← VDst.ofCode f.dst; let za := f.sa; pure (.scnta msk d za)⟩,
  ⟨0x2C, 0x00, .b, fun f => do let ka ← kOfZ f.sa; pure (.wlcfg ka)⟩,
  ⟨0x2C, 0x01, .b, fun f => do let msk := f.msk; let n64 ← tyN64 f.ty; let a ← VSrc.ofCode f.sa; let b ← VSrc.ofCode f.sb; pure (.wlpush msk n64 a b)⟩,
  ⟨0x2C, 0x02, .b, fun f => do let msk := f.msk; let n64 ← tyN64 f.ty; let d ← VDst.ofCode f.dst; let md := f.sa; let wait ← boolOf f.sb; pure (.wlpop msk n64 d md wait)⟩,
  ⟨0x2C, 0x03, .b, fun f => do let msk := f.msk; let b ← VSrc.ofCode f.sa; pure (.wlret msk b)⟩,
  ⟨0x2C, 0x04, .b, fun f => do let kd ← kOf f.dst; pure (.wlfloor kd)⟩,
  ⟨0x2C, 0x05, .b, fun f => do let kd ← kOf f.dst; pure (.wldone kd)⟩,
  ⟨0x2C, 0x06, .b, fun f => do let kd ← kOf f.dst; let sel := f.sa; pure (.wlstat kd sel)⟩,
  ⟨0x2D, 0x00, .b, fun f => do let kd ← kOf f.dst; let ka ← kOf f.sa; pure (.lblrd kd ka)⟩,
  ⟨0x2D, 0x01, .b, fun f => do let kd ← kOf f.dst; let ka ← kOf f.sa; let lbl := f.sb; pure (.lblset kd ka lbl)⟩,
  ⟨0x2D, 0x02, .b, fun f => do let kd ← kOf f.dst; let ka ← kOf f.sa; pure (.lbllock kd ka)⟩,
  ⟨0x2D, 0x03, .b, fun f => do let kd ← kOf f.dst; let ka ← kOf f.sa; pure (.lblunl kd ka)⟩,
  ⟨0x2D, 0x04, .b, fun f => do let kd ← kOf f.dst; let ka ← kOf f.sa; pure (.lblhist kd ka)⟩]

/-- The function tables of R323. -/
def rows : List Row :=
  rowsControl ++ rowsUniform ++ rowsVector ++ rowsFloat ++ rowsLanes ++ rowsMemory ++ rowsMatrix ++ rowsStream

/-- The listed majors outside firmware (R322, R324). -/
def majOk (m : Nat) : Bool := rows.any (·.maj == m)

/-- The instruction of a word of `len` bytes, by the checks of R325 after the window check. -/
def decodeWord (len w : Nat) : Except DecodeError Instr :=
  let maj := bits w 7 2
  let fn := bits w 13 8
  match rows.find? fun r => r.maj == maj && r.fn == fn with
  | none => .error (if majOk maj then .function else .major)
  | some r =>
    if formLen r.form ≠ len then .error .length else
    let f := wordFields r.form w
    match r.parse f with
    | .error e => .error e
    | .ok i =>
      if instrFields i ≠ some f then .error .reserved else
      match firstFail (reasons i) with
      | some e => .error e
      | none => .ok i

/-- The length in bytes that the first byte of a word gives (R309): 4 for a pad word. -/
def lenOf (b : Byte) : Nat := match b.toNat % 4 with
  | 0 => 8
  | 1 => 12
  | 2 => 16
  | _ => 4

/-- What fetch reads at offset `off` of a 32-byte window from the bytes left in it (R309, R310, R325): the instruction and its
length, or why the word is illegal. -/
def decodeAt (off : Nat) (bs : List Byte) : Except DecodeError (Instr × Nat) :=
  let len := lenOf (bs.headD 0)
  if len = 4 then .ok (.padWordSkip (BitVec.ofNat 32 (ofBytes (slice 0 bs 0 4))), 4) else
  if off + len > 32 then .error .crossesWindow else
  match decodeWord len (ofBytes (slice 0 bs 0 len)) with
  | .error e => .error e
  | .ok i => .ok (i, len)

/-- The word at the start of some bytes as an ILL trap carries it (R325): the bytes beyond the window's end are 0. -/
def illWord (bs : List Byte) : BitVec 128 := BitVec.ofNat 128 (ofBytes (bs.take (lenOf (bs.headD 0))))

end

end Sys2Proof.Machine

namespace Sys2Proof

open Sys2Proof.Machine

/-- The words of a well-formed instruction (R312, R313): its length in bytes and its bits. A pad word is its own word; the
other events have no words. -/
def encode (i : Instr) : Option (Nat × Nat) := match i with
  | .padWordSkip w => some (4, w.toNat)
  | i => (instrFields i).map fun f => (formLen f.form, fieldsWord f)

/-- The bytes of an instruction as they lie in memory (R309). -/
def encodeBytes (i : Instr) : List Byte := match encode i with
  | some (n, w) => toBytes n w
  | none => []

/-- The instruction that the decoder reads at the start of a window holding `w` (bit 0 the least significant bit of the first
byte) and zeros. -/
noncomputable def decodeTableWord (nbits w : Nat) : Option Instr := match decodeAt 0 (toBytes 32 (w % 2 ^ nbits)) with
  | .ok (i, _) => some i
  | .error _ => none

end Sys2Proof
end

