-- ==== Sys2Proof/Config.lean ====
section
/-! DEFINITION. What one device fixes: the figures of R2 that the model uses, and the values that the spec leaves open, as
constants with no body. A free value is one of these constants applied to its operands or to a number drawn from the state's
counter `free`, so that nothing can be proved about it. -/

namespace Sys2Proof.Config

/-- Ranks and files of logical core positions (R2). -/
def ranks : Nat := 10
def files : Nat := 16
/-- Per core (R2, R174). -/
def blockSlots : Nat := 32
def residentGroups : Nat := 256
def vectorRegs : Nat := 8192
def slabBytes : Nat := 524288
def accRows : Nat := 16384
def streamRegs : Nat := 256
/-- Device memory and device pad in bytes (R58, R64). -/
def hbmBytes : Nat := 0x0000006000000000
def padBytes : Nat := 0x06000000
/-- Directory ways (R90) and sets of a slice and of the pool home. -/
def dirWays : Nat := 16
def dirSets : Nat := 4096
def poolDirSets : Nat := 16384
/-- Transaction slots of a home (R98). -/
def txnSlots : Nat := 1024
/-- Bytes of an L1 and of an L2 slice (R2, R61). -/
def l1Bytes : Nat := 262144
def l2Bytes : Nat := 524288
/-- Region-table entries that may be pinned (R116). -/
def pinSlice : Nat := 1024
def pinPool : Nat := 4096

/-- Sectors that a compressed page needs where R76 leaves the count to the implementation, from the page's bytes. -/
opaque sectorCount : List Byte → Nat
/-- Which of its grains an L1 gives up for want of room (no rule gives its replacement), by draw number. -/
opaque l1Victim : Nat → Nat
/-- Which of its compressed pages a full L2 slice writes back first (R61: its replacement is not architected), by draw number. -/
opaque l2Victim : Nat → Nat
/-- The directory set of a pool, host or compressed grain, modulo the sets (R90 gives the ways only). -/
opaque poolSet : Nat → Nat
/-- Which of several rows that name one destination word a base-die scatter keeps (R410), by draw number and word. -/
opaque scatterPick : Nat → Nat → Nat
/-- The bytes that overlapping base-die conversions leave (R410), by draw number and byte. -/
opaque convByte : Nat → Nat → Byte
/-- Whether an mma lane reads a pending register before (false) or after (true) the asynchronous write (R269). -/
opaque mmaReadsNew : Nat → Nat → Bool
/-- The high half that a latch written from a 32-bit type gives to a read under a pair type (R315), by tag and lane. -/
opaque latchHigh : Nat → Nat → BitVec 32
/-- The bytes of a spilled stack entry, whose format is not architected (R228), by draw number and byte. -/
opaque spillByte : Nat → Nat → Byte
/-- A measurement of R57 whose serialisation is not given, by its index and what it covers. -/
opaque measure : Nat → List Nat → BitVec 256
/-- The CRC of a flit's bytes 243:0 and its error-correction bytes (R24: neither code is given). -/
opaque flitCrc : List Byte → BitVec 32
opaque flitFec : List Byte → Nat → Byte
/-- The place that bits 59:0 of DBGSEL name (R169 gives no layout for them), by kind and bits: the core or slice, and which of the entries that the
model holds there. -/
opaque debugPlace : Nat → Nat → Nat × Nat
/-- The bytes of a message to a span peer, whose format is not given (R24), by draw number and byte. -/
opaque msgByte : Nat → Nat → Byte

end Sys2Proof.Config
end

