-- ==== Sys2Proof/Machine/State.lean ====
section
/-! DEFINITION. The state of one VG4 module as plain data: everything the spec gives the machine, from the registers of a
group to the directory beside a home, and the messages and events that are due. INVENTORY.md lists each field with its rule. -/

namespace Sys2Proof.Machine

open Sys2Proof

/-- The faults a step can end in: none. Every exception of the spec is taken as a next state (R160), and every event has its
effect, so no step stops the machine. -/
inductive Fault where
  deriving DecidableEq, Repr

/-- The refusals a step can end in. -/
inductive Refusal where
  /-- An instruction with no meaning yet, raised by its arm of exec only. Safe: the run stops by name. -/
  | notModelled (mnemonic : String)
  deriving DecidableEq, Repr

/-! ## A group -/

/-- Why a live entry of a group waits (R181). `none` is a ready entry. -/
inductive Wait where
  | none
  | yielding (til : Nat)
  | bar (n phase : Nat)
  | cbar (blk n phase : Nat)
  | lwait (kd : Option Nat) (handle : Nat)
  | launchLimit
  | waitp (p n : Nat)
  | mwait (n : Nat)
  | xacq (n : Nat) (role : Option Nat) (req : Nat)
  | rolesw
  | access (op : Nat)
  | cflush (grains : List Nat)
  | worklist (op : Nat)
  | push (op : Nat)
  | handover
  | label (tag kd : Nat)
  deriving DecidableEq, Repr

/-- One latch entry (R238, R239): latch number, the operand code it is tagged with, whether its values are pair values, its
64 values, how many instructions its live slot has issued since, and whether it is still valid. -/
structure Latch where
  idx : Nat
  tag : Nat
  pair : Bool
  vals : List W64
  age : Nat
  valid : Bool
  deriving DecidableEq, Repr

/-- A reconvergence-stack entry (R223), with the wait of its path (R226), the latches written from its live slot (R239), the
length and the first pc of its open chain (R240), the lanes to which tret confines the instruction that trapped (R337), as
(mask, NPC, that instruction), and the handle, record address and k0 of a launch that has taken its handle and not yet read its record (R339). -/
structure Entry where
  pc : W64
  mask : Mask
  rpc : W64
  fmt : W64
  sib : Bool
  wait : Wait
  latches : List Latch
  chain : Nat
  chainPc : W64
  reissue : Option (Mask × W64 × W64)
  launching : Option (Nat × W64 × Option W64)
  deriving DecidableEq, Repr

/-- One operation in flight on an access path (R249, R250): its path, its number and whether it has completed. -/
structure Flight where
  path : Nat
  op : Nat
  done : Bool
  deriving DecidableEq, Repr

/-- A pending asynchronous write of vector register `reg` by operation `op` (R242). -/
structure Pend where
  reg : Nat
  op : Nat
  deriving DecidableEq, Repr

/-- Handler mode (R337): the stack depth at trap entry, whether the trapping path is the lower live entry, and how far beyond the PC of the record
the instruction that trapped lies. -/
structure Handler where
  depth : Nat
  low : Bool
  off : W64
  deriving DecidableEq, Repr

/-- One engine instruction of a stream window (R435, R436): the operation, its registers, its class, its data read at issue
(the p of R440 per lane), and for a count its vector destination, its active mask, OUT and its operation number. -/
inductive StrOp where
  | gen | regen | and | or | xor | xnor | inv | mux | cnt (out : Nat) | cnta
  deriving DecidableEq, Repr

structure StrIns where
  kind : StrOp
  zd : Nat
  za : Nat
  zb : Nat
  zs : Nat
  cls : Nat
  p : List Nat
  dst : Option Nat
  mask : Mask
  op : Nat
  deriving DecidableEq, Repr

/-- The status of a matrix batch (R430): number (0 while open), ops, completed ops, flags, and the accumulator rows that its ops
write as (first, count). -/
structure Batch where
  num : Nat
  nops : Nat
  dops : Nat
  isOpen : Bool
  done : Bool
  halt : Bool
  teamErr : Bool
  memErr : Bool
  nar : Bool
  novf : Bool
  op : Nat
  rows : List (Nat × Nat)
  deriving DecidableEq, Repr

/-- An open l6 run of a group's batch (R286): the batch's number, its first row, its interval P, the ops since the last promotion point, the
narrow accumulators and the NaR flags, keyed by 64 * i + n for output element (i, n). -/
structure Run where
  batch : Nat
  r0 : Nat
  interval : Nat
  count : Nat
  acc : FMap W32
  nar : List Nat
  deriving DecidableEq, Repr

/-- What a kill of a group's fault makes of it (R158): the PC, NPC, mask and CHAIN of the trap record, its words, and the instruction that faulted. -/
structure Kill where
  pc : W64
  npc : W64
  mask : Mask
  chain : Bool
  words : BitVec 256
  inst : W64
  deriving DecidableEq, Repr

/-- What a group in run-ahead keeps (R154, R155): the state to roll back to, its blocking page with the trap that a kill makes of it,
the pages found since, the instructions passed, and the registers whose value is unknown (v n as n, k n as 1600 + n,
m n as 2048 + n), and the live slot that runs ahead. -/
structure RunAhead where
  stack : List Entry
  k : FMap W64
  m : FMap Mask
  v : FMap W32
  gens : FMap W64
  ctrs : FMap (BitVec 16)
  fault : Nat × Nat × Nat
  kill : Kill
  found : List (Nat × Nat × Nat)
  passed : Nat
  unknown : List Nat
  low : Bool
  deriving DecidableEq, Repr

/-- The run-time state of a group (R178, R220 to R250, R348): its reconvergence stack (top first), uniform, mask and vector
registers (vector registers keyed 64 * n + lane), extended block size X, control registers, and everything it has in flight. `waitFrom` is the
time, in thousandths of a core cycle, from which it has been ready without issuing (R182), and `exitPc` the PC of the exit that ended it. -/
structure Group where
  gid : Nat
  ridx : Nat
  stack : List Entry
  onChip : Nat
  turn : Bool
  k : FMap W64
  m : FMap Mask
  v : FMap W32
  ext : Nat
  role : Nat
  accBase : Nat
  accLim : Nat
  tvec : W64
  trec : Nat
  dstk : W64
  wlrec : W64
  dsectl : W64
  handler : Option Handler
  held : List Trap
  flights : List Flight
  pend : List Pend
  busy : List Pend
  marks : List Nat
  seen : List Nat
  gens : FMap W64
  ctrs : FMap (BitVec 16)
  window : List StrIns
  batch : Batch
  closed : List Batch
  nextBatch : Nat
  run : Option Run
  teamOps : Nat
  wlBound : Option Nat
  faultWait : Option Nat
  ahead : Option RunAhead
  waitFrom : Nat
  exited : Bool
  exitPc : W64
  deriving DecidableEq, Repr

/-! ## Blocks and launches -/

/-- A role entry of a launch record (R171). -/
structure Role where
  eoff : Nat
  xsz : Nat
  glo : Nat
  ghi : Nat
  deriving DecidableEq, Repr

/-- A launch record (R170) as read once by the launching agent (R172). -/
structure LRec where
  entry : W64
  argp : W64
  seed : W64
  wlrec : W64
  tvec : W64
  blocks : Nat
  gpb : Nat
  breg : Nat
  slab : Nat
  lpriv : Nat
  accr : Nat
  zreg : Nat
  team : Nat
  clm : Bool
  prio : Nat
  nrole : Nat
  roles : List Role
  deriving DecidableEq, Repr

/-- The status of a launch: running, or one of R180. -/
inductive LStatus where
  | running | done | badrec | nofit | killed
  deriving DecidableEq, Repr

/-- A launch: its number on the device, its context and handle (0 for a queue launch), its record, priority and depth, the
queue and block sequence number that issued it, the issuing block, the next block to place, blocks retired, the core that
took the previous block, when it began to wait for space, the time its watchdog counts from, moved on by the time a die of its context was halted, and since when that is so now (R168). -/
structure Launch where
  id : Nat
  ctx : Nat
  vf : Nat
  handle : Nat
  lrec : LRec
  prio : Nat
  depth : Nat
  k0 : Option W64
  queue : Option (Nat × Nat)
  parent : Option Nat
  nextBid : Nat
  retired : Nat
  lastCore : Option Nat
  waitFrom : Nat
  started : Nat
  wdPosted : Bool
  wdPause : Option Nat
  status : LStatus
  deriving DecidableEq, Repr

/-- Block states (R181). -/
inductive BState where
  | resident | halting | halted | retired
  deriving DecidableEq, Repr

/-- A barrier (R342): expected count, groups that have arrived in the phase (block number and GID), and the phase number. -/
structure Barrier where
  expected : Nat
  arrived : List (Nat × Nat)
  phase : W64
  deriving DecidableEq, Repr

/-- A block (R174, R178): its core, its groups, the storage it owns there (slab bytes including the lane-private area of R246,
accumulator rows keyed 64 * row + lane, stream registers keyed 64 * z + lane with their DEP masks), its register pool, its
acquire queue, its barriers, the launches it has issued, what is absent after a lazy save (R193), whether it keeps its slot and
resident indices (R192), its teams broken by an exit (R427), where its granules lie in the core's arrays, and for granules that have left it where they were saved (R191): in 2 KiB units, those of a slab
in units of 256 bytes.
`haltedAt` is the time of its halt in thousandths of a core cycle. `setId` is the number
of the first block of its cluster-mode set (R177), the block itself without CLM. -/
structure Block where
  id : Nat
  launch : Nat
  ctx : Nat
  vf : Nat
  bid : Nat
  core : Nat
  state : BState
  since : Nat
  haltedAt : Nat
  setId : Nat
  groups : List Group
  pool : Nat
  acqQueue : List Nat
  slab : FMap Byte
  acc : FMap W32
  z : FMap (BitVec 256)
  zdep : FMap (BitVec 16)
  barriers : FMap Barrier
  cbarriers : FMap Barrier
  issued : List Nat
  absent : List Granule
  held : Bool
  broken : List Nat
  places : List (Granule × List Nat)
  savedAt : List (Granule × List Nat)
  deriving DecidableEq, Repr

/-! ## Operations in flight -/

/-- How far a lane of an access is: waiting, recorded at a halt before the L1 or the pad had accepted it (R186, R187), performed, or given up after a
Nak or with a cancelled access. -/
inductive LDone where
  | waiting | held | performed | dropped
  deriving DecidableEq, Repr

/-- One lane of a per-lane access: its lane, effective address, physical address, the grain size and heat flag of its page,
data (and the new value of atomc), how far it is, and the value it returned. -/
structure LaneAcc where
  lane : Nat
  ea : W64
  pa : Nat
  gsz : Nat
  heat : Bool
  b : W64
  c : W64
  st : LDone
  val : W64
  deriving DecidableEq, Repr

/-- What a per-lane access does (R392, R397). -/
inductive AccKind where
  | load | store | atom | atomc | red | atoms | pref
  deriving DecidableEq, Repr

/-- The memory level of an access (R246). -/
inductive Level where
  | g | c | d | s
  deriving DecidableEq, Repr

/-- A per-lane access in flight (R393, R398): who issued it, where, its type and operation, the destination register, the slab it
goes to at level c, its lanes, the tags of its uncached writes (atoms) with their grains, the Naks it met with the lanes that each refused, and its
instruction: PC, mask,
whether it lay in a latch chain and that chain's first PC (R161). -/
structure Access where
  id : Nat
  g : GRef
  core : Nat
  ctx : Nat
  vf : Nat
  kind : AccKind
  level : Level
  ty : Ty
  aop : Nat
  dst : Option Nat
  target : Nat
  lanes : List LaneAcc
  tags : List (Nat × Nat)
  naks : List (List Nat × Msg)
  pc : W64
  mask : Mask
  chained : Bool
  chainPc : W64
  returned : Bool
  deriving DecidableEq, Repr

/-- A tensor record (R403). -/
structure TRec where
  srca : W64
  dsta : W64
  ss : List Int
  ds : List Int
  n : List Nat
  slv : Nat
  dlv : Nat
  esz : Nat
  deriving DecidableEq, Repr

/-- The command a copy engine performs (R404): record to record, record to registers, registers to record, or a fill. -/
inductive CopyKind where
  | copy | toRegs (d : Option Nat) | fromRegs | fill (val : W64)
  deriving DecidableEq, Repr

/-- A copy-engine command (R404 to R408): its record, the first element not yet performed, the tag of its access on the way (0 for
none), the value read for that element, the bytes of its register side in element order, the fault token that stops it, and the
queue and block whose command it is, if any. -/
structure CopyCmd where
  op : Nat
  g : Option GRef
  core : Nat
  ctx : Nat
  vf : Nat
  kind : CopyKind
  trecd : TRec
  next : Nat
  tag : Nat
  val : Option W64
  buf : List Byte
  stopped : Option Nat
  queue : Option (Nat × Nat)
  pc : W64
  mask : Mask
  deriving DecidableEq, Repr

/-- The four base-die commands (R409). -/
inductive BdKind where
  | gather | scat | red (ty : Ty) (rop : Nat) | conv (dst src : Ty)
  deriving DecidableEq, Repr

/-- One element or word move of a base-die command: source and destination addresses (virtual until the command is translated,
physical from then on), the HEAT flags and the grain sizes of their pages, whether the move is the first of its piece in the grain of
its source and of its destination (R71), the bytes of its destination that it writes, as the first and their number, whether their values are not
architected (R410), and the virtual addresses that a Nak names. -/
structure BdMove where
  src : Nat
  dst : Nat
  heat : Bool × Bool
  gsz : Nat × Nat
  first : Bool × Bool
  part : Nat × Nat
  lost : Bool
  sva : Nat
  dva : Nat
  deriving DecidableEq, Repr

/-- A base-die command (R82, R410): the moves not yet translated, the pieces not yet served with their unperformed moves, the tags of
reduction elements on their way as (piece, tag), whether a reduction has been applied, and the fault token that stops it. -/
structure BdCmd where
  op : Nat
  g : GRef
  core : Nat
  ctx : Nat
  vf : Nat
  kind : BdKind
  todo : List BdMove
  pieces : List (Nat × List BdMove)
  tags : List (Nat × Nat)
  applied : Bool
  stopped : Option Nat
  pc : W64
  mask : Mask
  deriving DecidableEq, Repr

/-- What a matrix op does (R413): the ops of R421 and R425, with the operands fixed at issue. A share of a team op (R427) carries its
number since placement and, once started, the leader's op and scale register; its `b` and FMT are then the leader's. -/
inductive MKind where
  | accz | accld (rec : TRec) | accst (rec : TRec)
  | accoutReg (d : Nat) (ty : Ty) (mode : Nat) (draws : List (List Nat))
  | accoutMem (rec : TRec) (ty : Ty) (mode : Nat) (draws : List (List Nat))
  | mma (a b sc : Nat) | mmas (a b sc : Nat) | mmat (a b sc : Nat) (seq : Nat) (lead : Option (Nat × Nat))
  deriving DecidableEq, Repr

/-- A matrix op in a core's engine order (R415): the issuing group, its rows, its types from FMT at issue, its batch, the
writes it waits for, what its source lanes held that had a pending write at issue (keyed 64 * reg + lane) with the draw that
chooses between old and new (R269), the first row of a move not yet performed with its next lane, and for mmat whether its team has started it. -/
structure MOp where
  op : Nat
  g : GRef
  ctx : Nat
  vf : Nat
  kind : MKind
  r0 : Nat
  c : Nat
  fmt : W64
  batch : Nat
  after : List Nat
  old : FMap W32
  draw : Nat
  row : Nat
  lane : Nat
  started : Bool
  noEffect : Bool
  stopped : Option Nat
  pc : W64
  mask : Mask
  deriving DecidableEq, Repr

/-- A closed stream window in a core's engine order (R436): the issuing group, L, P, its instructions, the generator states and
counters from which its next pass draws, the passes that it has done, and the ones counted so far by operation and lane, as 64 * op + lane (R438). -/
structure Window where
  g : GRef
  len : Nat
  passes : Nat
  ins : List StrIns
  gens : FMap W64
  ctrs : FMap (BitVec 16)
  pass : Nat
  counts : FMap Nat
  deriving DecidableEq, Repr

/-! ## Translation and the fault queue -/

/-- A leaf of the page tables as a TLB or the walker gives it (R141): physical address of the page in the physical space of
this model, its size in bytes, its flags, and where the leaf lies. -/
structure Leaf where
  page : Nat
  size : Nat
  w : Bool
  x : Bool
  grain : Nat
  cmp : Bool
  heat : Bool
  kind : Nat
  d : Bool
  slot : Nat
  deriving DecidableEq, Repr

/-- The TLBs of the device (R146): a core's, its copy engine's, and one each for the queue engines and the I/O die. -/
inductive Tlb where
  | core (n : Nat) | copy (n : Nat) | queue | iod
  deriving DecidableEq, Repr

/-- A TLB entry: which TLB, context, virtual 4 KiB page and leaf. -/
structure TlbEnt where
  tlb : Tlb
  ctx : Nat
  vpn : Nat
  leaf : Leaf
  deriving DecidableEq, Repr

/-- Who waits on a fault token, and so how it replays (R157); a group keeps the trap that a kill makes of it (R158). -/
inductive Waiter where
  | group (g : GRef) (kill : Kill) | copy (op : Nat) | matrix (core op : Nat) | bd (op : Nat) | queue (q : Nat) | spill (wl shard : Nat)
  | stack (g : GRef) (kill : Kill) | comp (page : Nat)
  deriving DecidableEq, Repr

/-- A fault record before it is written to the ring (R152). -/
structure FRec where
  vaddr : Nat
  ctx : Nat
  token : Nat
  npg : Nat
  last : Bool
  acc : Nat
  cause : Nat
  src : Nat
  agent : Nat
  info : W64
  deriving DecidableEq, Repr

/-- The fault queue of one function (R150 to R153): its registers, the records that wait in the device, the next token and
sequence number, the pages outstanding in its filter as (context, page, ACC, token), and the waiters as (token, waiter). -/
structure FaultQ where
  base : W64
  tail : W32
  head : W32
  waiting : List FRec
  token : BitVec 16
  seq : W64
  filter : List (Nat × Nat × Nat × Nat)
  waiters : List (Nat × Waiter)
  msix : Nat
  deriving DecidableEq, Repr

/-! ## Contexts, functions and queues -/

/-- A context and its descriptor (R138). `handle` is the next launch handle (R339), `save` its save descriptor (R191),
`lost` the dies whose loss a context without groups has recorded for the blocks that are placed next (R19), `hold` the clusters on which the driver holds it halted (R189). -/
structure Ctx where
  id : Nat
  root : BitVec 40
  vf : Nat
  en : Bool
  padBase : Nat
  padLim : Nat
  wdt : Nat
  tdm : BitVec 16
  cst : Nat
  stopc : Nat
  handle : Nat
  lost : BitVec 16
  hold : BitVec 40
  deriving DecidableEq, Repr

/-- The registers of one function (R40, R42, R80, R149, R189, R81): policy and partition registers, SHOOTVA, SHOOTN,
PREEMPTC and CMPSTAT. -/
structure Fn where
  policy : W64
  part : W64
  shootva : W64
  shootn : W64
  preemptc : W64
  cmpRaw : Nat
  cmpExp : Nat
  cmpUe : Nat
  cmpPin : Nat
  deriving DecidableEq, Repr

/-- Queue states (R45). -/
inductive QState where
  | stopped | running | parked | waiting
  deriving DecidableEq, Repr

/-- Work that a queue's block issued (R49): its sequence number in the chain, its address, NOTE, and how it ended. -/
inductive WorkEnd where
  | pending | success | failed
  deriving DecidableEq, Repr

structure Work where
  seq : Nat
  addr : W64
  note : Bool
  fin : WorkEnd
  deriving DecidableEq, Repr

/-- A queue record (R45) and the engine's position in the chain: whether a stop was asked for, whether it waits on SER,
whether it has served the block and waits for its NEXT, whether the block's COND has succeeded, the tokens of the faults that its engine waits
on, the sequence number of the next block and the work not yet retired in order. -/
structure Queue where
  id : Nat
  cptr : W64
  done : W64
  caddr : W64
  ctx : Nat
  vf : Nat
  prio : Nat
  state : QState
  fcode : Nat
  stopAsked : Bool
  serWait : Bool
  served : Bool
  condDone : Bool
  faulted : List Nat
  seq : Nat
  work : List Work
  deriving DecidableEq, Repr

/-! ## Coherence -/

/-- L1 states (R86). -/
inductive LSt where
  | s | e | m | o | t
  deriving DecidableEq, Repr

/-- A copy of a grain in the L1 of `agent`, or held by another caching agent (R86, R89): state, MODE, data, when it became
exclusive (in thousandths of a core cycle), the HEAT flag of its page, and the staged bytes of update writes (R125) in order, each with its tag and
their mask. -/
structure Copy where
  agent : Nat
  pa : Nat
  gsz : Nat
  ctx : Nat
  vf : Nat
  st : LSt
  mode : Label
  data : List Byte
  since : Nat
  heat : Bool
  staged : List (Nat × List Byte × List Bool)
  deriving DecidableEq, Repr

/-- The request kinds an agent can have pending on a grain (R101, R125). -/
inductive ReqKind where
  | rds | rdx | upg | upd
  deriving DecidableEq, Repr

/-- A pending request of `agent` on a grain (R101): kind, tag, whether its bounce delay still holds it back (R105), and the bytes
of an update write with their mask (R125), which for a host port are those of its write (R107). -/
structure Pending where
  agent : Nat
  pa : Nat
  gsz : Nat
  ctx : Nat
  vf : Nat
  kind : ReqKind
  tag : Nat
  delayed : Bool
  heat : Bool
  upd : List Byte × List Bool
  op : Nat
  deriving DecidableEq, Repr

/-- A write-back buffer entry (R101, R102). -/
structure WbBuf where
  agent : Nat
  pa : Nat
  gsz : Nat
  data : List Byte
  dirty : Bool
  deriving DecidableEq, Repr

/-- A bounce-table entry (R105). -/
structure Bounce where
  agent : Nat
  pa : Nat
  count : Nat
  deriving DecidableEq, Repr

/-- Stable home states (R90); BUSY is the presence of an open transaction. -/
inductive HSt where
  | s | x | os
  deriving DecidableEq, Repr

/-- A directory entry (R90), with its address tag and grain size, and the order number of its last use. -/
structure DirEnt where
  pa : Nat
  gsz : Nat
  hst : HSt
  owner : Nat
  ext : BitVec 4
  shr : BitVec 40
  vf : Nat
  used : Nat
  deriving DecidableEq, Repr

/-- What an open home transaction does when its snoops have been answered (R99, R100). -/
inductive TxnKind where
  | grant | fwdS | inv | fwdX | invThenFwdX | upgAck | uncachedR | uncachedW | recall | update
  deriving DecidableEq, Repr

/-- The requests that a home queues (R98): grain requests, uncached accesses, reduction elements, host snoops, label commands, and
the writes of the device itself: bytes of its tables (`poke`), a sample of a heat byte (`heat`) and a halving of one (`halve`, R74). -/
inductive HKind where
  | rds | rdx | upg | update | uread | uwrite | reduce | hostSnoop | lrd | lset | llock | lunl | lhist | poke | heat | halve
  deriving DecidableEq, Repr

/-- A request at its home: what it asks, its message, the owner's writes that a recall for it has met and that are counted before it
(R118), and whether an entry has been evicted for it (R93). -/
structure HReq where
  kind : HKind
  msg : Msg
  pre : List (Nat × Bool)
  evicted : Bool
  deriving DecidableEq, Repr

/-- The answer to an uncached access whose caller asks again until it comes (R89, R475). -/
inductive Reply where
  | waiting | data (bs : List Byte) | nak (m : Msg)
  deriving DecidableEq, Repr

/-- Such an access: who makes it (the model's own number of the caller), the agent it counts for, its grain, whether it writes, its
tag, and the answer. -/
structure Ask where
  who : Nat
  agent : Nat
  pa : Nat
  write : Bool
  tag : Nat
  reply : Reply
  deriving DecidableEq, Repr

/-- An open transaction of a grain (R98, R99): the request, what follows, the label it is served under, the agents whose answers
are outstanding, those whose write-back is still awaited (WB = 1) and those whose write-back has come (R102), whether the
requester's completion Ack is outstanding, whether an answer was dirty, the owner's writes to be counted before it (R118), and for the
WbD with KEEP = 1 of a PC owner's answer to FwdS (R124) whether it is still awaited and whether it has come. -/
structure Txn where
  pa : Nat
  gsz : Nat
  req : HReq
  kind : TxnKind
  lab : Label
  await : List Nat
  wbAwait : List Nat
  wbSeen : List Nat
  needAck : Bool
  dirty : Bool
  counts : List (Nat × Bool)
  keepAwait : Bool
  keepSeen : Bool
  deriving DecidableEq, Repr

/-- A region-table entry (R117), keyed by the region's physical page, with what a SWITCHING in progress still awaits and
what it writes at its end (R127): the answers outstanding, ASRT and LOCK to write, and the label command to answer. `closing` says
that the window's 64th transaction has been counted and its verdict is due (R120). -/
structure Region where
  page : Nat
  label : Nat
  asrt : Bool
  lock : Bool
  aag : Nat
  actx : Nat
  avf : Nat
  sw : Bool
  tgt : Nat
  cand : Nat
  cv : Bool
  txn : Nat
  closing : Bool
  fa : Nat
  oth : Bool
  lr : Nat
  lrv : Bool
  lw : Nat
  lwv : Bool
  wsr : Bool
  nwr : Nat
  rch : Nat
  rarw : Nat
  hnd : Nat
  wil : Nat
  hist : BitVec 12
  nchg : Nat
  swAwait : List (Nat × Nat)
  swAsrt : Bool
  swLock : Bool
  swCmd : Option Msg
  swOwner : Nat × Nat × Nat
  deriving DecidableEq, Repr

/-! ## The ordered worklist -/

/-- A worklist record (R195) with the context and address that name the worklist. -/
structure WlRec where
  ctx : Nat
  addr : W64
  spbase : W64
  stbase : W64
  spch : Nat
  clmask : BitVec 40
  spanmask : BitVec 16
  w : Nat
  lambda : Nat
  deriving DecidableEq, Repr

/-- An item (R198). -/
structure Item where
  payload : W64
  prio : W32
  deriving DecidableEq, Repr

/-- A spill chunk in use (R200): its index in the sub-area, its MINKEY and its COUNT. -/
structure Chunk where
  idx : Nat
  minKey : Nat
  count : Nat
  deriving DecidableEq, Repr

/-- What a shard does in its spill area, one thing at a time (R199 to R201): it spills items, one of them a push's own or some that have left the chip for
it; it reads a chunk back, while the items `out` have left the chip to take its place; or it writes these in the place of a chunk whose items it has
read. -/
inductive ShardOp where
  | spill (push : Bool) (its : List Item)
  | refill (c : Chunk) (out : List Item)
  | swap (c : Chunk) (its out : List Item)
  deriving DecidableEq, Repr

/-- A push that has not yet entered all its lanes (R207, R450): the items still to enter with their lanes, and the cores whose shards have
yet to acknowledge the LOWER of the first of them. -/
structure PushOp where
  op : Nat
  g : GRef
  items : List (Nat × Item)
  acks : List Nat
  pc : W64
  mask : Mask
  deriving DecidableEq, Repr

/-- A pop that waits (R451): its destinations (`d` is absent under the zero code), active mask and form. -/
structure PopOp where
  op : Nat
  g : GRef
  d : Option Nat
  md : Nat
  n64 : Bool
  mask : Mask
  deriving DecidableEq, Repr

/-- A shard slot of a worklist (R196, R205 to R213, R476): F, CAP, items on chip in the order they entered, its chunk list in
list order, items given in a steal and not yet confirmed (thief, items), items taken and not yet confirmed (victim), PUSH,
RET, the minimum reported to an open round and the round in which CAP was set, the stalled push, the waiting pops and the hold
counts of groups bound to it as (block, gid, key, count); whether the core's shard has read the record (R197), whether the slot's state
stands in its state slot in memory since a handover, whether a handover is under way (R217), what it does in its spill area, and the retirements
whose release is still to be performed, as group and operation (R452). -/
structure Shard where
  core : Nat
  bound : Bool
  f : Nat
  cap : Nat
  capRound : Nat
  items : List Item
  chunks : List Chunk
  given : List (Nat × List Item)
  taken : List (Nat × List Item)
  push : W64
  ret : W64
  reported : Option Nat
  lowering : Option Nat
  pushes : List PushOp
  pops : List PopOp
  holds : List (Nat × Nat × Nat × Nat)
  spillToken : Option Nat
  known : Bool
  vacated : Bool
  leaving : Bool
  doing : Option ShardOp
  rets : List (GRef × Nat)
  deriving DecidableEq, Repr

/-- A worklist (R195 to R219): its record, its shards, whether detection is armed, whether termination is declared, the open
round with its number and result, the last wave (PUSH total, RET total, all empty), whether its spill has been killed (R158), and the words of the
DATA.UE that its groups take where a shard stays unreachable (R218) or has met an error of its own. -/
structure Worklist where
  id : Nat
  wrec : WlRec
  shards : List Shard
  armed : Bool
  terminated : Bool
  round : Nat
  result : Option Nat
  roundOpen : Bool
  wave : Option (W64 × W64 × Bool)
  killed : Bool
  unreachable : Option (BitVec 256)
  deriving DecidableEq, Repr

/-! ## The package -/

/-- A Ubyozo port (R23 to R29): up or down, receive sequence number, replays of the flit now failing, the identity its peer
reported, the 48-byte slots delivered with their class, the flits received that it has yet to acknowledge and the credits it has yet to return per
class; the sender's side: next sequence number, retry buffer of flits that the peer has not acknowledged with the slots that each carries, lowest first,
the replays that its peer has asked for since the lowest of them was sent, flits on the wire in order, slots that wait for a credit as (span
device, class, slot), and the credits it holds per class; and the error counter register. -/
structure UPort where
  up : Bool
  seq : BitVec 16
  fails : Nat
  peer : W64
  delivered : List (Nat × List Byte)
  toAck : Nat
  toCredit : List Nat
  txSeq : BitVec 16
  retry : List (List Byte × List (Nat × Nat × List Byte))
  tries : Nat
  wire : List (List Byte)
  waiting : List (Nat × Nat × List Byte)
  credits : List Nat
  downCnt : Nat
  margin : Nat
  replay : Nat
  corr : Nat
  deriving DecidableEq, Repr

/-- An event that is due: not before `time` nanoseconds after module reset, nor before `cyc` thousandths of a core cycle have elapsed. -/
structure Due where
  time : Nat
  cyc : Nat
  ev : Instr
  deriving DecidableEq, Repr

/-- The engine's cached entry of the compression table (R80) for a compressed page: whether its lines are in the L2,
whether some are dirty, whether it is pinned (R77, R78), and whether CTSYNC has dropped the entry, to be read again; and the bytes,
by offset, that write-backs have brought while its lines were not there, the latest last. -/
structure CompPage where
  page : Nat
  entry : BitVec 512
  early : List (Nat × Byte)
  lines : Bool
  dirty : Bool
  pinned : Bool
  drop : Bool
  deriving DecidableEq, Repr

end Sys2Proof.Machine

namespace Sys2Proof.Machine

/-- The package (R14 to R34): lost and halted dies in the TDM layout (R16), the fuse map (physical core of each logical
position), the Ubyozo ports, span identifier and routing table (R27), the host links, the clock in force in MHz, the health
monitors (ageing, corrected errors per stack and closed windows, eye margins per port, corrected errors of the die-to-die links), their snapshot in flash, the
remaining-life register (R33), and firmware and attestation (R56, R57). -/
structure Pkg where
  powered : Bool
  mhz : Nat
  lostDies : BitVec 16
  haltDies : BitVec 16
  fuseMap : List Nat
  ports : List UPort
  spanId : Nat
  spanDev : Nat
  routes : List (BitVec 16)
  linkA : Bool
  linkB : Bool
  ageing : List Nat
  hbmErrors : List Nat
  hbmClosed : List Nat
  margins : List Nat
  linkErrors : Nat
  life : W64
  snapshot : List Nat
  fwVersion : List Nat
  fwHash : List (BitVec 256)
  fwMin : Nat
  spdmOut : List (Nat × List (BitVec 256))
  deriving DecidableEq, Repr

/-- Management and device registers: MSEM with the time its lease runs from (R37 to R39), each port's management error
register, the registers of every function, and the module registers of the PF BAR. `readOut` holds the values that reads of
read-clear registers have returned to the host, newest first. -/
structure Mgmt where
  msem : W64
  leaseFrom : Nat
  merrA : W64
  merrB : W64
  fns : List Fn
  heatctl : W64
  ltctl : W64
  schedctl : W64
  svbase : W64
  qtbase : W64
  cxbase : W64
  ctbase : W64
  ctlim : W64
  ctsyncp : W64
  halved : Bool
  pdbase : List W64
  pdmap : List W64
  dbgsel : W64
  readOut : List W64
  deriving DecidableEq, Repr

/-- The operations the cores and engines have in flight. `mops` and `windows` are keyed by core. -/
structure Eng where
  accs : List Access
  copies : List CopyCmd
  bds : List BdCmd
  mops : FMap (List MOp)
  windows : FMap (List Window)
  deriving DecidableEq, Repr

/-- A 32-byte window in the instruction buffer of a core (R311): its context and virtual window, the machine's next number when it was read, and its
bytes. -/
structure IWin where
  core : Nat
  ctx : Nat
  win : Nat
  born : Nat
  data : List Byte
  deriving DecidableEq, Repr

/-- The coherence state (R85 to R137): the instruction buffers, copies, pending requests, write-back buffers and bounce tables of the L1s and of the
other caching agents, the directories, the open transactions, the requests queued at the homes in arrival order (R98), the
stale marks as (agent, tag) (R100), the uncached accesses whose callers ask again, the region tables, the compressed pages (`stored` keeps what the sectors of a page that is not
raw stand for, their format being the implementation's), the counters Q of R71 keyed by home (256 is the pool home), and the 32-byte
sectors of memory whose error cannot be corrected (R63), which come from outside. -/
structure Coh where
  ibuf : List IWin
  l1 : List Copy
  pends : List Pending
  wbufs : List WbBuf
  bounces : List Bounce
  dir : List DirEnt
  useClock : Nat
  txns : List Txn
  homeQ : List HReq
  stale : List (Nat × Nat)
  asks : List Ask
  regions : List Region
  heatQ : FMap Nat
  comp : List CompPage
  stored : FMap (List Byte)
  compHeld : List HReq
  ue : List Nat
  deriving DecidableEq, Repr

/-- The whole machine. `mem` is memory as one sparse map over the physical space of Machine/Ops.lean (HBM, pool, host, device
pad, decompressed pages), keyed by byte. `agenda` holds the messages in flight, the completions to come and the outside
inputs; `sched` and `pace` are the model's own: plain data that says which of the moves that can come next does, and how many
nanoseconds each step takes. `mcyc` counts thousandths of a core cycle, `free` counts the free values drawn, `nextId` numbers
operations, launches and blocks. `cur` is the group and live slot that issues in this step, and `tried` those whose instruction could not issue
since anything else last happened: they are waiting (R181). -/
structure State where
  ns : Nat
  mcyc : Nat
  agenda : List Due
  sched : List Nat
  pace : List Nat
  free : Nat
  nextId : Nat
  cur : Option GRef
  tried : List GRef
  mem : FMap Byte
  pkg : Pkg
  mg : Mgmt
  queues : List Queue
  ctxs : List Ctx
  faultQs : List FaultQ
  tlbs : List TlbEnt
  launches : List Launch
  blocks : List Block
  eng : Eng
  coh : Coh
  worklists : List Worklist
  deriving DecidableEq, Repr

/-- A Ubyozo port at module reset (R29): it is up once trained. -/
def UPort.reset : UPort :=
  { up := true, seq := 0, fails := 0, peer := 0, delivered := [], toAck := 0,
    toCredit := List.replicate 6 0, txSeq := 0, retry := [], tries := 0, wire := [], waiting := [], credits := List.replicate 6 0,
    downCnt := 0, margin := 0, replay := 0, corr := 0 }

/-- The registers of a function at module reset: DWAYS, MAXSCOPE and MAXPRIO are 3 (R40), all else 0. -/
def Fn.reset : Fn :=
  { policy := 0x000000000036C000, part := 0, shootva := 0, shootn := 0, preemptc := 0, cmpRaw := 0, cmpExp := 0,
    cmpUe := 0, cmpPin := 0 }

/-- A fault queue at module reset (R150, R151): no ring until SIZE is written. -/
def FaultQ.reset : FaultQ :=
  { base := 0, tail := 0, head := 0, waiting := [], token := 0, seq := 0, filter := [], waiters := [], msix := 0 }

/-- The package at module reset (R10, R15): every die in service, the clock at 2.7 GHz (R2), logical position n of the fuse
map, which is position n mod 40 of compute die n div 40, on physical core 44 * (n div 40) + n mod 40 of the 176, which is of that die (the map
itself is DESIGN CHOICE, log entry 4). -/
def Pkg.reset : Pkg :=
  { powered := true, mhz := 2700, lostDies := 0, haltDies := 0,
    fuseMap := (List.range 160).map fun n => 44 * (n / 40) + n % 40,
    ports := List.replicate 16 UPort.reset, spanId := 0, spanDev := 0, routes := List.replicate 16 0,
    linkA := true, linkB := true, ageing := List.replicate 5 0, hbmErrors := List.replicate 8 0,
    hbmClosed := List.replicate 8 0, margins := List.replicate 16 0, linkErrors := 0, life := 0, snapshot := List.replicate 38 0, fwVersion := List.replicate 5 0,
    fwHash := List.replicate 5 0, fwMin := 0, spdmOut := [] }

/-- The management registers at module reset (R10, R37). -/
def Mgmt.reset : Mgmt :=
  { msem := 0, leaseFrom := 0, merrA := 0, merrB := 0, fns := List.replicate 65 Fn.reset, heatctl := 0, ltctl := 0,
    schedctl := 0, svbase := 0, qtbase := 0, cxbase := 0, ctbase := 0, ctlim := 0, ctsyncp := 0, halved := false,
    pdbase := List.replicate 16 0, pdmap := List.replicate 16 0, dbgsel := 0, readOut := [] }

/-- Nothing in flight. -/
def Eng.reset : Eng := { accs := [], copies := [], bds := [], mops := [], windows := [] }

/-- No copy anywhere, every region UNCL. -/
def Coh.reset : Coh :=
  { ibuf := [], l1 := [], pends := [], wbufs := [], bounces := [], dir := [], useClock := 0, txns := [], homeQ := [], stale := [], asks := [],
    regions := [], heatQ := [], comp := [], stored := [], compHeld := [], ue := [] }

/-- The machine right after module reset (R10): no context, queue, launch or block exists, and memory lists nothing. -/
def State.reset : State :=
  { ns := 0, mcyc := 0, agenda := [], sched := [], pace := [], free := 0, nextId := 1, cur := none, tried := [], mem := [],
    pkg := Pkg.reset, mg := Mgmt.reset, queues := [], ctxs := [], faultQs := List.replicate 65 FaultQ.reset, tlbs := [],
    launches := [], blocks := [], eng := Eng.reset, coh := Coh.reset, worklists := [] }

end Sys2Proof.Machine
end

