-- ==== Sys2Proof/Machine/Base.lean ====
section
/-! DEFINITION. Finding and changing the parts of the state: blocks, groups, live entries, contexts, functions, registers of a
group, the agenda, and the in-flight counters (R223, R249, R250). Every other file reads and writes the state through these. -/

namespace Sys2Proof.Machine

open Sys2Proof

/-! ## The agenda -/

/-- Make an event due after `d` nanoseconds. -/
def post (d : Nat) (ev : Instr) (s : State) : State := { s with agenda := s.agenda ++ [⟨s.ns + d, 0, ev⟩] }

/-- Make an event due when `n` core cycles have elapsed, whatever the clock does meanwhile (R3). -/
def postCycles (n : Nat) (ev : Instr) (s : State) : State := { s with agenda := s.agenda ++ [⟨s.ns, s.mcyc + 1000 * n, ev⟩] }

/-- Make several events due at once, in order. -/
def postAll (evs : List Instr) (s : State) : State := { s with agenda := s.agenda ++ evs.map fun e => ⟨s.ns, 0, e⟩ }

/-- Whether n core cycles have elapsed since `from_` (R3). -/
def cyclesPast (s : State) (n from_ : Nat) : Bool := decide (from_ + 1000 * n ≤ s.mcyc)

/-- A fresh number for an operation, launch or block. -/
def fresh (s : State) : Nat × State := (s.nextId, { s with nextId := s.nextId + 1 })

/-! ## Blocks, groups and entries -/

def blkOf (s : State) (b : Nat) : Option Block := s.blocks.find? (·.id == b)
def modBlk (b : Nat) (f : Block → Block) (s : State) : State := { s with blocks := mapIf (·.id == b) f s.blocks }
def grpIn (b : Block) (gid : Nat) : Option Group := b.groups.find? (·.gid == gid)
def grpOf (s : State) (g : GRef) : Option Group := (blkOf s g.blk).bind fun b => grpIn b g.gid
def modGrp (g : GRef) (f : Group → Group) (s : State) : State :=
  modBlk g.blk (fun b => { b with groups := mapIf (·.gid == g.gid) f b.groups }) s
def launchOf (s : State) (l : Nat) : Option Launch := s.launches.find? (·.id == l)
def modLaunch (l : Nat) (f : Launch → Launch) (s : State) : State := { s with launches := mapIf (·.id == l) f s.launches }

/-- The live slots of a stack (R223): the top entry, and the one below it when the top has SIB = 1. -/
def liveEntry (g : Group) (low : Bool) : Option Entry := match g.stack with
  | [] => none
  | [t] => if low then none else some t
  | t :: u :: _ => if low then (if t.sib then some u else none) else some t

/-- Change the entry of a live slot. -/
def modEntry (low : Bool) (f : Entry → Entry) (g : Group) : Group := match g.stack with
  | [] => g
  | [t] => if low then g else { g with stack := [f t] }
  | t :: u :: r => if low then { g with stack := t :: f u :: r } else { g with stack := f t :: u :: r }

/-- Change every entry. -/
def modEntries (f : Entry → Entry) (g : Group) : Group := { g with stack := g.stack.map f }

/-- Every group of the device, with its reference. -/
def allGroups (s : State) : List (GRef × Group) :=
  s.blocks.flatMap fun b => b.groups.map fun g => (⟨b.id, g.gid, false⟩, g)

/-- The physical numbering of R2, R89 and R196: agent number, rank, file, cluster and die of a core. -/
def coreRank (c : Nat) : Nat := c / 16
def coreFile (c : Nat) : Nat := c % 16
def coreCluster (c : Nat) : Nat := (coreRank c / 2) * 8 + coreFile c / 2
def coreDie (c : Nat) : Nat := coreFile c / 4

/-! ## Contexts, functions and queues -/

def ctxOf (s : State) (c : Nat) : Option Ctx := s.ctxs.find? (·.id == c)
def modCtx (c : Nat) (f : Ctx → Ctx) (s : State) : State := { s with ctxs := mapIf (·.id == c) f s.ctxs }
def fnOf (s : State) (f : Nat) : Fn := s.mg.fns.getD f Fn.reset
def modFn (n : Nat) (f : Fn → Fn) (s : State) : State :=
  { s with mg := { s.mg with fns := s.mg.fns.set n (f (fnOf s n)) } }
def queueOf (s : State) (q : Nat) : Option Queue := s.queues.find? (·.id == q)
def modQueue (q : Nat) (f : Queue → Queue) (s : State) : State := { s with queues := mapIf (·.id == q) f s.queues }
def fqOf (s : State) (f : Nat) : FaultQ := s.faultQs.getD f FaultQ.reset
def modFq (n : Nat) (f : FaultQ → FaultQ) (s : State) : State := { s with faultQs := s.faultQs.set n (f (fqOf s n)) }

/-! ## Registers of a group -/

/-- k register n (R328). -/
def kget (g : Group) (n : Nat) : W64 := FMap.get 0 g.k n
def kset (n : Nat) (v : W64) (g : Group) : Group := { g with k := FMap.set 0 g.k n v }

/-- Mask register n; m0 reads as all ones (R314). -/
def mget (g : Group) (n : Nat) : Mask := if n = 0 then BitVec.allOnes 64 else FMap.get 0 g.m n
def mset (n : Nat) (v : Mask) (g : Group) : Group := if n = 0 then g else { g with m := FMap.set 0 g.m n v }

/-- Lane l of vector register n. -/
def vget (g : Group) (n l : Nat) : W32 := FMap.get 0 g.v (64 * n + l)
def vset (n l : Nat) (v : W32) (g : Group) : Group := { g with v := FMap.set 0 g.v (64 * n + l) v }

/-- The 64-bit value of lane l of the pair at even register n (R5, R315). -/
def pget (g : Group) (n l : Nat) : Nat := (vget g n l).toNat + 2 ^ 32 * (vget g (n + 1) l).toNat
def pset (n l : Nat) (v : Nat) (g : Group) : Group :=
  vset (n + 1) l (BitVec.ofNat 32 (v / 2 ^ 32)) (vset n l (BitVec.ofNat 32 v) g)

/-- The registers a group holds (R231). -/
def baseRegs (r : LRec) : Nat := 8 * (r.breg + 1)

/-! ## The block slab and the accumulator (R243, R246) -/

def slabRead (b : Block) (o n : Nat) : List Byte := (List.range n).map fun i => FMap.get 0 b.slab (o + i)
def slabWrite (o : Nat) (bs : List Byte) (b : Block) : Block :=
  { b with slab := FMap.setAll 0 b.slab ((List.range bs.length).zip bs |>.map fun (i, x) => (o + i, x)) }
def accGet (b : Block) (row l : Nat) : W32 := FMap.get 0 b.acc (64 * row + l)
def accSet (row l : Nat) (v : W32) (b : Block) : Block := { b with acc := FMap.set 0 b.acc (64 * row + l) v }

/-! ## In-flight counters (R249, R250) -/

/-- CNT[p]. -/
def cnt (g : Group) (p : Nat) : Nat := (g.flights.filter (·.path == p)).length

/-- The rise of a counter at issue; no instruction of chapter 14 has one (R330). -/
def rise (p op : Nat) (g : Group) : Group := { g with flights := g.flights ++ [⟨p, op, false⟩] }

/-- Drop the leading completed operations of every path: an operation stays while one before it on its path has not
completed. -/
def fallFrom : List Nat → List Flight → List Flight
  | _, [] => []
  | blocked, f :: r =>
    if f.done && !blocked.contains f.path then fallFrom blocked r
    else f :: fallFrom (if blocked.contains f.path then blocked else f.path :: blocked) r

/-- The completion of an operation: the counter falls in issue order. -/
def complete (op : Nat) (g : Group) : Group :=
  { g with flights := fallFrom [] (mapIf (·.op == op) (fun f => { f with done := true }) g.flights) }

/-! ## Whole-mask and entry helpers -/

/-- Remove every entry whose mask is empty (R227): a removed lower live entry clears the SIB of the entry above it. -/
def dropEmpty : List Entry → List Entry
  | [] => []
  | e :: r =>
    if e.mask = 0 then dropEmpty r else
    match r with
    | u :: _ => if e.sib && u.mask == 0 then { e with sib := false } :: dropEmpty r else e :: dropEmpty r
    | [] => [e]

/-- Remove the live entries whose PC equals their RPC (R225); the bottom entry has none. `n` bounds the removals. -/
def joinLive : Nat → List Entry → List Entry
  | 0, st => st
  | n + 1, st => match st with
    | t :: u :: r =>
      if t.pc = t.rpc && t.wait = .none then joinLive n (u :: r)
      else if t.sib && u.pc = u.rpc && u.wait = .none && !r.isEmpty then joinLive n ({ t with sib := false } :: r)
      else st
    | st => st

end Sys2Proof.Machine
end

