-- ==== Sys2Proof/Machine/Regs.lean ====
section
/-! DEFINITION. The registers that an instruction names (R231, R242): those it reads, those it writes, and its stream registers.
Vector register n has code n, latch n 1536 + n, k register n 1600 + n (R314) and mask register n 2048 + n here; pairs and
multi-register operands are listed whole. Control registers and generators are listed for run-ahead (R154). Ranges that depend on a record or on FMT are left to the instruction's meaning. -/

namespace Sys2Proof.Machine

open Sys2Proof

/-- Registers read, registers written, and stream registers named. -/
structure RegUse where
  rd : List Nat
  wr : List Nat
  z : List Nat
  deriving DecidableEq, Repr

def kCd (n : Nat) : Nat := 1600 + n
def mCd (n : Nat) : Nat := 2048 + n
def kOpt : Option Nat → List Nat
  | none => []
  | some n => [kCd n]
/-- Consecutive vector registers; those beyond v1535, which no group has (R231), have codes of their own. -/
def span (n c : Nat) : List Nat := (List.range c).map fun i => if n + i < 1536 then n + i else 8192 + n + i
/-- The registers that a matrix operand of c registers reads, from its V code (R314, R424): a k register stands for all of them, and the zero and
lane codes read none. -/
def codeSpan (n c : Nat) : List Nat := if n < 1536 then span n c else if 1600 ≤ n then [n] else []
/-- The k registers among some codes. -/
def codeKs (ns : List Nat) : List Nat := ns.filter (1600 ≤ ·)
/-- Control register c (R348) has code 3000 + c here, the generator states (R288) have 3999, and 3998 stands for them where FMT.RND is SR. -/
def cCd (c : Nat) : Nat := 3000 + c

def vs (pair : Bool) : VSrc → List Nat
  | .reg n => if pair then [n, n + 1] else [n]
  | .latch n => [1536 + n]
  | .zero => []
  | .lane => []
  | .k n => [kCd n]

def vdSpan : VDst → Nat → List Nat
  | .reg n, c => span n c
  | .zero, _ => []
  | .k n, _ => [kCd n]
def vd (pair : Bool) (d : VDst) : List Nat := match d with
  | .reg n => if pair then [n, n + 1] else [n]
  | .zero => []
  | .k n => [kCd n]

def brxUse : VSrc → List Nat := vs true
def addrUse : Addr → List Nat
  | .pair n _ => [n, n + 1]
  | .base kb o _ => kCd kb :: vs false o
  | .off o _ => vs false o
def selUse : LaneSel → List Nat
  | .lane _ => []
  | .k n => [kCd n]
  | .first => []
def rowUse (r : RowOp) : List Nat := kOpt r.base
/-- What rounding under a MOD reads and writes beside the operands (R277, R288, R359): FMT, and under SR the pass length and the generators. -/
def rndRead (mod : Nat) : List Nat := if mod = 4 then [cCd 0, cCd 9, 3999] else if mod = 5 then [cCd 0, 3998] else []
def rndWrite (mod : Nat) : List Nat := if mod = 4 then [3999] else if mod = 5 then [3998] else []
def accDst : AccDst → List Nat
  | .reg _ => []
  | .mem k => [kCd k]

/-- What the issue of an instruction needs to know of it: its fields and its registers. -/
structure Sig where
  f : Fields
  u : RegUse
  deriving DecidableEq, Repr

/-! The signature of each instruction. -/

def sigNop : Sig := ⟨fldNop, ⟨[], [], []⟩⟩
def sigBra (c : Nat) (neg : Bool) (off : W32) : Sig := ⟨fldBra c neg off, ⟨[mCd c], [], []⟩⟩
def sigBrd (c : Nat) (neg : Bool) (tgt : W32) (rpc : W32) : Sig := ⟨fldBrd c neg tgt rpc, ⟨[mCd c], [], []⟩⟩
def sigBrx (a : VSrc) : Sig := ⟨fldBrx a, ⟨brxUse a, [], []⟩⟩
def sigCall (nw : Bool) (kd : Nat) (off : W32) : Sig := ⟨fldCall nw kd off, ⟨[], [kCd kd], []⟩⟩
def sigRet (ka : Nat) : Sig := ⟨fldRet ka, ⟨[kCd ka], [], []⟩⟩
def sigExit : Sig := ⟨fldExit, ⟨[], [], []⟩⟩
def sigYield : Sig := ⟨fldYield, ⟨[], [], []⟩⟩
def sigTrap (imm : W32) : Sig := ⟨fldTrap imm, ⟨[], [], []⟩⟩
def sigTret : Sig := ⟨fldTret, ⟨[], [], []⟩⟩
def sigLaunch (nw : Bool) (kd : Nat) (ka : Nat) : Sig := ⟨fldLaunch nw kd ka, ⟨[kCd ka], [kCd kd], []⟩⟩
def sigSpawn (nw : Bool) (kd : Nat) (ka : Nat) (arg : Option Nat) : Sig := ⟨fldSpawn nw kd ka arg, ⟨[kCd ka] ++ kOpt arg, [kCd kd], []⟩⟩
def sigLwait (nw : Bool) (kd : Nat) (ka : Nat) : Sig := ⟨fldLwait nw kd ka, ⟨[kCd ka], [kCd kd], []⟩⟩
def sigBar (n : Nat) (cnt : Option Nat) : Sig := ⟨fldBar n cnt, ⟨kOpt cnt, [], []⟩⟩
def sigArrive (nw : Bool) (kd : Nat) (n : Nat) (cnt : Option Nat) : Sig := ⟨fldArrive nw kd n cnt, ⟨kOpt cnt, [kCd kd], []⟩⟩
def sigAwait (n : Nat) (kp : Nat) : Sig := ⟨fldAwait n kp, ⟨[kCd kp], [], []⟩⟩
def sigCbar (n : Nat) (cnt : Option Nat) (rank : Nat) (file : Nat) : Sig := ⟨fldCbar n cnt rank file, ⟨kOpt cnt, [], []⟩⟩
def sigXacq (n : Nat) : Sig := ⟨fldXacq n, ⟨[], [], []⟩⟩
def sigXrel : Sig := ⟨fldXrel, ⟨[], [], []⟩⟩
def sigRgive (n : Nat) : Sig := ⟨fldRgive n, ⟨[], [], []⟩⟩
def sigRclaim (nw : Bool) (kd : Nat) (n : Nat) : Sig := ⟨fldRclaim nw kd n, ⟨[], [kCd kd], []⟩⟩
def sigRolesw (n : Nat) : Sig := ⟨fldRolesw n, ⟨[], [], []⟩⟩
def sigSetfmt (ka : Nat) : Sig := ⟨fldSetfmt ka, ⟨[kCd ka], [cCd 0], []⟩⟩
def sigSetfmtImm (imm : W32) : Sig := ⟨fldSetfmtImm imm, ⟨[], [cCd 0], []⟩⟩
def sigGetfmt (nw : Bool) (kd : Nat) : Sig := ⟨fldGetfmt nw kd, ⟨[cCd 0], [kCd kd], []⟩⟩
def sigCrd (nw : Bool) (kd : Nat) (c : Nat) : Sig := ⟨fldCrd nw kd c, ⟨[cCd c], [kCd kd], []⟩⟩
def sigCwr (c : Nat) (ka : Nat) : Sig := ⟨fldCwr c ka, ⟨[kCd ka], [cCd c], []⟩⟩
def sigClock (nw : Bool) (kd : Nat) : Sig := ⟨fldClock nw kd, ⟨[], [kCd kd], []⟩⟩
def sigKmov (h : Hdr) (kd : Nat) (ka : Nat) : Sig := ⟨fldKmov h kd ka, ⟨[kCd ka], [kCd kd], []⟩⟩
def sigKadd (h : Hdr) (kd : Nat) (ka : Nat) (kb : Nat) : Sig := ⟨fldKadd h kd ka kb, ⟨[kCd ka] ++ [kCd kb], [kCd kd], []⟩⟩
def sigKsub (h : Hdr) (kd : Nat) (ka : Nat) (kb : Nat) : Sig := ⟨fldKsub h kd ka kb, ⟨[kCd ka] ++ [kCd kb], [kCd kd], []⟩⟩
def sigKmul (h : Hdr) (kd : Nat) (ka : Nat) (kb : Nat) : Sig := ⟨fldKmul h kd ka kb, ⟨[kCd ka] ++ [kCd kb], [kCd kd], []⟩⟩
def sigKaddImm (h : Hdr) (kd : Nat) (ka : Nat) (imm : W32) : Sig := ⟨fldKaddImm h kd ka imm, ⟨[kCd ka], [kCd kd], []⟩⟩
def sigKsubImm (h : Hdr) (kd : Nat) (ka : Nat) (imm : W32) : Sig := ⟨fldKsubImm h kd ka imm, ⟨[kCd ka], [kCd kd], []⟩⟩
def sigKmulImm (h : Hdr) (kd : Nat) (ka : Nat) (imm : W32) : Sig := ⟨fldKmulImm h kd ka imm, ⟨[kCd ka], [kCd kd], []⟩⟩
def sigKmad (h : Hdr) (kd : Nat) (ka : Nat) (kb : Nat) (kc : Nat) : Sig := ⟨fldKmad h kd ka kb kc, ⟨[kCd ka] ++ [kCd kb] ++ [kCd kc], [kCd kd], []⟩⟩
def sigKmadImm (h : Hdr) (kd : Nat) (ka : Nat) (imm : W32) (kc : Nat) : Sig := ⟨fldKmadImm h kd ka imm kc, ⟨[kCd ka] ++ [kCd kc], [kCd kd], []⟩⟩
def sigKand (h : Hdr) (kd : Nat) (ka : Nat) (kb : Nat) : Sig := ⟨fldKand h kd ka kb, ⟨[kCd ka] ++ [kCd kb], [kCd kd], []⟩⟩
def sigKor (h : Hdr) (kd : Nat) (ka : Nat) (kb : Nat) : Sig := ⟨fldKor h kd ka kb, ⟨[kCd ka] ++ [kCd kb], [kCd kd], []⟩⟩
def sigKxor (h : Hdr) (kd : Nat) (ka : Nat) (kb : Nat) : Sig := ⟨fldKxor h kd ka kb, ⟨[kCd ka] ++ [kCd kb], [kCd kd], []⟩⟩
def sigKshl (h : Hdr) (kd : Nat) (ka : Nat) (kb : Nat) : Sig := ⟨fldKshl h kd ka kb, ⟨[kCd ka] ++ [kCd kb], [kCd kd], []⟩⟩
def sigKshr (h : Hdr) (kd : Nat) (ka : Nat) (kb : Nat) : Sig := ⟨fldKshr h kd ka kb, ⟨[kCd ka] ++ [kCd kb], [kCd kd], []⟩⟩
def sigKsra (h : Hdr) (kd : Nat) (ka : Nat) (kb : Nat) : Sig := ⟨fldKsra h kd ka kb, ⟨[kCd ka] ++ [kCd kb], [kCd kd], []⟩⟩
def sigKandImm (h : Hdr) (kd : Nat) (ka : Nat) (imm : W32) : Sig := ⟨fldKandImm h kd ka imm, ⟨[kCd ka], [kCd kd], []⟩⟩
def sigKorImm (h : Hdr) (kd : Nat) (ka : Nat) (imm : W32) : Sig := ⟨fldKorImm h kd ka imm, ⟨[kCd ka], [kCd kd], []⟩⟩
def sigKxorImm (h : Hdr) (kd : Nat) (ka : Nat) (imm : W32) : Sig := ⟨fldKxorImm h kd ka imm, ⟨[kCd ka], [kCd kd], []⟩⟩
def sigKshlImm (h : Hdr) (kd : Nat) (ka : Nat) (imm : W32) : Sig := ⟨fldKshlImm h kd ka imm, ⟨[kCd ka], [kCd kd], []⟩⟩
def sigKshrImm (h : Hdr) (kd : Nat) (ka : Nat) (imm : W32) : Sig := ⟨fldKshrImm h kd ka imm, ⟨[kCd ka], [kCd kd], []⟩⟩
def sigKsraImm (h : Hdr) (kd : Nat) (ka : Nat) (imm : W32) : Sig := ⟨fldKsraImm h kd ka imm, ⟨[kCd ka], [kCd kd], []⟩⟩
def sigKmin (h : Hdr) (kd : Nat) (ka : Nat) (kb : Nat) : Sig := ⟨fldKmin h kd ka kb, ⟨[kCd ka] ++ [kCd kb], [kCd kd], []⟩⟩
def sigKmax (h : Hdr) (kd : Nat) (ka : Nat) (kb : Nat) : Sig := ⟨fldKmax h kd ka kb, ⟨[kCd ka] ++ [kCd kb], [kCd kd], []⟩⟩
def sigKminImm (h : Hdr) (kd : Nat) (ka : Nat) (imm : W32) : Sig := ⟨fldKminImm h kd ka imm, ⟨[kCd ka], [kCd kd], []⟩⟩
def sigKmaxImm (h : Hdr) (kd : Nat) (ka : Nat) (imm : W32) : Sig := ⟨fldKmaxImm h kd ka imm, ⟨[kCd ka], [kCd kd], []⟩⟩
def sigKcmp (h : Hdr) (kd : Nat) (ka : Nat) (kb : Nat) : Sig := ⟨fldKcmp h kd ka kb, ⟨[kCd ka] ++ [kCd kb], [kCd kd], []⟩⟩
def sigKcmpImm (h : Hdr) (kd : Nat) (ka : Nat) (imm : W32) : Sig := ⟨fldKcmpImm h kd ka imm, ⟨[kCd ka], [kCd kd], []⟩⟩
def sigKsel (h : Hdr) (kd : Nat) (ka : Nat) (kb : Nat) (kc : Nat) : Sig := ⟨fldKsel h kd ka kb kc, ⟨[kCd ka] ++ [kCd kb] ++ [kCd kc], [kCd kd], []⟩⟩
def sigKlea (h : Hdr) (kd : Nat) (ka : Nat) (kb : Nat) (sh : Nat) (disp : Nat) : Sig := ⟨fldKlea h kd ka kb sh disp, ⟨[kCd ka] ++ [kCd kb], [kCd kd], []⟩⟩
def sigKpopc (h : Hdr) (kd : Nat) (ka : Nat) : Sig := ⟨fldKpopc h kd ka, ⟨[kCd ka], [kCd kd], []⟩⟩
def sigKclz (h : Hdr) (kd : Nat) (ka : Nat) : Sig := ⟨fldKclz h kd ka, ⟨[kCd ka], [kCd kd], []⟩⟩
def sigKli (h : Hdr) (kd : Nat) (imm : W32) : Sig := ⟨fldKli h kd imm, ⟨[], [kCd kd], []⟩⟩
def sigKli64 (h : Hdr) (kd : Nat) (imm : W64) : Sig := ⟨fldKli64 h kd imm, ⟨[], [kCd kd], []⟩⟩
def sigKfromv (h : Hdr) (kd : Nat) (va : Nat) (sel : LaneSel) : Sig := ⟨fldKfromv h kd va sel, ⟨span va (if h.ty.pair then 2 else 1) ++ selUse sel, [kCd kd], []⟩⟩
def sigAdd (h : Hdr) (d : VDst) (a : VSrc) (b : VSrc) : Sig := ⟨fldAdd h d a b, ⟨vs h.ty.pair a ++ vs h.ty.pair b ++ [mCd h.msk], vd h.ty.pair d, []⟩⟩
def sigAddImm (h : Hdr) (d : VDst) (a : VSrc) (imm : W32) : Sig := ⟨fldAddImm h d a imm, ⟨vs h.ty.pair a ++ [mCd h.msk], vd h.ty.pair d, []⟩⟩
def sigAddc (h : Hdr) (d : VDst) (a : VSrc) (b : VSrc) (cin : Nat) (cout : Nat) : Sig := ⟨fldAddc h d a b cin cout, ⟨vs h.ty.pair a ++ vs h.ty.pair b ++ [mCd cin] ++ [mCd h.msk], vd h.ty.pair d ++ [mCd cout], []⟩⟩
def sigSub (h : Hdr) (d : VDst) (a : VSrc) (b : VSrc) : Sig := ⟨fldSub h d a b, ⟨vs h.ty.pair a ++ vs h.ty.pair b ++ [mCd h.msk], vd h.ty.pair d, []⟩⟩
def sigMul (h : Hdr) (d : VDst) (a : VSrc) (b : VSrc) : Sig := ⟨fldMul h d a b, ⟨vs h.ty.pair a ++ vs h.ty.pair b ++ [mCd h.msk], vd h.ty.pair d, []⟩⟩
def sigSubImm (h : Hdr) (d : VDst) (a : VSrc) (imm : W32) : Sig := ⟨fldSubImm h d a imm, ⟨vs h.ty.pair a ++ [mCd h.msk], vd h.ty.pair d, []⟩⟩
def sigMulImm (h : Hdr) (d : VDst) (a : VSrc) (imm : W32) : Sig := ⟨fldMulImm h d a imm, ⟨vs h.ty.pair a ++ [mCd h.msk], vd h.ty.pair d, []⟩⟩
def sigMulh (h : Hdr) (d : VDst) (a : VSrc) (b : VSrc) : Sig := ⟨fldMulh h d a b, ⟨vs h.ty.pair a ++ vs h.ty.pair b ++ [mCd h.msk], vd h.ty.pair d, []⟩⟩
def sigMulhImm (h : Hdr) (d : VDst) (a : VSrc) (imm : W32) : Sig := ⟨fldMulhImm h d a imm, ⟨vs h.ty.pair a ++ [mCd h.msk], vd h.ty.pair d, []⟩⟩
def sigMad (h : Hdr) (d : VDst) (a : VSrc) (b : VSrc) (c : VSrc) : Sig := ⟨fldMad h d a b c, ⟨vs h.ty.pair a ++ vs h.ty.pair b ++ vs h.ty.pair c ++ [mCd h.msk], vd h.ty.pair d, []⟩⟩
def sigMadImm (h : Hdr) (d : VDst) (a : VSrc) (imm : W32) (c : VSrc) : Sig := ⟨fldMadImm h d a imm c, ⟨vs h.ty.pair a ++ vs h.ty.pair c ++ [mCd h.msk], vd h.ty.pair d, []⟩⟩
def sigAbs (h : Hdr) (d : VDst) (a : VSrc) : Sig := ⟨fldAbs h d a, ⟨vs h.ty.pair a ++ [mCd h.msk], vd h.ty.pair d, []⟩⟩
def sigAnd (h : Hdr) (d : VDst) (a : VSrc) (b : VSrc) : Sig := ⟨fldAnd h d a b, ⟨vs h.ty.pair a ++ vs h.ty.pair b ++ [mCd h.msk], vd h.ty.pair d, []⟩⟩
def sigOr (h : Hdr) (d : VDst) (a : VSrc) (b : VSrc) : Sig := ⟨fldOr h d a b, ⟨vs h.ty.pair a ++ vs h.ty.pair b ++ [mCd h.msk], vd h.ty.pair d, []⟩⟩
def sigXor (h : Hdr) (d : VDst) (a : VSrc) (b : VSrc) : Sig := ⟨fldXor h d a b, ⟨vs h.ty.pair a ++ vs h.ty.pair b ++ [mCd h.msk], vd h.ty.pair d, []⟩⟩
def sigAndImm (h : Hdr) (d : VDst) (a : VSrc) (imm : W32) : Sig := ⟨fldAndImm h d a imm, ⟨vs h.ty.pair a ++ [mCd h.msk], vd h.ty.pair d, []⟩⟩
def sigOrImm (h : Hdr) (d : VDst) (a : VSrc) (imm : W32) : Sig := ⟨fldOrImm h d a imm, ⟨vs h.ty.pair a ++ [mCd h.msk], vd h.ty.pair d, []⟩⟩
def sigXorImm (h : Hdr) (d : VDst) (a : VSrc) (imm : W32) : Sig := ⟨fldXorImm h d a imm, ⟨vs h.ty.pair a ++ [mCd h.msk], vd h.ty.pair d, []⟩⟩
def sigLop3 (h : Hdr) (d : VDst) (a : VSrc) (b : VSrc) (c : VSrc) (tbl : BitVec 8) : Sig := ⟨fldLop3 h d a b c tbl, ⟨vs h.ty.pair a ++ vs h.ty.pair b ++ vs h.ty.pair c ++ [mCd h.msk], vd h.ty.pair d, []⟩⟩
def sigShl (h : Hdr) (d : VDst) (a : VSrc) (b : VSrc) : Sig := ⟨fldShl h d a b, ⟨vs h.ty.pair a ++ vs h.ty.pair b ++ [mCd h.msk], vd h.ty.pair d, []⟩⟩
def sigShr (h : Hdr) (d : VDst) (a : VSrc) (b : VSrc) : Sig := ⟨fldShr h d a b, ⟨vs h.ty.pair a ++ vs h.ty.pair b ++ [mCd h.msk], vd h.ty.pair d, []⟩⟩
def sigSra (h : Hdr) (d : VDst) (a : VSrc) (b : VSrc) : Sig := ⟨fldSra h d a b, ⟨vs h.ty.pair a ++ vs h.ty.pair b ++ [mCd h.msk], vd h.ty.pair d, []⟩⟩
def sigShlImm (h : Hdr) (d : VDst) (a : VSrc) (imm : W32) : Sig := ⟨fldShlImm h d a imm, ⟨vs h.ty.pair a ++ [mCd h.msk], vd h.ty.pair d, []⟩⟩
def sigShrImm (h : Hdr) (d : VDst) (a : VSrc) (imm : W32) : Sig := ⟨fldShrImm h d a imm, ⟨vs h.ty.pair a ++ [mCd h.msk], vd h.ty.pair d, []⟩⟩
def sigSraImm (h : Hdr) (d : VDst) (a : VSrc) (imm : W32) : Sig := ⟨fldSraImm h d a imm, ⟨vs h.ty.pair a ++ [mCd h.msk], vd h.ty.pair d, []⟩⟩
def sigMin (h : Hdr) (d : VDst) (a : VSrc) (b : VSrc) : Sig := ⟨fldMin h d a b, ⟨vs h.ty.pair a ++ vs h.ty.pair b ++ [mCd h.msk], vd h.ty.pair d, []⟩⟩
def sigMax (h : Hdr) (d : VDst) (a : VSrc) (b : VSrc) : Sig := ⟨fldMax h d a b, ⟨vs h.ty.pair a ++ vs h.ty.pair b ++ [mCd h.msk], vd h.ty.pair d, []⟩⟩
def sigMinImm (h : Hdr) (d : VDst) (a : VSrc) (imm : W32) : Sig := ⟨fldMinImm h d a imm, ⟨vs h.ty.pair a ++ [mCd h.msk], vd h.ty.pair d, []⟩⟩
def sigMaxImm (h : Hdr) (d : VDst) (a : VSrc) (imm : W32) : Sig := ⟨fldMaxImm h d a imm, ⟨vs h.ty.pair a ++ [mCd h.msk], vd h.ty.pair d, []⟩⟩
def sigCmp (h : Hdr) (md : Nat) (a : VSrc) (b : VSrc) : Sig := ⟨fldCmp h md a b, ⟨vs h.ty.pair a ++ vs h.ty.pair b ++ [mCd h.msk], [mCd md], []⟩⟩
def sigCmpImm (h : Hdr) (md : Nat) (a : VSrc) (imm : W32) : Sig := ⟨fldCmpImm h md a imm, ⟨vs h.ty.pair a ++ [mCd h.msk], [mCd md], []⟩⟩
def sigSel (h : Hdr) (d : VDst) (a : VSrc) (b : VSrc) (mc : Nat) : Sig := ⟨fldSel h d a b mc, ⟨vs h.ty.pair a ++ vs h.ty.pair b ++ [mCd mc] ++ [mCd h.msk], vd h.ty.pair d, []⟩⟩
def sigMov (h : Hdr) (d : VDst) (a : VSrc) : Sig := ⟨fldMov h d a, ⟨vs h.ty.pair a ++ [mCd h.msk], vd h.ty.pair d, []⟩⟩
def sigMovImm (h : Hdr) (d : VDst) (imm : W32) : Sig := ⟨fldMovImm h d imm, ⟨[mCd h.msk], vd h.ty.pair d, []⟩⟩
def sigMovk (h : Hdr) (d : VDst) (kv : Nat) (kl : Nat) : Sig := ⟨fldMovk h d kv kl, ⟨[kCd kv] ++ [kCd kl] ++ [mCd h.msk], vd h.ty.pair d, []⟩⟩
def sigPopc (h : Hdr) (d : VDst) (a : VSrc) : Sig := ⟨fldPopc h d a, ⟨vs h.ty.pair a ++ [mCd h.msk], vd h.ty.pair d, []⟩⟩
def sigClz (h : Hdr) (d : VDst) (a : VSrc) : Sig := ⟨fldClz h d a, ⟨vs h.ty.pair a ++ [mCd h.msk], vd h.ty.pair d, []⟩⟩
def sigBrev (h : Hdr) (d : VDst) (a : VSrc) : Sig := ⟨fldBrev h d a, ⟨vs h.ty.pair a ++ [mCd h.msk], vd h.ty.pair d, []⟩⟩
def sigBfe (h : Hdr) (d : VDst) (a : VSrc) (b : VSrc) : Sig := ⟨fldBfe h d a b, ⟨vs h.ty.pair a ++ vs h.ty.pair b ++ [mCd h.msk], vd h.ty.pair d, []⟩⟩
def sigBfeImm (h : Hdr) (d : VDst) (a : VSrc) (imm : W32) : Sig := ⟨fldBfeImm h d a imm, ⟨vs h.ty.pair a ++ [mCd h.msk], vd h.ty.pair d, []⟩⟩
def sigBfi (h : Hdr) (d : VDst) (a : VSrc) (b : VSrc) (c : VSrc) : Sig := ⟨fldBfi h d a b c, ⟨vs h.ty.pair a ++ vs h.ty.pair b ++ vs h.ty.pair c ++ [mCd h.msk], vd h.ty.pair d, []⟩⟩
def sigBfiImm (h : Hdr) (d : VDst) (a : VSrc) (imm : W32) (c : VSrc) : Sig := ⟨fldBfiImm h d a imm c, ⟨vs h.ty.pair a ++ vs h.ty.pair c ++ [mCd h.msk], vd h.ty.pair d, []⟩⟩
def sigFadd (h : Hdr) (d : VDst) (a : VSrc) (b : VSrc) : Sig := ⟨fldFadd h d a b, ⟨vs h.ty.pair a ++ vs h.ty.pair b ++ [mCd h.msk] ++ rndRead h.mod, vd h.ty.pair d ++ rndWrite h.mod, []⟩⟩
def sigFsub (h : Hdr) (d : VDst) (a : VSrc) (b : VSrc) : Sig := ⟨fldFsub h d a b, ⟨vs h.ty.pair a ++ vs h.ty.pair b ++ [mCd h.msk] ++ rndRead h.mod, vd h.ty.pair d ++ rndWrite h.mod, []⟩⟩
def sigFmul (h : Hdr) (d : VDst) (a : VSrc) (b : VSrc) : Sig := ⟨fldFmul h d a b, ⟨vs h.ty.pair a ++ vs h.ty.pair b ++ [mCd h.msk] ++ rndRead h.mod, vd h.ty.pair d ++ rndWrite h.mod, []⟩⟩
def sigFaddImm (h : Hdr) (d : VDst) (a : VSrc) (imm : W32) : Sig := ⟨fldFaddImm h d a imm, ⟨vs h.ty.pair a ++ [mCd h.msk] ++ rndRead h.mod, vd h.ty.pair d ++ rndWrite h.mod, []⟩⟩
def sigFsubImm (h : Hdr) (d : VDst) (a : VSrc) (imm : W32) : Sig := ⟨fldFsubImm h d a imm, ⟨vs h.ty.pair a ++ [mCd h.msk] ++ rndRead h.mod, vd h.ty.pair d ++ rndWrite h.mod, []⟩⟩
def sigFmulImm (h : Hdr) (d : VDst) (a : VSrc) (imm : W32) : Sig := ⟨fldFmulImm h d a imm, ⟨vs h.ty.pair a ++ [mCd h.msk] ++ rndRead h.mod, vd h.ty.pair d ++ rndWrite h.mod, []⟩⟩
def sigFma (h : Hdr) (d : VDst) (a : VSrc) (b : VSrc) (c : VSrc) : Sig := ⟨fldFma h d a b c, ⟨vs h.ty.pair a ++ vs h.ty.pair b ++ vs h.ty.pair c ++ [mCd h.msk] ++ rndRead h.mod, vd h.ty.pair d ++ rndWrite h.mod, []⟩⟩
def sigFmaImm (h : Hdr) (d : VDst) (a : VSrc) (imm : W32) (c : VSrc) : Sig := ⟨fldFmaImm h d a imm c, ⟨vs h.ty.pair a ++ vs h.ty.pair c ++ [mCd h.msk] ++ rndRead h.mod, vd h.ty.pair d ++ rndWrite h.mod, []⟩⟩
def sigFmin (h : Hdr) (d : VDst) (a : VSrc) (b : VSrc) : Sig := ⟨fldFmin h d a b, ⟨vs h.ty.pair a ++ vs h.ty.pair b ++ [mCd h.msk], vd h.ty.pair d, []⟩⟩
def sigFmax (h : Hdr) (d : VDst) (a : VSrc) (b : VSrc) : Sig := ⟨fldFmax h d a b, ⟨vs h.ty.pair a ++ vs h.ty.pair b ++ [mCd h.msk], vd h.ty.pair d, []⟩⟩
def sigFminImm (h : Hdr) (d : VDst) (a : VSrc) (imm : W32) : Sig := ⟨fldFminImm h d a imm, ⟨vs h.ty.pair a ++ [mCd h.msk], vd h.ty.pair d, []⟩⟩
def sigFmaxImm (h : Hdr) (d : VDst) (a : VSrc) (imm : W32) : Sig := ⟨fldFmaxImm h d a imm, ⟨vs h.ty.pair a ++ [mCd h.msk], vd h.ty.pair d, []⟩⟩
def sigFcmp (h : Hdr) (md : Nat) (a : VSrc) (b : VSrc) : Sig := ⟨fldFcmp h md a b, ⟨vs h.ty.pair a ++ vs h.ty.pair b ++ [mCd h.msk], [mCd md], []⟩⟩
def sigFcmpImm (h : Hdr) (md : Nat) (a : VSrc) (imm : W32) : Sig := ⟨fldFcmpImm h md a imm, ⟨vs h.ty.pair a ++ [mCd h.msk], [mCd md], []⟩⟩
def sigFclass (h : Hdr) (d : VDst) (a : VSrc) : Sig := ⟨fldFclass h d a, ⟨vs h.ty.pair a ++ [mCd h.msk], vd h.ty.pair d, []⟩⟩
def sigFscale (h : Hdr) (d : VDst) (a : VSrc) (b : VSrc) : Sig := ⟨fldFscale h d a b, ⟨vs h.ty.pair a ++ vs h.ty.pair b ++ [mCd h.msk] ++ rndRead h.mod, vd h.ty.pair d ++ rndWrite h.mod, []⟩⟩
def sigFscaleImm (h : Hdr) (d : VDst) (a : VSrc) (imm : W32) : Sig := ⟨fldFscaleImm h d a imm, ⟨vs h.ty.pair a ++ [mCd h.msk] ++ rndRead h.mod, vd h.ty.pair d ++ rndWrite h.mod, []⟩⟩
def sigFrnd (h : Hdr) (d : VDst) (a : VSrc) : Sig := ⟨fldFrnd h d a, ⟨vs h.ty.pair a ++ [mCd h.msk] ++ rndRead h.mod, vd h.ty.pair d ++ rndWrite h.mod, []⟩⟩
def sigFrcp (h : Hdr) (d : VDst) (a : VSrc) : Sig := ⟨fldFrcp h d a, ⟨vs h.ty.pair a ++ [mCd h.msk] ++ rndRead h.mod, vd h.ty.pair d ++ rndWrite h.mod, []⟩⟩
def sigFsqrt (h : Hdr) (d : VDst) (a : VSrc) : Sig := ⟨fldFsqrt h d a, ⟨vs h.ty.pair a ++ [mCd h.msk] ++ rndRead h.mod, vd h.ty.pair d ++ rndWrite h.mod, []⟩⟩
def sigFrsq (h : Hdr) (d : VDst) (a : VSrc) : Sig := ⟨fldFrsq h d a, ⟨vs h.ty.pair a ++ [mCd h.msk] ++ rndRead h.mod, vd h.ty.pair d ++ rndWrite h.mod, []⟩⟩
def sigFexp2 (h : Hdr) (d : VDst) (a : VSrc) : Sig := ⟨fldFexp2 h d a, ⟨vs h.ty.pair a ++ [mCd h.msk] ++ rndRead h.mod, vd h.ty.pair d ++ rndWrite h.mod, []⟩⟩
def sigFlog2 (h : Hdr) (d : VDst) (a : VSrc) : Sig := ⟨fldFlog2 h d a, ⟨vs h.ty.pair a ++ [mCd h.msk] ++ rndRead h.mod, vd h.ty.pair d ++ rndWrite h.mod, []⟩⟩
def sigCvt (h : Hdr) (d : VDst) (a : VSrc) (src : Ty) (elem : Nat) : Sig := ⟨fldCvt h d a src elem, ⟨vs src.pair a ++ (if src.elems < h.ty.elems then vd false d else []) ++ [mCd h.msk] ++ (if h.ty = .l6 then [] else rndRead h.mod), vd h.ty.pair d ++ (if h.ty = .l6 then [] else rndWrite h.mod), []⟩⟩
def sigLpack (h : Hdr) (d : VDst) (va : Nat) (src : Ty) : Sig := ⟨fldLpack h d va src, ⟨span va (if src = .f32 then 16 else if src = .l6 then 4 else 8) ++ [mCd h.msk], vdSpan d 3, []⟩⟩
def sigLunpk (h : Hdr) (d : VDst) (va : Nat) : Sig := ⟨fldLunpk h d va, ⟨span va 3 ++ [mCd h.msk], vdSpan d (if h.ty = .f32 then 16 else 4), []⟩⟩
def sigShfl (h : Hdr) (d : VDst) (a : VSrc) (b : VSrc) : Sig := ⟨fldShfl h d a b, ⟨vs h.ty.pair a ++ vs h.ty.pair b ++ [mCd h.msk], vd h.ty.pair d, []⟩⟩
def sigShflImm (h : Hdr) (d : VDst) (a : VSrc) (imm : W32) : Sig := ⟨fldShflImm h d a imm, ⟨vs h.ty.pair a ++ [mCd h.msk], vd h.ty.pair d, []⟩⟩
def sigBcast (h : Hdr) (d : VDst) (a : VSrc) (kl : Nat) : Sig := ⟨fldBcast h d a kl, ⟨vs h.ty.pair a ++ [kCd kl] ++ [mCd h.msk], vd h.ty.pair d, []⟩⟩
def sigBcastImm (h : Hdr) (d : VDst) (a : VSrc) (imm : W32) : Sig := ⟨fldBcastImm h d a imm, ⟨vs h.ty.pair a ++ [mCd h.msk], vd h.ty.pair d, []⟩⟩
/-- The metadata register of compress: code 1539 discards the metadata (R314). -/
def metaDst (vm : Nat) : VDst := if vm = 1539 then .zero else .reg vm
def sigCompress (h : Hdr) (d : VDst) (a : VSrc) (b : VSrc) (vm : Nat) (slot : Nat) : Sig := ⟨fldCompress h d a b vm slot, ⟨vs false a ++ vs false b ++ vd false (metaDst vm) ++ [mCd h.msk], vd false d ++ vd false (metaDst vm), []⟩⟩
def sigExpand (h : Hdr) (d : VDst) (a : VSrc) (vm : VSrc) (slot : Nat) : Sig := ⟨fldExpand h d a vm slot, ⟨vs false a ++ vs false vm ++ [mCd h.msk], vdSpan d 2, []⟩⟩
def sigRedadd (h : Hdr) (d : VDst) (a : VSrc) : Sig := ⟨fldRedadd h d a, ⟨vs h.ty.pair a ++ [mCd h.msk] ++ (if h.ty = .f32 then rndRead h.mod else []), vd h.ty.pair d ++ (if h.ty = .f32 then rndWrite h.mod else []), []⟩⟩
def sigRedmin (h : Hdr) (d : VDst) (a : VSrc) : Sig := ⟨fldRedmin h d a, ⟨vs h.ty.pair a ++ [mCd h.msk], vd h.ty.pair d, []⟩⟩
def sigRedmax (h : Hdr) (d : VDst) (a : VSrc) : Sig := ⟨fldRedmax h d a, ⟨vs h.ty.pair a ++ [mCd h.msk], vd h.ty.pair d, []⟩⟩
def sigRedand (h : Hdr) (d : VDst) (a : VSrc) : Sig := ⟨fldRedand h d a, ⟨vs h.ty.pair a ++ [mCd h.msk], vd h.ty.pair d, []⟩⟩
def sigRedor (h : Hdr) (d : VDst) (a : VSrc) : Sig := ⟨fldRedor h d a, ⟨vs h.ty.pair a ++ [mCd h.msk], vd h.ty.pair d, []⟩⟩
def sigRedxor (h : Hdr) (d : VDst) (a : VSrc) : Sig := ⟨fldRedxor h d a, ⟨vs h.ty.pair a ++ [mCd h.msk], vd h.ty.pair d, []⟩⟩
def sigScan (h : Hdr) (d : VDst) (a : VSrc) : Sig := ⟨fldScan h d a, ⟨vs h.ty.pair a ++ [mCd h.msk] ++ (if h.ty = .f32 ∧ h.mod % 8 = 0 then rndRead 5 else []), vd h.ty.pair d ++ (if h.ty = .f32 ∧ h.mod % 8 = 0 then rndWrite 5 else []), []⟩⟩
def sigRedminIndex (h : Hdr) (d : VDst) (di : VDst) (a : VSrc) (b : VSrc) : Sig := ⟨fldRedminIndex h d di a b, ⟨vs h.ty.pair a ++ vs h.ty.pair b ++ [mCd h.msk], vd h.ty.pair d ++ vd h.ty.pair di, []⟩⟩
def sigRedmaxIndex (h : Hdr) (d : VDst) (di : VDst) (a : VSrc) (b : VSrc) : Sig := ⟨fldRedmaxIndex h d di a b, ⟨vs h.ty.pair a ++ vs h.ty.pair b ++ [mCd h.msk], vd h.ty.pair d ++ vd h.ty.pair di, []⟩⟩
def sigBallot (h : Hdr) (kd : Nat) (a : VSrc) : Sig := ⟨fldBallot h kd a, ⟨vs h.ty.pair a ++ [mCd h.msk], [kCd kd], []⟩⟩
def sigVany (h : Hdr) (kd : Nat) (a : VSrc) : Sig := ⟨fldVany h kd a, ⟨vs h.ty.pair a ++ [mCd h.msk], [kCd kd], []⟩⟩
def sigVall (h : Hdr) (kd : Nat) (a : VSrc) : Sig := ⟨fldVall h kd a, ⟨vs h.ty.pair a ++ [mCd h.msk], [kCd kd], []⟩⟩
def sigElect (h : Hdr) (md : Nat) (ms : Nat) : Sig := ⟨fldElect h md ms, ⟨[mCd ms] ++ [mCd h.msk], [mCd md], []⟩⟩
def sigMcnt (h : Hdr) (kd : Nat) (ms : Nat) : Sig := ⟨fldMcnt h kd ms, ⟨[mCd ms] ++ [mCd h.msk], [kCd kd], []⟩⟩
def sigMlog (h : Hdr) (md : Nat) (ma : Nat) (mb : Nat) : Sig := ⟨fldMlog h md ma mb, ⟨[mCd ma] ++ [mCd mb] ++ [mCd h.msk], [mCd md], []⟩⟩
def sigLdg (h : Hdr) (d : VDst) (ad : Addr) (scope : Nat) : Sig := ⟨fldLdg h d ad scope, ⟨addrUse ad ++ [mCd h.msk], vd h.ty.pair d, []⟩⟩
def sigStg (h : Hdr) (ad : Addr) (b : VSrc) (scope : Nat) : Sig := ⟨fldStg h ad b scope, ⟨addrUse ad ++ vs h.ty.pair b ++ [mCd h.msk], [], []⟩⟩
def sigPref (h : Hdr) (ad : Addr) : Sig := ⟨fldPref h ad, ⟨addrUse ad ++ [mCd h.msk], [], []⟩⟩
def sigLds (h : Hdr) (d : VDst) (ad : Addr) : Sig := ⟨fldLds h d ad, ⟨addrUse ad ++ [mCd h.msk], vd h.ty.pair d, []⟩⟩
def sigSts (h : Hdr) (ad : Addr) (b : VSrc) : Sig := ⟨fldSts h ad b, ⟨addrUse ad ++ vs h.ty.pair b ++ [mCd h.msk], [], []⟩⟩
def sigLdc (h : Hdr) (d : VDst) (off : VSrc) (disp : Nat) (rank : Nat) (file : Nat) (scope : Nat) : Sig := ⟨fldLdc h d off disp rank file scope, ⟨vs false off ++ [mCd h.msk], vd h.ty.pair d, []⟩⟩
def sigStc (h : Hdr) (off : VSrc) (disp : Nat) (rank : Nat) (file : Nat) (b : VSrc) (scope : Nat) : Sig := ⟨fldStc h off disp rank file b scope, ⟨vs false off ++ vs h.ty.pair b ++ [mCd h.msk], [], []⟩⟩
def sigLdd (h : Hdr) (d : VDst) (ad : Addr) (scope : Nat) : Sig := ⟨fldLdd h d ad scope, ⟨addrUse ad ++ [mCd h.msk], vd h.ty.pair d, []⟩⟩
def sigStd (h : Hdr) (ad : Addr) (b : VSrc) (scope : Nat) : Sig := ⟨fldStd h ad b scope, ⟨addrUse ad ++ vs h.ty.pair b ++ [mCd h.msk], [], []⟩⟩
def sigLdl (h : Hdr) (d : VDst) (ad : Addr) : Sig := ⟨fldLdl h d ad, ⟨addrUse ad ++ [mCd h.msk], vd h.ty.pair d, []⟩⟩
def sigStl (h : Hdr) (ad : Addr) (b : VSrc) : Sig := ⟨fldStl h ad b, ⟨addrUse ad ++ vs h.ty.pair b ++ [mCd h.msk], [], []⟩⟩
def sigAtom (h : Hdr) (d : VDst) (ad : Addr) (b : VSrc) (aop : Nat) (scope : Nat) : Sig := ⟨fldAtom h d ad b aop scope, ⟨addrUse ad ++ vs h.ty.pair b ++ [mCd h.msk], vd h.ty.pair d, []⟩⟩
def sigAtomc (h : Hdr) (d : VDst) (ad : Addr) (b : VSrc) (c : VSrc) (scope : Nat) : Sig := ⟨fldAtomc h d ad b c scope, ⟨addrUse ad ++ vs h.ty.pair b ++ vs h.ty.pair c ++ [mCd h.msk], vd h.ty.pair d, []⟩⟩
def sigRed (h : Hdr) (ad : Addr) (b : VSrc) (aop : Nat) (scope : Nat) : Sig := ⟨fldRed h ad b aop scope, ⟨addrUse ad ++ vs h.ty.pair b ++ [mCd h.msk], [], []⟩⟩
def sigAtoms (h : Hdr) (ad : Addr) (b : VSrc) (scope : Nat) : Sig := ⟨fldAtoms h ad b scope, ⟨addrUse ad ++ vs h.ty.pair b ++ [mCd h.msk], [], []⟩⟩
def sigFence (sc : Bool) (p : Nat) (q : Nat) (scope : Nat) : Sig := ⟨fldFence sc p q scope, ⟨[], [], []⟩⟩
def sigOfence : Sig := ⟨fldOfence, ⟨[], [], []⟩⟩
def sigWaitp (p : Nat) (kn : Nat) : Sig := ⟨fldWaitp p kn, ⟨[kCd kn], [], []⟩⟩
def sigCflush (h : Hdr) (ad : Addr) : Sig := ⟨fldCflush h ad, ⟨addrUse ad ++ [mCd h.msk], [], []⟩⟩
def sigCinv (h : Hdr) (ad : Addr) : Sig := ⟨fldCinv h ad, ⟨addrUse ad ++ [mCd h.msk], [], []⟩⟩
def sigTcopy (nw : Bool) (d : Option Nat) (krec : Nat) : Sig := ⟨fldTcopy nw d krec, ⟨[kCd krec], [], []⟩⟩
def sigTstore (krec : Nat) (vs : Nat) : Sig := ⟨fldTstore krec vs, ⟨[kCd krec], [], []⟩⟩
def sigTfill (krec : Nat) (kval : Nat) : Sig := ⟨fldTfill krec kval, ⟨[kCd krec] ++ [kCd kval], [], []⟩⟩
def sigBdgather (kd : Nat) (ka : Nat) (kl : Nat) (kc : Nat) (rsz : Nat) (iw : Bool) : Sig := ⟨fldBdgather kd ka kl kc rsz iw, ⟨[kCd kd, kCd ka, kCd kl, kCd kc], [], []⟩⟩
def sigBdscat (kd : Nat) (ka : Nat) (kl : Nat) (kc : Nat) (rsz : Nat) (iw : Bool) : Sig := ⟨fldBdscat kd ka kl kc rsz iw, ⟨[kCd kd, kCd ka, kCd kl, kCd kc], [], []⟩⟩
def sigBdred (ty : Ty) (kd : Nat) (ka : Nat) (kl : Option Nat) (kc : Nat) (rsz : Nat) (iw : Bool) (rop : Nat) : Sig := ⟨fldBdred ty kd ka kl kc rsz iw rop, ⟨[kCd kd] ++ [kCd ka] ++ kOpt kl ++ [kCd kc], [], []⟩⟩
def sigBdconv (ty : Ty) (src : Ty) (kd : Nat) (ka : Nat) (kc : Nat) : Sig := ⟨fldBdconv ty src kd ka kc, ⟨[kCd kd] ++ [kCd ka] ++ [kCd kc], [], []⟩⟩
def sigAccwin (kg : Nat) (kb : Nat) (kl : Nat) : Sig := ⟨fldAccwin kg kb kl, ⟨[kCd kg] ++ [kCd kb] ++ [kCd kl], [], []⟩⟩
def sigAccz (r : RowOp) (c : Nat) : Sig := ⟨fldAccz r c, ⟨rowUse r, [], []⟩⟩
def sigAccld (r : RowOp) (krec : Nat) : Sig := ⟨fldAccld r krec, ⟨rowUse r ++ [kCd krec], [], []⟩⟩
def sigAccst (krec : Nat) (r : RowOp) : Sig := ⟨fldAccst krec r, ⟨kCd krec :: rowUse r, [], []⟩⟩
def sigAccout (h : Hdr) (d : AccDst) (r : RowOp) (c : Nat) : Sig := ⟨fldAccout h d r c, ⟨accDst d ++ rowUse r, [], []⟩⟩
def sigMma (r : RowOp) (a : Nat) (b : Nat) (sc : Nat) : Sig := ⟨fldMma r a b sc, ⟨rowUse r ++ codeKs [a, b, sc], [], []⟩⟩
def sigMmat (r : RowOp) (a : Nat) (b : Nat) (sc : Nat) : Sig := ⟨fldMmat r a b sc, ⟨rowUse r ++ codeKs [a, b, sc], [], []⟩⟩
def sigMmas (r : RowOp) (a : Nat) (b : Nat) (sc : Nat) : Sig := ⟨fldMmas r a b sc, ⟨rowUse r ++ codeKs [a, b, sc], [], []⟩⟩
def sigMfence (kd : Nat) : Sig := ⟨fldMfence kd, ⟨[], [kCd kd], []⟩⟩
def sigMwait (ka : Nat) : Sig := ⟨fldMwait ka, ⟨[kCd ka], [], []⟩⟩
def sigMstat (kd : Nat) (ka : Option Nat) : Sig := ⟨fldMstat kd ka, ⟨kOpt ka, [kCd kd], []⟩⟩
def sigSgen (zd : Nat) (a : VSrc) (cls : Nat) : Sig := ⟨fldSgen zd a cls, ⟨vs false a, [], [zd]⟩⟩
def sigSgenb (zd : Nat) (a : VSrc) (cls : Nat) : Sig := ⟨fldSgenb zd a cls, ⟨vs false a, [], [zd]⟩⟩
def sigSregen (zd : Nat) (za : Nat) (cls : Nat) : Sig := ⟨fldSregen zd za cls, ⟨[], [], [zd, za]⟩⟩
def sigSseed (ka : Nat) (cls : Nat) : Sig := ⟨fldSseed ka cls, ⟨[kCd ka], [], []⟩⟩
def sigSlen (imm : W32) : Sig := ⟨fldSlen imm, ⟨[], [], []⟩⟩
def sigSrnd (msk : Nat) (d : VDst) (cls : Nat) : Sig := ⟨fldSrnd msk d cls, ⟨[mCd msk], vd false d, []⟩⟩
def sigSand (zd : Nat) (za : Nat) (zb : Nat) : Sig := ⟨fldSand zd za zb, ⟨[], [], [zd, za, zb]⟩⟩
def sigSor (zd : Nat) (za : Nat) (zb : Nat) : Sig := ⟨fldSor zd za zb, ⟨[], [], [zd, za, zb]⟩⟩
def sigSxor (zd : Nat) (za : Nat) (zb : Nat) : Sig := ⟨fldSxor zd za zb, ⟨[], [], [zd, za, zb]⟩⟩
def sigSxnor (zd : Nat) (za : Nat) (zb : Nat) : Sig := ⟨fldSxnor zd za zb, ⟨[], [], [zd, za, zb]⟩⟩
def sigSnot (zd : Nat) (za : Nat) : Sig := ⟨fldSnot zd za, ⟨[], [], [zd, za]⟩⟩
def sigSmux (zd : Nat) (za : Nat) (zb : Nat) (zs : Nat) : Sig := ⟨fldSmux zd za zb zs, ⟨[], [], [zd, za, zb, zs]⟩⟩
def sigSmin (zd : Nat) (za : Nat) (zb : Nat) : Sig := ⟨fldSmin zd za zb, ⟨[], [], [zd, za, zb]⟩⟩
def sigSmax (zd : Nat) (za : Nat) (zb : Nat) : Sig := ⟨fldSmax zd za zb, ⟨[], [], [zd, za, zb]⟩⟩
def sigSdep (kd : Nat) (za : Nat) (zb : Nat) : Sig := ⟨fldSdep kd za zb, ⟨[], [kCd kd], [za, zb]⟩⟩
def sigScnt (msk : Nat) (d : VDst) (za : Nat) (out : Nat) : Sig := ⟨fldScnt msk d za out, ⟨[mCd msk], vd false d, [za]⟩⟩
def sigScnta (msk : Nat) (d : VDst) (za : Nat) : Sig := ⟨fldScnta msk d za, ⟨vd false d ++ [mCd msk], vd false d, [za]⟩⟩
def sigWlcfg (ka : Option Nat) : Sig := ⟨fldWlcfg ka, ⟨kOpt ka, [], []⟩⟩
def sigWlpush (msk : Nat) (n64 : Bool) (a : VSrc) (b : VSrc) : Sig := ⟨fldWlpush msk n64 a b, ⟨vs n64 a ++ vs false b ++ [mCd msk], [], []⟩⟩
def sigWlpop (msk : Nat) (n64 : Bool) (d : VDst) (md : Nat) (wait : Bool) : Sig := ⟨fldWlpop msk n64 d md wait, ⟨[mCd msk], vdSpan d (if n64 then 3 else 2) ++ [mCd md], []⟩⟩
def sigWlret (msk : Nat) (b : VSrc) : Sig := ⟨fldWlret msk b, ⟨vs false b ++ [mCd msk], [], []⟩⟩
def sigWlfloor (kd : Nat) : Sig := ⟨fldWlfloor kd, ⟨[], [kCd kd], []⟩⟩
def sigWldone (kd : Nat) : Sig := ⟨fldWldone kd, ⟨[], [kCd kd], []⟩⟩
def sigWlstat (kd : Nat) (sel : Nat) : Sig := ⟨fldWlstat kd sel, ⟨[], [kCd kd], []⟩⟩
def sigLblrd (kd : Nat) (ka : Nat) : Sig := ⟨fldLblrd kd ka, ⟨[kCd ka], [kCd kd], []⟩⟩
def sigLblset (kd : Nat) (ka : Nat) (lbl : Nat) : Sig := ⟨fldLblset kd ka lbl, ⟨[kCd ka], [kCd kd], []⟩⟩
def sigLbllock (kd : Nat) (ka : Nat) : Sig := ⟨fldLbllock kd ka, ⟨[kCd ka], [kCd kd], []⟩⟩
def sigLblunl (kd : Nat) (ka : Nat) : Sig := ⟨fldLblunl kd ka, ⟨[kCd ka], [kCd kd], []⟩⟩
def sigLblhist (kd : Nat) (ka : Nat) : Sig := ⟨fldLblhist kd ka, ⟨[kCd ka], [kCd kd], []⟩⟩

/-- The signature of an instruction; an event has none. -/
def sigOf : Instr → Option Sig
  | .moduleReset => none
  | .powerLoss => none
  | .dieLoss _ => none
  | .dieReset _ _ => none
  | .clockThrottle => none
  | .clockRestore => none
  | .healthUpdate _ _ _ => none
  | .healthSnapshot => none
  | .hbmErrorWindow _ => none
  | .flitReceive _ _ => none
  | .portDown _ => none
  | .portRetrain _ => none
  | .spanMgtMessage _ => none
  | .ubyozoErrcntRead _ _ => none
  | .hostLinkDown _ => none
  | .hostLinkUp _ => none
  | .msemAcquire _ _ => none
  | .msemRelease _ => none
  | .msemLeaseWrite _ _ => none
  | .msemLeaseExpiry => none
  | .msemExpdClear _ => none
  | .mgmtErrorClear _ => none
  | .policyWrite _ _ _ => none
  | .partitionWrite _ _ _ => none
  | .tenantReset _ => none
  | .registerWrite _ _ _ _ => none
  | .cmpstatRead _ _ => none
  | .queueStart _ _ _ => none
  | .queueStop _ _ _ => none
  | .queueReset _ _ _ => none
  | .ctsync _ _ => none
  | .ctsyncComplete => none
  | .shoot _ _ => none
  | .shootComplete _ => none
  | .preempt _ _ => none
  | .release _ _ => none
  | .queueBlockServe _ => none
  | .queueSerResume _ => none
  | .queueWaitRecheck _ => none
  | .queueNextRecheck _ => none
  | .queueCompletionWrite _ => none
  | .queueEngineNak _ _ => none
  | .contextCreate _ _ _ _ => none
  | .contextDestroy _ _ _ => none
  | .fqReplay _ _ _ => none
  | .fqKill _ _ _ => none
  | .fqHeadWrite _ _ _ => none
  | .faultBatchPost _ => none
  | .runAheadEnd _ => none
  | .trapDeliver _ _ => none
  | .boundaryTrap _ => none
  | .dieHalt _ _ => none
  | .dieHaltClear _ _ => none
  | .watchdogExpiry _ => none
  | .heatHalve _ => none
  | .heatHalveDone => none
  | .firmwareUpdate _ _ => none
  | .spdmRequest _ => none
  | .rds _ => none
  | .rdx _ => none
  | .upg _ => none
  | .evc _ => none
  | .wbd _ => none
  | .updateWrite _ => none
  | .updateCommit _ => none
  | .uncachedRead _ => none
  | .uncachedWrite _ => none
  | .bdReductionElement _ => none
  | .fwds _ => none
  | .fwdx _ => none
  | .inv _ => none
  | .upd _ => none
  | .binv _ => none
  | .ack _ => none
  | .cfl _ => none
  | .nak _ => none
  | .data _ => none
  | .commitAck _ => none
  | .wback _ => none
  | .l1Evict _ _ => none
  | .bounceDelayExpiry _ _ => none
  | .bounceReset _ _ => none
  | .hostSnoop _ _ => none
  | .hostAccess _ => none
  | .lrd _ => none
  | .lset _ => none
  | .llock _ => none
  | .lunl _ => none
  | .lhist _ => none
  | .windowClose _ => none
  | .switchingComplete _ => none
  | .regionEntryEvict _ => none
  | .compReadMiss _ => none
  | .compWriteback _ => none
  | .compWritebackRetry _ => none
  | .blockPlace _ => none
  | .sliceExpiry _ => none
  | .haltComplete _ => none
  | .blockResume _ => none
  | .granuleFill _ _ => none
  | .blockRetire _ => none
  | .yieldExpiry _ => none
  | .xacqGrant _ => none
  | .accessReturn _ => none
  | .stackFill _ => none
  | .copyCommandComplete _ => none
  | .bdPieceApply _ _ => none
  | .bdCommandComplete _ => none
  | .teamMmatStart _ _ => none
  | .matrixOpComplete _ => none
  | .matrixBatchComplete _ => none
  | .streamWindowRun _ => none
  | .floorRoundStart _ => none
  | .floorRoundAnnounce _ _ => none
  | .lowerReceive _ _ _ _ => none
  | .lowerAckComplete _ _ => none
  | .stealRequest _ _ => none
  | .stealConfirm _ _ => none
  | .terminationWave _ => none
  | .shardHandover _ => none
  | .shardUnreachableTimeout _ _ => none
  | .padWordSkip _ => none
  | .illegalWord _ => none
  | .fetchFault _ => none
  | .ackWithGrant _ => none
  | .labelCommandResult _ => none
  | .padSliceAccess _ _ => none
  | .clusterSlabAccess _ => none
  | .nop => some (sigNop)
  | .bra c neg off => some (sigBra c neg off)
  | .brd c neg tgt rpc => some (sigBrd c neg tgt rpc)
  | .brx a => some (sigBrx a)
  | .call nw kd off => some (sigCall nw kd off)
  | .ret ka => some (sigRet ka)
  | .exit => some (sigExit)
  | .yield => some (sigYield)
  | .trap imm => some (sigTrap imm)
  | .tret => some (sigTret)
  | .launch nw kd ka => some (sigLaunch nw kd ka)
  | .spawn nw kd ka arg => some (sigSpawn nw kd ka arg)
  | .lwait nw kd ka => some (sigLwait nw kd ka)
  | .bar n cnt => some (sigBar n cnt)
  | .arrive nw kd n cnt => some (sigArrive nw kd n cnt)
  | .await n kp => some (sigAwait n kp)
  | .cbar n cnt rank file => some (sigCbar n cnt rank file)
  | .xacq n => some (sigXacq n)
  | .xrel => some (sigXrel)
  | .rgive n => some (sigRgive n)
  | .rclaim nw kd n => some (sigRclaim nw kd n)
  | .rolesw n => some (sigRolesw n)
  | .setfmt ka => some (sigSetfmt ka)
  | .setfmtImm imm => some (sigSetfmtImm imm)
  | .getfmt nw kd => some (sigGetfmt nw kd)
  | .crd nw kd c => some (sigCrd nw kd c)
  | .cwr c ka => some (sigCwr c ka)
  | .clock nw kd => some (sigClock nw kd)
  | .kmov h kd ka => some (sigKmov h kd ka)
  | .kadd h kd ka kb => some (sigKadd h kd ka kb)
  | .kaddImm h kd ka imm => some (sigKaddImm h kd ka imm)
  | .ksub h kd ka kb => some (sigKsub h kd ka kb)
  | .ksubImm h kd ka imm => some (sigKsubImm h kd ka imm)
  | .kmul h kd ka kb => some (sigKmul h kd ka kb)
  | .kmulImm h kd ka imm => some (sigKmulImm h kd ka imm)
  | .kmad h kd ka kb kc => some (sigKmad h kd ka kb kc)
  | .kmadImm h kd ka imm kc => some (sigKmadImm h kd ka imm kc)
  | .kand h kd ka kb => some (sigKand h kd ka kb)
  | .kandImm h kd ka imm => some (sigKandImm h kd ka imm)
  | .kor h kd ka kb => some (sigKor h kd ka kb)
  | .korImm h kd ka imm => some (sigKorImm h kd ka imm)
  | .kxor h kd ka kb => some (sigKxor h kd ka kb)
  | .kxorImm h kd ka imm => some (sigKxorImm h kd ka imm)
  | .kshl h kd ka kb => some (sigKshl h kd ka kb)
  | .kshlImm h kd ka imm => some (sigKshlImm h kd ka imm)
  | .kshr h kd ka kb => some (sigKshr h kd ka kb)
  | .kshrImm h kd ka imm => some (sigKshrImm h kd ka imm)
  | .ksra h kd ka kb => some (sigKsra h kd ka kb)
  | .ksraImm h kd ka imm => some (sigKsraImm h kd ka imm)
  | .kmin h kd ka kb => some (sigKmin h kd ka kb)
  | .kminImm h kd ka imm => some (sigKminImm h kd ka imm)
  | .kmax h kd ka kb => some (sigKmax h kd ka kb)
  | .kmaxImm h kd ka imm => some (sigKmaxImm h kd ka imm)
  | .kcmp h kd ka kb => some (sigKcmp h kd ka kb)
  | .kcmpImm h kd ka imm => some (sigKcmpImm h kd ka imm)
  | .ksel h kd ka kb kc => some (sigKsel h kd ka kb kc)
  | .klea h kd ka kb sh disp => some (sigKlea h kd ka kb sh disp)
  | .kpopc h kd ka => some (sigKpopc h kd ka)
  | .kclz h kd ka => some (sigKclz h kd ka)
  | .kli h kd imm => some (sigKli h kd imm)
  | .kli64 h kd imm => some (sigKli64 h kd imm)
  | .kfromv h kd va sel => some (sigKfromv h kd va sel)
  | .add h d a b => some (sigAdd h d a b)
  | .addImm h d a imm => some (sigAddImm h d a imm)
  | .addc h d a b cin cout => some (sigAddc h d a b cin cout)
  | .sub h d a b => some (sigSub h d a b)
  | .subImm h d a imm => some (sigSubImm h d a imm)
  | .mul h d a b => some (sigMul h d a b)
  | .mulImm h d a imm => some (sigMulImm h d a imm)
  | .mulh h d a b => some (sigMulh h d a b)
  | .mulhImm h d a imm => some (sigMulhImm h d a imm)
  | .mad h d a b c => some (sigMad h d a b c)
  | .madImm h d a imm c => some (sigMadImm h d a imm c)
  | .abs h d a => some (sigAbs h d a)
  | .and h d a b => some (sigAnd h d a b)
  | .andImm h d a imm => some (sigAndImm h d a imm)
  | .or h d a b => some (sigOr h d a b)
  | .orImm h d a imm => some (sigOrImm h d a imm)
  | .xor h d a b => some (sigXor h d a b)
  | .xorImm h d a imm => some (sigXorImm h d a imm)
  | .lop3 h d a b c tbl => some (sigLop3 h d a b c tbl)
  | .shl h d a b => some (sigShl h d a b)
  | .shlImm h d a imm => some (sigShlImm h d a imm)
  | .shr h d a b => some (sigShr h d a b)
  | .shrImm h d a imm => some (sigShrImm h d a imm)
  | .sra h d a b => some (sigSra h d a b)
  | .sraImm h d a imm => some (sigSraImm h d a imm)
  | .min h d a b => some (sigMin h d a b)
  | .minImm h d a imm => some (sigMinImm h d a imm)
  | .max h d a b => some (sigMax h d a b)
  | .maxImm h d a imm => some (sigMaxImm h d a imm)
  | .cmp h md a b => some (sigCmp h md a b)
  | .cmpImm h md a imm => some (sigCmpImm h md a imm)
  | .sel h d a b mc => some (sigSel h d a b mc)
  | .mov h d a => some (sigMov h d a)
  | .movImm h d imm => some (sigMovImm h d imm)
  | .movk h d kv kl => some (sigMovk h d kv kl)
  | .popc h d a => some (sigPopc h d a)
  | .clz h d a => some (sigClz h d a)
  | .brev h d a => some (sigBrev h d a)
  | .bfe h d a b => some (sigBfe h d a b)
  | .bfeImm h d a imm => some (sigBfeImm h d a imm)
  | .bfi h d a b c => some (sigBfi h d a b c)
  | .bfiImm h d a imm c => some (sigBfiImm h d a imm c)
  | .fadd h d a b => some (sigFadd h d a b)
  | .faddImm h d a imm => some (sigFaddImm h d a imm)
  | .fsub h d a b => some (sigFsub h d a b)
  | .fsubImm h d a imm => some (sigFsubImm h d a imm)
  | .fmul h d a b => some (sigFmul h d a b)
  | .fmulImm h d a imm => some (sigFmulImm h d a imm)
  | .fma h d a b c => some (sigFma h d a b c)
  | .fmaImm h d a imm c => some (sigFmaImm h d a imm c)
  | .fmin h d a b => some (sigFmin h d a b)
  | .fminImm h d a imm => some (sigFminImm h d a imm)
  | .fmax h d a b => some (sigFmax h d a b)
  | .fmaxImm h d a imm => some (sigFmaxImm h d a imm)
  | .fcmp h md a b => some (sigFcmp h md a b)
  | .fcmpImm h md a imm => some (sigFcmpImm h md a imm)
  | .fclass h d a => some (sigFclass h d a)
  | .fscale h d a b => some (sigFscale h d a b)
  | .fscaleImm h d a imm => some (sigFscaleImm h d a imm)
  | .frnd h d a => some (sigFrnd h d a)
  | .frcp h d a => some (sigFrcp h d a)
  | .fsqrt h d a => some (sigFsqrt h d a)
  | .frsq h d a => some (sigFrsq h d a)
  | .fexp2 h d a => some (sigFexp2 h d a)
  | .flog2 h d a => some (sigFlog2 h d a)
  | .cvt h d a src elem => some (sigCvt h d a src elem)
  | .lpack h d va src => some (sigLpack h d va src)
  | .lunpk h d va => some (sigLunpk h d va)
  | .shfl h d a b => some (sigShfl h d a b)
  | .shflImm h d a imm => some (sigShflImm h d a imm)
  | .bcast h d a kl => some (sigBcast h d a kl)
  | .bcastImm h d a imm => some (sigBcastImm h d a imm)
  | .compress h d a b vm slot => some (sigCompress h d a b vm slot)
  | .expand h d a vm slot => some (sigExpand h d a vm slot)
  | .redadd h d a => some (sigRedadd h d a)
  | .redmin h d a => some (sigRedmin h d a)
  | .redmax h d a => some (sigRedmax h d a)
  | .redand h d a => some (sigRedand h d a)
  | .redor h d a => some (sigRedor h d a)
  | .redxor h d a => some (sigRedxor h d a)
  | .scan h d a => some (sigScan h d a)
  | .redminIndex h d di a b => some (sigRedminIndex h d di a b)
  | .redmaxIndex h d di a b => some (sigRedmaxIndex h d di a b)
  | .ballot h kd a => some (sigBallot h kd a)
  | .vany h kd a => some (sigVany h kd a)
  | .vall h kd a => some (sigVall h kd a)
  | .elect h md ms => some (sigElect h md ms)
  | .mcnt h kd ms => some (sigMcnt h kd ms)
  | .mlog h md ma mb => some (sigMlog h md ma mb)
  | .ldg h d ad scope => some (sigLdg h d ad scope)
  | .stg h ad b scope => some (sigStg h ad b scope)
  | .pref h ad => some (sigPref h ad)
  | .lds h d ad => some (sigLds h d ad)
  | .sts h ad b => some (sigSts h ad b)
  | .ldc h d off disp rank file scope => some (sigLdc h d off disp rank file scope)
  | .stc h off disp rank file b scope => some (sigStc h off disp rank file b scope)
  | .ldd h d ad scope => some (sigLdd h d ad scope)
  | .std h ad b scope => some (sigStd h ad b scope)
  | .ldl h d ad => some (sigLdl h d ad)
  | .stl h ad b => some (sigStl h ad b)
  | .atom h d ad b aop scope => some (sigAtom h d ad b aop scope)
  | .atomc h d ad b c scope => some (sigAtomc h d ad b c scope)
  | .red h ad b aop scope => some (sigRed h ad b aop scope)
  | .atoms h ad b scope => some (sigAtoms h ad b scope)
  | .fence sc p q scope => some (sigFence sc p q scope)
  | .ofence => some (sigOfence)
  | .waitp p kn => some (sigWaitp p kn)
  | .cflush h ad => some (sigCflush h ad)
  | .cinv h ad => some (sigCinv h ad)
  | .tcopy nw d krec => some (sigTcopy nw d krec)
  | .tstore krec vs => some (sigTstore krec vs)
  | .tfill krec kval => some (sigTfill krec kval)
  | .bdgather kd ka kl kc rsz iw => some (sigBdgather kd ka kl kc rsz iw)
  | .bdscat kd ka kl kc rsz iw => some (sigBdscat kd ka kl kc rsz iw)
  | .bdred ty kd ka kl kc rsz iw rop => some (sigBdred ty kd ka kl kc rsz iw rop)
  | .bdconv ty src kd ka kc => some (sigBdconv ty src kd ka kc)
  | .accwin kg kb kl => some (sigAccwin kg kb kl)
  | .accz r c => some (sigAccz r c)
  | .accld r krec => some (sigAccld r krec)
  | .accst krec r => some (sigAccst krec r)
  | .accout h d r c => some (sigAccout h d r c)
  | .mma r a b sc => some (sigMma r a b sc)
  | .mmat r a b sc => some (sigMmat r a b sc)
  | .mmas r a b sc => some (sigMmas r a b sc)
  | .mfence kd => some (sigMfence kd)
  | .mwait ka => some (sigMwait ka)
  | .mstat kd ka => some (sigMstat kd ka)
  | .sgen zd a cls => some (sigSgen zd a cls)
  | .sgenb zd a cls => some (sigSgenb zd a cls)
  | .sregen zd za cls => some (sigSregen zd za cls)
  | .sseed ka cls => some (sigSseed ka cls)
  | .slen imm => some (sigSlen imm)
  | .srnd msk d cls => some (sigSrnd msk d cls)
  | .sand zd za zb => some (sigSand zd za zb)
  | .sor zd za zb => some (sigSor zd za zb)
  | .sxor zd za zb => some (sigSxor zd za zb)
  | .sxnor zd za zb => some (sigSxnor zd za zb)
  | .snot zd za => some (sigSnot zd za)
  | .smux zd za zb zs => some (sigSmux zd za zb zs)
  | .smin zd za zb => some (sigSmin zd za zb)
  | .smax zd za zb => some (sigSmax zd za zb)
  | .sdep kd za zb => some (sigSdep kd za zb)
  | .scnt msk d za out => some (sigScnt msk d za out)
  | .scnta msk d za => some (sigScnta msk d za)
  | .wlcfg ka => some (sigWlcfg ka)
  | .wlpush msk n64 a b => some (sigWlpush msk n64 a b)
  | .wlpop msk n64 d md wait => some (sigWlpop msk n64 d md wait)
  | .wlret msk b => some (sigWlret msk b)
  | .wlfloor kd => some (sigWlfloor kd)
  | .wldone kd => some (sigWldone kd)
  | .wlstat kd sel => some (sigWlstat kd sel)
  | .lblrd kd ka => some (sigLblrd kd ka)
  | .lblset kd ka lbl => some (sigLblset kd ka lbl)
  | .lbllock kd ka => some (sigLbllock kd ka)
  | .lblunl kd ka => some (sigLblunl kd ka)
  | .lblhist kd ka => some (sigLblhist kd ka)

def Sig.maj (i : Sig) : Nat := i.f.maj
def Sig.fn (i : Sig) : Nat := i.f.fn
def Sig.len (i : Sig) : Nat := formLen i.f.form
def Sig.nw (i : Sig) : Bool := i.f.nw == 1
def Sig.hold (i : Sig) : Nat := i.f.hold
def Sig.msk (i : Sig) : Nat := i.f.msk
def Sig.word (i : Sig) : Nat := fieldsWord i.f

/-- The registers whose file contents an instruction writes: none under NW = 1 (R238), but for the masks of cmp and fcmp
(R357). -/
def Sig.writes (i : Sig) : List Nat := if i.nw then i.u.wr.filter (2048 ≤ ·) else i.u.wr

/-- The latches an instruction reads. -/
def Sig.latches (i : Sig) : List Nat := (i.u.rd.filter fun c => decide (1536 ≤ c ∧ c < 1539)).map (· - 1536)

/-- Whether a code names a vector register beyond a group's (R231). -/
def beyondCode (vregs c : Nat) : Bool := decide ((vregs ≤ c ∧ c < 1536) ∨ 8192 ≤ c)

/-- Whether an instruction names a vector or stream register beyond the group's (R231). -/
def Sig.beyond (i : Sig) (vregs zregs : Nat) : Bool :=
  (i.u.rd ++ i.u.wr).any (beyondCode vregs) || i.u.z.any (zregs ≤ ·)

end Sys2Proof.Machine
end

