-- ==== Sys2Proof/Machine/Memory.lean ====
section
/-! DEFINITION. Memory: the physical space of the model, where each address lives (R58 to R68), what an address reads as, the
copies that caches hold of it, and coherent reads and writes by one atomic step. A byte that nothing has written reads as 0. -/

namespace Sys2Proof.Machine

open Sys2Proof

/-! ## The physical space

HBM and compressed logical addresses are themselves (R58); pool offsets, host addresses and pad offsets lie above them. -/

def poolBase : Nat := 2 ^ 53
def hostBase : Nat := 2 ^ 54
def hostPort : Nat := 2 ^ 52
def padBase : Nat := 2 ^ 56

/-- The spaces of R58, and the device pad (R64). -/
inductive Space where
  | hbm | comp | pool | host | pad
  deriving DecidableEq, Repr

def spaceOf (pa : Nat) : Space :=
  if padBase ≤ pa then .pad else if hostBase ≤ pa then .host else if poolBase ≤ pa then .pool
  else if 2 ^ 48 ≤ pa then .comp else .hbm

/-- The slice of an HBM address (R59), of a compressed page (R75) and of a pad offset (R64). -/
def sliceOf (pa : Nat) : Nat := match spaceOf pa with
  | .hbm => (bits pa 16 9) ^^^ (bits pa 24 17)
  | .comp => (bits pa 19 12) ^^^ (bits pa 27 20)
  | .pad => bits (pa - padBase) 16 9
  | .pool => 256
  | .host => 257

/-- The number of an address's home: its slice, 256 for the pool home, 257 for the directory of host lines (R59, R62, R106). -/
def homeOf (pa : Nat) : Nat := sliceOf pa

/-- The stack of an address in HBM or the compressed space (R59). -/
def stackOf (pa : Nat) : Nat := sliceOf pa / 32

/-! ## Pool decoders (R67, R68) -/

/-- The lowest-numbered enabled decoder that holds a pool offset, with its window's start, its port and its FBASE. -/
def decoderOf (s : State) (o : Nat) : Option (Nat × Port × Nat) :=
  (List.range 16).findSome? fun n =>
    let b := (s.mg.pdbase.getD n 0).toNat
    let m := (s.mg.pdmap.getD n 0).toNat
    let start := bits b 43 30 * 2 ^ 30
    if bit m 63 && decide (start ≤ o) && decide (o < start + (bits b 63 48 + 1) * 2 ^ 30)
    then some (start, if bit m 62 then .b else .a, bits m 51 30 * 2 ^ 30) else none

/-- Where the byte at an address is stored: a pool offset at its fabric address (R68), any other address at itself. -/
def placeIn (s : State) (a : Nat) : Nat :=
  if spaceOf a = .pool then match decoderOf s (a - poolBase) with
    | some (start, _, fbase) => poolBase + (fbase + (a - poolBase - start)) % 2 ^ 52
    | none => a
  else a

/-! ## Bytes -/

def memByte (s : State) (a : Nat) : Byte := FMap.get 0 s.mem (placeIn s a)
def memRead (s : State) (a n : Nat) : List Byte := (List.range n).map fun i => memByte s (a + i)
def memWrite (a : Nat) (bs : List Byte) (s : State) : State :=
  { s with mem := FMap.setAll 0 s.mem ((List.range bs.length).zip bs |>.map fun (i, x) => (placeIn s (a + i), x)) }

/-- Write the bytes whose mask bit is set. -/
def memWriteMask (a : Nat) (bs : List Byte) (mk : List Bool) (s : State) : State :=
  { s with mem := FMap.setAll 0 s.mem (((List.range bs.length).zip (bs.zip mk)).filterMap fun (i, x, b) =>
      if b then some (placeIn s (a + i), x) else none) }

def memNat (s : State) (a n : Nat) : Nat := ofBytes (memRead s a n)

def linkUp (s : State) : Port → Bool
  | .a => s.pkg.linkA
  | .b => s.pkg.linkB

/-- The Ubyozo port over which traffic to span device `d` goes: the lowest of its routes that is up (R27, R28). -/
def routeTo (s : State) (d : Nat) : Option Nat :=
  (List.range 16).find? fun p => (s.pkg.routes.getD d 0).getLsbD p && (s.pkg.ports.getD p UPort.reset).up

/-- The die that homes an address (R59, R62, R64, R106). -/
def homeDie (pa : Nat) : Nat := match spaceOf pa with
  | .hbm => sliceOf pa / 32 / 2
  | .comp => sliceOf pa / 32 / 2
  | .pad => sliceOf pa / 32 / 2
  | .pool => 4
  | .host => 4

/-- The Nak reason that the home answers for an address, if it cannot serve it (R63, R68, R97): an unmapped pool offset, or a
pool or host port whose link is down. The REASON of a host port that is down is DESIGN CHOICE, log entry 101. -/
def nakOf (s : State) (pa : Nat) : Option Nat := match spaceOf pa with
  | .pool => match decoderOf s (pa - poolBase) with
    | none => some 0
    | some (_, p, _) => if linkUp s p then none else some 0
  | .host => if linkUp s (if (pa - hostBase) / hostPort % 2 = 1 then .b else .a) then none else some 1
  | .hbm => none
  | .comp => none
  | .pad => none

/-! ## The compression table (R75) -/

/-- The address of a page's compression-table entry. -/
def ctAddr (s : State) (page : Nat) : Nat := s.mg.ctbase.toNat + 64 * (page % 2 ^ 36)

/-- A page number (address / 4096) of the compressed logical space as the P of R75. -/
def compP (page : Nat) : Nat := page % 2 ^ 36

def compOf (s : State) (page : Nat) : Option CompPage := s.coh.comp.find? (·.page == page)

/-- The stacks that hold a compressed page's sectors now (R17). -/
def sectorStacks (s : State) (page : Nat) : List Nat :=
  let e := ofBytes (memRead s (ctAddr s page) 64)
  (List.range (bits e 461 458)).map fun i => stackOf (bits e (32 * i + 31) (32 * i) * 512)

/-- The dies that an access to an address needs, in the TDM layout (R16, R17, R21): its home, the base die of its stack, and for a compressed page the
base dies of its sectors and the dies of its table entry. -/
def diesOf (s : State) (pa : Nat) : List Nat := match spaceOf pa with
  | .hbm => [homeDie pa, 5 + stackOf pa]
  | .comp => [homeDie pa, 5 + stackOf pa, homeDie (ctAddr s (pa / 4096)), 5 + stackOf (ctAddr s (pa / 4096))] ++
      (sectorStacks s (pa / 4096)).map (5 + ·)
  | .pad => [homeDie pa]
  | .pool => [4]
  | .host => [4]

/-- Whether a die that an access to the address needs is lost (R20, R21). -/
def homeLost (s : State) (pa : Nat) : Bool := (diesOf s pa).any fun d => s.pkg.lostDies.getLsbD d

/-! ## Touched dies (R16, R17) -/

/-- The bits an access to `pa` sets. -/
def tdmBits (s : State) (pa : Nat) : Nat := match spaceOf pa with
  | .hbm => 2 ^ (stackOf pa / 2) ||| 2 ^ (5 + stackOf pa)
  | .comp => (sectorStacks s (pa / 4096)).foldl (fun a st => a ||| 2 ^ (5 + st)) (2 ^ (stackOf pa / 2) ||| 2 ^ (5 + stackOf pa))
  | .pool => 2 ^ 4
  | .host => 2 ^ 4
  | .pad => 2 ^ (stackOf pa / 2)

def setTdm (c b : Nat) (s : State) : State := modCtx c (fun x => { x with tdm := x.tdm ||| BitVec.ofNat 16 b }) s
def touch (c pa : Nat) (s : State) : State := setTdm c (tdmBits s pa) s

/-! ## Copies -/

/-- Whether two byte ranges meet. -/
def overlap (a n b m : Nat) : Bool := decide (a < b + m) && decide (b < a + n)

def copyOf (s : State) (agent pa gsz : Nat) : Option Copy :=
  s.coh.l1.find? fun c => c.agent == agent && overlap c.pa c.gsz pa gsz
def setCopy (c : Copy) (s : State) : State :=
  { s with coh := { s.coh with l1 := s.coh.l1.filter (fun x => !(x.agent == c.agent && overlap x.pa x.gsz c.pa c.gsz)) ++ [c] } }
def dropCopy (agent pa gsz : Nat) (s : State) : State :=
  { s with coh := { s.coh with l1 := s.coh.l1.filter (fun x => !(x.agent == agent && overlap x.pa x.gsz pa gsz)) } }

def LSt.owns : LSt → Bool
  | .e => true
  | .m => true
  | .o => true
  | .s => false
  | .t => false
def LSt.dirty : LSt → Bool
  | .m => true
  | .o => true
  | .e => false
  | .s => false
  | .t => false

def pendOf (s : State) (agent pa gsz : Nat) : Option Pending :=
  s.coh.pends.find? fun p => p.agent == agent && overlap p.pa p.gsz pa gsz
def wbufOf (s : State) (agent pa gsz : Nat) : Option WbBuf :=
  s.coh.wbufs.find? fun w => w.agent == agent && overlap w.pa w.gsz pa gsz

/-- The directory entry that holds a grain. -/
def dirOf (s : State) (pa gsz : Nat) : Option DirEnt := s.coh.dir.find? fun e => overlap e.pa e.gsz pa gsz

/-- Whether a write-back buffer still stands for the owner of its grain: the home has not applied its WbD yet (R102). -/
def WbBuf.stands (s : State) (w : WbBuf) : Bool := w.dirty && (dirOf s w.pa w.gsz).any fun e => e.hst != .s && e.owner == w.agent

/-- The newest value of a byte: the owner's, else that of a dirty write-back buffer whose WbD has not been applied, else the home's. -/
def newestByte (s : State) (a : Nat) : Byte :=
  match s.coh.l1.find? fun c => c.st.owns && overlap c.pa c.gsz a 1 with
  | some c => c.data.getD (a - c.pa) 0
  | none => match s.coh.wbufs.find? fun w => overlap w.pa w.gsz a 1 && w.stands s with
    | some w => w.data.getD (a - w.pa) 0
    | none => memByte s a

/-- Whether a home transaction is open on some byte of a range (R98), or a message on it is in flight from the home to a
requester. -/
def txnOn (s : State) (pa n : Nat) : Option Txn :=
  s.coh.txns.find? fun t => overlap t.pa t.gsz pa n || overlap t.req.msg.pa t.req.msg.gsz pa n
def regionOf (s : State) (pa : Nat) : Option Region := s.coh.regions.find? (·.page == pa / 4096)
def switching (s : State) (pa : Nat) : Bool := (regionOf s pa).any (·.sw)
/-- Whether a die is halted by a debugger (R167) or lost (R18): its cores, engines and homes do nothing. -/
def dieStopped (s : State) (d : Nat) : Bool := s.pkg.haltDies.getLsbD d || s.pkg.lostDies.getLsbD d
/-- Whether the die that homes an address is halted or lost (R21, R167): requests to it are held. -/
def homeHalted (s : State) (pa : Nat) : Bool := dieStopped s (homeDie pa) || homeLost s pa
def busy (s : State) (pa n : Nat) : Bool := (txnOn s pa n).isSome || switching s pa || homeHalted s pa

/-- Whether the last sector of memory that holds a byte of the range, where memory itself holds its newest value, has an error that
cannot be corrected (R63). -/
def ueAt (s : State) (pa n : Nat) : Bool :=
  (s.coh.ue.any fun u => overlap u 32 pa n) && !(dirOf s pa n).any (fun e => e.hst != .s)

/-- Whether the entry or a sector of a compressed page has such an error. -/
def compUe (s : State) (page : Nat) : Bool :=
  let e := ofBytes (memRead s (ctAddr s page) 64)
  ueAt s (ctAddr s page) 64 || (List.range (min 8 (bits e 461 458))).any fun i => ueAt s (bits e (32 * i + 31) (32 * i) * 512) 512

/-- What a coherent read by one atomic step comes to: the newest bytes, an error response with its REASON, or not yet. -/
inductive Coh1 where
  | ok (bs : List Byte) | nak (reason : Nat) | wait
  deriving DecidableEq, Repr

/-- A coherent read by one atomic step, as the walker and instruction fetch make it (R145): it waits while the home is busy with the bytes,
or while the lines of a compressed page are not in its home's L2 (R76), which an error in its entry or sectors keeps away (R63). Neither
R71 nor R118 counts it (DEDUCED, log entry 16). -/
def cohLook (s : State) (pa n : Nat) : Coh1 :=
  match nakOf s pa with
  | some r => .nak r
  | none =>
    if busy s pa n then .wait
    else if ueAt s pa n then .nak 0
    else if spaceOf pa = .comp then (match compOf s (pa / 4096) with
      | some c =>
        if bit c.entry.toNat 464 then .nak 0
        else if c.lines then .ok ((List.range n).map fun i => newestByte s (pa + i))
        else if compUe s (pa / 4096) then .nak 0 else .wait
      | none => if compUe s (pa / 4096) then .nak 0 else .wait)
    else .ok ((List.range n).map fun i => newestByte s (pa + i))

/-- Ask for the lines of a compressed page that a read by one atomic step must wait for (R76). -/
def wantLines (pa : Nat) (s : State) : State :=
  if spaceOf pa = .comp ∧ !(compOf s (pa / 4096)).any (·.lines) ∧ !s.agenda.any (·.ev == .compReadMiss (pa / 4096))
  then post 0 (.compReadMiss (pa / 4096)) s else s

/-- The pages whose lines a request or a write-back waits for look again for room in the L2 (R78). -/
def missAgain (s : State) : State :=
  let ps := (s.coh.compHeld.map fun q => q.msg.pa / 4096) ++ (s.coh.comp.filter fun c => !c.lines && !c.early.isEmpty).map (·.page)
  postAll ((ps.eraseDups.map Instr.compReadMiss).filter fun e => !(s.agenda.any (·.ev == e))) s

/-- Whether a transaction is open on a compressed page: its lines stay in the L2 until it has closed. -/
def pageInUse (s : State) (page : Nat) : Bool := s.coh.txns.any fun t => t.pa / 4096 == page || t.req.msg.pa / 4096 == page

/-- The same read by an agent that can wait: not now, or the bytes; an error reads as not now. -/
def cohRead (s : State) (pa n : Nat) : Option (List Byte) := match cohLook s pa n with
  | .ok bs => some bs
  | .nak _ => none
  | .wait => none

/-- Drop every copy that overlaps a range and its directory entries, dirty data going to memory first; an agent whose copy goes
while it has a request pending has that request marked stale (R100). -/
def recallNow (pa n : Nat) (s : State) : State :=
  let hit := s.coh.l1.filter fun c => overlap c.pa c.gsz pa n
  let s := hit.foldl (fun s c => if c.st.dirty then memWrite c.pa c.data s else s) s
  let marks := s.coh.pends.filterMap fun p =>
    if hit.any fun c => c.agent == p.agent && overlap c.pa c.gsz p.pa p.gsz then some (p.agent, p.tag) else none
  { s with coh := { s.coh with
      l1 := s.coh.l1.filter fun c => !overlap c.pa c.gsz pa n
      dir := s.coh.dir.filter fun e => !overlap e.pa e.gsz pa n
      stale := s.coh.stale ++ marks } }

/-- The queues that hold a shared copy of a grain are told of its invalidation (R49, R50). -/
def queueWake (pa n : Nat) (s : State) : State :=
  if s.coh.l1.any fun c => c.agent == 178 && overlap c.pa c.gsz pa n then
    postAll (s.queues.filterMap fun q => match q.state with
      | .waiting => some (.queueWaitRecheck q.id)
      | .parked => some (.queueNextRecheck q.id)
      | .stopped => none
      | .running => none) s
  else s

/-! ## Writes that the device makes in its own tables

They reach the home of their bytes as every write does: at once where it is free, else in arrival order (R74, R98). -/

/-- A message of the home itself. -/
def homeMsg (pa gsz : Nat) : Msg :=
  { pa := pa, gsz := gsz, req := 512, ctx := 0, vf := 0, tag := 0, frm := 512, dst := 0, grant := .s, dirty := false, wb := false,
    keep := false, region := false, reason := 0, lbyte := 0, aag := 0, actx := 0, pend := 0, data := [], bmask := [],
    mode := .uncl, lval := 0, res := 0, heat := false, write := false, off := 0, aop := 0, ty := .b32 }

def queueLast (q : HReq) (s : State) : State := { s with coh := { s.coh with homeQ := s.coh.homeQ ++ [q] } }

/-- Whether a write of the device can be made at once: the home is free, no agent is recorded to hold the bytes, none writes them
back, and no request for them waits. -/
def freeHere (s : State) (pa n : Nat) : Bool :=
  !busy s pa n && (dirOf s pa n).isNone && !(s.coh.wbufs.any fun w => overlap w.pa w.gsz pa n) &&
    !(s.coh.homeQ.any fun q => overlap q.msg.pa q.msg.gsz pa n)

/-- The grain, as its address and size, of an access by physical address with no leaf (R85): that of the directory entry which holds the address, or
else 128 bytes. -/
def grainAt (s : State) (a : Nat) : Nat × Nat := match dirOf s a 1 with
  | some e => (e.pa, e.gsz)
  | none => (a / 128 * 128, 128)

/-- n bytes at `a` cut at the boundaries of such grains: (address, number, grain, its size). -/
def cutGrains (s : State) : Nat → Nat → Nat → List (Nat × Nat × Nat × Nat)
  | 0, _, _ => []
  | fuel + 1, a, n =>
    if n = 0 then [] else
    let (g, sz) := grainAt s a
    let k := min n (g + sz - a)
    (a, k, g, sz) :: cutGrains s fuel (a + k) (n - k)

/-- One write of the device within a grain. -/
def devLine (a grain gsz : Nat) (bs : List Byte) (s : State) : State :=
  if freeHere s a bs.length then memWrite a bs (recallNow a bs.length s) else
  queueLast ⟨.poke, { homeMsg grain gsz with
    data := splice (List.replicate gsz 0) (a - grain) bs
    bmask := (List.range gsz).map fun i => decide (a ≤ grain + i) && decide (grain + i < a + bs.length) }, [], false⟩ s

/-- A write of the device. -/
def devWrite (a : Nat) (bs : List Byte) (s : State) : State :=
  (cutGrains s (bs.length / 32 + 2) a bs.length).foldl (fun s p => devLine p.1 p.2.2.1 p.2.2.2 (slice 0 bs (p.1 - a) p.2.1) s) s

/-- The writes of the device that wait at their homes, the latest first. -/
def pokes (s : State) : List HReq := ((s.coh.txns.map (·.req) ++ s.coh.homeQ).filter (·.kind == .poke)).reverse

/-- A byte of its tables as the device reads it: what it has itself written last, else the newest value. -/
def devByte (s : State) (a : Nat) : Byte :=
  match (pokes s).find? fun q => overlap q.msg.pa q.msg.gsz a 1 && q.msg.bmask.getD (a - q.msg.pa) false with
  | some q => q.msg.data.getD (a - q.msg.pa) 0
  | none => newestByte s a
def devRead (s : State) (a n : Nat) : List Byte := (List.range n).map fun i => devByte s (a + i)

/-! ## Who makes an uncached access whose caller asks again -/

/-- The numbers of the callers: a live slot of a group, an operation, a queue engine's work for a queue, and a part of an operation. -/
def groupKey (g : GRef) : Nat := 4 * ((g.blk * 32 + g.gid) * 2 + g.low.toNat)
def opKey (op : Nat) : Nat := 4 * op + 1
def queueKey (q use : Nat) : Nat := 4 * (q * 4 + use) + 2
def partKey (op part : Nat) : Nat := 4 * (op * 2 ^ 20 + part) + 3

/-- The caller has taken its answers, or has given the access up. -/
def dropAsks (who : Nat) (s : State) : State := { s with coh := { s.coh with asks := s.coh.asks.filter (·.who != who) } }

/-- The same for every part of an operation. -/
def dropParts (op : Nat) (s : State) : State :=
  { s with coh := { s.coh with asks := s.coh.asks.filter fun a => !(a.who % 4 == 3 && a.who / 4 / 2 ^ 20 == op) } }

end Sys2Proof.Machine
end

