-- ==== Sys2Proof/Machine/Classifier.lean ====
section
/-! DEFINITION. Region labels and the sharing classifier (R112 to R121, R128): the label byte, the region table, which requests a
label refuses, the counters and the verdict; and the page-heat sample that every home takes (R71, R72). -/

namespace Sys2Proof.Machine

open Sys2Proof

/-! ## Page heat (R71 to R74) -/

/-- The address of the heat byte of a page in device or pool memory. -/
def heatAddr (s : State) (pa : Nat) : Option Nat :=
  let base := bits s.mg.heatctl.toNat 51 12 * 4096
  match spaceOf pa with
  | .hbm => some (base + pa / 4096)
  | .pool => some (base + 0x06000000 + (pa - poolBase) / 4096)
  | .comp => some (ctAddr s (compP (pa / 4096)) + 59)
  | .host => none
  | .pad => none

/-- A heat byte after a sample or a halving (R71, R74). -/
def newHeat (half : Bool) (h : Nat) : Nat := if half then h / 2 else min 255 (h + 1)

/-- A sample or a halving of the heat byte at `a` is applied: one read-modify-write at the byte's home. The HEAT field that a home slice
has cached of that byte's compression-table entry goes with it. -/
def applyHeat (half : Bool) (a : Nat) (s : State) : State :=
  let h := newHeat half (memByte s a).toNat
  let s := memWrite a [BitVec.ofNat 8 h] (recallNow a 1 s)
  let mine := fun c : CompPage => decide (ctAddr s (compP c.page) + 59 = a)
  { s with coh := { s.coh with
      comp := mapIf mine (fun c => { c with entry := BitVec.ofNat 512 (setBits c.entry.toNat 479 472 h) }) s.coh.comp } }

/-- A sample or a halving reaches the home of the heat byte: it is applied there at once, or in its turn (R74). -/
def heatStep (half : Bool) (a : Nat) (s : State) : State :=
  if freeHere s a 1 then applyHeat half a s
  else
    let (g, sz) := grainAt s a
    queueLast ⟨if half then .halve else .heat, { homeMsg g sz with off := a - g }, [], false⟩ s

/-- An access arrives at its home: Q goes up, and the access is sampled when its low HEATSHIFT bits are zero. -/
def heatSample (pa : Nat) (heat : Bool) (s : State) : State :=
  let home := homeOf pa
  if home = 257 then s else
  let q := (FMap.get 0 s.coh.heatQ home + 1) % 2 ^ 32
  let s := { s with coh := { s.coh with heatQ := FMap.set 0 s.coh.heatQ home q } }
  let ctl := s.mg.heatctl.toNat
  if heat && bit ctl 0 && q % 2 ^ bits ctl 7 4 == 0 then
    match heatAddr s pa with
    | some a => heatStep false a s
    | none => s
  else s

/-! ## The label byte and the region table (R112 to R117) -/

def Label.num : Label → Nat
  | .uncl => 0
  | .priv => 1
  | .ro => 2
  | .migr => 3
  | .pc => 4
  | .cont => 5
def labelOf : Nat → Label
  | 1 => .priv
  | 2 => .ro
  | 3 => .migr
  | 4 => .pc
  | 5 => .cont
  | _ => .uncl

/-- The address of a region's label byte (R113). -/
def labelAddr (s : State) (pa : Nat) : Nat :=
  bits s.mg.ltctl.toNat 51 12 * 4096 + (if spaceOf pa = .pool then 0x06000000 + (pa - poolBase) / 4096 else pa / 4096)

/-- Whether a region carries a label (R114, R115). -/
def labelled (s : State) (pa : Nat) : Bool :=
  bit s.mg.ltctl.toNat 0 && (spaceOf pa == .hbm || spaceOf pa == .pool)

/-- A region-table entry with its counters at zero. -/
def newRegion (page label : Nat) (asrt lock : Bool) : Region :=
  { page := page, label := label, asrt := asrt, lock := lock, aag := 0, actx := 0, avf := 0, sw := false, tgt := 0, cand := 0,
    cv := false, txn := 0, closing := false, fa := 0, oth := false, lr := 0, lrv := false, lw := 0, lwv := false, wsr := false, nwr := 0, rch := 0,
    rarw := 0, hnd := 0, wil := 0, hist := 0, nchg := 0, swAwait := [], swAsrt := false, swLock := false, swCmd := none,
    swOwner := (0, 0, 0) }

def putRegion (r : Region) (s : State) : State :=
  { s with coh := { s.coh with regions := s.coh.regions.filter (·.page != r.page) ++ [r] } }

/-- The label byte of an entry (R112). -/
def Region.byte (r : Region) : Nat := r.label + 8 * r.asrt.toNat + 16 * r.lock.toNat

/-- Only the home writes the byte: it goes to the table whenever it changes. -/
def writeLabel (r : Region) (s : State) : State := devWrite (labelAddr s (r.page * 4096)) [BitVec.ofNat 8 r.byte] s

/-- The region-table entry of an address, refilled from the label byte where it was evicted; a reserved byte becomes 0 (R115). -/
def regionIn (pa : Nat) (s : State) : Region × State := match regionOf s pa with
  | some r => (r, s)
  | none =>
    let b := (devByte s (labelAddr s pa)).toNat
    if 32 ≤ b ∨ 6 ≤ b % 8 then
      let r := newRegion (pa / 4096) 0 false false
      (r, putRegion r (writeLabel r s))
    else
      let r := newRegion (pa / 4096) (b % 8) (bit b 3) (bit b 4)
      (r, putRegion r s)

/-- Whether an entry is pinned (R116). -/
def Region.pinned (r : Region) : Bool := r.asrt || r.lock || r.sw

/-- Whether one more entry of a home may be pinned. -/
def pinnable (s : State) (r : Region) : Bool :=
  r.pinned || decide ((s.coh.regions.filter fun x => x.pinned && homeOf (x.page * 4096) == homeOf (r.page * 4096)).length <
    (if homeOf (r.page * 4096) = 256 then Config.pinPool else Config.pinSlice))

/-! ## What a label does with a request (R123, R128) -/

/-- The write requests. -/
def HKind.writes : HKind → Bool
  | .rds => false
  | .rdx => true
  | .upg => true
  | .update => true
  | .uread => false
  | .uwrite => true
  | .reduce => true
  | .hostSnoop => false
  | .lrd => false
  | .lset => false
  | .llock => false
  | .lunl => false
  | .lhist => false
  | .poke => true
  | .heat => true
  | .halve => true

def HKind.isLabel : HKind → Bool
  | .lrd => true
  | .lset => true
  | .llock => true
  | .lunl => true
  | .lhist => true
  | .rds => false
  | .rdx => false
  | .upg => false
  | .update => false
  | .uread => false
  | .uwrite => false
  | .reduce => false
  | .hostSnoop => false
  | .poke => false
  | .heat => false
  | .halve => false

/-- The writes of the device itself, which no label governs and nothing counts. -/
def HKind.isDevice : HKind → Bool
  | .poke => true
  | .heat => true
  | .halve => true
  | .rds => false
  | .rdx => false
  | .upg => false
  | .update => false
  | .uread => false
  | .uwrite => false
  | .reduce => false
  | .hostSnoop => false
  | .lrd => false
  | .lset => false
  | .llock => false
  | .lunl => false
  | .lhist => false

/-- Whether an asserted label forbids a request (R128). -/
def forbids (r : Region) (writes : Bool) (agent ctx : Nat) : Bool :=
  let other := agent ≠ r.aag ∨ ctx ≠ r.actx
  r.asrt && ((r.label == 2 && writes) || (r.label == 1 && decide other) || (r.label == 4 && writes && decide other))

/-- What the home decides by the label before it serves a request: refuse it, switch the region to UNCL and hold it, hold it until an
entry can be pinned for that (R116), or serve it under the label. -/
inductive Verdict where
  | refuse (r : Region) | switch (r : Region) (lock : Bool) | hold | serve (l : Label)
  deriving DecidableEq, Repr

def judge (pa : Nat) (writes : Bool) (agent ctx vf : Nat) (s : State) : Verdict × State :=
  if !labelled s pa then (.serve .uncl, s) else
  let (r, s) := regionIn pa s
  if forbids r writes agent ctx then (if vf = r.avf then .refuse r else .switch r false, s)
  else if r.label = 2 && writes && !r.asrt then (if pinnable s r then .switch r r.lock else .hold, s)
  else (.serve (labelOf r.label), s)

/-- A message with the REASON of a refusal, and for a label violation the words of R135. -/
def refusal (m : Msg) (reason : Nat) (r : Option Region) : Msg :=
  let w := r.getD (newRegion 0 0 false false)
  { m with frm := 512, dst := m.req, reason := reason, lbyte := w.byte, aag := w.aag, actx := w.actx }

/-! ## The counters (R118 to R121) -/

/-- One counted access by agent g, the first of its window where `first` (R119). -/
def countAccess (first : Bool) (g : Nat) (write : Bool) (r : Region) : Region :=
  let r := if first then { r with fa := g } else if g ≠ r.fa then { r with oth := true } else r
  if write then
    let hand := r.lwv && g != r.lw
    { r with
      nwr := satU 6 (r.nwr + 1),
      hnd := if hand && r.lrv && r.lr == g then satU 4 (r.hnd + 1) else r.hnd,
      wil := if hand && !(r.lrv && r.lr == g) then satU 4 (r.wil + 1) else r.wil,
      wsr := true, lw := g, lwv := true }
  else
    { r with
      rch := if !r.lrv || g != r.lr then satU 4 (r.rch + 1) else r.rch,
      rarw := if r.wsr && r.lwv && g != r.lw then satU 4 (r.rarw + 1) else r.rarw,
      wsr := false, lr := g, lrv := true }
where
  satU (n v : Nat) : Nat := min v (2 ^ n - 1)

/-- The verdict of a window (R120). -/
def verdict (r : Region) : Nat :=
  if !r.oth then 1 else if r.nwr = 0 then 2 else if r.hnd = 0 ∧ r.wil = 0 ∧ 4 ≤ r.rarw then 4
  else if 4 ≤ r.wil then 5 else if 2 ≤ r.hnd ∧ r.wil ≤ 1 then 3 else 0

/-- Clear the counters from TXN down to WIL. -/
def clearCounts (r : Region) : Region :=
  { r with txn := 0, closing := false, fa := 0, oth := false, lr := 0, lrv := false, lw := 0, lwv := false, wsr := false, nwr := 0, rch := 0,
           rarw := 0, hnd := 0, wil := 0 }

/-- The entry of a region that has changed its label (step 4 of R127). -/
def relabelled (r : Region) (tgt : Nat) (asrt lock : Bool) (owner : Nat × Nat × Nat) : Region :=
  { clearCounts r with
    label := tgt, asrt := asrt, lock := lock, sw := false, cv := false, hist := BitVec.ofNat 12 (r.label * 512 + r.hist.toNat / 8),
    nchg := min 511 (r.nchg + 1), aag := owner.1, actx := owner.2.1, avf := owner.2.2, swCmd := none }

/-- Mark a region as SWITCHING to a label (R127): from here its home holds every request to it. The recall follows when the
transactions open on it have closed; until then (512, 0) stands for them. -/
def beginSwitch (r : Region) (tgt : Nat) (asrt lock : Bool) (cmd : Option Msg) (owner : Nat × Nat × Nat) (s : State) : State :=
  putRegion { r with sw := true, tgt := tgt, swAsrt := asrt, swLock := lock, swCmd := cmd, swOwner := owner, swAwait := [(512, 0)] } s

/-! ## Writes by one atomic step

The walker's update of A and D (R145) and a record of a fault ring (R151) are requests as any write is (R128). -/

/-- What such a write comes to: done, refused by a label, or not yet. -/
inductive CohW where
  | ok (s : State) | refused (m : Msg) | wait
  deriving DecidableEq, Repr

/-- The bytes are written once nothing is in the way; every copy of them goes. -/
def writeNow (pa : Nat) (bs : List Byte) (s : State) : State := memWrite pa bs (recallNow pa bs.length (queueWake pa bs.length s))

/-- A write that a label turns to UNCL first (R128): SWITCHING takes the copies of the whole region in the same step (R127), once no transaction and
no write-back is under way in it. -/
def switchNow (r : Region) (lock : Bool) (s : State) : Option State :=
  if s.coh.txns.any (fun t => t.pa / 4096 == r.page || t.req.msg.pa / 4096 == r.page) || s.coh.wbufs.any fun w => w.pa / 4096 == r.page then none
  else
    let r' := relabelled r 0 false lock (r.aag, r.actx, r.avf)
    some (writeLabel r' (putRegion r' (recallNow (r.page * 4096) 4096 (queueWake (r.page * 4096) 4096 s))))

/-- A coherent write by one atomic step of an agent for a context and function: it waits while the home is busy with the bytes or a write-back of
them is in flight. -/
def cohWrite (agent ctx vf pa : Nat) (bs : List Byte) (s : State) : CohW :=
  if busy s pa bs.length || s.coh.wbufs.any (fun w => overlap w.pa w.gsz pa bs.length) then .wait else
  match judge pa true agent ctx vf s with
  | (.refuse r, _) => .refused (refusal { homeMsg pa 128 with req := agent, ctx := ctx, vf := vf } 2 (some r))
  | (.hold, _) => .wait
  | (.serve _, s) => .ok (writeNow pa bs s)
  | (.switch r lock, s) => match switchNow r lock s with
    | some s => .ok (writeNow pa bs s)
    | none => .wait

/-- Close the window of an entry whose 64th transaction has been counted (R120, R121, R128). A label change whose entry cannot be pinned
does not begin: the verdict stays the candidate, for a later window to repeat (R116; DESIGN CHOICE, log entry 102). -/
def closeClassWindow (r : Region) (s : State) : State :=
  let v := verdict r
  let c := clearCounts r
  if r.asrt || r.lock || v == r.label then putRegion { c with cv := false } s
  else if r.cv && r.cand == v && pinnable s r then beginSwitch { c with cv := false } v false false none (r.aag, r.actx, r.avf) s
  else putRegion { c with cand := v, cv := true } s

/-- A transaction of a region closes at the home: its accesses are counted in order (R118, R119). The window's 64th leaves TXN at 63 and
the verdict due (R120); a transaction that closes before WINDOW_CLOSE finds the window closed first. -/
def countTxn (pa : Nat) (accs : List (Nat × Bool)) (s : State) : State :=
  if !labelled s pa || accs.isEmpty || switching s pa then s else
  let (r, s) := regionIn pa s
  let s := if r.closing then closeClassWindow r s else s
  if switching s pa then post 0 (.windowClose r.page) s else
  let (r, s) := regionIn pa s
  let r' := (accs.foldl (fun (p : Bool × Region) a => (false, countAccess p.1 a.1 a.2 p.2)) (decide (r.txn = 0), r)).2
  let s := putRegion { r' with txn := min 63 (r.txn + 1), closing := decide (r.txn = 63) } s
  if r.txn = 63 then post 0 (.windowClose r.page) s else s

end Sys2Proof.Machine
end

