-- ==== Sys2Proof/Machine/Translate.lean ====
section
/-! DEFINITION. Translation: page-table entries (R141 to R143), the walk (R140, R142), permissions and the A and D bits (R144,
R145), the TLBs (R146), and the fetch of instruction bytes (R309 to R311). A walk reads and writes the tables coherently; while
the home of a table is busy the translation waits. -/

namespace Sys2Proof.Machine

open Sys2Proof

/-- The access kinds of R152: ACC 0 to 3. -/
inductive AccType where
  | read | write | fetch | atomic
  deriving DecidableEq, Repr

def AccType.code : AccType → Nat
  | .read => 0
  | .write => 1
  | .fetch => 2
  | .atomic => 3

def AccType.writes : AccType → Bool
  | .read => false
  | .write => true
  | .fetch => false
  | .atomic => true

/-- What translation answers: an address with its leaf, a fault with its CAUSE (R152), a Nak met in a page table (R63, R128, R165), or not yet. -/
inductive Xlat where
  | ok (pa : Nat) (leaf : Leaf) | fault (cause : Nat) | nak (m : Msg) | wait
  deriving DecidableEq, Repr

/-- A canonical address (R140). -/
def canonical (va : W64) : Bool := va.toNat / 2 ^ 47 = 0 || va.toNat / 2 ^ 47 = 2 ^ 17 - 1

/-- The base in the physical space of this model of frame `pfn` under KIND and CMP for a function, or none where R58 knows no
such frame. A host page of a context of the PF, which no port owns, is on port A (DESIGN CHOICE, log entry 106). -/
def frameBase (s : State) (vf kind : Nat) (cmp : Bool) (pfn : Nat) : Option Nat :=
  let pa := pfn * 4096
  match kind, cmp with
  | 0, false => if pa < Config.hbmBytes then some pa else none
  | 0, true => if pa / 2 ^ 48 = 1 ∧ compP pfn < s.mg.ctlim.toNat then some pa else none
  | 1, false => if (decoderOf s pa).isSome then some (poolBase + pa) else none
  | 2, false => some (hostBase + (if vf ≠ 0 ∧ bit (fnOf s vf).policy.toNat 13 then hostPort else 0) + pa)
  | _, _ => none

/-- The leaf a level-`lvl` entry gives, its slot being where A and D are set; or the CAUSE of the fault (R142 to R144). -/
def leafOf (s : State) (vf lvl slot e : Nat) : Leaf ⊕ Nat :=
  let size := if lvl = 3 then 2 ^ 30 else if lvl = 2 then 2 ^ 21 else if bit e 11 then 2 ^ 16 else 4096
  let pfn := bits e 51 12
  let kind := bits e 10 9
  let g := bits e 6 5
  if bits e 62 52 ≠ 0 ∨ g = 3 ∨ kind = 3 ∨ pfn % (size / 4096) ≠ 0 then .inr 3 else
  match frameBase s vf kind (bit e 7) pfn with
  | none => .inr 0
  | some base =>
    .inl { page := base, size := size, w := bit e 1, x := bit e 2,
           grain := if kind = 2 then 128 else if g = 0 then 128 else if g = 1 then 32 else 512,
           cmp := bit e 7, heat := bit e 8, kind := kind, d := bit e 4, slot := slot }

/-- The result of a walk: a leaf, a CAUSE, an error met in a table, or not yet. -/
inductive Walk where
  | leaf (l : Leaf) | fault (cause : Nat) | nak (reason : Nat) | wait
  deriving DecidableEq, Repr

/-- The walk from the table at physical address `t` of level `lvl` (R140 to R143). -/
def walkFrom (s : State) (vf : Nat) (va : Nat) : Nat → Nat → Walk
  | 0, _ => .fault 0
  | lvl + 1, t =>
    let slot := t + 8 * bits va (12 + 9 * lvl + 8) (12 + 9 * lvl)
    if Config.hbmBytes ≤ t ∨ homeLost s slot = true then .fault 0 else
    match cohLook s slot 8 with
    | .wait => .wait
    | .nak r => .nak r
    | .ok bs =>
      let e := ofBytes bs
      let fin := fun (slot e : Nat) => match leafOf s vf (lvl + 1) slot e with
        | .inl l => Walk.leaf l
        | .inr c => Walk.fault c
      if !bit e 0 then .fault 0
      else if lvl = 0 then
        if !bit e 11 then fin slot e else
        let first := slot / 128 * 128
        match cohLook s first 8 with
        | .wait => .wait
        | .nak r => .nak r
        | .ok fs =>
          let f := ofBytes fs
          if !bit f 0 then .fault 0 else if !bit f 11 then .fault 3 else fin first f
      else if bit e 11 then (if lvl = 3 then .fault 3 else fin slot e)
      else walkFrom s vf va lvl (bits e 51 12 * 4096)

/-- The touched-dies bits of the table reads of a walk, whether it finds a leaf or faults (R17). A table on a lost die is not read. -/
def walkTouch (s : State) (va : Nat) : Nat → Nat → Nat
  | 0, _ => 0
  | lvl + 1, t =>
    let slot := t + 8 * bits va (12 + 9 * lvl + 8) (12 + 9 * lvl)
    if Config.hbmBytes ≤ t ∨ homeLost s slot = true then 0 else
    let e := ofBytes ((List.range 8).map fun i => newestByte s (slot + i))
    tdmBits s slot ||| (if bit e 0 && !bit e 11 then walkTouch s va lvl (bits e 51 12 * 4096) else 0)

/-- Set A, and on a write D, in a leaf by an atomic OR of an agent for a context and function (R145). -/
def setAD (agent ctx vf slot : Nat) (wr : Bool) (s : State) : CohW :=
  match cohRead s slot 8 with
  | none => .wait
  | some bs =>
    let e := BitVec.ofNat 64 (ofBytes bs) ||| (if wr then 0x18#64 else 0x08#64)
    if e.toNat = ofBytes bs then .ok s else cohWrite agent ctx vf slot (toBytes 8 e.toNat) s

/-- The agent number under which a TLB's owner reads (R89, R118). -/
def Tlb.agent : Tlb → Nat
  | .core n => n
  | .copy n => n
  | .queue => 178
  | .iod => 178

/-- The Nak that an error in a page table stands for (R63, R165). -/
def tableNak (agent reason : Nat) : Msg := { homeMsg 0 128 with req := agent, reason := reason }

def tlbFind (s : State) (t : Tlb) (ctx vpn : Nat) : Option Leaf :=
  (s.tlbs.find? fun e => e.tlb == t && e.ctx == ctx && e.vpn == vpn).map (·.leaf)

def tlbFill (t : Tlb) (ctx vpn : Nat) (l : Leaf) (s : State) : State :=
  { s with tlbs := s.tlbs.filter (fun e => !(e.tlb == t && e.ctx == ctx && e.vpn == vpn)) ++ [⟨t, ctx, vpn, l⟩] }

/-- The address that a leaf gives, if it permits the access (R144); a page whose home or base die is out of service is not mapped (R21). -/
def leafGive (s : State) (l : Leaf) (va : Nat) (acc : AccType) : Xlat :=
  if homeLost s (l.page + va % l.size) then .fault 0
  else if acc.writes && !l.w then .fault 1 else if acc = .fetch && !l.x then .fault 2
  else .ok (l.page + va % l.size) l

/-- The touched-dies bits of the walk that translating an address takes: none where the TLB holds it. -/
def walkBits (s : State) (t : Tlb) (ctx : Nat) (va : W64) : Nat := match ctxOf s ctx with
  | none => 0
  | some c =>
    if !c.en || (tlbFind s t ctx (va.toNat % 2 ^ 48 / 4096)).isSome then 0
    else walkTouch s (va.toNat % 2 ^ 48) 4 (c.root.toNat * 4096)

/-- Translate a canonical address through a TLB (R140 to R147): a hit gives its leaf; otherwise, and at the first write through a
leaf whose D is clear, the tables are walked, A and D are set, and the TLB is filled. -/
def translate (t : Tlb) (ctx : Nat) (acc : AccType) (va : W64) (s : State) : Xlat × State :=
  match ctxOf s ctx with
  | none => (.fault 0, s)
  | some c =>
    if !c.en then (.fault 0, s) else
    let v := va.toNat % 2 ^ 48
    let vpn := v / 4096
    let walked := fun s => setTdm ctx (walkTouch s v 4 (c.root.toNat * 4096)) s
    let slow := match walkFrom s c.vf v 4 (c.root.toNat * 4096) with
      | .wait => (Xlat.wait, s)
      | .fault n => (.fault n, walked s)
      | .nak r => (.nak (tableNak t.agent r), walked s)
      | .leaf l => match leafGive s l v acc with
        | .fault n => (.fault n, walked s)
        | .nak m => (.nak m, walked s)
        | .wait => (.wait, s)
        | .ok pa _ => match setAD t.agent ctx c.vf l.slot acc.writes (walked s) with
          | .wait => (.wait, s)
          | .refused m => (.nak m, walked s)
          | .ok s => (.ok pa l, tlbFill t ctx vpn { l with d := l.d || acc.writes } s)
    match tlbFind s t ctx vpn with
    | some l => if acc.writes && l.w && !l.d then slow else (leafGive s l v acc, s)
    | none => slow

/-- What translation would answer, with no A, D or TLB change, as run-ahead and walk-ahead look at pages (R148, R154). The touched-dies bits
of the walk are `walkBits`. -/
def probe (s : State) (t : Tlb) (ctx : Nat) (acc : AccType) (va : W64) : Xlat :=
  match ctxOf s ctx with
  | none => .fault 0
  | some c => if !c.en then .fault 0 else match tlbFind s t ctx (va.toNat % 2 ^ 48 / 4096) with
    | some l => leafGive s l (va.toNat % 2 ^ 48) acc
    | none => match walkFrom s c.vf (va.toNat % 2 ^ 48) 4 (c.root.toNat * 4096) with
      | .wait => .wait
      | .fault n => .fault n
      | .nak r => .nak (tableNak t.agent r)
      | .leaf l => leafGive s l (va.toNat % 2 ^ 48) acc

/-! ## The instruction buffer (R311) -/

/-- What a read of code finds: the bytes from the address to the end of its 32-byte window, a page fault with its CAUSE, a Nak with the physical
address (0 where it is not translated), or not yet, with the physical address that it waits for. -/
inductive Code where
  | ok (bs : List Byte) | fault (cause : Nat) | nak (m : Msg) (pa : Nat) | wait (at_ : Option Nat)
  deriving DecidableEq, Repr

/-- The window of an address in the instruction buffer of a core, as a block may use it: the oldest that was read after the block's placement,
so that no group takes code older than its launch. -/
def bufFind (s : State) (core ctx blk : Nat) (pc : W64) : Option (List Byte) :=
  (s.coh.ibuf.find? fun w => w.core == core && w.ctx == ctx && w.win == pc.toNat / 32 && decide (blk < w.born)).map (·.data)

/-- The window of a translated address: from the instruction buffer, else by one coherent read of all of it. -/
def windowAt (s : State) (core ctx blk : Nat) (pc : W64) : Xlat → Code
  | .wait => .wait none
  | .fault c => .fault c
  | .nak m => .nak m 0
  | .ok pa _ => match bufFind s core ctx blk pc with
    | some bs => .ok bs
    | none => match cohLook s (pa / 32 * 32) 32 with
      | .wait => .wait (some pa)
      | .nak r => .nak { homeMsg pa 128 with req := core, reason := r } pa
      | .ok bs => .ok bs

/-- The code from `pc` on, without translating anew. -/
def codeAt (s : State) (core ctx blk : Nat) (pc : W64) : Code :=
  if !canonical pc then .fault 0 else
  match windowAt s core ctx blk pc (probe s (.core core) ctx .fetch pc) with
  | .ok bs => .ok (bs.drop (pc.toNat % 32))
  | .fault c => .fault c
  | .nak m pa => .nak m pa
  | .wait pa => .wait pa

/-- Keep a window that has been read for the blocks that may still use it. The buffer has no capacity (DESIGN CHOICE, log entry 92). -/
def bufFill (core ctx : Nat) (pc : W64) (bs : List Byte) (s : State) : State :=
  { s with coh := { s.coh with ibuf :=
      (s.coh.ibuf.filter fun w => s.blocks.any fun b => b.core == w.core && b.ctx == w.ctx && decide (b.id < w.born)) ++
        [⟨core, ctx, pc.toNat / 32, s.nextId, bs⟩] } }

/-- Drop windows from the instruction buffers. -/
def dropWindows (p : IWin → Bool) (s : State) : State := { s with coh := { s.coh with ibuf := s.coh.ibuf.filter fun w => !p w } }

/-- The fetch of the code at `pc` for a block (R309 to R311), and the state after it: a window that is not in the buffer touches its dies (R17) and
enters the buffer, or is asked for. -/
def fetchCode (core ctx blk : Nat) (pc : W64) (x : Xlat) (s : State) : Code × State :=
  let held := (bufFind s core ctx blk pc).isSome
  match windowAt s core ctx blk pc x, x with
  | .ok bs, .ok pa _ => (.ok (bs.drop (pc.toNat % 32)), if held then s else bufFill core ctx pc bs (touch ctx pa s))
  | .wait (some pa), _ => (.wait (some pa), wantLines pa (touch ctx pa s))
  | .nak m pa, .ok _ _ => (.nak m pa, touch ctx pa s)
  | c, _ => (c, s)

/-- The bytes from `pc` to the end of its window, where they can be had now. -/
def peek (s : State) (core ctx blk : Nat) (pc : W64) : Option (List Byte) := match codeAt s core ctx blk pc with
  | .ok bs => some bs
  | .fault _ => none
  | .nak _ _ => none
  | .wait _ => none

/-- Whether a word extends an open chain (R240): a class that may lie in a chain, with a latch code in a source field. -/
def readsLatch (bs : List Byte) : Bool :=
  let w := ofBytes (bs.take 16)
  let maj := bits w 7 2
  let isL := fun c => decide (1536 ≤ c ∧ c < 1539)
  (maj == 5 || decide (8 ≤ maj ∧ maj ≤ 0x16) || maj == 0x18 || maj == 0x19) && w % 4 != 3 &&
    (isL (bits w 42 32) || isL (bits w 53 43) || ((w % 4 == 2 || (w % 4 == 1 && decide (bits w 13 8 < 0x20))) && isL (bits w 74 64) && maj != 5))

/-- The address of the next word that is no pad word (R309), over at most `n` windows. -/
def skipPad (s : State) (core ctx blk : Nat) : Nat → W64 → W64
  | 0, pc => pc
  | n + 1, pc => match peek s core ctx blk pc with
    | some bs => if (bs.headD 0).toNat % 4 = 3 then skipPad s core ctx blk n (BitVec.ofNat 64 (pc.toNat / 32 * 32 + 32)) else pc
    | none => pc

end Sys2Proof.Machine
end

