-- ==== Sys2Proof/Machine/Ops.lean ====
section
/-! DEFINITION. The shared operations of every instruction: issue by a live entry (R223, R226, R239 to R242), taking a trap and
returning from it (R160 to R164, R337), stopping a context, posting replayable faults (R150 to R156), run-ahead (R154, R155),
and the wake of waiting entries (R181). -/

namespace Sys2Proof.Machine

open Sys2Proof

/-! ## Waking entries (R181) -/

/-- Whether a live entry of a group is ready (R226). -/
def anyReady (g : Group) : Bool := [false, true].any fun low => (liveEntry g low).any (·.wait == .none)

/-- End the waits that `p` holds for, in one group and in the stack to which a run-ahead rolls it back; its ready time for R182 starts now,
unless a path of it was ready already. -/
def wakeIn (p : Wait → Bool) (now : Nat) (g : Group) : Group :=
  let hit := fun e : Entry => p e.wait
  let wake := mapIf hit (fun e => { e with wait := .none })
  if g.stack.any hit || g.ahead.any (·.stack.any hit) then
    { g with stack := wake g.stack, ahead := g.ahead.map (fun r => { r with stack := wake r.stack }),
             waitFrom := if anyReady g then g.waitFrom else now }
  else g

/-- End the waits that `p` holds for, in the groups of the blocks that `q` holds for. -/
def wakeWhere (q : Block → Bool) (p : Wait → Bool) (s : State) : State :=
  { s with blocks := mapIf q (fun b => { b with groups := b.groups.map (wakeIn p s.mcyc) }) s.blocks }

def wakeGrp (g : GRef) (p : Wait → Bool) (s : State) : State := modGrp g (wakeIn p s.mcyc) s

/-- End the waits of a group that its in-flight counters satisfy (R250, R429); a rolesw looks again (R347). -/
def settleCounters (now : Nat) (g : Group) : Group :=
  wakeIn (fun w => match w with
    | .waitp p n => decide (cnt g p ≤ n)
    | .mwait n => !(g.closed.any fun b => decide (b.num ≤ n) && !b.done)
    | .rolesw => true
    | _ => false) now g

/-- An operation of a group completes: its counter falls, its pending writes have arrived, and waits on it end. -/
def finishOp (g : GRef) (op : Nat) (s : State) : State :=
  modGrp g (fun x => settleCounters s.mcyc (complete op
    { x with pend := x.pend.filter (·.op != op), busy := x.busy.filter (·.op != op), marks := x.marks.filter (· != op) })) s

/-- The result of an operation lands in the registers of a group, and in those to which a run-ahead rolls it back (R155). -/
def landIn (f : Group → Group) (x : Group) : Group := match x.ahead with
  | none => f x
  | some r =>
    let old := f { x with k := r.k, m := r.m, v := r.v }
    let y := f x
    { y with ahead := some { r with k := old.k, m := old.m, v := old.v } }
def landGrp (g : GRef) (f : Group → Group) (s : State) : State := modGrp g (landIn f) s

/-- A reference to an exited group or to one that no longer exists. -/
def gone (g : GRef) (s : State) : Bool := (grpOf s g).all (·.exited)

/-! ## The issuing instruction -/

/-- What an issuing instruction sees: its group and live slot, the block, the launch, the group and the entry as they were before
it, the address of the next word, and its active mask (R220). -/
structure Iss where
  g : GRef
  blk : Block
  lau : Launch
  grp : Group
  ent : Entry
  npc : W64
  mask : Mask
  deriving DecidableEq, Repr

def Iss.ctx (x : Iss) : Nat := x.blk.ctx
def Iss.vf (x : Iss) : Nat := x.blk.vf
def Iss.core (x : Iss) : Nat := x.blk.core
def Iss.lrec (x : Iss) : LRec := x.lau.lrec

/-- The vector registers a group holds: B + X (R231). -/
def vregsOf (l : LRec) (g : Group) : Nat := baseRegs l + g.ext

/-- The view of live slot `g` for a word of length `len` and mask register `msk`; tret confines the lanes of the one instruction that trapped (R337). -/
def issRaw (g : GRef) (len msk : Nat) (s : State) : Option Iss :=
  (blkOf s g.blk).bind fun b => (launchOf s b.launch).bind fun l => (grpIn b g.gid).bind fun gr =>
    (liveEntry gr g.low).map fun e =>
      { g := g, blk := b, lau := l, grp := gr, ent := e, npc := e.pc + BitVec.ofNat 64 len,
        mask := e.mask &&& mget gr msk &&& (match e.reissue with
          | some (m, _, at_) => if e.pc = at_ then m else BitVec.allOnes 64
          | none => BitVec.allOnes 64) }

/-! ## Latches and chains (R238 to R241) -/

/-- The registers that a latch is tagged with: a pair of vector registers, or the one register. -/
def latchRegs (tag : Nat) (pair : Bool) : List Nat := if pair && decide (tag < 1536) then [tag, tag + 1] else [tag]

def latchOf (e : Entry) (n : Nat) : Option Latch := e.latches.find? (·.idx == n)

/-- Whether an instruction extends the open chain: it reads a latch written within it. -/
def inChain (i : Sig) (e : Entry) : Bool :=
  i.latches.any fun n => (latchOf e n).any fun l => decide (l.age < e.chain)

/-- The view of the instruction that issues in this step; CHAINPC is that of the chain which it extends, or its own PC. -/
def issOf (i : Sig) (s : State) : Option Iss := (s.cur.bind fun g => issRaw g i.len i.msk s).map fun x =>
  { x with ent := { x.ent with chainPc := if inChain i x.ent then x.ent.chainPc else x.ent.pc } }

/-- A latch read of a latch that was not written by one of the two preceding instructions, or a fourth chain instruction. -/
def chainIll (i : Sig) (e : Entry) : Bool :=
  i.latches.any (fun n => (latchOf e n).isNone) || (inChain i e && decide (3 ≤ e.chain))

/-- The registers whose values an instruction reads, an invalid latch standing for the register it is tagged with. -/
def readRegs (i : Sig) (e : Entry) : List Nat :=
  (i.u.rd.filter fun c => !decide (1536 ≤ c ∧ c < 1539)) ++
    i.latches.flatMap fun n => match latchOf e n with
      | some l => if l.valid then [] else latchRegs l.tag l.pair
      | none => []

/-- The k register that a waiting path will be answered in (R328, R340, R460). -/
def waitsInto : Wait → Option Nat
  | .lwait kd _ => kd
  | .label _ kd => some kd
  | _ => none

/-- Whether a write of a register is pending: an asynchronous one, or that which a path of the group waits for. -/
def pending (g : Group) (r : Nat) : Bool := g.pend.any (·.reg == r) || g.stack.any fun e => (waitsInto e.wait).any (kCd · == r)

/-- The register hazards of R242: a pending register read, a pending destination written, a source of an issued mma written. -/
def hazard (i : Sig) (x : Iss) : Bool :=
  (readRegs i x.ent).any (pending x.grp) || i.writes.any (pending x.grp) ||
    i.writes.any fun r => x.grp.busy.any (·.reg == r)

/-- The address of the next word from `pc` on, past the pad words that fetch skips (R309). -/
def nextWord (s : State) (core ctx blk : Nat) (pc : W64) : W64 := skipPad s core ctx blk 64 pc

/-- Whether the next word extends an open chain of the entry; while its bytes are on their way it may. -/
def chainGoesOn (s : State) (core ctx blk : Nat) (pc : W64) : Bool := match codeAt s core ctx blk (nextWord s core ctx blk pc) with
  | .ok bs => readsLatch bs
  | .wait pa => pa.all fun a => !homeHalted s a
  | .fault _ => false
  | .nak _ _ => false

/-- The issue of any write to its tagged register invalidates a latch (R239). -/
def invalidate (ws : List Nat) (e : Entry) : Entry :=
  { e with latches := mapIf (fun l => (latchRegs l.tag l.pair).any ws.contains) (fun l => { l with valid := false }) e.latches }

/-- The issuing entry after the issue: its latches age, its chain grows, ends or begins, and it moves on, by R337 to the NPC of
a trap record once the re-issued instruction or chain has issued. -/
def nextEntry (i : Sig) (x : Iss) (s : State) (e : Entry) : Entry :=
  let ext := inChain i e
  let chain := if ext then e.chain + 1 else if i.hold ≠ 0 then 1 else 0
  let more := chain ≠ 0 && chain < 3 && chainGoesOn s x.core x.ctx x.blk.id x.npc
  let again := if ext || e.chain = 0 then e.reissue else none
  { e with
    pc := match again with
      | some (_, n, _) => if more then x.npc else n
      | none => x.npc
    reissue := if more then again else none
    launching := none
    latches := (e.latches.map fun l => { l with age := l.age + 1 }).filter fun l => decide (l.age < 2)
    chain := chain
    chainPc := if ext then e.chainPc else e.pc }

/-- The state after the issue itself, before the instruction's effect. -/
def advance (i : Sig) (x : Iss) (s : State) : State :=
  modGrp x.g (fun g => { modEntry x.g.low (nextEntry i x s) (modEntries (invalidate i.writes) g) with
    turn := !x.g.low, waitFrom := s.mcyc }) s

/-! ## Fault records (R150 to R153) -/

/-- A page found to fault: virtual page, ACC and CAUSE, and the address and lane that met it. -/
structure FPage where
  vpn : Nat
  acc : Nat
  cause : Nat
  va : W64
  lane : Nat
  deriving DecidableEq, Repr

/-- The page of an address. -/
def pageOf (va : W64) (acc cause : Nat) : FPage := ⟨va.toNat % 2 ^ 48 / 4096, acc, cause, va, 0⟩

/-- Whether two accesses met one page in one way. -/
def FPage.same (p q : FPage) : Bool := p.vpn == q.vpn && p.acc == q.acc && p.cause == q.cause

/-- Issue the next token of a function (R153). -/
def newToken (fn : Nat) (s : State) : Nat × State :=
  ((fqOf s fn).token.toNat, modFq fn (fun q => { q with token := q.token + 1 }) s)

/-- Queue records for the ring and let the device write them. -/
def queueRecs (fn : Nat) (rs : List FRec) (s : State) : State :=
  if rs.isEmpty then s else post 0 (.faultBatchPost fn) (modFq fn (fun q => { q with waiting := q.waiting ++ rs }) s)

/-- Number the records of a batch: NPG and LAST. -/
def numberRecs (rs : List FRec) : List FRec :=
  (List.range rs.length).zip rs |>.map fun (n, r) => { r with npg := n, last := n + 1 == rs.length }

def outstanding (q : FaultQ) (ctx : Nat) (p : FPage) : Option Nat :=
  (q.filter.find? fun e => e.1 == ctx && e.2.1 == p.vpn && e.2.2.1 == p.acc).map (·.2.2.2)

/-- VADDR of a page's record (R152): the canonical address of the virtual page, or for COMP.EXP that of the compressed page. -/
def FPage.vaddr (p : FPage) : Nat := p.vpn * 4096 + (if p.cause ≠ 4 ∧ bit p.vpn 35 then (2 ^ 16 - 1) * 2 ^ 48 else 0)

/-- Post one batch (R153, R155, R156): pages already outstanding are left out; a requester whose first page is outstanding
attaches to its token, and what remains carries a token of its own. Answers the token to wait on. -/
def postBatch (fn ctx src agent : Nat) (info : W64) (pages : List FPage) (w : Waiter) (s : State) : Nat × State :=
  let q := fqOf s fn
  let fresh := pages.filter fun p => (outstanding q ctx p).isNone
  let old := pages.head?.bind (outstanding q ctx)
  let (t, s) := if fresh.isEmpty then (0, s) else newToken fn s
  let s := queueRecs fn (numberRecs (fresh.map fun p => (⟨p.vaddr, ctx, t, 0, false, p.acc, p.cause, src, agent, info⟩ : FRec))) s
  let s := modFq fn (fun q => { q with filter := q.filter ++ fresh.map fun p => (ctx, p.vpn, p.acc, t) }) s
  let tok := old.getD t
  (tok, modFq fn (fun q => { q with waiters := q.waiters ++ [(tok, w)] }) s)

/-- A record that no one waits on (R160, R168, R477). -/
def postLone (fn ctx cause src agent : Nat) (info : W64) (s : State) : State :=
  let (t, s) := newToken fn s
  queueRecs fn [⟨0, ctx, t, 0, true, 0, cause, src, agent, info⟩] s

/-- INFO of a CAUSE 5 record (R152): the trap code and the PC. -/
def trapInfo (code : Nat) (pc : W64) : W64 := BitVec.ofNat 64 (code + (pc.toNat % 2 ^ 48) * 2 ^ 16)

/-! ## Traps (R160 to R163, R337) -/

/-- The code of a trap (R163). -/
def trapNum : TrapCode → Nat
  | .ill => 0x01 | .unif => 0x02 | .align => 0x03 | .prot => 0x04 | .xreg => 0x05 | .accwin => 0x06 | .labelFalse => 0x07
  | .streamCorr => 0x08 | .scopeDenied => 0x09 | .launchDepth => 0x0A | .dataUe => 0x0B | .dieLost => 0x0C | .wlCfg => 0x0D
  | .soft => 0x10 | .debug => 0x11

/-- A trap at the instruction without RESTART, with its words as a number. -/
def trapAt (c : TrapCode) (words : Nat) : Trap := ⟨c, BitVec.ofNat 256 words, false, none⟩

/-- The access words of R162. -/
def accessWords (va : W64) (doneL : Mask) (pa lane cause : Nat) (applied : Bool) (kind nakr : Nat) : BitVec 256 :=
  BitVec.ofNat 256 (va.toNat * 2 ^ 192 + doneL.toNat * 2 ^ 128 + (pa % 2 ^ 52) * 2 ^ 76 + (lane % 64) * 2 ^ 70 +
    (cause % 16) * 2 ^ 66 + applied.toNat * 2 ^ 65 + (kind % 8) * 2 ^ 62 + (nakr % 4) * 2 ^ 60)

/-- The words of PROT, CAUSE 1, at a page whose fault is killed (R158, R162). -/
def killWords (p : FPage) : BitVec 256 := accessWords p.va 0 0 p.lane 1 false (if p.acc = 1 then 1 else if p.acc = 3 then 2 else 0) 0

/-- ALIGN or PROT of a per-lane access that has performed nothing (R162). -/
def accessTrap (c : TrapCode) (va : W64) (pa lane cause kind : Nat) : Trap :=
  ⟨c, accessWords va 0 pa lane cause false kind 0, true, none⟩

/-- The header of a trap record (R161). -/
def trapHeader (x : Iss) (t : Trap) (pc npc : W64) (mask : Mask) (chain : Bool) : Nat :=
  pc.toNat * 2 ^ 192 + npc.toNat * 2 ^ 128 + mask.toNat * 2 ^ 64 + (x.ctx % 2 ^ 16) * 2 ^ 48 + trapNum t.code * 2 ^ 40 +
    (x.blk.bid % 2 ^ 16) * 2 ^ 24 + (x.grp.gid % 32) * 2 ^ 19 + (coreRank x.core % 16) * 2 ^ 15 +
    (coreFile x.core % 16) * 2 ^ 11 + x.g.low.toNat * 2 ^ 10 + t.restart.toNat * 2 ^ 9 + chain.toNat * 2 ^ 8

/-- The address after the chain that goes on at `pc`, with at most `n` instructions to come (R161). -/
def chainEnd (s : State) (core ctx blk : Nat) : Nat → W64 → W64
  | 0, pc => pc
  | n + 1, pc =>
    let p := nextWord s core ctx blk pc
    match peek s core ctx blk p with
    | some bs => if readsLatch bs then chainEnd s core ctx blk n (p + BitVec.ofNat 64 (lenOf (bs.headD 0))) else pc
    | none => pc

/-- What becomes of the work of a queue's block (R49). -/
def workEnd (q : Option (Nat × Nat)) (how : WorkEnd) (s : State) : State := match q with
  | none => s
  | some (id, seq) => post 0 (.queueCompletionWrite id)
      (modQueue id (fun q => { q with work := mapIf (fun w => w.seq == seq && w.fin == .pending) (fun w => { w with fin := how }) q.work }) s)

/-- The record of queue q (R45). -/
def queueSlot (s : State) (q : Nat) : Nat := s.mg.qtbase.toNat + 64 * q

def QState.num : QState → Nat
  | .stopped => 0
  | .running => 1
  | .parked => 2
  | .waiting => 3

/-- Write DONE, STATE and FCODE of a queue's record (R45), and no byte of it that is the driver's but the one that STATE shares with PRIO. -/
def setRecord (id done st fcode : Nat) (s : State) : State :=
  let a := queueSlot s id
  devWrite (a + 48) (toBytes 8 done)
    (devWrite (a + 32) (toBytes 4 fcode ++ toBytes 1 ((devByte s (a + 36)).toNat / 64 * 64 + st % 4 * 16)) s)

/-- The engine writes DONE, STATE and FCODE to the record (R45). CPTR is the driver's too: the engine writes it when it moves to a block, or stops
at one. -/
def saveQueue (id : Nat) (s : State) : State := match queueOf s id with
  | none => s
  | some q => setRecord id q.done.toNat q.state.num q.fcode s
def savePtr (id : Nat) (s : State) : State := match queueOf s id with
  | none => s
  | some q => devWrite (queueSlot s id + 56) (toBytes 8 q.cptr.toNat) s

/-- What the engine has noted of the accesses of a queue is gone (R54). -/
def forgetQueue (id : Nat) (s : State) : State := (List.range 4).foldl (fun s use => dropAsks (queueKey id use) s) s

/-- A queue that stops does nothing more for its blocks. -/
def halted (code : Nat) (q : Queue) : Queue :=
  { q with state := .stopped, fcode := code, stopAsked := false, serWait := false, served := false, condDone := false, faulted := [] }

/-- Stop a queue with an FCODE; CPTR then points to the block concerned, the one being served or the issuer of failed work (R52). A queue that
stands stopped stops no more, nor one that has been reset since it issued the work. -/
def stopQueue (id : Nat) (seq : Option Nat) (code : Nat) (s : State) : State := match queueOf s id with
  | none => s
  | some q =>
    let addr := seq.elim (some q.cptr) fun n => (q.work.find? (·.seq == n)).map (·.addr)
    match q.state, addr with
    | .stopped, _ => s
    | _, none => s
    | _, some a => savePtr id (saveQueue id (modQueue id (fun q => { halted code q with cptr := a }) s))

/-- End the launches that `p` holds for as KILLED (R180); the blocks of queues that issued them record no completion (R49). -/
def killLaunches (p : Launch → Bool) (s : State) : State :=
  let hit := s.launches.filter fun l => p l && l.status == .running
  let s := { s with launches := mapIf (fun l => p l && l.status == .running) (fun l => { l with status := .killed }) s.launches }
  hit.foldl (fun s l => workEnd l.queue .failed s) s

/-- Stop a context (R160): CST and STOPC, its running launches end as KILLED, and a CAUSE 5 record that no one waits on. -/
def stopContext (ctx code : Nat) (pc : W64) (agent : Nat) (s : State) : State :=
  match ctxOf s ctx with
  | none => s
  | some c =>
    let s := killLaunches (·.ctx == ctx) (modCtx ctx (fun c => { c with cst := 3, stopc := code }) s)
    postLone c.vf ctx 5 0 agent (trapInfo code pc) s

/-- Whether a trap of the group has no place to go: TVEC is 0, handler mode, or TREC + 64 beyond the slab (R160). -/
def trapStops (x : Iss) : Bool :=
  x.grp.tvec = 0 || x.grp.handler.isSome || decide (256 * x.lrec.slab < x.grp.trec + 64)

/-- Ask for the fill of an absent granule (R193). -/
def askFill (blk : Nat) (g : Granule) (s : State) : State :=
  if s.agenda.any (·.ev == .granuleFill blk g) then s else post 0 (.granuleFill blk g) s

/-- The first absent granule of a block that `p` holds for. What an access reaches in a halted block it reaches where it lives then (R187). -/
def gapOf (s : State) (blk : Nat) (p : Granule → Bool) : Option Granule :=
  (blkOf s blk).bind fun b => if b.state == .halted then none else b.absent.find? p

/-- The first absent granule of a block's slab that holds some of n bytes at offset o (R193). -/
def slabGap (s : State) (blk o n : Nat) : Option Granule := gapOf s blk fun g => match g with
  | .slab i => overlap (2048 * i) 2048 o n
  | _ => false

/-- The first absent granule that holds one of some vector registers of a group (R193). -/
def regGap (s : State) (r : GRef) (ns : List Nat) : Option Granule := gapOf s r.blk fun g => match g with
  | .vreg i => ns.any fun n => i == r.gid * 192 + n / 8
  | _ => false

/-- The granule of the slab that holds a group's trap record, where it is absent. -/
def recordGap (x : Iss) : Option Granule :=
  if x.blk.absent.contains (.slab (x.grp.trec / 2048)) then some (.slab (x.grp.trec / 2048)) else none

/-- Enter a trap on the path of `x` with the PC, NPC and mask that its record names (R160, R161), for an instruction at `inst`: write the record and
enter handler mode at TVEC on the trapping path, or stop the context. The group's other state stays as `x` holds it. The record of an absent granule
waits for its fill, as the first access to it does (R193). -/
def enterTrap (x : Iss) (chainBit : Bool) (t : Trap) (pc npc : W64) (mask : Mask) (inst : W64) (s : State) : State :=
  if trapStops x then stopContext x.ctx (trapNum t.code) pc x.core s else
  let rec_ := toBytes 32 (trapHeader x t pc npc mask chainBit) ++ toBytes 32 t.words.toNat
  let s := dropAsks (groupKey x.g) (modBlk x.g.blk (slabWrite x.grp.trec rec_) ((recordGap x).elim s (askFill x.g.blk · s)))
  modGrp x.g (fun _ =>
    { modEntry x.g.low (fun e => { e with pc := x.grp.tvec, chain := 0, reissue := none, launching := none, wait := .none }) x.grp with
      handler := some ⟨x.grp.stack.length, x.g.low, inst - pc⟩, turn := x.g.low, waitFrom := s.mcyc }) s

/-- NPC of a trap at an instruction, or after the chain that it is in (R161). -/
def trapNpc (x : Iss) (chained : Bool) (s : State) : W64 := match x.ent.reissue with
  | some (_, n, _) => n
  | none => if chained then chainEnd s x.core x.ctx x.blk.id 2 x.npc else x.npc

/-- Take a trap on the path of `x` (R160, R161): one at an instruction leaves the group as it was before it. -/
def takeTrap (x : Iss) (chainBit : Bool) (t : Trap) (s : State) : State :=
  let chained := chainBit && t.restart && t.named.isNone
  match t.named with
  | some (pc, mask, chain, inst) => enterTrap x chain t pc x.ent.pc mask inst s
  | none => enterTrap x chainBit t (if chained then x.ent.chainPc else x.ent.pc) (trapNpc x chained s) x.mask x.ent.pc s

/-- What a kill makes of a fault at the instruction of `x` (R158). -/
def killOf (x : Iss) (chained : Bool) (p : FPage) (s : State) : Kill :=
  ⟨if chained then x.ent.chainPc else x.ent.pc, trapNpc x chained s, x.mask, chained, killWords p, x.ent.pc⟩

/-- Make a trap due at the group's next boundary (R477); for a group that has exited a CAUSE 5 record is posted instead, and a
trap for a stopped context or a discarded block is dropped. -/
def dueTrap (g : GRef) (ctx vf core : Nat) (t : Trap) (s : State) : State :=
  if (ctxOf s ctx).any (·.cst == 3) || (blkOf s g.blk).isNone then s
  else if gone g s then
    postLone vf ctx 5 0 core (trapInfo (trapNum t.code) ((t.named.map (·.1)).getD (((grpOf s g).map (·.exitPc)).getD 0))) s
  else modGrp g (fun x => { x with held := if t.code = .dieLost then t :: x.held else x.held ++ [t] }) s

/-- Whether a trap due may be taken on the path of an entry: the refusal of an access at a boundary of its own path, while the group has
one with its lanes (R133), any other at the group's next boundary (R477). -/
def onPath (t : Trap) (g : Group) (e : Entry) : Bool := match t.named with
  | some (_, m, _, _) => !t.restart || e.mask &&& m != 0 || g.stack.all fun u => u.mask &&& m == 0
  | none => true

/-- The trap due next at a boundary of an entry: DIE.LOST first, then in arrival order (R164); DEBUG is last. -/
def nextHeld (g : Group) (e : Entry) : Option Trap := match g.held.find? (·.code == .dieLost) with
  | some t => some t
  | none => match g.held.find? fun t => t.code != .debug && onPath t g e with
    | some t => some t
    | none => g.held.find? (·.code == .debug)

/-- Deliver the trap due at a boundary on the path of `x`. -/
def deliverHeld (x : Iss) (s : State) : State := match nextHeld x.grp x.ent with
  | none => s
  | some t =>
    let x := { x with grp := { x.grp with held := x.grp.held.erase t } }
    takeTrap x false { t with named := some (t.named.getD (x.ent.pc, x.ent.mask, false, x.ent.pc)) } (modGrp x.g (fun _ => x.grp) s)

/-! ## What an instruction answers -/

/-- The end of an instruction's issue: its next state; a trap at it, with the state that its translations leave; a page that
faults (address, ACC, CAUSE); or it cannot issue yet. -/
inductive Res where
  | next (s : State) | trap (t : Trap) (s : State) | fault (p : FPage) (s : State) | stall
  deriving DecidableEq, Repr

/-- The entry past an instruction whose results are unknown: the latch that it would have written is not there to be read. -/
def pastEntry (i : Sig) (x : Iss) (s : State) (e : Entry) : Entry :=
  let e := nextEntry i x s e
  { e with latches := e.latches.filter fun l => i.hold = 0 || l.idx != i.hold - 1 }

/-- Enter run-ahead at a fault (R154): the group and slot are kept as they were before the faulting instruction (or its chain,
R241), and the shadow goes on from the next instruction with the destination unknown. -/
def beginAhead (i : Sig) (x : Iss) (p : FPage) (s : State) : State :=
  let back := modEntry x.g.low (fun e => if inChain i e then { e with pc := e.chainPc, chain := 0, latches := [] } else e) x.grp
  modGrp x.g (fun _ =>
    { modEntry x.g.low (pastEntry i x s) (modEntries (invalidate i.writes) x.grp) with
      ahead := some ⟨back.stack, x.grp.k, x.grp.m, x.grp.v, x.grp.gens, x.grp.ctrs, (p.vpn, p.acc, p.cause), killOf x (inChain i x.ent || i.hold ≠ 0) p s, [], 0,
        i.writes, x.g.low⟩ }) s

/-- The state after an answer. -/
def finish (i : Sig) (x : Iss) (s : State) : Res → State
  | .next s' => s'
  | .trap t s' => takeTrap x (inChain i x.ent || i.hold ≠ 0) t s'
  | .fault p s' => beginAhead i x p s'
  | .stall => s

/-- Whether a DEBUG is what is due at the boundary before an instruction. -/
def debugDue (i : Sig) (x : Iss) : Bool :=
  x.grp.handler.isNone && x.ent.reissue.isNone && x.ent.launching.isNone && !inChain i x.ent && (nextHeld x.grp x.ent).any (·.code == .debug)

/-- DEBUG is the last trap of a boundary (R164): it is taken where the instruction there raises none of its own. -/
def debugLast (i : Sig) (x : Iss) (s : State) (r : Res) : Res :=
  if debugDue i x then
    match r with
    | .trap t s' => .trap t s'
    | .stall => .stall
    | .next _ => .next (deliverHeld x s)
    | .fault _ _ => .next (deliverHeld x s)
  else r

/-! ## Run-ahead (R154, R155) -/

/-- How run-ahead treats a class. -/
inductive AheadKind where
  | stop | compute | branch | probe | skip
  deriving DecidableEq, Repr

/-- By MAJ and FN (R155; the classes of R322). -/
def aheadKind (maj fn : Nat) : AheadKind :=
  if maj = 0 then (if fn = 6 ∨ fn = 7 ∨ fn = 8 ∨ fn = 9 then .stop else .branch)
  else if maj ≤ 3 ∨ maj = 0x1C ∨ 0x20 ≤ maj then .stop
  else if 0x18 ≤ maj ∧ maj ≤ 0x1A then .probe
  else if maj = 0x1B ∨ maj = 0x1D ∨ (maj = 4 ∧ fn = 3) then .skip
  else .compute

/-- End the group's run-ahead. -/
def stopAhead (g : GRef) (s : State) : State :=
  post 0 (.runAheadEnd g) (modGrp g (fun x => { x with ahead := x.ahead.map fun r => { r with passed := 256 } }) s)

/-- The run-ahead ends once it has passed 256 instructions or found 32 pages (R155). -/
def capAhead (g : GRef) (s : State) : State := match (grpOf s g).bind (·.ahead) with
  | some r => if 256 ≤ r.passed || 32 ≤ r.found.length then stopAhead g s else s
  | none => s

/-- Move the shadow past an instruction whose results, the registers `ws`, are unknown. -/
def skipAhead (i : Sig) (ws : List Nat) (x : Iss) (r : RunAhead) (s : State) : State :=
  capAhead x.g (modGrp x.g (fun g => { modEntry x.g.low (pastEntry i x s) (modEntries (invalidate ws) g) with
    ahead := some { r with passed := r.passed + 1, unknown := r.unknown ++ ws } }) s)

/-- The pages a shadow memory instruction finds. -/
def probePages (x : Iss) (s : State) (as : List (AccType × W64)) : List (Nat × Nat × Nat) :=
  as.filterMap fun (a, va) => if !canonical va then none else match probe s (.core x.core) x.ctx a va with
    | .fault c => some (va.toNat % 2 ^ 48 / 4096, a.code, c)
    | .ok _ _ => none
    | .nak _ => none
    | .wait => none

/-- The registers in a list of codes: 3998 names the pass length and the generators where FMT.RND is SR or unknown, and nothing where it is
another mode. -/
def realRegs (x : Iss) (r : RunAhead) (cs : List Nat) : List Nat :=
  cs.flatMap fun c => if c ≠ 3998 then [c]
    else if r.unknown.contains (cCd 0) || decide (4 ≤ bits x.ent.fmt.toNat 14 12) then [cCd 9, 3999] else []

/-- One instruction of the shadow: one that would trap is of unknown result (R326), and an address that is not known is not translated. The pages of a
pref are added as a load's are, although its own fault leaves no record (R154, R396; DESIGN CHOICE, log entry 143). -/
def aheadIssue (i : Sig) (x : Iss) (r : RunAhead) (addrs : List (AccType × W64)) (pre : Iss → State → Option Trap) (body : Iss → State → Res)
    (s : State) : State :=
  let ws := realRegs x r i.writes
  let unk := (realRegs x r (readRegs i x.ent)).any fun c => r.unknown.contains c || pending x.grp c
  let bad := chainIll i x.ent || unk || (pre x s).isSome || i.beyond (vregsOf x.lrec x.grp) x.lrec.zreg
  match aheadKind i.maj i.fn with
  | .stop => stopAhead x.g s
  | .skip => skipAhead i ws x r s
  | .probe =>
    let as := if bad then [] else addrs
    let found := (probePages x s as).filter fun p => !(r.found.contains p || r.fault == p)
    skipAhead i ws x { r with found := (r.found ++ found.eraseDups).take 32 }
      (setTdm x.ctx (as.foldl (fun b a => b ||| walkBits s (.core x.core) x.ctx a.2) 0) s)
  | .branch => if unk then stopAhead x.g s else if bad then skipAhead i ws x r s else shadow ws s
  | .compute => if bad then skipAhead i ws x r s else shadow ws s
where
  /-- A written register whose every lane the write defines. -/
  whole (ws : List Nat) (c : Nat) : Bool := ws.contains c && (decide (1600 ≤ c ∧ c < 2048 ∨ 3000 ≤ c) || x.mask == BitVec.allOnes 64)
  /-- A latch keeps its destination's value in the lanes that are not active (R238): where that is unknown, so is the latch. -/
  dim (e : Entry) : Entry :=
    if i.hold ≠ 0 && x.mask != BitVec.allOnes 64 && i.u.wr.any r.unknown.contains then
      { e with latches := e.latches.filter fun l => l.idx != i.hold - 1 } else e
  /-- The computation of an instruction whose sources are known: only the group's registers and stack move. -/
  shadow (ws : List Nat) (s : State) : State := match body x (advance i x s) with
    | .next s' => match grpOf s' x.g with
      | some g' => capAhead x.g (modGrp x.g (fun g => { g with
          stack := (modEntry x.g.low dim g').stack, k := g'.k, m := g'.m, v := g'.v, gens := g'.gens, ctrs := g'.ctrs,
          ahead := some { r with passed := r.passed + 1, unknown := r.unknown.filter fun c => !whole ws c } }) s)
      | none => s
    | .trap _ _ => skipAhead i ws x r s
    | .fault _ _ => skipAhead i ws x r s
    | .stall => skipAhead i ws x r s

/-! ## Issue -/

/-- Why an instruction does not get as far as its effect: a trap of R164's early checks, or a hazard of R242. -/
inductive Early where
  | trap (t : Trap) | wait
  deriving DecidableEq, Repr

/-- The checks that every instruction makes: latches and chains (ILL), register hazards, the instruction's own early checks
(UNIF, SCOPE.DENIED, LAUNCH.DEPTH), then register numbers (XREG), in the order of R164. -/
def early (i : Sig) (pre : Iss → State → Option Trap) (x : Iss) (s : State) : Option Early :=
  if chainIll i x.ent then some (.trap (trapAt .ill (i.word)))
  else if hazard i x then some .wait
  else match pre x s with
    | some t => some (.trap t)
    | none => if i.beyond (vregsOf x.lrec x.grp) x.lrec.zreg then some (.trap (trapAt .xreg 0)) else none

/-- The first absent granule that an instruction touches by its words alone (R193): its group's control state, a register that it names, or for
tret the trap record. What it reaches by an address is looked for where the address is known. -/
def absentFor (i : Sig) (x : Iss) : Option Granule := x.blk.absent.find? fun g => match g with
  | .control n => n == x.g.gid
  | .vreg n => (readRegs i x.ent ++ i.writes).any fun c => decide (c < 1536) && n == x.g.gid * 192 + c / 8
  | .slab n => i.maj == 0 && i.fn == 9 && x.grp.handler.isSome && n == x.grp.trec / 2048
  | .acc _ => false
  | .stream _ => false
  | .narrow _ => false

/-- The issue of instruction `i` by the live slot that `cur` names: the fill of an absent granule, the shadow of run-ahead, or the
early checks and then the effect `body` on the state after the issue. -/
def issueWith (i : Sig) (addrs : Iss → List (AccType × W64)) (pre : Iss → State → Option Trap) (body : Iss → State → Res)
    (s : State) : Host.Outcome State Fault Refusal :=
  match issOf i s with
  | none => .next s
  | some x => match absentFor i x with
    | some g => .next (askFill x.g.blk g s)
    | none => match x.grp.ahead with
      | some r => .next (aheadIssue i x r (addrs x) pre body s)
      | none => match early i pre x s with
        | some (.trap t) => .next (finish i x s (.trap t s))
        | some .wait => .next s
        | none => .next (finish i x s (debugLast i x s (body x (advance i x s))))

def issue (i : Sig) (pre : Iss → State → Option Trap) (body : Iss → State → Res) (s : State) : Host.Outcome State Fault Refusal :=
  issueWith i (fun _ => []) pre body s

/-- No early check of its own. -/
def noPre : Iss → State → Option Trap := fun _ _ => none

/-- Stop the context at the instruction of `x`, the group staying as it was before it. -/
def stopHere (c : TrapCode) (x : Iss) (s : State) : Res :=
  .next (stopContext x.ctx (trapNum c) x.ent.pc x.core (modGrp x.g (fun _ => x.grp) s))

/-- The return from a trap (R337): the handler's record at TREC says where the path goes on, and which lanes the re-issued
instruction may still act on. Its ILL and its UNIF both stop the context (R355). -/
def returnTrap (x : Iss) (s : State) : Res :=
  match x.grp.handler with
  | none => stopHere .ill x s
  | some h =>
    if x.grp.stack.length ≠ h.depth then stopHere .unif x s else
    let r := ofBytes (slabRead x.blk x.grp.trec 64)
    let pc := BitVec.ofNat 64 (bits r 255 192)
    let npc := BitVec.ofNat 64 (bits r 191 128)
    let again := bit r 9
    if npc.toNat % 4 ≠ 0 ∨ pc.toNat % 4 ≠ 0 then stopHere .ill x s else
    let code := bits r 47 40
    let access := code = 3 ∨ code = 4 ∨ code = 7 ∨ code = 0x0B
    let left := BitVec.ofNat 64 (bits r 127 64) &&& ~~~ (if access then BitVec.ofNat 64 (bits (r / 2 ^ 256) 191 128) else 0#64)
    .next (modGrp x.g (fun g => { modEntry x.g.low (fun e =>
      if again then { e with pc := pc, chain := 0, reissue := some (left, npc, pc + h.off) } else { e with pc := npc, chain := 0 }) g with
      handler := none }) s)

end Sys2Proof.Machine
end

