-- ==== Sys2Proof/Machine/Operands.lean ====
section
/-! DEFINITION. Operand forms: vector and uniform sources (R314, R315, R238, R239), elements of packed types (R272), immediate
twins (R321), the writing of results under NW and HOLD (R318, R356, R357), and the generator draws of SR (R288 to R290, R359). -/

namespace Sys2Proof.Machine

open Sys2Proof

/-! ## Elements of a lane (R272) -/

/-- Element j of a lane value. -/
def elem (t : Ty) (v j : Nat) : Nat := (v / 2 ^ (t.width * j)) % 2 ^ t.width

/-- The lane value with the given elements. -/
def packTo (t : Ty) (f : Nat → Nat) : Nat → Nat
  | 0 => 0
  | j + 1 => packTo t f j + (f j % 2 ^ t.width) * 2 ^ (t.width * j)
def pack (t : Ty) (f : Nat → Nat) : Nat := packTo t f t.elems

/-! ## Sources -/

/-- The value of a register operand in lane l, as the file holds it. -/
def fileVal (g : Group) (pair : Bool) (code l : Nat) : Nat :=
  if code < 1536 then (if pair then pget g code l else (vget g code l).toNat)
  else if code < 1600 then 0
  else if pair then (kget g (code - 1600)).toNat else (kget g (code - 1600)).toNat % 2 ^ 32

/-- The value of a latch in lane l (R239): what it holds while it is valid, else its tagged register. -/
def latchVal (x : Iss) (pair : Bool) (n l : Nat) : Nat := match latchOf x.ent n with
  | none => 0
  | some c =>
    if !c.valid then fileVal x.grp pair c.tag l
    else if !pair then (c.vals.getD l 0).toNat % 2 ^ 32
    else if c.pair then (c.vals.getD l 0).toNat
    else (c.vals.getD l 0).toNat % 2 ^ 32 + (Config.latchHigh c.tag l).toNat * 2 ^ 32

/-- The value of a V source in lane l, of 64 bits under a pair type and of 32 otherwise (R314, R315, R356). -/
def srcVal (x : Iss) (pair : Bool) (v : VSrc) (l : Nat) : Nat := match v with
  | .reg n => fileVal x.grp pair n l
  | .latch n => latchVal x pair n l
  | .zero => 0
  | .lane => l
  | .k n => fileVal x.grp pair (1600 + n) l

/-- The lane value of an immediate twin (R321): sign-extended under i64, zero-extended under n64, as it is otherwise. -/
def immVal (t : Ty) (imm : W32) : Nat := if t = .i64 then (imm.signExtend 64).toNat else imm.toNat

/-- A k source and the immediate of a uniform twin under a type (R321, R351). -/
def kImm (t : Ty) (imm : W32) : W64 := if t = .i64 then imm.signExtend 64 else imm.zeroExtend 64

/-! ## Results -/

/-- Write a per-lane result to the active lanes of a vector register or pair. -/
def putLanes (n : Nat) (pair : Bool) (mask : Mask) (r : Nat → Nat) (g : Group) : Group :=
  (activeLanes mask).foldl (fun g l => if pair then pset n l (r l) g else vset n l (BitVec.ofNat 32 (r l)) g) g

/-- Put a latch into an entry (R238, R239): a pending write to its tagged register makes it invalid from the start. -/
def putLatch (x : Iss) (hold tag : Nat) (pair : Bool) (vals : List W64) (e : Entry) : Entry :=
  { e with latches := e.latches.filter (·.idx != hold - 1) ++
      [⟨hold - 1, tag, pair, vals, 0, !(latchRegs tag pair).any (pending x.grp)⟩] }

/-- The 64-lane result as HOLD latches it: the result in active lanes, the destination's current value in the others. -/
def latched (x : Iss) (pair : Bool) (tag : Nat) (r : Nat → Nat) : List W64 :=
  lanes.map fun l => BitVec.ofNat 64 (if laneOn x.mask l then r l else fileVal x.grp pair tag l)

/-- Write a per-lane result to a vector destination under HOLD and NW (R238, R318). -/
def writeLanes (h : Hdr) (d : VDst) (x : Iss) (r : Nat → Nat) (s : State) : State :=
  modGrp x.g (fun g =>
    let g := match d with
      | .reg n => if h.nw then g else putLanes n h.ty.pair x.mask r g
      | .zero => g
      | .k _ => g
    if h.hold = 0 then g
    else modEntry x.g.low (putLatch x h.hold d.code h.ty.pair (latched x h.ty.pair d.code r)) g) s

/-- Write a uniform result to a k register under HOLD and NW (R318, R329, R357). -/
def writeUni (nw : Bool) (hold kd : Nat) (v : W64) (x : Iss) (s : State) : State :=
  modGrp x.g (fun g =>
    let g := if nw then g else kset kd v g
    if hold = 0 then g else modEntry x.g.low (putLatch x hold (1600 + kd) true (lanes.map fun _ => v)) g) s

/-- Write a k register. -/
def writeK (nw : Bool) (kd : Nat) (v : W64) (x : Iss) (s : State) : State := writeUni nw 0 kd v x s

/-- Write the bits of the active lanes of a mask register, leaving those of inactive lanes (R366, R371). -/
def writeMaskBits (md : Nat) (x : Iss) (p : Nat → Bool) (s : State) : State :=
  modGrp x.g (fun g => mset md ((mget x.grp md &&& ~~~x.mask) ||| (maskOf p &&& x.mask)) g) s

/-- Write a whole mask register (R386). -/
def writeMask (md : Nat) (x : Iss) (v : Mask) (s : State) : State := modGrp x.g (mset md v) s

/-- A result that is uniform (R383): a vector destination receives it in every active lane. -/
def writeRed (h : Hdr) (d : VDst) (x : Iss) (lane : Nat) (k : W64) (s : State) : State := match d with
  | .k kd => writeUni h.nw h.hold kd k x s
  | .reg n => writeLanes h (.reg n) x (fun _ => lane) s
  | .zero => writeLanes h .zero x (fun _ => lane) s

/-! ## Rounding modes and draws -/

/-- The effective rounding mode (R275, R277): MOD 5 is FMT.RND. -/
def rndOf : Nat → Rnd
  | 0 => .rne
  | 1 => .rtz
  | 2 => .rdn
  | 3 => .rup
  | _ => .sr
def effRnd (mod : Nat) (fmt : W64) : Rnd := if mod = 5 then rndOf (bits fmt.toNat 14 12) else rndOf mod

/-- FMT.GEN. -/
def fmtGen (fmt : W64) : Nat := bits fmt.toNat 18 15

/-- The pass length L that DSECTL sets (R434). -/
def passLen (dsectl : W64) : Nat := 16 * 2 ^ bits dsectl.toNat 2 0
/-- The pass count P that DSECTL sets (R434). -/
def passCount (dsectl : W64) : Nat := bits dsectl.toNat 19 8 + 1

/-- The state of generator class c of lane l, as placement set it if nothing has drawn from it (R288). -/
def genState (seed : W64) (bid : Nat) (g : Group) (c l : Nat) : W64 :=
  let v := FMap.get 0 g.gens (64 * c + l)
  if v = 0 then genInit seed c bid g.gid l else v

/-- Draw n words from class c of lane l (R288, R289), with pass length len. -/
def drawN (seed : W64) (bid len c l : Nat) : Nat → Group → List Nat × Group
  | 0, g => ([], g)
  | n + 1, g =>
    if c < 14 then
      let v := xorshift (genState seed bid g c l)
      let r := drawN seed bid len c l n { g with gens := FMap.set 0 g.gens (64 * c + l) v }
      (v.toNat / 2 ^ 48 :: r.1, r.2)
    else
      let j := FMap.get 0 g.ctrs (64 * (c - 14) + l)
      let r := drawN seed bid len c l n { g with ctrs := FMap.set 0 g.ctrs (64 * (c - 14) + l) (j + 1) }
      (rampDraw c j.toNat len :: r.1, r.2)

/-- Draw n words from class c in each of some lanes, in ascending lane order. -/
def drawLanes (seed : W64) (bid len c n : Nat) : List Nat → Group → FMap (List Nat) × Group
  | [], g => ([], g)
  | l :: ls, g =>
    let a := drawN seed bid len c l n g
    let b := drawLanes seed bid len c n ls a.2
    ((l, a.1) :: b.1, b.2)

/-- The draws of an instruction that rounds n elements in each of some lanes: under SR one word per element (R359). -/
def srDraws (x : Iss) (mode : Rnd) (n : Nat) (ls : List Nat) (s : State) : FMap (List Nat) × State :=
  if mode = .sr then
    let r := drawLanes x.lrec.seed x.blk.bid (passLen x.grp.dsectl) (fmtGen x.ent.fmt) n ls x.grp
    (r.1, modGrp x.g (fun g => { g with gens := r.2.gens, ctrs := r.2.ctrs }) s)
  else ([], s)

/-- The word drawn for element j of lane l. -/
def drawOf (ws : FMap (List Nat)) (l j : Nat) : Nat := (FMap.get [] ws l).getD j 0

end Sys2Proof.Machine
end

