-- ==== Sys2Proof/Machine/Flags.lean ====
section
/-! DEFINITION. Conditions and mode checks: the taken set of a branch (R332), comparisons (R366, R371, R352), the carry masks of
addc (R362), the checks on a write to FMT (R276) and to DSECTL (R434), and the scope check (R44, R164). -/

namespace Sys2Proof.Machine

open Sys2Proof

/-- The condition mask of bra and brd (R332). -/
def condMask (g : Group) (c : Nat) (neg : Bool) : Mask := if neg then ~~~(mget g c) else mget g c

/-- The integer conditions of family CMP (R320). -/
def cmpI (cond : Nat) (a b : Int) : Bool := match cond with
  | 0 => a == b
  | 1 => a != b
  | 2 => decide (a < b)
  | 3 => decide (a ≤ b)
  | 4 => decide (b < a)
  | _ => decide (b ≤ a)

/-- Carry-in and carry-out of addc in lane l (R362). -/
def carryIn (g : Group) (cin l : Nat) : Nat := if laneOn (mget g cin) l then 1 else 0
def carryOut (w sum : Nat) : Bool := decide (2 ^ w ≤ sum)

/-- Whether a value may be written to FMT (R276). -/
def fmtOk (v : W64) : Bool :=
  let n := v.toNat
  let tys := [0x05, 0x06, 0x11, 0x12, 0x13, 0x14, 0x15]
  decide (n < 2 ^ 24) && decide (bits n 23 21 ≤ 4) && decide (bits n 20 19 ≤ 1) && decide (bits n 14 12 ≤ 4) &&
    tys.contains (bits n 5 0) && tys.contains (bits n 11 6)

/-- Whether a value may be written to DSECTL (R434). -/
def dsectlOk (v : W64) : Bool :=
  let n := v.toNat
  decide (n < 2 ^ 20) && bits n 7 3 == 0 && decide (bits n 2 0 ≤ 4)

end Sys2Proof.Machine
end

