-- ==== Sys2Proof/Machine/Home.lean ====
section
/-! DEFINITION. The home of a grain: the directory and its way quota (R90 to R94), the serving order (R98, R99), the tables of
R100, R122, R123 and R128, update writes (R125), label commands (R131, R132) and SWITCHING (R127), with the events of the home. -/

namespace Sys2Proof.Machine

open Sys2Proof

/-! ## Directory entries -/

/-- The directory set of a grain (R461); that of a pool, host or compressed grain is not given, but each directory has as many sets as
its entries and ways make (R90). -/
def dirSet (pa : Nat) : Nat × Nat :=
  (homeOf pa, match spaceOf pa with
    | .hbm => bits pa 26 17 * 4 + bits pa 8 7
    | .comp => Config.poolSet pa % Config.dirSets
    | .pad => Config.poolSet pa % Config.dirSets
    | .pool => Config.poolSet pa % Config.poolDirSets
    | .host => Config.poolSet pa % Config.poolDirSets)

/-- HST (R90): 1 S, 2 X, 3 OS, and 4 while a transaction of the grain is open. -/
def hstNum (s : State) (e : DirEnt) : Nat :=
  if s.coh.txns.any fun t => t.pa == e.pa then 4 else match e.hst with
    | .s => 1
    | .x => 2
    | .os => 3

/-- A directory entry in the layout of R90. -/
def dirWord (s : State) (e : DirEnt) : BitVec 64 :=
  BitVec.ofNat 64 (hstNum s e * 2 ^ 61 + (if e.hst = .s then 0 else e.owner % 512) * 2 ^ 52 + e.ext.toNat * 2 ^ 48 +
    e.shr.toNat * 2 ^ 8 + (e.vf % 128) * 2)

def dropDir (pa : Nat) (s : State) : State := { s with coh := { s.coh with dir := s.coh.dir.filter (·.pa != pa) } }

/-- Put an entry, as the most recently used. -/
def putDir (e : DirEnt) (s : State) : State :=
  let s := dropDir e.pa s
  { s with coh := { s.coh with dir := s.coh.dir ++ [{ e with used := s.coh.useClock }], useClock := s.coh.useClock + 1 } }

/-- The cores of a cluster (R2). -/
def clusterCores (c : Nat) : List Nat :=
  [(c / 8 * 2) * 16 + c % 8 * 2, (c / 8 * 2) * 16 + c % 8 * 2 + 1, (c / 8 * 2 + 1) * 16 + c % 8 * 2, (c / 8 * 2 + 1) * 16 + c % 8 * 2 + 1]

/-- The span peers of the routing table that can be reached (R27, R28, R91). -/
def spanAgents (s : State) : List Nat := (List.range 16).filterMap fun d =>
  if s.pkg.routes.getD d 0 ≠ 0 ∧ d ≠ s.pkg.spanDev ∧ (routeTo s d).isSome then some (162 + d) else none

/-- Whether some peer that may hold copies has lost its last route (R28). -/
def peerCut (s : State) : Bool := (List.range 16).any fun d =>
  s.pkg.routes.getD d 0 != 0 && d != s.pkg.spanDev && (routeTo s d).isNone

/-- The EXT bit of an agent outside the cores (R90). -/
def extBit (agent : Nat) : Nat := if agent = 160 then 3 else if agent = 161 then 2 else if agent = 178 then 0 else 1

def addSharer (agent : Nat) (e : DirEnt) : DirEnt :=
  if agent < 160 then { e with shr := e.shr ||| BitVec.ofNat 40 (2 ^ coreCluster agent) }
  else { e with ext := e.ext ||| BitVec.ofNat 4 (2 ^ extBit agent) }

/-- The agents that a snoop to the sharers reaches (R91). -/
def sharersOf (s : State) (e : DirEnt) : List Nat :=
  ((List.range 40).filter fun c => e.shr.getLsbD c).flatMap clusterCores ++
    (if e.ext.getLsbD 3 then [160] else []) ++ (if e.ext.getLsbD 2 then [161] else []) ++
    (if e.ext.getLsbD 1 then spanAgents s else []) ++ (if e.ext.getLsbD 0 then [178] else [])

def DirEnt.hasOwner (e : DirEnt) : Bool := e.hst != .s

/-- Every agent that a recall reaches. -/
def holdersOf (s : State) (e : DirEnt) : List Nat :=
  (sharersOf s e ++ (if e.hasOwner then [e.owner] else [])).eraseDups

/-- The agents that hold no T, and no E by the rule of a label (R123). -/
def ioAgent (a : Nat) : Bool := a = 160 || a = 161 || a = 178

/-! ## Way quota (R92, R93) -/

def lru : List DirEnt → Option DirEnt
  | [] => none
  | e :: r => match lru r with
    | none => some e
    | some d => if e.used < d.used then some e else some d

/-- The entries of the directory set of a grain. -/
def setOf (s : State) (pa : Nat) : List DirEnt := s.coh.dir.filter fun e => dirSet e.pa == dirSet pa

/-- The ways that a function may hold in a set (R92). -/
def quotaOf (s : State) (vf : Nat) : Nat := if vf = 0 then Config.dirWays else bits (fnOf s vf).policy.toNat 23 20 + 1

/-- Whether the allocation that a request needs must evict for its function's quota: once for one allocation (R93). -/
def overQuota (s : State) (q : HReq) : Bool :=
  !q.evicted && decide (quotaOf s q.msg.vf ≤ ((setOf s q.msg.pa).filter fun e => e.vf == q.msg.vf).length)

/-- The victim of the allocation that a request needs, if one must go: for the quota the function's own least recently used entry, in a full
set that of the function which holds the most ways, and of two that hold as many the one whose is older. An entry that a transaction
holds in BUSY cannot go. -/
def victimFor (s : State) (q : HReq) : Option DirEnt :=
  let set := setOf s q.msg.pa
  let free := fun (es : List DirEnt) => es.filter fun e => !busy s e.pa e.gsz
  let own := fun f => set.filter fun e => e.vf == f
  if overQuota s q then lru (free (own q.msg.vf))
  else if Config.dirWays ≤ set.length then
    let most := set.foldl (fun n e => max n (own e.vf).length) 0
    let firsts := (set.map (·.vf)).eraseDups.filterMap fun f => if (own f).length = most then lru (own f) else none
    (lru firsts).bind fun e => lru (free (own e.vf))
  else none

/-- Whether an allocation must wait because every entry that may go is BUSY. -/
def fullBusy (s : State) (q : HReq) : Bool :=
  (overQuota s q || decide (Config.dirWays ≤ (setOf s q.msg.pa).length)) && (victimFor s q).isNone

/-! ## Limits on what a home has open (R94, R98) -/

/-- The tag of a recall of a whole region, by which its Ack is known (R95). -/
def regionTag : Nat := 2 ^ 60

/-- The back-invalidation snoops outstanding at a host port. -/
def binvOut (s : State) (port : Nat) : Nat :=
  (s.coh.txns.filter fun t => (t.kind == .recall || t.kind == .uncachedW || t.kind == .update) && t.await.contains port).length +
    (s.coh.regions.map fun r => (r.swAwait.filter fun w => w.1 == port && w.2 != regionTag).length).sum

/-- Whether BInv may go to some agents: `n` more at a host port leave at most 256 outstanding there (R35, R94). -/
def portRoom (s : State) (n : Nat) (dests : List Nat) : Bool :=
  [160, 161].all fun p => !dests.contains p || decide (binvOut s p + n ≤ 256)

/-- Whether the 1,024 transaction slots of an address's home are in use (R98). -/
def slotsFull (s : State) (pa : Nat) : Bool :=
  decide (Config.txnSlots ≤ (s.coh.txns.filter fun t => homeOf t.pa == homeOf pa).length)

/-! ## Messages of the home -/

/-- Note the answer to an uncached access whose caller asks again. -/
def setReply (tag : Nat) (r : Reply) (s : State) : State :=
  { s with coh := { s.coh with asks := mapIf (fun a => a.tag == tag) (fun a => { a with reply := r }) s.coh.asks } }

/-- Whether a request comes from a caller that asks again. -/
def asked (m : Msg) (s : State) : Bool := m.tag != 0 && s.coh.asks.any fun a => a.tag == m.tag

/-- An answer: a message, and noted at once for a caller that asks again. -/
def replyTo (m : Msg) (r : Reply) (ev : Instr) (s : State) : State := post 0 ev (setReply m.tag r s)

/-- The Data that answers a request, with the value at the home. -/
def sendData (m : Msg) (g : Grant) (lab : Label) (s : State) : State :=
  replyTo m (.data (memRead s m.pa m.gsz))
    (.data { m with frm := 512, dst := m.req, grant := g, mode := lab, dirty := false, wb := false, keep := false,
                    data := memRead s m.pa m.gsz }) s

/-- The home's Ack with GRANT, which carries no MODE (R96). -/
def sendGrant (m : Msg) (g : Grant) (s : State) : State :=
  post 0 (.ackWithGrant { m with frm := 512, dst := m.req, grant := g, mode := .uncl, dirty := false }) s

/-- Nak of a request with its REASON, and for a label violation the words of R135. -/
def sendNak (m : Msg) (reason : Nat) (r : Option Region) (s : State) : State :=
  let n := refusal m reason r
  replyTo m (.nak n) (.nak n) s

/-- Snoops of a request's grain, or of the grain of an entry, to some agents. -/
def sendInv (pa gsz : Nat) (m : Msg) (lab : Label) (dests : List Nat) (s : State) : State :=
  postAll (dests.map fun a => .inv { m with pa := pa, gsz := gsz, frm := 512, dst := a, mode := lab, region := false }) s
def sendBInv (pa gsz : Nat) (m : Msg) (lab : Label) (region : Bool) (dests : List Nat) (s : State) : State :=
  postAll (dests.map fun a => .binv { m with pa := pa, gsz := gsz, frm := 512, dst := a, mode := lab, region := region }) s
def sendFwdS (m : Msg) (lab : Label) (owner : Nat) (s : State) : State :=
  post 0 (.fwds { m with frm := 512, dst := owner, mode := lab }) s
def sendFwdX (m : Msg) (lab : Label) (owner : Nat) (s : State) : State :=
  post 0 (.fwdx { m with frm := 512, dst := owner, mode := lab }) s

/-! ## Transactions -/

def newTxn (q : HReq) (kind : TxnKind) (lab : Label) (await : List Nat) (needAck : Bool) : Txn :=
  { pa := q.msg.pa, gsz := q.msg.gsz, req := q, kind := kind, lab := lab, await := await, wbAwait := [], wbSeen := [],
    needAck := needAck, dirty := false, counts := q.pre, keepAwait := false, keepSeen := false }

def openTxn (t : Txn) (s : State) : State := { s with coh := { s.coh with txns := s.coh.txns ++ [t] } }
def putTxn (t : Txn) (s : State) : State :=
  { s with coh := { s.coh with txns := s.coh.txns.map fun u => if u.pa = t.pa then t else u } }
def dropTxn (pa : Nat) (s : State) : State := { s with coh := { s.coh with txns := s.coh.txns.filter (·.pa != pa) } }
def txnAt (s : State) (pa : Nat) : Option Txn := s.coh.txns.find? (·.pa == pa)

/-- The access that a request's own transaction counts (R118): none for a label command, a host snoop or a write of the device, nor for a
later word of a grain that a base-die engine has touched. -/
def ownCount (q : HReq) : List (Nat × Bool) :=
  if q.kind.isLabel || q.kind.isDevice || q.kind == .hostSnoop || (q.msg.write && (q.kind == .uread || q.kind == .uwrite)) then []
  else [(q.msg.req, q.kind.writes)]

/-- A line of a compressed page that a write leaves dirty in the home's L2. -/
def markDirty (pa : Nat) (s : State) : State :=
  if spaceOf pa = .comp then
    { s with coh := { s.coh with comp := mapIf (fun c => c.page == pa / 4096) (fun c => { c with dirty := true }) s.coh.comp } }
  else s

/-- The write of an uncached access, a reduction element or the device itself at the home (R74, R83, R89). -/
def performWrite (q : HReq) (s : State) : State :=
  let m := q.msg
  let s := markDirty m.pa s
  match q.kind with
  | .reduce =>
    let n := m.ty.width / 8
    memWrite (m.pa + m.off) (toBytes n (atomOp m.ty m.aop (memNat s (m.pa + m.off) n) (ofBytes m.data))) s
  | .heat => applyHeat false (m.pa + m.off) s
  | .halve => applyHeat true (m.pa + m.off) s
  | .poke => memWriteMask m.pa m.data m.bmask (recallNow m.pa m.gsz s)
  | _ => memWriteMask m.pa m.data m.bmask s

/-- The answer to an uncached write or a reduction element that is performed: Data without bytes. -/
def sendDone (q : HReq) (s : State) : State :=
  let m := q.msg
  if q.kind.isDevice then s else replyTo m (.data []) (.data { m with frm := 512, dst := m.req, data := [], grant := .s }) s

/-! ## Serving (R98 to R100, R122, R128) -/

def queueFirst (q : HReq) (s : State) : State := { s with coh := { s.coh with homeQ := q :: s.coh.homeQ } }

/-- Whether two queued requests keep their arrival order: the same grain, or the same region where one is a label command. -/
def conflict (a b : HReq) : Bool :=
  if a.kind.isLabel || b.kind.isLabel then a.msg.pa / 4096 == b.msg.pa / 4096
  else overlap a.msg.pa a.msg.gsz b.msg.pa b.msg.gsz

/-- Whether a request must wait at its home: its grain is BUSY, its region SWITCHING, its die out of service or halted, or every
transaction slot in use (R98). -/
def blocked (q : HReq) (s : State) : Bool :=
  if q.kind.isLabel then switching s q.msg.pa || homeHalted s q.msg.pa
  else busy s q.msg.pa q.msg.gsz || slotsFull s q.msg.pa

/-- Make the requester the owner of a grain. -/
def ownedBy (q : HReq) : DirEnt :=
  { pa := q.msg.pa, gsz := q.msg.gsz, hst := .x, owner := q.msg.req, ext := 0, shr := 0, vf := q.msg.vf, used := 0 }

/-- RdX, or a request served as one, at an entry (R100). -/
def serveRdx (lab : Label) (q : HReq) (e : DirEnt) (s : State) : State :=
  let m := q.msg
  let others := (sharersOf s e).filter fun a => a != m.req && !(e.hasOwner && a == e.owner)
  if !e.hasOwner || e.owner == m.req then
    if others.isEmpty then sendData m .e lab (putDir { ownedBy q with vf := e.vf } (openTxn (newTxn q .grant lab [] true) s))
    else sendInv m.pa m.gsz m lab others (openTxn (newTxn q .inv lab others true) s)
  else if e.hst == .os && !others.isEmpty then
    sendInv m.pa m.gsz m lab others (openTxn (newTxn q .invThenFwdX lab others true) s)
  else sendFwdX m lab e.owner (openTxn (newTxn q .fwdX lab [e.owner] true) s)

/-- RdS at an entry. -/
def serveRds (lab : Label) (q : HReq) (e : DirEnt) (s : State) : State :=
  let m := q.msg
  let taking := (lab == .priv || lab == .migr) && !ioAgent m.req
  if e.hasOwner && e.owner != m.req && taking then serveRdx lab q e s
  else if !e.hasOwner || e.owner == m.req || (lab == .pc && e.hst == .os) then
    sendData m .s lab (putDir (addSharer m.req e) (openTxn (newTxn q .grant lab [] true) s))
  else sendFwdS m lab e.owner (openTxn (newTxn q .fwdS lab [e.owner] true) s)

/-- An Upg of a holder at an entry. -/
def serveUpg (lab : Label) (q : HReq) (e : DirEnt) (s : State) : State :=
  let m := q.msg
  if e.hst == .x && e.owner != m.req then serveRdx lab q e s else
  let others := (holdersOf s e).filter (· != m.req)
  let grant := if e.hst == .os && e.owner != m.req then Grant.m else .e
  if others.isEmpty then sendGrant m grant (putDir { ownedBy q with vf := e.vf } (openTxn (newTxn q .grant lab [] true) s))
  else sendInv m.pa m.gsz m lab others (openTxn (newTxn q .upgAck lab others true) s)

/-- An update write of the owner (R125): the bytes go to the L2 and to every subscriber; host ports and I/O-die agents are
recalled instead. -/
def serveUpdate (lab : Label) (q : HReq) (e : DirEnt) (s : State) : State :=
  let m := q.msg
  let others := (sharersOf s e).filter (· != m.req)
  if !portRoom s 1 others then queueFirst q s else
  let s := putDir e (memWriteMask m.pa m.data m.bmask s)
  let s := openTxn (newTxn q .update lab others false) s
  let s := postAll ((others.filter (!ioAgent ·)).map fun a => .upd { m with frm := 512, dst := a, mode := lab }) s
  let s := sendBInv m.pa m.gsz m lab false (others.filter ioAgent) s
  if others.isEmpty then post 0 (.updateCommit m.pa) s else s

/-- An uncached read at an entry: served as the rows for UNCL (R89), from the home where it holds the value. The agent that asks owns nothing
of the grain (R91): it has given its copy up. -/
def serveURead (lab : Label) (q : HReq) (e : DirEnt) (s : State) : State :=
  if !e.hasOwner || e.owner == q.msg.req || (lab == .pc && e.hst == .os) then sendData q.msg .s lab (countTxn q.msg.pa (q.pre ++ ownCount q) s)
  else sendFwdS q.msg lab e.owner (openTxn (newTxn q .uncachedR lab [e.owner] true) s)

/-- An uncached write, a reduction element or a write of the device at an entry: performed once every copy has been recalled, but for that
of its own agent, which has given it up (R89, R91). -/
def serveUWrite (lab : Label) (q : HReq) (e : DirEnt) (s : State) : State :=
  let holders := (holdersOf s e).filter (· != q.msg.req)
  if !portRoom s 1 holders then queueFirst q s
  else if holders.isEmpty then sendDone q (countTxn q.msg.pa (q.pre ++ ownCount q) (performWrite q (dropDir e.pa s)))
  else sendBInv q.msg.pa q.msg.gsz q.msg lab false holders (openTxn (newTxn q .uncachedW lab holders false) s)

/-- The label under which the home serves an address now. -/
def labelNow (s : State) (pa : Nat) : Label :=
  if !labelled s pa then .uncl else match regionOf s pa with
    | some r => labelOf r.label
    | none => labelOf ((devByte s (labelAddr s pa)).toNat % 8)

/-- Recall an entry (R88, R94) under the label of its own region; the request `q` waits for it. -/
def recallEntry (q : HReq) (e : DirEnt) (s : State) : State :=
  let holders := holdersOf s e
  let lab := labelNow s e.pa
  if !portRoom s 1 holders then queueFirst q s else
  sendBInv e.pa e.gsz q.msg lab false holders
    (openTxn { newTxn q .recall lab holders false with pa := e.pa, gsz := e.gsz, counts := [] } s)

/-- A host snoop of a host line (R106): a read takes a shared copy from the owner, a write takes the grain from every holder. -/
def serveHost (q : HReq) (s : State) : State := match dirOf s q.msg.pa q.msg.gsz with
  | none => s
  | some e =>
    if q.msg.write then
      let others := (sharersOf s e).filter fun a => !(e.hasOwner && a == e.owner)
      if e.hasOwner then
        if others.isEmpty then sendFwdX q.msg .uncl e.owner (openTxn (newTxn q .fwdX .uncl [e.owner] true) s)
        else sendInv q.msg.pa q.msg.gsz q.msg .uncl others (openTxn (newTxn q .invThenFwdX .uncl others true) s)
      else sendInv q.msg.pa q.msg.gsz q.msg .uncl others (openTxn (newTxn q .inv .uncl others false) s)
    else if e.hasOwner then sendFwdS q.msg .uncl e.owner (openTxn (newTxn q .fwdS .uncl [e.owner] true) s)
    else s

/-- Serve a request under a label whose entry, if any, has its grain size. -/
def serveAt (lab : Label) (q : HReq) (s : State) : State :=
  let m := q.msg
  let stale := s.coh.stale.contains (m.req, m.tag)
  let s := { s with coh := { s.coh with stale := s.coh.stale.filter (· != (m.req, m.tag)) } }
  match dirOf s m.pa m.gsz with
  | some e => match q.kind with
    | .rds => serveRds lab q e s
    | .rdx => serveRdx lab q e s
    | .upg => if stale then serveRdx lab q e s else serveUpg lab q e s
    | .update => if !stale && e.hasOwner && e.owner == m.req then serveUpdate lab q e s else serveRdx lab q e s
    | .uread => serveURead lab q e s
    | _ => serveUWrite lab q e s
  | none => match q.kind with
    | .uread => sendData m .s lab (countTxn m.pa (q.pre ++ ownCount q) s)
    | .uwrite => sendDone q (countTxn m.pa (q.pre ++ ownCount q) (performWrite q s))
    | .reduce => sendDone q (countTxn m.pa (q.pre ++ ownCount q) (performWrite q s))
    | .poke => performWrite q s
    | .heat => performWrite q s
    | .halve => performWrite q s
    | .rds =>
      if lab == .ro && !ioAgent m.req then sendData m .t lab (openTxn (newTxn q .grant lab [] true) s) else
      if fullBusy s q then queueFirst q s else
      match victimFor s q with
      | some v => recallEntry q v s
      | none =>
        if (lab == .priv || lab == .migr) && !ioAgent m.req then
          sendData m .e lab (putDir (ownedBy q) (openTxn (newTxn q .grant lab [] true) s))
        else
          sendData m .s lab (putDir (addSharer m.req { ownedBy q with hst := .s, owner := 0 }) (openTxn (newTxn q .grant lab [] true) s))
    | _ =>
      if fullBusy s q then queueFirst q s else
      match victimFor s q with
      | some v => recallEntry q v s
      | none => sendData m .e lab (putDir (ownedBy q) (openTxn (newTxn q .grant lab [] true) s))

/-- Serve a request under a label; an entry of another grain size that it meets is recalled first (R88). -/
def serveSized (lab : Label) (q : HReq) (s : State) : State :=
  match s.coh.dir.find? fun e => overlap e.pa e.gsz q.msg.pa q.msg.gsz && e.gsz != q.msg.gsz with
  | some e => recallEntry q e s
  | none => serveAt lab q s

/-! ## Label commands (R131, R132) -/

/-- The result word (R456). -/
def labelResult (res lbyte hist nchg : Nat) : W64 := BitVec.ofNat 64 (nchg * 2 ^ 32 + hist * 2 ^ 16 + lbyte * 2 ^ 8 + res)

def sendLabel (m : Msg) (w : W64) (s : State) : State :=
  post 0 (.labelCommandResult { m with frm := 512, dst := m.req, res := w }) s

/-- Serve a label command (R128, R132). -/
def serveLabel (q : HReq) (s : State) : State :=
  let m := q.msg
  if !labelled s m.pa then sendLabel m (labelResult 3 0 0 0) s else
  let (r, s) := regionIn m.pa s
  let locked := r.lock && m.ctx != r.actx
  let owned := fun r : Region => { r with aag := m.req, actx := m.ctx, avf := m.vf }
  match q.kind with
  | .lhist => sendLabel m (labelResult 0 r.byte r.hist.toNat r.nchg) s
  | .lset =>
    if locked then sendLabel m (labelResult 1 r.byte 0 0) s
    else if !pinnable s r then sendLabel m (labelResult 2 r.byte 0 0) s
    else beginSwitch r m.lval (decide (m.lval ≠ 0)) r.lock (some m) (m.req, m.ctx, m.vf) s
  | .llock =>
    if locked then sendLabel m (labelResult 1 r.byte 0 0) s
    else if !pinnable s r then sendLabel m (labelResult 2 r.byte 0 0) s
    else
      let r := owned { r with lock := true }
      sendLabel m (labelResult 0 r.byte 0 0) (writeLabel r (putRegion r s))
  | .lunl =>
    if locked then sendLabel m (labelResult 1 r.byte 0 0) s
    else
      let r := { r with lock := false }
      sendLabel m (labelResult 0 r.byte 0 0) (writeLabel r (putRegion r s))
  | _ => sendLabel m (labelResult 0 r.byte 0 0) s

/-! ## Compressed pages at the home (R76 to R79) -/

/-- Whether a request to a compressed page must wait for its lines, and whether it meets a bad page. -/
def compState (s : State) (pa : Nat) : Bool × Bool :=
  if spaceOf pa ≠ .comp then (false, false) else
  match compOf s (pa / 4096) with
  | none => (true, false)
  | some c => if bit c.entry.toNat 464 then (false, true) else (!c.lines, false)

/-- The REASON with which the home refuses an access to n bytes, if it does (R63, R68, R97): an address that it cannot serve, or an error
in a sector whose newest value it holds itself. -/
def homeNak (s : State) (pa n : Nat) : Option Nat := (nakOf s pa).orElse fun _ => if ueAt s pa n then some 0 else none

/-- Whether serving a request takes a snoop to a peer without a remaining route (R28): the owner of the grain, or for a write a span sharer.
The home then answers Nak(1) (R97). -/
def cutOff (q : HReq) (s : State) : Bool := match dirOf s q.msg.pa q.msg.gsz with
  | none => false
  | some e =>
    (e.hasOwner && 162 ≤ e.owner && e.owner < 178 && e.owner != q.msg.req && (routeTo s (e.owner - 162)).isNone) ||
      (q.kind.writes && e.ext.getLsbD 1 && peerCut s)

/-- Drop the entries that no agent holds any more, so that every entry has someone to recall. -/
def pruneDir (s : State) : State :=
  { s with coh := { s.coh with dir := s.coh.dir.filter fun e => busy s e.pa e.gsz || !(holdersOf s e).isEmpty } }

/-- Serve a request whose turn has come. -/
def serve (q : HReq) (s : State) : State :=
  let m := q.msg
  let s := pruneDir s
  if q.kind.isLabel then (match nakOf s m.pa with
    | some n => sendNak m n none s
    | none => serveLabel q s)
  else if q.kind = .hostSnoop then serveHost q s
  else if q.kind.isDevice then serveSized .uncl q s
  else match homeNak s m.pa m.gsz with
    | some n => sendNak m n none s
    | none =>
      let (wait, bad) := compState s m.pa
      if bad then sendNak m 0 none s
      else if wait then
        let s := { s with coh := { s.coh with compHeld := s.coh.compHeld ++ [q] } }
        if s.agenda.any (·.ev == .compReadMiss (m.pa / 4096)) then s else post 0 (.compReadMiss (m.pa / 4096)) s
      else match judge m.pa q.kind.writes m.req m.ctx m.vf s with
        | (.refuse r, s) => sendNak m 2 (some r) s
        | (.switch r lock, s) => beginSwitch r 0 false lock none (r.aag, r.actx, r.avf) (queueFirst q s)
        | (.hold, s) => queueFirst q s
        | (.serve lab, s) => if cutOff q s then sendNak m 1 none s else serveSized lab q s

/-- Begin the recall of a SWITCHING region on which no transaction is open (R127): BInv to every holder of every entry, and from
RO to every L1 and span peer for its T copies; (512, 0) has stood for the open transactions. -/
def beginRecall (page : Nat) (s : State) : State := match s.coh.regions.find? (·.page == page) with
  | none => s
  | some r =>
    if !r.sw || r.swAwait != [(512, 0)] || s.coh.txns.any (fun t => t.pa / 4096 == page || t.req.msg.pa / 4096 == page) then s else
    let es := s.coh.dir.filter fun e => e.pa / 4096 == page
    let m := (es.head?.map fun e => (homeMsg e.pa e.gsz)).getD (homeMsg (page * 4096) 128)
    let all := if r.label = 2 then List.range 160 ++ spanAgents s else []
    if !([160, 161].all fun p => portRoom s (es.filter fun e => (holdersOf s e).contains p).length [p]) then s else
    let await := (es.flatMap fun e => (holdersOf s e).map fun a => (a, e.pa)) ++ all.map fun a => (a, regionTag)
    let s := putRegion { r with swAwait := await } s
    let s := es.foldl (fun s e => dropDir e.pa (sendBInv e.pa e.gsz m (labelOf r.label) false (holdersOf s e) s)) s
    let s := sendBInv (page * 4096) 128 { m with tag := regionTag } (labelOf r.label) true all s
    if await.isEmpty then post 0 (.switchingComplete page) s else s

/-- Serve what may now be served of the queued requests, in arrival order (R98). -/
def drainFrom : List HReq → List HReq → State → List HReq × State
  | [], kept, s => (kept, s)
  | q :: r, kept, s =>
    if blocked q s || kept.any (conflict q) then drainFrom r (kept ++ [q]) s else
    let s := serve q s
    drainFrom r (kept ++ s.coh.homeQ) { s with coh := { s.coh with homeQ := [] } }
def drainOnce (s : State) : State :=
  let q := s.coh.homeQ
  let (kept, s) := drainFrom q [] { s with coh := { s.coh with homeQ := [] } }
  let s := { s with coh := { s.coh with homeQ := kept } }
  s.coh.regions.foldl (fun s r => if r.sw then beginRecall r.page s else s) s

/-- Serving may queue writes of the device itself, which a second pass serves. -/
def drain (s : State) : State := drainOnce (drainOnce s)

/-- Whether the arrival of a request counts in Q and may be sampled (R71): a later word of a grain that a base-die piece has touched
does not. -/
def samples (q : HReq) : Bool :=
  !(q.kind.isLabel || q.kind.isDevice || q.kind == .hostSnoop || (q.msg.write && (q.kind == .uread || q.kind == .uwrite || q.kind == .reduce)))

/-- A request arrives at its home. -/
def arrive (q : HReq) (s : State) : State :=
  let s := if samples q then heatSample q.msg.pa q.msg.heat s else s
  if blocked q s || s.coh.homeQ.any (conflict q) then drain (queueLast q s) else drain (serve q s)

/-! ## Closing a transaction -/

/-- Whether an owner's dirty answer counts as its write (R118). -/
def ownerCounts (lab : Label) : Bool := lab == .priv || lab == .migr

/-- The counts of a transaction with an owner's write, which counts once whether its Ack or its WbD comes first. -/
def countOwner (a : Nat) (t : Txn) : List (Nat × Bool) := if t.counts.contains (a, true) then t.counts else t.counts ++ [(a, true)]

/-- The entry that a closed transaction leaves. -/
def closeEntry (t : Txn) (s : State) : State := match dirOf s t.pa t.gsz with
  | none => s
  | some e => match t.kind with
    | .fwdS =>
      if t.req.kind = .hostSnoop then
        (if t.wbSeen.contains e.owner then dropDir e.pa s else if t.dirty then putDir { e with hst := .os } s
         else putDir (addSharer e.owner { e with hst := .s, owner := 0 }) s)
      else if t.wbSeen.contains e.owner then putDir (addSharer t.req.msg.req { e with hst := .s, owner := 0 }) s
      else if t.dirty then putDir (addSharer t.req.msg.req { e with hst := .os }) s
      else putDir (addSharer e.owner (addSharer t.req.msg.req { e with hst := .s, owner := 0 })) s
    | .uncachedR =>
      if t.wbSeen.contains e.owner then
        (if e.hst = .os ∧ ¬ (sharersOf s e).isEmpty then putDir { e with hst := .s, owner := 0 } s else dropDir e.pa s)
      else if t.dirty then putDir { e with hst := .os } s
      else putDir (addSharer e.owner { e with hst := .s, owner := 0 }) s
    | .fwdX => if t.req.kind = .hostSnoop ∨ t.wbSeen.contains t.req.msg.req then dropDir e.pa s else putDir { ownedBy t.req with vf := e.vf } s
    | .inv => if t.req.kind = .hostSnoop then dropDir e.pa s else s
    | _ => s

/-- Close a transaction: the entry, the counts of R118, and the requests that waited. -/
def closeTxn (t : Txn) (s : State) : State :=
  let s := dropTxn t.pa (closeEntry t s)
  let s := drain (countTxn t.req.msg.pa (t.counts ++ ownCount t.req) s)
  if spaceOf t.pa = .comp then missAgain s else s

/-- Close a recall (R88, R94): the entry is free, the owner's writes that it met are counted before the request that caused it, where they fall
in its region, or else by themselves, and that request is served (log entry 103). -/
def closeRecall (t : Txn) (s : State) : State :=
  let s := dropTxn t.pa (dropDir t.pa s)
  let here := t.pa / 4096 == t.req.msg.pa / 4096
  let s := if here then s else countTxn t.pa t.counts s
  let q := { t.req with
    pre := if here then t.req.pre ++ t.counts else t.req.pre
    evicted := t.req.evicted || !overlap t.pa t.gsz t.req.msg.pa t.req.msg.gsz }
  drain (if blocked q s then queueFirst q s else serve q s)

/-- Move a transaction on once its answers are in (R99, R100). -/
def advanceTxn (pa : Nat) (s : State) : State := match txnAt s pa with
  | none => s
  | some t =>
    if !t.await.isEmpty || !t.wbAwait.isEmpty || t.keepAwait then s else
    let m := t.req.msg
    let vf := ((dirOf s t.pa t.gsz).map (·.vf)).getD m.vf
    match t.kind with
    | .inv =>
      if t.req.kind = .hostSnoop then closeTxn t s else
      sendData m .e t.lab (putDir { ownedBy t.req with vf := vf } (putTxn { t with kind := .grant } s))
    | .upgAck =>
      let grant := if (dirOf s t.pa t.gsz).any fun e => e.hst == .os && e.owner != m.req then Grant.m else .e
      sendGrant m grant (putDir { ownedBy t.req with vf := vf } (putTxn { t with kind := .grant } s))
    | .invThenFwdX => match (dirOf s t.pa t.gsz).filter (·.hasOwner) with
      | some e => sendFwdX m t.lab e.owner (putTxn { t with kind := .fwdX, await := [e.owner] } s)
      | none => sendData m .e t.lab (putDir { ownedBy t.req with vf := vf } (putTxn { t with kind := .grant } s))
    | .update => post 0 (.updateCommit t.pa) s
    | .recall => closeRecall t s
    | .uncachedW => sendDone t.req (closeTxn t (performWrite t.req (dropDir t.pa s)))
    | _ => if t.needAck then s else closeTxn t s

/-- The home answers the evictor. -/
def sendWbAck (m : Msg) (s : State) : State := post 0 (.wback { m with dst := m.frm, frm := 512, data := [] }) s

/-- A step of an agent's answer to the recall of a SWITCHING region (R127, R102): an answer, an Ack with WB = 1, or the write-back that
was in flight. Of (a, key) on the list, (a + 1024, key) awaits only the write-back, and (a + 2048, key) has it. -/
inductive SwStep where
  | done | ackWb | back
  deriving DecidableEq, Repr

def switchAnswer (page a key : Nat) (w : SwStep) (s : State) : State := match s.coh.regions.find? (·.page == page) with
  | none => s
  | some r =>
    if !r.sw then s else
    let drop := fun k : Nat => r.swAwait.filter (· != (k, key))
    let has := fun k : Nat => r.swAwait.contains (k, key)
    let left := match w with
      | .done => (drop a).filter (· != (a + 2048, key))
      | .ackWb => if has (a + 2048) then drop (a + 2048) else if has a then drop a ++ [(a + 1024, key)] else r.swAwait
      | .back => if has (a + 1024) then drop (a + 1024) else if has a then drop a ++ [(a + 2048, key)] else r.swAwait
    if left = r.swAwait then s else
    let s := putRegion { r with swAwait := left } s
    if left.isEmpty then post 0 (.switchingComplete page) s else s

/-- An answer to a snoop (Ack or Cfl), or a requester's completion Ack, at the home. -/
def answer (m : Msg) (s : State) : State :=
  let s := if m.pend ≠ 0 then { s with coh := { s.coh with stale := s.coh.stale ++ [(m.frm, m.pend)] } } else s
  if switching s m.pa && m.tag == regionTag then switchAnswer (m.pa / 4096) m.frm regionTag .done s
  else match s.coh.txns.find? fun t => t.pa == m.pa && (t.await.contains m.frm || t.needAck) with
    | some t =>
      if t.await.contains m.frm && m.tag == t.req.msg.tag then
        let wait := m.wb && !t.wbSeen.contains m.frm
        let keeps := (t.kind == .fwdS || t.kind == .uncachedR) && t.lab == .pc && m.dirty && !m.wb
        let s := if t.wbSeen.contains m.frm then sendWbAck m s else s
        advanceTxn t.pa (putTxn { t with
          await := t.await.filter (· != m.frm)
          wbAwait := if wait then t.wbAwait ++ [m.frm] else t.wbAwait
          dirty := t.dirty || m.dirty
          keepAwait := keeps && !t.keepSeen
          counts := if m.dirty && ownerCounts t.lab then countOwner m.frm t
            else if t.kind = .update && m.dirty then t.counts ++ [(m.frm, false)] else t.counts } s)
      else if m.tag == t.req.msg.tag then advanceTxn t.pa (putTxn { t with needAck := false } s)
      else s
    | none => if switching s m.pa then switchAnswer (m.pa / 4096) m.frm m.pa (if m.wb then .ackWb else .done) s else s

/-! ## Write-backs at the home (R102) -/

/-- The data of a write-back at the home. Where the lines of its compressed page are not in the home's L2, it stays there beside them until they
are (R76). -/
def backData (pa : Nat) (bs : List Byte) (mk : List Bool) (s : State) : State :=
  let page := pa / 4096
  if spaceOf pa ≠ .comp then memWriteMask pa bs mk s
  else if (compOf s page).any (·.lines) then markDirty pa (memWriteMask pa bs mk s)
  else
    let new := ((List.range bs.length).zip (bs.zip mk)).filterMap fun (i, x, b) => if b then some (pa % 4096 + i, x) else none
    let c := (compOf s page).getD ⟨page, 0, [], false, false, false, true⟩
    let s := { s with coh := { s.coh with comp := s.coh.comp.filter (·.page != page) ++ [{ c with early := c.early ++ new }] } }
    if s.agenda.any (·.ev == .compReadMiss page) then s else post 0 (.compReadMiss page) s

/-- The entry after its owner's write-back (the owner's rows of R100). -/
def disown (e : DirEnt) (s : State) : State :=
  if e.hst == .os then putDir { e with hst := .s, owner := 0 } s else dropDir e.pa s

/-- Whether a WbD is the dirty answer to a BInv (R95): it carries the requester and the tag of the request for which the BInv was sent, where a
write-back of the agent's own carries its own number and the tag 0. -/
def answersBInv (m : Msg) : Bool := m.req != m.frm || m.tag != 0

/-- Apply WbD or EvC from `m.frm` when it arrives (R100, R102): the owner's data goes to the home, a non-owner's only where no
owner is recorded. The WbAck to an agent whose snoop is still unanswered follows its answer,
so that the snoop finds the buffer. The requester of an open FwdX transaction is the owner to be, and what it writes back is newer than
what the owner before it does. -/
def writeBack (data : Bool) (m : Msg) (s : State) : State :=
  let e := dirOf s m.pa m.gsz
  let owner := e.any fun e => e.hasOwner && e.owner == m.frm
  let recalled := switching s m.pa && (regionOf s m.pa).any fun r => r.swAwait.any fun w => w.1 % 1024 == m.frm && w.2 == m.pa
  let txn := s.coh.txns.find? fun t => t.pa == m.pa && overlap t.pa t.gsz m.pa m.gsz
  let next := txn.any fun t => t.kind == .fwdX && t.req.kind != .hostSnoop && t.req.msg.req == m.frm
  let late := txn.any fun t => t.kind == .fwdX && t.wbSeen.contains t.req.msg.req
  let write := data && (next || (owner && !late) || recalled || e.all fun e => !e.hasOwner)
  let s := if write then backData m.pa m.data (List.replicate m.gsz true) s else s
  match txn with
  | some t =>
    let asked := answersBInv m && t.await.contains m.frm
    let s := if t.await.contains m.frm && !asked then s else sendWbAck m s
    let unasked := owner && !t.await.contains m.frm && (t.kind == .grant || t.kind == .inv || t.kind == .invThenFwdX)
    let s := if unasked then e.elim s fun e => disown e s else s
    let count := data && ownerCounts t.lab && owner && (t.await.contains m.frm || t.wbAwait.contains m.frm)
    advanceTxn t.pa (putTxn { t with
      await := if asked then t.await.filter (· != m.frm) else t.await
      wbAwait := t.wbAwait.filter (· != m.frm)
      wbSeen := t.wbSeen ++ [m.frm]
      counts := if count then countOwner m.frm t else t.counts } s)
  | none =>
    let s := sendWbAck m s
    let s := if recalled then switchAnswer (m.pa / 4096) m.frm m.pa (if answersBInv m then .done else .back) s else s
    match e with
    | some e => if !owner then s else drain (disown e s)
    | none => s

/-! ## Uncached accesses whose callers ask again (R89, R475)

A record read, a word of a base-die piece, a row of an accumulator move, an access of a queue engine or a spill goes to its home as any uncached
access. Where the home can serve it at once its caller has the answer in the same step; else the request stands at the home, and the
caller asks again until the answer has come. -/

/-- What such an access meets: the bytes, a Nak, or a home that has not answered yet. -/
inductive Now where
  | ok (bs : List Byte) (s : State) | nak (m : Msg) (s : State) | wait (s : State)
  deriving DecidableEq, Repr

/-- Give up a copy by the evict rows (R101): silently from S and T, with EvC from E, with WbD from M and O. -/
def evictCopy (c : Copy) (s : State) : State :=
  let s := dropCopy c.agent c.pa c.gsz s
  if !c.st.owns then s else
  let m := { homeMsg c.pa c.gsz with req := c.agent, ctx := c.ctx, vf := c.vf, frm := c.agent, heat := c.heat, data := c.data }
  let s := { s with coh := { s.coh with wbufs := s.coh.wbufs ++ [⟨c.agent, c.pa, c.gsz, c.data, c.st.dirty⟩] } }
  post 0 (if c.st.dirty then .wbd m else .evc m) s

/-- Before an uncached access of its own the agent gives up the copy that the access conflicts with, because the home never snoops the
requester (R91): one that it owns, and before a write any. Whether the access may go now. -/
def giveUp (agent pa gsz : Nat) (wr : Bool) (s : State) : Bool × State :=
  if (pendOf s agent pa gsz).isSome || (wbufOf s agent pa gsz).isSome then (false, s) else
  match copyOf s agent pa gsz with
  | none => (true, s)
  | some c =>
    if !wr && !c.st.owns then (true, s)
    else (!c.st.owns, evictCopy c (if agent = 178 then queueWake c.pa c.gsz s else s))

/-- Whether an uncached write or reduction of an agent, or with `rd` a read, for some bytes is on its way to the home or waits there. A read that is
being served is none: what its agent asks next has its turn at the home after it. -/
def uncachedAhead (rd : Bool) (s : State) (agent pa n : Nat) : Bool :=
  (s.agenda.any fun d => match d.ev with
    | .uncachedRead m => rd && m.req == agent && overlap m.pa m.gsz pa n
    | .uncachedWrite m => m.req == agent && overlap m.pa m.gsz pa n
    | .bdReductionElement m => m.req == agent && overlap m.pa m.gsz pa n
    | _ => false) ||
  (s.coh.homeQ ++ s.coh.compHeld ++ (s.coh.txns.map (·.req)).filter (·.kind != .uread)).any fun q =>
    ((rd && q.kind == .uread) || q.kind == .uwrite || q.kind == .reduce) && q.msg.req == agent && overlap q.msg.pa q.msg.gsz pa n

/-- Whether an uncached request of an agent for some bytes is ahead: its L1 asks for nothing of them meanwhile. -/
def uncachedBy : State → Nat → Nat → Nat → Bool := uncachedAhead true

def askOf (s : State) (who pa : Nat) (wr : Bool) : Option Ask := s.coh.asks.find? fun a => a.who == who && a.pa == pa && a.write == wr

/-- What the caller `who` of the access with message `m` has now. -/
def askState (who : Nat) (wr : Bool) (m : Msg) (s : State) : Now := match askOf s who m.pa wr with
  | some a => match a.reply with
    | .waiting => .wait s
    | .data bs => .ok bs s
    | .nak n => .nak n s
  | none => .wait s

/-- Ask for one grain: send the request if it is not on its way, and see what has come. -/
def askGrain (who : Nat) (wr : Bool) (m : Msg) (s : State) : Now := match askOf s who m.pa wr with
  | some _ => askState who wr m s
  | none => match giveUp m.req m.pa m.gsz wr s with
    | (false, s) => .wait s
    | (true, s) =>
      let (tag, s) := fresh s
      let s := { s with coh := { s.coh with asks := s.coh.asks ++ [⟨who, m.req, m.pa, wr, tag, .waiting⟩] } }
      askState who wr m (arrive ⟨if wr then .uwrite else .uread, { m with tag := tag, frm := m.req }, [], false⟩ s)

/-- The parts of n bytes at `pa` in grains of `gsz` bytes: (grain, first byte, number). -/
def grainParts (gsz : Nat) : Nat → Nat → Nat → List (Nat × Nat × Nat)
  | 0, _, _ => []
  | fuel + 1, pa, n =>
    if n = 0 then [] else
    let g := pa / gsz * gsz
    let k := min n (g + gsz - pa)
    (g, pa, k) :: grainParts gsz fuel (pa + k) (n - k)

/-- Ask for every grain of an access, in address order. -/
def askParts (who : Nat) (wr : Bool) (mk : Nat × Nat × Nat → Msg) : List (Nat × Nat × Nat) → State → Now
  | [], s => .ok [] s
  | p :: r, s => match askGrain who wr (mk p) s with
    | .wait s => .wait s
    | .nak m s => .nak m s
    | .ok bs s => match askParts who wr mk r s with
      | .ok rest s => .ok (slice 0 bs (p.2.1 - p.1) p.2.2 ++ rest) s
      | r => r

/-- Who makes an uncached access: its own number in the model, its agent, context and function, the HEAT flag and the grain size of the page,
and whether it goes on in a grain that a base-die piece has touched (R71). -/
structure Asker where
  who : Nat
  agent : Nat
  ctx : Nat
  vf : Nat
  heat : Bool
  gsz : Nat
  again : Bool
  deriving DecidableEq, Repr

/-- An uncached access of n bytes at `pa`: a read of them, or a write of `f`. Labels, heat and the classifier apply as to any uncached
access. -/
def accessNow (a : Asker) (pa n : Nat) (f : Option (List Byte)) (s : State) : Now :=
  let gsz := max a.gsz 1
  let mk := fun (p : Nat × Nat × Nat) =>
    let m := { homeMsg p.1 gsz with req := a.agent, ctx := a.ctx, vf := a.vf, heat := a.heat, write := a.again }
    match f with
    | none => m
    | some bs => { m with
        data := splice (List.replicate gsz 0) (p.2.1 - p.1) (slice 0 bs (p.2.1 - pa) p.2.2)
        bmask := (List.range gsz).map fun i => decide (p.2.1 ≤ p.1 + i) && decide (p.1 + i < p.2.1 + p.2.2) }
  match askParts a.who f.isSome mk (grainParts gsz (n / 32 + 2) pa n) s with
  | .ok bs s => .ok bs (dropAsks a.who s)
  | .nak m s => .nak m (dropAsks a.who s)
  | .wait s => .wait s

/-! ## The events of the home -/

def homeStep (k : HKind) (m : Msg) (s : State) : Host.Outcome State Fault Refusal := .next (arrive ⟨k, m, [], false⟩ s)

def execRds (m : Msg) (s : State) : Host.Outcome State Fault Refusal := homeStep .rds m s
def execRdx (m : Msg) (s : State) : Host.Outcome State Fault Refusal := homeStep .rdx m s
def execUpg (m : Msg) (s : State) : Host.Outcome State Fault Refusal := homeStep .upg m s
def execUncachedRead (m : Msg) (s : State) : Host.Outcome State Fault Refusal := homeStep .uread m s
def execUncachedWrite (m : Msg) (s : State) : Host.Outcome State Fault Refusal := homeStep .uwrite m s
def execBdReductionElement (m : Msg) (s : State) : Host.Outcome State Fault Refusal := homeStep .reduce m s
def execLrd (m : Msg) (s : State) : Host.Outcome State Fault Refusal := homeStep .lrd m s
def execLset (m : Msg) (s : State) : Host.Outcome State Fault Refusal := homeStep .lset m s
def execLlock (m : Msg) (s : State) : Host.Outcome State Fault Refusal := homeStep .llock m s
def execLunl (m : Msg) (s : State) : Host.Outcome State Fault Refusal := homeStep .lunl m s
def execLhist (m : Msg) (s : State) : Host.Outcome State Fault Refusal := homeStep .lhist m s
def execEvc (m : Msg) (s : State) : Host.Outcome State Fault Refusal := .next (writeBack false m s)

/-- WBD: an eviction's data, the dirty answer to BInv, or the bytes that a PC owner's answer to FwdS carries with KEEP = 1, which
are applied within the transaction that sent it (R102, R124). -/
def execWbd (m : Msg) (s : State) : Host.Outcome State Fault Refusal :=
  let s := heatSample m.pa m.heat s
  if !m.keep then .next (writeBack true m s) else
  let s := if (dirOf s m.pa m.gsz).all fun e => !e.hasOwner || e.owner == m.frm then backData m.pa m.data m.bmask s else s
  match s.coh.txns.find? fun t => t.pa == m.pa && (t.kind == .fwdS || t.kind == .uncachedR) with
  | some t => .next (advanceTxn t.pa (putTxn { t with keepAwait := false, keepSeen := true } s))
  | none => .next s

/-- UPDATE_WRITE (R125): a request, queued in arrival order. -/
def execUpdateWrite (m : Msg) (s : State) : Host.Outcome State Fault Refusal := homeStep .update m s

/-- The lanes of the store that an update write performs are performed: no later load of the core takes their bytes from the queue (R255). -/
def performUpdate (m : Msg) (s : State) : State := match s.coh.pends.find? fun p => p.agent == m.req && p.tag == m.tag && p.kind == .upd with
  | some p => { s with eng := { s.eng with accs := mapIf (·.id == p.op) (fun a => { a with
      lanes := mapIf (fun l => l.st == .waiting && l.pa / l.gsz * l.gsz == p.pa) (fun l => { l with st := .performed }) a.lanes }) s.eng.accs } }
  | none => s

/-- UPDATE_COMMIT (R125): the store is performed, in one step at the writer's copy and for every subscriber. -/
def execUpdateCommit (grain : Nat) (s : State) : Host.Outcome State Fault Refusal := match txnAt s grain with
  | none => .next s
  | some t =>
    if t.kind ≠ .update ∨ ¬ t.await.isEmpty then .next s else
    let m := t.req.msg
    let merge := fun c : Copy => { c with data := (c.data.zip (m.data.zip m.bmask)).map fun (o, n, b) => if b then n else o }
    let s := { s with coh := { s.coh with
      l1 := mapIf (fun c => c.agent == m.req && overlap c.pa c.gsz m.pa m.gsz) merge s.coh.l1 } }
    let s := post 0 (.wback { m with dst := m.req, frm := 512 }) (performUpdate m s)
    let subs := (t.counts.filter fun c => !c.2).map (·.1)
    let s := postAll (subs.map fun a => .commitAck { m with frm := 512, dst := a }) s
    let order := fun l : List Nat => (List.range 512).filter l.contains
    let t := { t with counts := [] }
    let s := dropTxn t.pa s
    .next (drain (countTxn m.pa (t.req.pre ++ (m.req, true) :: (order subs).map fun a => (a, false)) s))

def execAck (m : Msg) (s : State) : Host.Outcome State Fault Refusal := .next (answer m s)
def execCfl (m : Msg) (s : State) : Host.Outcome State Fault Refusal := .next (answer m s)

/-- HOST_SNOOP (R106): a snoop of either line takes the whole 128-byte grain. -/
def execHostSnoop (line : Nat) (write : Bool) (s : State) : Host.Outcome State Fault Refusal :=
  let (tag, s) := fresh s
  let m := { homeMsg (line / 128 * 128) 128 with req := if (line - hostBase) / hostPort % 2 = 1 then 161 else 160, tag := tag, write := write }
  .next (arrive ⟨.hostSnoop, m, [], false⟩ s)

/-- WINDOW_CLOSE (R120, R121). -/
def execWindowClose (region : Nat) (s : State) : Host.Outcome State Fault Refusal :=
  match s.coh.regions.find? (·.page == region) with
  | some r => if r.sw then .next (drain s) else if r.closing then .next (drain (closeClassWindow r s)) else .next s
  | none => .next s

/-- SWITCHING_COMPLETE (R127, step 4 and 5). -/
def execSwitchingComplete (region : Nat) (s : State) : Host.Outcome State Fault Refusal :=
  match s.coh.regions.find? (·.page == region) with
  | some r =>
    if !r.sw || !r.swAwait.isEmpty then .next s else
    let r' := relabelled r r.tgt r.swAsrt r.swLock r.swOwner
    let s := writeLabel r' (putRegion r' s)
    let s := match r.swCmd with
      | some m => sendLabel m (labelResult 0 r'.byte 0 0) s
      | none => s
    .next (drain s)
  | none => .next s

/-- REGION_ENTRY_EVICT (R116): only an unpinned entry goes; its byte stands in the table. -/
def execRegionEntryEvict (region : Nat) (s : State) : Host.Outcome State Fault Refusal :=
  match s.coh.regions.find? (·.page == region) with
  | some r =>
    if r.pinned then .next s
    else .next (let s := writeLabel r s; { s with coh := { s.coh with regions := s.coh.regions.filter (·.page != region) } })
  | none => .next s

end Sys2Proof.Machine
end

