-- ==== Sys2Proof/Machine/Shards.lean ====
section
/-! DEFINITION. The shards of the Ordered Worklist (R195 to R216) as other parts see them: keys, the local minimum, the global floor, and
the priority that a halted holder of the floor takes from the pops that wait for it. -/

namespace Sys2Proof.Machine

open Sys2Proof

def wlOf (s : State) (w : Nat) : Option Worklist := s.worklists.find? (·.id == w)
def modWl (w : Nat) (f : Worklist → Worklist) (s : State) : State := { s with worklists := mapIf (·.id == w) f s.worklists }
def shardIn (w : Worklist) (core : Nat) : Option Shard := w.shards.find? (·.core == core)
def shardOf (s : State) (w core : Nat) : Option Shard := (wlOf s w).bind fun w => shardIn w core
def modShard (w core : Nat) (f : Shard → Shard) (s : State) : State :=
  modWl w (fun w => { w with shards := mapIf (·.core == core) f w.shards }) s

/-- A key above every key: what an empty shard reports. -/
def noKey : Nat := 2 ^ 32

/-- The key of an item (R198). -/
def keyOf (w : Worklist) (i : Item) : Nat := i.prio.toNat / 2 ^ w.wrec.w

/-- The items that are on their way from the chip to the spill area. -/
def leavingChip (sh : Shard) : List Item := match sh.doing with
  | none => []
  | some (.spill push its) => if push then [] else its
  | some (.refill _ out) => out
  | some (.swap _ _ out) => out

/-- The local minimum of a shard (R205), `noKey` when it is empty. -/
def localMin (w : Worklist) (sh : Shard) : Nat :=
  let items := sh.items ++ leavingChip sh ++ sh.given.flatMap (·.2)
  let ks := items.map (keyOf w) ++ sh.holds.map (·.2.2.1) ++ sh.chunks.map (·.minKey) ++ (match sh.lowering with
    | some k => [k]
    | none => [])
  ks.foldl min noKey

/-- G (R205). -/
def globalFloor (w : Worklist) : Nat := w.shards.foldl (fun m sh => min m (localMin w sh)) noKey

/-- Whether a shard reports empty (R212). -/
def shardEmpty (sh : Shard) : Bool :=
  sh.items.isEmpty && sh.holds.isEmpty && sh.chunks.isEmpty && sh.given.isEmpty && sh.taken.isEmpty && sh.lowering.isNone &&
    sh.pushes.isEmpty && sh.doing.isNone

/-- Items that a group holds at a shard (R202). -/
def heldBy (sh : Shard) (g : GRef) : Nat :=
  ((sh.holds.filter fun h => h.1 == g.blk && h.2.1 == g.gid).map (·.2.2.2)).sum

/-- The highest priority of the pops that wait on a worklist whose global floor a halted block holds (R216). -/
def popBoost (s : State) (blk : Nat) : Nat := s.worklists.foldl (fun m w =>
  let g := globalFloor w
  if w.shards.any fun sh => sh.holds.any fun h => h.1 == blk && h.2.2.1 == g then
    (w.shards.flatMap (·.pops)).foldl (fun m p =>
      max m ((((blkOf s p.g.blk).bind fun b => launchOf s b.launch).map (·.prio)).getD 0)) m
  else m) 0

/-- The priority of a block: its launch's, and that of the waiting pops that a halted holder of the floor holds up (R216). -/
def prioOf (s : State) (b : Block) : Nat :=
  max (((launchOf s b.launch).map (·.prio)).getD 0) (if b.state = .halted then popBoost s b.id else 0)

/-- A halted block that a waiting pop's priority raises is looked at again: it may be resumed before others, or pre-empt for its core (R216). -/
def boostHolders (s : State) : State := postAll ((s.blocks.filter fun b => b.state == .halted &&
  decide (((launchOf s b.launch).map (·.prio)).getD 0 < popBoost s b.id) && !s.agenda.any (·.ev == .blockResume b.id)).map fun b => .blockResume b.id) s

/-- Look again at what waits for space: pending launches by priority, then halted blocks (R175, R193). -/
def spaceFreed (s : State) : State :=
  let waits := s.launches.filter fun l => l.status == .running && decide (l.nextBid < l.lrec.blocks)
  let ordered := (List.range 8).reverse.flatMap fun p => waits.filter (·.prio == p)
  let back := s.blocks.filter (·.state == .halted)
  let again := (List.range 8).reverse.flatMap fun p => back.filter fun b => prioOf s b == p
  let evs := ordered.map (fun l => Instr.blockPlace l.id) ++ again.map fun b => .blockResume b.id
  postAll (evs.filter fun e => !(s.agenda.any (·.ev == e))) s

end Sys2Proof.Machine
end

