-- ==== Sys2Proof/Machine/Blocks.lean ====
section
/-! DEFINITION. Shared operations on a group's place in its block: waits, the order that a release keeps (R261), record reads
(R475), stack spills (R228, R229), barriers (R342), the closing of windows and batches (R416, R435), exit (R227, R335) and
retirement (R179). -/

namespace Sys2Proof.Machine

open Sys2Proof

/-! ## Waiting and stalling -/

/-- Wait at the instruction: the group is as it was before it, and the instruction issues again when the wait ends. -/
def waitHere (x : Iss) (w : Wait) (s : State) : State :=
  modGrp x.g (fun _ => modEntry x.g.low (fun e => { e with wait := w }) x.grp) s

/-- The group stays at the instruction, with what the attempt has set in motion. -/
def stallWith (x : Iss) (s : State) : Res := .next (modGrp x.g (fun _ => x.grp) s)

/-- Wait after the instruction. -/
def waitAfter (x : Iss) (w : Wait) (s : State) : State := modGrp x.g (modEntry x.g.low (fun e => { e with wait := w })) s

/-- Set the issuing entry's PC. -/
def setPc (x : Iss) (pc : W64) (s : State) : State := modGrp x.g (modEntry x.g.low (fun e => { e with pc := pc })) s

/-- The trap ILL of an instruction, with its word (R163). -/
def illOf (i : Sig) : Trap := trapAt .ill i.word

/-- A fault without run-ahead (R156): the group goes back to the instruction, or to the first of a chain that is open (R157), and waits on the
token. -/
def faultHere (x : Iss) (src : Nat) (p : FPage) (w : Kill → Waiter) (s : State) : State :=
  let open_ := decide (0 < x.ent.chain ∧ x.ent.chain < 3)
  let back := if open_ then modEntry x.g.low (fun e => { e with pc := e.chainPc, chain := 0, latches := [] }) x.grp else x.grp
  let s := modGrp x.g (fun _ => back) s
  let (t, s) := postBatch x.vf x.ctx src x.core 0 [p] (w (killOf x open_ p s)) s
  modGrp x.g (fun g => { g with faultWait := some t }) s

/-- Whether every earlier access of the group is performed (one that has been refused is not done until its trap is due, R133), and every store whose value an earlier load of it returned
(R261, R264). -/
def relReady (x : Iss) (s : State) : Bool :=
  s.eng.accs.all fun a => a.kind == .pref || (a.returned && a.naks.isEmpty) ||
    (!(a.g.blk == x.g.blk && a.g.gid == x.g.gid) && !x.grp.seen.contains a.id)

/-! ## Record reads (R475) -/

/-- A read at issue of n bytes that lie in one page: the bytes, a page fault, a Nak with the first byte that it refuses (its virtual and its physical
address, 0 where it is not translated), or not yet. -/
inductive Got where
  | ok (bs : List Byte) (s : State) | fault (p : FPage) (s : State) | nak (m : Msg) (va : W64) (pa : Nat) (s : State) | wait (s : State)
  deriving DecidableEq, Repr

/-- An access of n bytes at a canonical virtual address through a TLB, uncached at the home: a read, or a write of `f`. -/
def accessAt (t : Tlb) (who ctx : Nat) (acc : AccType) (va : W64) (n : Nat) (f : Option (List Byte)) (s : State) : Got :=
  match translate t ctx acc va s with
  | (.wait, s) => .wait s
  | (.fault c, s) => .fault (pageOf va acc.code c) s
  | (.nak m, s) => .nak m va 0 s
  | (.ok pa l, s) =>
    match accessNow ⟨who, t.agent, ctx, ((ctxOf s ctx).map (·.vf)).getD 0, l.heat, l.grain, false⟩ pa n f (touch ctx pa s) with
    | .ok bs s => .ok bs s
    | .nak m s => .nak m (va + BitVec.ofNat 64 (m.pa - pa)) (max m.pa pa) s
    | .wait s => .wait s

def readAt (t : Tlb) (who ctx : Nat) (va : W64) (n : Nat) (s : State) : Got := accessAt t who ctx .read va n none s

/-! ## Stack spills (R228, R229) -/

/-- The place of a spilled entry: a slab offset, or a virtual address of the overflow area. -/
inductive Place where
  | slab (o : Nat) | va (a : W64)
  deriving DecidableEq, Repr

/-- The place that DSTK gives stack position p. -/
def placeOf (l : LRec) (g : Group) (p : Nat) : Option Place :=
  let d := g.dstk.toNat
  let lpn := bits d 7 0
  if p < 64 * lpn then
    let o := 16 * bits d 15 8 + 32 * (p / 64)
    if o + 32 ≤ 16 * l.lpriv then some (.slab (256 * l.slab + 16 * l.lpriv * (64 * g.gid + p % 64) + o)) else none
  else if bits d 63 16 ≠ 0 ∧ p - 64 * lpn < 65536 then
    some (.va (BitVec.ofNat 64 (bits d 63 16 * 65536 + 32 * (p - 64 * lpn))))
  else none

/-- What a spill or fill of some positions comes to. -/
inductive Spilled where
  | ok (s : State) | noPlace | beyond (a : W64) | fault (p : FPage) (s : State) | nak (m : Msg) (a : W64) (pa : Nat) (s : State) | wait (s : State)
  deriving DecidableEq, Repr

/-- Store the bytes of spilled entries, whose format is not architected: their values are free. An address of the overflow area that is not
canonical takes no access (R140); a slab place waits for the fill of an absent granule (R193). -/
def spillAt (x : Iss) : List Nat → State → Spilled
  | [], s => .ok s
  | p :: r, s => match placeOf x.lrec x.grp p with
    | none => .noPlace
    | some (.slab o) => match slabGap s x.g.blk o 32 with
      | some g => .wait (askFill x.g.blk g s)
      | none => spillAt x r (modBlk x.g.blk (slabWrite o ((List.range 32).map (Config.spillByte s.free))) { s with free := s.free + 1 })
    | some (.va a) =>
      if !canonical a then .beyond a else
      match accessAt (.core x.core) (groupKey x.g) x.ctx .write a 32 (some ((List.range 32).map (Config.spillByte s.free))) { s with free := s.free + 1 } with
      | .ok _ s => spillAt x r s
      | .fault p s => .fault p s
      | .nak m va pa s => .nak m va pa s
      | .wait s => .wait s

/-- The positions that a push of two entries spills, and the entries then on chip. -/
def pushSpills (g : Group) : List Nat × Nat :=
  let below := g.stack.length - g.onChip
  let n := g.onChip + 2 - 16
  ((List.range n).map (below + ·), g.onChip + 2 - n)

/-! ## Parents that wait (R176) -/

/-- The waits of lwait and of the launch limit. -/
def launchWait : Wait → Bool
  | .lwait _ _ => true
  | .launchLimit => true
  | _ => false

/-- A block all of whose groups wait on launches while one that it issued still runs. -/
def parentWaits (s : State) (b : Block) : Bool :=
  b.state == .resident && (b.groups.all fun g => g.exited || (g.faultWait.isNone && g.ahead.isNone &&
    [false, true].all fun low => (liveEntry g low).all fun e => launchWait e.wait)) &&
    b.issued.any fun l => (launchOf s l).any (·.status == .running)

/-- A parent that has come to wait on its launches may free space (R175, R176). -/
def parentGives (blk : Nat) (s : State) : State := if (blkOf s blk).any (parentWaits s) then spaceFreed s else s

/-! ## Barriers (R342) -/

def noBarrier : Barrier := ⟨0, [], 0⟩

/-- The participants that have arrived in the phase, those that have exited counting under the all-participants count. -/
def arrivals (all : Nat) (exited : List (Nat × Nat)) (br : Barrier) : Nat :=
  br.arrived.length + (if br.expected = all then (exited.filter fun e => !br.arrived.contains e).length else 0)

/-- An arrival: the first of a phase sets the expected count, and a group counts once. -/
def arriveAt (all : Nat) (exited : List (Nat × Nat)) (count : Nat) (who : Nat × Nat) (br : Barrier) : Barrier :=
  let br := if br.arrived.isEmpty then { br with expected := if count = 0 ∨ all < count then all else count } else br
  let br := if br.arrived.contains who then br else { br with arrived := br.arrived ++ [who] }
  if br.expected ≤ arrivals all exited br then { br with arrived := [], phase := br.phase + 1 } else br

/-- The blocks of a block's cluster-mode set, the block alone without CLM (R177, R222). -/
def setBlocks (s : State) (b : Block) : List Block := s.blocks.filter fun c => c.launch == b.launch && c.setId == b.setId

def exitedOf (bs : List Block) : List (Nat × Nat) :=
  bs.flatMap fun b => (b.groups.filter (·.exited)).map fun g => (b.id, g.gid)

/-- Groups that take part in a cluster barrier: GCNT times the blocks of the set. -/
def clusterAll (s : State) (b : Block) (l : LRec) : Nat := (l.gpb + 1) * (setBlocks s b).length

def barrierOf (b : Block) (n : Nat) : Barrier := FMap.get noBarrier b.barriers n
def cbarrierOf (b : Block) (n : Nat) : Barrier := FMap.get noBarrier b.cbarriers n

/-- Release the waiters of block barrier n up to its phase number. -/
def releaseBar (blk n : Nat) (phase : W64) (s : State) : State :=
  wakeWhere (·.id == blk) (fun w => match w with
    | .bar m p => m == n && decide (p < phase.toNat)
    | _ => false) s

def releaseCbar (holder n : Nat) (phase : W64) (s : State) : State :=
  wakeWhere (fun _ => true) (fun w => match w with
    | .cbar b m p => b == holder && m == n && decide (p < phase.toNat)
    | _ => false) s

/-- Put a block barrier and release its waiters if its phase moved on. -/
def putBarrier (blk n : Nat) (br : Barrier) (s : State) : State :=
  releaseBar blk n br.phase (modBlk blk (fun b => { b with barriers := FMap.set noBarrier b.barriers n br }) s)

def putCbarrier (holder n : Nat) (br : Barrier) (s : State) : State :=
  releaseCbar holder n br.phase (modBlk holder (fun b => { b with cbarriers := FMap.set noBarrier b.cbarriers n br }) s)

/-- After an exit: phases under the all-participants count that are now complete. -/
def recheckBarriers (b : Block) (l : LRec) (s : State) : State :=
  let again := fun (all : Nat) (ex : List (Nat × Nat)) (br : Barrier) =>
    !br.arrived.isEmpty && decide (br.expected = all) && decide (br.expected ≤ arrivals all ex br)
  let s := match blkOf s b.id with
    | none => s
    | some b => b.barriers.foldl (fun s (n, br) =>
        if again (l.gpb + 1) (exitedOf [b]) br then putBarrier b.id n { br with arrived := [], phase := br.phase + 1 } s else s) s
  let set := setBlocks s b
  set.foldl (fun s c => c.cbarriers.foldl (fun s (n, br) =>
    if again (clusterAll s b l) (exitedOf set) br then putCbarrier c.id n { br with arrived := [], phase := br.phase + 1 } s
    else s) s) s

/-! ## Windows and batches -/

/-- The generator classes that a window draws from, in ascending order (R436). -/
def drawnClasses (ins : List StrIns) : List Nat :=
  (List.range 16).filter fun c => ins.any fun i => (i.kind == .gen || i.kind == .regen) && i.cls == c

/-- Take the draws of a window: each of its classes goes on by n draws in every lane. -/
def advanceDraws (seed : W64) (bid len n : Nat) (cs : List Nat) (g : Group) : Group :=
  cs.foldl (fun g c => (drawLanes seed bid len c n lanes g).2) g

/-- Close the open stream window (R435, R436): it enters the engine order of the core with the L and P of DSECTL, and its draws are
taken here. -/
def closeWindow (r : GRef) (s : State) : State :=
  match blkOf s r.blk, grpOf s r with
  | some b, some g =>
    if g.window.isEmpty then s else
    let len := passLen g.dsectl
    let w : Window := ⟨r, len, passCount g.dsectl, g.window, g.gens, g.ctrs, 0, []⟩
    let seed := ((launchOf s b.launch).map (·.lrec.seed)).getD 0
    let s := { s with eng := { s.eng with windows := FMap.set [] s.eng.windows b.core (FMap.get [] s.eng.windows b.core ++ [w]) } }
    post 0 (.streamWindowRun b.core)
      (modGrp r (fun g => { advanceDraws seed b.bid len (len * passCount g.dsectl) (drawnClasses g.window) g with window := [] }) s)
  | _, _ => s

/-- Whether a matrix op is a share of a team op. -/
def MOp.isTeam (o : MOp) : Bool := match o.kind with
  | .mmat _ _ _ _ _ => true
  | .accz => false
  | .accld _ => false
  | .accst _ => false
  | .accoutReg _ _ _ _ => false
  | .accoutMem _ _ _ _ => false
  | .mma _ _ _ => false
  | .mmas _ _ _ => false

/-- An empty open batch (R416). -/
def freshBatch : Batch :=
  { num := 0, nops := 0, dops := 0, isOpen := true, done := false, halt := false, teamErr := false, memErr := false,
    nar := false, novf := false, op := 0, rows := [] }

/-- Promote an l6 run into its rows (R286): one rounding of row plus N, NaN where NaR was met. -/
def promoteRun (b : Block) (r : Run) : Block × Bool :=
  let keys := ((r.acc.map (·.1)) ++ r.nar).eraseDups
  let rows := (List.range 64).flatMap fun i => (List.range 64).map fun n => 64 * i + n
  let b := rows.foldl (fun b k =>
    let (row, n) := (r.r0 + k / 64, k % 64)
    let v : Int := (FMap.get 0 r.acc k).toInt
    let out := if r.nar.contains k then 0x7FC00000
      else faddExact (accGet b row n).toNat v
    accSet row n (BitVec.ofNat 32 out) b) b
  (b, keys.any r.nar.contains)
where
  /-- RoundRNE(a + N * 2^-16), N * 2^-16 being +0 for N = 0. -/
  faddExact (a : Nat) (v : Int) : Nat := roundF fmtF32 .rne 0 (FVal.add .rne (fmtF32.decode a) (FVal.ofUnits false v (-16)))

/-- End the group's open l6 run: promote it and record NAR in the batch it belongs to. -/
def endRun (r : GRef) (s : State) : State :=
  match blkOf s r.blk, (grpOf s r).bind (·.run) with
  | some b, some run =>
    let (b', nar) := promoteRun b run
    let s := modBlk r.blk (fun b => { b with acc := b'.acc }) s
    modGrp r (fun g => flagBatch run.batch (fun x => { x with nar := x.nar || nar }) { g with run := none }) s
  | _, _ => s
where
  /-- Change the status of batch n of a group, the open batch being the next number. -/
  flagBatch (n : Nat) (f : Batch → Batch) (g : Group) : Group :=
    if n = g.nextBatch then { g with batch := f g.batch } else { g with closed := mapIf (·.num == n) f g.closed }

/-- Whether a batch numbered n has an op that is not complete: one not performed, or one of an l6 run that has yet to reach its promotion point. -/
def opsLeft (g : Group) (n : Nat) (b : Batch) : Bool := decide (b.dops < b.nops) || g.run.any fun r => r.batch == n && r.count != 0

/-- A halt falls: the batches with an incomplete op record it (R430, R474). -/
def markHalt (g : Group) : Group :=
  { g with
    batch := if opsLeft g g.nextBatch g.batch then { g.batch with halt := true } else g.batch
    closed := mapIf (fun b => !b.done && opsLeft g b.num b) (fun b => { b with halt := true }) g.closed }

/-- Close the open batch (R416): it takes the next number and counts on path 4 until it completes. -/
def closeBatch (r : GRef) (s : State) : State :=
  let (op, s) := fresh s
  post 0 (.matrixBatchComplete r) (modGrp r (fun g =>
    { rise 4 op g with
      closed := (g.closed.filter fun b => !b.done || g.nextBatch < b.num + 16) ++ [{ g.batch with num := g.nextBatch, isOpen := false, op := op }]
      nextBatch := g.nextBatch + 1
      batch := freshBatch }) s)

/-! ## Exit and retirement -/

/-- Whether a block may retire (R179). -/
def retirable (s : State) (b : Block) : Bool :=
  b.state != .retired && b.groups.all (fun g => g.exited && g.flights.isEmpty) &&
    b.issued.all fun l => (launchOf s l).all fun l => l.status != .running

/-- Post the retirement of a block that may retire, once. -/
def checkRetire (blk : Nat) (s : State) : State := match blkOf s blk with
  | some b => if retirable s b && !(s.agenda.any fun d => d.ev == .blockRetire blk) then post 0 (.blockRetire blk) s else s
  | none => s

/-- The granules of the n registers of group `gid` from register r on; as group 32 those of a block's pool. -/
def granSpan (gid r n : Nat) : List Granule := (List.range (n / 8)).map fun i => .vreg (gid * 192 + r / 8 + i)

/-- The granules `fs` of a block go by the names `ts` from now on. -/
def renameGrans (fs ts : List Granule) (b : Block) : Block :=
  let f := fun g => match fs.idxOf? g with
    | some i => ts.getD i g
    | none => g
  { b with absent := b.absent.map f, places := b.places.map fun e => (f e.1, e.2), savedAt := b.savedAt.map fun e => (f e.1, e.2) }

/-- n registers of a group from register r on go to its block's pool, at the pool's end, or come from there: with their granules, wherever these
are (R191, R232). -/
def toPool (gid r n : Nat) (b : Block) : Block := { renameGrans (granSpan gid r n) (granSpan 32 b.pool n) b with pool := b.pool + n }
def fromPool (gid r n : Nat) (b : Block) : Block := { renameGrans (granSpan 32 (b.pool - n) n) (granSpan gid r n) b with pool := b.pool - n }

/-- Queued requests for registers are looked at again. -/
def askGrant (blk : Nat) (s : State) : State := match blkOf s blk with
  | some b => if b.acqQueue.isEmpty then s else post 0 (.xacqGrant blk) s
  | none => s

/-- The base registers of a group of a block. -/
def blockBase (s : State) (blk : Nat) : Nat := (((blkOf s blk).bind fun b => launchOf s b.launch).map fun l => baseRegs l.lrec).getD 0

/-- Return the extended block of an exited group to the pool once its pending writes have arrived (R335). -/
def freeExt (r : GRef) (s : State) : State := match grpOf s r with
  | some g => if g.exited && g.ext ≠ 0 && g.pend.isEmpty && g.busy.isEmpty then
      askGrant r.blk (modGrp r (fun g => { g with ext := 0 }) (modBlk r.blk (toPool r.gid (blockBase s r.blk) g.ext) s))
    else s
  | none => s

/-- After an operation of a group has completed: its counter falls, and an exited group's registers and block may be freed. -/
def opDone (r : GRef) (op : Nat) (s : State) : State := checkRetire r.blk (freeExt r (finishOp r op s))

/-- The lanes that an exit clears: the path's, and in handler mode those of the trapping path (R337). -/
def exitLanes (x : Iss) : Mask := match x.grp.handler with
  | none => x.ent.mask
  | some h => x.ent.mask ||| (((x.grp.stack[x.grp.stack.length - h.depth + (if h.low then 1 else 0)]?).map (·.mask)).getD 0)

/-- The stack after the lanes `m` have exited (R227). -/
def clearLanes (m : Mask) (g : Group) : Group :=
  let st := dropEmpty (g.stack.map fun e => { e with mask := e.mask &&& ~~~m })
  { g with stack := st, onChip := min st.length (max (g.onChip - (g.stack.length - st.length)) (min st.length 1)), handler := none, turn := false }

end Sys2Proof.Machine
end

