-- ==== Sys2Proof/Machine/Access.lean ====
section
/-! DEFINITION. Per-lane accesses in flight (R253 to R260, R393, R398): the core's store queue, what an L1 does for a waiting access
(R101, R104, R105, R125), how an access completes or is refused (R133, R165), and the service at slabs and pad slices. -/

namespace Sys2Proof.Machine

open Sys2Proof

/-! ## Widths and values (R389, R398) -/

/-- The bytes of each lane's access. -/
def accBytes (t : Ty) : Nat := t.width / 8

/-- What a load writes from the bytes it read. -/
def loadVal (t : Ty) (v : Nat) : Nat := match t with
  | .i16x2 => wrapN 32 (sext 16 v)
  | .i8x4 => wrapN 32 (sext 8 v)
  | _ => v

/-- The new value of an atomic lane. -/
def newValue (k : AccKind) (t : Ty) (aop old b c : Nat) : Nat := match k with
  | .atomc => if old = b then c else old
  | .atom => atomOp t aop old b
  | .red => atomOp t aop old b
  | .load => old
  | .pref => old
  | .store => b
  | .atoms => b

def AccKind.writes : AccKind → Bool
  | .load => false
  | .pref => false
  | .store => true
  | .atom => true
  | .atomc => true
  | .red => true
  | .atoms => true

/-- Whether the access writes a destination at return. -/
def AccKind.returns : AccKind → Bool
  | .load => true
  | .atom => true
  | .atomc => true
  | .store => false
  | .red => false
  | .atoms => false
  | .pref => false

/-! ## Accesses -/

def accOf (s : State) (id : Nat) : Option Access := s.eng.accs.find? (·.id == id)
def putAcc (a : Access) (s : State) : State :=
  { s with eng := { s.eng with accs := s.eng.accs.map fun x => if x.id = a.id then a else x } }
def dropAcc (id : Nat) (s : State) : State := { s with eng := { s.eng with accs := s.eng.accs.filter (·.id != id) } }

/-- The grain of a lane. -/
def LaneAcc.grain (l : LaneAcc) : Nat := l.pa / l.gsz * l.gsz

def waitingLanes (a : Access) : List LaneAcc := a.lanes.filter (·.st == .waiting)
def grainsOf (a : Access) : List (Nat × Nat) := ((waitingLanes a).map fun l => (l.grain, l.gsz)).eraseDups
def lanesIn (a : Access) (grain gsz : Nat) : List LaneAcc := (waitingLanes a).filter fun l => l.grain == grain && l.gsz == gsz

/-- Set the lanes of a grain that still wait. -/
def setLanes (grain gsz : Nat) (f : LaneAcc → LaneAcc) (a : Access) : Access :=
  { a with lanes := mapIf (fun l => l.st == .waiting && l.grain == grain && l.gsz == gsz) f a.lanes }

/-! ## The store queue (R255, R257) -/

/-- What a load lane finds in the accesses of its core before it, the youngest first: the value of a store that covers it, an
access that it must wait for, or nothing. -/
inductive Fwd where
  | none | value (v : Nat) (id : Nat) | wait
  deriving DecidableEq, Repr

/-- The highest lane of a store that meets some bytes. -/
def lastLane (a : Access) (pa n : Nat) : Option LaneAcc :=
  (waitingLanes a).foldl (fun r l => if overlap l.pa (accBytes a.ty) pa n then some l else r) Option.none

def forward (g : GRef) (pa n : Nat) : List Access → Fwd
  | [] => .none
  | a :: r =>
    let w := accBytes a.ty
    match lastLane a pa n with
    | Option.none => forward g pa n r
    | some l =>
      if a.kind = .pref then forward g pa n r
      else if a.kind = .load then (if a.g.blk = g.blk ∧ a.g.gid = g.gid then .wait else forward g pa n r)
      else if (a.kind = .store ∨ a.kind = .atoms) ∧ l.pa ≤ pa ∧ pa + n ≤ l.pa + w
      then .value (l.b.toNat / 2 ^ (8 * (pa - l.pa)) % 2 ^ (8 * n)) a.id else .wait

/-- Whether a write lane must wait for an earlier access of its core to the same bytes. -/
def writeWaits (g : GRef) (pa n : Nat) (earlier : List Access) : Bool := earlier.any fun a =>
  (lastLane a pa n).isSome && (a.kind.writes || (a.kind == .load && a.g.blk == g.blk && a.g.gid == g.gid))

/-! ## The L1 (R101, R105) -/

def bounceOf (s : State) (agent pa : Nat) : Nat := ((s.coh.bounces.find? fun b => b.agent == agent && b.pa == pa).map (·.count)).getD 0

/-- A message of an agent about a grain. -/
def agentMsg (agent pa gsz ctx vf tag : Nat) (heat : Bool) : Msg :=
  { homeMsg pa gsz with req := agent, ctx := ctx, vf := vf, tag := tag, frm := agent, dst := 512, heat := heat }

/-- The request of a pending entry as it goes to the home. -/
def reqMsg (p : Pending) : Msg :=
  { agentMsg p.agent p.pa p.gsz p.ctx p.vf p.tag p.heat with data := p.upd.1, bmask := p.upd.2, keep := p.kind == .upd }
def reqEvent (p : Pending) : Instr := match p.kind with
  | .rds => .rds (reqMsg p)
  | .rdx => .rdx (reqMsg p)
  | .upg => .upg (reqMsg p)
  | .upd => .updateWrite (reqMsg p)

/-- Send a request, an RdX or Upg after the bounce delay of its grain (R105). -/
def request (agent pa gsz ctx vf : Nat) (heat : Bool) (k : ReqKind) (upd : List Byte × List Bool) (op : Nat) (s : State) : State :=
  let (tag, s) := fresh s
  let b := bounceOf s agent pa
  let delayed := (k == .rdx || k == .upg) && decide (0 < b)
  let p : Pending := ⟨agent, pa, gsz, ctx, vf, k, tag, delayed, heat, upd, op⟩
  let s := { s with coh := { s.coh with pends := s.coh.pends ++ [p] } }
  if delayed then postCycles (min (32 * 2 ^ (b - 1)) 1024) (.bounceDelayExpiry agent pa) s else post 0 (reqEvent p) s

/-- Count a bounce of a grain that an L1 loses from E or M within 1,024 cycles of acquiring it; the table holds 8 grains. The entry that goes
from a full table is that of the grain bounced longest ago (DESIGN CHOICE, log entry 104: R105 does not say which). -/
def countBounce (c : Copy) (s : State) : State :=
  if 160 ≤ c.agent ∨ (c.st ≠ .e ∧ c.st ≠ .m) ∨ 1024000 < s.mcyc - c.since then s else
  let n := bounceOf s c.agent c.pa + 1
  let rest := s.coh.bounces.filter fun b => !(b.agent == c.agent && b.pa == c.pa)
  let own := (rest.filter (·.agent == c.agent)).length
  let rest := if 8 ≤ own then rest.eraseP (·.agent == c.agent) else rest
  { s with coh := { s.coh with bounces := rest ++ [⟨c.agent, c.pa, n⟩] } }

/-! ## Performing the lanes of one grain -/

/-- Store the lanes of an access in the bytes of a grain, in ascending lane order, with the values they find. -/
def performLanes (a : Access) (grain : Nat) (data : List Byte) : List LaneAcc → List Byte × List LaneAcc
  | [] => (data, [])
  | l :: r =>
    let w := accBytes a.ty
    let old := ofBytes (slice 0 data (l.pa - grain) w)
    let new := newValue a.kind a.ty a.aop old (l.b.toNat % 2 ^ a.ty.width) (l.c.toNat % 2 ^ a.ty.width)
    let data := if a.kind.writes then splice data (l.pa - grain) (toBytes w new) else data
    let t := performLanes a grain data r
    (t.1, { l with st := .performed, val := BitVec.ofNat 64 old } :: t.2)

/-- Put performed lanes back into an access. -/
def mergeLanes (ls : List LaneAcc) (a : Access) : Access :=
  { a with lanes := a.lanes.map fun l => (ls.find? (·.lane == l.lane)).getD l }

/-- The bytes of a store in one grain with their mask. -/
def storeBytes (a : Access) (grain gsz : Nat) : List Byte × List Bool :=
  let ls := lanesIn a grain gsz
  let data := (performLanes a grain (List.replicate gsz 0) ls).1
  let w := accBytes a.ty
  (data, (List.range gsz).map fun i => ls.any fun l => decide (l.pa ≤ grain + i) && decide (grain + i < l.pa + w))

/-- Whether a request of an L1 is pending in the 512-byte sector group of a grain for another context or grain size: the tag of the group has one
of each (R86), so that the L1 asks for nothing else there meanwhile. -/
def tagBusy (s : State) (core grain gsz ctx : Nat) : Bool :=
  decide (core < 160) && s.coh.pends.any fun p => p.agent == core && p.pa / 512 == grain / 512 && (p.ctx != ctx || p.gsz != gsz)

/-- Whether the L1 asks for nothing of a grain for a context now: a request is pending on it or in its sector group, it lies in the write-back buffer,
or an uncached access of the core to it is not done. -/
def busyGrain (s : State) (core grain gsz ctx : Nat) : Bool :=
  (pendOf s core grain gsz).isSome || (wbufOf s core grain gsz).isSome || uncachedBy s core grain gsz || tagBusy s core grain gsz ctx

/-- Perform the lanes of a grain whose load values the queue gives, or that a copy allows. -/
def loadGrain (a : Access) (grain gsz : Nat) (earlier : List Access) (s : State) : State :=
  let w := accBytes a.ty
  let ls := lanesIn a grain gsz
  let fs := ls.map fun l => (l, forward a.g l.pa w earlier)
  if fs.any (·.2 == .wait) then s else
  let done := fun (data : List Byte) =>
    let out := fs.map fun (l, f) => match f with
      | .value v _ => { l with st := LDone.performed, val := BitVec.ofNat 64 v }
      | _ => { l with st := .performed, val := BitVec.ofNat 64 (ofBytes (slice 0 data (l.pa - grain) w)) }
    let ids := fs.filterMap fun (_, f) => match f with
      | .value _ id => some id
      | _ => none
    modGrp a.g (fun g => { g with seen := g.seen ++ ids }) (putAcc (mergeLanes out a) s)
  if fs.all fun p => p.2 != .none then done [] else
  match copyOf s a.core grain gsz with
  | some c =>
    if c.pa = grain ∧ c.gsz = gsz ∧ c.ctx = a.ctx then (if c.staged.isEmpty then done c.data else s)
    else if busyGrain s a.core grain gsz a.ctx then s
    else if c.ctx ≠ a.ctx then
      let s := evictCopy c s
      if (wbufOf s a.core grain gsz).isSome then s
      else request a.core grain gsz a.ctx a.vf (ls.any (·.heat)) .rds ([], []) a.id s
    else request a.core grain gsz a.ctx a.vf (ls.any (·.heat)) .rds ([], []) a.id s
  | none =>
    if busyGrain s a.core grain gsz a.ctx then s
    else request a.core grain gsz a.ctx a.vf (ls.any (·.heat)) .rds ([], []) a.id s

/-- Perform the lanes of a grain of a store or an atomic in E or M, or send the request that R101 gives. -/
def writeGrain (a : Access) (grain gsz : Nat) (earlier : List Access) (s : State) : State :=
  let w := accBytes a.ty
  let ls := lanesIn a grain gsz
  if ls.any fun l => writeWaits a.g l.pa w earlier then s else
  let busyHere := busyGrain s a.core grain gsz a.ctx
  let ask := fun k upd s => request a.core grain gsz a.ctx a.vf (ls.any (·.heat)) k upd a.id s
  match copyOf s a.core grain gsz with
  | some c =>
    if c.pa = grain ∧ c.gsz = gsz ∧ c.ctx = a.ctx then
      if c.st = .e ∨ c.st = .m then
        let (data, out) := performLanes a grain c.data ls
        putAcc (mergeLanes out a) (setCopy { c with st := .m, data := data } s)
      else if busyHere then s
      else if c.st = .t then ask .rdx ([], []) s
      else if c.st = .o ∧ c.mode = .pc ∧ a.kind = .store then ask .upd (storeBytes a grain gsz) s
      else ask .upg ([], []) s
    else if busyHere then s
    else if c.ctx ≠ a.ctx then
      let s := evictCopy c s
      if (wbufOf s a.core grain gsz).isSome then s else ask .rdx ([], []) s
    else ask .rdx ([], []) s
  | none => if busyHere then s else ask .rdx ([], []) s

/-- Send the uncached write of a grain of atoms (R398), once. -/
def atomsGrain (a : Access) (grain gsz : Nat) (earlier : List Access) (s : State) : State :=
  let ls := lanesIn a grain gsz
  if a.tags.any (·.2 == grain) || ls.any fun l => writeWaits a.g l.pa (accBytes a.ty) earlier then s else
  match giveUp a.core grain gsz true s with
  | (false, s) => s
  | (true, s) =>
  let (tag, s) := fresh s
  let b := storeBytes a grain gsz
  post 0 (.uncachedWrite { agentMsg a.core grain gsz a.ctx a.vf tag (ls.any (·.heat)) with data := b.1, bmask := b.2 })
    (putAcc { a with tags := a.tags ++ [(tag, grain)] } s)

/-- A prefetch asks for the grain when the L1 lacks it, and is done when the L1 has it or has asked. A copy under another CTXID is given up and the
grain asked for anew, as for a load (R87). -/
def prefGrain (a : Access) (grain gsz : Nat) (s : State) : State :=
  let here := fun s => putAcc (setLanes grain gsz (fun l => { l with st := .performed }) a) s
  let ask := fun s => if (wbufOf s a.core grain gsz).isSome then s
    else here (request a.core grain gsz a.ctx a.vf ((lanesIn a grain gsz).any (·.heat)) .rds ([], []) a.id s)
  match copyOf s a.core grain gsz with
  | some c =>
    if c.pa = grain ∧ c.gsz = gsz ∧ c.ctx = a.ctx then here s
    else if busyGrain s a.core grain gsz a.ctx then s
    else ask (if c.ctx ≠ a.ctx then evictCopy c s else s)
  | none =>
    if (pendOf s a.core grain gsz).any fun p => p.ctx == a.ctx && p.pa == grain && p.gsz == gsz then here s
    else if busyGrain s a.core grain gsz a.ctx then s else ask s

/-- Try one grain of an access. -/
def tryGrain (id grain gsz : Nat) (s : State) : State := match accOf s id with
  | none => s
  | some a =>
    if (lanesIn a grain gsz).isEmpty then s else
    let earlier := ((s.eng.accs.takeWhile (·.id != id)).filter fun e => e.core == a.core && e.level == .g).reverse
    match a.kind with
    | .load => loadGrain a grain gsz earlier s
    | .pref => prefGrain a grain gsz s
    | .atoms => atomsGrain a grain gsz earlier s
    | _ => writeGrain a grain gsz earlier s

/-! ## Completion -/

/-- The trap that a Nak gives (R135, R162, R165): of the lane or element at `va`, with the lanes performed. -/
def nakTrap (m : Msg) (va : W64) (doneL : Mask) (pa lane kind : Nat) (applied core : Bool) (named : Option (W64 × Mask × Bool × W64)) : Trap :=
  if m.reason = 2 then
    ⟨.labelFalse, BitVec.ofNat 256 (va.toNat * 2 ^ 192 + doneL.toNat * 2 ^ 128 + (pa % 2 ^ 52) * 2 ^ 76 + lane * 2 ^ 70 +
      (m.lbyte % 8) * 2 ^ 67 + 2 ^ 66 + (m.lbyte / 16 % 2) * 2 ^ 65 + kind * 2 ^ 62 + (m.req % 512) * 2 ^ 53 +
      (m.aag % 512) * 2 ^ 44 + (m.actx % 2 ^ 16) * 2 ^ 28), core, named⟩
  else ⟨.dataUe, accessWords va doneL pa lane 0 applied kind m.reason, false, named⟩

/-- KIND of R135. -/
def AccKind.num : AccKind → Nat
  | .load => 0
  | .pref => 0
  | .store => 1
  | .atom => 2
  | .atomc => 2
  | .red => 2
  | .atoms => 2

/-- The lowest-numbered of some failed lanes, with the Nak that it met. -/
def lowestFailed : List (Nat × Msg) → Option (Nat × Msg)
  | [] => none
  | p :: r => match lowestFailed r with
    | none => some p
    | some q => if q.1 < p.1 then some q else some p

/-- The trap of an access some of whose lanes were refused or met an error, if one did: a refusal, at which tret issues the instruction again, goes
before an error of other lanes (R133, R165; DEDUCED, log entry 131). -/
def accTrap (a : Access) : Option Trap :=
  let each := fun (ns : List (List Nat × Msg)) => ns.flatMap fun n => n.1.map fun l => (l, n.2)
  let refused := each (a.naks.filter fun n => n.2.reason == 2)
  (lowestFailed (if refused.isEmpty then each a.naks else refused)).map fun (n, m) =>
    let l := (a.lanes.find? (·.lane == n)).getD ⟨n, 0, 0, 128, false, 0, 0, .dropped, 0⟩
    nakTrap m l.ea (maskOf fun n => a.lanes.any fun x => x.lane == n && x.st == .performed) l.pa l.lane a.kind.num false true
      (some (if m.reason = 2 ∧ a.chained then a.chainPc else a.pc, a.mask, a.chained, a.pc))

/-- The trap of an access becomes due. -/
def accDue (a : Access) (s : State) : State := match accTrap a with
  | some t => dueTrap a.g a.ctx a.vf a.core t s
  | none => s

/-- An access of which no lane waits any more: a load or returning atomic returns (R393); the others complete. -/
def settleAcc (id : Nat) (s : State) : State := match accOf s id with
  | none => s
  | some a =>
    if a.returned || a.lanes.any (fun l => l.st == .waiting || l.st == .held) then s
    else if a.kind.returns then post 0 (.accessReturn id) (putAcc { a with returned := true } s)
    else
      let s := dropAcc id s
      if a.kind = .pref then s else opDone a.g id (accDue a s)

/-- Try every waiting grain of a core's accesses in issue order, and complete those that are done. -/
def progress (core : Nat) (s : State) : State :=
  let ids := (s.eng.accs.filter fun a => a.core == core && a.level == .g && !a.returned).map (·.id)
  ids.foldl (fun s id => match accOf s id with
    | some a => settleAcc id ((grainsOf a).foldl (fun s g => tryGrain id g.1 g.2 s) s)
    | none => s) s

/-- A Nak for a grain reaches the core (R133, R165): a label refusal gives up every lane not yet performed, another error the
lanes of that grain; a refused prefetch is dropped. -/
def nakAcc (id : Nat) (m : Msg) (s : State) : State := match accOf s id with
  | none => s
  | some a =>
    let flying := fun l : LaneAcc => (a.tags.any fun t => t.2 == l.grain && t.1 != m.tag) ||
      s.coh.pends.any fun p => p.op == id && p.kind == .upd && p.pa == l.grain
    let open_ := fun l : LaneAcc => l.st == .waiting || l.st == .held
    let a := { a with
      naks := a.naks ++ [((a.lanes.filter fun l => open_ l && l.grain == m.pa).map (·.lane), m)]
      lanes := mapIf (fun l => open_ l && (l.grain == m.pa || (m.reason == 2 && !flying l))) (fun l => { l with st := .dropped }) a.lanes }
    settleAcc id (putAcc a s)

/-! ## Halts (R186, R187) -/

/-- Whether a waiting lane has been accepted: its L1 has sent the request that is for it, or it is served at a slab. What "accepted" means of an access
that waits in the L1 for another request is DESIGN CHOICE (log entry 24). -/
def accepted (s : State) (a : Access) (l : LaneAcc) : Bool := match a.level with
  | .g => (s.coh.pends.any fun p => p.op == a.id && overlap p.pa p.gsz l.pa 1) || a.tags.any (·.2 == l.grain)
  | .d => false
  | .c => true
  | .s => true

/-- At its halt the accesses of a block that are not yet accepted are recorded: none of them is performed while it is halted. -/
def holdAccs (blk : Nat) (s : State) : State := { s with eng := { s.eng with
  accs := mapIf (fun a => a.g.blk == blk && !a.returned) (fun a => { a with
    lanes := mapIf (fun l => l.st == .waiting && !accepted s a l) (fun l => { l with st := .held }) a.lanes }) s.eng.accs } }

/-- On its resumption they are issued again, in their order. -/
def reissueAccs (blk core : Nat) (s : State) : State :=
  let mine := s.eng.accs.filter fun a => a.g.blk == blk && a.lanes.any (·.st == .held)
  let s := { s with eng := { s.eng with
    accs := mapIf (·.g.blk == blk) (fun a => { a with lanes := mapIf (·.st == .held) (fun l => { l with st := LDone.waiting }) a.lanes }) s.eng.accs } }
  progress core (postAll ((mine.filter (·.level == .d)).flatMap fun a =>
    (((a.lanes.filter (·.st == .held)).map fun l => sliceOf l.pa).eraseDups).map fun n => .padSliceAccess a.id n) s)

/-! ## Slabs and pad slices (R66, R246, R393) -/

/-- Perform lanes of an access on a byte space given by a read and a write, in ascending lane order. -/
def performOn (a : Access) (rd : State → Nat → Nat → List Byte) (wr : Nat → List Byte → State → State) :
    List LaneAcc → State → List LaneAcc × State
  | [], s => ([], s)
  | l :: r, s =>
    let w := accBytes a.ty
    let old := ofBytes (rd s l.pa w)
    let s := if a.kind.writes then wr l.pa (toBytes w (newValue a.kind a.ty a.aop old l.b.toNat l.c.toNat)) s else s
    let t := performOn a rd wr r s
    ({ l with st := .performed, val := BitVec.ofNat 64 old } :: t.1, t.2)

/-- Reads and writes of the slab of a block. -/
def slabRd (blk : Nat) (s : State) (o n : Nat) : List Byte := match blkOf s blk with
  | some b => slabRead b o n
  | none => List.replicate n 0
def slabWr (blk : Nat) (o : Nat) (bs : List Byte) (s : State) : State := modBlk blk (slabWrite o bs) s

/-- The accesses of a core that it started before an access, the youngest first. -/
def before (a : Access) (s : State) : List Access := ((s.eng.accs.takeWhile (·.id != a.id)).filter fun e => e.core == a.core).reverse

/-- Whether an access of a group to some bytes of a slab must wait for a c-level access of the group before it (R257). -/
def slabWaits (g : GRef) (target pa n : Nat) (earlier : List Access) : Bool := earlier.any fun e =>
  e.g.blk == g.blk && e.g.gid == g.gid && e.level == .c && e.target == target && (lastLane e pa n).isSome

/-- CLUSTER_SLAB_ACCESS (R393): served whole at the slab of the named core's block of the set, in arrival order; an access waits for those of
its group before it to the same bytes (R257), and for the fill of absent granules (R193). -/
def execClusterSlabAccess (op : Nat) (s : State) : Host.Outcome State Fault Refusal := match accOf s op with
  | none => .next s
  | some a =>
    if (waitingLanes a).any fun l => slabWaits a.g a.target l.pa (accBytes a.ty) (before a s) then .next (post 1 (.clusterSlabAccess op) s)
    else match (waitingLanes a).findSome? fun l => slabGap s a.target l.pa (accBytes a.ty) with
    | some g => .next (post 1 (.clusterSlabAccess op) (askFill a.target g s))
    | none =>
    let t := performOn a (slabRd a.target) (slabWr a.target) (waitingLanes a) s
    .next (settleAcc op (putAcc (mergeLanes t.1 a) t.2))

/-- The lanes of a pad access that fall in one slice, served as one transaction (R66) unless they must wait: a load lane takes the bytes of the
youngest store of its core that covers it (R255), and an access waits for an earlier one to the same bytes (R257). -/
def padAccess (a : Access) (slice : Nat) (s : State) : State :=
  let w := accBytes a.ty
  let ls := (waitingLanes a).filter fun l => sliceOf l.pa == slice
  let earlier := (before a s).filter (·.level == .d)
  let fs := ls.map fun l => (l, forward a.g l.pa w earlier)
  let later := post 1 (.padSliceAccess a.id slice) s
  if a.kind.writes then
    if ls.any fun l => writeWaits a.g l.pa w earlier then later else
    let t := performOn a memRead memWrite ls s
    settleAcc a.id (putAcc (mergeLanes t.1 a) t.2)
  else
    if fs.any (·.2 == .wait) then later else
    let out := fs.map fun (l, f) => match f with
      | .value v _ => { l with st := LDone.performed, val := BitVec.ofNat 64 v }
      | _ => { l with st := .performed, val := BitVec.ofNat 64 (ofBytes (memRead s l.pa w)) }
    let ids := fs.filterMap fun (_, f) => match f with
      | .value _ id => some id
      | _ => none
    settleAcc a.id (modGrp a.g (fun g => { g with seen := g.seen ++ ids }) (putAcc (mergeLanes out a) s))

/-- The vector registers that a value of a type takes at a destination, if it has one. -/
def dstRegs (t : Ty) : Option Nat → List Nat
  | some n => if t.pair then [n, n + 1] else [n]
  | none => []

/-- ACCESS_RETURN (R242, R393): the performed lanes are written, once the granule of their registers is there (R193), the counter falls in order,
waits on it end, and a refusal's trap becomes due. -/
def execAccessReturn (op : Nat) (s : State) : Host.Outcome State Fault Refusal := match accOf s op with
  | none => .next s
  | some a => match regGap s a.g (dstRegs a.ty a.dst) with
    | some g => .next (post 1 (.accessReturn op) (askFill a.g.blk g s))
    | none =>
    let s := dropAcc op s
    let got := a.lanes.filter (·.st == .performed)
    let s := match a.dst with
      | some d => landGrp a.g (fun g => got.foldl (fun g l =>
          if a.ty.pair then pset d l.lane l.val.toNat g else vset d l.lane (BitVec.ofNat 32 (loadVal a.ty l.val.toNat)) g) g) s
      | none => s
    let s := opDone a.g op (accDue a s)
    .next (wakeGrp a.g (fun w => w == .access op) s)

end Sys2Proof.Machine
end

