-- ==== Sys2Proof/Machine/Barrier.lean ====
section
/-! DEFINITION. MAJ 0x02: barriers (R341 to R345). -/

namespace Sys2Proof.Machine

open Sys2Proof

def countOf (x : Iss) (c : Option Nat) : Nat := match c with
  | none => 0
  | some k => (kget x.grp k).toNat

/-- The block barrier after this group's arrival. -/
def barArrive (x : Iss) (n : Nat) (c : Option Nat) : Barrier :=
  arriveAt (x.lrec.gpb + 1) (exitedOf [x.blk]) (countOf x c) (x.g.blk, x.g.gid) (barrierOf x.blk n)

def execBar (n : Nat) (cnt : Option Nat) (s : State) : Host.Outcome State Fault Refusal :=
  issue (sigBar n cnt) noPre (fun x s =>
    if !relReady x s then .stall else
    let old := (barrierOf x.blk n).phase
    let new := barArrive x n cnt
    let s := putBarrier x.g.blk n new s
    .next (if new.phase = old then waitAfter x (.bar n old.toNat) s else s)) s

def execArrive (nw : Bool) (kd n : Nat) (cnt : Option Nat) (s : State) : Host.Outcome State Fault Refusal :=
  issue (sigArrive nw kd n cnt) noPre (fun x s =>
    if !relReady x s then .stall else
    .next (writeK nw kd (barrierOf x.blk n).phase x (putBarrier x.g.blk n (barArrive x n cnt) s))) s

def execAwait (n kp : Nat) (s : State) : Host.Outcome State Fault Refusal :=
  issue (sigAwait n kp) noPre (fun x s =>
    if (kget x.grp kp).toNat < (barrierOf x.blk n).phase.toNat then .next s
    else .next (waitAfter x (.bar n (kget x.grp kp).toNat) s)) s

/-- The block of the group's set on a core, the group's own block without CLM (R345). -/
def holderOf (x : Iss) (core : Nat) (s : State) : Option Block :=
  if x.lrec.clm then (setBlocks s x.blk).find? (·.core == core)
  else if core = x.core then some x.blk else none

def execCbar (n : Nat) (cnt : Option Nat) (rank file : Nat) (s : State) : Host.Outcome State Fault Refusal :=
  issue (sigCbar n cnt rank file) noPre (fun x s =>
    match holderOf x (rank * 16 + file) s with
    | none => .trap (accessTrap .prot 0 0 0 0 0) s
    | some b =>
      if !relReady x s then .stall else
      let br := cbarrierOf b n
      let new := arriveAt (clusterAll s x.blk x.lrec) (exitedOf (setBlocks s x.blk)) (countOf x cnt) (x.g.blk, x.g.gid) br
      let s := putCbarrier b.id n new s
      .next (if new.phase = br.phase then waitAfter x (.cbar b.id n br.phase.toNat) s else s)) s

end Sys2Proof.Machine
end

