-- ==== Sys2Proof/Machine/Ubyozo.lean ====
section
/-! DEFINITION. The Ubyozo ports (R23 to R29): the layout of a flit, the sender's side with its credits and its retry buffer, and the messages
that the device sends to span peers. -/

namespace Sys2Proof.Machine

open Sys2Proof

def portOf (s : State) (n : Nat) : UPort := s.pkg.ports.getD n UPort.reset
def modPort (n : Nat) (f : UPort → UPort) (s : State) : State :=
  { s with pkg := { s.pkg with ports := s.pkg.ports.set n (f (s.pkg.ports.getD n UPort.reset)) } }

/-! ## The layout of a flit (R24) -/

/-- A message slot. -/
def slotBytes : Nat := 48

/-- CLS, ACKD, SEQ and the payload: bytes 243:0. -/
def flitBody (cls credit ackd : Nat) (seq : BitVec 16) (slots : List (List Byte)) : List Byte :=
  let pay := slots.flatten
  toBytes 1 (cls % 8 * 32 + credit % 32) ++ toBytes 1 ackd ++ toBytes 2 seq.toNat ++ pay ++ List.replicate (240 - pay.length) 0

/-- A flit: its body, the CRC over it, then eight bytes of error correction (the order within CHK is DEDUCED, log entry 108). -/
def flitImage (body : List Byte) : List Byte :=
  body ++ toBytes 4 (Config.flitCrc body).toNat ++ (List.range 8).map (Config.flitFec body)

def flitClass (b : List Byte) : Nat := (b.headD 0).toNat / 32
def flitCredit (b : List Byte) : Nat := (b.headD 0).toNat % 32
def flitAckd (b : List Byte) : Nat := (b.getD 1 0).toNat
def flitSeq (b : List Byte) : Nat := ofBytes (slice 0 b 2 2)
def flitSlots (b : List Byte) : List (List Byte) := (List.range 5).map fun i => slice 0 b (4 + slotBytes * i) slotBytes
def flitCrcOk (b : List Byte) : Bool := ofBytes (slice 0 b 244 4) == (Config.flitCrc (b.take 244)).toNat

/-! ## Sending (R25, R26) -/

/-- One flit of a class, with up to five of the slots that wait: it takes a credit of its class, acknowledges what has been received, returns the
credits of its class, and stays in the retry buffer until it is acknowledged. -/
def sendFlit (cls : Nat) (p : UPort) : UPort :=
  let mine := (p.waiting.filter fun w => w.2.1 == cls).take 5
  let body := flitBody cls (min 31 (p.toCredit.getD cls 0)) (min 255 p.toAck) p.txSeq (mine.map (·.2.2))
  let image := flitImage body
  { p with
    txSeq := p.txSeq + 1, retry := p.retry ++ [(image, mine)], wire := p.wire ++ [image], toAck := p.toAck - min 255 p.toAck,
    toCredit := p.toCredit.set cls (p.toCredit.getD cls 0 - min 31 (p.toCredit.getD cls 0)),
    credits := p.credits.set cls (p.credits.getD cls 0 - 1),
    waiting := mine.foldl (fun l w => l.erase w) p.waiting }

/-- Send the flits of a class for which there is a credit. -/
def pumpClass (cls : Nat) : Nat → UPort → UPort
  | 0, p => p
  | n + 1, p => if p.credits.getD cls 0 = 0 ∨ p.waiting.all fun w => w.2.1 != cls then p else pumpClass cls n (sendFlit cls p)

/-- Send what can be sent: no class waits for another (R25). -/
def pump (p : UPort) : UPort := if !p.up then p else (List.range 6).foldl (fun p c => pumpClass c p.waiting.length p) p

/-- The sender sends the flits of its retry buffer again, from the lowest unacknowledged sequence number (R26). -/
def resend (p : UPort) : UPort := { p with wire := p.wire ++ p.retry.map (·.1) }

/-- The peer asks for a replay (R26): what the sender sends again counts as replayed (R29; DESIGN CHOICE, log entry 115). -/
def replayFlits (p : UPort) : UPort :=
  { resend p with tries := p.tries + 1, replay := min 65535 (p.replay + p.retry.length) }

/-- Give a slot to the port of the route to a span device; without a route it goes nowhere. -/
def sendSlot (d cls : Nat) (slot : List Byte) (s : State) : State := match routeTo s d with
  | none => s
  | some n => modPort n (fun p => pump { p with waiting := p.waiting ++ [(d, cls, slot)] }) s

/-- Send a message of a class to a span device, in one slot: its format is not given, so its bytes are free. -/
def sendPeer (d cls : Nat) (s : State) : State :=
  sendSlot d cls ((List.range slotBytes).map (Config.msgByte s.free)) { s with free := s.free + 1 }

/-- The agents that are span peers (R89). -/
def isPeer (a : Nat) : Bool := 162 ≤ a && a < 178

/-- A message of a class that the home or an L1 sends to a peer goes on the wire (R25, R95); what the peer does then is in the event itself. -/
def toPeer (cls : Nat) (m : Msg) (s : State) : State := if isPeer m.dst then sendPeer (m.dst - 162) cls s else s

/-- A flit with its header, sequence number and class, and some of its slots. -/
def flitWith (image : List Byte) (slots : List (List Byte)) : List Byte :=
  flitImage (image.take 4 ++ slots.flatten ++ List.replicate (240 - slots.flatten.length) 0)

/-- The traffic of a port which has gone down moves to the remaining routes of its peers (R28): the messages that wait, of which one without a route
goes nowhere, and those of flits that have not been acknowledged, which keep their sequence numbers and what has no other route. Messages of the
link itself stay. -/
def moveTraffic (n : Nat) (s : State) : State :=
  let p := portOf s n
  let stays := fun m : Nat × Nat × List Byte => decide (16 ≤ m.1)
  let kept := fun m : Nat × Nat × List Byte => stays m || (routeTo s m.1).isNone
  let moved := (p.retry.flatMap (·.2)).filter (fun m => !kept m) ++ p.waiting.filter fun m => !stays m
  let s := modPort n (fun p => { p with
    waiting := p.waiting.filter stays
    retry := p.retry.map fun f => if f.2.all kept then f else (flitWith f.1 ((f.2.filter kept).map (·.2.2)), f.2.filter kept) }) s
  moved.foldl (fun s m => sendSlot m.1 m.2.1 m.2.2 s) s

end Sys2Proof.Machine
end

