-- ==== Sys2Proof/Machine/L1.lean ====
section
/-! DEFINITION. The cache side of the protocol (R101, R103, R105, R108, R124, R125): snoops, grants, evictions and back-off, for the
L1s and for the agents beyond them that hold copies. -/

namespace Sys2Proof.Machine

open Sys2Proof

/-! ## Answers -/

/-- What every message about the grain of `m` carries (R95). -/
def bareMsg (m : Msg) : Msg :=
  { homeMsg m.pa m.gsz with req := m.req, ctx := m.ctx, vf := m.vf, tag := m.tag, frm := m.dst, dst := 512 }

/-- A snoop arrives: a peer's goes on the wire, which the access of a context of this device has reached (R17). -/
def snooped (m : Msg) (s : State) : State := toPeer 1 m (if isPeer m.dst && !isPeer m.req then setTdm m.ctx 16 s else s)

/-- A snooped agent's Ack (R96). -/
def snoopAck (m : Msg) (dirty wb : Bool) (s : State) : State :=
  post 0 (.ack { bareMsg m with dirty := dirty, wb := wb }) s

/-- A snooped agent's Cfl, naming its pending request; 0 names none (R100). -/
def snoopCfl (m : Msg) (dirty : Bool) (pend : Nat) (s : State) : State :=
  post 0 (.cfl { bareMsg m with dirty := dirty, pend := pend }) s

/-- Data from an owner or a write-back buffer to the requester. -/
def giveData (m : Msg) (g : Grant) (data : List Byte) (s : State) : State :=
  post 0 (.data { bareMsg m with dst := m.req, grant := g, mode := m.mode, data := data, heat := m.heat, off := m.off }) s

/-- After a copy has gone: waiting loads of the core ask anew. -/
def retry (agent : Nat) (s : State) : State := if agent < 160 then progress agent s else s

/-- A copy goes because of a snoop. -/
def loseCopy (c : Copy) (s : State) : State :=
  let s := countBounce c s
  let s := if c.agent = 178 then queueWake c.pa c.gsz s else s
  dropCopy c.agent c.pa c.gsz s

/-! ## Snoops -/

/-- A snoop that was on its way to a span peer when the last route to it went (R28): the request that it serves completes with Nak(1) (R97), while a
recall, and what the device or a host port asks for, goes on as if the peer held nothing. -/
def cutSnoop (m : Msg) (s : State) : Option State :=
  if !isPeer m.dst || (routeTo s (m.dst - 162)).isSome then none else
  match txnOn s m.pa m.gsz with
  | some t =>
    if t.kind = .recall ∨ t.kind = .update ∨ t.req.kind.isDevice ∨ t.req.kind = .hostSnoop then some (snoopAck m false false s)
    else some (drain (sendNak t.req.msg 1 none (dropTxn t.pa s)))
  | none => some (snoopAck m false false s)

/-- A snoop that reaches its agent. -/
def snoopWith (m : Msg) (f : State → Host.Outcome State Fault Refusal) (s : State) : Host.Outcome State Fault Refusal :=
  match cutSnoop m s with
  | some s => .next s
  | none => f (snooped m s)

/-- FWDS (R101, R124). -/
def execFwds (m : Msg) (s : State) : Host.Outcome State Fault Refusal := snoopWith m (fun s =>
  match copyOf s m.dst m.pa m.gsz with
  | some c =>
    if !c.st.owns then .next (snoopAck m false false s) else
    let s := giveData m .s c.data s
    let keep := fun s => if m.mode = .pc ∧ c.st.dirty then
        post 0 (.wbd { agentMsg m.dst m.pa m.gsz c.ctx c.vf 0 c.heat with
          keep := true, data := c.data, bmask := List.replicate m.gsz true }) s else s
    if c.st = .e then .next (snoopAck m false false (setCopy { c with st := .s, mode := m.mode } s))
    else if c.st = .o ∧ (pendOf s m.dst m.pa m.gsz).isSome then
      .next (snoopCfl m true 0 (keep (setCopy { c with mode := m.mode } s)))
    else .next (snoopAck m true false (keep (setCopy { c with st := .o, mode := m.mode } s)))
  | none => match wbufOf s m.dst m.pa m.gsz with
    | some w => .next (snoopAck m w.dirty true (giveData m .s w.data s))
    | none => .next (snoopAck m false false s)) s

/-- FWDX (R101). -/
def execFwdx (m : Msg) (s : State) : Host.Outcome State Fault Refusal := snoopWith m (fun s =>
  let p := pendOf s m.dst m.pa m.gsz
  match copyOf s m.dst m.pa m.gsz with
  | some c =>
    if !c.st.owns then .next (snoopAck m false false s) else
    let s := loseCopy c (giveData m (if c.st = .e then .e else .m) c.data s)
    .next (retry m.dst (match p with
      | some p => snoopCfl m c.st.dirty p.tag s
      | none => snoopAck m c.st.dirty false s))
  | none => match wbufOf s m.dst m.pa m.gsz with
    | some w => .next (snoopAck m w.dirty true (giveData m (if w.dirty then .m else .e) w.data s))
    | none => match p with
      | some p => .next (snoopCfl m false p.tag s)
      | none => .next (snoopAck m false false s)) s

/-- INV (R101). -/
def execInv (m : Msg) (s : State) : Host.Outcome State Fault Refusal := snoopWith m (fun s =>
  let p := pendOf s m.dst m.pa m.gsz
  let c := copyOf s m.dst m.pa m.gsz
  let dirty := c.any (·.st.dirty)
  let s := match c with
    | some c => loseCopy c s
    | none => s
  .next (retry m.dst (match p with
    | some p => snoopCfl m dirty p.tag s
    | none => snoopAck m dirty (c.isNone && (wbufOf s m.dst m.pa m.gsz).isSome) s))) s

/-- UPD (R125): a subscriber stages the bytes behind those that it has staged and not yet exposed; DIRTY reports that it held a copy. -/
def execUpd (m : Msg) (s : State) : Host.Outcome State Fault Refusal := snoopWith m (fun s =>
  match copyOf s m.dst m.pa m.gsz with
  | some c => .next (snoopAck m true false (setCopy { c with staged := c.staged ++ [(m.tag, m.data, m.bmask)] } s))
  | none => .next (snoopAck m false (wbufOf s m.dst m.pa m.gsz).isSome s)) s

/-- BINV (R101, R127): the holder drops its copy and answers Ack or, if it is dirty, WbD; with REGION = 1 it drops every T copy in the region. The
home knows a request that the agent has pending on the grain to be stale from then on, as after an Inv (R100; DESIGN CHOICE, log entry
105). -/
def execBinv (m : Msg) (s : State) : Host.Outcome State Fault Refusal := snoopWith m (fun s =>
  if m.region then
    let s := { s with coh := { s.coh with
      l1 := s.coh.l1.filter fun c => !(c.agent == m.dst && c.st == .t && c.pa / 4096 == m.pa / 4096) } }
    .next (retry m.dst (snoopAck m false false s))
  else
    let tag := ((pendOf s m.dst m.pa m.gsz).map (·.tag)).getD 0
    match copyOf s m.dst m.pa m.gsz with
    | some c =>
      let s := loseCopy c s
      let s := if tag ≠ 0 then { s with coh := { s.coh with stale := s.coh.stale ++ [(m.dst, tag)] } } else s
      let w := { agentMsg m.dst c.pa c.gsz c.ctx c.vf m.tag c.heat with req := m.req, data := c.data }
      .next (retry m.dst (if c.st.dirty then post 0 (.wbd w) s else snoopAck m false false s))
    | none =>
      if (wbufOf s m.dst m.pa m.gsz).isSome then .next (snoopAck m false true s)
      else if tag ≠ 0 then .next (snoopCfl m false tag s) else .next (snoopAck m false false s)) s

/-- A copy with the staged bytes of the updates up to and with that of a tag exposed; of every one where an exclusive grant finds them, which follows
their commits at the home. -/
def expose (tag : Option Nat) (c : Copy) : Copy :=
  let n := match tag with
    | some t => if c.staged.any (·.1 == t) then (c.staged.findIdx (·.1 == t)) + 1 else 0
    | none => c.staged.length
  { c with
    data := (c.staged.take n).foldl (fun d u => (d.zip (u.2.1.zip u.2.2)).map fun (o, x, b) => if b then x else o) c.data
    staged := c.staged.drop n }

/-- COMMIT_ACK (R125): the staged bytes are exposed, and loads that stalled on them go on. -/
def execCommitAck (m : Msg) (s : State) : Host.Outcome State Fault Refusal :=
  let s := toPeer 2 m s
  match copyOf s m.dst m.pa m.gsz with
  | some c => if c.staged.isEmpty then .next s else .next (retry m.dst (setCopy (expose (some m.tag) c) s))
  | none => .next s

/-! ## Write-backs, evictions and back-off -/

def dropPend (agent tag : Nat) (s : State) : State :=
  { s with coh := { s.coh with pends := s.coh.pends.filter fun p => !(p.agent == agent && p.tag == tag) } }

/-- End the cflush waits of a core whose write-back buffer holds none of their grains any more (R396). -/
def wakeFlush (core : Nat) (s : State) : State :=
  wakeWhere (fun b => b.core == core) (fun w => match w with
    | .cflush gs => gs.all fun g => !(s.coh.wbufs.any fun b => b.agent == core && b.pa == g)
    | _ => false) s

/-- WBACK (R101, R125): the grain leaves the write-back buffer; for an update write the store is performed. -/
def execWback (m : Msg) (s : State) : Host.Outcome State Fault Refusal :=
  let s := toPeer 2 m s
  match s.coh.pends.find? fun p => p.agent == m.dst && p.tag == m.tag && p.kind == .upd with
  | some p =>
    let s := dropPend m.dst m.tag s
    let s := match accOf s p.op with
      | some a => putAcc (setLanes p.pa p.gsz (fun l => { l with st := .performed }) a) s
      | none => s
    .next (progress m.dst s)
  | none =>
    let s := { s with coh := { s.coh with wbufs := s.coh.wbufs.filter fun w => !(w.agent == m.dst && w.pa == m.pa) } }
    .next (retry m.dst (wakeFlush m.dst s))

/-- L1_EVICT (R101): a grain on which a request is pending is never evicted. -/
def execL1Evict (agent grain : Nat) (s : State) : Host.Outcome State Fault Refusal :=
  match s.coh.l1.find? fun c => c.agent == agent && c.pa == grain with
  | some c => if (pendOf s agent c.pa c.gsz).isSome then .next s else .next (retry agent (evictCopy c s))
  | none => .next s

/-- BOUNCE_DELAY_EXPIRY (R105): the delayed request is sent. -/
def execBounceDelayExpiry (agent grain : Nat) (s : State) : Host.Outcome State Fault Refusal :=
  match s.coh.pends.find? fun p => p.agent == agent && p.pa == grain && p.delayed with
  | some p => .next (post 0 (reqEvent p) { s with coh := { s.coh with
      pends := mapIf (fun q => q.agent == agent && q.tag == p.tag) (fun q => { q with delayed := false }) s.coh.pends } })
  | none => .next s

/-- BOUNCE_RESET (R105): a grain kept exclusive for 1,024 cycles has its count back at 0. -/
def execBounceReset (agent grain : Nat) (s : State) : Host.Outcome State Fault Refusal :=
  if s.coh.l1.any fun c => c.agent == agent && c.pa == grain && (c.st == .e || c.st == .m) && cyclesPast s 1024 c.since then
    .next { s with coh := { s.coh with bounces := s.coh.bounces.filter fun b => !(b.agent == agent && b.pa == grain) } }
  else .next s

/-! ## Grants (R99, R103) -/

def grantSt : Grant → LSt
  | .s => .s
  | .e => .e
  | .m => .m
  | .t => .t

/-- The requester's completion Ack. -/
def completionAck (m : Msg) (s : State) : State :=
  post 0 (.ack (bareMsg m)) s

/-- After an exclusive grant of a grain with bounces counted, the check of R105 is due. -/
def watchBounce (agent pa : Nat) (s : State) : State :=
  if 0 < bounceOf s agent pa then postCycles 1024 (.bounceReset agent pa) s else s

/-- The bytes of the grains that an L1 holds. -/
def l1Used (agent : Nat) (s : State) : Nat := ((s.coh.l1.filter (·.agent == agent)).map (·.gsz)).sum

/-- After a grain has been installed an L1 gives up others until what it holds fits its 256 KiB (R2): which is the implementation's, but never one
on which a request is pending. -/
def fitL1 : Nat → Nat → Nat → State → State
  | 0, _, _, s => s
  | fuel + 1, agent, keep, s =>
    if 160 ≤ agent ∨ l1Used agent s ≤ Config.l1Bytes then s else
    let cs := s.coh.l1.filter fun c => c.agent == agent && c.pa != keep && c.staged.isEmpty && (pendOf s agent c.pa c.gsz).isNone
    match cs[Config.l1Victim s.free % cs.length]? with
    | some c => fitL1 fuel agent keep (evictCopy c { s with free := s.free + 1 })
    | none => s

/-- A sector group of 512 bytes has one tag with one CTXID and one GRAIN (R86): a grain that is installed drives out those of another context or
size in its group. None of them has a request pending, since that grain was asked for when none was (tagBusy). -/
def oneTag (c : Copy) (s : State) : State :=
  if 160 ≤ c.agent then s else
  (s.coh.l1.filter fun x => x.agent == c.agent && x.pa / 512 == c.pa / 512 && (x.ctx != c.ctx || x.gsz != c.gsz)).foldl (fun s x => evictCopy x s) s

/-- The agents of the host ports (R89). -/
def isHost (a : Nat) : Bool := a == 160 || a == 161

/-- Data for a caching agent: the grain is installed, what waited for it is performed, and then the home is told. -/
def grantData (p : Pending) (m : Msg) (s : State) : State :=
  let s := dropPend p.agent p.tag s
  let c : Copy := ⟨p.agent, m.pa, m.gsz, p.ctx, p.vf, (grantSt m.grant), m.mode, m.data, s.mcyc, p.heat, []⟩
  let c := if isHost p.agent ∧ p.kind ≠ .rds then
      { c with st := .m, data := (c.data.zip (p.upd.1.zip p.upd.2)).map fun (o, n, b) => if b then n else o } else c
  completionAck m (retry p.agent (fitL1 16 p.agent m.pa (watchBounce p.agent m.pa (oneTag c (setCopy c s)))))

/-- The copy of a span peer, whose pending requests its own I/O die keeps (R108): it takes what it is granted and tells the home. -/
def peerGrant (m : Msg) (data : List Byte) (s : State) : State :=
  completionAck m (setCopy ⟨m.dst, m.pa, m.gsz, m.ctx, m.vf, grantSt m.grant, m.mode, data, s.mcyc, false, []⟩ s)

/-- ACK_WITH_GRANT (R99, R103): the copy that the requester of an Upg holds becomes exclusive. -/
def execAckWithGrant (m : Msg) (s : State) : Host.Outcome State Fault Refusal :=
  let s := toPeer 2 m s
  match s.coh.pends.find? fun p => p.agent == m.dst && p.tag == m.tag with
  | none => match copyOf s m.dst m.pa m.gsz with
    | some c => .next (if isPeer m.dst then peerGrant m c.data s else s)
    | none => .next s
  | some p =>
    let s := dropPend p.agent p.tag s
    let s := match copyOf s m.dst m.pa m.gsz with
      | some c =>
        let c := expose none c
        let data := if isHost p.agent then (c.data.zip (p.upd.1.zip p.upd.2)).map fun (o, n, b) => if b then n else o else c.data
        setCopy { c with st := if isHost p.agent then .m else (grantSt m.grant), since := s.mcyc, data := data } s
      | none => s
    .next (completionAck m (retry p.agent (watchBounce p.agent m.pa s)))

/-! ## Host ports under HDM-DB (R85, R107) -/

/-- The grains of a host access. -/
def hostGrains (s : State) (pa n : Nat) : List (Nat × Nat) := (cutGrains s (n / 32 + 2) pa n).map (·.2.2)

/-- One grain of a host access: a hit in the port's own copy, or the request that R101 and R107 give: a write to a grain that the port does not
hold exclusively enters the home as RdX, after the port has given up its copy. -/
def hostGrain (m : Msg) (grain gsz : Nat) (s : State) : State :=
  let put := (List.range gsz).map fun i => if m.pa ≤ grain + i then m.data.getD (grain + i - m.pa) 0 else 0
  let mk := (List.range gsz).map fun i => m.write && decide (m.pa ≤ grain + i) && decide (grain + i < m.pa + m.data.length)
  let lo := max m.pa grain
  let hi := min (m.pa + (if m.write then m.data.length else max m.off 1)) (grain + gsz)
  let later := post 1 (.hostAccess { m with pa := lo, off := hi - lo, data := slice 0 m.data (lo - m.pa) (hi - lo) })
  if busyGrain s m.req grain gsz m.ctx then later s else
  match copyOf s m.req grain gsz with
  | some c =>
    if !m.write then s
    else if c.st = .e ∨ c.st = .m then
      setCopy { c with st := .m, data := (c.data.zip (put.zip mk)).map fun (o, n, b) => if b then n else o } s
    else if c.st = .o then later (evictCopy c s)
    else request m.req grain gsz m.ctx m.vf false .rdx (put, mk) 0 (evictCopy c s)
  | none => request m.req grain gsz m.ctx m.vf false (if m.write then .rdx else .rds) (put, mk) 0 s

/-- HOST_ACCESS (R85, R107): split at the grains that its bytes fall in; a write carries its bytes, a read their number in `off`. -/
def execHostAccess (m : Msg) (s : State) : Host.Outcome State Fault Refusal :=
  let n := if m.write then m.data.length else max m.off 1
  .next ((hostGrains s m.pa n).foldl (fun s g => hostGrain m g.1 g.2 s) s)

end Sys2Proof.Machine
end

