-- ==== Sys2Proof/Machine/Mem.lean ====
section
/-! DEFINITION. MAJ 0x18 to 0x1B: loads, stores, prefetch, atomics, fences, waits and cache operations (R387 to R402), with their
orders and scopes (R252, R261 to R265). -/

namespace Sys2Proof.Machine

open Sys2Proof

/-! ## Addresses (R388) -/

/-- The signed 10-bit displacement. -/
def disp (d : Nat) : W64 := BitVec.ofInt 64 (sext 10 d)

/-- The effective address of lane l. -/
def eaOf (x : Iss) (ad : Addr) (l : Nat) : W64 := match ad with
  | .pair n d => BitVec.ofNat 64 (pget x.grp n l) + disp d
  | .base kb o d => kget x.grp kb + BitVec.ofNat 64 (srcVal x false o l) + disp d
  | .off o d => BitVec.ofNat 64 (srcVal x false o l) + disp d

/-- The offset of ldc and stc, whose displacement is unsigned. -/
def eaOff (x : Iss) (o : VSrc) (d l : Nat) : W64 := BitVec.ofNat 64 (srcVal x false o l) + BitVec.ofNat 64 d

/-! ## The scope check (R44, R251) -/

def maxScope (s : State) (vf : Nat) : Nat := if vf = 0 then 6 else max 3 (bits (fnOf s vf).policy.toNat 19 17)

/-- SCOPE.DENIED for a scope beyond device that exceeds MAXSCOPE. -/
def scopeCheck (scope : Nat) (x : Iss) (s : State) : Option Trap :=
  if 4 ≤ scope ∧ maxScope s x.vf < scope then some (trapAt .scopeDenied scope) else none

/-! ## Orders (R261 to R265) -/

/-- Whether a copy command or an accumulator move of the group is in flight (classes CR, CW and MR, MW). -/
def copyOut (x : Iss) (s : State) : Bool := s.eng.copies.any fun c => c.g.any fun g => g.blk == x.g.blk && g.gid == x.g.gid
def moveOut (x : Iss) (s : State) : Bool := s.eng.mops.any fun (_, ops) => ops.any fun o =>
  o.g.blk == x.g.blk && o.g.gid == x.g.gid && (match o.kind with
    | .accld _ => true
    | .accst _ => true
    | .accoutMem _ _ _ _ => true
    | _ => false)

/-- Whether a live path of the group waits for an acquire to return: later accesses of the group are delayed (R262). -/
def acquiring (x : Iss) : Bool := x.grp.stack.any fun e => match e.wait with
  | .access _ => true
  | .label _ _ => true
  | _ => false

/-- Whether an access with ordering code MOD must wait before it is performed. -/
def orderWaits (mod : Nat) (x : Iss) (s : State) : Bool :=
  acquiring x || ((mod == 2 || mod == 3 || mod == 4) && !relReady x s) || (mod == 4 && (copyOut x s || moveOut x s))

/-! ## Per-lane accesses (R390, R393, R398) -/

/-- What a per-lane instruction does: kind, level, ordering code, operation, destination register (absent where the value is
discarded), effective address, operands, and at level c the block whose slab it names. -/
structure MemOp where
  kind : AccKind
  level : Level
  ty : Ty
  mod : Nat
  aop : Nat
  dst : Option Nat

/-- The register a load writes, if any (R391). -/
def loadDst (h : Hdr) : VDst → Option Nat
  | .reg n => if h.nw then none else some n
  | .zero => none
  | .k _ => none

/-- The lowest lane that fails a check, with its address. -/
def firstBad (ls : List (Nat × W64)) (bad : W64 → Bool) : Option (Nat × W64) := ls.find? fun p => bad p.2

/-- ALIGN and PROT in the order of R164 (R390). -/
def laneTrap (op : MemOp) (extent : Option Nat) (ls : List (Nat × W64)) : Option Trap :=
  match firstBad ls fun a => a.toNat % accBytes op.ty ≠ 0 with
  | some (l, a) => some (accessTrap .align a 0 l 0 op.kind.num)
  | none => match extent with
    | some n => (firstBad ls fun a => decide (n < a.toNat + accBytes op.ty)).map fun (l, a) => accessTrap .prot a 0 l 0 op.kind.num
    | none => (firstBad ls fun a => !canonical a).map fun (l, a) => accessTrap .prot a 0 l 2 op.kind.num

def AccKind.acc : AccKind → AccType
  | .load => .read
  | .pref => .read
  | .store => .write
  | .atom => .atomic
  | .atomc => .atomic
  | .red => .atomic
  | .atoms => .atomic

/-- What translating the active lanes comes to (R147): those that translate, and with it those that meet a Nak in a page table
(R165); or a page fault; or not yet. -/
inductive Lanes where
  | ok (ls : List (Nat × W64 × Nat × Leaf)) (bad : List (Nat × W64 × Msg)) (s : State) | fault (p : FPage) (s : State) | wait

def xlatLanes (core ctx : Nat) (a : AccType) : List (Nat × W64) → State → Lanes
  | [], s => .ok [] [] s
  | (l, va) :: r, s => match translate (.core core) ctx a va s with
    | (.wait, _) => .wait
    | (.fault c, s) => .fault { pageOf va a.code c with lane := l } s
    | (.nak n, s) => (match xlatLanes core ctx a r s with
      | .ok ls bad s => .ok ls ((l, va, n) :: bad) s
      | r => r)
    | (.ok pa leaf, s) => match xlatLanes core ctx a r s with
      | .ok ls bad s => .ok ((l, va, pa, leaf) :: ls) bad s
      | r => r

/-- The access that an instruction starts. -/
def newAcc (op : MemOp) (x : Iss) (chained : Bool) (id target : Nat) (lanes : List LaneAcc) : Access :=
  { id := id, g := x.g, core := x.core, ctx := x.ctx, vf := x.vf, kind := op.kind, level := op.level, ty := op.ty, aop := op.aop,
    dst := op.dst, target := target, lanes := lanes, tags := [], naks := [],
    pc := x.ent.pc, mask := x.mask, chained := chained, chainPc := x.ent.chainPc, returned := false }

/-- Whether the issuing instruction lies in a latch chain: it extends one, or begins one. -/
def chainOf (x : Iss) (s : State) : Bool :=
  x.ent.chainPc != x.ent.pc || ((grpOf s x.g).bind fun g => liveEntry g x.g.low).any fun e => decide (0 < e.chain)

/-- Start an asynchronous access on a path: its counter rises, its destination is pending, and an acquire makes the path wait. -/
def startAcc (op : MemOp) (path : Option Nat) (x : Iss) (target : Nat) (lanes : List LaneAcc) (s : State) : Nat × State :=
  let (id, s) := fresh s
  let s := modGrp x.g (fun g =>
    let g := match path with
      | some p => rise p id g
      | none => g
    { g with pend := g.pend ++ (dstRegs op.ty op.dst).map fun r => ⟨r, id⟩ }) s
  let s := if op.kind.returns && (op.mod == 1 || op.mod == 3 || op.mod == 4) then waitAfter x (.access id) s else s
  (id, { s with eng := { s.eng with accs := s.eng.accs ++ [newAcc op x (chainOf x s) id target lanes] } })

/-- The lanes of an access at addresses of a byte space without pages. -/
def plainLanes (ls : List (Nat × W64)) (place : Nat → Nat → Nat) (b c : Nat → Nat) : List LaneAcc := ls.map fun (l, a) =>
  ⟨l, a, place l a.toNat, 128, false, BitVec.ofNat 64 (b l), BitVec.ofNat 64 (c l), .waiting, 0⟩

/-- The lanes of an access with their addresses. -/
def laneAddrs (x : Iss) (ea : Iss → Nat → W64) : List (Nat × W64) := (activeLanes x.mask).map fun l => (l, ea x l)

/-- The addresses that run-ahead translates (R154). -/
def aheadAddrs (k : AccKind) (ea : Iss → Nat → W64) (x : Iss) : List (AccType × W64) :=
  (laneAddrs x ea).map fun p => (k.acc, p.2)

/-- A g-level access: checks, translation, the store queue and the L1 (R390, R393, R398). -/
def gBody (op : MemOp) (path : Nat) (ea : Iss → Nat → W64) (b c : Iss → Nat → Nat) (x : Iss) (s : State) : Res :=
  let ls := laneAddrs x ea
  match laneTrap op none ls with
  | some t => .trap t s
  | none =>
    if orderWaits op.mod x s || decide (255 ≤ cnt x.grp path) then .stall else
    match xlatLanes x.core x.ctx op.kind.acc ls s with
    | .wait => .stall
    | .fault p s => .fault p s
    | .ok ts bad s =>
      let s := ts.foldl (fun s t => touch x.ctx t.2.2.1 s) s
      let lanes := ts.map fun (l, va, pa, leaf) =>
        (⟨l, va, pa, leaf.grain, leaf.heat, BitVec.ofNat 64 (b x l), BitVec.ofNat 64 (c x l), .waiting, 0⟩ : LaneAcc)
      let r := startAcc op (some path) x 0 (lanes ++ bad.map fun (l, va, _) => ⟨l, va, 0, 128, false, 0, 0, .dropped, 0⟩) s
      let s := match accOf r.2 r.1 with
        | some a => putAcc { a with naks := bad.map fun (l, _, m) => ([l], m) } r.2
        | none => r.2
      .next (progress x.core s)

/-- An access of the group's own slab: performed at issue, in core issue order (R248, R260), once its granules are there (R193). -/
def slabBody (op : MemOp) (priv : Bool) (ea : Iss → Nat → W64) (b : Iss → Nat → Nat) (x : Iss) (s : State) : Res :=
  let ls := laneAddrs x ea
  match laneTrap op (some (if priv then 16 * x.lrec.lpriv else 256 * x.lrec.slab)) ls with
  | some t => .trap t s
  | none =>
    if acquiring x || (!priv && ls.any fun l => slabWaits x.g x.g.blk l.2.toNat (accBytes op.ty) s.eng.accs) then .stall else
    let place := fun l o => if priv then 256 * x.lrec.slab + 16 * x.lrec.lpriv * (64 * x.grp.gid + l) + o else o
    match ls.findSome? fun l => slabGap s x.g.blk (place l.1 l.2.toNat) (accBytes op.ty) with
    | some g => stallWith x (askFill x.g.blk g s)
    | none =>
    let a := newAcc op x false 0 x.g.blk (plainLanes ls place (b x) fun _ => 0)
    let t := performOn a (slabRd x.g.blk) (slabWr x.g.blk) a.lanes s
    .next (match op.dst with
      | some d => modGrp x.g (fun g => t.1.foldl (fun g l =>
          if op.ty.pair then pset d l.lane l.val.toNat g else vset d l.lane (BitVec.ofNat 32 (loadVal op.ty l.val.toNat)) g) g) t.2
      | none => t.2)

/-- The block of the cluster-mode set that a c-level access names (R247). -/
def clusterTarget (x : Iss) (rank file : Nat) (s : State) : Option Block :=
  if x.lrec.clm then (setBlocks s x.blk).find? fun b => b.core == rank * 16 + file
  else if x.core = rank * 16 + file then blkOf s x.g.blk else none

/-- A c-level access (R393, R395). -/
def clusterBody (op : MemOp) (rank file : Nat) (ea : Iss → Nat → W64) (b : Iss → Nat → Nat) (x : Iss) (s : State) : Res :=
  let ls := laneAddrs x ea
  let target := clusterTarget x rank file s
  match laneTrap op (some (if target.isSome then 256 * x.lrec.slab else 0)) ls with
  | some t => .trap t s
  | none =>
    if orderWaits op.mod x s || decide (255 ≤ cnt x.grp 2) then .stall else
    let r := startAcc op (some 2) x ((target.map (·.id)).getD x.g.blk) (plainLanes ls (fun _ o => o) (b x) fun _ => 0) s
    .next (post 0 (.clusterSlabAccess r.1) r.2)

/-- The pad window of a context: base and size in bytes, no further than the device pad reaches (R64). -/
def padWindow (ctx : Nat) (s : State) : Nat × Nat := ((ctxOf s ctx).map fun c =>
  (c.padBase * 4096, min (c.padLim * 4096) (Config.padBytes - c.padBase * 4096))).getD (0, 0)

/-- A d-level access: one transaction per pad slice (R65, R66). -/
def padBody (op : MemOp) (ea : Iss → Nat → W64) (b : Iss → Nat → Nat) (x : Iss) (s : State) : Res :=
  let ls := laneAddrs x ea
  let (base, lim) := padWindow x.ctx s
  match laneTrap op (some lim) ls with
  | some t => .trap t s
  | none =>
    if orderWaits op.mod x s || decide (255 ≤ cnt x.grp 2) then .stall else
    let lanes := plainLanes ls (fun _ o => padBase + base + o) (b x) fun _ => 0
    let s := lanes.foldl (fun s l => touch x.ctx l.pa s) s
    let r := startAcc op (some 2) x 0 lanes s
    let slices := (lanes.map fun l => sliceOf l.pa).eraseDups
    .next (if slices.isEmpty then settleAcc r.1 r.2 else postAll (slices.map fun n => .padSliceAccess r.1 n) r.2)

/-! ## Loads and stores (R392) -/

def execLdg (h : Hdr) (d : VDst) (ad : Addr) (scope : Nat) (s : State) : Host.Outcome State Fault Refusal :=
  issueWith (sigLdg h d ad scope) (aheadAddrs .load (eaOf · ad)) (scopeCheck scope)
    (gBody ⟨.load, .g, h.ty, h.mod, 0, loadDst h d⟩ 0 (eaOf · ad) (fun _ _ => 0) (fun _ _ => 0)) s

def execStg (h : Hdr) (ad : Addr) (b : VSrc) (scope : Nat) (s : State) : Host.Outcome State Fault Refusal :=
  issueWith (sigStg h ad b scope) (aheadAddrs .store (eaOf · ad)) (scopeCheck scope)
    (gBody ⟨.store, .g, h.ty, h.mod, 0, none⟩ 1 (eaOf · ad) (fun x => srcVal x h.ty.pair b) (fun _ _ => 0)) s

def execLds (h : Hdr) (d : VDst) (ad : Addr) (s : State) : Host.Outcome State Fault Refusal :=
  issue (sigLds h d ad) noPre (slabBody ⟨.load, .s, h.ty, h.mod, 0, loadDst h d⟩ false (eaOf · ad) (fun _ _ => 0)) s

def execSts (h : Hdr) (ad : Addr) (b : VSrc) (s : State) : Host.Outcome State Fault Refusal :=
  issue (sigSts h ad b) noPre (slabBody ⟨.store, .s, h.ty, h.mod, 0, none⟩ false (eaOf · ad) fun x => srcVal x h.ty.pair b) s

def execLdl (h : Hdr) (d : VDst) (ad : Addr) (s : State) : Host.Outcome State Fault Refusal :=
  issue (sigLdl h d ad) noPre (slabBody ⟨.load, .s, h.ty, h.mod, 0, loadDst h d⟩ true (eaOf · ad) (fun _ _ => 0)) s

def execStl (h : Hdr) (ad : Addr) (b : VSrc) (s : State) : Host.Outcome State Fault Refusal :=
  issue (sigStl h ad b) noPre (slabBody ⟨.store, .s, h.ty, h.mod, 0, none⟩ true (eaOf · ad) fun x => srcVal x h.ty.pair b) s

def execLdc (h : Hdr) (d : VDst) (off : VSrc) (disp rank file scope : Nat) (s : State) : Host.Outcome State Fault Refusal :=
  issue (sigLdc h d off disp rank file scope) (scopeCheck scope)
    (clusterBody ⟨.load, .c, h.ty, h.mod, 0, loadDst h d⟩ rank file (eaOff · off disp) (fun _ _ => 0)) s

def execStc (h : Hdr) (off : VSrc) (disp rank file : Nat) (b : VSrc) (scope : Nat) (s : State) : Host.Outcome State Fault Refusal :=
  issue (sigStc h off disp rank file b scope) (scopeCheck scope)
    (clusterBody ⟨.store, .c, h.ty, h.mod, 0, none⟩ rank file (eaOff · off disp) fun x => srcVal x h.ty.pair b) s

def execLdd (h : Hdr) (d : VDst) (ad : Addr) (scope : Nat) (s : State) : Host.Outcome State Fault Refusal :=
  issue (sigLdd h d ad scope) (scopeCheck scope)
    (padBody ⟨.load, .d, h.ty, h.mod, 0, loadDst h d⟩ (eaOf · ad) (fun _ _ => 0)) s

def execStd (h : Hdr) (ad : Addr) (b : VSrc) (scope : Nat) (s : State) : Host.Outcome State Fault Refusal :=
  issue (sigStd h ad b scope) (scopeCheck scope)
    (padBody ⟨.store, .d, h.ty, h.mod, 0, none⟩ (eaOf · ad) fun x => srcVal x h.ty.pair b) s

/-! ## Atomics (R397) -/

def execAtom (h : Hdr) (d : VDst) (ad : Addr) (b : VSrc) (aop scope : Nat) (s : State) : Host.Outcome State Fault Refusal :=
  issueWith (sigAtom h d ad b aop scope) (aheadAddrs .atom (eaOf · ad)) (scopeCheck scope)
    (gBody ⟨.atom, .g, h.ty, h.mod, aop, loadDst h d⟩ 0 (eaOf · ad) (fun x => srcVal x h.ty.pair b) (fun _ _ => 0)) s

def execAtomc (h : Hdr) (d : VDst) (ad : Addr) (b c : VSrc) (scope : Nat) (s : State) : Host.Outcome State Fault Refusal :=
  issueWith (sigAtomc h d ad b c scope) (aheadAddrs .atomc (eaOf · ad)) (scopeCheck scope)
    (gBody ⟨.atomc, .g, h.ty, h.mod, 0, loadDst h d⟩ 0 (eaOf · ad) (fun x => srcVal x h.ty.pair b)
      (fun x => srcVal x h.ty.pair c)) s

def execRed (h : Hdr) (ad : Addr) (b : VSrc) (aop scope : Nat) (s : State) : Host.Outcome State Fault Refusal :=
  issueWith (sigRed h ad b aop scope) (aheadAddrs .red (eaOf · ad)) (scopeCheck scope)
    (gBody ⟨.red, .g, h.ty, h.mod, aop, none⟩ 1 (eaOf · ad) (fun x => srcVal x h.ty.pair b) (fun _ _ => 0)) s

def execAtoms (h : Hdr) (ad : Addr) (b : VSrc) (scope : Nat) (s : State) : Host.Outcome State Fault Refusal :=
  issueWith (sigAtoms h ad b scope) (aheadAddrs .atoms (eaOf · ad)) (scopeCheck scope)
    (gBody ⟨.atoms, .g, h.ty, h.mod, 0, none⟩ 1 (eaOf · ad) (fun x => srcVal x h.ty.pair b) (fun _ _ => 0)) s

/-! ## Prefetch and cache operations (R396) -/

/-- The lanes that pass their checks and translate, at a width of n bytes, the others being dropped; none while a table's home is busy. -/
def goodLanes (core ctx n : Nat) : List (Nat × W64) → State → Option (List (Nat × W64 × Nat × Leaf) × State)
  | [], s => some ([], s)
  | (l, va) :: r, s =>
    if va.toNat % n ≠ 0 || !canonical va then goodLanes core ctx n r s else
    match translate (.core core) ctx .read va s with
    | (.wait, _) => none
    | (.ok pa leaf, s) => (goodLanes core ctx n r s).map fun t => ((l, va, pa, leaf) :: t.1, t.2)
    | (.fault _, s) => goodLanes core ctx n r s
    | (.nak _, s) => goodLanes core ctx n r s

/-- What pref, cflush and cinv do with the lanes that pass (R396). -/
def withGood (x : Iss) (n : Nat) (ls : List (Nat × W64)) (f : List (Nat × W64 × Nat × Leaf) → State → State) (s : State) : Res :=
  if acquiring x then .stall else match goodLanes x.core x.ctx n ls s with
    | none => .stall
    | some (ts, s) => .next (f ts s)

def execPref (h : Hdr) (ad : Addr) (s : State) : Host.Outcome State Fault Refusal :=
  issueWith (sigPref h ad) (aheadAddrs .pref (eaOf · ad)) noPre (fun x => withGood x (accBytes h.ty) (laneAddrs x (eaOf · ad)) fun ts s =>
    let s := ts.foldl (fun s t => touch x.ctx t.2.2.1 s) s
    let lanes := ts.map fun (l, va, pa, leaf) => (⟨l, va, pa, leaf.grain, leaf.heat, 0, 0, .waiting, 0⟩ : LaneAcc)
    progress x.core (startAcc ⟨.pref, .g, h.ty, 0, 0, none⟩ none x 0 lanes s).2) s

/-- The copies of the core that hold an active lane's grain and on which no request is pending. -/
def laneCopies (core : Nat) (ts : List (Nat × W64 × Nat × Leaf)) (s : State) : List Copy :=
  (ts.filterMap fun t => copyOf s core t.2.2.1 1).eraseDups.filter fun c => (pendOf s core c.pa c.gsz).isNone

def execCflush (h : Hdr) (ad : Addr) (s : State) : Host.Outcome State Fault Refusal :=
  issue (sigCflush h ad) noPre (fun x => withGood x 4 (laneAddrs x (eaOf · ad)) fun ts s =>
    let cs := laneCopies x.core ts s
    let s := cs.foldl (fun s c => evictCopy c s) s
    let gs := (cs.filter (·.st.owns)).map (·.pa)
    if gs.isEmpty then s else waitAfter x (.cflush gs) s) s

def execCinv (h : Hdr) (ad : Addr) (s : State) : Host.Outcome State Fault Refusal :=
  issue (sigCinv h ad) noPre (fun x => withGood x 4 (laneAddrs x (eaOf · ad)) fun ts s =>
    ((laneCopies x.core ts s).filter fun c => c.st == .s || c.st == .t).foldl (fun s c => dropCopy c.agent c.pa c.gsz s) s) s

/-! ## Fences and waits (R399 to R401) -/

/-- Whether what a fence's predecessor set names has been performed (R264, R265). -/
def fenceReady (p : Nat) (x : Iss) (s : State) : Bool :=
  let own := fun a : Access => a.g.blk == x.g.blk && a.g.gid == x.g.gid && a.kind != .pref && !(a.returned && a.naks.isEmpty)
  let rd := !(s.eng.accs.any fun a => own a && a.kind.returns)
  let wr := !(s.eng.accs.any fun a => (own a && a.kind.writes) || x.grp.seen.contains a.id)
  (!bit p 0 || rd) && (!bit p 1 || wr) && (!(bit p 2 || bit p 3) || !copyOut x s) && (!(bit p 4 || bit p 5) || !moveOut x s)

def execFence (sc : Bool) (p q scope : Nat) (s : State) : Host.Outcome State Fault Refusal :=
  issue (sigFence sc p q scope) (scopeCheck scope) (fun x s =>
    if acquiring x then .stall
    else if !sc && (p == 0 || q == 0) then .next s
    else if fenceReady (if sc then 63 else p) x s then .next s else .stall) s

def execOfence (s : State) : Host.Outcome State Fault Refusal :=
  issue sigOfence noPre (fun x s =>
    .next (modGrp x.g (fun g => { g with marks := (g.marks ++ g.pend.map (·.op)).eraseDups }) s)) s

/-- waitp waits at the instruction: a trap that is due when its counter has fallen comes before it (R133). -/
def execWaitp (p kn : Nat) (s : State) : Host.Outcome State Fault Refusal :=
  issue (sigWaitp p kn) noPre (fun x s =>
    let n := (kget x.grp kn).toNat
    .next (if cnt x.grp p ≤ n then s else waitHere x (.waitp p n) s)) s

end Sys2Proof.Machine
end

