-- ==== Sys2Proof/Machine/Copy.lean ====
section
/-! DEFINITION. MAJ 0x1C: tensor records and the copy engines (R403 to R408), and the accesses that reach the pad slices (R66). A
command performs its elements in element order. -/

namespace Sys2Proof.Machine

open Sys2Proof

/-! ## Tensor records (R403) -/

def trecOf (bs : List Byte) : TRec :=
  let r := ofBytes bs
  { srca := BitVec.ofNat 64 (bits r 511 448), dsta := BitVec.ofNat 64 (bits r 447 384),
    ss := [sext 32 (bits r 383 352), sext 32 (bits r 351 320), sext 32 (bits r 319 288)],
    ds := [sext 32 (bits r 287 256), sext 32 (bits r 255 224), sext 32 (bits r 223 192)],
    n := [bits r 191 176, bits r 175 160, bits r 159 144, bits r 143 128], slv := bits r 127 126, dlv := bits r 125 124,
    esz := bits r 123 122 }

def TRec.bytes (t : TRec) : Nat := 2 ^ t.esz
/-- The number of elements. -/
def TRec.total (t : TRec) : Nat := t.n.foldl (fun a n => a * (n + 1)) 1
/-- The bytes of a row of dimension 0. -/
def TRec.row (t : TRec) : Nat := (t.n.headD 0 + 1) * t.bytes

/-- The coordinates of element k in element order. -/
def coords : List Nat → Nat → List Nat
  | [], _ => []
  | n :: r, k => k % (n + 1) :: coords r (k / (n + 1))

/-- The offset of element k from the base of a side. -/
def elemOff (t : TRec) (strides : List Int) (k : Nat) : Int := match coords t.n k with
  | [] => 0
  | i0 :: r => (i0 * t.bytes : Nat) + ((r.zip strides).map fun p => (p.1 : Int) * p.2).sum

def srcAddr (t : TRec) (k : Nat) : W64 := t.srca + BitVec.ofInt 64 (elemOff t t.ss k)
def dstAddr (t : TRec) (k : Nat) : W64 := t.dsta + BitVec.ofInt 64 (elemOff t t.ds k)

/-- The lowest and the highest byte offset that a side reaches. -/
def reach (t : TRec) (base : W64) (strides : List Int) : Int × Int :=
  let spans := ((t.n.drop 1).zip strides).map fun p => (p.1 : Int) * p.2
  ((base.toNat : Int) + (spans.map (min 0)).sum,
   (base.toNat : Int) + (spans.map (max 0)).sum + ((t.n.headD 0 * t.bytes + t.bytes - 1 : Nat) : Int))

/-- A side of a record: level, base and strides. -/
structure Side where
  level : Nat
  base : W64
  strides : List Int
  deriving DecidableEq, Repr

def srcSide (t : TRec) : Side := ⟨t.slv, t.srca, t.ss⟩
def dstSide (t : TRec) : Side := ⟨t.dlv, t.dsta, t.ds⟩

def misaligned (t : TRec) (s : Side) : Bool :=
  s.level ≠ 3 && (s.base.toNat % t.bytes ≠ 0 || s.strides.any fun d => d % (t.bytes : Int) ≠ 0)

/-- Whether a side has no level, or passes its slab or pad extent. -/
def outside (t : TRec) (slab pad : Nat) (s : Side) : Bool :=
  let r := reach t s.base s.strides
  s.level == 3 || (s.level == 1 && (decide (r.1 < 0) || decide ((slab : Int) ≤ r.2))) ||
    (s.level == 2 && (decide (r.1 < 0) || decide ((pad : Int) ≤ r.2)))

/-- Check 3 of R405: what a register side demands of the record. -/
def regShape (t : TRec) : Bool := t.n.getD 1 0 == 63 && t.n.getD 2 0 == 0 && t.n.getD 3 0 == 0 && t.row % 4 == 0 && t.row ≤ 128

/-! ## Commands -/

def copyCmd (s : State) (op : Nat) : Option CopyCmd := s.eng.copies.find? (·.op == op)
def putCopy (c : CopyCmd) (s : State) : State :=
  { s with eng := { s.eng with copies := s.eng.copies.map fun x => if x.op = c.op then c else x } }

/-- The registers of a tcopy to registers. -/
def copyRegs (t : TRec) (d : Nat) : List Nat := (List.range (t.row / 4)).map (d + ·)

/-- Write the bytes that have come to a register side, lane by lane (R406). -/
def landRegs (c : CopyCmd) (s : State) : State := match c.kind, c.g with
  | .toRegs (some d), some g =>
    let row := c.trecd.row
    let have_ := c.next * c.trecd.bytes
    landGrp g (fun x => lanes.foldl (fun x l => (List.range (row / 4)).foldl (fun x w =>
      let old := toBytes 4 (vget x (d + w) l).toNat
      let new := (List.range 4).map fun b =>
        let i := l * row + 4 * w + b
        if i < have_ then c.buf.getD i 0 else old.getD b 0
      vset (d + w) l (BitVec.ofNat 32 (ofBytes new)) x) x) x) s
  | _, _ => s

/-- The command leaves the engine: its registers are written, its counter falls. -/
def endCopy (c : CopyCmd) (s : State) : State :=
  let s := landRegs c { s with eng := { s.eng with copies := s.eng.copies.filter (·.op != c.op) } }
  match c.g with
  | some g => opDone g c.op s
  | none => s

/-- Cancel the rest of a command (R134, R166): the group's trap names the element, a queue stops with an FCODE. -/
def cancelCopy (c : CopyCmd) (t : Trap) (fcode : Nat) (s : State) : State :=
  let s := endCopy c s
  match c.g, c.queue with
  | some g, _ => dueTrap g c.ctx c.vf c.core { t with restart := false, named := some (c.pc, c.mask, false, c.pc) } s
  | none, some (q, n) => workEnd c.queue .failed (stopQueue q (some n) fcode s)
  | none, none => s

/-- Whether the command may go on: not stopped by a fault, and its block not halted (R186, R187). -/
def copyRuns (c : CopyCmd) (s : State) : Bool :=
  c.stopped.isNone && c.tag == 0 && (c.g.all fun g => (blkOf s g.blk).any fun b => b.state == .resident) &&
    !dieStopped s (if c.g.isSome then coreDie c.core else 4)

/-- Whether a command takes its source, and its destination, from the record. -/
def readsMem (c : CopyCmd) : Bool := match c.kind with
  | .copy => true
  | .toRegs _ => true
  | .fromRegs => false
  | .fill _ => false
def writesMem (c : CopyCmd) : Bool := match c.kind with
  | .toRegs _ => false
  | .copy => true
  | .fromRegs => true
  | .fill _ => true

/-- What a walk-ahead has come to: the pages it has looked at, as addresses with the kind of the access, and those that fault. -/
structure Walked where
  seen : List (AccType × W64)
  faults : List FPage
  deriving DecidableEq, Repr

/-- One address of a walk-ahead. -/
def lookAhead (s : State) (tlb : Tlb) (ctx : Nat) (va : W64) (a : AccType) (w : Walked) : Walked :=
  if !canonical va || w.seen.any fun p => p.1 == a && p.2.toNat / 4096 == va.toNat / 4096 then w else
  let w := { w with seen := w.seen ++ [(a, va)] }
  match probe s tlb ctx a va with
  | .fault cause => { w with faults := w.faults ++ [pageOf va a.code cause] }
  | .ok _ _ => w
  | .nak _ => w
  | .wait => w

/-- The walk-ahead over some elements' addresses: up to 64 pages beyond those of the first element, and up to 33 that fault (R148, R156). -/
def walkAhead (s : State) (tlb : Tlb) (ctx : Nat) (addrs : Nat → List (AccType × W64)) : Nat → Nat → Walked → Walked
  | 0, _, w => w
  | fuel + 1, k, w =>
    if 64 + (addrs 0).length ≤ w.seen.length ∨ 33 ≤ w.faults.length then w else
    walkAhead s tlb ctx addrs fuel (k + 1) ((addrs k).foldl (fun w p => lookAhead s tlb ctx p.2 p.1 w) w)

/-- The addresses of element k of a record with the kinds of its accesses. -/
def elemAddrs (t : TRec) (rd wr : Bool) (k : Nat) : List (AccType × W64) :=
  (if rd && t.slv == 0 then [(.read, srcAddr t k)] else []) ++ (if wr && t.dlv == 0 then [(.write, dstAddr t k)] else [])

/-- The pages that a fault at element k of a record reports behind page `p`, and the touched-dies bits of the walks (R17, R156). -/
def faultPages (t : TRec) (rd wr : Bool) (k : Nat) (tlb : Tlb) (ctx : Nat) (p : FPage) (s : State) : List FPage × State :=
  let w := walkAhead s tlb ctx (fun i => elemAddrs t rd wr (k + i)) (min (t.total - k) 0x80000) 0 ⟨[], []⟩
  ((p :: w.faults.filter fun q => !p.same q).take 33, setTdm ctx (w.seen.foldl (fun b q => b ||| walkBits s tlb ctx q.2) 0) s)

/-- The TLB of a command. -/
def copyTlb (c : CopyCmd) : Tlb := if c.g.isSome then .copy c.core else .queue

/-- FCODE of a Nak (R478). -/
def nakCode (reason : Nat) : Nat := if reason = 2 then 9 else 4

/-- A page of an element faults (R156): the command stops on a token. -/
def faultCopy (c : CopyCmd) (p : FPage) (s : State) : State :=
  let (ps, s) := faultPages c.trecd (readsMem c) (writesMem c) c.next (copyTlb c) c.ctx p s
  let (t, s) := postBatch c.vf c.ctx (if c.g.isSome then 2 else 4) (if c.g.isSome then c.core else 178)
    (BitVec.ofNat 64 ((c.queue.map (·.1)).getD 0)) ps (.copy c.op) s
  putCopy { c with stopped := some t, val := none } s

/-- The agent of a command's uncached accesses (R118). -/
def copyAgent (c : CopyCmd) : Nat := if c.g.isSome then c.core else 178

/-- The uncached access of an element at g (R407). -/
def elemMsg (c : CopyCmd) (pa : Nat) (leaf : Leaf) (tag : Nat) (data : Option W64) : Msg :=
  let grain := pa / leaf.grain * leaf.grain
  let n := c.trecd.bytes
  let m := agentMsg (copyAgent c) grain leaf.grain c.ctx c.vf tag leaf.heat
  let m := { m with off := pa - grain, frm := 256 + copyAgent c }
  match data with
  | none => m
  | some v => { m with
      data := splice (List.replicate leaf.grain 0) (pa - grain) (toBytes n v.toNat)
      bmask := (List.range leaf.grain).map fun i => decide (pa - grain ≤ i) && decide (i < pa - grain + n) }

/-- The trap PROT, CAUSE 2, of an engine. -/
def engineProt (va : W64) (cause kind : Nat) : Trap := ⟨.prot, accessWords va 0 0 0 cause false kind 0, false, none⟩

/-- Where an element goes: a value to hand on, an access on the way, or the end of the command. -/
inductive Elem where
  | value (v : W64) (s : State) | sent (s : State)

/-- The engine waits while the core fills an absent granule of the slab (R193). -/
def fillFor (c : CopyCmd) (gap : Option Granule) (s : State) : State :=
  post 1 (.copyCommandComplete c.op) (gap.elim s fun g => askFill ((c.g.map (·.blk)).getD 0) g s)

/-- Read the source of the next element (R404, R407). -/
def readElem (c : CopyCmd) (s : State) : Elem :=
  let n := c.trecd.bytes
  match c.kind with
  | .fill v => .value v s
  | .fromRegs => .value (BitVec.ofNat 64 (ofBytes (slice 0 c.buf (c.next * n) n))) s
  | _ =>
    let va := srcAddr c.trecd c.next
    let gap := slabGap s ((c.g.map (·.blk)).getD 0) va.toNat n
    if c.trecd.slv = 1 ∧ gap.isSome then .sent (fillFor c gap s)
    else if c.trecd.slv = 1 then .value (BitVec.ofNat 64 (ofBytes (slabRd ((c.g.map (·.blk)).getD 0) s va.toNat n))) s
    else if c.trecd.slv = 2 then
      let pa := padBase + (padWindow c.ctx s).1 + va.toNat
      .sent (post 0 (.padSliceAccess c.op (sliceOf pa)) (putCopy { c with tag := c.op } (touch c.ctx pa s)))
    else if !canonical va then .sent (cancelCopy c (engineProt va 2 3) 1 s)
    else match translate (copyTlb c) c.ctx .read va s with
      | (.wait, s) => .sent (post 1 (.copyCommandComplete c.op) s)
      | (.fault cause, s) => .sent (faultCopy c (pageOf va 0 cause) s)
      | (.nak m, s) => .sent (cancelCopy c (nakTrap m va 0 0 0 3 false false none) (nakCode m.reason) s)
      | (.ok pa leaf, s) => match giveUp (copyAgent c) (pa / leaf.grain * leaf.grain) leaf.grain false (touch c.ctx pa s) with
        | (false, s) => .sent (post 1 (.copyCommandComplete c.op) s)
        | (true, s) =>
          let (tag, s) := fresh s
          .sent (post 0 (.uncachedRead (elemMsg c pa leaf tag none)) (putCopy { c with tag := tag } s))

/-- Write the destination of the next element. -/
def writeElem (c : CopyCmd) (v : W64) (s : State) : Elem :=
  let n := c.trecd.bytes
  match c.kind with
  | .toRegs _ => .value v (putCopy { c with buf := splice c.buf (c.next * n) (toBytes n v.toNat) } s)
  | _ =>
    let va := dstAddr c.trecd c.next
    let gap := slabGap s ((c.g.map (·.blk)).getD 0) va.toNat n
    if c.trecd.dlv = 1 ∧ gap.isSome then .sent (fillFor c gap (putCopy { c with val := some v } s))
    else if c.trecd.dlv = 1 then .value v (slabWr ((c.g.map (·.blk)).getD 0) va.toNat (toBytes n v.toNat) s)
    else if c.trecd.dlv = 2 then
      let pa := padBase + (padWindow c.ctx s).1 + va.toNat
      .sent (post 0 (.padSliceAccess c.op (sliceOf pa)) (putCopy { c with tag := c.op, val := some v } (touch c.ctx pa s)))
    else if !canonical va then .sent (cancelCopy c (engineProt va 2 4) 1 s)
    else match translate (copyTlb c) c.ctx .write va s with
      | (.wait, s) => .sent (post 1 (.copyCommandComplete c.op) (putCopy { c with val := some v } s))
      | (.fault cause, s) => .sent (faultCopy c (pageOf va 1 cause) s)
      | (.nak m, s) => .sent (cancelCopy c (nakTrap m va 0 0 0 4 false false none) (nakCode m.reason) s)
      | (.ok pa leaf, s) => match giveUp (copyAgent c) (pa / leaf.grain * leaf.grain) leaf.grain true (touch c.ctx pa s) with
        | (false, s) => .sent (post 1 (.copyCommandComplete c.op) (putCopy { c with val := some v } s))
        | (true, s) =>
          let (tag, s) := fresh s
          .sent (post 0 (.uncachedWrite (elemMsg c pa leaf tag (some v))) (putCopy { c with tag := tag, val := some v } s))

/-- The first absent granule among the registers that a command writes. -/
def landGap (c : CopyCmd) (s : State) : Option Granule := match c.kind, c.g with
  | .toRegs (some d), some g => regGap s g (copyRegs c.trecd d)
  | _, _ => none

/-- Go on with a command until an access is on the way or its elements are done. -/
def kickCopy : Nat → Nat → State → State
  | 0, op, s => post 0 (.copyCommandComplete op) s
  | fuel + 1, op, s => match copyCmd s op with
    | none => s
    | some c =>
      if !copyRuns c s then s
      else if (landGap c s).isSome then fillFor c (landGap c s) s
      else if c.trecd.total ≤ c.next then post 0 (.copyCommandComplete op) s
      else match (match c.val with
        | some v => Elem.value v s
        | none => readElem c s) with
        | .sent s => s
        | .value v s => match writeElem c v s with
          | .sent s => s
          | .value _ s =>
            let s := match copyCmd s op with
              | some c => putCopy { c with next := c.next + 1, val := none } s
              | none => s
            kickCopy fuel op s

/-- The elements that one step takes through the slab at most, before it gives way to another. -/
def copyBurst : Nat := 4096

/-- The value of an element's source arrives, or its write is performed. A halted command stands at an element boundary (R186): the value that comes to
it is not used, and the element is read again. -/
def copyAnswer (c : CopyCmd) (read : Option W64) (s : State) : State :=
  let stands := c.g.any fun g => (blkOf s g.blk).all fun b => b.state != .resident
  let s := match read with
    | some v => putCopy { c with tag := 0, val := if stands then none else some v } s
    | none => putCopy { c with tag := 0, val := none, next := c.next + 1 } s
  kickCopy copyBurst c.op s

/-- COPY_COMMAND_COMPLETE (R408): when every element is performed and the granules of its registers are there (R193) the command completes and its
counter falls; until then the engine goes on from the first unperformed element. -/
def execCopyCommandComplete (op : Nat) (s : State) : Host.Outcome State Fault Refusal := match copyCmd s op with
  | none => .next s
  | some c =>
    if c.next < c.trecd.total then .next (kickCopy copyBurst op s)
    else if (landGap c s).isSome then .next (fillFor c (landGap c s) s)
    else .next (workEnd c.queue .success (endCopy c s))

/-- PAD_SLICE_ACCESS (R66, R407): the lanes of a d-level access, or a copy element, at their slice in arrival order. -/
def execPadSliceAccess (op slice : Nat) (s : State) : Host.Outcome State Fault Refusal := match accOf s op with
  | some a => .next (padAccess a slice s)
  | none => match copyCmd s op with
    | none => .next s
    | some c =>
      let n := c.trecd.bytes
      let at_ := fun va : W64 => padBase + (padWindow c.ctx s).1 + va.toNat
      match c.val with
      | none => .next (copyAnswer c (some (BitVec.ofNat 64 (ofBytes (memRead s (at_ (srcAddr c.trecd c.next)) n)))) s)
      | some v => .next (copyAnswer c none (memWrite (at_ (dstAddr c.trecd c.next)) (toBytes n v.toNat) s))

/-! ## The instructions (R402, R404, R405) -/

/-- The physical address at which a core's context finds a virtual one, 0 where it is not translated (R162). -/
def paAt (x : Iss) (va : W64) (s : State) : Nat := match probe s (.core x.core) x.ctx .read va with
  | .ok pa _ => pa
  | .fault _ => 0
  | .nak _ => 0
  | .wait => 0

/-- A trap that a record gives at the instruction: RESTART 1, VADDR the record address with its physical address (R162, R405). KIND is that of an engine
read (DESIGN CHOICE, log entry 132). -/
def recTrap (c : TrapCode) (x : Iss) (va : W64) (s : State) : Trap :=
  ⟨c, if c = .xreg then 0 else accessWords va 0 (paAt x va s) 0 0 false 3 0, true, none⟩

/-- A Nak of a record read, at the first byte that it refuses: nothing is performed and the trap is due at the next boundary (R133, R135, R165). KIND is
that of a load (DESIGN CHOICE, log entry 132). -/
def recNak (x : Iss) (m : Msg) (va : W64) (pa : Nat) (s : State) : Res :=
  .next (dueTrap x.g x.ctx x.vf x.core (nakTrap { m with req := x.core } va 0 pa 0 0 false true (some (x.ent.pc, x.mask, false, x.ent.pc))) s)

/-- PROT, CAUSE 2, of an address that an engine instruction names: it is delivered at a boundary (R140, R412; DEDUCED, log entry 133), and nothing is
performed. -/
def canonDue (x : Iss) (va : W64) (kind : Nat) (s : State) : Res :=
  .next (dueTrap x.g x.ctx x.vf x.core { accessTrap .prot va 0 0 2 kind with restart := false, named := some (x.ent.pc, x.mask, false, x.ent.pc) } s)

/-- The record checks of R405, in order; `base` is the first register of a register side. -/
def recChecks (x : Iss) (va : W64) (t : TRec) (sides : List Side) (base : Option Nat) (s : State) : Option Trap :=
  if sides.any (misaligned t) then some (recTrap .align x va s)
  else if sides.any (outside t (256 * x.lrec.slab) (padWindow x.ctx s).2) then some (recTrap .prot x va s)
  else match base with
    | none => none
    | some b =>
      if !regShape t then some (recTrap .prot x va s)
      else if vregsOf x.lrec x.grp < b + t.row / 4 then some (recTrap .xreg x va s) else none

/-- Read a tensor record at issue and go on with it. -/
def withRec (x : Iss) (va : W64) (f : TRec → State → Res) (s : State) : Res :=
  if va.toNat % 64 ≠ 0 then .trap (accessTrap .align va 0 0 0 0) s
  else if !canonical va then canonDue x va 0 s
  else match readAt (.core x.core) (groupKey x.g) x.ctx va 64 s with
    | .fault p s => .fault p s
    | .wait s => stallWith x s
    | .nak m a pa s => recNak x m a pa s
    | .ok bs s => f (trecOf bs) s

/-- Queue a command to the core's engine (R405, R406). -/
def startCopy (x : Iss) (kind : CopyKind) (t : TRec) (buf : List Byte) (regs : List Nat) (s : State) : State :=
  let (op, s) := fresh s
  let s := modGrp x.g (fun g => { rise 3 op g with pend := g.pend ++ regs.map fun r => ⟨r, op⟩ }) s
  let c : CopyCmd := ⟨op, some x.g, x.core, x.ctx, x.vf, kind, t, 0, 0, none, buf, none, none, x.ent.pc, x.mask⟩
  kickCopy copyBurst op { s with eng := { s.eng with copies := s.eng.copies ++ [c] } }

/-- The register side of a tstore as it is read at issue: row l is lane l (R406). -/
def regBytes (g : Group) (t : TRec) (v : Nat) : List Byte :=
  lanes.flatMap fun l => (List.range (t.row / 4)).flatMap fun w => toBytes 4 (vget g (v + w) l).toNat

def execTcopy (nw : Bool) (d : Option Nat) (krec : Nat) (s : State) : Host.Outcome State Fault Refusal :=
  issue (sigTcopy nw d krec) noPre (fun x s =>
    if acquiring x || decide (255 ≤ cnt x.grp 3) then .stall
    else if d.any fun n => decide (vregsOf x.lrec x.grp ≤ n) then .trap (trapAt .xreg 0) s
    else withRec x (kget x.grp krec) (fun t s =>
      let sides := match d with
        | none => [srcSide t, dstSide t]
        | some _ => [srcSide t]
      match recChecks x (kget x.grp krec) t sides d s with
      | some tr => .trap tr s
      | none => match d with
        | none => .next (startCopy x .copy t [] [] s)
        | some n =>
          if !nw && (copyRegs t n).any fun r => pending x.grp r || x.grp.busy.any (·.reg == r) then stallWith x s
          else .next (modGrp x.g (modEntries (invalidate (if nw then [] else copyRegs t n)))
            (startCopy x (.toRegs (if nw then none else some n)) t (List.replicate (64 * t.row) 0) (if nw then [] else copyRegs t n) s))) s) s

def execTstore (krec vs : Nat) (s : State) : Host.Outcome State Fault Refusal :=
  issue (sigTstore krec vs) noPre (fun x s =>
    if acquiring x || decide (255 ≤ cnt x.grp 3) then .stall
    else if vregsOf x.lrec x.grp ≤ vs then .trap (trapAt .xreg 0) s
    else withRec x (kget x.grp krec) (fun t s =>
      match recChecks x (kget x.grp krec) t [dstSide t] (some vs) s with
      | some tr => .trap tr s
      | none =>
        if x.grp.pend.any fun p => (copyRegs t vs).contains p.reg && x.grp.marks.contains p.op then stallWith x s
        else .next (startCopy x .fromRegs t (regBytes x.grp t vs) [] s)) s) s

def execTfill (krec kval : Nat) (s : State) : Host.Outcome State Fault Refusal :=
  issue (sigTfill krec kval) noPre (fun x s =>
    if acquiring x || decide (255 ≤ cnt x.grp 3) then .stall
    else withRec x (kget x.grp krec) (fun t s =>
      match recChecks x (kget x.grp krec) t [dstSide t] none s with
      | some tr => .trap tr s
      | none => .next (startCopy x (.fill (kget x.grp kval)) t [] [] s)) s) s

end Sys2Proof.Machine
end

