-- ==== Sys2Proof/Machine/BaseDie.lean ====
section
/-! DEFINITION. MAJ 0x1D: the base-die commands bdgather, bdscat, bdred and bdconv (R82 to R84, R409 to R411), their pieces and their
completion. -/

namespace Sys2Proof.Machine

open Sys2Proof

/-! ## Kinds -/

/-- Bytes that a move reads and writes. -/
def BdKind.srcW : BdKind → Nat
  | .gather => 4
  | .scat => 4
  | .red ty _ => ty.width / 8
  | .conv _ src => src.width / 8
def BdKind.dstW : BdKind → Nat
  | .gather => 4
  | .scat => 4
  | .red ty _ => ty.width / 8
  | .conv dst _ => dst.width / 8
def BdKind.isRed : BdKind → Bool
  | .red _ _ => true
  | .gather => false
  | .scat => false
  | .conv _ _ => false
def BdKind.isGather : BdKind → Bool
  | .gather => true
  | .scat => false
  | .red _ _ => false
  | .conv _ _ => false

/-- Whether a page may be accessed (R84). -/
def BdKind.pageOk (k : BdKind) (l : Leaf) : Bool := match k with
  | .gather => l.kind != 2
  | .scat => l.kind != 2
  | .red _ _ => l.kind == 0 && !l.cmp
  | .conv _ _ => l.kind == 0 && !l.cmp

/-- The access that a command makes at its destination. -/
def BdKind.acc : BdKind → AccType
  | .red _ _ => .atomic
  | .gather => .write
  | .scat => .write
  | .conv _ _ => .write

/-! ## Commands in flight -/

def bdOf (s : State) (op : Nat) : Option BdCmd := s.eng.bds.find? (·.op == op)
def putBd (c : BdCmd) (s : State) : State := { s with eng := { s.eng with bds := s.eng.bds.map fun x => if x.op = c.op then c else x } }
def dropBd (op : Nat) (s : State) : State := { s with eng := { s.eng with bds := s.eng.bds.filter (·.op != op) } }

/-- The command is done: its counter falls (R82). -/
def endBd (c : BdCmd) (s : State) : State := opDone c.g c.op (dropParts c.op (dropBd c.op s))

/-- Cancel the unperformed pieces and make a trap due (R134, R158, R166). -/
def cancelBd (c : BdCmd) (t : Trap) (s : State) : State :=
  dueTrap c.g c.ctx c.vf c.core { t with restart := false, named := some (c.pc, c.mask, false, c.pc) } (endBd c s)

/-! ## Translation (R148, R84) -/

/-- What the translation of a command's moves finds, in their order: the first page that breaks R84 and the first error in a page table, each
with its address, physical address and KIND (R162), the Nak of the error, and the pages that fault. -/
structure BdLook where
  bad : Option (W64 × Nat × Nat)
  err : Option (W64 × Msg × Nat)
  faults : List FPage
  deriving DecidableEq, Repr

def bdScan (s : State) (c : BdCmd) (ms : List BdMove) : BdLook :=
  ms.foldl (fun r m =>
    let look := fun (r : BdLook) (va : W64) (a : AccType) (kind : Nat) => match probe s (.core c.core) c.ctx a va with
      | .ok pa l => if c.kind.pageOk l then r else { r with bad := some (r.bad.getD (va, pa, kind)) }
      | .fault cause =>
        let p : FPage := (pageOf va a.code cause)
        if r.faults.any p.same || 33 ≤ r.faults.length then r else { r with faults := r.faults ++ [p] }
      | .nak n => { r with err := some (r.err.getD (va, n, kind)) }
      | .wait => r
    look (look r (BitVec.ofNat 64 m.src) .read 3) (BitVec.ofNat 64 m.dst) c.kind.acc 4) ⟨none, none, []⟩

/-- The touched-dies bits of the walks that a command's translation takes (R17). -/
def bdWalks (s : State) (c : BdCmd) (ms : List BdMove) : Nat :=
  ((ms.flatMap fun m => [m.src, m.dst]).map (· / 4096)).eraseDups.foldl
    (fun b p => b ||| walkBits s (.core c.core) c.ctx (BitVec.ofNat 64 (p * 4096))) 0

/-- What the translation of a command's moves comes to: the moves, a Nak met in a page table with its address and KIND, or not yet. -/
inductive BdX where
  | ok (ms : List BdMove) (s : State) | nak (va : W64) (m : Msg) (kind : Nat) (s : State) | wait

/-- Translate every move of a command whose pages do not fault. -/
def bdXlat (c : BdCmd) : List BdMove → State → BdX
  | [], s => .ok [] s
  | m :: r, s => match translate (.core c.core) c.ctx .read (BitVec.ofNat 64 m.src) s with
    | (.nak n, s) => .nak (BitVec.ofNat 64 m.src) n 3 s
    | (.fault _, _) => .wait
    | (.wait, _) => .wait
    | (.ok sp sl, s) => match translate (.core c.core) c.ctx c.kind.acc (BitVec.ofNat 64 m.dst) s with
      | (.nak n, s) => .nak (BitVec.ofNat 64 m.dst) n 4 s
      | (.fault _, _) => .wait
      | (.wait, _) => .wait
      | (.ok dp dl, s) => match bdXlat c r (touch c.ctx sp (touch c.ctx dp s)) with
        | .ok ms s =>
          .ok ({ m with src := sp, dst := dp, heat := (sl.heat, dl.heat), gsz := (sl.grain, dl.grain), sva := m.src, dva := m.dst } :: ms) s
        | x => x

/-- Mark the moves of a piece that are the first in the grain of their source or destination: a piece touches a grain once (R71). -/
def markFirst (seen : List Nat × List Nat) : List BdMove → List BdMove
  | [] => []
  | m :: r =>
    let g := m.src / max m.gsz.1 1 * m.gsz.1
    let h := m.dst / max m.gsz.2 1 * m.gsz.2
    { m with first := (!seen.1.contains g, !seen.2.contains h) } :: markFirst (g :: seen.1, h :: seen.2) r

/-- Split moves at the 4 KiB pages of the routing side (R82). -/
def bdSplit (k : BdKind) (ms : List BdMove) : List (Nat × List BdMove) :=
  let page := fun m : BdMove => (if k.isGather then m.src else m.dst) / 4096
  let ps := (ms.map page).eraseDups
  (List.range ps.length).zip ps |>.map fun (n, p) => (n, markFirst ([], []) (ms.filter fun m => page m == p))

/-- What sending a command comes to. -/
inductive BdSend where
  | sent (s : State) | refuse (t : Trap) (s : State) | due (t : Trap) (s : State) | wait (s : State)
  deriving DecidableEq, Repr

/-- PROT, CAUSE 3 (R84). -/
def kindTrap (va : W64) (pa kind : Nat) : Trap := ⟨.prot, accessWords va 0 pa 0 3 false kind 0, true, none⟩

/-- Translate a command and send its pieces; a page that faults holds the whole command on a token (R148, R156). -/
def sendBd (c : BdCmd) (s : State) : BdSend :=
  let r := bdScan s c c.todo
  let s := setTdm c.ctx (bdWalks s c c.todo) s
  match r.bad, r.err with
  | some (va, pa, kind), _ => .refuse (kindTrap va pa kind) s
  | none, some (va, n, kind) => .due (nakTrap n va 0 0 0 kind false false none) s
  | none, none => match r.faults with
    | p :: ps =>
      let (t, s) := postBatch c.vf c.ctx 3 c.core 0 (p :: ps) (.bd c.op) s
      .sent (putBd { c with stopped := some t } s)
    | [] => match bdXlat c c.todo s with
      | .wait => .wait s
      | .nak va n kind s => .due (nakTrap n va 0 0 0 kind false false none) s
      | .ok ms s =>
        let ps := bdSplit c.kind ms
        let s := putBd { c with todo := [], pieces := ps, stopped := none } s
        .sent (if ps.isEmpty then post 0 (.bdCommandComplete c.op) s else postAll (ps.map fun p => .bdPieceApply c.op p.1) s)

/-- Send again after a replay (R157). -/
def resendBd (c : BdCmd) (s : State) : State :=
  match sendBd { c with stopped := none } (putBd { c with stopped := none } s) with
  | .sent s => s
  | .refuse t s => cancelBd c t s
  | .due t s => cancelBd c t s
  | .wait s => post 1 (.bdCommandComplete c.op) s

/-! ## Pieces (R82, R83) -/

/-- The die of a routing address, in the TDM layout, whose halt stops its engine (R167). -/
def bdDie (pa : Nat) : Nat := match spaceOf pa with
  | .hbm => 5 + stackOf pa
  | .comp => 5 + stackOf pa
  | .pool => 4
  | .host => 4
  | .pad => 4

/-- Set the unperformed moves of a piece; a piece without any has completed. -/
def setPiece (op n : Nat) (ms : List BdMove) (s : State) : State := match bdOf s op with
  | none => s
  | some c =>
    let ps := if ms.isEmpty then c.pieces.filter (·.1 != n) else mapIf (·.1 == n) (fun _ => (n, ms)) c.pieces
    let s := putBd { c with pieces := ps } s
    if ps.isEmpty then post 0 (.bdCommandComplete op) s else s

/-- Whether another piece of a command than `n` still has moves whose values are architected: those whose values are not come after all of them, so that
none reads what they have written (R410). -/
def BdCmd.keepsOn (c : BdCmd) (n : Nat) : Bool := c.pieces.any fun p => p.1 != n && p.2.any fun m => !m.lost

/-- Serve the moves of a piece in order until one must wait. -/
def serveMoves (op n : Nat) : List BdMove → State → State
  | [], s => setPiece op n [] s
  | m :: r, s => match bdOf s op with
    | none => s
    | some c =>
      let stay := fun s => post 1 (.bdPieceApply op n) (setPiece op n (m :: r) s)
      let cut := fun (msg : Msg) (kind va pa : Nat) (s : State) =>
        cancelBd c (nakTrap { msg with req := c.core } (BitVec.ofNat 64 va) 0 pa 0 kind c.applied false none) s
      let who := partKey op n
      if m.lost && c.keepsOn n then stay s else
      match accessNow ⟨who, c.core, c.ctx, c.vf, m.heat.1, m.gsz.1, !m.first.1⟩ m.src c.kind.srcW none s with
      | .wait s => stay s
      | .nak msg s => cut msg 3 m.sva m.src s
      | .ok bs s => match c.kind with
        | .red ty rop =>
          let grain := m.dst / max m.gsz.2 1 * m.gsz.2
          match giveUp c.core grain m.gsz.2 true s with
          | (false, s) => stay s
          | (true, s) =>
          let (tag, s) := fresh s
          let q := { agentMsg c.core grain m.gsz.2 c.ctx c.vf tag m.heat.2 with write := !m.first.2 }
          let s := putBd { c with tags := c.tags ++ [(n, tag)] } (setPiece op n (m :: r) s)
          post 0 (.bdReductionElement { q with frm := 256 + c.core, off := m.dst - grain, data := bs, ty := ty, aop := rop }) s
        | k =>
          let v := match k with
            | .conv dst src => toBytes (dst.width / 8) (convert src dst .rne 0 (ofBytes bs))
            | _ => bs
          let v := slice 0 (if m.lost then (List.range v.length).map fun i => Config.convByte s.free (m.dst + i) else v) m.part.1 m.part.2
          match accessNow ⟨who, c.core, c.ctx, c.vf, m.heat.2, m.gsz.2, !m.first.2⟩ (m.dst + m.part.1) m.part.2 (some v) s with
          | .wait s => stay s
          | .nak msg s => cut msg 4 m.dva m.dst s
          | .ok _ s => serveMoves op n r s

/-- BD_PIECE_APPLY (R82): the server of the routing page performs the piece; a reduction element waits at its home for its answer. -/
def execBdPieceApply (op piece : Nat) (s : State) : Host.Outcome State Fault Refusal := match bdOf s op with
  | none => .next s
  | some c => match c.pieces.find? (·.1 == piece) with
    | none => .next s
    | some (_, ms) =>
      let route := (ms.head?.map fun m => if c.kind.isGather then m.src else m.dst).getD 0
      if c.tags.any (·.1 == piece) || dieStopped s (bdDie route) then .next s
      else .next (serveMoves op piece ms { s with free := s.free + 1 })

/-- The home has applied a reduction element: the piece goes on. -/
def bdAnswer (c : BdCmd) (tag : Nat) (s : State) : State := match c.tags.find? (·.2 == tag) with
  | none => s
  | some (n, _) =>
    let ms := ((c.pieces.find? (·.1 == n)).map (·.2)).getD []
    let s := putBd { c with tags := c.tags.filter (·.2 != tag), applied := true } s
    post 0 (.bdPieceApply c.op n) (setPiece c.op n (ms.drop 1) s)

/-- BD_COMMAND_COMPLETE (R82): the counter falls when every piece is done; a command whose translation had to wait is sent again. -/
def execBdCommandComplete (op : Nat) (s : State) : Host.Outcome State Fault Refusal := match bdOf s op with
  | none => .next s
  | some c =>
    if !c.todo.isEmpty then .next (if c.stopped.isSome then s else resendBd c s)
    else if c.pieces.isEmpty then .next (endBd c s) else .next s

/-! ## The instructions (R410, R411) -/

/-- Read n list entries of w bytes each. -/
def readList (x : Iss) (w : Nat) (n : Nat) (va : W64) (s : State) : Got := go (n * w + 1) va (n * w) s
where
  /-- Some bytes, page by page. -/
  go : Nat → W64 → Nat → State → Got
    | 0, _, _, s => .ok [] s
    | fuel + 1, va, n, s =>
      if n = 0 then .ok [] s else
      let k := min n (4096 - va.toNat % 4096)
      match readAt (.core x.core) (groupKey x.g) x.ctx va k s with
      | .ok bs s => (match go fuel (va + BitVec.ofNat 64 k) (n - k) s with
        | .ok rest s => .ok (bs ++ rest) s
        | r => r)
      | r => r

/-- Entry i of a list. -/
def idxAt (bs : List Byte) (w i : Nat) : Nat := ofBytes (slice 0 bs (i * w) w)

/-- The moves of n rows of `words` words of w bytes: row i from `src i`, to `dst i`. -/
def rowMoves (n words w : Nat) (src dst : Nat → Nat) : List BdMove :=
  (List.range n).flatMap fun i => (List.range words).map fun e => ⟨(src i + e * w) % 2 ^ 64, (dst i + e * w) % 2 ^ 64, (false, false), (128, 128), (true, true), (0, w), false, 0, 0⟩

/-- Of several rows that name one destination word, keep one (R410). -/
def keepOne (draw : Nat) (ms : List BdMove) : List BdMove := ms.filter fun m =>
  let same := ms.filter (·.dst == m.dst)
  same[Config.scatterPick draw m.dst % same.length]? == some m

/-- The bytes, as the first and their number, of w bytes at `d` that lie in n bytes at `a`. -/
def common (d w a n : Nat) : Nat × Nat := (max d a - d, min (d + w) (a + n) - max d a)

/-- The moves of a conversion (R410): the bytes of a destination that overlap the sources have a move of their own, whose values are not
architected, after the others. -/
def convMoves (n ws wd sa da : Nat) : List BdMove :=
  let same := sa = da ∧ ws = wd
  let move := fun (i : Nat) (part : Nat × Nat) (lost : Bool) =>
    (⟨(sa + i * ws) % 2 ^ 64, (da + i * wd) % 2 ^ 64, (false, false), (128, 128), (true, true), part, lost, 0, 0⟩ : BdMove)
  let meet := fun i => if same then (0, 0) else common (da + i * wd) wd sa (n * ws)
  let kept := (List.range n).flatMap fun i =>
    let (o, k) := meet i
    [move i (0, if k = 0 then wd else o) false, move i (o + k, if k = 0 then 0 else wd - (o + k)) false].filter (·.part.2 != 0)
  kept ++ ((List.range n).filter fun i => (meet i).2 != 0).map fun i => move i (meet i) true

/-- The first 4-byte word of n rows at `base`, which only registers name, whose address is not canonical. -/
def badRow4 (base : W64) (n row : Nat) : Option W64 :=
  if n = 0 ∨ (canonical base ∧ canonical (base + BitVec.ofNat 64 (n * row - 1)) ∧ base.toNat / 2 ^ 63 = (base + BitVec.ofNat 64 (n * row - 1)).toNat / 2 ^ 63)
  then none else ((List.range (n * row / 4)).map fun i => base + BitVec.ofNat 64 (4 * i)).find? fun a => !canonical a

/-- The checks of R411, those that need no list first (R164), the read of the list, and the sending of the command. -/
def bdBody (kind : BdKind) (kd ka : Nat) (kl : Option Nat) (kc iw row : Nat) (moves : Nat → Nat → Nat → List Byte → State → List BdMove)
    (x : Iss) (s : State) : Res :=
  let n := (kget x.grp kc).toNat
  let da := kget x.grp kd
  let sa := kget x.grp ka
  if acquiring x || decide (255 ≤ cnt x.grp 5) then .stall
  else if 65536 < n then .trap (accessTrap .prot 0 0 0 0 0) s
  else if da.toNat % kind.dstW ≠ 0 then .trap (accessTrap .align da 0 0 0 4) s
  else if sa.toNat % kind.srcW ≠ 0 then .trap (accessTrap .align sa 0 0 0 3) s
  else if kl.any fun k => (kget x.grp k).toNat % iw ≠ 0 then .trap (accessTrap .align (kget x.grp (kl.getD 0)) 0 0 0 3) s
  else
    let go := fun (list : List Byte) (s : State) =>
      let ms := moves n sa.toNat da.toNat list s
      match ms.find? fun m => !canonical (BitVec.ofNat 64 m.src) || !canonical (BitVec.ofNat 64 m.dst) with
      | some m =>
        let src := !canonical (BitVec.ofNat 64 m.src)
        canonDue x (BitVec.ofNat 64 (if src then m.src else m.dst)) (if src then 3 else 4) s
      | none =>
        let (op, s) := fresh s
        let c : BdCmd := ⟨op, x.g, x.core, x.ctx, x.vf, kind, ms, [], [], false, none, x.ent.pc, x.mask⟩
        let s := { s with free := s.free + 1, eng := { s.eng with bds := s.eng.bds ++ [c] } }
        match sendBd c (modGrp x.g (rise 5 op) s) with
        | .sent s => .next s
        | .refuse t s => .trap t (modGrp x.g (fun _ => x.grp) (dropBd op s))
        | .due t s => .next (cancelBd c t s)
        | .wait s => stallWith x (dropBd op s)
    match kl with
    | none => go [] s
    | some k =>
      if n ≠ 0 ∧ (¬ canonical (kget x.grp k + BitVec.ofNat 64 (n * iw - 1)) ∨ ¬ canonical (kget x.grp k))
      then canonDue x (kget x.grp k) 3 s
      else match badRow4 (if kind.isGather then da else sa) n row with
      | some va => canonDue x va (if kind.isGather then 4 else 3) s
      | none => match readList x iw n (kget x.grp k) s with
        | .fault p s => .fault p s
        | .wait s => stallWith x s
        | .nak m va pa s => recNak x m va pa s
        | .ok bs s => go bs s

/-- The bytes of an index. -/
def idxW (iw : Bool) : Nat := if iw then 8 else 4

def execBdgather (kd ka kl kc rsz : Nat) (iw : Bool) (s : State) : Host.Outcome State Fault Refusal :=
  issue (sigBdgather kd ka kl kc rsz iw) noPre (bdBody .gather kd ka (some kl) kc (idxW iw) (4 * (rsz + 1)) fun n sa da list _ =>
    rowMoves n (rsz + 1) 4 (fun i => sa + idxAt list (idxW iw) i * (4 * (rsz + 1))) (fun i => da + i * (4 * (rsz + 1)))) s

def execBdscat (kd ka kl kc rsz : Nat) (iw : Bool) (s : State) : Host.Outcome State Fault Refusal :=
  issue (sigBdscat kd ka kl kc rsz iw) noPre (bdBody .scat kd ka (some kl) kc (idxW iw) (4 * (rsz + 1)) fun n sa da list s =>
    keepOne s.free (rowMoves n (rsz + 1) 4 (fun i => sa + i * (4 * (rsz + 1)))
      (fun i => da + idxAt list (idxW iw) i * (4 * (rsz + 1))))) s

def execBdred (ty : Ty) (kd ka : Nat) (kl : Option Nat) (kc rsz : Nat) (iw : Bool) (rop : Nat) (s : State) :
    Host.Outcome State Fault Refusal :=
  issue (sigBdred ty kd ka kl kc rsz iw rop) noPre (bdBody (.red ty rop) kd ka kl kc (idxW iw) (4 * (rsz + 1)) fun n sa da list _ =>
    let r := 4 * (rsz + 1)
    let w := ty.width / 8
    rowMoves n (r / w) w (fun i => sa + i * r) (fun i => da + (if kl.isSome then idxAt list (idxW iw) i else i) * r)) s

def execBdconv (ty src : Ty) (kd ka kc : Nat) (s : State) : Host.Outcome State Fault Refusal :=
  issue (sigBdconv ty src kd ka kc) noPre (bdBody (.conv ty src) kd ka none kc 1 0 fun n sa da _ _ =>
    convMoves n (src.width / 8) (ty.width / 8) sa da) s

end Sys2Proof.Machine
end

