-- ==== Sys2Proof/Machine/Issue.lean ====
section
/-! DEFINITION. What can come next: the events that are due, and for every issue slot the live entry that R182, R183 and R226
select; the fetch of its instruction (R309 to R311, R325); and the choice among these moves. -/

namespace Sys2Proof.Machine

open Sys2Proof

/-! ## Readiness (R181, R226) -/

/-- Whether the slot's open chain goes on with its next word (R240). -/
def chainOpen (s : State) (b : Block) (e : Entry) : Bool := decide (0 < e.chain ∧ e.chain < 3) && chainGoesOn s b.core b.ctx b.id e.pc

/-- Whether a group issues at all: not one that waits on a fault or whose run-ahead is over, nor one of a stopped context, nor one on a die that is
halted or lost: there the traps that are due, DIE.LOST among them, wait for the die's reset (DESIGN CHOICE, log entry 134). -/
def mayIssue (s : State) (b : Block) (g : Group) : Bool :=
  (b.state == .resident || b.state == .halting) && !g.exited && g.faultWait.isNone && !((ctxOf s b.ctx).all fun c => c.cst == 3) &&
    !dieStopped s (coreDie b.core) && g.ahead.all fun r => decide (r.passed < 256)

/-- The live slots of a group from which it may issue: in handler mode the trapping path alone, in run-ahead the faulting one. -/
def lowsOf (g : Group) : List Bool := [false, true].filter fun low =>
  (liveEntry g low).isSome && (g.handler.all fun h => g.stack.length != h.depth || low == h.low) && (g.ahead.all fun r => r.low == low)

/-- Those of them with an open chain, be its next instruction able to issue or not (R183, R240). -/
def chainLows (s : State) (b : Block) (g : Group) : List Bool :=
  if mayIssue s b g then (lowsOf g).filter fun low => (liveEntry g low).any (chainOpen s b) else []

/-- Whether a live entry neither waits nor has just found that its instruction cannot issue yet. -/
def entryReady (s : State) (b : Block) (g : Group) (low : Bool) : Bool :=
  (liveEntry g low).any (·.wait == .none) && !s.tried.contains ⟨b.id, g.gid, low⟩

/-- Whether an entry that is not the bottom one has reached its RPC (R225). -/
def atJoin (g : Group) (low : Bool) (e : Entry) : Bool := e.pc == e.rpc && decide ((if low then 2 else 1) < g.stack.length)

/-- Which of two ready live slots goes next: one that has reached its RPC, so that it is removed before its sibling can push over it (R225; DEDUCED, log
entry 145), else the one whose turn it is (R226). -/
def nextLow (g : Group) : Bool := ([false, true].find? fun low => (liveEntry g low).any (atJoin g low)).getD g.turn

/-- The live slots of a group that are ready to issue: within a chain the chain's alone, in a halting block nothing else (R186), and when both are
ready one of them. -/
def readyLows (s : State) (b : Block) (g : Group) : List Bool :=
  if !mayIssue s b g then [] else
  let ok := (lowsOf g).filter (entryReady s b g)
  match chainLows s b g with
  | low :: _ => if ok.contains low then [low] else []
  | [] => if b.state != .resident then [] else if ok.length = 2 then [nextLow g] else ok

/-- A group that holds an item of its shard's current floor bucket (R182, R198). -/
def holdsFloor (s : State) (b : Block) (g : Group) : Bool :=
  match g.wlBound.bind fun w => (wlOf s w).bind fun w => shardIn w b.core with
  | some sh => sh.holds.any fun h => h.1 == b.id && h.2.1 == g.gid && h.2.2.1 == sh.f
  | none => false

/-- The block, group and slot that a selection compares. -/
structure Cand where
  ref : GRef
  blk : Block
  grp : Group
  prio : Nat
  deriving DecidableEq, Repr

/-- Whether `a` goes before `c` in their issue slot (R182). -/
def goesBefore (s : State) (a c : Cand) : Bool :=
  let wa := s.mcyc - a.grp.waitFrom
  let wc := s.mcyc - c.grp.waitFrom
  let lim := 1024000
  if (lim ≤ wa ∨ lim ≤ wc) ∧ wa ≠ wc then decide (wc < wa)
  else if a.prio ≠ c.prio then decide (c.prio < a.prio)
  else if holdsFloor s a.blk a.grp ≠ holdsFloor s c.blk c.grp then holdsFloor s a.blk a.grp
  else if a.blk.since ≠ c.blk.since then decide (a.blk.since < c.blk.since)
  else if a.grp.gid ≠ c.grp.gid then decide (a.grp.gid < c.grp.gid)
  else decide (a.grp.ridx ≤ c.grp.ridx)

def candsOf (s : State) : List Cand :=
  s.blocks.flatMap fun b => b.groups.flatMap fun g => (readyLows s b g).map fun low =>
    ⟨⟨b.id, g.gid, low⟩, b, g, ((launchOf s b.launch).map (·.prio)).getD 0⟩

/-- The issue slot of a candidate (R182). -/
def slotOf (c : Cand) : Nat := c.blk.core * 4 + c.grp.ridx % 4

/-- The issue slots that a group within a chain keeps (R183, R240), ready or not. -/
def keptSlots (s : State) : List Nat := s.blocks.flatMap fun b => (b.groups.filter fun g => !(chainLows s b g).isEmpty).map fun g => b.core * 4 + g.ridx % 4

/-- The candidates of slots that no other group keeps. -/
def admitted (s : State) : List Cand :=
  let kept := keptSlots s
  (candsOf s).filter fun c => !kept.contains (slotOf c) || !(chainLows s c.blk c.grp).isEmpty

/-- Whether a candidate is the one that its issue slot selects. -/
def winner (s : State) (cs : List Cand) (c : Cand) : Bool :=
  cs.all fun d => slotOf d != slotOf c || d.ref == c.ref || goesBefore s c d

def winners (s : State) : List Cand := let cs := admitted s; cs.filter (winner s cs)

/-! ## Moves -/

/-- What a step does: an event that is due, an issue, or the passing of time. -/
inductive Move where
  | event (n : Nat) (e : Instr) | issue (g : GRef) | idle
  deriving DecidableEq, Repr

/-- Whether an event cannot happen now: the module has no power (R34), the core's or the home's die is halted by a debugger (R167) or lost, or
what is done on the I/O die or through it while that is lost (R21). -/
def heldBack (s : State) : Instr → Bool
  | .moduleReset => false
  | .fwds m => dieOff m
  | .fwdx m => dieOff m
  | .inv m => dieOff m
  | .upd m => dieOff m
  | .binv m => dieOff m
  | .data m => dieOff m
  | .nak m => dieOff m
  | .commitAck m => dieOff m
  | .wback m => dieOff m
  | .ackWithGrant m => dieOff m
  | .evc m => homeOff m.pa
  | .wbd m => homeOff m.pa
  | .ack m => homeOff m.pa
  | .cfl m => homeOff m.pa
  | .updateCommit grain => homeOff grain
  | .windowClose page => homeOff (page * 4096)
  | .switchingComplete page => homeOff (page * 4096)
  | .regionEntryEvict page => homeOff (page * 4096)
  | .compReadMiss page => homeOff (page * 4096)
  | .compWriteback page => homeOff (page * 4096)
  | .compWritebackRetry page => homeOff (page * 4096)
  | .flitReceive _ _ => hostOff
  | .portDown _ => hostOff
  | .portRetrain _ => hostOff
  | .spanMgtMessage _ => hostOff
  | .healthUpdate _ _ _ => hostOff
  | .healthSnapshot => hostOff
  | .hbmErrorWindow _ => hostOff
  | .msemLeaseExpiry => hostOff
  | .faultBatchPost _ => hostOff
  | .queueBlockServe _ => engineOff
  | .queueSerResume _ => engineOff
  | .queueWaitRecheck _ => engineOff
  | .queueNextRecheck _ => engineOff
  | .queueCompletionWrite _ => engineOff
  | .queueEngineNak _ _ => engineOff
  | .padSliceAccess _ n => !s.pkg.powered || dieStopped s (n / 64)
  | .accessReturn op => !s.pkg.powered || (s.eng.accs.any fun a => a.id == op && dieStopped s (coreDie a.core))
  | .hostAccess _ => hostOff
  | .hostSnoop _ _ => hostOff
  | .msemAcquire _ _ => hostOff
  | .msemRelease _ => hostOff
  | .msemLeaseWrite _ _ => hostOff
  | .msemExpdClear _ => hostOff
  | .mgmtErrorClear _ => hostOff
  | .policyWrite _ _ _ => hostOff
  | .partitionWrite _ _ _ => hostOff
  | .registerWrite _ _ _ _ => hostOff
  | .cmpstatRead _ _ => hostOff
  | .ubyozoErrcntRead _ _ => hostOff
  | .queueStart _ _ _ => hostOff
  | .queueStop _ _ _ => hostOff
  | .queueReset _ _ _ => hostOff
  | .ctsync _ _ => hostOff
  | .shoot _ _ => hostOff
  | .preempt _ _ => hostOff
  | .release _ _ => hostOff
  | .fqHeadWrite _ _ _ => hostOff
  | .fqReplay _ _ _ => hostOff
  | .fqKill _ _ _ => hostOff
  | .contextCreate _ _ _ _ => hostOff
  | .contextDestroy _ _ _ => hostOff
  | .dieHalt _ _ => hostOff
  | .dieHaltClear _ _ => hostOff
  | .dieReset _ _ => hostOff
  | .heatHalve _ => hostOff
  | .firmwareUpdate _ _ => hostOff
  | .spdmRequest _ => hostOff
  | _ => !s.pkg.powered
where
  dieOff (m : Msg) : Bool := !s.pkg.powered || (decide (m.dst < 160) && dieStopped s (coreDie m.dst)) ||
    (decide (160 ≤ m.dst ∧ m.dst < 512) && dieStopped s 4)
  homeOff (pa : Nat) : Bool := !s.pkg.powered || homeHalted s pa
  hostOff : Bool := !s.pkg.powered || s.pkg.lostDies.getLsbD 4
  engineOff : Bool := !s.pkg.powered || dieStopped s 4

/-- The due events with their places in the agenda. -/
def dueEvents (s : State) : List Move :=
  ((List.range s.agenda.length).zip s.agenda).filterMap fun (n, d) =>
    if d.time ≤ s.ns ∧ d.cyc ≤ s.mcyc ∧ ¬ heldBack s d.ev then some (.event n d.ev) else none

/-- The longest-waiting of the slots' candidates. -/
def longest : List Cand → Option Cand
  | [] => none
  | c :: r => match longest r with
    | none => some c
    | some d => if c.grp.waitFrom ≤ d.grp.waitFrom then some c else some d

/-- The move that the plain data `sched` selects; with none given, the first due event, else the candidate that has waited
longest since its last issue. -/
def pick (s : State) : Move :=
  let es := dueEvents s
  let cs := winners s
  match s.sched with
  | n :: _ => ((es ++ cs.map fun c => Move.issue c.ref)[n % max 1 (es.length + cs.length)]?).getD .idle
  | [] => match es with
    | e :: _ => e
    | [] => ((longest cs).map fun c => Move.issue c.ref).getD .idle

/-- After an attempt to issue: a live slot whose group is as it was waits until something else has happened, and does not count that time as ready,
unless its sibling path is (R181, R182). -/
def markTried (r : GRef) (before after : State) : State :=
  if grpOf after r ≠ grpOf before r then { after with tried := [] } else
  let s := { after with tried := before.tried ++ [r] }
  match blkOf s r.blk, grpOf s r with
  | some b, some g => if (readyLows s b g).isEmpty then modGrp r (fun g => { g with waitFrom := s.mcyc }) s else s
  | _, _ => s

/-- When an event of the agenda comes due at the clock in force (R3). -/
def dueTime (s : State) (d : Due) : Nat :=
  max d.time (s.ns + (d.cyc - s.mcyc + s.pkg.mhz - 1) / max s.pkg.mhz 1)

/-- The time to which an idle machine moves: the earliest event, or one nanosecond on. -/
def idleTo (s : State) : Nat :=
  let ts := (s.agenda.map (dueTime s)).filter fun t => decide (s.ns < t)
  ts.foldl min (ts.headD (s.ns + 1))

/-- The clock moves on by d nanoseconds. -/
def passTime (d : Nat) (s : State) : State :=
  { s with ns := s.ns + d, mcyc := s.mcyc + d * s.pkg.mhz, sched := s.sched.tail, pace := s.pace.tail, cur := none }

/-- The clock moves on by the nanoseconds that `pace` gives the step, one by default. -/
def tick (s : State) : State := passTime (s.pace.headD 1) s

/-! ## Fetch -/

/-- What the fetch of a live slot finds: something that comes before its instruction, or the instruction. -/
inductive Fetched where
  | join | event (e : Instr) | wait | word (i : Instr)
  deriving DecidableEq, Repr

/-- Whether a load of an entry's lanes has not returned: a join of the path waits for it (R133, R258). -/
def loadsOut (s : State) (r : GRef) (e : Entry) : Bool :=
  s.eng.accs.any fun a => a.g.blk == r.blk && a.g.gid == r.gid && a.kind.returns && a.mask &&& e.mask != 0

/-- The trap of a fetch that meets a Nak (R63, R165). -/
def fetchUe (r : GRef) (g : Group) (e : Entry) (m : Msg) (pa : Nat) : Instr :=
  if g.ahead.isSome then .runAheadEnd r else .trapDeliver r (nakTrap m e.pc 0 pa 0 0 false true none)

/-- The translation of a fetch; in run-ahead it changes no A bit and no TLB (R154). -/
def fetchXlat (b : Block) (g : Group) (e : Entry) (s : State) : Xlat × State :=
  if g.ahead.isSome then (probe s (.core b.core) b.ctx .fetch e.pc, setTdm b.ctx (walkBits s (.core b.core) b.ctx e.pc) s)
  else translate (.core b.core) b.ctx .fetch e.pc s

/-- The instruction that a live slot runs next, and the state after its translation. The group's control state, once filled (R193), a fill of the
stack and a trap that is due come before a join, and the join before the instruction. -/
noncomputable def fetch (r : GRef) (b : Block) (g : Group) (e : Entry) (s : State) : Fetched × State :=
  if b.absent.contains (.control g.gid) then (.wait, askFill b.id (.control g.gid) s)
  else if g.ahead.isNone && decide (g.onChip < min g.stack.length 3) then (.event (.stackFill r), s)
  else if g.ahead.isNone && g.handler.isNone && e.reissue.isNone && e.launching.isNone && (nextHeld g e).any (·.code != .debug) && !chainOpen s b e then (.event (.boundaryTrap r), s)
  else if atJoin g r.low e then (if g.ahead.isNone && loadsOut s r e then .wait else .join, s)
  else if !canonical e.pc then
    (.event (if g.ahead.isSome then .runAheadEnd r else .trapDeliver r (accessTrap .prot e.pc 0 0 2 0)), s)
  else
    let (x, t) := fetchXlat b g e s
    match fetchCode b.core b.ctx b.id e.pc x t with
    | (.wait _, u) => (.wait, u)
    | (.fault _, u) => (.event (if g.ahead.isSome then .runAheadEnd r else .fetchFault r), u)
    | (.nak m pa, u) => (.event (fetchUe r g e m pa), u)
    | (.ok bs, u) =>
      if (bs.headD 0).toNat % 4 = 3 then (.event (.padWordSkip (BitVec.ofNat 32 (ofBytes (bs.take 4)))), u)
      else match decodeAt (e.pc.toNat % 32) bs with
        | .ok (i, _) => (.word i, u)
        | .error _ => (.event (.illegalWord (illWord bs)), u)

/-- Remove a live entry that has reached its RPC (R225); a parent whose other path waits on its launches then waits as a whole (R176). -/
def popJoin (r : GRef) (s : State) : State := parentGives r.blk (modGrp r (fun g => match g.stack with
  | [] => g
  | t :: rest =>
    let on := if g.ahead.isSome then g.onChip else g.onChip - 1
    if r.low then { g with stack := { t with sib := false } :: rest.drop 1, onChip := on }
    else { g with stack := rest, onChip := on }) s)

end Sys2Proof.Machine
end

