-- ==== Sys2Proof/Machine/Matrix.lean ====
section
/-! DEFINITION. The matrix engine (R413 to R432, R281 to R287): accumulator windows and moves, matrix ops with their one rounding, l6 runs,
team ops and batches. An op is performed in one step, a memory move row by row. -/

namespace Sys2Proof.Machine

open Sys2Proof

/-! ## Operand types (R423) -/

/-- The matrix type of a type code of FMT. -/
def matTy (c : Nat) : Ty := match c with
  | 0x05 => .i8x4
  | 0x06 => .n8x4
  | 0x11 => .bf16x2
  | 0x12 => .f16x2
  | 0x14 => .e5m2x4
  | 0x15 => .l6
  | _ => .e4m3x4

def fmtA (f : W64) : Ty := matTy (bits f.toNat 5 0)
def fmtB (f : W64) : Ty := matTy (bits f.toNat 11 6)
def fmtScale (f : W64) : Bool := bits f.toNat 20 19 = 1

/-- The class of a matrix type: types pair within one class. -/
def matClass : Ty → Nat
  | .e4m3x4 => 0
  | .e5m2x4 => 0
  | .i8x4 => 1
  | .n8x4 => 1
  | .bf16x2 => 2
  | .f16x2 => 3
  | _ => 4

/-- K of an mma or mmat, and the registers of one operand. -/
def matK (t : Ty) : Nat := if t = .l6 then 64 else 8 * t.elems
def matRegs (t : Ty) : Nat := if t = .l6 then 12 else 8

/-- ILL of an op by its types (R423, R425, R281). -/
def badTypes (f : W64) (sc : Nat) (sparse : Bool) : Bool :=
  matClass (fmtA f) != matClass (fmtB f) || (sparse && fmtA f == .l6) || (fmtScale f && decide (2 ≤ matClass (fmtA f))) ||
    (!fmtScale f && sc != 0)

/-! ## Rows (R414, R243) -/

def rowBase (x : Iss) (r : RowOp) : Nat := ((r.base.map fun k => (kget x.grp k).toNat).getD 0) + r.e

/-- The lowest row outside the group's window, among c rows from r0. -/
def badRow (x : Iss) (r0 c : Nat) : Option Nat :=
  if r0 < x.grp.accBase ∨ x.grp.accLim ≤ r0 then some r0 else if x.grp.accLim < r0 + c then some x.grp.accLim else none

def windowTrap (row : Nat) : Trap := trapAt .accwin (row % 2 ^ 14)

/-- Whether a batch of another group of the block that has not completed owns one of the rows (R242, R415). -/
def rowsHeld (x : Iss) (r0 c : Nat) (s : State) : Bool :=
  ((blkOf s x.g.blk).map (·.groups)).getD [] |>.any fun g => g.gid != x.g.gid &&
    (g.batch :: g.closed).any fun b => !b.done && b.rows.any fun w => overlap w.1 w.2 r0 c

/-! ## Issue of an op -/

def putMops (core : Nat) (ops : List MOp) (s : State) : State :=
  { s with eng := { s.eng with mops := FMap.set [] s.eng.mops core ops } }
def coreMops (s : State) (core : Nat) : List MOp := FMap.get [] s.eng.mops core

/-- What the source lanes with a pending write hold at issue; under an ofence the op waits for the write instead (R269). -/
def oldLanes (x : Iss) (srcs : List Nat) : FMap W32 :=
  (srcs.filter fun r => decide (r < 1536) && x.grp.pend.any fun p => p.reg == r && !x.grp.marks.contains p.op).flatMap fun r =>
    lanes.map fun l => (64 * r + l, vget x.grp r l)

/-- An op joins the group's open batch and the engine's order (R415, R416). -/
def joinOp (x : Iss) (kind : MKind) (r0 c : Nat) (writes : Bool) (srcs dsts : List Nat) (s : State) : Res :=
  if rowsHeld x r0 c s then stallWith x s
  else if dsts.any fun r => pending x.grp r || x.grp.busy.any (·.reg == r) then stallWith x s
  else if x.grp.batch.nops = 4096 ∧ 255 ≤ cnt x.grp 4 then stallWith x s
  else
    let s := if x.grp.batch.nops = 4096 then closeBatch x.g s else s
    let (op, s) := fresh s
    let num := ((grpOf s x.g).map (·.nextBatch)).getD 0
    let old := oldLanes x srcs
    let o : MOp := ⟨op, x.g, x.ctx, x.vf, kind, r0, c, x.ent.fmt, num,
      (x.grp.pend.filter fun p => srcs.contains p.reg && x.grp.marks.contains p.op).map (·.op), old, s.free, 0, 0, true, false, none, x.ent.pc, x.mask⟩
    let o := { o with started := !o.isTeam }
    let s := { putMops x.core (coreMops s x.core ++ [o]) s with free := s.free + 1 }
    let s := modGrp x.g (fun g =>
      let g := modEntries (invalidate dsts) g
      { g with
        batch := { g.batch with nops := g.batch.nops + 1, rows := if writes then g.batch.rows ++ [(r0, c)] else g.batch.rows }
        busy := g.busy ++ srcs.map fun r => ⟨r, op⟩
        pend := g.pend ++ dsts.map fun r => ⟨r, op⟩ }) s
    .next (post 0 (.matrixOpComplete x.core) s)

/-! ## The instructions -/

def execAccwin (kg kb kl : Nat) (s : State) : Host.Outcome State Fault Refusal :=
  issue (sigAccwin kg kb kl) noPre (fun x s =>
    let gid := (kget x.grp kg).toNat
    let lo := (kget x.grp kb).toNat
    let hi := (kget x.grp kl).toNat
    if x.g.gid ≠ 0 ∨ x.lrec.gpb < gid ∨ hi < lo ∨ 8 * x.lrec.accr < hi then .trap (windowTrap lo) s
    else .next (modGrp ⟨x.g.blk, gid, false⟩ (fun g => { g with accBase := lo % 2 ^ 14, accLim := hi % 2 ^ 15 }) s)) s

def execAccz (r : RowOp) (c : Nat) (s : State) : Host.Outcome State Fault Refusal :=
  issue (sigAccz r c) noPre (fun x s => match badRow x (rowBase x r) c with
    | some n => .trap (windowTrap n) s
    | none => joinOp x .accz (rowBase x r) c true [] [] s) s

/-- The memory form of an accumulator move (R420): the record's checks, then the window's. -/
def moveOp (x : Iss) (krec : Nat) (r : RowOp) (load : Bool) (esz : Nat) (f : TRec → State → Res) (s : State) : Res :=
  withRec x (kget x.grp krec) (fun t s =>
    match recChecks x (kget x.grp krec) t [if load then srcSide t else dstSide t] none s with
    | some tr => .trap tr s
    | none =>
      if t.n.headD 0 ≠ 63 ∨ t.n.getD 2 0 ≠ 0 ∨ t.n.getD 3 0 ≠ 0 ∨ t.esz ≠ esz then .trap (recTrap .prot x (kget x.grp krec) s) s
      else match badRow x (rowBase x r) (t.n.getD 1 0 + 1) with
        | some n => .trap (windowTrap n) s
        | none => f t s) s

def execAccld (r : RowOp) (krec : Nat) (s : State) : Host.Outcome State Fault Refusal :=
  issue (sigAccld r krec) noPre (fun x s => moveOp x krec r true 2 (fun t s =>
    joinOp x (.accld t) (rowBase x r) (t.n.getD 1 0 + 1) true [] [] s) s) s

def execAccst (krec : Nat) (r : RowOp) (s : State) : Host.Outcome State Fault Refusal :=
  issue (sigAccst krec r) noPre (fun x s => moveOp x krec r false 2 (fun t s =>
    joinOp x (.accst t) (rowBase x r) (t.n.getD 1 0 + 1) false [] [] s) s) s

/-- The draws of accout under SR: c words in every lane (R421); the modes of a conversion to l6 mean R284, which draws nothing. -/
def accDraws (x : Iss) (ty : Ty) (mod c : Nat) (s : State) : List (List Nat) × State :=
  if ty = .l6 then ([], s) else
  let r := srDraws x (effRnd mod x.ent.fmt) c lanes s
  (lanes.map fun l => FMap.get [] r.1 l, r.2)

/-- Draw, then join; an op that stalls draws nothing. -/
def drawJoin (x : Iss) (ty : Ty) (mod c : Nat) (join : List (List Nat) → State → Res) (s : State) : Res :=
  let r := accDraws x ty mod c s
  join r.1 r.2

def execAccout (h : Hdr) (d : AccDst) (r : RowOp) (c : Nat) (s : State) : Host.Outcome State Fault Refusal :=
  issue (sigAccout h d r c) noPre (fun x s => match d with
    | .reg n =>
      if vregsOf x.lrec x.grp < n + c / h.ty.elems then .trap (trapAt .xreg 0) s
      else match badRow x (rowBase x r) c with
        | some n => .trap (windowTrap n) s
        | none => drawJoin x h.ty h.mod c (fun ws s =>
            joinOp x (.accoutReg n h.ty h.mod ws) (rowBase x r) c false [] (span n (c / h.ty.elems)) s) s
    | .mem k => moveOp x k r false (Nat.log2 (4 / h.ty.elems)) (fun t s => drawJoin x h.ty h.mod (t.n.getD 1 0 + 1) (fun ws s =>
        joinOp x (.accoutMem t h.ty h.mod ws) (rowBase x r) (t.n.getD 1 0 + 1) false [] [] s) s) s) s

/-- The early check of a matrix op: ILL by its types. -/
def matPre (i : Sig) (sc : Nat) (sparse : Bool) (x : Iss) (_ : State) : Option Trap :=
  if badTypes x.ent.fmt sc sparse then some (illOf i) else none

/-- The registers of an op's operands: A with its metadata, B, and the scale register. -/
def matSrcs (f : W64) (a b sc : Nat) (sparse useB : Bool) : List Nat :=
  codeSpan a (if sparse then 10 else matRegs (fmtA f)) ++
    (if useB then codeSpan b (if sparse then 16 else matRegs (fmtB f)) else []) ++ (if fmtScale f then codeSpan sc 1 else [])

/-- XREG, ACCWIN, and the op joins. -/
def matBody (kind : MKind) (r : RowOp) (srcs : List Nat) (x : Iss) (s : State) : Res :=
  if srcs.any (beyondCode (vregsOf x.lrec x.grp)) then .trap (trapAt .xreg 0) s
  else match badRow x (rowBase x r) 64 with
    | some n => .trap (windowTrap n) s
    | none => joinOp x kind (rowBase x r) 64 true srcs [] s

def execMma (r : RowOp) (a b sc : Nat) (s : State) : Host.Outcome State Fault Refusal :=
  issue (sigMma r a b sc) (matPre (sigMma r a b sc) sc false) (fun x s =>
    matBody (.mma a b sc) r (matSrcs x.ent.fmt a b sc false true) x s) s

def execMmas (r : RowOp) (a b sc : Nat) (s : State) : Host.Outcome State Fault Refusal :=
  issue (sigMmas r a b sc) (matPre (sigMmas r a b sc) sc true) (fun x s =>
    matBody (.mmas a b sc) r (matSrcs x.ent.fmt a b sc true true) x s) s

/-- The team of a group, and whether a member has exited before it could supply its share number n (R427). -/
def teamOf (x : Iss) : Nat := x.grp.gid / (x.lrec.team + 1)
def teamBroken (x : Iss) (n : Nat) (s : State) : Bool := (blkOf s x.g.blk).any fun b =>
  b.broken.contains (teamOf x) || b.groups.any fun g => g.gid / (x.lrec.team + 1) == teamOf x && g.exited && decide (g.teamOps < n)

def execMmat (r : RowOp) (a b sc : Nat) (s : State) : Host.Outcome State Fault Refusal :=
  issue (sigMmat r a b sc)
    (fun x s => if x.lrec.team = 0 then some (illOf (sigMmat r a b sc)) else matPre (sigMmat r a b sc) sc false x s) (fun x s =>
    let n := x.grp.teamOps + 1
    let before := (coreMops s x.core).length
    match matBody (.mmat a b sc n none) r (matSrcs x.ent.fmt a b sc false (x.grp.gid % (x.lrec.team + 1) == 0)) x s with
    | .next s =>
      if (coreMops s x.core).length = before then .next s else
      let s := modGrp x.g (fun g => { g with teamOps := n }) s
      if teamBroken x n s then
        .next (putMops x.core (mapIf (fun o => o.g.blk == x.g.blk && o.g.gid == x.g.gid && o.isTeam && !o.started)
          (fun o => { o with noEffect := true, started := true }) (coreMops s x.core)) s)
      else .next (post 0 (.teamMmatStart x.g.blk (teamOf x)) s)
    | r => r) s

def execMfence (kd : Nat) (s : State) : Host.Outcome State Fault Refusal :=
  issue (sigMfence kd) noPre (fun x s =>
    if 255 ≤ cnt x.grp 4 then .stall
    else .next (writeK false kd (BitVec.ofNat 64 x.grp.nextBatch) x (closeBatch x.g s))) s

def execMwait (ka : Nat) (s : State) : Host.Outcome State Fault Refusal :=
  issue (sigMwait ka) noPre (fun x s =>
    let n := (kget x.grp ka).toNat
    if x.grp.closed.any fun b => decide (b.num ≤ n) && !b.done then
      .next (waitAfter x (.mwait (min n (x.grp.nextBatch - 1))) s)
    else .next s) s

/-- The status word of a batch (R430). -/
def batchWord (b : Batch) : W64 := BitVec.ofNat 64 ((if b.isOpen then 0 else b.num % 2 ^ 24) * 2 ^ 40 + b.nops * 2 ^ 27 + b.dops * 2 ^ 14 +
  b.isOpen.toNat * 64 + b.done.toNat * 32 + b.halt.toNat * 16 + b.teamErr.toNat * 8 + b.memErr.toNat * 4 + b.nar.toNat * 2 + b.novf.toNat)

def execMstat (kd : Nat) (ka : Option Nat) (s : State) : Host.Outcome State Fault Refusal :=
  issue (sigMstat kd ka) noPre (fun x s =>
    let v := match ka with
      | none => batchWord { x.grp.batch with done := x.grp.batch.nops != 0 && !opsLeft x.grp x.grp.nextBatch x.grp.batch }
      | some k =>
        let n := (kget x.grp k).toNat
        match x.grp.closed.find? fun b => b.num == n && decide (x.grp.nextBatch ≤ b.num + 16) with
        | some b => batchWord b
        | none => 0
    .next (writeK false kd v x s)) s

/-! ## Operand values (R424 to R426, R269) -/

/-- A lane of a source register: where a write was pending at issue, the value before it or the value after it, freely (R269). -/
def regLane (o : MOp) (g : Group) (off r l : Nat) : Nat :=
  match o.old.find? fun e => e.1 == off + 64 * r + l with
  | some (k, v) => if Config.mmaReadsNew o.draw k then (vget g r l).toNat else v.toNat
  | none => (vget g r l).toNat

/-- Lane l of the j-th register of the operand that a V code names (R314). The codes for zero, the lane index and a k register name one value, which
stands for every register of the operand (DESIGN CHOICE, log entry 144: R424 speaks of consecutive registers only). -/
def srcLane (o : MOp) (g : Group) (off code j l : Nat) : Nat :=
  if code < 1536 then regLane o g off (code + j) l
  else if code = 1540 then l
  else if code < 1600 then 0
  else (kget g (code - 1600)).toNat % 2 ^ 32

/-- Element k of a fragment of lane l, of an operand whose j-th register reads as `rd j`. -/
def fragElem (t : Ty) (rd : Nat → Nat → Nat) (k l : Nat) : Nat :=
  if t = .l6 then
    let r := 3 * (k / 16)
    let v := rd r l + 2 ^ 32 * rd (r + 1) l + 2 ^ 64 * rd (r + 2) l
    v / 2 ^ (6 * (k % 16)) % 64
  else elem t (rd (k / t.elems) l) (k % t.elems)

/-- An E8M0 scale (R281). -/
def scaleVal (b : Nat) : FVal := if b % 256 = 255 then .nan else .fin false 1 (((b % 256 : Nat) : Int) - 127)

/-- The product of two element codes under the scales of K block b, if scales are on. A product of integers has no signed zero (R282). -/
def scaledTerm (o : MOp) (ta tb : Ty) (a b : Nat) (sa sb : Nat) (blk : Nat) : FVal :=
  let t := FVal.mul (ta.value a) (tb.value b)
  let t := if matClass ta = 1 ∧ t.isZero then .fin false 0 0 else t
  if fmtScale o.fmt then FVal.mul (FVal.mul t (scaleVal (sa / 2 ^ (16 * blk)))) (scaleVal (sb / 2 ^ (16 * blk + 8))) else t

/-- The kept elements of a compressed A (R426) in lane l: (K index of B, code). -/
def sparseElems (t : Ty) (rd : Nat → Nat → Nat) (l : Nat) : List (Nat × Nat) :=
  (List.range 8).flatMap fun j =>
    let v := rd j l
    let m := rd (8 + j / 4) l / 2 ^ (8 * (j % 4)) % 256
    (List.range t.elems).map fun e =>
      let grp := if t.elems = 4 then 2 * j + e / 2 else j
      (4 * grp + m / 2 ^ (2 * e) % 4, elem t v e)

/-- The terms of output element (i, n) of an op. -/
def opTerms (o : MOp) (sparse : Bool) (rdA rdB : Nat → Nat → Nat) (sa sb : Nat → Nat) (i n : Nat) : List FVal :=
  let ta := fmtA o.fmt
  let tb := fmtB o.fmt
  let ks := if sparse then sparseElems ta rdA i else (List.range (matK ta)).map fun k => (k, fragElem ta rdA k i)
  ks.map fun (k, c) => scaledTerm o ta tb c (fragElem tb rdB k n) (sa i) (sb n) (k / 32)

/-- One rounding of the row plus the exact sum (R282). -/
def accSum (old : W32) (ts : List FVal) : W32 :=
  BitVec.ofNat 32 (roundF fmtF32 .rne 0 (FVal.add .rne (fmtF32.decode old.toNat) (FVal.sum .rne ts)))

/-- All the output elements of a 64-row op. -/
def outCells : List (Nat × Nat) := lanes.flatMap fun i => lanes.map fun n => (i, n)

/-- A non-l6 op on the rows of a block. -/
def denseOp (o : MOp) (sparse : Bool) (rdA rdB : Nat → Nat → Nat) (sa sb : Nat → Nat) (blk : Block) : Block :=
  outCells.foldl (fun bl (i, n) => accSet (o.r0 + i) n (accSum (accGet blk (o.r0 + i) n) (opTerms o sparse rdA rdB sa sb i n)) bl) blk

/-- The sum of an l6 op at (i, n), and whether a product was NaR (R285, R286). -/
def l6Sum (rdA rdB : Nat → Nat → Nat) (i n : Nat) : Int × Bool :=
  (List.range 64).foldl (fun (t : Int × Bool) k =>
    let p := l6Product (fragElem .l6 rdA k i) (fragElem .l6 rdB k n)
    (t.1 + p.1, t.2 || p.2)) (0, false)

/-- An l6 op on the narrow accumulators of its run, and whether one saturated. -/
def l6Op (rdA rdB : Nat → Nat → Nat) (r : Run) : Run × Bool :=
  outCells.foldl (fun (t : Run × Bool) (i, n) =>
    let (v, nar) := l6Sum rdA rdB i n
    let (w, sat) := sat32 ((FMap.get 0 t.1.acc (64 * i + n)).toInt + v)
    ({ t.1 with
        acc := FMap.set 0 t.1.acc (64 * i + n) (BitVec.ofInt 32 w)
        nar := if nar && !t.1.nar.contains (64 * i + n) then t.1.nar ++ [64 * i + n] else t.1.nar }, t.2 || sat)) ({ r with count := r.count + 1 }, false)

/-! ## Performing an op -/

/-- Whether an op is an l6 op of a run. -/
def MOp.isL6 (o : MOp) : Bool := match o.kind with
  | .mma _ _ _ => fmtA o.fmt == .l6
  | .mmat _ _ _ _ _ => fmtA o.fmt == .l6
  | .mmas _ _ _ => false
  | .accz => false
  | .accld _ => false
  | .accst _ => false
  | .accoutReg _ _ _ _ => false
  | .accoutMem _ _ _ _ => false

/-- Whether an op continues the group's open run. -/
def goesOn (o : MOp) (g : Group) : Bool := g.run.any fun r => o.isL6 && r.batch == o.batch && r.r0 == o.r0

/-- The group that leads the team of a share. -/
def leaderOf (o : MOp) (s : State) : GRef :=
  let t := (((blkOf s o.g.blk).bind fun b => launchOf s b.launch).map (·.lrec.team)).getD 0
  ⟨o.g.blk, o.g.gid / (t + 1) * (t + 1), false⟩

def runFlag (g : GRef) (n : Nat) (f : Batch → Batch) (s : State) : State := modGrp g (endRun.flagBatch n f) s

/-- A multiplying op: a run of l6 ops goes on or begins, other ops write their rows. -/
def multiply (o : MOp) (a b sc : Nat) (sparse : Bool) (s : State) : State :=
  match blkOf s o.g.blk, grpOf s o.g with
  | some blk, some g =>
    let lead := match o.kind with
      | .mmat _ _ _ _ (some (_, lsc)) => some lsc
      | _ => none
    let lg := if lead.isSome then (grpOf s (leaderOf o s)).getD g else g
    let off := if lead.isSome then 2 ^ 20 else 0
    let rdA := srcLane o g 0 a
    let rdB := srcLane o lg off b
    let sa := srcLane o g 0 sc 0
    let sb := srcLane o lg off (lead.getD sc) 0
    if o.isL6 then
      let r : Run := g.run.getD ⟨o.batch, o.r0, 2 ^ bits o.fmt.toNat 23 21, 0, [], []⟩
      let (r, sat) := l6Op rdA rdB r
      let s := runFlag o.g o.batch (fun x => { x with novf := x.novf || sat }) s
      if r.count = r.interval then
        let (b', nar) := promoteRun blk r
        let s := modBlk o.g.blk (fun b => { b with acc := b'.acc }) s
        runFlag o.g o.batch (fun x => { x with nar := x.nar || nar })
          (modGrp o.g (fun g => { g with run := some { r with count := 0, acc := [], nar := [] } }) s)
      else modGrp o.g (fun g => { g with run := some r }) s
    else modBlk o.g.blk (denseOp o sparse rdA rdB sa sb) s
  | _, _ => s

/-- What one element of a move comes to. -/
inductive Moved where
  | ok (bs : List Byte) (s : State) | wait (s : State) | fault (p : FPage) (s : State) | cut (t : Trap) (s : State)
  deriving DecidableEq, Repr

/-- One element of a move, read or written as a copy-engine element is (R422, R407); it waits for the fill of absent granules of the slab (R193), and
while the die of its pad slice is halted (R167). -/
def moveElem (o : MOp) (core lvl : Nat) (va : W64) (n : Nat) (wr : Option (List Byte)) (s : State) : Moved :=
  let kind := if wr.isSome then 4 else 3
  if lvl = 1 then (match slabGap s o.g.blk va.toNat n, wr with
    | some g, _ => .wait (askFill o.g.blk g s)
    | none, some bs => .ok [] (slabWr o.g.blk va.toNat bs s)
    | none, none => .ok (slabRd o.g.blk s va.toNat n) s)
  else if lvl = 2 then
    let pa := padBase + (padWindow o.ctx s).1 + va.toNat
    if homeHalted s pa then .wait s else match wr with
    | some bs => .ok [] (memWrite pa bs (touch o.ctx pa s))
    | none => .ok (memRead s pa n) (touch o.ctx pa s)
  else if !canonical va then .cut (engineProt va 2 kind) s
  else match translate (.copy core) o.ctx (if wr.isSome then .write else .read) va s with
    | (.wait, s) => .wait s
    | (.fault c, s) => .fault (pageOf va (if wr.isSome then 1 else 0) c) s
    | (.nak m, s) => .cut (nakTrap m va 0 0 0 kind false false none) s
    | (.ok pa l, s) => match accessNow ⟨opKey o.op, core, o.ctx, o.vf, l.heat, l.grain, false⟩ pa n wr (touch o.ctx pa s) with
      | .ok bs s => .ok bs s
      | .wait s => .wait s
      | .nak m s => .cut (nakTrap { m with req := core } va 0 pa 0 kind false false none) s

/-- The code of an accout element: row value v converted, with the draw of row j in lane l. -/
def accOut (o : MOp) (ty : Ty) (mode : Nat) (draws : List (List Nat)) (j l : Nat) (v : W32) : Nat :=
  convert .f32 ty (effRnd mode o.fmt) ((draws.getD l []).getD j 0) v.toNat

/-- Element k of a move: lane k mod 64 of row k div 64. -/
def moveAt (o : MOp) (core k : Nat) (s : State) : Moved :=
  let row := ((blkOf s o.g.blk).map fun b => accGet b (o.r0 + k / 64) (k % 64)).getD 0
  match o.kind with
  | .accld t => (match moveElem o core t.slv (srcAddr t k) 4 none s with
    | .ok bs s => .ok [] (modBlk o.g.blk (accSet (o.r0 + k / 64) (k % 64) (BitVec.ofNat 32 (ofBytes bs))) s)
    | r => r)
  | .accst t => moveElem o core t.dlv (dstAddr t k) 4 (some (toBytes 4 row.toNat)) s
  | .accoutMem t ty mode ds => moveElem o core t.dlv (dstAddr t k) t.bytes (some (toBytes t.bytes (accOut o ty mode ds (k / 64) (k % 64) row))) s
  | _ => .ok [] s

/-- The elements of a move from element k on, `fuel` of them: how far it came. -/
def moveFrom (o : MOp) (core : Nat) : Nat → Nat → State → Nat × Moved
  | 0, k, s => (k, .ok [] s)
  | fuel + 1, k, s => match moveAt o core k s with
    | .ok _ s => moveFrom o core fuel (k + 1) s
    | r => (k, r)

/-- The record of a move, and whether it reads memory. -/
def MOp.moves (o : MOp) : Option (TRec × Bool) := match o.kind with
  | .accld t => some (t, true)
  | .accst t => some (t, false)
  | .accoutMem t _ _ _ => some (t, false)
  | .accz => none
  | .accoutReg _ _ _ _ => none
  | .mma _ _ _ => none
  | .mmas _ _ _ => none
  | .mmat _ _ _ _ _ => none

/-- The pages that a fault of a move at element k reports (R156, R422). -/
def movePages (o : MOp) (core k : Nat) (p : FPage) (s : State) : List FPage × State := match o.moves with
  | some (t, rd) => faultPages t rd (!rd) k (.copy core) o.ctx p s
  | none => ([p], s)

/-- accout to registers (R421). -/
def outRegs (o : MOp) (d : Nat) (ty : Ty) (mode : Nat) (draws : List (List Nat)) (s : State) : State :=
  match blkOf s o.g.blk with
  | none => s
  | some b => landGrp o.g (fun g => lanes.foldl (fun g l => (List.range (o.c / ty.elems)).foldl (fun g w =>
      vset (d + w) l (BitVec.ofNat 32 (pack ty fun e => accOut o ty mode draws (w * ty.elems + e) l (accGet b (o.r0 + w * ty.elems + e) l))) g) g) g) s

/-! ## Completion (R416) -/

/-- An op has completed: its batch counts it, its registers are free, and a closed batch all of whose ops have completed is due. -/
def doneOp (core : Nat) (o : MOp) (f : Batch → Batch) (s : State) : State :=
  let s := dropAsks (opKey o.op) (putMops core ((coreMops s core).filter (·.op != o.op)) s)
  let lead := match o.kind with
    | .mmat _ _ _ _ l => l.map (·.1)
    | _ => none
  let more := lead.isSome && (coreMops s core).any fun p => match p.kind with
    | .mmat _ _ _ _ l => l.map (·.1) == lead
    | _ => false
  let kept := if more then (((grpOf s o.g).map (·.busy)).getD []).filter fun p => some p.op == lead else []
  let s := opDone o.g o.op s
  let s := modGrp o.g (fun g => { endRun.flagBatch o.batch (fun b => f { b with dops := b.dops + 1 }) g with busy := g.busy ++ kept }) s
  let s := match lead with
    | some l => if more then s else modGrp (leaderOf o s) (fun g => settleCounters s.mcyc { g with busy := g.busy.filter (·.op != l) }) s
    | none => s
  match grpOf s o.g with
  | some g => if g.closed.any fun b => b.num == o.batch && b.dops == b.nops then post 0 (.matrixBatchComplete o.g) s else s
  | none => s

/-- Whether a halt must wait for an op that comes next in its group: a run that is to reach its promotion point, whether the op goes on with the
run or ends it, or a move within a row (R186, R286, R431). -/
def drains (o : MOp) (g : Group) : Bool := o.started && o.stopped.isNone && (g.run.any (·.count != 0) || o.lane != 0)

/-- Whether an op stands in the engine's order, ready or stopped: neither a halt nor a waiting team holds back its group. -/
def opTurn (o : MOp) (s : State) : Bool :=
  o.started && match blkOf s o.g.blk with
    | some b => !dieStopped s (coreDie b.core) && b.state == .resident
    | none => false

/-- Whether an op goes on although its block is halting. -/
def opDrains (o : MOp) (s : State) : Bool := match blkOf s o.g.blk with
  | some b => !dieStopped s (coreDie b.core) && b.state == .halting && (grpIn b o.g.gid).any (drains o)
  | none => false

/-- Whether the earlier writes of an op's sources have arrived. -/
def opReady (o : MOp) (s : State) : Bool :=
  let waits := fun g : GRef => (grpOf s g).any fun x => x.pend.any fun p => o.after.contains p.op
  !waits o.g && !(o.isTeam && waits (leaderOf o s))

/-- The ops that stand first among those of their group. -/
def firstOps : List MOp → List GRef → List MOp
  | [], _ => []
  | o :: r, seen =>
    let g : GRef := ⟨o.g.blk, o.g.gid, false⟩
    if seen.contains g then firstOps r seen else o :: firstOps r (g :: seen)

/-- The first absent granule of a run: its rows with their narrow accumulators. -/
def runGap (s : State) (blk : Nat) (r : Run) : Option Granule := gapOf s blk fun g => match g with
  | .acc n => overlap (8 * n) 8 r.r0 64
  | .narrow n => overlap (8 * n) 8 r.r0 64
  | .vreg _ => false
  | .slab _ => false
  | .stream _ => false
  | .control _ => false

/-- The vector registers that an op reads or writes, with their groups. -/
def opRegs (o : MOp) (s : State) : List (Nat × List Nat) := match o.kind with
  | .mma a b sc => [(o.g.gid, matSrcs o.fmt a b sc false true)]
  | .mmas a b sc => [(o.g.gid, matSrcs o.fmt a b sc true true)]
  | .mmat a b sc _ lead => [(o.g.gid, matSrcs o.fmt a b sc false false),
      ((leaderOf o s).gid, codeSpan b (matRegs (fmtB o.fmt)) ++
        (if fmtScale o.fmt then (lead.map fun l => codeSpan l.2 1).getD [] else []))]
  | .accoutReg d ty _ _ => [(o.g.gid, span d (o.c / ty.elems))]
  | .accz => []
  | .accld _ => []
  | .accst _ => []
  | .accoutMem _ _ _ _ => []

/-- The first absent granule that an op touches (R193): its registers, and its rows, which under l6 are touched at a promotion point, the narrow
accumulators by each op. -/
def opGap (o : MOp) (s : State) : Option Granule :=
  if o.noEffect then none else
  let regs := opRegs o s
  let run := ((grpOf s o.g).bind (·.run)).filter fun r => r.batch == o.batch && r.r0 == o.r0
  let rows := !o.isL6 || (run.map fun r => r.count + 1 == r.interval).getD (bits o.fmt.toNat 23 21 == 0)
  gapOf s o.g.blk fun g => match g with
    | .vreg n => regs.any fun p => p.2.any fun r => decide (r < 1536) && n == p.1 * 192 + r / 8
    | .acc n => rows && overlap (8 * n) 8 o.r0 o.c
    | .narrow n => o.isL6 && overlap (8 * n) 8 o.r0 o.c
    | .slab _ => false
    | .stream _ => false
    | .control _ => false

/-- The run that an op ends, being no op of it (R286). -/
def ended (o : MOp) (s : State) : Option Run := (grpOf s o.g).bind fun g => if goesOn o g then none else g.run

/-- The first absent granule that stands in the way of an op: of a run that it ends, or of its own. -/
def nextGap (o : MOp) (s : State) : Option Granule := match (ended o s).bind (runGap s o.g.blk) with
  | some g => some g
  | none => if opDrains o s && (ended o s).any (·.count != 0) then none else opGap o s

/-- Perform an op whose turn has come. One that ends a run promotes it first; where its block is halting that is all (R286). -/
def performOp (core : Nat) (o : MOp) (s : State) : State :=
  let stays := opDrains o s && (ended o s).any (·.count != 0)
  let s := if (ended o s).isSome then endRun o.g s else s
  if stays then s else
  if o.noEffect then doneOp core o (fun b => { b with teamErr := true }) s else
  let move := fun _ : Unit =>
    let halting := (blkOf s o.g.blk).any (·.state == .halting)
    let (k, r) := moveFrom o core ((if halting then 64 else 64 * (o.c - o.row)) - o.lane) (64 * o.row + o.lane) s
    let at_ := fun (k : Nat) (t : Option Nat) (s : State) =>
      putMops core (mapIf (·.op == o.op) (fun p => { p with row := k / 64, lane := k % 64, stopped := t }) (coreMops s core)) s
    match r with
    | .ok _ s => if 64 * o.c ≤ k then doneOp core o id s else at_ k none s
    | .wait s => at_ k none s
    | .fault p s =>
      let (ps, s) := movePages o core k p s
      let (t, s) := postBatch o.vf o.ctx 2 core 0 ps (.matrix core o.op) s
      at_ (k / 64 * 64) (some t) s
    | .cut t s =>
      let s := doneOp core o (fun b => { b with memErr := true }) s
      dueTrap o.g o.ctx o.vf core { t with restart := false, named := some (o.pc, o.mask, false, o.pc) } s
  match o.kind with
  | .accz => doneOp core o id (modBlk o.g.blk (fun b => { b with
      acc := b.acc.filter fun e => !decide (64 * o.r0 ≤ e.1 ∧ e.1 < 64 * (o.r0 + o.c)) }) s)
  | .accld _ => move ()
  | .accst _ => move ()
  | .accoutMem _ _ _ _ => move ()
  | .accoutReg d ty mode ds => doneOp core o id (outRegs o d ty mode ds s)
  | .mma a b sc => doneOp core o id (multiply o a b sc false s)
  | .mmas a b sc => doneOp core o id (multiply o a b sc true s)
  | .mmat a b sc _ _ => doneOp core o id (multiply o a b sc false s)

/-- The op that the engine turns to: one that a halt waits for, else the next in its order. -/
def turnOf (core : Nat) (s : State) : Option MOp :=
  let ops := firstOps (coreMops s core) []
  (ops.find? fun o => opDrains o s).orElse fun _ => ops.find? fun o => opTurn o s

/-- MATRIX_OP_COMPLETE (R415, R416): the engine performs the next op in its order (R244) once its marked sources have arrived, after filling the
absent granules that it touches. A halt or a waiting team takes the ops of its group out of the order; an op that a fault stops keeps its turn, and
the ops behind it wait. -/
def execMatrixOpComplete (core : Nat) (s : State) : Host.Outcome State Fault Refusal :=
  match turnOf core s with
  | some o =>
    if o.stopped.isSome then .next s
    else if !opReady o s then .next (post 1 (.matrixOpComplete core) s) else
    let s := match nextGap o s with
      | some g => askFill o.g.blk g s
      | none => performOp core o s
    .next (if (coreMops s core).isEmpty then s else post 1 (.matrixOpComplete core) s)
  | none => .next s

/-- Complete the closed batches whose ops are done, in number order. The close is the promotion point of a batch's last run (R286, R429). -/
def settleBatches (g : GRef) : List Batch → State → State
  | [], s => s
  | b :: r, s =>
    if b.done then settleBatches g r s
    else if b.dops ≠ b.nops then s
    else
      let run := ((grpOf s g).bind (·.run)).filter (·.batch == b.num)
      match run.bind (runGap s g.blk) with
      | some gap => post 1 (.matrixBatchComplete g) (askFill g.blk gap s)
      | none =>
      let s := if run.isSome then endRun g s else s
      let s := modGrp g (fun x => { x with closed := mapIf (·.num == b.num) (fun b => { b with done := true }) x.closed }) s
      settleBatches g r (opDone g b.op s)

/-- MATRIX_BATCH_COMPLETE (R416). -/
def execMatrixBatchComplete (g : GRef) (s : State) : Host.Outcome State Fault Refusal := match grpOf s g with
  | none => .next s
  | some x => .next (settleBatches g x.closed s)

/-! ## Team ops (R427) -/

/-- The number of a share. -/
def MOp.seq (o : MOp) : Nat := match o.kind with
  | .mmat _ _ _ n _ => n
  | .mma _ _ _ => 0
  | .mmas _ _ _ => 0
  | .accz => 0
  | .accld _ => 0
  | .accst _ => 0
  | .accoutReg _ _ _ _ => 0
  | .accoutMem _ _ _ _ => 0

/-- The share as it starts behind its leader's op. -/
def startShare (lead : MOp) (same : Bool) (o : MOp) : MOp := match o.kind, lead.kind with
  | .mmat a _ sc n _, .mmat _ lb lsc _ _ =>
    { o with
      kind := .mmat a lb sc n (some (lead.op, lsc)), fmt := if same then lead.fmt else o.fmt, started := true, noEffect := !same,
      after := o.after ++ lead.after, old := o.old ++ lead.old.map fun e => (2 ^ 20 + e.1, e.2) }
  | _, _ => o

/-- TEAM_MMAT_START (R427): when every member's share of one number waits, the shares enter the engine's order in member order, and
behind them what their groups issued after them. -/
def execTeamMmatStart (blk team : Nat) (s : State) : Host.Outcome State Fault Refusal :=
  match blkOf s blk, (blkOf s blk).bind fun b => launchOf s b.launch with
  | some b, some l =>
    let size := l.lrec.team + 1
    let gids := (List.range size).map (team * size + ·)
    let ops := coreMops s b.core
    let mine := fun o : MOp => o.g.blk == blk && o.g.gid / size == team
    let n := (ops.find? fun o => mine o && o.isTeam && !o.started).map (·.seq) |>.getD 0
    let shares := gids.filterMap fun gid => ops.find? fun o => o.g.blk == blk && o.g.gid == gid && o.isTeam && !o.started && o.seq == n
    match shares with
    | lead :: _ =>
      if shares.length ≠ size then .next s else
      let key := fun o : MOp => (fmtA o.fmt, fmtB o.fmt, fmtScale o.fmt)
      let same := shares.all fun o => key o == key lead
      let isShare := fun o : MOp => shares.any (·.op == o.op)
      let later := fun o : MOp => shares.any fun p => p.g.gid == o.g.gid && p.g.blk == o.g.blk && decide (p.op < o.op)
      let rest := ops.filter fun o => !isShare o && !later o
      let after := ops.filter fun o => !isShare o && later o
      .next (post 0 (.matrixOpComplete b.core) (putMops b.core (rest ++ shares.map (startShare lead same) ++ after) s))
    | [] => .next s
  | _, _ => .next s

end Sys2Proof.Machine
end

