-- ==== Sys2Proof/Machine/RegModel.lean ====
section
/-! DEFINITION. MAJ 0x03: the register model (R231 to R236, R346, R347). -/

namespace Sys2Proof.Machine

open Sys2Proof

/-- The registers of a block's roles, which are its pool (R174, R232). -/
def poolSize (l : LRec) : Nat := ((l.roles.take l.nrole).map fun r => 8 * r.xsz * (r.ghi + 1 - r.glo)).sum

/-- Registers that a group gains read as 0 (R235). -/
def zeroRegs (lo hi : Nat) (g : Group) : Group := { g with v := g.v.filter fun e => decide (e.1 < 64 * lo ∨ 64 * hi ≤ e.1) }

/-- Whether an asynchronous write or an issued mma still needs a register of the range (R233). -/
def regsInUse (g : Group) (lo hi : Nat) : Bool :=
  (g.pend ++ g.busy).any fun p => decide (lo ≤ p.reg ∧ p.reg < hi)

/-- Return the n registers from `lo` on to the pool; queued requests are looked at again. -/
def givePool (x : Iss) (lo n : Nat) (s : State) : State := askGrant x.g.blk (modBlk x.g.blk (toPool x.g.gid lo n) s)

/-- Join the acquire queue and wait (R232): the queue names the request, and its group. -/
def joinQueue (x : Iss) (n : Nat) (role : Option Nat) (s : State) : State :=
  let (req, s) := fresh s
  post 0 (.xacqGrant x.g.blk) (modBlk x.g.blk (fun b => { b with acqQueue := b.acqQueue ++ [req] })
    (waitAfter x (.xacq n role req) s))

def execXacq (n : Nat) (s : State) : Host.Outcome State Fault Refusal :=
  issue (sigXacq n) noPre (fun x s =>
    if n = 0 ∨ 191 < n ∨ x.grp.ext ≠ 0 ∨ 1536 < baseRegs x.lrec + 8 * n ∨ poolSize x.lrec < 8 * n
    then .trap (trapAt .xreg 0) s
    else .next (joinQueue x n none s)) s

def execXrel (s : State) : Host.Outcome State Fault Refusal :=
  issue sigXrel noPre (fun x s =>
    let b := baseRegs x.lrec
    if regsInUse x.grp b (b + x.grp.ext) then .stall
    else .next (givePool x b x.grp.ext (modGrp x.g (fun g => { g with ext := 0 }) s))) s

def execRgive (n : Nat) (s : State) : Host.Outcome State Fault Refusal :=
  issue (sigRgive n) noPre (fun x s =>
    let top := vregsOf x.lrec x.grp
    if n = 0 ∨ 191 < n ∨ x.grp.ext < 8 * n then .trap (trapAt .xreg 0) s
    else if regsInUse x.grp (top - 8 * n) top then .stall
    else .next (givePool x (top - 8 * n) (8 * n) (modGrp x.g (fun g => { g with ext := g.ext - 8 * n }) s))) s

/-- Whether rclaim succeeds (R234). -/
def claimOk (x : Iss) (n : Nat) : Bool :=
  decide (8 * n ≤ x.blk.pool) && x.blk.acqQueue.isEmpty && decide (vregsOf x.lrec x.grp + 8 * n ≤ 1536)

def execRclaim (nw : Bool) (kd n : Nat) (s : State) : Host.Outcome State Fault Refusal :=
  issue (sigRclaim nw kd n) noPre (fun x s =>
    if n = 0 ∨ 191 < n then .trap (trapAt .xreg 0) s
    else if claimOk x n then
      let top := vregsOf x.lrec x.grp
      .next (writeK nw kd 1 x (modBlk x.g.blk (fromPool x.g.gid top (8 * n))
        (modGrp x.g (fun g => { zeroRegs top (top + 8 * n) g with ext := g.ext + 8 * n }) s)))
    else .next (writeK nw kd 0 x s)) s

/-- The entry of role n (R171, R236). -/
def roleEntry (l : LRec) (n : Nat) : W64 := l.entry + BitVec.ofNat 64 (32 * ((l.roles[n]?).map (·.eoff)).getD 0)
def roleSize (l : LRec) (n : Nat) : Nat := ((l.roles[n]?).map (·.xsz)).getD 0

/-- Whether the engine still has a matrix op of the group. -/
def mopsOf (s : State) (x : Iss) : Bool :=
  s.eng.mops.any fun (_, ops) => ops.any fun o => o.g.blk == x.g.blk && o.g.gid == x.g.gid

/-- What rolesw waits for, in the waiting state (R347, R181): the in-flight counters, its matrix ops and the registers still in use. -/
def roleswWaits (s : State) (x : Iss) : Bool :=
  !x.grp.flights.isEmpty || mopsOf s x || regsInUse x.grp (baseRegs x.lrec) (baseRegs x.lrec + x.grp.ext)

def execRolesw (n : Nat) (s : State) : Host.Outcome State Fault Refusal :=
  issue (sigRolesw n) (fun x _ => if 1 < x.grp.stack.length then some (trapAt .unif 0) else none) (fun x s =>
    if 4 ≤ n ∨ x.lrec.nrole ≤ n then .trap (trapAt .xreg 0) s
    else if roleswWaits s x then .next (waitHere x .rolesw s)
    else
      let s := givePool x (baseRegs x.lrec) x.grp.ext (modGrp x.g (fun g => { g with ext := 0 }) s)
      if roleSize x.lrec n = 0 then
        .next (setPc x (roleEntry x.lrec n) (modGrp x.g (fun g => { g with role := n }) s))
      else .next (joinQueue x (roleSize x.lrec n) (some n) s)) s

/-- The path of a block that waits with a request: its group and entry, the size wanted and the role of a rolesw. -/
def requestOf (b : Block) (req : Nat) : Option (Group × Entry × Nat × Option Nat) := b.groups.findSome? fun g => g.stack.findSome? fun e => match e.wait with
  | .xacq n r q => if q = req then some (g, e, n, r) else none
  | _ => none

/-- Whether an entry waits with a request. -/
def asks (req : Nat) : Wait → Bool
  | .xacq _ _ q => q == req
  | _ => false

/-- XACQ_GRANT (R232): the request at the head of the queue is granted when its whole size is free; the new registers read as 0, and a rolesw
takes its role and entry. Where both paths of a group have asked, the second finds, in its turn, that the group holds a block, and traps with XREG
(DESIGN CHOICE, log entry 141). -/
def execXacqGrant (blk : Nat) (s : State) : Host.Outcome State Fault Refusal :=
  match blkOf s blk with
  | none => .next s
  | some b => match b.acqQueue with
    | [] => .next s
    | req :: rest => match requestOf b req, launchOf s b.launch with
      | none, _ => .next (post 0 (.xacqGrant blk) (modBlk blk (fun b => { b with acqQueue := rest }) s))
      | some (g, e, n, role), some l =>
        let r : GRef := ⟨blk, g.gid, false⟩
        if b.state ≠ .resident then .next s
        else if g.ext ≠ 0 then
          let pc := e.pc - BitVec.ofNat 64 (sigXacq n).len
          let s := wakeGrp r (asks req) (modBlk blk (fun b => { b with acqQueue := rest }) s)
          .next (askGrant blk (dueTrap r b.ctx b.vf b.core { trapAt .xreg 0 with named := some (pc, e.mask, false, pc) } s))
        else if b.pool < 8 * n then .next s else
        let lo := baseRegs l.lrec
        let s := modBlk blk (fun b => { fromPool g.gid lo (8 * n) b with acqQueue := rest }) s
        let s := modGrp r (fun g =>
          let g := { zeroRegs lo (lo + 8 * n) g with ext := 8 * n }
          match role with
          | none => g
          | some r => { g with
              role := r
              stack := mapIf (fun e => asks req e.wait) (fun e => { e with pc := roleEntry l.lrec r }) g.stack }) s
        .next (askGrant blk (wakeGrp r (asks req) s))
      | some _, none => .next s

end Sys2Proof.Machine
end

