-- ==== Sys2Proof/Machine/Worklist.lean ====
section
/-! DEFINITION. MAJ 0x2C: the Ordered Worklist (R195 to R219, R448 to R453, R476): binding, push, pop and retire, floor rounds with LOWER
and CAP, spills, steals, termination and handover. Shards of other span devices are outside the model. -/

namespace Sys2Proof.Machine

open Sys2Proof

/-! ## Records (R195, R196) -/

def wlRecOf (ctx : Nat) (addr : W64) (r : Nat) : WlRec :=
  { ctx := ctx, addr := addr, spbase := BitVec.ofNat 64 (bits r 1023 960), stbase := BitVec.ofNat 64 (bits r 959 896),
    spch := bits r 895 864, clmask := BitVec.ofNat 40 (bits r 863 824), spanmask := BitVec.ofNat 16 (bits r 823 808),
    w := bits r 807 803, lambda := bits r 802 797 }

/-- An empty slot (R206, R476). -/
def newShard (core : Nat) : Shard :=
  { core := core, bound := false, f := 0xFFFFFFFF, cap := 0xFFFFFFFF, capRound := 0, items := [], chunks := [], given := [], taken := [],
    push := 0, ret := 0, reported := none, lowering := none, pushes := [], pops := [], holds := [], spillToken := none,
    known := false, vacated := false, leaving := false, doing := none, rets := [] }

/-- A worklist as its first binding makes it: every slot that the record names carries it (R476). -/
def newWorklist (id : Nat) (r : WlRec) : Worklist :=
  { id := id, wrec := r, shards := ((List.range 40).filter fun c => r.clmask.getLsbD c).flatMap fun c => (clusterCores c).map newShard,
    armed := false, terminated := false, round := 0, result := none, roundOpen := false, wave := none, killed := false,
    unreachable := none }

/-- The slot number of a core's shard on this device (R196). -/
def slotNum (s : State) (r : WlRec) (core : Nat) : Nat := (if r.spanmask = 0 then 0 else 160 * s.pkg.spanDev) + core

/-- The address of spill chunk i of a shard. -/
def chunkVa (s : State) (r : WlRec) (core i : Nat) : W64 := r.spbase + BitVec.ofNat 64 (512 * (r.spch * slotNum s r core + i))

/-! ## Events of a worklist -/

/-- Whether some shard holds or awaits items (R206). -/
def wlActive (w : Worklist) : Bool := w.shards.any fun sh => decide (localMin w sh < noKey) || !sh.pops.isEmpty || !sh.pushes.isEmpty

/-- Post the next floor round and the next wave where they are due and not yet posted (R206, R213); a holder of the floor that pops wait for is looked at
(R216). -/
def wlTick (w : Nat) (s : State) : State := match wlOf s w with
  | none => s
  | some x =>
    let s := boostHolders s
    if x.terminated then s else
    let s := if wlActive x && !s.agenda.any (fun d => d.ev == .floorRoundStart w) then postCycles 512 (.floorRoundStart w) s else s
    if x.armed && !s.agenda.any (fun d => d.ev == .terminationWave w) then postCycles 512 (.terminationWave w) s else s

/-- Whether a debugger holds the die of a shard (R167, R218). -/
def shardHeld (s : State) (core : Nat) : Bool := dieStopped s (coreDie core)

/-- The span devices of a worklist to which no route is left (R28, R218). -/
def cutPeers (s : State) (w : Worklist) : List Nat :=
  (List.range 16).filter fun d => w.wrec.spanmask.getLsbD d && d != s.pkg.spanDev && (routeTo s d).isNone

/-- Watch the peers of the worklists (R218): 10 ms run for the shards of one that cannot be reached, whose number here is the peer's as an agent, and
stop where it can be reached again. -/
def watchPeers (s : State) : State :=
  let s := { s with agenda := s.agenda.filter fun d => match d.ev with
    | .shardUnreachableTimeout _ n => !(decide (162 ≤ n) && (routeTo s (n - 162)).isSome)
    | _ => true }
  s.worklists.foldl (fun s w => (cutPeers s w).foldl (fun s d =>
    if s.agenda.any fun e => e.ev == .shardUnreachableTimeout w.id (162 + d) then s else post 10000000 (.shardUnreachableTimeout w.id (162 + d)) s) s) s

/-! ## Spill chunks (R199 to R201) -/

/-- What an access of a shard to its areas comes to. -/
inductive Spill where
  | ok (bs : List Byte) (s : State) | wait (s : State) | fault (s : State) | bad | nak (m : Msg) (va : W64) (pa : Nat) (s : State)

/-- An access of n bytes of a shard, a read or a write of `f`; a replayable fault stops the shard on a token (SRC 5), and an address that is
not canonical takes no access (R140). `use` tells the accesses of one operation of the shard apart. -/
def shardAccess (w : Worklist) (core use : Nat) (va : W64) (n : Nat) (f : Option (List Byte)) (s : State) : Spill :=
  let acc := if f.isSome then AccType.write else .read
  let vf := ((ctxOf s w.wrec.ctx).map (·.vf)).getD 0
  let flt := fun (c : Nat) (s : State) =>
    let (t, s) := postBatch vf w.wrec.ctx 5 core 0 [pageOf va acc.code c] (.spill w.id core) s
    Spill.fault (modShard w.id core (fun sh => { sh with spillToken := some t }) s)
  if !canonical va then .bad else
  match translate (.core core) w.wrec.ctx acc va s with
  | (.wait, s) => .wait s
  | (.fault c, s) => flt c s
  | (.nak m, s) => .nak m va 0 s
  | (.ok pa l, s) =>
    match accessNow ⟨partKey w.id (4 * core + use), core, w.wrec.ctx, vf, l.heat, l.grain, false⟩ pa n f (touch w.wrec.ctx pa s) with
    | .ok bs s => .ok bs s
    | .nak m s => .nak m (va + BitVec.ofNat 64 (m.pa - pa)) (max m.pa pa) s
    | .wait s => .wait s

/-- The 12 bytes of an item. -/
def itemBytes (i : Item) : List Byte := toBytes 8 i.payload.toNat ++ toBytes 4 i.prio.toNat
def itemAt (bs : List Byte) (n : Nat) : Item :=
  ⟨BitVec.ofNat 64 (ofBytes (slice 0 bs (32 + 12 * n) 8)), BitVec.ofNat 32 (ofBytes (slice 0 bs (40 + 12 * n) 4))⟩

/-- The bytes of a new chunk at the end of a list. -/
def chunkBytes (minKey : Nat) (its : List Item) : List Byte :=
  let body := toBytes 8 0 ++ toBytes 4 minKey ++ toBytes 4 its.length ++ List.replicate 16 0 ++ its.flatMap itemBytes
  body ++ List.replicate (512 - body.length) 0

/-- The lowest chunk index that is free. -/
def freeChunk (sh : Shard) : Nat := ((List.range (sh.chunks.length + 1)).find? fun i => !(sh.chunks.any (·.idx == i))).getD 0

def minKeyOf (w : Worklist) (its : List Item) : Nat := (its.map (keyOf w)).foldl min noKey

/-- How many items one spill can take: 40 where a chunk of the area is free, else what the last chunk of the list has room for. A chunk whose address is
not canonical is none (DEDUCED, log entry 76). -/
def spillRoom (s : State) (w : Worklist) (sh : Shard) : Nat :=
  let va := chunkVa s w.wrec sh.core (freeChunk sh)
  if sh.chunks.length < w.wrec.spch ∧ canonical va ∧ canonical (va + 511) then 40 else (sh.chunks.getLast?).elim 0 fun c => 40 - c.count

/-- Make some accesses in order. -/
def spillSteps (w : Worklist) (core : Nat) : List (Nat × W64 × List Byte) → State → Spill
  | [], s => .ok [] s
  | (use, va, bs) :: r, s => match shardAccess w core use va bs.length (some bs) s with
    | .ok _ s => spillSteps w core r s
    | r => r

/-- Write a list's link to a chunk, or its end, into the chunk before it, if there is one. -/
def linkFrom (s : State) (w : Worklist) (core : Nat) (before : Option Chunk) (next : Option Nat) : List (Nat × W64 × List Byte) :=
  (before.map fun p => (1, chunkVa s w.wrec core p.idx, toBytes 8 (next.elim 0 fun i => (chunkVa s w.wrec core i).toNat))).toList

/-- Spill items, at most 40: into the last chunk of the list where they fit, else into a new chunk linked after it. The shard's chunks after it. -/
def spillItems (w : Worklist) (sh : Shard) (its : List Item) (s : State) : List (Nat × W64 × List Byte) × List Chunk :=
  let mk := minKeyOf w its
  match sh.chunks.getLast? with
  | some t =>
    if t.count + its.length ≤ 40 then
      let k := min t.minKey mk
      let va := chunkVa s w.wrec sh.core t.idx
      ([(0, va + BitVec.ofNat 64 (32 + 12 * t.count), its.flatMap itemBytes), (1, va + 8, toBytes 4 k ++ toBytes 4 (t.count + its.length))],
        mapIf (·.idx == t.idx) (fun c => { c with minKey := k, count := c.count + its.length }) sh.chunks)
    else fresh mk
  | none => fresh mk
where
  fresh (mk : Nat) : List (Nat × W64 × List Byte) × List Chunk :=
    let i := freeChunk sh
    ((0, chunkVa s w.wrec sh.core i, chunkBytes mk its) :: linkFrom s w sh.core sh.chunks.getLast? (some i), sh.chunks ++ [⟨i, mk, its.length⟩])

/-- The chunks before and after one in a list. -/
def chunkBefore (sh : Shard) (c : Chunk) : Option Chunk := (sh.chunks.takeWhile (·.idx != c.idx)).getLast?
def chunkAfter (sh : Shard) (c : Chunk) : Option Chunk := ((sh.chunks.dropWhile (·.idx != c.idx)).drop 1).head?

/-- Items take the place in the area of a chunk that comes back, at the end of the list. -/
def swapItems (w : Worklist) (sh : Shard) (c : Chunk) (out : List Item) (s : State) : List (Nat × W64 × List Byte) × List Chunk :=
  let mk := minKeyOf w out
  let rest := sh.chunks.filter (·.idx != c.idx)
  let links := match chunkAfter sh c with
    | none => []
    | some n => linkFrom s w sh.core (chunkBefore sh c) (some n.idx) ++ linkFrom s w sh.core rest.getLast? (some c.idx)
  ((0, chunkVa s w.wrec sh.core c.idx, chunkBytes mk out) :: links, rest ++ [⟨c.idx, mk, out.length⟩])

/-- The n items of highest key, those that entered last among equals. -/
def highest (w : Worklist) (n : Nat) (its : List Item) : List Item × List Item :=
  let ins := fun (acc : List (Nat × Item)) (p : Nat × Item) =>
    acc.takeWhile (fun q => keyOf w q.2 ≤ keyOf w p.2) ++ [p] ++ acc.dropWhile (fun q => keyOf w q.2 ≤ keyOf w p.2)
  let sorted := ((List.range its.length).zip its).foldl ins []
  let out := sorted.drop (sorted.length - n)
  let gone := out.map (·.1)
  (out.map (·.2), (((List.range its.length).zip its).filter fun p => !gone.contains p.1).map (·.2))

/-! ## Hand-out (R199, R202, R209, R451) -/

/-- The first item by R199 among those with key at most `lim`: the item, and the others in order. -/
def takeFirst (w : Worklist) (lim : Nat) (its : List Item) : Option (Item × List Item) :=
  let k := minKeyOf w its
  if k = noKey ∨ lim < k then none
  else match its.find? fun i => keyOf w i == k with
    | some i => some (i, its.eraseP fun i => keyOf w i == k)
    | none => none

def eligible (w : Worklist) (sh : Shard) : Bool := (takeFirst w (sh.f + w.wrec.lambda) sh.items).isSome

/-- Count one more item of key k as held by a group. -/
def hold (g : GRef) (k : Nat) (hs : List (Nat × Nat × Nat × Nat)) : List (Nat × Nat × Nat × Nat) :=
  if hs.any fun h => h.1 == g.blk && h.2.1 == g.gid && h.2.2.1 == k then
    mapIf (fun h => h.1 == g.blk && h.2.1 == g.gid && h.2.2.1 == k) (fun h => (h.1, h.2.1, h.2.2.1, h.2.2.2 + 1)) hs
  else hs ++ [(g.blk, g.gid, k, 1)]

/-- Hand items to lanes in order: the lanes served with their items, and the shard. -/
def handOut (w : Worklist) (g : GRef) : List Nat → Shard → List (Nat × Item) × Shard
  | [], sh => ([], sh)
  | l :: ls, sh =>
    if 256 ≤ heldBy sh g then ([], sh) else
    match takeFirst w (sh.f + w.wrec.lambda) sh.items with
    | none => ([], sh)
    | some (i, rest) =>
      let r := handOut w g ls { sh with items := rest, holds := hold g (keyOf w i) sh.holds }
      ((l, i) :: r.1, r.2)

/-- A pop completes with what its lanes received: destinations, md, the counter and the wait. -/
def endPop (p : PopOp) (got : List (Nat × Item)) (s : State) : State :=
  let write := fun (g : Group) (e : Nat × Item) => match p.d with
    | none => g
    | some d =>
      if p.n64 then vset (d + 2) e.1 e.2.prio (pset d e.1 e.2.payload.toNat g)
      else vset (d + 1) e.1 e.2.prio (vset d e.1 (e.2.payload.truncate 32) g)
  let s := landGrp p.g (fun g => mset p.md (maskOf fun l => got.any (·.1 == l)) (got.foldl write g)) s
  wakeGrp p.g (fun w => w == .worklist p.op) (opDone p.g p.op s)

/-- Serve some of the pops that wait at a shard, in order: one that receives nothing goes on waiting. Once termination is declared, or the
worklist's spill has been killed (R158), they return with nothing. -/
def serveEach (wl core : Nat) : List PopOp → State → State
  | [], s => s
  | p :: r, s => match wlOf s wl with
    | none => s
    | some w => match shardIn w core with
      | none => s
      | some sh =>
        let (got, sh') := handOut w p.g (activeLanes p.mask) sh
        if got.isEmpty && !w.terminated && !w.killed then serveEach wl core r s
        else serveEach wl core r (endPop p got (modShard wl core (fun _ => { sh' with pops := sh'.pops.filter (·.op != p.op) }) s))

def servePops (wl core : Nat) (s : State) : State := serveEach wl core (((shardOf s wl core).map (·.pops)).getD []) s

/-! ## Entering items (R199, R207, R450) -/

/-- An item enters the shard of its push. -/
def enterItem (wl core : Nat) (i : Item) (onChip : Bool) (s : State) : State :=
  modWl wl (fun w => { w with armed := true }) (modShard wl core (fun sh => { sh with
    items := if onChip then sh.items ++ [i] else sh.items, push := sh.push + 1, lowering := none }) s)

/-- A push has ended: its counter falls and its path goes on. -/
def endPush (wl core : Nat) (p : PushOp) (s : State) : State :=
  let s := modShard wl core (fun sh => { sh with pushes := sh.pushes.filter (·.op != p.op), lowering := none }) s
  wakeGrp p.g (fun w => w == .push p.op) (opDone p.g p.op s)

/-- WL.CFG, naming a lane of a push (R163, R201, R214). -/
def wlTrap (lane : Option Nat) : Trap := trapAt .wlCfg (match lane with
  | some l => l % 64 + 64
  | none => 0)

/-- A push fails at a lane after it has issued: the lanes before it stay entered. -/
def failPush (wl core : Nat) (p : PushOp) (t : Trap) (s : State) : State := match blkOf s p.g.blk with
  | none => endPush wl core p s
  | some b => endPush wl core p (dueTrap p.g b.ctx b.vf b.core { t with named := some (p.pc, p.mask, false, p.pc) } s)

/-- A spill or a refill of the shard itself meets an error: the groups of the worklist learn of it at their next worklist instruction, as they do
of a shard that stays unreachable (R218); DATA.UE whatever the REASON, for none of them raises LABEL.FALSE (R457; DEDUCED, log entry 76). -/
def shardFails (wl : Nat) (words : BitVec 256) (s : State) : State := modWl wl (fun w => { w with unreachable := some words }) s

/-- The words of a DATA.UE at an address of a shard. -/
def ueWords (m : Msg) (va : W64) (pa lane kind : Nat) : BitVec 256 := accessWords va 0 pa lane 0 false kind m.reason

/-! ## The spill area (R198 to R201) -/

/-- A shard begins something in its spill area; the items that leave the chip for it are no longer there. -/
def beginOp (wl core : Nat) (gone : List Item) (o : ShardOp) (s : State) : State := modShard wl core (fun sh => { sh with
  doing := some o, items := gone.foldl (fun l i => l.erase i) sh.items }) s

/-- A spill of items, some on chip or a push's own, and that of the items of highest key. -/
def beginSpill (wl core : Nat) (its : List Item) (s : State) : State := beginOp wl core its (.spill false its) s
def spillHighest (w : Worklist) (sh : Shard) (s : State) : State :=
  let (out, kept) := highest w 40 sh.items
  modShard w.id sh.core (fun sh => { sh with doing := some (.spill false out), items := kept }) s

/-- The head push of a shard is past its first item. -/
def nextItem (wl core : Nat) (s : State) : State := modShard wl core (fun sh => { sh with pushes := match sh.pushes with
  | p :: r => { p with items := p.items.drop 1 } :: r
  | [] => [] }) s

/-- What a shard does in its spill area is done. -/
def opDoneAt (w : Worklist) (core : Nat) (o : ShardOp) (cs : List Chunk) (s : State) : State :=
  let s := modShard w.id core (fun sh => { sh with doing := none, chunks := cs }) s
  match o with
  | .spill true (i :: _) => nextItem w.id core (enterItem w.id core i false s)
  | .spill _ _ => s
  | .refill _ _ => s
  | .swap _ its _ => modShard w.id core (fun sh => { sh with items := sh.items ++ its }) s

/-- It has met an error: the items stay on chip, and the pushing group or all groups of the worklist take DATA.UE. -/
def opFails (w : Worklist) (sh : Shard) (o : ShardOp) (m : Msg) (va : W64) (pa : Nat) (s : State) : State :=
  let s := modShard w.id sh.core (fun sh => { sh with doing := none, items := sh.items ++ leavingChip sh }) s
  match o, sh.pushes with
  | .spill true _, p :: _ =>
    failPush w.id sh.core p ⟨.dataUe, ueWords m va pa ((p.items.head?.map (·.1)).getD 0) 1, false, none⟩ s
  | _, _ => shardFails w.id (ueWords m va pa 0 (match o with
      | .refill _ _ => 0
      | .spill _ _ => 1
      | .swap _ _ _ => 1)) s

/-- Its accesses from here on, and what follows them. -/
def opSteps (w : Worklist) (sh : Shard) (o : ShardOp) (s : State) : Spill := match o with
  | .spill _ its => finish o (spillItems w sh its s) s
  | .swap c _ out => finish o (swapItems w sh c out s) s
  | .refill c out => match shardAccess w sh.core 0 (chunkVa s w.wrec sh.core c.idx) 512 none s with
    | .ok bs s =>
      let its := (List.range c.count).map (itemAt bs)
      if out.isEmpty then finish (.swap c its []) (linkFrom s w sh.core (chunkBefore sh c) ((chunkAfter sh c).map (·.idx)), sh.chunks.filter (·.idx != c.idx)) s
      else
        let o := ShardOp.swap c its out
        finish o (swapItems w sh c out s) (modShard w.id sh.core (fun sh => { sh with doing := some o }) s)
    | r => r
where
  finish (o : ShardOp) (todo : List (Nat × W64 × List Byte) × List Chunk) (s : State) : Spill := match spillSteps w sh.core todo.1 s with
    | .ok _ s => .ok [] (opDoneAt w sh.core o todo.2 s)
    | r => r

/-- Go on with what a shard does in its spill area: whether it is done with it. -/
def goOn (wl core : Nat) (s : State) : Bool × State := match wlOf s wl with
  | none => (false, s)
  | some w => match shardIn w core with
    | none => (false, s)
    | some sh =>
      if sh.spillToken.isSome then (false, s) else
      match sh.doing with
      | none => (true, s)
      | some o => match opSteps w sh o s with
        | .ok _ s => (true, s)
        | .wait s => (false, if s.agenda.any (·.ev == .lowerAckComplete wl core) then s else post 1 (.lowerAckComplete wl core) s)
        | .fault s => (false, s)
        | .bad => (true, modShard wl core (fun sh => { sh with doing := none, items := sh.items ++ leavingChip sh }) s)
        | .nak m va pa s => (true, opFails w sh o m va pa s)

/-! ## Pushes (R199, R207, R450) -/

/-- Announce a key below the threshold (R207): LOWER goes to every other shard. -/
def announce (w : Worklist) (sh : Shard) (key : Nat) (s : State) : State :=
  let others := (w.shards.map (·.core)).filter (· != sh.core)
  let s := modShard w.id sh.core (fun sh => { sh with
    f := min sh.f key, cap := key, capRound := w.round, lowering := some key,
    pushes := match sh.pushes with
      | p :: r => { p with acks := others } :: r
      | [] => [] }) s
  postAll (others.map fun c => .lowerReceive w.id c key sh.core) s

/-- Where an item may go: on chip, to the spill list, on chip once the 40 items of highest key have been spilled, or nowhere. -/
inductive Room where
  | chip | beyond | after | none
  deriving DecidableEq, Repr

def roomFor (s : State) (w : Worklist) (sh : Shard) (i : Item) : Room :=
  if sh.f + 63 < keyOf w i then (if spillRoom s w sh = 0 then .none else .beyond)
  else if sh.items.length < 4096 then .chip
  else if spillRoom s w sh < 40 then .none else .after

/-- What makes the pushes of a worklist fail: a killed spill, its termination, or an error of a shard. -/
def pushStop (w : Worklist) (sh : Shard) (lane : Nat) : Option Trap :=
  if w.killed || (sh.lowering.isNone && w.terminated) then some (wlTrap (some lane))
  else w.unreachable.map fun words => ⟨.dataUe, words, false, none⟩

/-- Go on with the pushes at a shard until one must wait. -/
def runPushes (wl core : Nat) : Nat → State → State
  | 0, s => s
  | n + 1, s => match goOn wl core s with
    | (false, s) => s
    | (true, s) => match wlOf s wl with
      | none => s
      | some w => match shardIn w core with
        | none => s
        | some sh => match sh.pushes with
          | [] => s
          | p :: _ => match p.items with
            | [] => runPushes wl core n (endPush wl core p s)
            | (lane, i) :: _ =>
              let key := keyOf w i
              match pushStop w sh lane with
              | some t => runPushes wl core n (failPush wl core p t s)
              | none =>
                if sh.lowering.isNone && decide (key < sh.reported.getD sh.f) then runPushes wl core n (announce w sh key s)
                else if !p.acks.isEmpty then s
                else runPushes wl core n (match roomFor s w sh i with
                  | .chip => nextItem wl core (enterItem wl core i true s)
                  | .beyond => beginOp wl core [] (.spill true [i]) s
                  | .after => spillHighest w sh s
                  | .none => failPush wl core p (wlTrap (some lane)) s)

/-! ## The shard goes on (R198, R209, R210) -/

/-- The chunk to bring back next (R198): the first of the list within the window where the chip has room for its items; else the first whose
keys begin below those of the 40 items of highest key, which then take its place (R199). -/
def nextBack (w : Worklist) (sh : Shard) : Option (Chunk × List Item) :=
  let near := sh.chunks.filter fun c => decide (c.minKey ≤ sh.f + 63)
  match near with
  | [] => none
  | c :: _ =>
    if sh.items.length + c.count ≤ 4096 then some (c, [])
    else
      let out := (highest w 40 sh.items).1
      (near.find? fun c => decide (c.minKey < minKeyOf w out)).map fun c => (c, out)

/-- Shift the window: items beyond bucket 63 are spilled while there is room for them, and the chunks within it are refilled. -/
def shiftWindow (wl core : Nat) : Nat → State → State
  | 0, s => s
  | n + 1, s => match goOn wl core s with
    | (false, s) => s
    | (true, s) => match wlOf s wl with
      | none => s
      | some w => match shardIn w core with
        | none => s
        | some sh =>
          if !sh.bound || w.killed || w.unreachable.isSome then s else
          let far := (sh.items.filter fun i => decide (sh.f + 63 < keyOf w i)).take (spillRoom s w sh)
          if far.isEmpty then
            match nextBack w sh with
            | none => s
            | some (c, out) => shiftWindow wl core n (beginOp wl core out (.refill c out) s)
          else shiftWindow wl core n (beginSpill wl core far s)

/-- Whether every access that a group issued before an operation is performed, with the stores that it has read (R204, R261). -/
def relSince (g : GRef) (op : Nat) (s : State) : Bool := s.eng.accs.all fun a => a.kind == .pref || (a.returned && a.naks.isEmpty) || decide (op < a.id) ||
  (!(a.g.blk == g.blk && a.g.gid == g.gid) && !(grpOf s g).any (·.seen.contains a.id))

/-- The retirements whose release is performed are complete; the others are looked at again (R452). -/
def runRets (wl core : Nat) (s : State) : State :=
  let rets := ((shardOf s wl core).map (·.rets)).getD []
  let (now, later) := rets.partition fun r => relSince r.1 r.2 s
  let s := modShard wl core (fun sh => { sh with rets := later }) (now.foldl (fun s r => opDone r.1 r.2 s) s)
  if later.isEmpty || s.agenda.any (·.ev == .lowerAckComplete wl core) then s else post 1 (.lowerAckComplete wl core) s

/-- After any change at a shard: its window, its pushes, its pops, and a steal where a pop waits with nothing eligible. -/
def runShard (wl core : Nat) (s : State) : State :=
  let s := runRets wl core (servePops wl core (runPushes wl core 8192 (shiftWindow wl core 256 s)))
  let s := match wlOf s wl with
    | none => s
    | some w => match shardIn w core with
      | none => s
      | some sh =>
        if sh.pops.isEmpty || w.terminated || eligible w sh || s.agenda.any (fun d => d.ev == .stealRequest wl core) then s
        else post 0 (.stealRequest wl core) s
  wlTick wl s

/-- LOWER_ACK_COMPLETE (R207): the stalled item enters; the shard's other work goes on with it. -/
def execLowerAckComplete (wl shard : Nat) (s : State) : Host.Outcome State Fault Refusal := .next (runShard wl shard s)

/-- LOWER_RECEIVE (R207). -/
def execLowerReceive (wl shard key frm : Nat) (s : State) : Host.Outcome State Fault Refusal :=
  if shardHeld s shard then .next (post 1000 (.lowerReceive wl shard key frm) s) else
  match wlOf s wl with
  | none => .next s
  | some w =>
    let s := modShard wl shard (fun sh => { sh with
      f := min sh.f key, cap := min sh.cap key, capRound := if key < sh.cap then w.round else sh.capRound }) s
    let s := modShard wl frm (fun sh => { sh with pushes := match sh.pushes with
      | p :: r => { p with acks := p.acks.filter (· != shard) } :: r
      | [] => [] }) s
    let s := if (shardOf s wl frm).any fun sh => (sh.pushes.head?).any fun p => p.acks.isEmpty && sh.lowering.isSome
      then post 0 (.lowerAckComplete wl frm) s else s
    .next (shiftWindow wl shard 256 s)

/-! ## Floor rounds (R206) -/

/-- Whether a worklist's context is there and it has not ended. -/
def wlLive (s : State) (w : Worklist) : Bool := !w.terminated && (ctxOf s w.wrec.ctx).any (·.en)

/-- FLOOR_ROUND_START: the local minima are collected, and the result goes out to every shard. -/
def execFloorRoundStart (wl : Nat) (s : State) : Host.Outcome State Fault Refusal := match wlOf s wl with
  | none => .next s
  | some w =>
    if !wlLive s w || !wlActive w then .next s
    else if w.roundOpen || w.shards.any (fun sh => shardHeld s sh.core) || !(cutPeers s w).isEmpty then .next (wlTick wl s)
    else
      let g := globalFloor w
      let s := modWl wl (fun w => { w with
        round := w.round + 1, result := if g = noKey then none else some g, roundOpen := true,
        shards := w.shards.map fun sh => { sh with reported := some (localMin w sh) } }) s
      .next (wlTick wl (postAll (w.shards.map fun sh => .floorRoundAnnounce wl sh.core) s))

/-- Confirm the steals of a thief at which no round is open (R211). -/
def confirmSteals (wl core : Nat) (s : State) : State := match shardOf s wl core with
  | none => s
  | some sh =>
    if sh.reported.isSome then s else
    let done := (sh.taken.filter fun t => t.2.isEmpty).map (·.1)
    let s := modShard wl core (fun sh => { sh with taken := sh.taken.filter fun t => !t.2.isEmpty }) s
    done.foldl (fun s v => modShard wl v (fun sh => { sh with given := sh.given.eraseP fun g => g.1 == core }) s) s

/-- FLOOR_ROUND_ANNOUNCE: a shard adopts the result. -/
def execFloorRoundAnnounce (wl shard : Nat) (s : State) : Host.Outcome State Fault Refusal :=
  if shardHeld s shard then .next (post 1000 (.floorRoundAnnounce wl shard) s) else
  match wlOf s wl with
  | none => .next s
  | some w =>
    let adopt := fun sh : Shard => { sh with
      f := match w.result with
        | some r => min r sh.cap
        | none => sh.f
      cap := if sh.capRound < w.round then 0xFFFFFFFF else sh.cap
      reported := none }
    if (shardIn w shard).all fun sh => sh.reported.isNone then .next s else
    let s := modShard wl shard adopt s
    let s := modWl wl (fun w => { w with roundOpen := w.shards.any fun sh => sh.reported.isSome }) s
    .next (runShard wl shard (confirmSteals wl shard s))

/-! ## Stealing (R210, R211) -/

/-- The other shards of this device in the order in which a thief asks them, without those of a lost die. -/
def stealOrder (s : State) (w : Worklist) (core : Nat) : List Nat :=
  let cs := (List.range 160).filter fun c => c != core && w.shards.any (·.core == c) && !s.pkg.lostDies.getLsbD (coreDie c)
  let near := cs.filter fun c => coreCluster c == coreCluster core
  let rest := cs.filter fun c => !near.contains c
  near ++ rest.filter (core < ·) ++ rest.filter (· < core)

/-- The other span devices that a thief then asks, in ascending span number after its own, wrapping; those without a remaining route are
skipped (R28, R210). What a reachable peer's shards give lies outside the model (log entry 15). -/
def stealDevices (s : State) (w : Worklist) : List Nat :=
  let ds := (List.range 16).filter fun d => w.wrec.spanmask.getLsbD d && d != s.pkg.spanDev && (routeTo s d).isSome
  ds.filter (s.pkg.spanDev < ·) ++ ds.filter (· < s.pkg.spanDev)

/-- Take up to n eligible items by the order of R199. -/
def takeMany (w : Worklist) (lim : Nat) : Nat → List Item → List Item × List Item
  | 0, its => ([], its)
  | n + 1, its => match takeFirst w lim its with
    | none => ([], its)
    | some (i, rest) =>
      let r := takeMany w lim n rest
      (i :: r.1, r.2)

/-- STEAL_REQUEST (R210): the first shard in order that has eligible items gives up to 8; a shard on a halted die holds the request. Where no shard
of the device gives, the request goes to the other span devices in class WLW (R25). -/
def execStealRequest (wl shard : Nat) (s : State) : Host.Outcome State Fault Refusal := match wlOf s wl with
  | none => .next s
  | some w => match shardIn w shard with
    | none => .next s
    | some thief =>
      if w.terminated || eligible w thief || thief.taken.any (fun t => !t.2.isEmpty) then .next s else
      let victims := (stealOrder s w shard).filterMap fun c => (shardIn w c).bind fun v => if v.bound then some v else none
      match victims.find? fun v => shardHeld s v.core || eligible w v with
      | none => .next ((stealDevices s w).foldl (fun s d => sendPeer d 4 s) s)
      | some v =>
        if shardHeld s v.core then .next (post 1000 (.stealRequest wl shard) s) else
        let (out, kept) := takeMany w (v.f + w.wrec.lambda) 8 v.items
        let s := modShard wl v.core (fun v => { v with items := kept, given := v.given ++ [(shard, out)] }) s
        let s := modShard wl shard (fun t => { t with taken := t.taken ++ [(v.core, out)] }) s
        .next (post 0 (.stealConfirm wl shard) s)

/-- Stolen items enter in the order given (R199, R211): how many did, and whether the shard waits for its spill. Where no chunk is free for the items that
would make room, they stay unentered with the thief (DESIGN CHOICE, log entry 142). -/
def enterStolen (wl core : Nat) : Nat → List Item → State → Nat × Bool × State
  | 0, its, s => (0, !its.isEmpty, s)
  | _, [], s => (0, false, s)
  | fuel + 1, i :: r, s => match goOn wl core s with
    | (false, s) => (0, true, s)
    | (true, s) => match wlOf s wl with
      | none => (0, false, s)
      | some w => match shardIn w core with
        | none => (0, false, s)
        | some sh =>
          if sh.items.length < 4096 then
            let (n, wait, s) := enterStolen wl core fuel r (modShard wl core (fun sh => { sh with items := sh.items ++ [i] }) s)
            (n + 1, wait, s)
          else if spillRoom s w sh < 40 then (0, true, s)
          else enterStolen wl core fuel (i :: r) (spillHighest w sh s)

/-- Take n items off the front of the steals. -/
def takenRest : Nat → List (Nat × List Item) → List (Nat × List Item)
  | _, [] => []
  | n, t :: r => (t.1, t.2.drop n) :: takenRest (n - t.2.length) r

/-- STEAL_CONFIRM (R211): the items enter in the order given, and the steal is confirmed where no round is open at the thief. -/
def execStealConfirm (wl shard : Nat) (s : State) : Host.Outcome State Fault Refusal :=
  if shardHeld s shard then .next (post 1000 (.stealConfirm wl shard) s) else
  let taken := ((shardOf s wl shard).map (·.taken)).getD []
  let (n, wait, s) := enterStolen wl shard 64 (taken.flatMap (·.2)) s
  let s := modShard wl shard (fun sh => { sh with taken := takenRest n sh.taken }) s
  let s := if wait then post 1000 (.stealConfirm wl shard) s else s
  .next (runShard wl shard (confirmSteals wl shard s))

/-! ## Termination (R212, R213) -/

/-- TERMINATION_WAVE: two agreeing waves in a row declare termination, and waiting pops return with nothing. -/
def execTerminationWave (wl : Nat) (s : State) : Host.Outcome State Fault Refusal := match wlOf s wl with
  | none => .next s
  | some w =>
    if !w.armed || !wlLive s w || w.unreachable.isSome then .next s
    else if (w.shards.any fun sh => shardHeld s sh.core) || !(cutPeers s w).isEmpty then .next (wlTick wl s)
    else
      let now := ((w.shards.map (·.push)).foldl (· + ·) 0, (w.shards.map (·.ret)).foldl (· + ·) 0, w.shards.all shardEmpty)
      if w.wave = some now ∧ now.1 = now.2.1 ∧ now.2.2 = true then
        let s := modWl wl (fun w => { w with terminated := true, wave := some now }) s
        .next (w.shards.foldl (fun s sh => servePops wl sh.core s) s)
      else .next (wlTick wl (modWl wl (fun w => { w with wave := some now }) s))

/-! ## Handover (R197, R217) -/

/-- The worklist that a core's shard is bound to. -/
def boundTo (s : State) (core : Nat) : Option Worklist := s.worklists.find? fun w => (shardIn w core).any (·.bound)

/-- Whether a group resident on a core is bound to a worklist. -/
def userOn (s : State) (wl core : Nat) : Bool :=
  s.blocks.any fun b => b.core == core && (b.state == .resident || b.state == .halting) && b.groups.any fun g => !g.exited && g.wlBound == some wl

/-- Spill what a shard has on chip, 40 items at a time, and say whether that is done; what finds no chunk stays with the slot. -/
def spillAll (wl core : Nat) : Nat → State → Bool × State
  | 0, s => (true, s)
  | n + 1, s => match goOn wl core s with
    | (false, s) => (false, s)
    | (true, s) => match wlOf s wl with
      | none => (true, s)
      | some w => match shardIn w core with
        | none => (true, s)
        | some sh =>
          let its := sh.items.take (spillRoom s w sh)
          if its.isEmpty || w.unreachable.isSome then (true, s) else spillAll wl core n (beginSpill wl core its s)

/-- The address of a core's state slot. -/
def slotVa (s : State) (w : Worklist) (core : Nat) : W64 := w.wrec.stbase + BitVec.ofNat 64 (256 * slotNum s w.wrec core)

/-- The shard is free for another record, and what waits for it goes on: groups that bind and blocks that are to be placed or resumed. -/
def freeShard (wl core : Nat) (stored : Bool) (s : State) : State :=
  spaceFreed (wakeWhere (·.core == core) (fun w => w == .handover)
    (modShard wl core (fun sh => { sh with bound := false, leaving := false, vacated := sh.vacated || stored }) s))

/-- SHARD_HANDOVER (R217): the shard spills its items, writes its state to the slot, whose format is not architected, and is free for another
record. The slot goes on counting as the worklist's shard. A shard whose worklist has met a killed spill or an error of its own keeps its state here. -/
def execShardHandover (core : Nat) (s : State) : Host.Outcome State Fault Refusal :=
  match boundTo s core with
  | none => .next (spaceFreed (wakeWhere (·.core == core) (fun w => w == .handover) s))
  | some w =>
    if shardHeld s core || (shardIn w core).any (·.spillToken.isSome) then .next (post 1000 (.shardHandover core) s)
    else if w.killed || w.unreachable.isSome then .next (freeShard w.id core false s) else
    match spillAll w.id core 128 (modShard w.id core (fun sh => { sh with leaving := true }) s) with
    | (false, s) => .next (post 1 (.shardHandover core) s)
    | (true, s) =>
      match shardAccess w core 2 (slotVa s w core) 256 (some ((List.range 256).map (Config.spillByte s.free))) { s with free := s.free + 1 } with
      | .ok _ s => .next (freeShard w.id core true s)
      | .wait s => .next (post 1 (.shardHandover core) s)
      | .fault s => .next s
      | .bad => .next (freeShard w.id core false s)
      | .nak m va pa s => .next (freeShard w.id core false (shardFails w.id (ueWords m va pa 0 1) s))

/-- The worklist that a context has bound to a record, if any. -/
def wlNamed (s : State) (ctx : Nat) (addr : W64) : Option Worklist := s.worklists.find? fun w => w.wrec.ctx == ctx && w.wrec.addr == addr

/-- Whether a block of a context, with a record in its launch, is placed on a core only after a handover of the core's shard (R217). -/
def mustHand (s : State) (core ctx : Nat) (rec_ : W64) : Bool := (boundTo s core).any fun w =>
  w.wrec.ctx != ctx || (rec_ != 0 && w.wrec.addr != rec_)

/-- The core's shard takes its worklist's slot up again as a block of it is placed or resumed, and reads the state slot (R217); where the read
cannot be made now, the first worklist instruction there makes it. -/
def takeSlot (core ctx : Nat) (rec_ : W64) (s : State) : State := match wlNamed s ctx rec_ with
  | none => s
  | some w => match shardIn w core with
    | none => s
    | some sh =>
      if !sh.vacated || (boundTo s core).isSome then s else
      let s := modShard w.id core (fun sh => { sh with bound := true }) s
      match probe s (.core core) ctx .read (slotVa s w core) with
      | .ok _ _ => (match shardAccess w core 3 (slotVa s w core) 256 none s with
        | .ok _ s => modShard w.id core (fun sh => { sh with vacated := false }) s
        | .wait s => s
        | .fault s => s
        | .bad => s
        | .nak _ _ _ s => s)
      | .fault _ => setTdm ctx (walkBits s (.core core) ctx (slotVa s w core)) s
      | .nak _ => setTdm ctx (walkBits s (.core core) ctx (slotVa s w core)) s
      | .wait => setTdm ctx (walkBits s (.core core) ctx (slotVa s w core)) s

/-- SHARD_UNREACHABLE_TIMEOUT (R218): every group of the worklist traps at its next worklist instruction; a halted die is only held, and the shards of
a peer that can be reached again are not concerned. -/
def execShardUnreachableTimeout (wl shard : Nat) (s : State) : Host.Outcome State Fault Refusal :=
  .next (if s.pkg.haltDies.getLsbD (coreDie shard) && decide (shard < 160) || decide (162 ≤ shard) && (routeTo s (shard - 162)).isSome then s
    else shardFails wl (accessWords 0 0 0 0 0 false 0 1) s)

/-! ## Binding (R197, R449) -/

/-- The address of the record that an instruction binds to. -/
def wlAddr (ka : Option Nat) (x : Iss) : W64 := match ka with
  | some k => kget x.grp k
  | none => x.grp.wlrec

/-- The worklist of a record that the core's shard has read. -/
def wlKnown (s : State) (core ctx : Nat) (addr : W64) : Option Worklist :=
  (wlNamed s ctx addr).bind fun w => (shardIn w core).bind fun sh => if sh.known then some w else none

/-- SPANMASK of the worklist that an instruction is for, where the record has been read: that to which the group is bound, or will be. -/
def spanOf (addr : W64) (x : Iss) (s : State) : Nat :=
  (((x.grp.wlBound.bind (wlOf s)).orElse fun _ => wlKnown s x.core x.ctx addr).map (·.wrec.spanmask.toNat)).getD 0

/-- SCOPE.DENIED (R44, R197) under a SPANMASK: tenant scope beyond MAXSCOPE, or a span device outside the policy's. -/
def wlDenied (m : Nat) (x : Iss) (s : State) : Option Trap :=
  let allowed := bits (fnOf s x.vf).policy.toNat 39 24
  if m ≠ 0 ∧ (maxScope s x.vf < 4 ∨ (x.vf ≠ 0 ∧ m &&& (allowed ^^^ 0xFFFF) ≠ 0)) then some (trapAt .scopeDenied 4) else none

def wlScope (ka : Option Nat) (x : Iss) (s : State) : Option Trap := wlDenied (spanOf (wlAddr ka x) x s) x s

/-- What binding comes to: the worklist, or what the instruction does instead. -/
inductive Bound where
  | ok (wl : Nat) (s : State) | done (r : Res)

/-- The dies that carry a worklist's shards, and the I/O die where it spans devices: the context has touched them (R17, R218). -/
def wlDies (w : Worklist) : Nat :=
  (w.shards.map fun sh => coreDie sh.core).eraseDups.foldl (fun b d => b ||| 2 ^ d) (if w.wrec.spanmask = 0 then 0 else 2 ^ 4)

/-- A Nak on the record or the state slot: DATA.UE at the next boundary, whatever the REASON (R457; DEDUCED, log entry 76). -/
def wlNak (x : Iss) (m : Msg) (va : W64) (pa : Nat) (s : State) : Res :=
  .next (dueTrap x.g x.ctx x.vf x.core ⟨.dataUe, ueWords m va pa 0 0, false, some (x.ent.pc, x.mask, false, x.ent.pc)⟩ s)

/-- The core's shard is bound to the worklist, and so is the group; the state slot is read first where a handover has left the state there. -/
def takeShard (x : Iss) (w : Worklist) (s : State) : Bound :=
  let bind := fun s => modGrp x.g (fun g => { g with wlBound := some w.id })
    (modShard w.id x.core (fun sh => { sh with bound := true, vacated := false }) s)
  if !(shardOf s w.id x.core).any (·.vacated) then .ok w.id (runShard w.id x.core (bind s))
  else if !canonical (slotVa s w x.core) then .ok w.id (runShard w.id x.core (bind s))
  else match readAt (.core x.core) (groupKey x.g) x.ctx (slotVa s w x.core) 256 s with
    | .ok _ s => .ok w.id (runShard w.id x.core (bind s))
    | .fault p s => .done (.next (faultHere x 5 p (.group x.g) s))
    | .wait s => .done (stallWith x s)
    | .nak m a pa s => .done (wlNak x m a pa s)

/-- Bind the group to a worklist whose record has been read, or wait for the shard to be handed over (R197, R217). -/
def bindTo (x : Iss) (w : Worklist) (s : State) : Bound := match boundTo s x.core with
  | none => takeShard x w s
  | some v =>
    if v.id = w.id then takeShard x w s
    else if v.wrec.ctx = x.ctx ∧ userOn s v.id x.core then .done (.trap (wlTrap none) s)
    else .done (.next (post 0 (.shardHandover x.core) (waitHere x .handover s)))

/-- The shard reads the record once (R197); the first of them that does makes the worklist. A shard that reads it later than another checks what
it reads, and serves the worklist by the fields that the first one read. -/
def readWl (x : Iss) (addr : W64) (s : State) : Bound := match readAt (.core x.core) (groupKey x.g) x.ctx addr 128 s with
  | .fault p s => .done (.next (faultHere x 5 p (.group x.g) s))
  | .wait s => .done (stallWith x s)
  | .nak m a pa s => .done (wlNak x m a pa s)
  | .ok bs s =>
    let r := ofBytes bs
    let rc := wlRecOf x.ctx addr r
    match wlDenied rc.spanmask.toNat x s with
    | some t => .done (.trap t s)
    | none =>
    if bits r 796 0 ≠ 0 ∨ rc.spbase.toNat % 4096 ≠ 0 ∨ rc.stbase.toNat % 256 ≠ 0 ∨ ¬ rc.clmask.getLsbD (coreCluster x.core)
    then .done (.trap (wlTrap none) s)
    else
      let known := fun (w : Worklist) (s : State) => bindTo x w (modShard w.id x.core (fun sh => { sh with known := true }) s)
      match wlNamed s x.ctx addr with
      | some w => if (shardIn w x.core).isNone then .done (.trap (wlTrap none) s) else known w s
      | none =>
        let (id, s) := fresh s
        let w := newWorklist id rc
        known w (watchPeers (setTdm x.ctx (wlDies w) { s with worklists := s.worklists ++ [w] }))

/-- What stands in the way of every worklist instruction of a worklist: a killed spill (R158), or a shard that has stayed unreachable (R218) or met an
error of its own. -/
def wlBroken (w : Worklist) : Option Trap :=
  if w.killed then some (wlTrap none) else w.unreachable.map fun words => ⟨.dataUe, words, false, none⟩

/-- The binding that every worklist instruction begins with, and the traps that stand in its way; wlcfg checks the address that it names, or WLREC,
against the worklist to which the group is bound (R449). A record address that is not canonical names no record (DEDUCED, log entry 76). -/
def bindWl (cfg : Bool) (ka : Option Nat) (x : Iss) (s : State) : Bound :=
  let addr := wlAddr ka x
  match x.grp.wlBound.bind (wlOf s) with
  | some w =>
    if cfg ∧ addr ≠ w.wrec.addr then .done (.trap (wlTrap none) s) else
    match wlBroken w with
    | some t => .done (.trap t s)
    | none => bindTo x w s
  | none =>
    if addr = 0 ∨ addr.toNat % 128 ≠ 0 ∨ !canonical addr then .done (.trap (wlTrap none) s)
    else match (wlNamed s x.ctx addr).bind wlBroken with
      | some t => .done (.trap t s)
      | none => match wlKnown s x.core x.ctx addr with
        | some w => bindTo x w s
        | none => readWl x addr s

/-- A worklist instruction: path 6, the release of R204, the binding, then its effect on the shard. -/
def wlBody (cfg : Bool) (ka : Option Nat) (release : Bool) (f : Worklist → Shard → Iss → State → Res) (x : Iss) (s : State) : Res :=
  if decide (255 ≤ cnt x.grp 6) || acquiring x || (release && !relReady x s) then .stall else
  match bindWl cfg ka x s with
  | .done r => r
  | .ok wl s => match wlOf s wl with
    | none => .next s
    | some w => match shardIn w x.core with
      | none => .trap (wlTrap none) s
      | some sh => f w sh x s

/-- An instruction that its shard completes at once: path 6 rises, and falls in issue order. -/
def wlDone (x : Iss) (s : State) : State :=
  let (op, s) := fresh s
  opDone x.g op (modGrp x.g (rise 6 op) s)

/-! ## The instructions -/

/-- wlcfg (R449): the write of WLREC comes before the binding and its checks, and stays whatever these answer. -/
def execWlcfg (ka : Option Nat) (s : State) : Host.Outcome State Fault Refusal :=
  issue (sigWlcfg ka) noPre (fun x s =>
    if decide (255 ≤ cnt x.grp 6) || acquiring x then .stall else
    let writes := ka.isSome && (x.grp.wlBound.bind (wlOf s)).isNone
    let put := fun g : Group => if writes then { g with wlrec := wlAddr ka x } else g
    let y := { x with grp := put x.grp }
    let s := modGrp x.g put s
    match wlScope ka y s with
    | some t => .next (takeTrap y false t s)
    | none => match wlBody true ka false (fun _ _ x s => .next (wlDone x s)) y s with
      | .trap t s => .next (takeTrap y false t s)
      | r => r) s

/-- wlpush (R450). -/
def execWlpush (msk : Nat) (n64 : Bool) (a b : VSrc) (s : State) : Host.Outcome State Fault Refusal :=
  issue (sigWlpush msk n64 a b) (wlScope none) (wlBody false none true fun w _ x s =>
    let its := (activeLanes x.mask).map fun l =>
      (l, (⟨BitVec.ofNat 64 (srcVal x n64 a l), BitVec.ofNat 32 (srcVal x false b l)⟩ : Item))
    match its.head?, w.terminated with
    | some (l, _), true => .trap (wlTrap (some l)) s
    | _, _ =>
      let (op, s) := fresh s
      let p : PushOp := ⟨op, x.g, its, [], x.ent.pc, x.mask⟩
      let s := waitAfter x (.push op) (modGrp x.g (rise 6 op) s)
      pushEnd x (runShard w.id x.core (modShard w.id x.core (fun sh => { sh with pushes := sh.pushes ++ [p] }) s))) s
where
  /-- A push that fails as it issues traps at the instruction (R163). -/
  pushEnd (x : Iss) (s : State) : Res := match ((grpOf s x.g).map (·.held.drop x.grp.held.length)).getD [] with
    | t :: _ => if t.code = .wlCfg then .trap { t with named := none } s else .next s
    | [] => .next s

/-- The register that a pop writes, if any. -/
def popDst : VDst → Option Nat
  | .reg n => some n
  | .zero => none
  | .k _ => none

/-- wlpop (R451). -/
def execWlpop (msk : Nat) (n64 : Bool) (d : VDst) (md : Nat) (wait : Bool) (s : State) : Host.Outcome State Fault Refusal :=
  issue (sigWlpop msk n64 d md wait) (wlScope none) (wlBody false none false fun w sh x s =>
    let (op, s) := fresh s
    let p : PopOp := ⟨op, x.g, popDst d, md, n64, x.mask⟩
    let s := modGrp x.g (rise 6 op) s
    let (got, sh') := handOut w x.g (activeLanes x.mask) sh
    if !got.isEmpty || w.terminated then .next (runShard w.id x.core (endPop p got (modShard w.id x.core (fun _ => sh') s)))
    else if !wait then .next (post 0 (.stealRequest w.id x.core) (endPop p [] s))
    else
      let s := modGrp x.g (fun g => { g with pend := g.pend ++ (sigWlpop msk n64 d md wait).u.wr.map fun r => ⟨r, op⟩ }) s
      .next (runShard w.id x.core (modShard w.id x.core (fun sh => { sh with pops := sh.pops ++ [p] }) (waitAfter x (.worklist op) s)))) s

/-- The keys that the active lanes of a wlret name, with how often each is named. -/
def retireKeys (w : Worklist) (x : Iss) (b : VSrc) : List (Nat × Nat) :=
  let ks := (activeLanes x.mask).map fun l => srcVal x false b l % 2 ^ 32 / 2 ^ w.wrec.w
  ks.eraseDups.map fun k => (k, (ks.filter (· == k)).length)

/-- What a group holds at a key. -/
def heldAt (sh : Shard) (g : GRef) (k : Nat) : Nat :=
  ((sh.holds.filter fun h => h.1 == g.blk && h.2.1 == g.gid && h.2.2.1 == k).map (·.2.2.2)).sum

/-- A retirement has been made: its release follows, and completes it (R452). -/
def releaseRet (w : Worklist) (x : Iss) (s : State) : State :=
  if relReady x s then wlDone x s else
  let (op, s) := fresh s
  let s := modShard w.id x.core (fun sh => { sh with rets := sh.rets ++ [(x.g, op)] }) (modGrp x.g (rise 6 op) s)
  if s.agenda.any (·.ev == .lowerAckComplete w.id x.core) then s else post 1 (.lowerAckComplete w.id x.core) s

/-- wlret (R203, R452). -/
def execWlret (msk : Nat) (b : VSrc) (s : State) : Host.Outcome State Fault Refusal :=
  issue (sigWlret msk b) (wlScope none) (wlBody false none false fun w sh x s =>
    let ks := retireKeys w x b
    if ks.any fun k => decide (heldAt sh x.g k.1 < k.2) then .trap (wlTrap none) s else
    let less := fun (h : Nat × Nat × Nat × Nat) =>
      if h.1 = x.g.blk ∧ h.2.1 = x.g.gid then (h.1, h.2.1, h.2.2.1, h.2.2.2 - ((ks.find? (·.1 == h.2.2.1)).map (·.2)).getD 0) else h
    let s := modShard w.id x.core (fun sh => { sh with
      holds := (sh.holds.map less).filter fun h => h.2.2.2 != 0, ret := sh.ret + BitVec.ofNat 64 (ks.map (·.2)).sum }) s
    .next (releaseRet w x (wlTick w.id s))) s

/-- A worklist instruction that writes a value to a k register. -/
def readShard (i : Sig) (kd : Nat) (v : Worklist → Shard → Iss → Nat) (s : State) : Host.Outcome State Fault Refusal :=
  issue i (wlScope none) (wlBody false none false fun w sh x s => .next (wlDone x (writeK false kd (BitVec.ofNat 64 (v w sh x)) x s))) s

/-- wlfloor, wldone, wlstat (R453). -/
def execWlfloor (kd : Nat) (s : State) : Host.Outcome State Fault Refusal := readShard (sigWlfloor kd) kd (fun _ sh _ => sh.f) s

def execWldone (kd : Nat) (s : State) : Host.Outcome State Fault Refusal := readShard (sigWldone kd) kd (fun w _ _ => w.terminated.toNat) s

/-- The value of a wlstat selector. -/
def statVal (w : Worklist) (sh : Shard) (g : GRef) : Nat → Nat
  | 0 => (sh.items.length + (leavingChip sh).length) * 2 ^ 48 + heldBy sh g * 2 ^ 39 + sh.chunks.length
  | 1 => sh.push.toNat
  | 2 => sh.ret.toNat
  | _ => if shardEmpty sh then 2 ^ 32 else if localMin w sh = noKey then 0 else localMin w sh

def execWlstat (kd sel : Nat) (s : State) : Host.Outcome State Fault Refusal :=
  readShard (sigWlstat kd sel) kd (fun w sh x => statVal w sh x.g sel) s

end Sys2Proof.Machine
end

