-- ==== Sys2Proof/Machine/Sched.lean ====
section
/-! DEFINITION. Launches, placement, pre-emption and retirement (R170 to R194, R338 to R340), and the watchdog (R168). -/

namespace Sys2Proof.Machine

open Sys2Proof

/-! ## Launch records (R170 to R173) -/

/-- The fields of a record; a spawn reads BLOCKS, GPB, TEAM, CLM and NROLE as 1, 0, 0, 0 and 0 (R173). -/
def lrecOf (spawn : Bool) (r : Nat) : LRec :=
  { entry := BitVec.ofNat 64 (bits r 1023 960), argp := BitVec.ofNat 64 (bits r 959 896), seed := BitVec.ofNat 64 (bits r 895 832),
    wlrec := BitVec.ofNat 64 (bits r 831 768), tvec := BitVec.ofNat 64 (bits r 767 704),
    blocks := if spawn then 1 else bits r 703 672, gpb := if spawn then 0 else bits r 671 667, breg := bits r 666 665,
    slab := bits r 664 653, lpriv := bits r 652 645, accr := bits r 644 633, zreg := bits r 632 626,
    team := if spawn then 0 else bits r 625 623, clm := !spawn && bit r 622, prio := bits r 621 619,
    nrole := if spawn then 0 else bits r 618 616,
    roles := (List.range 4).map fun n =>
      let e := bits r (256 + 64 * n + 63) (256 + 64 * n)
      ⟨bits e 63 44, bits e 43 36, bits e 35 31, bits e 30 26⟩ }

/-- The role entries in use. -/
def LRec.inUse (l : LRec) : List Role := l.roles.take l.nrole

/-- How many entries in use hold group g. -/
def rolesAt (l : LRec) (g : Nat) : Nat := (l.inUse.filter fun e => decide (e.glo ≤ g ∧ g ≤ e.ghi)).length

/-- Whether a record is valid (R172). -/
def lrecOk (r : Nat) (l : LRec) : Bool :=
  bits r 615 512 == 0 && bits r 255 0 == 0 && decide (l.nrole ≤ 4) && l.blocks != 0 &&
    ((List.range l.nrole).all fun n => bits r (256 + 64 * n + 25) (256 + 64 * n) == 0) &&
    l.entry.toNat % 32 == 0 && decide (l.zreg ≤ 64) && (l.inUse.all fun e => decide (e.xsz ≤ 191)) &&
    (l.team == 0 || (l.gpb + 1) % (l.team + 1) == 0) && (!l.clm || l.blocks % 4 == 0) &&
    (l.nrole == 0 || ((l.inUse.all fun e => decide (e.glo ≤ e.ghi)) &&
      (List.range 32).all fun g => if g ≤ l.gpb then rolesAt l g == 1 else decide (rolesAt l g ≤ 1))) &&
    (l.inUse.all fun e => decide (baseRegs l + 8 * e.xsz ≤ 1536))

/-! ## Footprints (R174) -/

structure Foot where
  slots : Nat
  groups : Nat
  regs : Nat
  slab : Nat
  acc : Nat
  z : Nat
  deriving DecidableEq, Repr

def footOf (l : LRec) : Foot :=
  ⟨1, l.gpb + 1, (l.gpb + 1) * baseRegs l + poolSize l, 256 * l.slab + 16 * l.lpriv * 64 * (l.gpb + 1), 8 * l.accr, l.zreg⟩

def emptyCore : Foot :=
  ⟨Config.blockSlots, Config.residentGroups, Config.vectorRegs, Config.slabBytes, Config.accRows, Config.streamRegs⟩

def Foot.add (a b : Foot) : Foot := ⟨a.slots + b.slots, a.groups + b.groups, a.regs + b.regs, a.slab + b.slab, a.acc + b.acc, a.z + b.z⟩
def Foot.le (a b : Foot) : Bool := decide (a.slots ≤ b.slots ∧ a.groups ≤ b.groups ∧ a.regs ≤ b.regs ∧ a.slab ≤ b.slab ∧ a.acc ≤ b.acc ∧ a.z ≤ b.z)
def Foot.zero : Foot := ⟨0, 0, 0, 0, 0, 0⟩

/-- The space that a granule takes in a block's footprint (R192): the last of a slab may be less than 2 KiB. -/
def granFoot (f : Foot) : Granule → Foot
  | .vreg _ => { Foot.zero with regs := 8 }
  | .acc _ => { Foot.zero with acc := 8 }
  | .stream _ => { Foot.zero with z := 1 }
  | .slab i => { Foot.zero with slab := min 2048 (f.slab - 2048 * i) }
  | .control _ => Foot.zero
  | .narrow _ => Foot.zero

/-- What the absent granules of a block leave free. -/
def lacking (f : Foot) (b : Block) : Foot := b.absent.foldl (fun u g => u.add (granFoot f g)) Foot.zero

/-- What a block holds on its core: a halted block without the granules that have left it (R192). -/
def blockUse (s : State) (b : Block) : Foot := match launchOf s b.launch with
  | none => Foot.zero
  | some l =>
    let f := footOf l.lrec
    match b.state with
    | .retired => Foot.zero
    | .halted =>
      let x := lacking f b
      ⟨if b.held then f.slots else 0, if b.held then f.groups else 0, f.regs - x.regs, f.slab - x.slab, f.acc - x.acc, f.z - x.z⟩
    | .resident => f
    | .halting => f

/-! ## Space (R175, R176) -/

/-- The page of a context's save area, if its descriptor enables one (R191). -/
def saveArea (s : State) (ctx : Nat) : Option Nat :=
  let d := ofBytes ((List.range 8).map fun i => newestByte s (bits s.mg.svbase.toNat 51 12 * 4096 + 8 * ctx + i))
  if bit d 0 then some (bits d 51 12 * 4096) else none

/-- Whether a block's granules count as free for a block of context `ctx` at priority `prio` (R176). -/
def evictable (s : State) (ctx prio : Nat) (b : Block) : Bool :=
  (saveArea s b.ctx).isSome && ((b.state == .halted && decide (prioOf s b ≤ prio)) ||
    (b.ctx == ctx && parentWaits s b))

def coreBlocks (s : State) (core : Nat) : List Block := s.blocks.filter fun b => b.core == core && b.state != .retired

/-- Whether a footprint fits on a core, the block `own` left out. -/
def fitsOn (s : State) (core ctx prio : Nat) (own : Option Nat) (f : Foot) : Bool :=
  !s.pkg.lostDies.getLsbD (coreDie core) &&
    (((coreBlocks s core).filter fun b => some b.id != own && !evictable s ctx prio b).foldl (fun u b => u.add (blockUse s b)) f).le emptyCore

/-- The clusters of a function's partition (R42, R175); the PF's blocks may use every cluster. -/
def clustersOf (s : State) (vf : Nat) : List Nat :=
  if vf = 0 then List.range 40 else (List.range 40).filter fun c => bit (fnOf s vf).part.toNat c

/-- A walk that starts after the place of the previous block, and at the first where that place is no longer in the partition (R175; DESIGN CHOICE, log
entry 139). -/
def walkAfter {α : Type} [BEq α] (last : Option α) (l : List α) : List α := match last with
  | none => l
  | some c => if l.contains c then ((l.dropWhile (· != c)).drop 1) ++ l.takeWhile (· != c) ++ [c] else l

/-! ## Eviction (R192, R193) -/

/-- The kinds of granule that have an array of their own on a core. -/
inductive GKind where
  | reg | slab | acc | stream
  deriving DecidableEq, Repr

/-- Every granule of a kind that a block owns, in ascending order. -/
def ownGranules (l : LRec) (b : Block) : GKind → List Granule
  | .reg => (b.groups.flatMap fun g => (List.range (vregsOf l g / 8)).map fun n => Granule.vreg (g.gid * 192 + n)) ++
      (List.range (b.pool / 8)).map fun n => Granule.vreg (32 * 192 + n)
  | .slab => (List.range (((footOf l).slab + 2047) / 2048)).map Granule.slab
  | .acc => (List.range l.accr).map Granule.acc
  | .stream => (List.range l.zreg).map Granule.stream

/-- The units in a core's array of a kind (R174): granules, but of the slab array 256 bytes each. -/
def GKind.size : GKind → Nat
  | .reg => 1024
  | .slab => 2048
  | .acc => 2048
  | .stream => 256

/-- Whether a granule lies in the array of a kind. -/
def GKind.holds : GKind → Granule → Bool
  | .reg, .vreg _ => true
  | .slab, .slab _ => true
  | .acc, .acc _ => true
  | .stream, .stream _ => true
  | _, _ => false

/-- The units of its array that a granule takes: itself, but of a slab, whose last granule may be short, 256 bytes each. -/
def unitsOf (l : LRec) : Granule → Nat
  | .slab i => min 8 (((footOf l).slab - 2048 * i) / 256)
  | .vreg _ => 1
  | .acc _ => 1
  | .stream _ => 1
  | .control _ => 1
  | .narrow _ => 1

/-- The bytes of a unit in a save slot. -/
def unitBytes : Granule → Nat
  | .slab _ => 256
  | .vreg _ => 2048
  | .acc _ => 2048
  | .stream _ => 2048
  | .control _ => 2048
  | .narrow _ => 2048

/-- The granules of one kind that a block has on its core. -/
def granulesOf (s : State) (b : Block) (k : GKind) : List Granule := match launchOf s b.launch with
  | none => []
  | some l => (ownGranules l.lrec b k).filter fun g => !b.absent.contains g

/-- The units of a core's array that the granules of its blocks take. -/
def placesTaken (s : State) (core : Nat) (k : GKind) : List Nat :=
  (coreBlocks s core).flatMap fun b => (b.places.filter fun e => k.holds e.1).flatMap (·.2)

/-- Hand out free units to granules in order. -/
def giveUnits (l : LRec) : List Granule → List Nat → List (Granule × List Nat)
  | [], _ => []
  | g :: r, free => (g, free.take (unitsOf l g)) :: giveUnits l r (free.drop (unitsOf l g))

/-- The places of a block that is placed or resumed: a granule that is on the core keeps its own, the others take the lowest free units. The spec
fixes no allocation (DESIGN CHOICE, log entry 109). -/
def givePlaces (s : State) (core : Nat) (l : LRec) (b : Block) : List (Granule × List Nat) :=
  b.places ++ [GKind.reg, .slab, .acc, .stream].flatMap fun k =>
    let taken := placesTaken s core k
    giveUnits l ((ownGranules l b k).filter fun g => !b.places.any (·.1 == g)) ((List.range k.size).filter fun i => !taken.contains i)

/-- The units of a granule in its core's array: a control granule's is its group's resident index, a narrow granule's that of the rows which it
serves (R191). -/
def placeOfGran (b : Block) (g : Granule) : List Nat :=
  let look := fun g : Granule => ((b.places.find? fun e => e.1 == g).map (·.2)).getD []
  match g with
  | .vreg _ => look g
  | .slab _ => look g
  | .acc _ => look g
  | .stream _ => look g
  | .narrow n => look (.acc n)
  | .control n => [((grpIn b n).map (·.ridx)).getD 0]

/-- The region of a save slot that holds a granule (R191). -/
def slotRegion : Granule → Nat
  | .vreg _ => 0
  | .acc _ => 0x200000
  | .stream _ => 0x600000
  | .slab _ => 0x680000
  | .control _ => 0x700000
  | .narrow _ => 0x780000

/-- Where unit `u` of a granule is saved in a save area (R191). -/
def saveAddr (page core u : Nat) (g : Granule) : Nat := page + 0xB80000 * core + slotRegion g + unitBytes g * u

/-- Write a granule to its save slot, each unit at its offset in the core's array; its bytes there are not architected, and the core has it no more
(R191 to R193). -/
def evict (blk : Nat) (g : Granule) (s : State) : State := match blkOf s blk with
  | none => s
  | some b =>
    let us := placeOfGran b g
    let s := match saveArea s b.ctx with
      | some page => us.foldl (fun s u =>
        let a := saveAddr page b.core u g
        devWrite a ((List.range (unitBytes g)).map (Config.spillByte s.free)) (touch b.ctx a { s with free := s.free + 1 })) s
      | none => s
    modBlk blk (fun b => { b with
      absent := b.absent ++ [g], savedAt := b.savedAt ++ [(g, us)], places := b.places.filter (·.1 != g) }) s

/-- Whether accumulator granule a lies under an open l6 run of the block whose narrow accumulators are on the core. -/
def hasNarrow (b : Block) (a : Nat) : Bool :=
  !b.absent.contains (.narrow a) && b.groups.any fun g => g.run.any fun r => overlap (8 * a) 8 r.r0 64

/-- The narrow granules on the core whose rows have left it. -/
def looseNarrow (b : Block) : List Granule := b.absent.filterMap fun g => match g with
  | .acc a => if hasNarrow b a then some (.narrow a) else none
  | .vreg _ => none
  | .slab _ => none
  | .stream _ => none
  | .control _ => none
  | .narrow _ => none

/-- Halt a block on the spot: its latches are lost, its accesses that are not accepted are recorded, a copy stands before its next element (R186,
R187), and a batch with an incomplete op records the halt (R430, R431). Absent granules have no place on the core. -/
def haltNow (blk : Nat) (s : State) : State :=
  let s := holdAccs blk { s with eng := { s.eng with
    copies := mapIf (fun c => c.tag == 0 && c.g.any fun g => g.blk == blk) (fun c => { c with val := none }) s.eng.copies } }
  let s := (((blkOf s blk).map looseNarrow).getD []).foldl (fun s g => evict blk g s) s
  modBlk blk (fun b => { b with
    state := .halted
    haltedAt := s.mcyc
    places := b.places.filter fun e => !b.absent.contains e.1
    groups := b.groups.map fun g => markHalt (modEntries (fun e => { e with latches := e.latches.map fun l => { l with valid := false } }) g) }) s

/-- Issue stops for a running block at its next instruction boundary (R186). -/
def beginHalt (b : Block) (s : State) : State :=
  b.groups.foldl (fun s g => if g.ahead.isSome then stopAhead ⟨b.id, g.gid, false⟩ s else s)
    (modBlk b.id (fun b => { b with state := .halting, groups := b.groups.map markHalt }) s)

/-- A waiting parent gives way: it halts where it stands, and the rest of its set with it (R176, R177). -/
def giveWay (blk : Nat) (s : State) : State := match blkOf s blk with
  | none => s
  | some b =>
    if b.state ≠ .resident then s else
    let rest := (setBlocks s b).filter fun c => c.state == .resident && c.id != blk
    let s := rest.foldl (fun s c => beginHalt c s) (haltNow blk s)
    if rest.isEmpty then s else post 0 (.haltComplete b.ctx) s

/-- The part of a footprint that is a kind's. -/
def Foot.part (f : Foot) : GKind → Nat
  | .reg => f.regs
  | .slab => f.slab
  | .acc => f.acc
  | .stream => f.z

/-- Evict a granule; rows under an open l6 run leave with their narrow accumulators. -/
def evictRows (b : Block) (g : Granule) (s : State) : State := match g with
  | .acc a => evict b.id g (if hasNarrow b a then evict b.id (.narrow a) s else s)
  | g => evict b.id g s

/-- Evict some granules until `need` of their kind is free: what is still needed. -/
def evictSome (f : Foot) (k : GKind) (b : Block) : List Granule → Nat → State → Nat × State
  | [], need, s => (need, s)
  | g :: r, need, s => if need = 0 then (0, s) else evictSome f k b r (need - (granFoot f g).part k) (evictRows b g (giveWay b.id s))

/-- Evict granules of one kind from the victims in order until `need` of it is free. -/
def evictKind (k : GKind) : List Nat → Nat → State → State
  | [], _, s => s
  | v :: vs, need, s => match blkOf s v, (blkOf s v).bind fun b => launchOf s b.launch with
    | some b, some l =>
      let r := evictSome (footOf l.lrec) k b (granulesOf s b k) need s
      evictKind k vs r.1 r.2
    | _, _ => evictKind k vs need s

/-- Release block slots and resident indices until both deficits are met. -/
def freeSlots : List Nat → Nat → Nat → State → State
  | [], _, _, s => s
  | v :: vs, slots, groups, s =>
    if slots = 0 ∧ groups = 0 then s else
    match blkOf s v with
    | none => freeSlots vs slots groups s
    | some b => if !b.held then freeSlots vs slots groups s else
      freeSlots vs (slots - 1) (groups - b.groups.length) (modBlk v (fun b => { b with held := false }) (giveWay v s))

/-- Evict control granules of halted blocks beyond the 512 that the core keeps (R192). -/
def freeControl : List Nat → Nat → State → State
  | [], _, s => s
  | v :: vs, n, s => match blkOf s v with
    | none => freeControl vs n s
    | some b =>
      let gs := ((b.groups.map fun g => Granule.control g.gid).filter fun g => !b.absent.contains g).take n
      freeControl vs (n - gs.length) (gs.foldl (fun s g => evict v g s) s)

/-- Insert a block into a list by priority, then by the time of its halt. A waiting parent has the time of its last halt, 0 for none (DESIGN CHOICE, log
entry 140). -/
def insVictim (s : State) (b : Block) : List Block → List Block
  | [] => [b]
  | c :: r => if prioOf s b < prioOf s c ∨ (prioOf s b = prioOf s c ∧ b.haltedAt < c.haltedAt) then b :: c :: r else c :: insVictim s b r

/-- Some blocks in the order in which they give up their granules (R192). -/
def victims (s : State) (bs : List Block) : List Nat := (bs.foldl (fun l b => insVictim s b l) []).map (·.id)

/-- Make room for a footprint on a core by lazy saves: the victims are the evictable blocks, lowest priority and earliest halt first; a
waiting parent halts when something is taken from it. -/
def makeRoom (core ctx prio : Nat) (own : Option Nat) (f : Foot) (s : State) : State :=
  let others := (coreBlocks s core).filter fun b => some b.id != own
  let vs := victims s (others.filter (evictable s ctx prio))
  let u := others.foldl (fun u b => u.add (blockUse s b)) f
  let ctl := (others.flatMap fun b => b.groups.filter fun g => !b.absent.contains (.control g.gid)).length + f.groups
  if u.le emptyCore && decide (ctl ≤ 512) then s else
  let s := [GKind.reg, .slab, .acc, .stream].foldl (fun s k => evictKind k vs (u.part k - emptyCore.part k) s) s
  let s := freeSlots vs (u.slots - emptyCore.slots) (u.groups - emptyCore.groups) s
  freeControl (victims s ((coreBlocks s core).filter fun b => some b.id != own && b.state == .halted)) (ctl - 512) s

/-- Whether a batch of a group has all its ops performed and is about to complete, which promotes its last run (R286). -/
def closing (g : Group) : Bool := (g.closed.find? fun b => !b.done).any fun b => b.dops == b.nops

/-- Whether the matrix engine still drains a block that halts: a run towards its promotion point, or a row of a move (R186, R431). -/
def draining (s : State) (b : Block) : Bool := b.groups.any closing ||
  (firstOps (coreMops s b.core) []).any fun o => o.g.blk == b.id && (grpIn b o.g.gid).any (drains o)

/-- Whether space on a core that counts as free is that of a waiting parent on which the matrix engine still works: it is taken at the next boundary
(R176, R186). -/
def parentBusy (s : State) (core ctx prio : Nat) (own : Option Nat) : Bool :=
  (coreBlocks s core).any fun b => some b.id != own && b.state == .resident && evictable s ctx prio b && draining s b

/-! ## Placing (R175, R177, R178, R182) -/

/-- The resident indices that are taken on a core. -/
def takenIdx (s : State) (core : Nat) : List Nat := ((coreBlocks s core).filter (·.held)).flatMap fun b => b.groups.map (·.ridx)

/-- The n lowest free resident indices. -/
def freeIdx (s : State) (core n : Nat) : List Nat := ((List.range 256).filter fun i => !(takenIdx s core).contains i).take n

def roleIndex (l : LRec) (g : Nat) : Nat :=
  ((List.range l.nrole).find? fun n => (l.roles[n]?).any fun e => decide (e.glo ≤ g ∧ g ≤ e.ghi)).getD 0

/-- A group as it starts (R178); a loss that its context has recorded is due in it (R19). -/
def startGroup (l : Launch) (now gid ridx : Nat) (lost : BitVec 16) : Group :=
  { gid := gid, ridx := ridx,
    stack := [{ pc := l.lrec.entry, mask := BitVec.allOnes 64, rpc := 0, fmt := 0x8004D3, sib := false, wait := .none, latches := [],
                chain := 0, chainPc := 0, reissue := none, launching := none }],
    onChip := 1, turn := false, k := FMap.set 0 [] 0 (l.k0.getD l.lrec.argp), m := [], v := [], ext := 0, role := roleIndex l.lrec gid,
    accBase := 0, accLim := 0, tvec := l.lrec.tvec, trec := 0, dstk := 0, wlrec := l.lrec.wlrec, dsectl := 0, handler := none,
    held := if lost = 0 then [] else [⟨.dieLost, lost.zeroExtend 256, false, none⟩], flights := [], pend := [], busy := [], marks := [],
    seen := [], gens := [], ctrs := [], window := [], batch := freshBatch, closed := [], nextBatch := 1, run := none, teamOps := 0,
    wlBound := none, faultWait := none, ahead := none, waitFrom := now, exited := false, exitPc := 0 }

/-- Place block `bid` of a launch on a core. -/
def placeBlock (l : Launch) (core bid setId : Nat) (id : Nat) (s : State) : State :=
  let s := makeRoom core l.ctx l.prio none (footOf l.lrec) s
  let idx := freeIdx s core (l.lrec.gpb + 1)
  let lost := ((ctxOf s l.ctx).map (·.lost)).getD 0
  let b : Block :=
    { id := id, launch := l.id, ctx := l.ctx, vf := l.vf, bid := bid, core := core, state := .resident, since := s.ns, haltedAt := 0,
      setId := setId, groups := (List.range (l.lrec.gpb + 1)).map fun g => startGroup l s.mcyc g (idx.getD g 0) lost, pool := poolSize l.lrec,
      acqQueue := [], slab := [], acc := [], z := [], zdep := [], barriers := [], cbarriers := [], issued := [], absent := [],
      held := true, broken := [], places := [], savedAt := [] }
  let b := { b with places := givePlaces s core l.lrec b }
  let s := { s with blocks := s.blocks ++ [b] }
  takeSlot core l.ctx l.lrec.wlrec
    (modLaunch l.id (fun x => { x with nextBid := bid + 1, lastCore := some core, waitFrom := s.ns }) (setTdm l.ctx (2 ^ coreDie core) s))

/-- Whether the driver holds a context halted on a core's cluster (R189). -/
def heldOn (s : State) (ctx core : Nat) : Bool := (ctxOf s ctx).any fun c => c.hold.getLsbD (coreCluster core)

/-- What the placement of a launch's next block comes to: it is placed, a shard must be handed over or an engine drained first (R217, R186), or it fits
nowhere. -/
inductive Placed where
  | done (s : State) | hand (s : State) | none
  deriving DecidableEq, Repr

/-- Ask for the handover of a core's shard. -/
def askHand (core : Nat) (s : State) : State := if s.agenda.any (·.ev == .shardHandover core) then s else post 0 (.shardHandover core) s

/-- Place the next block of a launch, or its next set of four, on the first core or cluster where it fits. -/
def placeNext (l : Launch) (s : State) : Placed :=
  let f := footOf l.lrec
  let ok := fun c => !heldOn s l.ctx c && fitsOn s c l.ctx l.prio none f
  let hand := fun c => mustHand s c l.ctx l.lrec.wlrec
  let took := modCtx l.ctx (fun c => { c with lost := 0 })
  if l.lrec.clm then
    match (walkAfter (l.lastCore.map coreCluster) (clustersOf s l.vf)).find? fun c => (clusterCores c).all ok with
    | none => .none
    | some c =>
      if (clusterCores c).any fun c => parentBusy s c l.ctx l.prio none then .hand (post 1 (.blockPlace l.id) s) else
      if (clusterCores c).any hand then .hand (((clusterCores c).filter hand).foldl (fun s c => askHand c s) s) else
      let (first, s) := fresh s
      .done (took ((List.range 4).foldl (fun s i =>
        let (id, s) := if i = 0 then (first, s) else fresh s
        placeBlock l ((clusterCores c).getD i 0) (l.nextBid + i) first id s) s))
  else
    match (walkAfter l.lastCore ((clustersOf s l.vf).flatMap clusterCores)).find? ok with
    | none => .none
    | some c =>
      if parentBusy s c l.ctx l.prio none then .hand (post 1 (.blockPlace l.id) s) else
      if hand c then .hand (askHand c s) else
      let (id, s) := fresh s
      .done (took (placeBlock l c l.nextBid id id s))

/-! ## Pre-emption requests (R185, R186, R189) -/

/-- Halt what runs of a context on some clusters, whole sets with it; a context without a save descriptor is never pre-empted. -/
def requestHalt (ctx : Nat) (on : Nat → Bool) (s : State) : State :=
  if (saveArea s ctx).isNone then s else
  let hit := (s.blocks.filter fun b => b.ctx == ctx && b.state == .resident && on (coreCluster b.core)).flatMap fun b =>
    (setBlocks s b).filter (·.state == .resident)
  if hit.isEmpty then s else post 0 (.haltComplete ctx) (hit.foldl (fun s b => beginHalt b s) s)

/-- The lowest-priority block in a list, the longest resident first. -/
def lowestOf (s : State) : List Block → Option Block
  | [] => none
  | b :: r => match lowestOf s r with
    | none => some b
    | some c => if prioOf s c < prioOf s b ∨ (prioOf s c = prioOf s b ∧ c.since < b.since) then some c else some b

/-- Raise a request for space in some clusters that function `vf` waits for, from a context of another function whose running blocks satisfy
`p`, unless one is in progress there. -/
def raiseOn (vf : Nat) (cl : List Nat) (p : Block → Bool) (s : State) : State :=
  let near := s.blocks.filter fun b => cl.contains (coreCluster b.core) && b.vf != vf
  if near.any (·.state == .halting) then s else
  match lowestOf s (near.filter fun b => b.state == .resident && (saveArea s b.ctx).isSome && p b) with
  | some b => requestHalt b.ctx (cl.contains ·) s
  | none => s

/-- The time slice in nanoseconds (R190). -/
def sliceNs (s : State) : Nat := bits s.mg.schedctl.toNat 15 0 * 10000

/-- The requests that a launch raises while its next block fits nowhere (R185): against lower priority, and once it has waited longer than the
slice against equal priority. -/
def raiseFor (l : Launch) (s : State) : State :=
  let cl := clustersOf s l.vf
  let s := raiseOn l.vf cl (fun b => decide (prioOf s b < l.prio)) s
  if sliceNs s = 0 ∨ s.ns ≤ l.waitFrom + sliceNs s then s else raiseOn l.vf cl (fun b => prioOf s b == l.prio) s

/-- Arm the slice of a launch whose next block waits: it has waited longer than the slice one nanosecond after it. -/
def armSlice (l : Launch) (s : State) : State :=
  let at_ := l.waitFrom + sliceNs s + 1
  if sliceNs s = 0 ∨ at_ ≤ s.ns ∨ s.agenda.any fun d => d.ev == .sliceExpiry l.id && decide (d.time ≤ at_) then s
  else post (at_ - s.ns) (.sliceExpiry l.id) s

/-- The launches whose next block waits for space. -/
def pendingLaunches (s : State) : List Launch := s.launches.filter fun l => l.status == .running && decide (l.nextBid < l.lrec.blocks)

/-- A block has come to run: the launches of other functions that wait look again at whom they may pre-empt (R185). -/
def cameToRun (vf : Nat) (s : State) : State :=
  postAll (((pendingLaunches s).filter fun l => l.vf != vf && !s.agenda.any (·.ev == .blockPlace l.id)).map fun l => .blockPlace l.id) s

/-- The priority with which a placement or a resumption that is due asks for space. -/
def spaceRank (s : State) : Instr → Nat
  | .blockPlace l => ((launchOf s l).map (·.prio)).getD 0
  | .blockResume b => ((blkOf s b).map (prioOf s)).getD 0
  | _ => 0

/-- Whether another placement or resumption that is due has a higher priority: it goes first (R193). -/
def outranked (e : Instr) (s : State) : Bool := s.agenda.any fun d => decide (d.time ≤ s.ns ∧ d.cyc ≤ s.mcyc ∧ spaceRank s e < spaceRank s d.ev)

/-- BLOCK_PLACE (R175, R185). -/
def execBlockPlace (launch : Nat) (s : State) : Host.Outcome State Fault Refusal := match launchOf s launch with
  | none => .next s
  | some l =>
    if l.status ≠ .running ∨ l.lrec.blocks ≤ l.nextBid then .next s
    else if outranked (.blockPlace launch) s then .next (post 0 (.blockPlace launch) s) else
    match placeNext l s with
    | .done s =>
      let s := cameToRun l.vf s
      .next (if (launchOf s launch).any fun l => decide (l.nextBid < l.lrec.blocks) then post 0 (.blockPlace launch) s else s)
    | .hand s => .next s
    | .none => .next (raiseFor l (armSlice l s))

/-- SLICE_EXPIRY (R185, R190). -/
def execSliceExpiry (launch : Nat) (s : State) : Host.Outcome State Fault Refusal := match launchOf s launch with
  | none => .next s
  | some l => if l.status ≠ .running ∨ l.lrec.blocks ≤ l.nextBid ∨ sliceNs s = 0 then .next s else .next (raiseFor l (armSlice l s))

/-- Whether a halting block stands at an instruction boundary in every group, with no chain open. -/
def atBoundary (s : State) (b : Block) : Bool :=
  (b.groups.all fun g => g.ahead.isNone && (chainLows s b g).isEmpty) && !draining s b

/-- The halt or release that PREEMPTC asked for is complete (R189): the register that named the context reads 0, be it the PF's or the
VF's. -/
def clearPreemptc (ctx : Nat) (s : State) : State :=
  let clear := fun (fn : Nat) (s : State) => modFn fn (fun f => if f.preemptc.toNat % 2 ^ 16 = ctx then { f with preemptc := 0 } else f) s
  match ctxOf s ctx with
  | some c => clear 0 (clear c.vf s)
  | none => s

/-- HALT_COMPLETE (R186): once every target core stands at a boundary and its engines have drained; until then it is looked at again. -/
def execHaltComplete (ctx : Nat) (s : State) : Host.Outcome State Fault Refusal :=
  let bs := s.blocks.filter fun b => b.ctx == ctx && b.state == .halting
  if bs.all (atBoundary s) then
    let s := bs.foldl (fun s b => haltNow b.id s) s
    .next (spaceFreed (if (ctxOf s ctx).any (·.hold != 0) then clearPreemptc ctx s else s))
  else .next (post 1 (.haltComplete ctx) s)

/-- The engines of a block go on: copies, matrix ops, stream windows and the acquire queue (R187). -/
def wakeEngines (b : Block) (s : State) : State :=
  let cs := s.eng.copies.filter fun c => c.g.any fun g => g.blk == b.id
  let s := postAll (cs.map fun c => .copyCommandComplete c.op) s
  let s := if (coreMops s b.core).isEmpty then s else post 0 (.matrixOpComplete b.core) s
  let s := if (FMap.get [] s.eng.windows b.core).isEmpty then s else post 0 (.streamWindowRun b.core) s
  if b.acqQueue.isEmpty then s else post 0 (.xacqGrant b.id) s

/-- Give a resumed block its resident indices: the same where free, else the lowest free ones (R193). -/
def giveIdx (b : Block) (s : State) : State :=
  if b.held then s else
  let taken := takenIdx s b.core
  let keep := (b.groups.map (·.ridx)).filter fun i => !taken.contains i
  let other := (List.range 256).filter fun i => !taken.contains i && !keep.contains i
  let r := b.groups.foldl (fun (p : List Group × List Nat) g =>
    if taken.contains g.ridx then (p.1 ++ [{ g with ridx := p.2.headD 0 }], p.2.drop 1) else (p.1 ++ [g], p.2)) ([], other)
  modBlk b.id (fun b => { b with groups := r.1, held := true }) s

/-- The record of the worklist that a block uses: that to which a group of it is bound, else its launch's (R217). -/
def blockRec (s : State) (b : Block) : W64 :=
  ((b.groups.findSome? fun g => if g.exited then none else (g.wlBound.bind (wlOf s)).map (·.wrec.addr)).orElse fun _ =>
    (launchOf s b.launch).map (·.lrec.wlrec)).getD 0

/-- Resume one halted block: the time that it was halted does not count as ready (R183), and its recorded accesses are issued again (R187). It counts as
resident since its placement (DESIGN CHOICE, log entry 138). -/
def resumeOne (blk : Nat) (s : State) : State := match blkOf s blk, (blkOf s blk).bind fun b => launchOf s b.launch with
  | some b, some l =>
    let s := giveIdx b (makeRoom b.core b.ctx (prioOf s b) (some blk) (footOf l.lrec) s)
    let places := givePlaces s b.core l.lrec b
    let s := modBlk blk (fun b => { b with
      state := .resident, places := places,
      groups := b.groups.map fun g => { g with waitFrom := g.waitFrom + (s.mcyc - b.haltedAt) } }) s
    checkRetire blk (reissueAccs blk b.core (wakeEngines b (takeSlot b.core b.ctx (blockRec s b) s)))
  | _, _ => s

/-- BLOCK_RESUME (R193, R177): a released block, with its whole set, once its footprint fits again and the shards of its cores are handed over
(R217). A block that the boost of R216 raises may pre-empt for its core. -/
def execBlockResume (blk : Nat) (s : State) : Host.Outcome State Fault Refusal := match blkOf s blk with
  | none => .next s
  | some b =>
    let set := (setBlocks s b).filter (·.state != .retired)
    let free := fun c : Block => c.state == .halted && !heldOn s c.ctx c.core
    let fits := fun c : Block => (launchOf s c.launch).any fun l => fitsOn s c.core c.ctx (prioOf s c) (some c.id) (footOf l.lrec)
    let hand := set.filter fun c => mustHand s c.core c.ctx (blockRec s c)
    if (ctxOf s b.ctx).all (·.cst == 3) || !set.all free then .next s
    else if outranked (.blockResume blk) s then .next (post 0 (.blockResume blk) s)
    else if !set.all fits then
      .next (if popBoost s blk = 0 then s else raiseOn b.vf [coreCluster b.core] (fun c => decide (prioOf s c < prioOf s b)) s)
    else if set.any fun c => parentBusy s c.core c.ctx (prioOf s c) (some c.id) then .next (post 1 (.blockResume blk) s)
    else if !hand.isEmpty then .next (hand.foldl (fun s c => askHand c.core s) s)
    else .next (cameToRun b.vf (set.foldl (fun s c => resumeOne c.id s) s))

/-- GRANULE_FILL (R193): the granule is read from its save slot and is back; the home of the slot may be halted (R167). What a halted block lacks is
asked for again once it resumes. -/
def execGranuleFill (blk : Nat) (g : Granule) (s : State) : Host.Outcome State Fault Refusal := match blkOf s blk with
  | none => .next s
  | some b =>
    if b.state = .halted then .next s else
    let us := ((b.savedAt.find? fun e => e.1 == g).map (·.2)).getD []
    let as := match saveArea s b.ctx with
      | some page => us.map fun u => saveAddr page b.core u g
      | none => []
    if as.any (homeHalted s) then .next (post 1000 (.granuleFill blk g) s)
    else .next (fillIn blk g (as.foldl (fun s a => touch b.ctx a s) s))
where
  fillIn (blk : Nat) (g : Granule) (s : State) : State :=
    modBlk blk (fun b => { b with absent := b.absent.erase g, savedAt := b.savedAt.eraseP fun e => e.1 == g }) s

/-! ## Retirement (R179, R180, R340) -/

def LStatus.num : LStatus → Nat
  | .running => 0
  | .done => 0
  | .badrec => 1
  | .nofit => 2
  | .killed => 3

/-- Write a launch's status to the groups of its context that wait for it, and let them go on. -/
def wakeLwait (l : Launch) (s : State) : State :=
  let hit := fun w : Wait => match w with
    | .lwait _ h => h == l.handle && l.handle != 0
    | _ => false
  let land := fun g : Group => g.stack.foldl (fun g e => match e.wait with
    | .lwait (some kd) h => if h = l.handle then kset kd (BitVec.ofNat 64 l.status.num) g else g
    | _ => g) g
  { s with blocks := mapIf (·.ctx == l.ctx) (fun b => { b with groups := b.groups.map fun g => wakeIn hit s.mcyc (landIn land g) }) s.blocks }

/-- A launch has ended: its waiters go on, its parent may retire or launch again, and its queue hears of it (R49, R52). -/
def endLaunch (id : Nat) (st : LStatus) (s : State) : State :=
  let s := modLaunch id (fun l => { l with status := st }) s
  match launchOf s id with
  | none => s
  | some l =>
    let s := if l.handle = 0 then s else wakeLwait l s
    let s := match l.parent with
      | some p => checkRetire p (wakeWhere (·.id == p) (fun w => w == .launchLimit) s)
      | none => s
    let s := match l.queue with
      | some (q, n) => if st = .badrec ∨ st = .nofit then stopQueue q (some n) 8 s else s
      | none => s
    let s := workEnd l.queue (if st = .done then .success else .failed) s
    if l.queue.isSome then { s with launches := s.launches.filter (·.id != id) } else s

/-- BLOCK_RETIRE (R179): the block's space is free; its launch retires with its last block. Of a cluster-mode set the barriers and
slabs stay until the last of its blocks retires. -/
def execBlockRetire (blk : Nat) (s : State) : Host.Outcome State Fault Refusal := match blkOf s blk with
  | none => .next s
  | some b =>
    if !retirable s b then .next s else
    let s := { s with launches := s.launches.filter fun l => l.parent != some blk }
    let s := modBlk blk (fun b => { b with state := .retired }) s
    let s := if (setBlocks s b).all (·.state == .retired) then
        { s with blocks := s.blocks.filter fun c => !(c.launch == b.launch && c.setId == b.setId) } else s
    let s := modLaunch b.launch (fun l => { l with retired := l.retired + 1 }) s
    let s := match launchOf s b.launch with
      | some l => if l.status = .running ∧ l.retired = l.lrec.blocks then endLaunch l.id .done s else s
      | none => s
    .next (spaceFreed s)

/-! ## Launching (R172, R173, R339) -/

/-- Start a launch, under a handle that a group has taken (0 for a queue's), from a record that has been read (none where its address is not canonical or
aligned). -/
def startLaunch (ctx vf prio depth h : Nat) (k0 : Option W64) (queue : Option (Nat × Nat)) (parent : Option Nat) (spawn : Bool)
    (r : Option Nat) (s : State) : State :=
  let lr := lrecOf spawn (r.getD 0)
  let ok := r.any fun n => lrecOk n lr
  let (id, s) := fresh s
  let l : Launch := ⟨id, ctx, vf, h, lr, min prio (if queue.isSome then lr.prio else 7), depth, k0, queue, parent, 0, 0, none, s.ns, s.ns,
    false, none, .running⟩
  let s := { s with launches := s.launches ++ [l] }
  let s := match parent with
    | some p => modBlk p (fun b => { b with issued := b.issued ++ [id] }) s
    | none => s
  if (ctxOf s ctx).any (·.cst == 3) then endLaunch id .killed s
  else if !ok then endLaunch id .badrec s
  else if !(footOf lr).le emptyCore then endLaunch id .nofit s
  else
    let wdt := ((ctxOf s ctx).map (·.wdt)).getD 0
    let s := if wdt = 0 then s else post (wdt * 1000000) (.watchdogExpiry id) s
    post 0 (.blockPlace id) s

/-- Launches of the block that have not retired, those whose records are still to be read among them. -/
def openLaunches (x : Iss) (s : State) : Nat := match blkOf s x.g.blk with
  | none => 0
  | some b => (b.issued.filter fun l => (launchOf s l).any (·.status == .running)).length +
      (b.groups.map fun g => (g.stack.filter (·.launching.isSome)).length).sum

/-- launch and spawn (R339) take their handle and write it before the record is read: the entry stays at the instruction until that has been done. -/
def takeHandle (nw : Bool) (kd : Nat) (va : W64) (k0 : Option W64) (x : Iss) (s : State) : State :=
  let h := ((ctxOf s x.ctx).map (·.handle)).getD 0
  let s := writeK nw kd (BitVec.ofNat 64 h) x (modCtx x.ctx (fun c => { c with handle := c.handle + 1 }) s)
  modGrp x.g (modEntry x.g.low fun _ => { invalidate (if nw then [] else [kCd kd]) x.ent with launching := some (h, va, k0) }) s

/-- The record of a launch whose handle has been taken is read, and the launch starts. -/
def readLaunch (spawn : Bool) (h : Nat) (va : W64) (k0 : Option W64) (x : Iss) (s : State) : Res :=
  let go := fun (r : Option Nat) (s : State) =>
    Res.next (startLaunch x.ctx x.vf x.lau.prio (x.lau.depth + 1) h k0 none (some x.g.blk) spawn r s)
  if va.toNat % 128 ≠ 0 || !canonical va then go none s
  else match readAt (.core x.core) (groupKey x.g) x.ctx va 128 s with
    | .fault p s => .fault p s
    | .wait s => stallWith x s
    | .nak m a pa s => recNak x m a pa s
    | .ok bs s => go (some (ofBytes bs)) s

/-- launch and spawn (R339). -/
def launchBody (nw : Bool) (kd ka : Nat) (spawn : Bool) (k0 : Option W64) (x : Iss) (s : State) : Res :=
  match x.ent.launching with
  | some (h, va, k0) => readLaunch spawn h va k0 x s
  | none =>
    if 64 ≤ openLaunches x s then .next (parentGives x.g.blk (waitHere x .launchLimit s))
    else if !relReady x s then .stall
    else .next (takeHandle nw kd (kget x.grp ka) k0 x s)

/-- LAUNCH.DEPTH (R173). -/
def depthCheck (x : Iss) (_ : State) : Option Trap := if 10 ≤ x.lau.depth then some (trapAt .launchDepth 0) else none

def execLaunch (nw : Bool) (kd ka : Nat) (s : State) : Host.Outcome State Fault Refusal :=
  issue (sigLaunch nw kd ka) depthCheck (fun x s => launchBody nw kd ka false none x s) s

def execSpawn (nw : Bool) (kd ka : Nat) (arg : Option Nat) (s : State) : Host.Outcome State Fault Refusal :=
  issue (sigSpawn nw kd ka arg) depthCheck (fun x s => launchBody nw kd ka true (arg.map (kget x.grp)) x s) s

def execLwait (nw : Bool) (kd ka : Nat) (s : State) : Host.Outcome State Fault Refusal :=
  issue (sigLwait nw kd ka) noPre (fun x s =>
    let h := (kget x.grp ka).toNat
    if h = 0 then .next (writeK nw kd 0 x s)
    else match s.launches.find? fun l => l.ctx == x.ctx && l.handle == h with
      | none => .next (writeK nw kd 3 x s)
      | some l =>
        if l.status = .running then .next (parentGives x.g.blk (waitAfter x (.lwait (if nw then none else some kd) h) s))
        else .next (writeK nw kd (BitVec.ofNat 64 l.status.num) x s)) s

/-! ## The watchdog (R168) -/

/-- WATCHDOG_EXPIRY: a launch still running after WDT milliseconds without a halted die posts CAUSE 6. The record names no group; its
SRC and AGENT are those of the queue engines (log entry 14). -/
def execWatchdogExpiry (launch : Nat) (s : State) : Host.Outcome State Fault Refusal := match launchOf s launch with
  | none => .next s
  | some l =>
    let wdt := ((ctxOf s l.ctx).map (·.wdt)).getD 0 * 1000000
    if l.status ≠ .running ∨ l.wdPosted ∨ wdt = 0 ∨ l.wdPause.isSome then .next s
    else if s.ns < l.started + wdt then .next (post (l.started + wdt - s.ns) (.watchdogExpiry launch) s)
    else .next (postLone l.vf l.ctx 6 0 178 0 (modLaunch launch (fun l => { l with wdPosted := true }) s))

end Sys2Proof.Machine
end

