-- ==== Sys2Proof/Machine/Comp.lean ====
section
/-! DEFINITION. Inline compression at the home slices (R75 to R81): reads of a page's entry and sectors with the CRC check, write-backs with
their three outcomes, pins, and retries. What the sectors of a page that is not stored raw hold is the implementation's: their bytes
are free, and what they stand for is kept beside them. -/

namespace Sys2Proof.Machine

open Sys2Proof

/-- CRC-32C (Castagnoli) of some bytes. -/
def crcStep (c : Nat) (b : Byte) : Nat :=
  (List.range 8).foldl (fun c _ => if c % 2 = 1 then (c / 2) ^^^ 0x82F63B78 else c / 2) (c ^^^ b.toNat)
def crc32c (bs : List Byte) : Nat := bs.foldl crcStep 0xFFFFFFFF ^^^ 0xFFFFFFFF

/-- The compression-table entry of a page as memory holds it. -/
def tableEntry (s : State) (page : Nat) : BitVec 512 :=
  BitVec.ofNat 512 (ofBytes (devRead s (ctAddr s (compP page)) 64))

/-- The entry that the slice uses: its cached copy unless CTSYNC has dropped it (R80). -/
def usedEntry (s : State) (c : CompPage) : BitVec 512 := if c.drop then tableEntry s c.page else c.entry

/-- Write an entry back to the table, but for its heat byte, which stands there (R75). -/
def putEntry (page : Nat) (e : BitVec 512) (s : State) : State :=
  let a := ctAddr s (compP page)
  let bs := toBytes 64 e.toNat
  devWrite (a + 60) (bs.drop 60) (devWrite a (bs.take 59) s)

def putComp (c : CompPage) (s : State) : State :=
  { s with coh := { s.coh with comp := s.coh.comp.filter (·.page != c.page) ++ [c] } }
def dropComp (page : Nat) (s : State) : State := { s with coh := { s.coh with comp := s.coh.comp.filter (·.page != page) } }

/-- The address of sector i of an entry. -/
def sectorAddr (e : BitVec 512) (i : Nat) : Nat := bits e.toNat (32 * i + 31) (32 * i) * 512

/-- The owning function of a page. -/
def entryVf (e : BitVec 512) : Nat := bits e.toNat 471 465

/-- The page's bytes as its sectors give them. -/
def sectorBytes (s : State) (page : Nat) (e : BitVec 512) : List Byte :=
  if bits e.toNat 461 458 = 0 then List.replicate 4096 0
  else if bit e.toNat 463 then (List.range 8).flatMap fun i => devRead s (sectorAddr e i) 512
  else FMap.get (List.replicate 4096 0) s.coh.stored page

/-- Let the requests that waited for a page's lines go on, before all others, in their order. -/
def releaseComp (page : Nat) (s : State) : State :=
  let mine := s.coh.compHeld.filter fun q => q.msg.pa / 4096 == page
  drain { s with coh := { s.coh with
    compHeld := s.coh.compHeld.filter fun q => q.msg.pa / 4096 != page, homeQ := mine ++ s.coh.homeQ } }

/-- Answer the requests that wait for a page's lines with an error (R63). -/
def nakComp (page : Nat) (s : State) : State :=
  let mine := s.coh.compHeld.filter fun q => q.msg.pa / 4096 == page
  mine.foldl (fun s q => sendNak q.msg 0 none s)
    { s with coh := { s.coh with compHeld := s.coh.compHeld.filter fun q => q.msg.pa / 4096 != page } }

/-- The sectors that a page needs (R76): none when it is all zeros, otherwise the implementation's count, 1 to 8. -/
def sectorsFor (bs : List Byte) : Nat := if bs.all (· == 0) then 0 else max 1 (min 8 (Config.sectorCount bs))

/-- Store a page in its sectors (R76, R77): a page of eight sectors raw, else in the implementation's format. -/
def storePage (c : CompPage) (e : BitVec 512) (bs : List Byte) (n : Nat) (s : State) : State :=
  let put := fun (i : Nat) (data : List Byte) (s : State) =>
    memWrite (sectorAddr e i) data (recallNow (sectorAddr e i) 512 s)
  let s := (List.range n).foldl (fun s i =>
    if n = 8 then put i (slice 0 bs (512 * i) 512) s
    else { put i ((List.range 512).map (Config.spillByte s.free)) s with free := s.free + 1 }) s
  let s := { s with coh := { s.coh with stored := FMap.set [] s.coh.stored c.page (if n = 0 ∨ n = 8 then [] else bs) } }
  let e := setBits (setBits (setBits (setBits e.toNat 511 480 (crc32c bs)) 461 458 n) 463 463 (n / 8)) 462 462 0
  let s := putEntry c.page (BitVec.ofNat 512 e) s
  let vf := entryVf (BitVec.ofNat 512 e)
  let s := if n = 8 then modFn vf (fun f => { f with cmpRaw := min (2 ^ 24 - 1) (f.cmpRaw + 1) }) s else s
  let s := if c.pinned then modFn vf (fun f => { f with cmpPin := f.cmpPin - 1 }) s else s
  missAgain (dropComp c.page s)

/-- Report that a page needs more sectors (R77, R152): CAUSE 4, SRC 7, at its home slice; the waiter is the page. -/
def postExpansion (page vf : Nat) (s : State) : State :=
  (postBatch vf (2 ^ 16) 7 (256 + sliceOf (page * 4096)) 0 [⟨compP page, 1, 4, 0, 0⟩] (.comp page)
    (modFn vf (fun f => { f with cmpExp := min 65535 (f.cmpExp + 1) }) s)).2

/-- Try the write-back of a page. A page that does not fit is pinned and reported, unless its slice has 32 pinned pages (R78). -/
def writeBackPage (page : Nat) (s : State) : State := match compOf s page with
  | none => s
  | some c =>
    if !c.lines || !c.dirty || pageInUse s page || homeLost s (page * 4096) then s else
    let e := usedEntry s c
    let bs := memRead s (page * 4096) 4096
    let n := sectorsFor bs
    if n ≤ bits e.toNat 457 454 then storePage c e bs n s
    else if c.pinned then postExpansion page (entryVf e) (putComp { c with entry := e, drop := false } s)
    else if 32 ≤ (s.coh.comp.filter fun x => x.pinned && sliceOf (x.page * 4096) == sliceOf (page * 4096)).length then s
    else
      let e := BitVec.ofNat 512 (setBits e.toNat 462 462 1)
      let s := putComp { c with entry := e, drop := false, pinned := true } (putEntry page e s)
      postExpansion page (entryVf e) (modFn (entryVf e) (fun f => { f with cmpPin := f.cmpPin + 1 }) s)

/-- The compressed pages whose lines a slice's L2 holds, 4 KiB each. -/
def l2Pages (slice : Nat) (s : State) : List CompPage := s.coh.comp.filter fun c => c.lines && sliceOf (c.page * 4096) == slice

/-- Make room in a full L2 for the lines of a page (R2, R76, R78): another page of the slice leaves it, a dirty one by being written back, and which
one goes is the implementation's, but none on which a transaction is open. Whether there is room then: none where every page is pinned, in use, or
dirty without a way to write it back. A page that is pinned on the way stays pinned and reported. -/
def l2Room (page : Nat) : Nat → State → Bool × State
  | 0, s => (false, s)
  | fuel + 1, s =>
    let here := l2Pages (sliceOf (page * 4096)) s
    if here.length * 4096 < Config.l2Bytes then (true, s) else
    let free := here.filter fun c => !c.pinned && !pageInUse s c.page && !(c.dirty && homeLost s (c.page * 4096))
    let pick := free[Config.l2Victim s.free % free.length]?
    let s := { s with free := s.free + 1 }
    match pick with
    | none => (false, s)
    | some c => if c.dirty then l2Room page fuel (writeBackPage c.page s) else l2Room page fuel (dropComp c.page s)

/-- COMP_READ_MISS (R76 to R78): the entry and the sectors are read, the page is decompressed into the L2, where room has been made for it, and its
CRC is checked. What write-backs have brought meanwhile lies over it. An error of memory in the entry or the sectors answers what waits with
an error (R63); without room what waits is held, and so it is while a die that the page needs is lost (R20). -/
def execCompReadMiss (page : Nat) (s : State) : Host.Outcome State Fault Refusal := match compOf s page with
  | some c =>
    if c.lines then .next (releaseComp page (if c.drop then putComp { c with entry := tableEntry s page, drop := false } s else s))
    else fill c.early s
  | none => fill [] s
where
  fill (early : List (Nat × Byte)) (s : State) : Host.Outcome State Fault Refusal :=
    let e := tableEntry s page
    if homeLost s (page * 4096) then .next s
    else if compUe s page then .next (nakComp page s)
    else if bit e.toNat 464 then .next (releaseComp page (putComp ⟨page, e, [], false, false, false, false⟩ s))
    else
      let bs := sectorBytes s page e
      if bits e.toNat 461 458 ≠ 0 ∧ crc32c bs ≠ bits e.toNat 511 480 then
        let bad := BitVec.ofNat 512 (setBits e.toNat 464 464 1)
        let s := modFn (entryVf e) (fun f => { f with cmpUe := min 65535 (f.cmpUe + 1) }) (putEntry page bad s)
        .next (releaseComp page (putComp ⟨page, bad, [], false, false, false, false⟩ s))
      else match l2Room page 64 s with
        | (false, s) => .next s
        | (true, s) =>
          let s := early.foldl (fun s w => memWrite (page * 4096 + w.1) [w.2] s) (memWrite (page * 4096) bs s)
          .next (releaseComp page (putComp ⟨page, e, [], true, !early.isEmpty, false, false⟩ s))

/-- COMP_WRITEBACK (R76, R77): a dirty line of the page leaves the L2. -/
def execCompWriteback (page : Nat) (s : State) : Host.Outcome State Fault Refusal :=
  if (compOf s page).any (·.pinned) then .next s else .next (writeBackPage page s)

/-- COMP_WRITEBACK_RETRY (R79): the slice tries again after a replay, and what waited for a pin to clear goes on. -/
def execCompWritebackRetry (page : Nat) (s : State) : Host.Outcome State Fault Refusal :=
  if !(compOf s page).any (·.pinned) then .next s
  else if pageInUse s page then .next (post 1 (.compWritebackRetry page) s)
  else .next (drain (writeBackPage page s))

/-- CTSYNC_COMPLETE (R80): the home slice has dropped its cached entry; lines that hold nothing dirty and that no open transaction uses go with it. -/
def execCtsyncComplete (s : State) : Host.Outcome State Fault Refusal :=
  let page := 2 ^ 36 + bits s.mg.ctsyncp.toNat 35 0
  let s := match compOf s page with
    | some c => if c.dirty || c.pinned || !c.early.isEmpty || pageInUse s page then putComp { c with drop := true } s else dropComp page s
    | none => s
  .next { s with mg := { s.mg with ctsyncp := s.mg.ctsyncp &&& 0x7FFFFFFFFFFFFFFF#64 } }

/-- A tenant reset discards the pinned lines of its pages and leaves their earlier sectors (R79). -/
def dropPinned (vf : Nat) (s : State) : State :=
  let hit := s.coh.comp.filter fun c => c.pinned && entryVf c.entry == vf
  let s := hit.foldl (fun s c => dropComp c.page
    (putEntry c.page (BitVec.ofNat 512 (setBits (tableEntry s c.page).toNat 462 462 0)) s)) s
  if hit.isEmpty then s else missAgain (modFn vf (fun f => { f with cmpPin := f.cmpPin - hit.length }) s)

end Sys2Proof.Machine
end

