-- ==== Sys2Proof/Machine/Control.lean ====
section
/-! DEFINITION. MAJ 0x00: branches, calls, exit and traps (R331 to R337, R224, R227). -/

namespace Sys2Proof.Machine

open Sys2Proof

/-- A branch target: the branch's address plus four times the signed offset (R331). -/
def target (x : Iss) (off : W32) : W64 := x.ent.pc + (off.signExtend 64 <<< 2)

def execNop (s : State) : Host.Outcome State Fault Refusal := issue sigNop noPre (fun _ s => .next s) s

/-- The taken set of a conditional branch (R332). -/
def taken (x : Iss) (c : Nat) (neg : Bool) : Mask := x.ent.mask &&& condMask x.grp c neg

def execBra (c : Nat) (neg : Bool) (off : W32) (s : State) : Host.Outcome State Fault Refusal :=
  issue (sigBra c neg off)
    (fun x _ => if taken x c neg = x.ent.mask ∨ taken x c neg = 0 then none else some (trapAt .unif 0))
    (fun x s => .next (if taken x c neg = x.ent.mask then setPc x (target x off) s else s)) s

/-- The push of a divergent branch (R224): the issuing entry waits at rpc below its two children, of which the one in the issuer's live slot has its
latches (R239; DEDUCED, log entry 135). -/
def pushPaths (x : Iss) (t : Mask) (tgt rpc : W64) (onChip : Nat) (g : Group) : Group :=
  let parent := fun e : Entry => { e with pc := rpc, chain := 0, latches := [], reissue := none, launching := none }
  let kept := ((liveEntry g x.g.low).map (·.latches)).getD []
  let child := fun pc m sib : _ => ({ pc := pc, mask := m, rpc := rpc, fmt := x.ent.fmt, sib := sib, wait := .none,
                                      latches := if sib == x.g.low then [] else kept, chain := 0, chainPc := pc, reissue := none, launching := none } : Entry)
  let g := modEntry x.g.low parent g
  { g with
    stack := child tgt t true :: child x.npc (x.ent.mask &&& ~~~t) false :: g.stack
    onChip := onChip, turn := false }

def execBrd (c : Nat) (neg : Bool) (tgt rpc : W32) (s : State) : Host.Outcome State Fault Refusal :=
  issue (sigBrd c neg tgt rpc) noPre (fun x s =>
    let t := taken x c neg
    if t = x.ent.mask then .next (setPc x (target x tgt) s)
    else if t = 0 then .next s
    else match spillAt x (pushSpills x.grp).1 s with
      | .noPlace => .trap (accessTrap .prot 0 0 0 0 0) s
      | .beyond a => .next (dueTrap x.g x.ctx x.vf x.core { accessTrap .prot a 0 0 2 1 with restart := false, named := some (x.ent.pc, x.mask, false, x.ent.pc) }
          (modGrp x.g (pushPaths x t (target x tgt) (target x rpc) (pushSpills x.grp).2) s))
      | .fault p s => .next (faultHere x 6 p (.stack x.g) s)
      | .wait s => stallWith x s
      | .nak m a pa s => .next (dueTrap x.g x.ctx x.vf x.core (nakTrap m a 0 pa 0 1 false true (some (x.ent.pc, x.mask, false, x.ent.pc)))
          (modGrp x.g (pushPaths x t (target x tgt) (target x rpc) (pushSpills x.grp).2) s))
      | .ok s => .next (modGrp x.g (pushPaths x t (target x tgt) (target x rpc) (pushSpills x.grp).2) s)) s

/-- The values that the active lanes give a register branch (R333). -/
def brxVals (x : Iss) (a : VSrc) : List Nat := (activeLanes x.ent.mask).map (srcVal x true a)

def execBrx (a : VSrc) (s : State) : Host.Outcome State Fault Refusal :=
  issue (sigBrx a)
    (fun x _ => let vs := brxVals x a
      if vs.any (· != vs.headD 0) then some (trapAt .unif 0)
      else if vs.headD 0 % 4 ≠ 0 then some (illOf (sigBrx a)) else none)
    (fun x s => .next (setPc x (BitVec.ofNat 64 ((brxVals x a).headD 0)) s)) s

def execCall (nw : Bool) (kd : Nat) (off : W32) (s : State) : Host.Outcome State Fault Refusal :=
  issue (sigCall nw kd off) noPre (fun x s => .next (setPc x (target x off) (writeK nw kd x.npc x s))) s

def execRet (ka : Nat) (s : State) : Host.Outcome State Fault Refusal :=
  issue (sigRet ka) (fun x _ => if (kget x.grp ka).toNat % 4 ≠ 0 then some (illOf (sigRet ka)) else none)
    (fun x s => .next (setPc x (kget x.grp ka) s)) s

/-- A member of a team exits while others wait in an mmat: every waiting mmat of the team, and every later one, has no effect
(R427). -/
def breakTeam (x : Iss) (s : State) : State :=
  if x.lrec.team = 0 then s else
  let t := x.grp.gid / (x.lrec.team + 1)
  let waits := fun o : MOp => o.g.blk == x.g.blk && o.g.gid / (x.lrec.team + 1) == t && !o.started && o.isTeam
  if !(s.eng.mops.any fun e => e.2.any fun o => waits o && o.g.gid != x.g.gid) then s else
  let s := modBlk x.g.blk (fun b => { b with broken := t :: b.broken }) s
  post 0 (.matrixOpComplete x.core) { s with eng := { s.eng with mops := s.eng.mops.map fun (c, ops) =>
    (c, mapIf waits (fun o => { o with noEffect := true, started := true }) ops) } }

/-- The exit of a group's last lane: its window and batch close (R435, R416), it counts at the barriers (R342), and its block may
retire (R179). -/
def exitGroup (x : Iss) (s : State) : State :=
  let s := closeWindow x.g s
  let s := closeBatch x.g s
  let s := breakTeam x (modGrp x.g (fun g => { g with exited := true, exitPc := x.ent.pc, held := [], marks := [] }) s)
  let s := x.grp.held.foldl (fun s t => dueTrap x.g x.ctx x.vf x.core t s) s
  spaceFreed (checkRetire x.g.blk (freeExt x.g (recheckBarriers x.blk x.lrec s)))

def execExit (s : State) : Host.Outcome State Fault Refusal :=
  issue sigExit noPre (fun x s =>
    let g := clearLanes (exitLanes x) x.grp
    if g.stack.isEmpty then
      if 255 ≤ cnt x.grp 4 then .stall
      else .next (exitGroup x (modGrp x.g (clearLanes (exitLanes x)) s))
    else .next (parentGives x.g.blk (modGrp x.g (clearLanes (exitLanes x)) s))) s

def execYield (s : State) : Host.Outcome State Fault Refusal :=
  issue sigYield noPre (fun x s =>
    .next (postCycles 64 (.yieldExpiry x.g) (waitAfter x (.yielding (s.mcyc + 64000)) s))) s

/-- YIELD_EXPIRY (R335): the paths of the group whose 64 cycles have passed are ready again. -/
def execYieldExpiry (g : GRef) (s : State) : Host.Outcome State Fault Refusal :=
  .next (wakeGrp g (fun w => match w with
    | .yielding t => decide (t ≤ s.mcyc)
    | _ => false) s)

def execTrap (imm : W32) (s : State) : Host.Outcome State Fault Refusal :=
  issue (sigTrap imm) (fun _ _ => some (trapAt .soft imm.toNat)) (fun _ s => .next s) s

def execTret (s : State) : Host.Outcome State Fault Refusal := issue sigTret noPre (fun x s => returnTrap x s) s

/-- STACK_FILL (R228): entries are filled back until min(depth, 3) are on chip; a fault on an overflow page is replayable (R229), and an
address that is not canonical, or an error, leaves its trap due at the group's next boundary (R140, R165). A slab place waits for the fill of an
absent granule (R193). -/
def execStackFill (r : GRef) (s : State) : Host.Outcome State Fault Refusal :=
  match issRaw r 0 0 s with
  | none => .next s
  | some x =>
    let want := min x.grp.stack.length 3
    let below := x.grp.stack.length - want
    .next (fillFrom x want ((List.range (want - x.grp.onChip)).map (below + ·)) s)
where
  fillFrom (x : Iss) (want : Nat) : List Nat → State → State
    | [], s => modGrp x.g (fun g => { g with onChip := max g.onChip want }) s
    | p :: ps, s => match placeOf x.lrec x.grp p with
      | some (.va a) =>
        if !canonical a then fillFrom x want ps (dueTrap x.g x.ctx x.vf x.core (accessTrap .prot a 0 0 2 0) s)
        else match readAt (.core x.core) (groupKey x.g) x.ctx a 32 s with
        | .ok _ s => fillFrom x want ps s
        | .fault f s => faultHere x 6 f (.stack x.g) s
        | .nak m a pa s => fillFrom x want ps (dueTrap x.g x.ctx x.vf x.core (nakTrap m a 0 pa 0 0 false true none) s)
        | .wait s => s
      | some (.slab o) => (match slabGap s x.g.blk o 32 with
        | some g => askFill x.g.blk g s
        | none => fillFrom x want ps s)
      | none => fillFrom x want ps s

/-- PAD_WORD_SKIP (R309, R325): fetch goes on at the next 32-byte boundary. -/
def execPadWordSkip (_w : W32) (s : State) : Host.Outcome State Fault Refusal :=
  match s.cur with
  | none => .next s
  | some r => .next (modGrp r (modEntry r.low (fun e => { e with pc := BitVec.ofNat 64 ((e.pc.toNat / 32 + 1) * 32) })) s)

/-- The registers that an illegal word might have written, by its DST: what run-ahead then does not know (R326). -/
def illWrites (w : Nat) : List Nat :=
  let d := bits w 31 21
  [d] ++ (if d < 1536 then [d + 1] else []) ++ (if d < 16 then [mCd d] else [])

/-- ILLEGAL_WORD (R325, R326): ILL at issue, with the word in the trap words; run-ahead passes over it as an instruction of unknown result. -/
def execIllegalWord (w : BitVec 128) (s : State) : Host.Outcome State Fault Refusal :=
  match s.cur.bind fun r => issRaw r (lenOf (BitVec.ofNat 8 w.toNat)) (bits w.toNat 17 14) s with
  | none => .next s
  | some x => match x.grp.ahead with
    | some r => .next (skipAhead sigNop (illWrites w.toNat) x r s)
    | none => .next (takeTrap x false (trapAt .ill w.toNat) s)

/-- FETCH_FAULT (R156): a one-page batch without run-ahead; the group waits on it. -/
def execFetchFault (r : GRef) (s : State) : Host.Outcome State Fault Refusal :=
  match issRaw r 0 0 s with
  | none => .next s
  | some x => match probe s (.core x.core) x.ctx .fetch x.ent.pc with
    | .fault c => .next (faultHere x 1 (pageOf x.ent.pc 2 c) (.group x.g) s)
    | .ok _ _ => .next s
    | .nak _ => .next s
    | .wait => .next s

end Sys2Proof.Machine
end

