-- ==== Sys2Proof/Machine/CtlRegs.lean ====
section
/-! DEFINITION. MAJ 0x04: FMT and the control registers (R348 to R350, R276, R434). -/

namespace Sys2Proof.Machine

open Sys2Proof

/-- Write the issuing path's FMT copy. -/
def setFmt (x : Iss) (v : W64) (s : State) : State := modGrp x.g (modEntry x.g.low (fun e => { e with fmt := v })) s

def execSetfmt (ka : Nat) (s : State) : Host.Outcome State Fault Refusal :=
  issue (sigSetfmt ka) noPre (fun x s =>
    if fmtOk (kget x.grp ka) then .next (setFmt x (kget x.grp ka) s) else .trap (illOf (sigSetfmt ka)) s) s

def execSetfmtImm (imm : W32) (s : State) : Host.Outcome State Fault Refusal :=
  issue (sigSetfmtImm imm) noPre (fun x s =>
    if fmtOk (imm.zeroExtend 64) then .next (setFmt x (imm.zeroExtend 64) s) else .trap (illOf (sigSetfmtImm imm)) s) s

def execGetfmt (nw : Bool) (kd : Nat) (s : State) : Host.Outcome State Fault Refusal :=
  issue (sigGetfmt nw kd) noPre (fun x s => .next (writeK nw kd x.ent.fmt x s)) s

/-- The TEAM register (R221). -/
def teamReg (l : LRec) (gid : Nat) : Nat :=
  if l.team = 0 then 0 else gid / (l.team + 1) * 2 ^ 8 + gid % (l.team + 1) * 2 ^ 4 + l.team

/-- The value of control register c (R348). -/
def ctlReg (x : Iss) (now c : Nat) : W64 := match c with
  | 0 => x.ent.fmt
  | 1 => BitVec.ofNat 64 x.grp.role
  | 2 => BitVec.ofNat 64 x.grp.accBase
  | 3 => BitVec.ofNat 64 x.grp.accLim
  | 4 => x.grp.tvec
  | 5 => BitVec.ofNat 64 x.grp.trec
  | 6 => x.grp.dstk
  | 7 => x.lrec.seed
  | 8 => x.grp.wlrec
  | 9 => x.grp.dsectl
  | 10 => BitVec.ofNat 64 x.grp.gid
  | 11 => BitVec.ofNat 64 x.blk.bid
  | 12 => BitVec.ofNat 64 x.lrec.blocks
  | 13 => BitVec.ofNat 64 (x.lrec.gpb + 1)
  | 14 => BitVec.ofNat 64 (teamReg x.lrec x.grp.gid)
  | 15 => BitVec.ofNat 64 x.lau.depth
  | 16 => BitVec.ofNat 64 (coreRank x.core)
  | 17 => BitVec.ofNat 64 (coreFile x.core)
  | _ => BitVec.ofNat 64 now

def execCrd (nw : Bool) (kd c : Nat) (s : State) : Host.Outcome State Fault Refusal :=
  issue (sigCrd nw kd c) noPre (fun x s => .next (writeK nw kd (ctlReg x s.ns c) x s)) s

/-- The effect of cwr (R350), its checks in order. -/
def writeCtl (c ka : Nat) (x : Iss) (s : State) : Res :=
  let v := kget x.grp ka
  let set := fun f : Group → Group => Res.next (modGrp x.g f s)
  match c with
  | 0 => if fmtOk v then .next (setFmt x v s) else .trap (illOf (sigCwr c ka)) s
  | 4 => if v.toNat % 4 ≠ 0 then .trap (accessTrap .align v 0 0 0 0) s else set fun g => { g with tvec := v }
  | 5 =>
    if v.toNat % 64 ≠ 0 then .trap (accessTrap .align v 0 0 0 0) s
    else if 256 * x.lrec.slab < v.toNat + 64 then .trap (accessTrap .prot v 0 0 0 0) s
    else set fun g => { g with trec := v.toNat }
  | 6 => if 16 < x.grp.stack.length then .trap (accessTrap .prot v 0 0 0 0) s else set fun g => { g with dstk := v }
  | 8 => set fun g => { g with wlrec := v }
  | 9 =>
    if dsectlOk v then .next (modGrp x.g (fun g => { g with dsectl := v }) (closeWindow x.g s))
    else .trap (illOf (sigCwr c ka)) s
  | _ => .trap (illOf (sigCwr c ka)) s

def execCwr (c ka : Nat) (s : State) : Host.Outcome State Fault Refusal := issue (sigCwr c ka) noPre (writeCtl c ka) s

/-- clock (R350): the cycles that the core has run since module reset. -/
def execClock (nw : Bool) (kd : Nat) (s : State) : Host.Outcome State Fault Refusal :=
  issue (sigClock nw kd) noPre (fun x s => .next (writeK nw kd (BitVec.ofNat 64 (s.mcyc / 1000)) x s)) s

end Sys2Proof.Machine
end

