-- ==== Sys2Proof/Machine/Labels.lean ====
section
/-! DEFINITION. MAJ 0x2D: the label commands of a group (R131, R132, R454 to R456) and the answer of the home. -/

namespace Sys2Proof.Machine

open Sys2Proof

/-- A label command (R455): translated as a load, refused where the page is not writable, else released, sent to the home and waited
for. -/
def labelBody (ev : Msg → Instr) (wr : Bool) (kd ka lbl : Nat) (x : Iss) (s : State) : Res :=
  let va := kget x.grp ka
  if !canonical va then .trap (accessTrap .prot va 0 0 2 0) s
  else match translate (.core x.core) x.ctx .read va s with
    | (.wait, _) => .stall
    | (.fault c, s) => .fault (pageOf va 0 c) s
    | (.nak m, s) => .next (dueTrap x.g x.ctx x.vf x.core ⟨.dataUe, accessWords va 0 0 0 0 false 0 m.reason, false, some (x.ent.pc, x.mask, false, x.ent.pc)⟩ s)
    | (.ok pa leaf, s) =>
      if wr && !leaf.w then .next (writeK false kd (labelResult 4 0 0 0) x s)
      else if acquiring x || !relReady x s then .stall
      else
        let (tag, s) := fresh (touch x.ctx pa s)
        let m := { agentMsg x.core pa leaf.grain x.ctx x.vf tag false with lval := lbl, res := va }
        .next (post 0 (ev m) (waitAfter x (.label tag kd) s))

def execLblrd (kd ka : Nat) (s : State) : Host.Outcome State Fault Refusal :=
  issue (sigLblrd kd ka) noPre (labelBody .lrd false kd ka 0) s
def execLblset (kd ka lbl : Nat) (s : State) : Host.Outcome State Fault Refusal :=
  issue (sigLblset kd ka lbl) noPre (labelBody .lset true kd ka lbl) s
def execLbllock (kd ka : Nat) (s : State) : Host.Outcome State Fault Refusal :=
  issue (sigLbllock kd ka) noPre (labelBody .llock true kd ka 0) s
def execLblunl (kd ka : Nat) (s : State) : Host.Outcome State Fault Refusal :=
  issue (sigLblunl kd ka) noPre (labelBody .lunl true kd ka 0) s
def execLblhist (kd ka : Nat) (s : State) : Host.Outcome State Fault Refusal :=
  issue (sigLblhist kd ka) noPre (labelBody .lhist false kd ka 0) s

/-- Whether an entry waits for the answer with a tag. -/
def waitsLabel (tag : Nat) (e : Entry) : Bool := match e.wait with
  | .label t _ => t == tag
  | _ => false

/-- The groups with an entry that waits for an answer, with the entry. -/
def labelWaiter (tag : Nat) (s : State) : Option (GRef × Block × Entry) :=
  (s.blocks.flatMap fun b => b.groups.flatMap fun g => (g.stack.filter (waitsLabel tag)).map fun e => (⟨b.id, g.gid, false⟩, b, e)).head?

/-- The register that an entry's label command writes. -/
def labelReg (e : Entry) : Nat := match e.wait with
  | .label _ kd => kd
  | _ => 0

def wakeLabel (g : GRef) (tag : Nat) (s : State) : State := wakeGrp g (fun w => match w with
  | .label t _ => t == tag
  | _ => false) s

/-- LABEL_COMMAND_RESULT (R455, R456): the result word is written and the path goes on. -/
def execLabelCommandResult (m : Msg) (s : State) : Host.Outcome State Fault Refusal := match labelWaiter m.tag s with
  | none => .next s
  | some (g, _, e) => .next (wakeLabel g m.tag (landGrp g (kset (labelReg e) m.res) s))

/-- A Nak of a label command (R455): DATA.UE is due at the group's next boundary, and the register keeps its value. -/
def labelNak (m : Msg) (s : State) : State := match labelWaiter m.tag s with
  | none => s
  | some (g, b, e) =>
    wakeLabel g m.tag (dueTrap g b.ctx b.vf b.core (nakTrap m m.res 0 m.pa 0 0 false true (some (e.chainPc, e.mask, false, e.chainPc))) s)

end Sys2Proof.Machine
end

