-- ==== Sys2Proof/Machine/Queue.lean ====
section
/-! DEFINITION. Queues and the queue engine (R45 to R52, R478): records, command blocks, conditions, operations, parking, waiting and
completions. The engine is agent 178: it reads and writes words at their homes, holds grains in the shared state, and performs its two atomic
steps on a grain that it has exclusive (R104). An access that its home has not yet answered is asked for again until it has. -/

namespace Sys2Proof.Machine

open Sys2Proof

/-! ## Records (R45) -/

/-- Change a queue and its record. -/
def setQueue (id : Nat) (f : Queue → Queue) (s : State) : State := saveQueue id (modQueue id f s)

/-- Stop a queue at the block that it stands at. -/
def haltQueue (id code : Nat) (s : State) : State := stopQueue id none code s

/-! ## Accesses of the engine (R478) -/

/-- What a step of the engine comes to. -/
inductive QRes where
  | ok (v : W64) (s : State) | fault (p : FPage) (s : State) | nak (reason : Nat) (s : State) | wait (s : State)
  deriving DecidableEq, Repr

/-- Where the engine finds a word: its physical address and its page. -/
def qPlace (q : Queue) (va : W64) (acc : AccType) (f : Nat → Leaf → State → QRes) (s : State) : QRes :=
  if !canonical va then .fault (pageOf va acc.code 0) s else
  match translate .queue q.ctx acc va s with
  | (.wait, s) => .wait s
  | (.fault c, s) => .fault (pageOf va acc.code c) s
  | (.nak m, s) => .nak m.reason s
  | (.ok pa l, s) => f (pa / 8 * 8) l (touch q.ctx pa s)

/-- An uncached access of a word at its home. -/
def qHome (q : Queue) (use pa : Nat) (l : Leaf) (f : Option W64) (s : State) : QRes :=
  match accessNow ⟨queueKey q.id use, 178, q.ctx, q.vf, l.heat, l.grain, false⟩ pa 8 (f.map fun v => toBytes 8 v.toNat) s with
  | .ok bs s => .ok (BitVec.ofNat 64 (ofBytes bs)) s
  | .nak m s => .nak m.reason s
  | .wait s => .wait s

/-- The copy of the engine from which it may read for a queue: one that it holds for the queue's context (R54). -/
def qCopy (q : Queue) (pa gsz : Nat) (s : State) : Option Copy :=
  (copyOf s 178 (pa / gsz * gsz) gsz).filter fun c => c.pa == pa / gsz * gsz && c.gsz == gsz && c.ctx == q.ctx

/-- Read a word: in the grain that the engine holds, or at its home. -/
def qRead (q : Queue) (use : Nat) (va : W64) (s : State) : QRes := qPlace q va .read (fun pa l s => match qCopy q pa l.grain s with
  | some c => .ok (BitVec.ofNat 64 (ofBytes (slice 0 c.data (pa - c.pa) 8))) s
  | none => qHome q use pa l none s) s

/-- Store a word at its home. -/
def qWrite (q : Queue) (use : Nat) (va v : W64) (s : State) : QRes := qPlace q va .write (fun pa l s => qHome q use pa l (some v) s) s

/-- An atomic step on a word (R104): where `test` holds of it, the engine obtains the grain exclusive, changes the word in its copy and gives the
grain back. Answers the value that it found. -/
def qAtomic (q : Queue) (use : Nat) (va : W64) (test : W64 → Bool) (f : W64 → W64) (s : State) : QRes := qPlace q va .atomic (fun pa l s =>
  let g := pa / l.grain * l.grain
  let ask := fun k s => if busyGrain s 178 g l.grain q.ctx then QRes.wait s
    else .wait (request 178 g l.grain q.ctx q.vf l.heat k ([], []) q.id s)
  match qCopy q pa l.grain s with
  | some c =>
    let v := BitVec.ofNat 64 (ofBytes (slice 0 c.data (pa - c.pa) 8))
    if !test v then .ok v s
    else if c.st = .e ∨ c.st = .m then
      .ok v (evictCopy { c with st := .m, data := splice c.data (pa - c.pa) (toBytes 8 (f v).toNat) } (queueWake c.pa c.gsz s))
    else ask .upg s
  | none => match copyOf s 178 g l.grain with
    | some c => if busyGrain s 178 c.pa c.gsz q.ctx then .wait s else .wait (evictCopy c (queueWake c.pa c.gsz s))
    | none => match qHome q use pa l none s with
      | .ok v s => if test v then ask .rdx s else .ok v s
      | r => r) s

/-- A page of the engine faults (R52, R156): it does nothing for the queue until the host has answered. -/
def qFault (q : Queue) (p : FPage) (s : State) : State :=
  let (t, s) := postBatch q.vf q.ctx 4 178 (BitVec.ofNat 64 q.id) [p] (.queue q.id) s
  modQueue q.id (fun q => { q with faulted := q.faulted ++ [t] }) s

/-- A queue looks again at the word that it waits for (R49, R50). -/
def recheckEv (q : Queue) : Instr := if q.state = .parked then .queueNextRecheck q.id else .queueWaitRecheck q.id

/-- Hold the grain of a word that was read as `v` in the shared state (R49, R50). Where the engine has it already the queue need only wait, unless
a store has changed the word since it was read; where something of the grain is under way, a read of another queue apart, the queue looks again when that is over. -/
def qHold (q : Queue) (va v : W64) (s : State) : State := match translate .queue q.ctx .read va s with
  | (.ok pa l, s) =>
    let grain := pa / l.grain * l.grain
    let pa := pa / 8 * 8
    match copyOf s 178 grain l.grain with
    | some c => if slice 0 c.data (pa - c.pa) 8 = toBytes 8 v.toNat then s else post 1 (recheckEv q) s
    | none =>
      if (pendOf s 178 grain l.grain).isSome || (wbufOf s 178 grain l.grain).isSome || uncachedAhead false s 178 grain l.grain then post 1 (recheckEv q) s
      else request 178 grain l.grain q.ctx q.vf l.heat .rds ([], []) q.id s
  | (.fault c, s) => qFault q (pageOf va 0 c) s
  | (.nak m, s) => haltQueue q.id (nakCode m.reason) s
  | (.wait, s) => post 1 (recheckEv q) s

/-- QUEUE_ENGINE_NAK (R478). -/
def execQueueEngineNak (q reason : Nat) (s : State) : Host.Outcome State Fault Refusal := .next (haltQueue q (nakCode reason) s)

/-! ## Command blocks (R47) -/

structure CBlock where
  next : W64
  alt : W64
  hdr : Nat
  cadr : W64
  cval : Nat
  cmsk : Nat
  p0 : W64
  p1 : W64
  deriving DecidableEq, Repr

def cblockOf (bs : List Byte) : CBlock :=
  let w := fun n => ofBytes (slice 0 bs (8 * n) 8)
  ⟨BitVec.ofNat 64 (w 0), BitVec.ofNat 64 (w 1), w 2, BitVec.ofNat 64 (w 3), w 4, w 5, BitVec.ofNat 64 (w 6), BitVec.ofNat 64 (w 7)⟩

def CBlock.op (b : CBlock) : Nat := bits b.hdr 63 56
def CBlock.note (b : CBlock) : Bool := bit b.hdr 41
def CBlock.ser (b : CBlock) : Bool := bit b.hdr 40
def CBlock.cond (b : CBlock) : Nat := bits b.hdr 39 36
def CBlock.onFail (b : CBlock) : Nat := bits b.hdr 35 34

/-- The FCODE of a block's own checks (R52), if one fails. A WRITE or SEMREL of a misaligned word counts as misaligned. -/
def blockCheck (b : CBlock) : Option Nat :=
  if 4 < b.op ∨ 5 < b.cond ∨ b.onFail = 3 ∨ bits b.hdr 55 42 ≠ 0 ∨ bits b.hdr 33 0 ≠ 0 then some 1
  else if b.next.toNat % 128 ≠ 0 ∨ b.alt.toNat % 128 ≠ 0 ∨ b.cadr.toNat % 8 ≠ 0 ∨ ((b.op = 2 ∨ b.op = 4) ∧ b.p0.toNat % 8 ≠ 0) then some 2
  else if b.cond ≠ 0 ∧ b.onFail = 0 ∧ b.alt = 0 then some 3 else none

/-- Whether COND holds of a word (R49). -/
def condHolds (b : CBlock) (w : Nat) : Bool :=
  let v := w &&& b.cmsk
  match b.cond with
  | 1 => v == b.cval
  | 2 => v != b.cval
  | 3 => decide (b.cval ≤ v)
  | 4 => decide (v < b.cval)
  | _ => decide (b.cval ≤ w)

/-- Whether a block breaches the policy of its VF (R44): its condition, WRITE and SEMREL act at system scope (R48, R49). Which of a queue's
commands the check covers is DESIGN CHOICE (log entry 110): a COPY names no scope and no address of another device. -/
def breaches (q : Queue) (b : CBlock) (s : State) : Bool :=
  decide (maxScope s q.vf < 6) && (b.cond != 0 || b.op == 2 || b.op == 4)

/-- The word of which COND is to hold, SEMACQ taking its amount in the same atomic step. -/
def condWord (q : Queue) (b : CBlock) (s : State) : QRes :=
  if b.cond = 0 then .ok 0 s
  else if b.cond = 5 then qAtomic q 1 b.cadr (fun v => condHolds b v.toNat) (fun v => v - BitVec.ofNat 64 b.cval) s
  else qRead q 1 b.cadr s

/-! ## The walk (R49, R50) -/

/-- Earlier work that has not retired. -/
def workPending (q : Queue) : Bool := q.work.any (·.fin == .pending)

/-- Record the work of the block being served. -/
def addWork (q : Queue) (note : Bool) (fin : WorkEnd) (s : State) : State :=
  post 0 (.queueCompletionWrite q.id) (modQueue q.id (fun x => { x with work := x.work ++ [⟨q.seq, q.cptr, note, fin⟩] }) s)

/-- Go on to a block, or park where there is none; a stop that was asked for takes effect here. -/
def goTo (id : Nat) (next : W64) (s : State) : State := match queueOf s id with
  | none => s
  | some q =>
    if q.state ≠ .running then s
    else if q.stopAsked then haltQueue id 0 (modQueue id (fun q => { q with cptr := if next = 0 then q.cptr else next }) s)
    else if next = 0 then
      let s := setQueue id (fun q => { q with state := .parked, served := true, condDone := false }) s
      match queueOf s id with
      | some q => qHold q q.cptr 0 s
      | none => s
    else
      let s := setQueue id (fun q => { q with cptr := next, served := false, condDone := false, seq := q.seq + 1 }) s
      post 0 (.queueBlockServe id) (savePtr id s)

/-- Perform OP of a block (R48) and go on to NEXT; a page that faults or a busy home leaves the step to be repeated. -/
def performBlock (q : Queue) (b : CBlock) (op : Nat) (s : State) : State :=
  let again := fun s => post 1 (.queueBlockServe q.id) s
  let word := fun (r : QRes) => match r with
    | .ok _ s => goTo q.id b.next (addWork q b.note .success s)
    | .fault p s => qFault q p s
    | .nak r s => post 0 (.queueEngineNak q.id r) s
    | .wait s => again s
  match op with
  | 1 =>
    let go := fun (r : Option Nat) (s : State) => goTo q.id b.next
      (startLaunch q.ctx q.vf q.prio 1 0 none (some (q.id, q.seq)) none false r (addWork q b.note .pending s))
    if b.p0.toNat % 128 ≠ 0 || !canonical b.p0 then go none s
    else match readAt .queue (queueKey q.id 2) q.ctx b.p0 128 s with
      | .ok bs s => go (some (ofBytes bs)) s
      | .fault p s => qFault q p s
      | .nak m _ _ s => post 0 (.queueEngineNak q.id m.reason) s
      | .wait s => again s
  | 2 => word (qWrite q 1 b.p0 b.p1 s)
  | 3 =>
    if b.p0.toNat % 64 ≠ 0 then haltQueue q.id 2 s
    else if !canonical b.p0 then qFault q (pageOf b.p0 0 0) s
    else match readAt .queue (queueKey q.id 2) q.ctx b.p0 64 s with
      | .ok bs s =>
        let t := trecOf bs
        let sides := [srcSide t, dstSide t]
        if sides.any (misaligned t) then haltQueue q.id 2 s
        else if sides.any fun d => d.level == 1 || outside t 0 (padWindow q.ctx s).2 d then haltQueue q.id 1 s
        else
          let s := addWork q b.note .pending s
          let (id, s) := fresh s
          let c : CopyCmd := ⟨id, none, 0, q.ctx, q.vf, .copy, t, 0, 0, none, [], none, some (q.id, q.seq), 0, 0⟩
          goTo q.id b.next (kickCopy copyBurst id { s with eng := { s.eng with copies := s.eng.copies ++ [c] } })
      | .fault p s => qFault q p s
      | .nak m _ _ s => post 0 (.queueEngineNak q.id m.reason) s
      | .wait s => again s
  | 4 => word (qAtomic q 1 b.p0 (fun _ => true) (· + b.p1) s)
  | _ => goTo q.id b.next (addWork q b.note .success s)

/-- COND of a block has been evaluated on word `v`: perform OP, or act by FAIL (R49). -/
def afterCond (q : Queue) (b : CBlock) (v : W64) (s : State) : State :=
  let run := fun s => if q.state = .running then s else setQueue q.id (fun q => { q with state := .running }) s
  if b.cond = 0 ∨ condHolds b v.toNat then performBlock q b b.op (modQueue q.id (fun q => { q with condDone := true }) (run s))
  else match b.onFail with
    | 0 => goTo q.id b.alt (run s)
    | 1 => performBlock q b 0 (run s)
    | _ =>
      let s := setQueue q.id (fun q => { q with state := .waiting }) s
      qHold { q with state := .waiting } b.cadr v s

/-- Read the block at CPTR and check it. A CPTR that is misaligned stops the queue with 0x02, as a misaligned link to it would (DESIGN CHOICE,
log entry 112: R52 does not name it). -/
def withBlock (q : Queue) (retry : Instr) (f : CBlock → State → State) (s : State) : State :=
  let s := setTdm q.ctx 16 s
  if q.cptr.toNat % 128 ≠ 0 then haltQueue q.id 2 s
  else if !canonical q.cptr then qFault q (pageOf q.cptr 0 0) s
  else match readAt .queue (queueKey q.id 0) q.ctx q.cptr 128 s with
    | .ok bs s =>
      let b := cblockOf bs
      match blockCheck b with
      | some c => haltQueue q.id c s
      | none => if breaches q b s then haltQueue q.id 5 s else f b s
    | .fault p s => qFault q p s
    | .nak m _ _ s => post 0 (.queueEngineNak q.id m.reason) s
    | .wait s => post 1 retry s

/-- Evaluate COND and act. -/
def serveCond (q : Queue) (retry : Instr) (b : CBlock) (s : State) : State := match condWord q b s with
  | .ok v s => afterCond q b v s
  | .fault p s => qFault q p s
  | .nak r s => post 0 (.queueEngineNak q.id r) s
  | .wait s => post 1 retry s

/-- Whether the engine acts for a queue: it sits on the I/O die (R89), and waits for the answer to its faults. -/
def engineOn (q : Queue) (s : State) : Bool := !dieStopped s 4 && q.faulted.isEmpty

/-- QUEUE_BLOCK_SERVE (R49): SER, then COND, then OP; after a fault the step that faulted is repeated. -/
def execQueueBlockServe (q : Nat) (s : State) : Host.Outcome State Fault Refusal := match queueOf s q with
  | none => .next s
  | some x =>
    if x.state ≠ .running || x.served || x.serWait || !engineOn x s then .next s else
    .next (withBlock x (.queueBlockServe q) (fun b s =>
      if x.condDone then performBlock x b b.op s
      else if b.ser && workPending x then modQueue q (fun x => { x with serWait := true }) s
      else serveCond x (.queueBlockServe q) b s) s)

/-- QUEUE_SER_RESUME (R49). -/
def execQueueSerResume (q : Nat) (s : State) : Host.Outcome State Fault Refusal := match queueOf s q with
  | none => .next s
  | some x =>
    if !x.serWait || workPending x then .next s
    else .next (post 0 (.queueBlockServe q) (modQueue q (fun x => { x with serWait := false }) s))

/-- QUEUE_WAIT_RECHECK (R49): the condition is evaluated again. -/
def execQueueWaitRecheck (q : Nat) (s : State) : Host.Outcome State Fault Refusal := match queueOf s q with
  | none => .next s
  | some x =>
    if x.state ≠ .waiting || !engineOn x s then .next s
    else .next (withBlock x (.queueWaitRecheck q) (serveCond x (.queueWaitRecheck q)) s)

/-- QUEUE_NEXT_RECHECK (R50): NEXT is read again; a zero parks the queue again. -/
def execQueueNextRecheck (q : Nat) (s : State) : Host.Outcome State Fault Refusal := match queueOf s q with
  | none => .next s
  | some x =>
    if x.state ≠ .parked || !engineOn x s then .next s else
    match qRead x 1 x.cptr (setTdm x.ctx 16 s) with
    | .ok v s =>
      if v = 0 then .next (qHold x x.cptr 0 s)
      else if v.toNat % 128 ≠ 0 then .next (haltQueue q 2 s)
      else .next (goTo q v (setQueue q (fun x => { x with state := .running }) s))
    | .fault p s => .next (qFault x p s)
    | .nak r s => .next (post 0 (.queueEngineNak q r) s)
    | .wait s => .next (post 1 (.queueNextRecheck q) s)

/-! ## Completions (R49) -/

/-- Retire finished work in chain order, writing the completions of work with NOTE. A Nak of the store of DONE stops the queue at the block that it
serves then, as a Nak of the engine's other stores does (DESIGN CHOICE, log entry 112: R478 does not list that store). -/
def retireWork (id : Nat) : List Work → State → State
  | [], s => s
  | w :: r, s =>
    let drop := fun s => modQueue id (fun q => { q with work := q.work.drop 1 }) s
    match w.fin, queueOf s id with
    | .pending, _ => s
    | .failed, _ => retireWork id r (drop s)
    | .success, some q =>
      if !w.note then retireWork id r (drop s)
      else if q.caddr = 0 then retireWork id r (setQueue id (fun q => { q with done := q.done + 1 }) (drop s))
      else match qWrite q 3 q.caddr (q.done + 1) s with
        | .ok _ s => retireWork id r (setQueue id (fun q => { q with done := q.done + 1 }) (drop s))
        | .fault p s => qFault q p s
        | .nak n s => post 0 (.queueEngineNak id n) s
        | .wait s => post 1 (.queueCompletionWrite id) s
    | .success, none => s

/-- QUEUE_COMPLETION_WRITE (R49). -/
def execQueueCompletionWrite (q : Nat) (s : State) : Host.Outcome State Fault Refusal := match queueOf s q with
  | none => .next s
  | some x =>
    if !engineOn x s then .next s else
    let s := retireWork q x.work s
    .next (if (queueOf s q).any fun x => x.serWait && !workPending x then post 0 (.queueSerResume q) s else s)

/-! ## QCTL commands (R46) -/

/-- The queue range of an enabled VF: first queue and number. -/
def rangeOf (s : State) (vf : Nat) : Nat × Nat :=
  let p := (fnOf s vf).policy.toNat
  (bits p 63 52, bits p 51 40 + 1)
def vfOn (s : State) (vf : Nat) : Bool := bit (fnOf s vf).policy.toNat 12

/-- The port that serves a function: the PF by both, a VF by OWNPORT (R36). -/
def portServes (s : State) (port : Port) (fn : Nat) : Bool :=
  fn == 0 || (bit (fnOf s fn).policy.toNat 13 == (port == .b))

/-- Whether queue q is in the range of a function (R41, R46). -/
def ownsQueue (s : State) (fn q : Nat) : Bool :=
  let holds := fun v => vfOn s v && decide ((rangeOf s v).1 ≤ q ∧ q < (rangeOf s v).1 + (rangeOf s v).2)
  if fn = 0 then decide (q < 4096) && !((List.range 64).any fun v => holds (v + 1)) else holds fn

/-- QUEUE_START (R46): the record is read; a VF's queue runs only while the VF is enabled (R40). -/
def execQueueStart (port : Port) (fn q : Nat) (s : State) : Host.Outcome State Fault Refusal :=
  if !portServes s port fn || !ownsQueue s fn q || (queueOf s q).any (·.state != .stopped) then .next s else
  let r := ofBytes (devRead s (queueSlot s q) 64)
  let vf := bits r 303 297
  let prio := bits r 296 294
  let maxp := if vf = 0 then 7 else bits (fnOf s vf).policy.toNat 16 14
  if vf ≠ 0 && !vfOn s vf then .next s else
  let old := queueOf s q
  let x : Queue :=
    { id := q, cptr := BitVec.ofNat 64 (bits r 511 448), done := BitVec.ofNat 64 (bits r 447 384), caddr := BitVec.ofNat 64 (bits r 383 320),
      ctx := bits r 319 304, vf := vf, prio := prio, state := if maxp < prio then .stopped else .running,
      fcode := if maxp < prio then 6 else bits r 287 256, stopAsked := false, serWait := false, served := false, condDone := false,
      faulted := [], seq := (old.map (·.seq + 1)).getD 0, work := (old.map (·.work)).getD [] }
  let s := saveQueue q (forgetQueue q { s with queues := s.queues.filter (·.id != q) ++ [x] })
  .next (if maxp < prio then s else post 0 (.queueBlockServe q) s)

/-- QUEUE_STOP (R46): at the next block boundary, where a parked queue stands already. -/
def execQueueStop (port : Port) (fn q : Nat) (s : State) : Host.Outcome State Fault Refusal :=
  if !portServes s port fn || !ownsQueue s fn q then .next s else
  match queueOf s q with
  | none => .next s
  | some x => match x.state with
    | .parked => .next (haltQueue q 0 s)
    | .running => .next (modQueue q (fun x => { x with stopAsked := true }) s)
    | .waiting => .next (modQueue q (fun x => { x with stopAsked := true }) s)
    | .stopped => .next s

/-- QUEUE_RESET (R46): the engine forgets the queue's waits; DONE, STATE and FCODE of the record are cleared, whether or not the queue has ever
been started. The completions of work that is still in flight are dropped (DESIGN CHOICE, log entry 111). -/
def execQueueReset (port : Port) (fn q : Nat) (s : State) : Host.Outcome State Fault Refusal :=
  if !portServes s port fn || !ownsQueue s fn q then .next s else
  .next (setRecord q 0 0 0 (modQueue q (fun x => { halted 0 x with done := 0, work := [] }) (forgetQueue q s)))

/-- Let the engines that a halted or lost die held back go on. -/
def kickEngines (s : State) : State :=
  let s := postAll (s.eng.copies.map fun c => .copyCommandComplete c.op) s
  let s := postAll (s.eng.bds.flatMap fun c => c.pieces.map fun p => .bdPieceApply c.op p.1) s
  let s := postAll (s.eng.mops.map fun p => .matrixOpComplete p.1) s
  let s := postAll (s.eng.windows.map fun p => .streamWindowRun p.1) s
  let s := postAll (s.queues.map fun q => .queueCompletionWrite q.id) s
  postAll (s.queues.filterMap fun q => match q.state with
    | .running => some (.queueBlockServe q.id)
    | .waiting => some (recheckEv q)
    | .parked => some (recheckEv q)
    | .stopped => none) s

end Sys2Proof.Machine
end

