-- ==== Sys2Proof/Machine/Traps.lean ====
section
/-! DEFINITION. The events of traps and of the fault queue that need no engine: delivery of a trap and of a boundary trap (R160, R477),
the end of run-ahead (R155), and the writing of fault records to the ring (R151 to R153). -/

namespace Sys2Proof.Machine

open Sys2Proof

/-- TRAP_DELIVER (R160, R161): the trap is taken on the live slot, which stands at the instruction. -/
def execTrapDeliver (g : GRef) (t : Trap) (s : State) : Host.Outcome State Fault Refusal := match issRaw g 0 0 s with
  | none => .next s
  | some x => .next (takeTrap x false t s)

/-- BOUNDARY_TRAP (R164, R477): the trap due is taken by the live slot that issues next, or posted if the group has exited. -/
def execBoundaryTrap (g : GRef) (s : State) : Host.Outcome State Fault Refusal := match issRaw g 0 0 s with
  | some x => .next (deliverHeld x s)
  | none => match grpOf s g, blkOf s g.blk with
    | some gr, some b => .next (gr.held.foldl (fun s t => dueTrap g b.ctx b.vf b.core t s)
        (modGrp g (fun x => { x with held := [] }) s))
    | _, _ => .next s

/-- Roll a group back from run-ahead to its faulting instruction (R155). -/
def rollBack (r : RunAhead) (g : Group) : Group :=
  { g with stack := r.stack, k := r.k, m := r.m, v := r.v, gens := r.gens, ctrs := r.ctrs, ahead := none }

/-- RUN_AHEAD_END (R155): the group posts its batch, rolls back and waits on the token of its blocking page. -/
def execRunAheadEnd (g : GRef) (s : State) : Host.Outcome State Fault Refusal :=
  match blkOf s g.blk, grpOf s g with
  | some b, some gr => match gr.ahead with
    | none => .next s
    | some r =>
      let pages := (r.fault :: r.found).map fun p => (⟨p.1, p.2.1, p.2.2, 0, 0⟩ : FPage)
      let (t, s) := postBatch b.vf b.ctx 0 b.core 0 pages (.group { g with low := r.low } r.kill) s
      .next (modGrp g (fun x => { rollBack r x with faultWait := some t }) s)
  | _, _ => .next s

/-- The 64 bytes of a fault record (R152). -/
def recBytes (r : FRec) (seq : W64) : List Byte :=
  toBytes 64 ((r.vaddr % 2 ^ 64) * 2 ^ 448 + (r.ctx % 2 ^ 16) * 2 ^ 432 + (r.token % 2 ^ 16) * 2 ^ 416 + (r.npg % 64) * 2 ^ 410 +
    r.last.toNat * 2 ^ 409 + (r.acc % 8) * 2 ^ 406 + (r.cause % 16) * 2 ^ 402 + (r.src % 16) * 2 ^ 398 + (r.agent % 512) * 2 ^ 389 +
    seq.toNat * 2 ^ 320 + r.info.toNat * 2 ^ 256)

/-- The records that a ring holds, if its SIZE is valid (R150, R151). -/
def ringSize (q : FaultQ) : Option Nat :=
  let n := bits q.base.toNat 4 0
  if 6 ≤ n ∧ n ≤ 16 then some (2 ^ n) else none

/-- The batch at the head of the waiting records. -/
def headBatch (q : FaultQ) : List FRec := match q.waiting with
  | [] => []
  | r :: rest => r :: rest.takeWhile fun x => x.token == r.token

/-- Whether a batch may be written: the ring has slots for it, and the filter holds at most 256 outstanding pages (R151, R153). -/
def batchFits (q : FaultQ) (b : List FRec) : Bool := match ringSize q with
  | none => false
  | some n =>
    let unreported := (q.waiting.drop b.length).filter fun r => decide (r.cause ≤ 4)
    decide ((q.tail - q.head).toNat + b.length ≤ n) && decide (q.filter.length - unreported.length ≤ 256)

/-- Write some records of a function to the ring from slot TAIL on, as the I/O die; none where their home is busy, or where a label refuses them
(DESIGN CHOICE, log entry 130: the records then wait as R151 has them wait for room). -/
def writeRecs (fn : Nat) (q : FaultQ) (n : Nat) : Nat → List FRec → State → Option State
  | _, [], s => some s
  | i, r :: rest, s =>
    let slot := bits q.base.toNat 51 12 * 4096 + 64 * ((q.tail.toNat + i) % n)
    match cohWrite 178 r.ctx fn slot (recBytes r (q.seq + BitVec.ofNat 64 i)) s with
    | .wait => none
    | .refused _ => none
    | .ok s => writeRecs fn q n (i + 1) rest s

/-- FAULT_BATCH_POST (R151): the records of one batch are written, then TAIL advances, and MSI-X vector 0 is raised if TAIL stood at
HEAD. A batch without room waits in the device. -/
def execFaultBatchPost (fn : Nat) (s : State) : Host.Outcome State Fault Refusal :=
  let q := fqOf s fn
  let b := headBatch q
  match ringSize q with
  | none => .next s
  | some n =>
    if b.isEmpty || !batchFits q b then .next s else
    match writeRecs fn q n 0 b s with
    | none => .next (post 1 (.faultBatchPost fn) s)
    | some s =>
      let s := modFq fn (fun q => { q with
        tail := q.tail + BitVec.ofNat 32 b.length, seq := q.seq + BitVec.ofNat 64 b.length, waiting := q.waiting.drop b.length,
        msix := if q.tail = q.head then q.msix + 1 else q.msix }) s
      .next (if (fqOf s fn).waiting.isEmpty then s else post 0 (.faultBatchPost fn) s)

end Sys2Proof.Machine
end

