-- ==== Sys2Proof/Machine/Package.lean ====
section
/-! DEFINITION. The package (R10, R14 to R34): reset and power, lost dies, clock, health, Ubyozo ports and host links; and the management
semaphore (R37 to R39) that several of them need. -/

namespace Sys2Proof.Machine

open Sys2Proof

/-! ## The management semaphore (R37 to R39) -/

def setMg (f : Mgmt → Mgmt) (s : State) : State := { s with mg := f s.mg }
def setPkg (f : Pkg → Pkg) (s : State) : State := { s with pkg := f s.pkg }

/-- OWNER of MSEM: 0 free, 1 port A, 2 port B. -/
def msemOwner (s : State) : Nat := bits s.mg.msem.toNat 5 4
def portNum : Port → Nat
  | .a => 1
  | .b => 2
def holdsMsem (p : Port) (s : State) : Bool := msemOwner s == portNum p

/-- Set some bits of MSEM. -/
def msemSet (hi lo v : Nat) (s : State) : State := setMg (fun m => { m with msem := BitVec.ofNat 64 (setBits m.msem.toNat hi lo v) }) s

/-- Free MSEM: OWNER and LEASE become 0. -/
def freeMsem (s : State) : State := msemSet 31 16 0 (msemSet 5 4 0 s)

/-- A management write of a port that does not hold MSEM sets bit 0 of its management error register. -/
def mgmtError (p : Port) (s : State) : State := setMg (fun m => match p with
  | .a => { m with merrA := m.merrA ||| 1 }
  | .b => { m with merrB := m.merrB ||| 1 }) s

/-- A management write: done by the holder of MSEM, otherwise ignored with an error bit. -/
def underMsem (p : Port) (f : State → State) (s : State) : State := if holdsMsem p s then f s else mgmtError p s

/-- MSEM_ACQUIRE (R38): `a` and `b` say which ports write ACQ = 1 in this cycle. -/
def execMsemAcquire (a b : Bool) (s : State) : Host.Outcome State Fault Refusal :=
  if msemOwner s ≠ 0 ∨ (!a && !b) then .next s else
  let bWins := if a && b then !bit s.mg.msem.toNat 2 else b
  let s := if a && b then msemSet 2 2 bWins.toNat s else s
  .next (msemSet 63 32 (bits s.mg.msem.toNat 63 32 + 1) (msemSet 31 16 0 (msemSet 5 4 (if bWins then 2 else 1) s)))

/-- MSEM_RELEASE (R39). -/
def execMsemRelease (port : Port) (s : State) : Host.Outcome State Fault Refusal := .next (underMsem port freeMsem s)

/-- MSEM_LEASE_WRITE (R39): the lease runs from this write; 0 removes the expiry. -/
def execMsemLeaseWrite (port : Port) (lease : BitVec 16) (s : State) : Host.Outcome State Fault Refusal :=
  .next (underMsem port (fun s =>
    let s := setMg (fun m => { m with leaseFrom := s.ns }) (msemSet 31 16 lease.toNat s)
    if lease = 0 then s else post (lease.toNat * 1000000) .msemLeaseExpiry s) s)

/-- MSEM_LEASE_EXPIRY (R39): MSEM is freed and EXPD set when LEASE milliseconds have passed since the last write of LEASE. -/
def execMsemLeaseExpiry (s : State) : Host.Outcome State Fault Refusal :=
  let lease := bits s.mg.msem.toNat 31 16
  if msemOwner s = 0 ∨ lease = 0 ∨ s.ns < s.mg.leaseFrom + lease * 1000000 then .next s
  else .next (msemSet 3 3 1 (freeMsem s))

/-- MSEM_EXPD_CLEAR (R37). -/
def execMsemExpdClear (_port : Port) (s : State) : Host.Outcome State Fault Refusal := .next (msemSet 3 3 0 s)

/-- MGMT_ERROR_CLEAR (R39). -/
def execMgmtErrorClear (port : Port) (s : State) : Host.Outcome State Fault Refusal := .next (setMg (fun m => match port with
  | .a => { m with merrA := m.merrA &&& ~~~(1#64) }
  | .b => { m with merrB := m.merrB &&& ~~~(1#64) }) s)

/-! ## Reset and power (R10, R15, R34) -/

/-- The monitors of R32 as one list: ageing, the stacks' open and closed windows, the ports' margins, and the links' corrected errors. The margins are
the controller's own record of the ports' MARGIN fields: it resumes from the snapshot at module reset (R34), while the fields read 0 (R29) until the
ports measure again (DESIGN CHOICE, log entry 136). -/
def monitors (p : Pkg) : List Nat := p.ageing ++ p.hbmErrors ++ p.hbmClosed ++ p.margins ++ [p.linkErrors]

/-- The place of a logical core in the fuse map, die by die (R15), and the physical core that stands for it, which nothing that software sees names. -/
def fusePlace (core : Nat) : Nat := 40 * coreDie core + 4 * coreRank core + coreFile core % 4
def physicalCore (s : State) (core : Nat) : Nat := s.pkg.fuseMap.getD (fusePlace core) 0

/-- The package as module reset leaves it: the fuse map stands, the monitors resume from the last snapshot (R34), and the boot ROM checks every
die's firmware image (R56): one whose version is below the fuse-held minimum is not loaded, which leaves the die without one (DESIGN
CHOICE, log entry 119). -/
def pkgReset (p : Pkg) : Pkg :=
  let boots := p.fwVersion.map fun v => decide (p.fwMin ≤ v)
  { Pkg.reset with
    fuseMap := p.fuseMap, snapshot := p.snapshot, ageing := p.snapshot.take 5, hbmErrors := (p.snapshot.drop 5).take 8,
    hbmClosed := (p.snapshot.drop 13).take 8, margins := (p.snapshot.drop 21).take 16, linkErrors := p.snapshot.getD 37 0,
    fwVersion := (p.fwVersion.zip boots).map fun v => if v.2 then v.1 else 0,
    fwHash := (p.fwHash.zip boots).map fun h => if h.2 then h.1 else 0, fwMin := p.fwMin }

/-- MODULE_RESET (R10): every register has its reset value; memory outside the package's SRAM keeps its bytes. -/
def execModuleReset (s : State) : Host.Outcome State Fault Refusal :=
  .next { State.reset with
    pkg := pkgReset s.pkg, mem := s.mem.filter fun e => decide (e.1 < padBase), sched := s.sched, pace := s.pace, free := s.free,
    nextId := s.nextId }

/-- POWER_LOSS (R34): nothing runs until a module reset; HBM and SRAM lose their bytes, pool and host memory keep theirs. -/
def execPowerLoss (s : State) : Host.Outcome State Fault Refusal :=
  .next { State.reset with
    pkg := { pkgReset s.pkg with powered := false }, mem := s.mem.filter fun e => decide (poolBase ≤ e.1 ∧ e.1 < padBase),
    sched := s.sched, pace := s.pace, free := s.free, nextId := s.nextId }

/-! ## Lost dies (R16 to R21) -/

/-- The waits from which DIE.LOST wakes a group (R19, R477), with whether the entry stands after the waiting instruction. -/
def lostWakes : Wait → Option Bool
  | .bar _ _ => some true
  | .cbar _ _ _ => some true
  | .lwait _ _ => some true
  | .launchLimit => some false
  | .waitp _ _ => some true
  | .mwait _ => some true
  | .xacq _ _ _ => some true
  | .rolesw => some false
  | .worklist _ => some true
  | .push _ => some false
  | .handover => some false
  | .label _ _ => some true
  | .none => none
  | .yielding _ => none
  | .access _ => some true
  | .cflush _ => some true

/-- The pops on which a group waits. -/
def waitingPops (g : Group) : List Nat := g.stack.filterMap fun e => match e.wait with
  | .worklist op => some op
  | _ => none

/-- Wake a group for DIE.LOST: a waiting entry goes back to its instruction, and a pop that waits is given up. -/
def wakeLost (now : Nat) (g : Group) : Group :=
  let g := (waitingPops g).foldl (fun g op => complete op { g with pend := g.pend.filter (·.op != op) }) g
  { g with
    stack := g.stack.map fun e => match lostWakes e.wait with
      | some true => { e with wait := .none, pc := e.chainPc, chain := 0 }
      | some false => { e with wait := .none }
      | none => e
    faultWait := none
    waitFrom := if g.stack.any fun e => (lostWakes e.wait).isSome then now else g.waitFrom }

/-- Every group of an affected context gets DIE.LOST, be it resident, waiting, halted or exited (R19, R477); pops and queued acquires of woken groups
are given up. A context without any block has the loss recorded for the next that is placed. -/
def loseFor (c : Ctx) (dies : BitVec 16) (s : State) : State :=
  let t : Trap := ⟨.dieLost, dies.zeroExtend 256, false, none⟩
  let bs := s.blocks.filter (·.ctx == c.id)
  let s := bs.foldl (fun s b => b.groups.foldl (fun s g =>
    let r : GRef := ⟨b.id, g.gid, false⟩
    let s := modGrp r (fun g => match g.ahead with
      | some a => rollBack a g
      | none => g) s
    dueTrap r c.id c.vf b.core t (modGrp r (wakeLost s.mcyc) s)) s) s
  let mine := fun (g : GRef) => bs.any (·.id == g.blk)
  let s := { s with blocks := mapIf (·.ctx == c.id) (fun b => { b with acqQueue := [] }) s.blocks }
  let s := { s with worklists := s.worklists.map fun w => { w with shards := w.shards.map fun sh =>
    { sh with pops := sh.pops.filter fun p => !mine p.g } } }
  let s := modFq c.vf (fun q => { q with waiters := q.waiters.filter fun w => match w.2 with
    | .group g _ => !mine g
    | .stack g _ => !mine g
    | _ => true }) s
  if bs.isEmpty then modCtx c.id (fun c => { c with lost := c.lost ||| dies }) s else s

/-- DIE_LOSS (R18 to R21): the affected contexts take DIE.LOST, base-die commands with pieces on a lost base die are cancelled (R166), and
the loss of the I/O die takes the host ports down. -/
def execDieLoss (dies : BitVec 16) (s : State) : Host.Outcome State Fault Refusal :=
  let s := setPkg (fun p => { p with lostDies := p.lostDies ||| dies }) s
  let hit := s.eng.bds.filter fun c => c.pieces.any fun p => p.2.any fun m =>
    dies.getLsbD (bdDie (if c.kind.isGather then m.src else m.dst))
  let cut := fun (s : State) (c : BdCmd) =>
    let m := (((c.pieces.flatMap (·.2)).find? fun m => dies.getLsbD (bdDie (if c.kind.isGather then m.src else m.dst)))).getD
      ⟨0, 0, (false, false), (128, 128), (true, true), (0, 0), false, 0, 0⟩
    let (va, pa, kind) := if c.kind.isGather then (m.sva, m.src, 3) else (m.dva, m.dst, 4)
    cancelBd c ⟨.dataUe, accessWords (BitVec.ofNat 64 va) 0 pa 0 0 c.applied kind 0, false, none⟩ s
  let s := hit.foldl cut s
  let s := (s.ctxs.filter fun c => c.tdm &&& dies != 0).foldl (fun s c => loseFor c dies s) s
  .next (if dies.getLsbD 4 then setPkg (fun p => { p with linkA := false, linkB := false }) (freeMsem s) else s)

/-- DIE_RESET (R21): under MSEM a lost die returns to service; the I/O die only by a module reset. -/
def execDieReset (port : Port) (die : Nat) (s : State) : Host.Outcome State Fault Refusal :=
  .next (underMsem port (fun s =>
    if die = 4 ∨ ¬ s.pkg.lostDies.getLsbD die then s
    else kickEngines (missAgain (spaceFreed (drain (setPkg (fun p => { p with lostDies := p.lostDies &&& ~~~(BitVec.ofNat 16 (2 ^ die)) }) (dropWindows (fun w => coreDie w.core == die) s)))))) s)

/-! ## Clock and health (R31 to R34) -/

/-- CLOCK_THROTTLE (R31): one 100 MHz step down, not below 1.2 GHz. -/
def execClockThrottle (s : State) : Host.Outcome State Fault Refusal := .next (setPkg (fun p => { p with mhz := max 1200 (p.mhz - 100) }) s)

/-- CLOCK_RESTORE (R31): one step up, to the nominal 2.7 GHz at most. -/
def execClockRestore (s : State) : Host.Outcome State Fault Refusal := .next (setPkg (fun p => { p with mhz := min 2700 (p.mhz + 100) }) s)

/-- HEALTH_UPDATE (R32, R33): the monitors take what they have measured, and the prediction is the management controller's. -/
def execHealthUpdate (conf worst : Nat) (r : Reading) (s : State) : Host.Outcome State Fault Refusal :=
  .next (setPkg (fun p => { p with
    ageing := (List.range 5).map fun d => r.ageing.getD d 0
    hbmErrors := (List.range 8).map fun n => p.hbmErrors.getD n 0 + r.hbm.getD n 0
    linkErrors := p.linkErrors + r.links
    life := BitVec.ofNat 64 (min conf 100 * 2 ^ 56 + worst % 256 * 2 ^ 48 + r.hours % 2 ^ 32) }) s)

/-- HEALTH_SNAPSHOT (R34). -/
def execHealthSnapshot (s : State) : Host.Outcome State Fault Refusal := .next (setPkg (fun p => { p with snapshot := monitors p }) s)

/-- HBM_ERROR_WINDOW (R32): the stack's hour closes. -/
def execHbmErrorWindow (stack : Nat) (s : State) : Host.Outcome State Fault Refusal :=
  .next (setPkg (fun p => { p with hbmClosed := p.hbmClosed.set stack (p.hbmErrors.getD stack 0), hbmErrors := p.hbmErrors.set stack 0 }) s)

/-! ## Ubyozo ports (R23 to R29) -/

/-- What a port does with a flit that fails its CRC or names a reserved class (R25, R26): the sender replays it, and at the ninth failure, when eight
replays in a row have failed, the port goes down. REPLAY of R29 counts each such flit as one replayed flit (DESIGN CHOICE, log entry
115). -/
def badFlit (p : UPort) : UPort := { p with fails := p.fails + 1, replay := min 65535 (p.replay + 1) }

/-- What a port does with a good flit (R24 to R26): in sequence order its slots are delivered, the flits that it acknowledges leave the retry buffer,
its credits come back, and what they allow is sent. -/
def goodFlit (b : List Byte) (p : UPort) : UPort :=
  let c := flitClass b
  pump { p with
    seq := p.seq + 1, fails := 0, delivered := p.delivered ++ (flitSlots b).map fun m => (c, m), toAck := p.toAck + 1,
    toCredit := p.toCredit.set c (p.toCredit.getD c 0 + 1), retry := p.retry.drop (flitAckd b),
    tries := if flitAckd b = 0 then p.tries else 0,
    credits := p.credits.set c (p.credits.getD c 0 + flitCredit b) }

/-- FLIT_RECEIVE (R24 to R26, R29). -/
def execFlitReceive (port : Nat) (f : Flit) (s : State) : Host.Outcome State Fault Refusal :=
  if !(portOf s port).up then .next s else
  let s := setPkg (fun p => { p with margins := p.margins.set port (f.margin % 256) })
    (modPort port (fun p => { p with corr := min (2 ^ 32 - 1) (p.corr + f.corr), margin := f.margin % 256 }) s)
  if !flitCrcOk f.bytes || decide (6 ≤ flitClass f.bytes) then
    let s := modPort port badFlit s
    .next (if 9 ≤ (portOf s port).fails then post 0 (.portDown port) s else s)
  else if flitSeq f.bytes ≠ (portOf s port).seq.toNat then .next s
  else .next (modPort port (goodFlit f.bytes) s)

/-- PORT_DOWN (R26, R28): the port's traffic moves to the remaining routes of its peers, a port that has failed its replays, as receiver or as sender,
retrains, and the time of R218 runs for the shards that are cut off. -/
def execPortDown (port : Nat) (s : State) : Host.Outcome State Fault Refusal :=
  let p := portOf s port
  if !p.up then .next s else
  let s := modPort port (fun p => { p with up := false, fails := 0, tries := 0, downCnt := min 255 (p.downCnt + 1) }) s
  let s := watchPeers (moveTraffic port s)
  .next (if 9 ≤ p.fails ∨ 9 ≤ p.tries then post 0 (.portRetrain port) s else s)

/-- PORT_RETRAIN (R26, R27): the port is up, sends its retry buffer again, and reports the device's identity in a message of class MGT. -/
def execPortRetrain (port : Nat) (s : State) : Host.Outcome State Fault Refusal :=
  if (portOf s port).up then .next s else
  let ident := (List.range slotBytes).map (Config.msgByte s.free)
  .next (watchPeers (modPort port (fun p => pump (resend { p with up := true, fails := 0, waiting := p.waiting ++ [(16, 5, ident)] }))
    { s with free := s.free + 1 }))

/-- SPAN_MGT_MESSAGE (R26, R27): identities arrive over trained ports; span numbers and routes are the driver's, under MSEM. A peer that has seen a
flit fail asks for a replay; where the eighth in a row has failed too, the port goes down. -/
def execSpanMgtMessage (m : MgtMsg) (s : State) : Host.Outcome State Fault Refusal := .next (match m with
  | .identity port ident => if (portOf s port).up then modPort port (fun p => { p with peer := ident }) s else s
  | .assign host span dev => underMsem host (setPkg fun p => { p with spanId := span, spanDev := dev % 16 }) s
  | .route host dev ports => underMsem host (fun s => watchPeers (setPkg (fun p => { p with routes := p.routes.set dev ports }) s)) s
  | .replay port =>
    let p := portOf s port
    if !p.up || p.retry.isEmpty then s
    else if 8 ≤ p.tries then post 0 (.portDown port) (modPort port (fun p => { p with tries := 9 }) s)
    else modPort port replayFlits s)

/-- Hand a register value to the host that reads it. -/
def readOut (v : W64) (s : State) : State := setMg (fun m => { m with readOut := v :: m.readOut }) s

/-- UBYOZO_ERRCNT_READ (R29). -/
def execUbyozoErrcntRead (_host : Port) (port : Nat) (s : State) : Host.Outcome State Fault Refusal :=
  let p := portOf s port
  let v := BitVec.ofNat 64 (p.downCnt * 2 ^ 56 + p.margin % 256 * 2 ^ 48 + p.replay * 2 ^ 32 + p.corr)
  .next (readOut v (modPort port (fun p => { p with downCnt := 0, replay := 0, corr := 0 }) s))

/-! ## Host links (R39, R68) -/

def setLink (p : Port) (up : Bool) (s : State) : State := setPkg (fun k => match p with
  | .a => { k with linkA := up }
  | .b => { k with linkB := up }) s

/-- HOST_LINK_DOWN (R39, R68): pool decoders and host lines on the port answer errors, and MSEM is freed if the port held it. -/
def execHostLinkDown (port : Port) (s : State) : Host.Outcome State Fault Refusal :=
  .next (setLink port false (if holdsMsem port s then freeMsem s else s))

/-- HOST_LINK_UP (R68); not while the I/O die is lost (R21). -/
def execHostLinkUp (port : Port) (s : State) : Host.Outcome State Fault Refusal :=
  .next (if s.pkg.lostDies.getLsbD 4 then s else setLink port true s)

end Sys2Proof.Machine
end

