-- ==== Sys2Proof/Machine/Manage.lean ====
section
/-! DEFINITION. Management from the hosts: policies, partitions and tenant resets (R36, R40 to R42, R53), device registers (R9), contexts
(R138, R139), shootdowns (R149), PREEMPT and RELEASE (R189), halts of dies (R167), halving of the heat table (R74), and firmware and
attestation (R56, R57). -/

namespace Sys2Proof.Machine

open Sys2Proof

/-! ## Discarding a context (R53, R139) -/

/-- Whether the caller of an uncached access is still there. -/
def liveAsk (s : State) (a : Ask) : Bool :=
  let n := a.who / 4
  match a.who % 4 with
  | 0 => (blkOf s (n / 64)).isSome
  | 1 => s.eng.mops.any fun p => p.2.any (·.op == n)
  | 2 => true
  | _ => s.eng.bds.any (·.op == n / 2 ^ 20) || (wlOf s (n / 2 ^ 20)).isSome

/-- Discard every group of a context with what it has in flight: launches end as KILLED, accesses, copies, commands not yet sent and
engine work go, its worklists are zeroed, and its pending faults are dropped. Base-die commands already sent, and a queue's copies already begun, go on. -/
def discardCtx (ctx : Nat) (s : State) : State :=
  let s := killLaunches (·.ctx == ctx) s
  let mine := (s.blocks.filter (·.ctx == ctx)).map (·.id)
  let on := fun g : GRef => mine.contains g.blk
  let s := { s with
    blocks := s.blocks.filter (·.ctx != ctx)
    launches := s.launches.filter (·.ctx != ctx)
    eng := { s.eng with
      accs := s.eng.accs.filter (·.ctx != ctx)
      copies := s.eng.copies.filter fun c => c.ctx != ctx || (c.g.isNone && (c.next != 0 || c.tag != 0))
      bds := s.eng.bds.filter fun c => c.ctx != ctx || c.todo.isEmpty
      mops := s.eng.mops.map fun (p : Nat × List MOp) => (p.1, p.2.filter fun o => !on o.g)
      windows := s.eng.windows.map fun (p : Nat × List Window) => (p.1, p.2.filter fun w => !on w.g) } }
  let s := { s with worklists := s.worklists.filter (·.wrec.ctx != ctx) }
  let s := { s with eng := { s.eng with
    mops := s.eng.mops.filter fun p => !p.2.isEmpty, windows := s.eng.windows.filter fun p => !p.2.isEmpty } }
  let drop := fun q : FaultQ => { q with
    filter := q.filter.filter fun e => e.1 != ctx
    waiters := q.waiters.filter fun w => match w.2 with
      | .group g _ => !on g
      | .stack g _ => !on g
      | .copy op => s.eng.copies.any (·.op == op)
      | .bd op => s.eng.bds.any (·.op == op)
      | .matrix core op => (FMap.get [] s.eng.mops core).any (·.op == op)
      | .queue _ => true
      | .spill wl _ => s.worklists.any (·.id == wl)
      | .comp _ => true }
  let s := { s with coh := { s.coh with asks := s.coh.asks.filter (liveAsk s) } }
  spaceFreed (dropWindows (·.ctx == ctx) { s with faultQs := s.faultQs.map drop })

/-- Stop every queue of a function (R53). FCODE becomes 0 in every one, also in one that had stopped already (DESIGN CHOICE, log entry 113). -/
def stopQueues (vf : Nat) (s : State) : State :=
  (s.queues.filter (·.vf == vf)).foldl (fun s q => setQueue q.id (fun q => { halted 0 q with work := [] }) (forgetQueue q.id s)) s

/-- TENANT_RESET (R53): queues, groups, engine commands not yet started and pending faults of the VF, and its pinned pages (R79). -/
def resetTenant (vf : Nat) (s : State) : State :=
  let s := stopQueues vf s
  let s := (s.ctxs.filter (·.vf == vf)).foldl (fun s c => discardCtx c.id s) s
  let s := { s with eng := { s.eng with copies := s.eng.copies.filter fun c => c.vf != vf || c.next != 0 || c.tag != 0 } }
  dropPinned vf (modFq vf (fun q => { q with waiting := [], filter := [], waiters := [] }) s)

def execTenantReset (vf : Nat) (s : State) : Host.Outcome State Fault Refusal :=
  .next (if 1 ≤ vf ∧ vf ≤ 64 then resetTenant vf s else s)

/-! ## Policy and partition (R36, R40 to R42) -/

/-- Whether two enabled VFs would hold overlapping ranges, or a range passes queue 4,095, with policy `p` for `vf` (R41). -/
def rangeBad (s : State) (vf p : Nat) : Bool :=
  let lo := bits p 63 52
  let hi := lo + bits p 51 40
  decide (4095 < hi) || (bit p 12 && (List.range 64).any fun n => n + 1 != vf && vfOn s (n + 1) &&
    decide (lo < (rangeOf s (n + 1)).1 + (rangeOf s (n + 1)).2) && decide ((rangeOf s (n + 1)).1 ≤ hi))

/-- The policy that a write leaves (R40, R41): `held` says whether the port holds MSEM. -/
def newPolicy (s : State) (vf : Nat) (held : Bool) (old val : Nat) : Nat :=
  let p := setBits val 11 0 0
  let p := if held then p else setBits (setBits p 63 40 (bits old 63 40)) 13 13 (bits old 13 13)
  let p := if bits p 19 17 = 7 then setBits p 19 17 (bits old 19 17) else p
  let p := if rangeBad s vf p then setBits p 63 40 (bits old 63 40) else p
  if rangeBad s vf p then setBits p 12 12 (bits old 12 12) else p

/-- POLICY_WRITE (R40, R41), through the PF of the owning port; EN = 0 resets the tenant (R53). Without MSEM a write that carries another value of an
MSEM field sets the error bit, also where R41 would have refused that value (DESIGN CHOICE, log entry 116). -/
def execPolicyWrite (port : Port) (vf : Nat) (val : W64) (s : State) : Host.Outcome State Fault Refusal :=
  if vf = 0 ∨ 64 < vf ∨ ¬ portServes s port vf then .next s else
  let old := (fnOf s vf).policy.toNat
  let held := holdsMsem port s
  let s := if !held && (bits old 63 40 != bits val.toNat 63 40 || bit old 13 != bit val.toNat 13) then mgmtError port s else s
  let s := modFn vf (fun f => { f with policy := BitVec.ofNat 64 (newPolicy s vf held old val.toNat) }) s
  .next (if bit val.toNat 12 then s else resetTenant vf s)

/-- PARTITION_WRITE (R42). -/
def execPartitionWrite (port : Port) (vf : Nat) (val : W64) (s : State) : Host.Outcome State Fault Refusal :=
  if vf = 0 ∨ 64 < vf ∨ ¬ portServes s port vf then .next s else
  let v := BitVec.ofNat 64 (val.toNat % 2 ^ 40)
  if holdsMsem port s then .next (spaceFreed (modFn vf (fun f => { f with part := v }) s))
  else .next (if (fnOf s vf).part = v then s else mgmtError port s)

/-! ## Contexts (R138, R139) -/

/-- Whether two pad windows (start and size in pages) meet; an empty one meets none. -/
def padMeets (a n b m : Nat) : Bool := decide (0 < n) && decide (0 < m) && overlap a n b m

/-- The window that a descriptor write leaves (R65): one that meets an enabled context of another VF changes nothing. Where the stored window itself
meets one, because it was taken while this context was disabled, EN = 1 enables the context with that window, whose bytes are zeroed
(DESIGN CHOICE, log entry 117: R65 forbids the overlap and leaves the fields unchanged). -/
def padFor (s : State) (id vf : Nat) (old d : Nat × Nat) : Nat × Nat :=
  if s.ctxs.any fun c => c.en && c.id != id && c.vf != vf && padMeets d.1 d.2 c.padBase c.padLim then old else d

/-- Zero the bytes of a context's window that lie in no window of another enabled context of its VF (R65). -/
def zeroPad (id : Nat) (s : State) : State := match ctxOf s id with
  | none => s
  | some c =>
    let mine := fun a : Nat => decide (padBase + 4096 * c.padBase ≤ a) && decide (a < padBase + 4096 * (c.padBase + c.padLim)) &&
      !s.ctxs.any fun x => x.en && x.id != id && x.vf == c.vf && decide (padBase + 4096 * x.padBase ≤ a) &&
        decide (a < padBase + 4096 * (x.padBase + x.padLim))
    { s with mem := s.mem.filter fun e => !mine e.1 }

/-- CST of a context as its descriptor shows it (R138). -/
def cstOf (s : State) (c : Ctx) : Nat :=
  if c.cst = 3 then 3
  else if s.blocks.any fun b => b.ctx == c.id && b.groups.any (·.faultWait.isSome) then 2
  else if s.launches.any fun l => l.ctx == c.id && l.status == .running then 1 else 0

/-- Write the 64 bytes of a descriptor to the table (R138). -/
def saveCtx (id : Nat) (s : State) : State := match ctxOf s id with
  | none => s
  | some c =>
    let a := s.mg.cxbase.toNat + 64 * id
    let v := c.root.toNat * 2 ^ 472 + (c.vf % 128) * 2 ^ 465 + c.en.toNat * 2 ^ 464 + (c.padBase % 2 ^ 15) * 2 ^ 449 +
      (c.padLim % 2 ^ 15) * 2 ^ 434 + (c.wdt % 2 ^ 16) * 2 ^ 418 + c.tdm.toNat * 2 ^ 402 + cstOf s c * 2 ^ 400 + (c.stopc % 256) * 2 ^ 392
    devWrite a (toBytes 64 v) s

/-- Bring TDM, CST and STOPC of the descriptors in the table up to date (R16, R138): bytes 52:49. -/
def publish (s : State) : State := s.ctxs.foldl (fun s c =>
  let a := s.mg.cxbase.toNat + 64 * c.id + 49
  let v := c.wdt % 2 ^ 6 * 2 ^ 26 + c.tdm.toNat * 2 ^ 10 + cstOf s c * 2 ^ 8 + c.stopc % 256
  if ofBytes (devRead s a 4) = v then s else devWrite a (toBytes 4 v) s) s

/-- A context that no descriptor write has named. -/
def noCtx (id : Nat) : Ctx :=
  { id := id, root := 0, vf := 0, en := false, padBase := 0, padLim := 0, wdt := 0, tdm := 0, cst := 0, stopc := 0, handle := 1,
    lost := 0, hold := 0 }

/-- Whether a function may write a descriptor (R138): the PF any, a VF those that name it. -/
def ownsCtx (s : State) (fn id : Nat) : Bool := decide (id < 65536) && (fn == 0 || (ctxOf s id).any (·.vf == fn))

/-- Write the RW fields of a descriptor; VF only through the PF. A new WDT runs for the launches that are running (R168). -/
def writeDesc (fn id : Nat) (d : DescWrite) (s : State) : State :=
  let s := if (ctxOf s id).isSome then s else { s with ctxs := s.ctxs ++ [noCtx id] }
  let c := (ctxOf s id).getD (noCtx id)
  let vf := if fn = 0 then d.vf % 128 else c.vf
  let w := padFor s id vf (c.padBase, c.padLim) (d.padBase % 2 ^ 15, d.padLim % 2 ^ 15)
  let s := modCtx id (fun c => { c with root := d.root, vf := vf, padBase := w.1, padLim := w.2, wdt := d.wdt % 2 ^ 16 }) s
  if d.wdt % 2 ^ 16 = 0 ∨ d.wdt % 2 ^ 16 = c.wdt then s else
  let mine := s.launches.filter fun l => l.ctx == id && l.status == .running
  mine.foldl (fun s l => post (l.started + d.wdt % 2 ^ 16 * 1000000 - s.ns) (.watchdogExpiry l.id) s) s

/-- CONTEXT_CREATE (R139). -/
def execContextCreate (port : Port) (fn ctx : Nat) (d : DescWrite) (s : State) : Host.Outcome State Fault Refusal :=
  if !portServes s port fn || !ownsCtx s fn ctx then .next s else
  let s := writeDesc fn ctx d s
  let s := modCtx ctx (fun c =>
    if c.en then { c with tdm := 0, cst := 0, stopc := 0 }
    else { c with en := true, tdm := 0, cst := 0, stopc := 0, handle := 1, lost := 0, hold := 0 }) s
  .next (saveCtx ctx (zeroPad ctx s))

/-- CONTEXT_DESTROY (R139): only while no queue that names the context is running, parked or waiting. -/
def execContextDestroy (port : Port) (fn ctx : Nat) (s : State) : Host.Outcome State Fault Refusal :=
  if !portServes s port fn || !ownsCtx s fn ctx || s.queues.any (fun q => q.ctx == ctx && q.state != .stopped) then .next s
  else .next (saveCtx ctx (modCtx ctx (fun c => { c with en := false }) (discardCtx ctx s)))

/-! ## Device registers (R9) -/

/-- Start halving (R74). -/
def beginHalve (s : State) : State :=
  if bit s.mg.heatctl.toNat 2 then s
  else post 0 .heatHalveDone (setMg (fun m => { m with heatctl := m.heatctl ||| 4 }) s)

/-- Whether a VF is enabled (R114). -/
def anyVf (s : State) : Bool := (List.range 64).any fun n => vfOn s (n + 1)

/-- The registers of the PF BAR: those that R67, R73, R75, R113, R138 and R190 put under MSEM, and the others. -/
def writePf (port : Port) (reg : DevReg) (val : W64) (s : State) : State :=
  let under := fun f => underMsem port (setMg f) s
  match reg with
  | .heatctl => underMsem port (fun s =>
      let s := setMg (fun m => { m with heatctl := (val &&& 0x000FFFFFFFFFF0F1#64) ||| (m.heatctl &&& 4) }) s
      if bit val.toNat 1 then beginHalve s else s) s
  | .ltctl => under fun m => if anyVf s then m else { m with ltctl := val &&& 0x000FFFFFFFFFF001#64 }
  | .schedctl => underMsem port (fun s =>
      let s := setMg (fun m => { m with schedctl := val &&& 0xFFFF#64 }) s
      (pendingLaunches s).foldl (fun s l => if s.ns ≤ l.waitFrom + sliceNs s then armSlice l s else post 0 (.sliceExpiry l.id) s) s) s
  | .svbase => under fun m => { m with svbase := val &&& 0x000FFFFFFFFFF000#64 }
  | .cxbase => under fun m => { m with cxbase := val }
  | .ctbase => under fun m => { m with ctbase := val }
  | .ctlim => under fun m => { m with ctlim := val }
  | .pdbase n => under fun m => { m with pdbase := m.pdbase.set n (val &&& 0xFFFF0FFFC0000000#64) }
  | .pdmap n => under fun m => { m with pdmap := m.pdmap.set n (val &&& 0xC00FFFFFC0000000#64) }
  | .qtbase => setMg (fun m => { m with qtbase := val }) s
  | .dbgsel => setMg (fun m => { m with dbgsel := val }) s
  | .ctsyncp => setMg (fun m => if bit m.ctsyncp.toNat 63 then m else { m with ctsyncp := val &&& 0xFFFFFFFFF#64 }) s
  | .shootva => s
  | .shootn => s
  | .preemptc => s
  | .fqbase => s
  | .cxwr _ _ => s

/-- The registers that every function has in its BAR. -/
def writeFn (fn : Nat) (reg : DevReg) (val : W64) (s : State) : State :=
  let shooting := bit (fnOf s fn).shootn.toNat 63
  match reg with
  | .shootva => if shooting then s else modFn fn (fun f => { f with shootva := val &&& 0xFFFFFFFFFFFFF000#64 }) s
  | .shootn => if shooting then s else modFn fn (fun f => { f with shootn := val &&& 0xFFFFFFFF#64 }) s
  | .preemptc => modFn fn (fun f => { f with preemptc := val &&& 0x00FFFFFFFFFFFFFF#64 }) s
  | .fqbase =>
    if 6 ≤ bits val.toNat 4 0 ∧ bits val.toNat 4 0 ≤ 16 then
      post 0 (.faultBatchPost fn) (modFq fn (fun q => { q with base := val &&& 0x000FFFFFFFFFF01F#64 }) s)
    else s
  | .cxwr ctx d =>
    if !ownsCtx s fn ctx then s else
    let old := ctxOf s ctx
    let s := writeDesc fn ctx d s
    let grew := (ctxOf s ctx).any fun c => c.en && old.any fun o => o.padBase != c.padBase || o.padLim != c.padLim
    saveCtx ctx (if grew then zeroPad ctx s else s)
  | .heatctl => s
  | .ltctl => s
  | .schedctl => s
  | .svbase => s
  | .qtbase => s
  | .cxbase => s
  | .pdbase _ => s
  | .pdmap _ => s
  | .ctbase => s
  | .ctlim => s
  | .ctsyncp => s
  | .dbgsel => s

/-- REGISTER_WRITE (R9, R36): a VF's registers through its own port only, PF registers through the PF BAR only. -/
def execRegisterWrite (port : Port) (fn : Nat) (reg : DevReg) (val : W64) (s : State) : Host.Outcome State Fault Refusal :=
  if 64 < fn ∨ ¬ portServes s port fn then .next s
  else .next (writeFn fn reg val (if fn = 0 then writePf port reg val s else s))

/-- CMPSTAT as a read finds it (R81). PIN shows 255 while more pages are pinned (DESIGN CHOICE, log entry 118). -/
def cmpstat (f : Fn) : Nat :=
  f.cmpRaw % 2 ^ 24 * 2 ^ 40 + f.cmpExp % 2 ^ 16 * 2 ^ 24 + f.cmpUe % 2 ^ 16 * 2 ^ 8 + min 255 f.cmpPin

/-- CMPSTAT_READ (R81): the counts go to the reader, and the read-clear fields become 0; through the other port a read gives 0 (R36). -/
def execCmpstatRead (port : Port) (vf : Nat) (s : State) : Host.Outcome State Fault Refusal :=
  if !portServes s port vf then .next (readOut 0 s) else
  .next (readOut (BitVec.ofNat 64 (cmpstat (fnOf s vf))) (modFn vf (fun f => { f with cmpRaw := 0, cmpExp := 0, cmpUe := 0 }) s))

/-! ## QCTL commands 4 to 7 (R46) -/

/-- CTSYNC (R80): the PF only, and not while BUSY. -/
def execCtsync (_port : Port) (fn : Nat) (s : State) : Host.Outcome State Fault Refusal :=
  if fn ≠ 0 ∨ bit s.mg.ctsyncp.toNat 63 then .next s
  else .next (post 0 .ctsyncComplete (setMg (fun m => { m with ctsyncp := m.ctsyncp ||| 0x8000000000000000#64 }) s))

/-- Whether a SHOOT of a function covers a virtual page of a context (R149). -/
def shootHits (f : Fn) (ctx vpn : Nat) : Bool :=
  let n := bits f.shootn.toNat 31 0
  let lo := bits f.shootva.toNat 47 12
  ctx == bits f.shootva.toNat 63 48 && (n == 0 || (decide (lo ≤ vpn) && decide (vpn < lo + n)))

def vpnOf (va : W64) : Nat := va.toNat % 2 ^ 48 / 4096

/-- SHOOT (R149): BUSY is set, the TLBs drop the range, and the instruction buffers its code, and run-aheads drop the pages that they found in it. -/
def execShoot (port : Port) (fn : Nat) (s : State) : Host.Outcome State Fault Refusal :=
  let f := fnOf s fn
  let ctx := bits f.shootva.toNat 63 48
  if 64 < fn ∨ ¬ portServes s port fn ∨ bit f.shootn.toNat 63 ∨ (fn ≠ 0 ∧ ¬ (ctxOf s ctx).any (·.vf == fn)) then .next s else
  let s := modFn fn (fun f => { f with shootn := f.shootn ||| 0x8000000000000000#64 }) s
  let s := dropWindows (fun w => shootHits f w.ctx (w.win % 2 ^ 43 / 128)) { s with tlbs := s.tlbs.filter fun e => !shootHits f e.ctx e.vpn }
  let drop := fun r : RunAhead => { r with found := r.found.filter fun p => !shootHits f ctx p.1 }
  let s := { s with blocks := mapIf (·.ctx == ctx) (fun b => { b with groups := b.groups.map fun g => { g with ahead := g.ahead.map drop } }) s.blocks }
  .next (post 0 (.shootComplete fn) s)

/-- Whether a group of a context waits for the answer to a label command. -/
def labelOpen (s : State) (ctx : Nat) : Bool := s.blocks.any fun b => b.ctx == ctx && b.groups.any fun g => g.stack.any fun e => match e.wait with
  | .label _ _ => true
  | _ => false

/-- Whether an access that was translated through an old entry of the range has still to be performed (R149). A base-die command, a label command,
a grain that an L1 or a queue engine asks for, and an uncached access at its home count whatever their addresses. -/
def shootOpen (f : Fn) (s : State) : Bool :=
  let ctx := bits f.shootva.toNat 63 48
  s.eng.accs.any (fun a => a.ctx == ctx && a.level == .g && (waitingLanes a).any fun l => shootHits f ctx (vpnOf l.ea)) ||
  s.eng.copies.any (fun c => c.ctx == ctx && c.tag != 0 &&
    (shootHits f ctx (vpnOf (srcAddr c.trecd c.next)) || shootHits f ctx (vpnOf (dstAddr c.trecd c.next)))) ||
  s.eng.bds.any (fun c => c.ctx == ctx && !c.pieces.isEmpty) || s.coh.pends.any (·.ctx == ctx) || labelOpen s ctx ||
  (s.coh.homeQ ++ s.coh.compHeld ++ s.coh.txns.map (·.req)).any fun q => q.msg.ctx == ctx && q.msg.req != 512

/-- SHOOT_COMPLETE (R149). -/
def execShootComplete (fn : Nat) (s : State) : Host.Outcome State Fault Refusal :=
  let f := fnOf s fn
  if !bit f.shootn.toNat 63 then .next s
  else if shootOpen f s then .next (post 1 (.shootComplete fn) s)
  else .next (modFn fn (fun f => { f with shootn := f.shootn &&& 0x7FFFFFFFFFFFFFFF#64 }) s)

/-- The context and the clusters that PREEMPTC names, where the function may name the context (R189). -/
def preemptArgs (port : Port) (fn : Nat) (s : State) : Option (Nat × BitVec 40) :=
  let p := (fnOf s fn).preemptc.toNat
  let ctx := bits p 15 0
  if fn ≤ 64 ∧ portServes s port fn ∧ (ctxOf s ctx).any (fun c => fn == 0 || c.vf == fn) then some (ctx, BitVec.ofNat 40 (bits p 55 16)) else none

/-- PREEMPT (R189): the context halts on the clusters and stays halted there. -/
def execPreempt (port : Port) (fn : Nat) (s : State) : Host.Outcome State Fault Refusal := match preemptArgs port fn s with
  | none => .next s
  | some (ctx, cl) =>
    let s := modCtx ctx (fun c => { c with hold := c.hold ||| cl }) s
    let s := requestHalt ctx (fun c => cl.getLsbD c) s
    .next (if s.blocks.any fun b => b.ctx == ctx && b.state == .halting then s else clearPreemptc ctx s)

/-- RELEASE (R189): the hold ends on the clusters. -/
def execRelease (port : Port) (fn : Nat) (s : State) : Host.Outcome State Fault Refusal := match preemptArgs port fn s with
  | none => .next s
  | some (ctx, cl) => .next (spaceFreed (clearPreemptc ctx (modCtx ctx (fun c => { c with hold := c.hold &&& ~~~cl }) s)))

/-! ## The fault queue (R151) -/

/-- FQ_HEAD_WRITE (R151): records that wait may go to the ring. -/
def execFqHeadWrite (port : Port) (fn : Nat) (head : W32) (s : State) : Host.Outcome State Fault Refusal :=
  if 64 < fn ∨ ¬ portServes s port fn then .next s
  else .next (post 0 (.faultBatchPost fn) (modFq fn (fun q => { q with head := head }) s))

/-! ## Halted dies (R167, R168) -/

/-- Whether a die that a launch's context has touched is halted (R168). -/
def pausedBy (s : State) (l : Launch) : Bool := (ctxOf s l.ctx).any fun c => c.tdm &&& s.pkg.haltDies != 0

/-- Pause the watchdogs of the launches whose context touches a halted die (R168). -/
def pauseLaunches (s : State) : State :=
  if s.pkg.haltDies = 0 then s else
  { s with launches := mapIf (fun l => l.wdPause.isNone && pausedBy s l) (fun l => { l with wdPause := some s.ns }) s.launches }

/-- What follows every move: the descriptors show the contexts' status, and watchdogs pause. -/
def settle (s : State) : State := pauseLaunches (publish s)

/-- DIE_HALT (R167): under MSEM; watchdogs of contexts that the dies touch pause (R168). -/
def execDieHalt (port : Port) (dies : BitVec 16) (s : State) : Host.Outcome State Fault Refusal :=
  .next (underMsem port (fun s =>
    pauseLaunches (setPkg (fun p => { p with haltDies := p.haltDies ||| (dies &&& 0x1FFF#16) }) s)) s)

/-- DIE_HALT_CLEAR (R167, R168): held requests are served in their order, and the time halted does not count. -/
def execDieHaltClear (port : Port) (dies : BitVec 16) (s : State) : Host.Outcome State Fault Refusal :=
  .next (underMsem port (fun s =>
    let s := setPkg (fun p => { p with haltDies := p.haltDies &&& ~~~dies }) s
    let hit := s.launches.filter fun l => l.wdPause.isSome && !pausedBy s l
    let s := hit.foldl (fun (s : State) (l : Launch) =>
      let wdt := ((ctxOf s l.ctx).map (·.wdt)).getD 0 * 1000000
      let from_ := l.started + (s.ns - (l.wdPause.getD s.ns))
      let s := modLaunch l.id (fun l => { l with started := from_, wdPause := none }) s
      if wdt = 0 ∨ l.status ≠ .running then s else post (from_ + wdt - s.ns) (.watchdogExpiry l.id) s) s
    kickEngines (drain s)) s)

/-! ## Heat halving (R74) -/

/-- HEAT_HALVE (R74). -/
def execHeatHalve (port : Port) (s : State) : Host.Outcome State Fault Refusal := .next (underMsem port beginHalve s)

/-- The bytes of the heat table: a page of HBM each, and of pool memory to the highest offset that an enabled decoder reaches (R72). -/
def heatSize (s : State) : Nat :=
  let reach := (s.mg.pdbase.zip s.mg.pdmap).foldl (fun n d =>
    if bit d.2.toNat 63 then max n ((bits d.1.toNat 43 30 + bits d.1.toNat 63 48 + 1) * 2 ^ 30) else n) 0
  0x06000000 + reach / 4096

/-- The bytes of a table that are not 0 or may not be: those that memory lists, those in a copy or a write-back buffer, and those that a write
of the device waits for. -/
def tableBytes (s : State) (hit : Nat → Bool) : List Nat :=
  let spans := (s.coh.l1.map fun c => (c.pa, c.gsz)) ++ (s.coh.wbufs.map fun w => (w.pa, w.gsz)) ++
    ((s.coh.homeQ ++ s.coh.txns.map (·.req)).map fun q => (q.msg.pa, q.msg.gsz))
  ((s.mem.map (·.1) ++ spans.flatMap fun p => (List.range p.2).map (p.1 + ·)).filter hit).eraseDups

/-- The steps of a halving: every byte of the heat table and every HEAT field of the compression table, each by an atomic step at its own home, in
its turn there (R74). -/
def halveAll (s : State) : State :=
  let base := bits s.mg.heatctl.toNat 51 12 * 4096
  let size := heatSize s
  let ct := s.mg.ctbase.toNat
  let lim := 64 * s.mg.ctlim.toNat
  let hit := fun a : Nat => (decide (base ≤ a) && decide (a < base + size)) ||
    (decide (ct ≤ a) && decide (a < ct + lim) && (a - ct) % 64 == 59)
  (tableBytes s hit).foldl (fun s a => heatStep true a s) s

/-- Whether a step of a halving has not been performed at its home; none will be at a lost one (R20). -/
def halving (s : State) : Bool :=
  (s.coh.homeQ ++ s.coh.txns.map (·.req)).any fun q => q.kind == .halve && !homeLost s q.msg.pa

/-- HEAT_HALVE_DONE (R73, R74): the bytes are halved, and BUSY clears when the last step has been performed. -/
def execHeatHalveDone (s : State) : Host.Outcome State Fault Refusal :=
  if !bit s.mg.heatctl.toNat 2 then .next s else
  let s := drain (if s.mg.halved then s else setMg (fun m => { m with halved := true }) (halveAll s))
  if halving s then .next (post 1 .heatHalveDone s)
  else .next (setMg (fun m => { m with heatctl := m.heatctl &&& ~~~(4#64), halved := false }) s)

/-! ## Firmware and attestation (R56, R57) -/

/-- FIRMWARE_UPDATE (R56): under MSEM; an image whose signature fails or whose version is below the fuse-held minimum is refused. -/
def execFirmwareUpdate (port : Port) (img : FwImage) (s : State) : Host.Outcome State Fault Refusal :=
  .next (underMsem port (fun s =>
    if !img.sigOk || decide (img.version < s.pkg.fwMin) || decide (5 ≤ img.die) then s
    else setPkg (fun p => { p with
      fwVersion := p.fwVersion.set img.die img.version, fwHash := p.fwHash.set img.die img.hash,
      fwMin := if img.commit then max p.fwMin img.version else p.fwMin }) s) s)

/-- SPDM_REQUEST (R57): the four measurement blocks go out over the port's mailbox. -/
def execSpdmRequest (port : Port) (s : State) : Host.Outcome State Fault Refusal :=
  let regs := s.mg.msem.toNat :: (s.mg.fns.drop 1).flatMap fun f => [f.policy.toNat, f.part.toNat]
  let ms := [Config.measure 1 [], Config.measure 2 (s.pkg.fwHash.map (·.toNat)), Config.measure 3 s.pkg.fuseMap, Config.measure 4 regs]
  .next (setPkg (fun p => { p with spdmOut := (portNum port, ms) :: p.spdmOut }) s)

end Sys2Proof.Machine
end

