-- ==== Sys2Proof/Machine/Replay.lean ====
section
/-! DEFINITION. FQREPLAY (R157, R158): what each waiter of a token does when the host replays or kills its batch. -/

namespace Sys2Proof.Machine

open Sys2Proof

/-- End a group's fault wait on a token (R157, R159): it re-issues the instruction once it is resident. -/
def replayGroup (g : GRef) (token : Nat) (s : State) : State := modGrp g (fun x =>
  if x.faultWait = some token then { x with faultWait := none, waitFrom := s.mcyc } else x) s

/-- A killed group takes PROT, CAUSE 1, at the faulting instruction (R158). -/
def killGroup (g : GRef) (k : Kill) (token : Nat) (s : State) : State :=
  if (grpOf s g).any fun x => x.faultWait == some token then
    let s := replayGroup g token s
    match issRaw g 0 0 s with
    | some x => enterTrap x k.chain ⟨.prot, k.words, true, none⟩ k.pc k.npc k.mask k.inst s
    | none => s
  else s

/-- The step that a queue repeats (R52, R157). -/
def repeatQueue (q token : Nat) (s : State) : State := match queueOf s q with
  | none => s
  | some x =>
    if !x.faulted.contains token then s else
    let s := modQueue q (fun x => { x with faulted := x.faulted.filter (· != token) }) s
    let s := post 0 (.queueCompletionWrite q) s
    match x.state with
    | .running => post 0 (.queueBlockServe q) s
    | .waiting => post 0 (recheckEv x) s
    | .parked => post 0 (recheckEv x) s
    | .stopped => s

/-- A shard that waited on a token goes on: with its spill (R157, R201), or with the handover that the spill was for. -/
def spillOn (wl core token : Nat) (s : State) : State := match shardOf s wl core with
  | none => s
  | some sh =>
    if sh.spillToken ≠ some token then s else
    let s := modShard wl core (fun sh => { sh with spillToken := none }) s
    postAll (.lowerAckComplete wl core :: if sh.leaving then [.shardHandover core] else []) s

/-- What a waiter does on a replay (R157, R79). -/
def replayWaiter (token : Nat) (s : State) : Waiter → State
  | .group g _ => replayGroup g token s
  | .stack g _ => replayGroup g token s
  | .copy op => match copyCmd s op with
    | some c => if c.stopped = some token then kickCopy copyBurst op (putCopy { c with stopped := none } s) else s
    | none => s
  | .matrix core op => post 0 (.matrixOpComplete core)
      (putMops core (mapIf (fun o => o.op == op && o.stopped == some token) (fun o => { o with stopped := none }) (coreMops s core)) s)
  | .bd op => match bdOf s op with
    | some c => if c.stopped = some token then resendBd c s else s
    | none => s
  | .queue q => repeatQueue q token s
  | .spill wl core => spillOn wl core token s
  | .comp page => post 0 (.compWritebackRetry page) s

/-- A killed copy command (R158): its trap names the side of the next element that does not translate. -/
def killCopy (c : CopyCmd) (s : State) : State :=
  let src := srcAddr c.trecd c.next
  let read := readsMem c && c.trecd.slv == 0 && (match probe s (copyTlb c) c.ctx .read src with
    | .fault _ => true
    | .ok _ _ => false
    | .nak _ => false
    | .wait => false)
  cancelCopy c (if read then engineProt src 1 3 else engineProt (dstAddr c.trecd c.next) 1 4) 7 s

/-- A killed accumulator move (R158, R422): the op is done without its rest, and its batch reports the error. -/
def killMove (core op : Nat) (s : State) : State := match (coreMops s core).find? (·.op == op) with
  | none => s
  | some o =>
    let k := 64 * o.row + o.lane
    let (va, kind) := match o.moves with
      | some (t, true) => (srcAddr t k, 3)
      | some (t, false) => (dstAddr t k, 4)
      | none => (0, 4)
    let s := doneOp core o (fun b => { b with memErr := true }) s
    post 0 (.matrixOpComplete core)
      (dueTrap o.g o.ctx o.vf core { engineProt va 1 kind with named := some (o.pc, o.mask, false, o.pc) } s)

/-- A killed base-die command (R158): none of it was sent, and its trap names the first page that does not translate. -/
def killBd (c : BdCmd) (s : State) : State :=
  let p := (bdScan s c c.todo).faults.head?.getD ⟨0, 0, 1, 0, 0⟩
  cancelBd c (engineProt p.va 1 (if p.acc = 0 then 3 else 4)) s

/-- A killed spill of a shard (R158, R201): the worklist does no more for anyone, and each of its shards answers what waits there. -/
def killSpill (wl core token : Nat) (s : State) : State :=
  if (shardOf s wl core).all fun sh => sh.spillToken != some token then s else
  let s := spillOn wl core token (modWl wl (fun w => { w with killed := true }) s)
  postAll ((((wlOf s wl).map (·.shards)).getD []).map fun sh => .lowerAckComplete wl sh.core) s

/-- What a waiter does on a kill (R158). A queue that has been stopped, reset or started again since it posted its fault is not
concerned (DESIGN CHOICE, log entry 111). -/
def killWaiter (token : Nat) (s : State) : Waiter → State
  | .group g k => killGroup g k token s
  | .stack g k => killGroup g k token s
  | .copy op => match copyCmd s op with
    | some c => if c.stopped = some token then killCopy c s else s
    | none => s
  | .matrix core op => if (coreMops s core).any fun o => o.op == op && o.stopped == some token then killMove core op s else s
  | .bd op => match bdOf s op with
    | some c => if c.stopped = some token then killBd c s else s
    | none => s
  | .queue q => if (queueOf s q).any (·.faulted.contains token) then haltQueue q 7 s else s
  | .spill wl core => killSpill wl core token s
  | .comp page => post 0 (.compWritebackRetry page) s

/-- Answer a token of a function: its pages leave the filter, its waiters act, and records that waited for the filter may follow. A
token on which no one waits makes no one act (R157). -/
def answerToken (fn token : Nat) (act : State → Waiter → State) (s : State) : State :=
  let hit := (fqOf s fn).waiters.filter (·.1 == token)
  if hit.isEmpty && !((fqOf s fn).filter.any fun e => e.2.2.2 == token) then s else
  let s := modFq fn (fun q => { q with
    waiters := q.waiters.filter (·.1 != token)
    filter := q.filter.filter fun e => e.2.2.2 != token }) s
  post 0 (.faultBatchPost fn) (hit.foldl (fun s w => act s w.2) s)

/-- FQ_REPLAY (R157). -/
def execFqReplay (port : Port) (fn token : Nat) (s : State) : Host.Outcome State Fault Refusal :=
  .next (if portServes s port fn then answerToken fn token (replayWaiter token) s else s)

/-- FQ_KILL (R158). -/
def execFqKill (port : Port) (fn token : Nat) (s : State) : Host.Outcome State Fault Refusal :=
  .next (if portServes s port fn then answerToken fn token (killWaiter token) s else s)

end Sys2Proof.Machine
end

