-- ==== Sys2Proof/Machine/Respond.lean ====
section
/-! DEFINITION. DATA and NAK at the agent that asked (R99, R103, R133, R165): a pending L1 request, a host port, the queue engine's
held grain, an element of a copy or base-die command, the grain of an atoms, or a label command. -/

namespace Sys2Proof.Machine

open Sys2Proof

/-- A queue looks again at the word whose grain it now holds (R49, R50). -/
def recheck (q : Nat) (s : State) : State := match queueOf s q with
  | none => s
  | some x => match x.state with
    | .waiting => post 0 (recheckEv x) s
    | .parked => post 0 (recheckEv x) s
    | .stopped => s
    | .running => s

/-- The request of an agent that a message answers. -/
def pendTag (m : Msg) (s : State) : Option Pending := s.coh.pends.find? fun p => p.agent == m.dst && p.tag == m.tag

/-- The requester of a forwarded uncached access tells the home (R99). -/
def ackForward (m : Msg) (s : State) : State := if m.frm = 512 then s else completionAck m s

/-- Whether a message to a peer grants it a copy: its transaction awaits its completion Ack (R99). -/
def peerAsks (m : Msg) (s : State) : Bool :=
  s.coh.txns.any fun t => t.pa == m.pa && t.req.msg.tag == m.tag && t.req.msg.req == m.dst && t.needAck && t.kind != .uncachedR

/-- DATA (R99, R101, R103, R107, R108): the grain is installed, or the bytes go to the access that asked for them. -/
def execData (m : Msg) (s : State) : Host.Outcome State Fault Refusal :=
  let s := toPeer 3 m s
  match pendTag m s with
  | some p => .next (if m.dst = 178 then recheck p.op (grantData p m s) else grantData p m s)
  | none =>
    if isPeer m.dst then .next (if peerAsks m s then peerGrant m m.data s else ackForward m s)
    else if asked m s then .next (ackForward m (setReply m.tag (.data m.data) s))
    else if m.dst = 160 ∨ m.dst = 161 then .next (completionAck m (memWrite m.pa m.data s))
    else match s.eng.copies.find? fun c => c.tag != 0 && c.tag == m.tag with
    | some c =>
      let v := BitVec.ofNat 64 (ofBytes (slice 0 m.data m.off c.trecd.bytes))
      .next (copyAnswer c (if c.val.isNone then some v else none) (ackForward m s))
    | none => match s.eng.bds.find? fun c => c.tags.any (·.2 == m.tag) with
      | some c => .next (bdAnswer c m.tag (ackForward m s))
      | none => match s.eng.accs.find? fun a => a.tags.any (·.1 == m.tag) with
        | some a =>
          let grain := ((a.tags.find? (·.1 == m.tag)).map (·.2)).getD 0
          .next (progress a.core (putAcc (setLanes grain m.gsz (fun l => { l with st := .performed }) a) (ackForward m s)))
        | none => .next (ackForward m s)

/-- NAK (R133, R134, R165, R478): the access that asked is refused or meets an error. -/
def execNak (m : Msg) (s : State) : Host.Outcome State Fault Refusal :=
  let s := toPeer 2 m s
  match pendTag m s with
  | some p =>
    let s := dropPend p.agent p.tag s
    .next (if m.dst = 178 then post 0 (.queueEngineNak p.op m.reason) s
      else if 160 ≤ m.dst then s else progress m.dst (nakAcc p.op m s))
  | none => if asked m s then .next (setReply m.tag (.nak m) s) else match s.eng.copies.find? fun c => c.tag != 0 && c.tag == m.tag with
    | some c =>
      let read := c.val.isNone && readsMem c
      let va := if read then srcAddr c.trecd c.next else dstAddr c.trecd c.next
      .next (cancelCopy c (nakTrap m va 0 (m.pa + m.off) 0 (if read then 3 else 4) false false none) (nakCode m.reason) s)
    | none => match s.eng.bds.find? fun c => c.tags.any (·.2 == m.tag) with
      | some c =>
        let n := ((c.tags.find? (·.2 == m.tag)).map (·.1)).getD 0
        let va := (((c.pieces.find? (·.1 == n)).bind fun p => p.2.head?).map (·.dva)).getD 0
        .next (cancelBd c (nakTrap m (BitVec.ofNat 64 va) 0 (m.pa + m.off) 0 4 c.applied false none) s)
      | none => match s.eng.accs.find? fun a => a.tags.any (·.1 == m.tag) with
        | some a => .next (progress a.core (nakAcc a.id m s))
        | none => .next (labelNak m s)

end Sys2Proof.Machine
end

