-- ==== Sys2Proof/Machine/Stream.lean ====
section
/-! DEFINITION. MAJ 0x28 to 0x2A: the Density Stream Engine (R433 to R447): stream registers and their tags, windows and their run,
generation, seeding and counting. -/

namespace Sys2Proof.Machine

open Sys2Proof

/-! ## Tags (R433, R445) -/

/-- DEP of stream register z of a block. -/
def depOf (b : Block) (z : Nat) : BitVec 16 := FMap.get 0 b.zdep z

/-- CLS: c when DEP names class c alone, else 31. -/
def clsOf (d : BitVec 16) : Nat := ((List.range 16).find? fun c => d == BitVec.ofNat 16 (2 ^ c)).getD 31

def setDep (blk z : Nat) (d : BitVec 16) (s : State) : State := modBlk blk (fun b => { b with zdep := FMap.set 0 b.zdep z d }) s

/-- STREAM.CORR with the two masks that its words hold. -/
def corrTrap (a b : BitVec 16) : Trap := trapAt .streamCorr (a.toNat * 65536 + b.toNat)

/-! ## Joining a window (R435) -/

/-- Path 7 holds all the operations it can. -/
def path7Full (x : Iss) : Bool := decide (255 ≤ cnt x.grp 7)

/-- An engine instruction joins the group's open window; the 64th, and any count, closes it. -/
def joinWindow (x : Iss) (i : StrIns) (s : State) : Res :=
  if path7Full x then .stall else
  let (op, s) := fresh s
  let regs := match i.dst with
    | some d => [(⟨d, op⟩ : Pend)]
    | none => []
  let s := modGrp x.g (fun g => { rise 7 op g with pend := g.pend ++ regs, window := g.window ++ [{ i with op := op }] }) s
  let closes := match i.kind with
    | .cnt _ => true
    | .cnta => true
    | _ => decide (64 ≤ x.grp.window.length + 1)
  .next (if closes then closeWindow x.g s else s)

/-- An engine instruction without a count. -/
def strIns (k : StrOp) (zd za zb zs cls : Nat) (p : List Nat) : StrIns := ⟨k, zd, za, zb, zs, cls, p, none, 0, 0⟩

/-- An engine instruction that writes a stream register: its tag is set at issue. -/
def strBody (i : StrIns) (dep : BitVec 16) (x : Iss) (s : State) : Res := joinWindow x i (setDep x.g.blk i.zd dep s)

/-- A two-source logic instruction under the check `ok` of the source tags. -/
def logicBody (k : StrOp) (zd za zb : Nat) (same : Bool) (x : Iss) (s : State) : Res :=
  let a := depOf x.blk za
  let b := depOf x.blk zb
  if (if same then a != b else a &&& b != 0) then .trap (corrTrap a b) s
  else strBody (strIns k zd za zb 0 0 []) (a ||| b) x s

/-! ## The run of a window (R436, R440, R444) -/

/-- Bits j < n of f, bit j being 1 where f j holds. -/
def bitsTo (f : Nat → Bool) : Nat → Nat
  | 0 => 0
  | n + 1 => bitsTo f n + (if f n then 2 ^ n else 0)

/-- The ones among the low n bits. -/
def popTo (v n : Nat) : Nat := ((List.range n).filter (bit v)).length

/-- The stream bits and the counts of one lane. -/
structure LaneRun where
  z : FMap Nat
  counts : FMap Nat

/-- One instruction of one pass in one lane; `gs` are the draws of the pass by class. -/
def runIns (len l : Nat) (gs : FMap (List Nat)) (r : LaneRun) (i : StrIns) : LaneRun :=
  let src := fun z => FMap.get 0 r.z z % 2 ^ len
  let put := fun v => { r with z := FMap.set 0 r.z i.zd v }
  let draw := FMap.get [] gs i.cls
  let count := fun _ : Unit => { r with counts := FMap.set 0 r.counts i.op (FMap.get 0 r.counts i.op + popTo (src i.za) len) }
  match i.kind with
  | .gen => put (bitsTo (fun j => decide (draw.getD j 0 < i.p.getD l 0)) len)
  | .regen => put (bitsTo (fun j => decide (draw.getD j 0 < popTo (src i.za) len * (65536 / len))) len)
  | .and => put (src i.za &&& src i.zb)
  | .or => put (src i.za ||| src i.zb)
  | .xor => put (src i.za ^^^ src i.zb)
  | .xnor => put (2 ^ len - 1 - (src i.za ^^^ src i.zb))
  | .inv => put (2 ^ len - 1 - src i.za)
  | .mux => put ((src i.zs &&& src i.za) ||| ((2 ^ len - 1 - src i.zs) &&& src i.zb))
  | .cnt _ => count ()
  | .cnta => count ()

/-- The draws of one pass in one lane. -/
def passDraws (seed : W64) (bid len l : Nat) : List Nat → Group → FMap (List Nat) × Group
  | [], g => ([], g)
  | c :: cs, g =>
    let a := drawN seed bid len c l len g
    let b := passDraws seed bid len l cs a.2
    ((c, a.1) :: b.1, b.2)

/-- One pass of a window in one lane: the draws taken, and what it leaves. -/
def runPass (seed : W64) (bid : Nat) (w : Window) (l : Nat) (g : Group) (r : LaneRun) : Group × LaneRun :=
  let d := passDraws seed bid w.len l (drawnClasses w.ins) g
  (d.2, w.ins.foldl (runIns w.len l d.1) r)

/-- The stream registers that a window reads or writes. -/
def windowRegs (w : Window) : List Nat := (w.ins.flatMap fun i => [i.zd, i.za, i.zb, i.zs]).eraseDups

/-- The value that scnt writes (R447). -/
def cntVal (out c n : Nat) : W32 := match out with
  | 0 => BitVec.ofNat 32 c
  | 1 => BitVec.ofNat 32 (min (c * 65536 / n) 65535)
  | _ => BitVec.ofInt 32 (clampI (((2 * c : Int) - n) * 32768 / n) (-32768) 32767)

/-- The stream registers that a window writes. -/
def windowDsts (w : Window) : List Nat := (w.ins.filterMap fun i => match i.kind with
  | .cnt _ => none
  | .cnta => none
  | _ => some i.zd).eraseDups

/-- What the lanes of a window start a pass from: the stream registers, and the ones counted so far. -/
def laneStart (w : Window) (b : Block) (l : Nat) : LaneRun :=
  ⟨(windowRegs w).foldl (fun z n => FMap.set 0 z n (FMap.get 0 b.z (64 * n + l)).toNat) [],
   w.ins.foldl (fun m i => FMap.set 0 m i.op (FMap.get 0 w.counts (64 * i.op + l))) []⟩

/-- One pass of a window in every lane (R436): its stream registers are written; its draws, the number of passes and the ones counted so far stay with
it (R438). -/
def passWindow (w : Window) (b : Block) (g : Group) (seed : W64) (s : State) : Window × State :=
  let t := lanes.foldl (fun (t : Group × List (Nat × LaneRun)) l =>
    let r := runPass seed b.bid w l t.1 (laneStart w b l)
    (r.1, t.2 ++ [(l, r.2)])) ({ g with gens := w.gens, ctrs := w.ctrs }, [])
  let s := modBlk w.g.blk (fun b => { b with
    z := t.2.foldl (fun z r => (windowDsts w).foldl (fun z n =>
      FMap.set 0 z (64 * n + r.1) (BitVec.ofNat 256 (FMap.get 0 r.2.z n))) z) b.z }) s
  ({ w with
      gens := t.1.gens, ctrs := t.1.ctrs, pass := w.pass + 1
      counts := t.2.foldl (fun m r => w.ins.foldl (fun m i => FMap.set 0 m (64 * i.op + r.1) (FMap.get 0 r.2.counts i.op)) m) w.counts }, s)

/-- After its last pass the counts of a window are written to their destinations, and its instructions complete. -/
def endWindow (w : Window) (s : State) : State :=
  let counts := w.ins.filterMap fun i => i.dst.map fun d => (i, d)
  let s := counts.foldl (fun s p => landGrp w.g (fun g => lanes.foldl (fun g l =>
    if !laneOn p.1.mask l then g else
    let c := FMap.get 0 w.counts (64 * p.1.op + l)
    vset p.2 l (match p.1.kind with
      | .cnt out => cntVal out c (w.len * w.passes)
      | _ => BitVec.ofNat 32 (min ((vget g p.2 l).toNat + c) 0xFFFFFFFF)) g) g) s) s
  w.ins.foldl (fun s i => opDone w.g i.op s) s

/-- Whether the engine may run a window now: its block is resident; a window whose block is gone is dropped. -/
def windowRuns (s : State) (w : Window) : Bool := (blkOf s w.g.blk).all fun b => b.state == .resident

/-- Whether a window's next pass is its last. -/
def lastPass (w : Window) : Bool := decide (w.passes ≤ w.pass + 1)

/-- An absent granule that the next pass of a window needs (R193): a stream register, or for the last one a destination of its counts. -/
def windowGap (s : State) (w : Window) : Option Granule :=
  (gapOf s w.g.blk fun a => (windowRegs w).any fun z => a == .stream z).orElse fun _ =>
    if lastPass w then regGap s w.g (w.ins.filterMap (·.dst)) else none

/-- The windows of a core in its engine order. -/
def coreWindows (s : State) (core : Nat) : List Window := FMap.get [] s.eng.windows core
def putWindows (core : Nat) (ws : List Window) (s : State) : State := { s with eng := { s.eng with windows := FMap.set [] s.eng.windows core ws } }

/-- STREAM_WINDOW_RUN (R436, R438): the next pass of the first window of the core's engine order whose block is not halted, once the absent granules
that it needs are there; a halt finds the engine between two passes (R186). -/
def execStreamWindowRun (core : Nat) (s : State) : Host.Outcome State Fault Refusal :=
  if dieStopped s (coreDie core) then .next s else
  let ws := coreWindows s core
  match ws.find? (windowRuns s) with
  | none => .next s
  | some w => match windowGap s w with
    | some a => .next (post 1 (.streamWindowRun core) (askFill w.g.blk a s))
    | none =>
      let rest := ws.erase w
      match blkOf s w.g.blk, grpOf s w.g with
      | some b, some g =>
        let (v, s) := passWindow w b g (((launchOf s b.launch).map (·.lrec.seed)).getD 0) s
        if lastPass w then
          let s := endWindow v (putWindows core rest s)
          .next (if rest.isEmpty then s else post 0 (.streamWindowRun core) s)
        else .next (post 0 (.streamWindowRun core) (putWindows core (mapIf (· == w) (fun _ => v) ws) s))
      | _, _ => .next (post 0 (.streamWindowRun core) (putWindows core rest s))

/-! ## The instructions -/

/-- The probabilities that sgen reads, lane by lane (R440). -/
def genP (x : Iss) (a : VSrc) (flip : Nat) : List Nat := lanes.map fun l => (srcVal x false a l % 65536) ^^^ flip

def classBit (c : Nat) : BitVec 16 := BitVec.ofNat 16 (2 ^ c)

def execSgen (zd : Nat) (a : VSrc) (cls : Nat) (s : State) : Host.Outcome State Fault Refusal :=
  issue (sigSgen zd a cls) noPre (fun x s => strBody (strIns .gen zd 0 0 0 cls (genP x a 0)) (classBit cls) x s) s

def execSgenb (zd : Nat) (a : VSrc) (cls : Nat) (s : State) : Host.Outcome State Fault Refusal :=
  issue (sigSgenb zd a cls) noPre (fun x s => strBody (strIns .gen zd 0 0 0 cls (genP x a 0x8000)) (classBit cls) x s) s

def execSregen (zd za cls : Nat) (s : State) : Host.Outcome State Fault Refusal :=
  issue (sigSregen zd za cls) noPre (strBody (strIns .regen zd za 0 0 cls []) (classBit cls)) s

def execSand (zd za zb : Nat) (s : State) : Host.Outcome State Fault Refusal :=
  issue (sigSand zd za zb) noPre (logicBody .and zd za zb false) s
def execSor (zd za zb : Nat) (s : State) : Host.Outcome State Fault Refusal :=
  issue (sigSor zd za zb) noPre (logicBody .or zd za zb false) s
def execSxor (zd za zb : Nat) (s : State) : Host.Outcome State Fault Refusal :=
  issue (sigSxor zd za zb) noPre (logicBody .xor zd za zb false) s
def execSxnor (zd za zb : Nat) (s : State) : Host.Outcome State Fault Refusal :=
  issue (sigSxnor zd za zb) noPre (logicBody .xnor zd za zb false) s
def execSmin (zd za zb : Nat) (s : State) : Host.Outcome State Fault Refusal :=
  issue (sigSmin zd za zb) noPre (logicBody .and zd za zb true) s
def execSmax (zd za zb : Nat) (s : State) : Host.Outcome State Fault Refusal :=
  issue (sigSmax zd za zb) noPre (logicBody .or zd za zb true) s

def execSnot (zd za : Nat) (s : State) : Host.Outcome State Fault Refusal :=
  issue (sigSnot zd za) noPre (fun x s => strBody (strIns .inv zd za 0 0 0 []) (depOf x.blk za) x s) s

def execSmux (zd za zb zs : Nat) (s : State) : Host.Outcome State Fault Refusal :=
  issue (sigSmux zd za zb zs) noPre (fun x s =>
    let ab := depOf x.blk za ||| depOf x.blk zb
    let d := depOf x.blk zs
    if d &&& ab != 0 then .trap (corrTrap d ab) s else strBody (strIns .mux zd za zb zs 0 []) (ab ||| d) x s) s

/-- An instruction that completes at issue: its counter rises, and falls once those before it have completed (R438). -/
def passThrough (x : Iss) (s : State) : State :=
  let (op, s) := fresh s
  finishOp x.g op (modGrp x.g (rise 7 op) s)

/-- sseed (R441). -/
def execSseed (ka cls : Nat) (s : State) : Host.Outcome State Fault Refusal :=
  issue (sigSseed ka cls) noPre (fun x s =>
    if path7Full x then .stall else
    let v := kget x.grp ka
    let seedLane := fun (g : Group) (l : Nat) =>
      if cls < 14 then { g with gens := FMap.set 0 g.gens (64 * cls + l) (genInit v cls x.blk.bid g.gid l) }
      else { g with ctrs := FMap.set 0 g.ctrs (64 * (cls - 14) + l) (v.truncate 16) }
    .next (passThrough x (modGrp x.g (fun g => lanes.foldl seedLane g) (closeWindow x.g s)))) s

/-- slen (R434, R442). -/
def execSlen (imm : W32) (s : State) : Host.Outcome State Fault Refusal :=
  issue (sigSlen imm) noPre (fun x s =>
    let v : W64 := imm.zeroExtend 64
    if path7Full x then .stall
    else if !dsectlOk v then .trap (illOf (sigSlen imm)) s
    else .next (passThrough x (modGrp x.g (fun g => { g with dsectl := v }) (closeWindow x.g s)))) s

/-- srnd (R443): the value is written, and the instruction completes, at issue. -/
def execSrnd (msk : Nat) (d : VDst) (cls : Nat) (s : State) : Host.Outcome State Fault Refusal :=
  issue (sigSrnd msk d cls) noPre (fun x s =>
    if path7Full x then .stall else
    let s := closeWindow x.g s
    let draw := fun g : Group =>
      let r := drawLanes x.lrec.seed x.blk.bid (passLen g.dsectl) cls 1 (activeLanes x.mask) g
      match d with
      | .reg n => putLanes n false x.mask (fun l => drawOf r.1 l 0) r.2
      | _ => r.2
    .next (passThrough x (modGrp x.g draw s))) s

/-- sdep (R446). -/
def execSdep (kd za zb : Nat) (s : State) : Host.Outcome State Fault Refusal :=
  issue (sigSdep kd za zb) noPre (fun x s =>
    if path7Full x then .stall else
    let a := depOf x.blk za
    let b := depOf x.blk zb
    let v := (decide (a = b)).toNat * 2 ^ 49 + (decide (a &&& b = 0)).toNat * 2 ^ 48 + clsOf b * 2 ^ 40 + clsOf a * 2 ^ 32 +
      b.toNat * 2 ^ 16 + a.toNat
    .next (passThrough x (writeK false kd (BitVec.ofNat 64 v) x s))) s

/-- The register that a count writes, if any. -/
def cntDst : VDst → Option Nat
  | .reg n => some n
  | .zero => none
  | .k _ => none

def execScnt (msk : Nat) (d : VDst) (za out : Nat) (s : State) : Host.Outcome State Fault Refusal :=
  issue (sigScnt msk d za out) noPre (fun x s =>
    joinWindow x { strIns (.cnt out) 0 za 0 0 0 [] with dst := cntDst d, mask := x.mask } s) s

def execScnta (msk : Nat) (d : VDst) (za : Nat) (s : State) : Host.Outcome State Fault Refusal :=
  issue (sigScnta msk d za) noPre (fun x s =>
    joinWindow x { strIns .cnta 0 za 0 0 0 [] with dst := cntDst d, mask := x.mask } s) s

end Sys2Proof.Machine
end

