-- ==== Sys2Proof/Machine/Uniform.lean ====
section
/-! DEFINITION. MAJ 0x05 to 0x07: uniform arithmetic, uniform immediates and lane reads (R351 to R354). -/

namespace Sys2Proof.Machine

open Sys2Proof

/-- A uniform instruction: one 64-bit result under HOLD and NW. -/
def uni (i : Sig) (h : Hdr) (kd : Nat) (f : Iss → W64) (s : State) : Host.Outcome State Fault Refusal :=
  issue i noPre (fun x s => .next (writeUni h.nw h.hold kd (f x) x s)) s

/-- A k value read as signed under i64 and as unsigned otherwise (R352). -/
def kInt (t : Ty) (v : W64) : Int := if t = .i64 then v.toInt else v.toNat

/-- An exact result wrapped, or saturated to the range of the type (R352). -/
def kWrap (h : Hdr) (x : Int) : W64 :=
  BitVec.ofInt 64 (if h.mod = 1 then clampI x h.ty.minI h.ty.maxI else x)

def kShl (a b : W64) : W64 := if 64 ≤ b.toNat then 0 else a <<< b.toNat
def kShr (a b : W64) : W64 := if 64 ≤ b.toNat then 0 else a >>> b.toNat
def kSra (a b : W64) : W64 := a.sshiftRight (min b.toNat 64)

/-- klea (R352). -/
def kLea (a b : W64) (sh disp : Nat) : W64 := a + (b <<< sh) + BitVec.ofInt 64 (sext 18 disp)

def execKmov (h : Hdr) (kd ka : Nat) (s : State) : Host.Outcome State Fault Refusal :=
  uni (sigKmov h kd ka) h kd (fun x => kget x.grp ka) s

def execKadd (h : Hdr) (kd ka kb : Nat) (s : State) : Host.Outcome State Fault Refusal :=
  uni (sigKadd h kd ka kb) h kd (fun x => kWrap h (kInt h.ty (kget x.grp ka) + kInt h.ty (kget x.grp kb))) s

def execKaddImm (h : Hdr) (kd ka : Nat) (imm : W32) (s : State) : Host.Outcome State Fault Refusal :=
  uni (sigKaddImm h kd ka imm) h kd (fun x => kWrap h (kInt h.ty (kget x.grp ka) + kInt h.ty (kImm h.ty imm))) s

def execKsub (h : Hdr) (kd ka kb : Nat) (s : State) : Host.Outcome State Fault Refusal :=
  uni (sigKsub h kd ka kb) h kd (fun x => kWrap h (kInt h.ty (kget x.grp ka) - kInt h.ty (kget x.grp kb))) s

def execKsubImm (h : Hdr) (kd ka : Nat) (imm : W32) (s : State) : Host.Outcome State Fault Refusal :=
  uni (sigKsubImm h kd ka imm) h kd (fun x => kWrap h (kInt h.ty (kget x.grp ka) - kInt h.ty (kImm h.ty imm))) s

def execKmul (h : Hdr) (kd ka kb : Nat) (s : State) : Host.Outcome State Fault Refusal :=
  uni (sigKmul h kd ka kb) h kd (fun x => kWrap h (kInt h.ty (kget x.grp ka) * kInt h.ty (kget x.grp kb))) s

def execKmulImm (h : Hdr) (kd ka : Nat) (imm : W32) (s : State) : Host.Outcome State Fault Refusal :=
  uni (sigKmulImm h kd ka imm) h kd (fun x => kWrap h (kInt h.ty (kget x.grp ka) * kInt h.ty (kImm h.ty imm))) s

def execKmad (h : Hdr) (kd ka kb kc : Nat) (s : State) : Host.Outcome State Fault Refusal :=
  uni (sigKmad h kd ka kb kc) h kd (fun x => kWrap h (kInt h.ty (kget x.grp ka) * kInt h.ty (kget x.grp kb) + kInt h.ty (kget x.grp kc))) s

def execKmadImm (h : Hdr) (kd ka : Nat) (imm : W32) (kc : Nat) (s : State) : Host.Outcome State Fault Refusal :=
  uni (sigKmadImm h kd ka imm kc) h kd (fun x => kWrap h (kInt h.ty (kget x.grp ka) * kInt h.ty (kImm h.ty imm) + kInt h.ty (kget x.grp kc))) s

def execKand (h : Hdr) (kd ka kb : Nat) (s : State) : Host.Outcome State Fault Refusal :=
  uni (sigKand h kd ka kb) h kd (fun x => kget x.grp ka &&& kget x.grp kb) s

def execKandImm (h : Hdr) (kd ka : Nat) (imm : W32) (s : State) : Host.Outcome State Fault Refusal :=
  uni (sigKandImm h kd ka imm) h kd (fun x => kget x.grp ka &&& kImm h.ty imm) s

def execKor (h : Hdr) (kd ka kb : Nat) (s : State) : Host.Outcome State Fault Refusal :=
  uni (sigKor h kd ka kb) h kd (fun x => kget x.grp ka ||| kget x.grp kb) s

def execKorImm (h : Hdr) (kd ka : Nat) (imm : W32) (s : State) : Host.Outcome State Fault Refusal :=
  uni (sigKorImm h kd ka imm) h kd (fun x => kget x.grp ka ||| kImm h.ty imm) s

def execKxor (h : Hdr) (kd ka kb : Nat) (s : State) : Host.Outcome State Fault Refusal :=
  uni (sigKxor h kd ka kb) h kd (fun x => kget x.grp ka ^^^ kget x.grp kb) s

def execKxorImm (h : Hdr) (kd ka : Nat) (imm : W32) (s : State) : Host.Outcome State Fault Refusal :=
  uni (sigKxorImm h kd ka imm) h kd (fun x => kget x.grp ka ^^^ kImm h.ty imm) s

def execKshl (h : Hdr) (kd ka kb : Nat) (s : State) : Host.Outcome State Fault Refusal :=
  uni (sigKshl h kd ka kb) h kd (fun x => kShl (kget x.grp ka) (kget x.grp kb)) s

def execKshlImm (h : Hdr) (kd ka : Nat) (imm : W32) (s : State) : Host.Outcome State Fault Refusal :=
  uni (sigKshlImm h kd ka imm) h kd (fun x => kShl (kget x.grp ka) (kImm h.ty imm)) s

def execKshr (h : Hdr) (kd ka kb : Nat) (s : State) : Host.Outcome State Fault Refusal :=
  uni (sigKshr h kd ka kb) h kd (fun x => kShr (kget x.grp ka) (kget x.grp kb)) s

def execKshrImm (h : Hdr) (kd ka : Nat) (imm : W32) (s : State) : Host.Outcome State Fault Refusal :=
  uni (sigKshrImm h kd ka imm) h kd (fun x => kShr (kget x.grp ka) (kImm h.ty imm)) s

def execKsra (h : Hdr) (kd ka kb : Nat) (s : State) : Host.Outcome State Fault Refusal :=
  uni (sigKsra h kd ka kb) h kd (fun x => kSra (kget x.grp ka) (kget x.grp kb)) s

def execKsraImm (h : Hdr) (kd ka : Nat) (imm : W32) (s : State) : Host.Outcome State Fault Refusal :=
  uni (sigKsraImm h kd ka imm) h kd (fun x => kSra (kget x.grp ka) (kImm h.ty imm)) s

def execKmin (h : Hdr) (kd ka kb : Nat) (s : State) : Host.Outcome State Fault Refusal :=
  uni (sigKmin h kd ka kb) h kd (fun x => if kInt h.ty (kget x.grp kb) < kInt h.ty (kget x.grp ka) then kget x.grp kb else kget x.grp ka) s

def execKminImm (h : Hdr) (kd ka : Nat) (imm : W32) (s : State) : Host.Outcome State Fault Refusal :=
  uni (sigKminImm h kd ka imm) h kd (fun x => if kInt h.ty (kImm h.ty imm) < kInt h.ty (kget x.grp ka) then kImm h.ty imm else kget x.grp ka) s

def execKmax (h : Hdr) (kd ka kb : Nat) (s : State) : Host.Outcome State Fault Refusal :=
  uni (sigKmax h kd ka kb) h kd (fun x => if kInt h.ty (kget x.grp kb) > kInt h.ty (kget x.grp ka) then kget x.grp kb else kget x.grp ka) s

def execKmaxImm (h : Hdr) (kd ka : Nat) (imm : W32) (s : State) : Host.Outcome State Fault Refusal :=
  uni (sigKmaxImm h kd ka imm) h kd (fun x => if kInt h.ty (kImm h.ty imm) > kInt h.ty (kget x.grp ka) then kImm h.ty imm else kget x.grp ka) s

def execKcmp (h : Hdr) (kd ka kb : Nat) (s : State) : Host.Outcome State Fault Refusal :=
  uni (sigKcmp h kd ka kb) h kd (fun x => if cmpI h.mod (kInt h.ty (kget x.grp ka)) (kInt h.ty (kget x.grp kb)) then 1 else 0) s

def execKcmpImm (h : Hdr) (kd ka : Nat) (imm : W32) (s : State) : Host.Outcome State Fault Refusal :=
  uni (sigKcmpImm h kd ka imm) h kd (fun x => if cmpI h.mod (kInt h.ty (kget x.grp ka)) (kInt h.ty (kImm h.ty imm)) then 1 else 0) s

def execKsel (h : Hdr) (kd ka kb kc : Nat) (s : State) : Host.Outcome State Fault Refusal :=
  uni (sigKsel h kd ka kb kc) h kd (fun x => if kget x.grp kc ≠ 0 then kget x.grp ka else kget x.grp kb) s

def execKlea (h : Hdr) (kd ka kb sh disp : Nat) (s : State) : Host.Outcome State Fault Refusal :=
  uni (sigKlea h kd ka kb sh disp) h kd (fun x => kLea (kget x.grp ka) (kget x.grp kb) sh disp) s

def execKpopc (h : Hdr) (kd ka : Nat) (s : State) : Host.Outcome State Fault Refusal :=
  uni (sigKpopc h kd ka) h kd (fun x => BitVec.ofNat 64 (popcountN 64 (kget x.grp ka).toNat)) s

def execKclz (h : Hdr) (kd ka : Nat) (s : State) : Host.Outcome State Fault Refusal :=
  uni (sigKclz h kd ka) h kd (fun x => BitVec.ofNat 64 (clzN 64 (kget x.grp ka).toNat)) s

def execKli (h : Hdr) (kd : Nat) (imm : W32) (s : State) : Host.Outcome State Fault Refusal :=
  uni (sigKli h kd imm) h kd (fun _ => kImm h.ty imm) s

def execKli64 (h : Hdr) (kd : Nat) (imm : W64) (s : State) : Host.Outcome State Fault Refusal :=
  uni (sigKli64 h kd imm) h kd (fun _ => imm) s

/-- The lane that kfromv reads (R354). -/
def pickLane (x : Iss) : LaneSel → Nat
  | .lane n => n
  | .k n => (kget x.grp n).toNat % 64
  | .first => (activeLanes x.ent.mask).headD 0

/-- The lane's value as a 64-bit result (R354). -/
def laneVal (t : Ty) (v : Nat) : W64 := if t = .i32 then BitVec.ofInt 64 (sext 32 v) else BitVec.ofNat 64 v

def execKfromv (h : Hdr) (kd va : Nat) (sel : LaneSel) (s : State) : Host.Outcome State Fault Refusal :=
  uni (sigKfromv h kd va sel) h kd (fun x => laneVal h.ty (fileVal x.grp h.ty.pair va (pickLane x sel))) s

end Sys2Proof.Machine
end

