-- ==== Sys2Proof/Machine/VInt.lean ====
section
/-! DEFINITION. MAJ 0x08: vector integer arithmetic (R361, R362), and the form that all per-lane instructions share. -/

namespace Sys2Proof.Machine

open Sys2Proof

/-- A per-lane instruction: f gives the lane value of every active lane (R356). -/
def lanewise (i : Sig) (h : Hdr) (d : VDst) (f : Iss → Nat → Nat) (s : State) : Host.Outcome State Fault Refusal :=
  issue i noPre (fun x s => .next (writeLanes h d x (f x) s)) s

/-- An exact element wrapped or saturated by MOD (R362), as an element code. -/
def narrow (h : Hdr) (v : Int) : Nat := wrapN h.ty.width (if h.mod = 1 then clampI v h.ty.minI h.ty.maxI else v)

/-- Element by element, read by the signedness of the type. -/
def ints (t : Ty) (f : Int → Int → Int → Nat) (a b c : Nat) : Nat :=
  pack t fun j => f (t.int (elem t a j)) (t.int (elem t b j)) (t.int (elem t c j))

def execAdd (h : Hdr) (d : VDst) (a b : VSrc) (s : State) : Host.Outcome State Fault Refusal :=
  lanewise (sigAdd h d a b) h d (fun x l => ints h.ty (fun a b _ => narrow h (a + b)) (srcVal x h.ty.pair a l) (srcVal x h.ty.pair b l) 0) s

def execAddImm (h : Hdr) (d : VDst) (a : VSrc) (imm : W32) (s : State) : Host.Outcome State Fault Refusal :=
  lanewise (sigAddImm h d a imm) h d (fun x l => ints h.ty (fun a b _ => narrow h (a + b)) (srcVal x h.ty.pair a l) (immVal h.ty imm) 0) s

def execSub (h : Hdr) (d : VDst) (a b : VSrc) (s : State) : Host.Outcome State Fault Refusal :=
  lanewise (sigSub h d a b) h d (fun x l => ints h.ty (fun a b _ => narrow h (a - b)) (srcVal x h.ty.pair a l) (srcVal x h.ty.pair b l) 0) s

def execSubImm (h : Hdr) (d : VDst) (a : VSrc) (imm : W32) (s : State) : Host.Outcome State Fault Refusal :=
  lanewise (sigSubImm h d a imm) h d (fun x l => ints h.ty (fun a b _ => narrow h (a - b)) (srcVal x h.ty.pair a l) (immVal h.ty imm) 0) s

def execMul (h : Hdr) (d : VDst) (a b : VSrc) (s : State) : Host.Outcome State Fault Refusal :=
  lanewise (sigMul h d a b) h d (fun x l => ints h.ty (fun a b _ => narrow h (a * b)) (srcVal x h.ty.pair a l) (srcVal x h.ty.pair b l) 0) s

def execMulImm (h : Hdr) (d : VDst) (a : VSrc) (imm : W32) (s : State) : Host.Outcome State Fault Refusal :=
  lanewise (sigMulImm h d a imm) h d (fun x l => ints h.ty (fun a b _ => narrow h (a * b)) (srcVal x h.ty.pair a l) (immVal h.ty imm) 0) s

/-- The high half of the exact product. -/
def execMulh (h : Hdr) (d : VDst) (a b : VSrc) (s : State) : Host.Outcome State Fault Refusal :=
  lanewise (sigMulh h d a b) h d (fun x l => ints h.ty (fun a b _ => wrapN h.ty.width (a * b / (2 ^ h.ty.width : Nat))) (srcVal x h.ty.pair a l) (srcVal x h.ty.pair b l) 0) s

def execMulhImm (h : Hdr) (d : VDst) (a : VSrc) (imm : W32) (s : State) : Host.Outcome State Fault Refusal :=
  lanewise (sigMulhImm h d a imm) h d (fun x l => ints h.ty (fun a b _ => wrapN h.ty.width (a * b / (2 ^ h.ty.width : Nat))) (srcVal x h.ty.pair a l) (immVal h.ty imm) 0) s

def execMad (h : Hdr) (d : VDst) (a b c : VSrc) (s : State) : Host.Outcome State Fault Refusal :=
  lanewise (sigMad h d a b c) h d (fun x l => ints h.ty (fun a b c => narrow h (a * b + c)) (srcVal x h.ty.pair a l) (srcVal x h.ty.pair b l) (srcVal x h.ty.pair c l)) s

def execMadImm (h : Hdr) (d : VDst) (a : VSrc) (imm : W32) (c : VSrc) (s : State) : Host.Outcome State Fault Refusal :=
  lanewise (sigMadImm h d a imm c) h d (fun x l => ints h.ty (fun a b c => narrow h (a * b + c)) (srcVal x h.ty.pair a l) (immVal h.ty imm) (srcVal x h.ty.pair c l)) s

def execAbs (h : Hdr) (d : VDst) (a : VSrc) (s : State) : Host.Outcome State Fault Refusal :=
  lanewise (sigAbs h d a) h d (fun x l => ints h.ty (fun a _ _ => narrow h a.natAbs) (srcVal x h.ty.pair a l) 0 0) s

/-- The exact unsigned sum of addc in lane l. -/
def addcSum (x : Iss) (t : Ty) (a b : VSrc) (cin l : Nat) : Nat :=
  srcVal x t.pair a l + srcVal x t.pair b l + carryIn x.grp cin l

def execAddc (h : Hdr) (d : VDst) (a b : VSrc) (cin cout : Nat) (s : State) : Host.Outcome State Fault Refusal :=
  issue (sigAddc h d a b cin cout) noPre (fun x s =>
    let s := writeLanes h d x (fun l => addcSum x h.ty a b cin l % 2 ^ h.ty.width) s
    .next (if cout = 0 then s else writeMaskBits cout x (fun l => carryOut h.ty.width (addcSum x h.ty a b cin l)) s)) s

end Sys2Proof.Machine
end

