-- ==== Sys2Proof/Machine/VFloat.lean ====
section
/-! DEFINITION. MAJ 0x10, 0x11 and 0x12: float arithmetic, compare, class, scale, round and the transcendentals (R369 to R373). -/

namespace Sys2Proof.Machine

open Sys2Proof

/-- The float format of an instruction's type. -/
def fmtOf (t : Ty) : Fmt := (t.fmt?).getD fmtF32

/-- A per-element float instruction with one rounding (R359, R370): f takes the mode, the word drawn, and the lane's elements. -/
def floatOp (i : Sig) (h : Hdr) (d : VDst) (a b c : Iss → Nat → Nat) (f : Fmt → Rnd → Nat → Nat → Nat → Nat → Nat)
    (s : State) : Host.Outcome State Fault Refusal :=
  issue i noPre (fun x s =>
    let mode := effRnd h.mod x.ent.fmt
    let r := srDraws x mode h.ty.elems (activeLanes x.mask) s
    .next (writeLanes h d x (fun l => pack h.ty fun j =>
      f (fmtOf h.ty) mode (drawOf r.1 l j) (elem h.ty (a x l) j) (elem h.ty (b x l) j) (elem h.ty (c x l) j)) r.2)) s

/-- Element by element on element codes. -/
def codes2 (t : Ty) (f : Nat → Nat → Nat) (a b : Nat) : Nat := pack t fun j => f (elem t a j) (elem t b j)

/-- The lane values of a source, of an immediate and of no operand. -/
def opnd (h : Hdr) (v : VSrc) : Iss → Nat → Nat := fun x l => srcVal x h.ty.pair v l
def immOpnd (h : Hdr) (imm : W32) : Iss → Nat → Nat := fun _ _ => immVal h.ty imm
def noOpnd : Iss → Nat → Nat := fun _ _ => 0

def execFadd (h : Hdr) (d : VDst) (a b : VSrc) (s : State) : Host.Outcome State Fault Refusal :=
  floatOp (sigFadd h d a b) h d (opnd h a) (opnd h b) noOpnd (fun F m w a b _ => faddF F m w a b) s

def execFaddImm (h : Hdr) (d : VDst) (a : VSrc) (imm : W32) (s : State) : Host.Outcome State Fault Refusal :=
  floatOp (sigFaddImm h d a imm) h d (opnd h a) (immOpnd h imm) noOpnd (fun F m w a b _ => faddF F m w a b) s

def execFsub (h : Hdr) (d : VDst) (a b : VSrc) (s : State) : Host.Outcome State Fault Refusal :=
  floatOp (sigFsub h d a b) h d (opnd h a) (opnd h b) noOpnd (fun F m w a b _ => fsubF F m w a b) s

def execFsubImm (h : Hdr) (d : VDst) (a : VSrc) (imm : W32) (s : State) : Host.Outcome State Fault Refusal :=
  floatOp (sigFsubImm h d a imm) h d (opnd h a) (immOpnd h imm) noOpnd (fun F m w a b _ => fsubF F m w a b) s

def execFmul (h : Hdr) (d : VDst) (a b : VSrc) (s : State) : Host.Outcome State Fault Refusal :=
  floatOp (sigFmul h d a b) h d (opnd h a) (opnd h b) noOpnd (fun F m w a b _ => fmulF F m w a b) s

def execFmulImm (h : Hdr) (d : VDst) (a : VSrc) (imm : W32) (s : State) : Host.Outcome State Fault Refusal :=
  floatOp (sigFmulImm h d a imm) h d (opnd h a) (immOpnd h imm) noOpnd (fun F m w a b _ => fmulF F m w a b) s

def execFma (h : Hdr) (d : VDst) (a b c : VSrc) (s : State) : Host.Outcome State Fault Refusal :=
  floatOp (sigFma h d a b c) h d (opnd h a) (opnd h b) (opnd h c) (fun F m w a b c => fmaF F m w a b c) s

def execFmaImm (h : Hdr) (d : VDst) (a : VSrc) (imm : W32) (c : VSrc) (s : State) : Host.Outcome State Fault Refusal :=
  floatOp (sigFmaImm h d a imm c) h d (opnd h a) (immOpnd h imm) (opnd h c) (fun F m w a b c => fmaF F m w a b c) s

def execFmin (h : Hdr) (d : VDst) (a b : VSrc) (s : State) : Host.Outcome State Fault Refusal :=
  lanewise (sigFmin h d a b) h d (fun x l => codes2 h.ty (fminF (fmtOf h.ty) false) (srcVal x h.ty.pair a l) (srcVal x h.ty.pair b l)) s

def execFminImm (h : Hdr) (d : VDst) (a : VSrc) (imm : W32) (s : State) : Host.Outcome State Fault Refusal :=
  lanewise (sigFminImm h d a imm) h d (fun x l => codes2 h.ty (fminF (fmtOf h.ty) false) (srcVal x h.ty.pair a l) (immVal h.ty imm)) s

def execFmax (h : Hdr) (d : VDst) (a b : VSrc) (s : State) : Host.Outcome State Fault Refusal :=
  lanewise (sigFmax h d a b) h d (fun x l => codes2 h.ty (fminF (fmtOf h.ty) true) (srcVal x h.ty.pair a l) (srcVal x h.ty.pair b l)) s

def execFmaxImm (h : Hdr) (d : VDst) (a : VSrc) (imm : W32) (s : State) : Host.Outcome State Fault Refusal :=
  lanewise (sigFmaxImm h d a imm) h d (fun x l => codes2 h.ty (fminF (fmtOf h.ty) true) (srcVal x h.ty.pair a l) (immVal h.ty imm)) s

def execFcmp (h : Hdr) (md : Nat) (a b : VSrc) (s : State) : Host.Outcome State Fault Refusal :=
  issue (sigFcmp h md a b) noPre (fun x s =>
    .next (writeMaskBits md x (fun l => fcmpF fmtF32 h.mod (srcVal x h.ty.pair a l) (srcVal x h.ty.pair b l)) s)) s

def execFcmpImm (h : Hdr) (md : Nat) (a : VSrc) (imm : W32) (s : State) : Host.Outcome State Fault Refusal :=
  issue (sigFcmpImm h md a imm) noPre (fun x s =>
    .next (writeMaskBits md x (fun l => fcmpF fmtF32 h.mod (srcVal x h.ty.pair a l) (immVal h.ty imm)) s)) s

def execFclass (h : Hdr) (d : VDst) (a : VSrc) (s : State) : Host.Outcome State Fault Refusal :=
  lanewise (sigFclass h d a) h d (fun x l => codes2 h.ty (fun a _ => fclassF (fmtOf h.ty) a) (srcVal x h.ty.pair a l) 0) s

def execFscale (h : Hdr) (d : VDst) (a b : VSrc) (s : State) : Host.Outcome State Fault Refusal :=
  floatOp (sigFscale h d a b) h d (opnd h a) (opnd h b) noOpnd (fun F m w a n _ => fscaleF F m w a (sext h.ty.width n)) s

def execFscaleImm (h : Hdr) (d : VDst) (a : VSrc) (imm : W32) (s : State) : Host.Outcome State Fault Refusal :=
  floatOp (sigFscaleImm h d a imm) h d (opnd h a) (immOpnd h imm) noOpnd (fun F m w a n _ => fscaleF F m w a (sext h.ty.width n)) s

def execFrnd (h : Hdr) (d : VDst) (a : VSrc) (s : State) : Host.Outcome State Fault Refusal :=
  floatOp (sigFrnd h d a) h d (opnd h a) noOpnd noOpnd (fun F m w a _ _ => frndF F m w a) s

def execFrcp (h : Hdr) (d : VDst) (a : VSrc) (s : State) : Host.Outcome State Fault Refusal :=
  floatOp (sigFrcp h d a) h d (opnd h a) noOpnd noOpnd (fun F m w a _ _ => frcpF F m w a) s

def execFsqrt (h : Hdr) (d : VDst) (a : VSrc) (s : State) : Host.Outcome State Fault Refusal :=
  floatOp (sigFsqrt h d a) h d (opnd h a) noOpnd noOpnd (fun F m w a _ _ => fsqrtF F m w a) s

def execFrsq (h : Hdr) (d : VDst) (a : VSrc) (s : State) : Host.Outcome State Fault Refusal :=
  floatOp (sigFrsq h d a) h d (opnd h a) noOpnd noOpnd (fun _ m w a _ _ => frsqF m w a) s

def execFexp2 (h : Hdr) (d : VDst) (a : VSrc) (s : State) : Host.Outcome State Fault Refusal :=
  floatOp (sigFexp2 h d a) h d (opnd h a) noOpnd noOpnd (fun _ m w a _ _ => fexp2F m w a) s

def execFlog2 (h : Hdr) (d : VDst) (a : VSrc) (s : State) : Host.Outcome State Fault Refusal :=
  floatOp (sigFlog2 h d a) h d (opnd h a) noOpnd noOpnd (fun _ m w a _ _ => flog2F m w a) s

end Sys2Proof.Machine
end

