-- ==== Sys2Proof/Machine/VConvert.lean ====
section
/-! DEFINITION. MAJ 0x13: conversion and the packing of l6 (R374 to R377, R280, R284, R287). -/

namespace Sys2Proof.Machine

open Sys2Proof

/-- The effective mode of a conversion to a type: a conversion to l6 rounds by R284 alone. -/
def cvtMode (h : Hdr) (x : Iss) : Rnd := if h.ty = .l6 then .rne else effRnd h.mod x.ent.fmt

/-- The converted lane value (R376): `old` is the destination's value, `w` gives the word drawn for each converted element. -/
def cvtLane (src dst : Ty) (elemSel : Nat) (mode : Rnd) (w : Nat → Nat) (v old : Nat) : Nat :=
  let ns := src.elems
  let nd := dst.elems
  if ns = nd then pack dst fun j => convert src dst mode (w j) (elem src v j)
  else if ns < nd then
    pack dst fun j => if elemSel * ns ≤ j ∧ j < elemSel * ns + ns
      then convert src dst mode (w (j - elemSel * ns)) (elem src v (j - elemSel * ns)) else elem dst old j
  else pack dst fun j => convert src dst mode (w j) (elem src v (elemSel * nd + j))

def execCvt (h : Hdr) (d : VDst) (a : VSrc) (src : Ty) (elem : Nat) (s : State) : Host.Outcome State Fault Refusal :=
  issue (sigCvt h d a src elem) noPre (fun x s =>
    let mode := cvtMode h x
    let r := srDraws x mode (min src.elems h.ty.elems) (activeLanes x.mask) s
    .next (writeLanes h d x (fun l =>
      cvtLane src h.ty elem mode (drawOf r.1 l) (srcVal x src.pair a l) (fileVal x.grp h.ty.pair d.code l)) r.2)) s

/-- Write consecutive registers from `n`, each from a function of lane and index. -/
def writeSpan (d : VDst) (count : Nat) (x : Iss) (r : Nat → Nat → Nat) (s : State) : State := match d with
  | .reg n => modGrp x.g (fun g => (List.range count).foldl (fun g j => putLanes (n + j) false x.mask (fun l => r l j) g) g) s
  | .zero => s
  | .k _ => s

/-- The 96-bit lane value of three registers (R287). -/
def tripleVal (g : Group) (n l : Nat) : Nat :=
  (vget g n l).toNat + (vget g (n + 1) l).toNat * 2 ^ 32 + (vget g (n + 2) l).toNat * 2 ^ 64

/-- Value j of packed l6 data (R287). -/
def l6At (v j : Nat) : Nat := (v / 2 ^ (6 * j)) % 64

/-- The code of value j of lpack's source in lane l (R377). -/
def lpackCode (g : Group) (va : Nat) (src : Ty) (l j : Nat) : Nat :=
  if src = .f32 then convert .f32 .l6 .rne 0 (vget g (va + j) l).toNat
  else if src = .l6 then elem .l6 (vget g (va + j / 4) l).toNat (j % 4) % 64
  else convert src .l6 .rne 0 (elem src (vget g (va + j / 2) l).toNat (j % 2))

def execLpack (h : Hdr) (d : VDst) (va : Nat) (src : Ty) (s : State) : Host.Outcome State Fault Refusal :=
  issue (sigLpack h d va src) noPre (fun x s =>
    .next (writeSpan d 3 x (fun l w =>
      ((List.range 16).map fun j => lpackCode x.grp va src l j * 2 ^ (6 * j)).sum / 2 ^ (32 * w) % 2 ^ 32) s)) s

def execLunpk (h : Hdr) (d : VDst) (va : Nat) (s : State) : Host.Outcome State Fault Refusal :=
  issue (sigLunpk h d va) noPre (fun x s =>
    .next (if h.ty = .f32 then
        writeSpan d 16 x (fun l j => convert .l6 .f32 .rne 0 (l6At (tripleVal x.grp va l) j)) s
      else writeSpan d 4 x (fun l w => pack .l6 fun j => l6At (tripleVal x.grp va l) (4 * w + j)) s)) s

end Sys2Proof.Machine
end

