-- ==== Sys2Proof/Machine/VCross.lean ====
section
/-! DEFINITION. MAJ 0x14, 0x15 and 0x16: cross-lane data movement, reductions and scans, mask and vote (R378 to R386). -/

namespace Sys2Proof.Machine

open Sys2Proof

/-! ## Data movement (R379 to R381) -/

/-- The source lane of shfl. -/
def shflSrc (l sel : Nat) : Nat := if bit sel 6 then l ^^^ (sel % 64) else sel % 64

def execShfl (h : Hdr) (d : VDst) (a b : VSrc) (s : State) : Host.Outcome State Fault Refusal :=
  lanewise (sigShfl h d a b) h d (fun x l => srcVal x h.ty.pair a (shflSrc l (srcVal x h.ty.pair b l))) s

def execShflImm (h : Hdr) (d : VDst) (a : VSrc) (imm : W32) (s : State) : Host.Outcome State Fault Refusal :=
  lanewise (sigShflImm h d a imm) h d (fun x l => srcVal x h.ty.pair a (shflSrc l imm.toNat)) s

def execBcast (h : Hdr) (d : VDst) (a : VSrc) (kl : Nat) (s : State) : Host.Outcome State Fault Refusal :=
  lanewise (sigBcast h d a kl) h d (fun x _ => srcVal x h.ty.pair a ((kget x.grp kl).toNat % 64)) s

def execBcastImm (h : Hdr) (d : VDst) (a : VSrc) (imm : W32) (s : State) : Host.Outcome State Fault Refusal :=
  lanewise (sigBcastImm h d a imm) h d (fun x _ => srcVal x h.ty.pair a (imm.toNat % 64)) s

/-- Whether element code b ranks strictly above a under compress (R380). -/
def ranksAbove (t : Ty) (b a : Nat) : Bool :=
  match t.fmt? with
  | none => decide ((t.int a).natAbs < (t.int b).natAbs)
  | some F => match F.decode a, F.decode b with
    | .nan, _ => false
    | _, .nan => true
    | x, y => FVal.lt false (if x.isNeg then x.neg else x) (if y.isNeg then y.neg else y)

/-- The index of the highest-ranking element outside `skip`, the lowest index winning ties. -/
def topOf (t : Ty) (es : List Nat) (skip : Option Nat) : Nat :=
  (List.range 4).foldl (fun best i =>
    if skip = some i then best
    else if skip = some best ∨ ranksAbove t (es.getD i 0) (es.getD best 0) then i else best) 0

/-- The two kept indices of a group of four, ascending. -/
def keptPair (t : Ty) (es : List Nat) : Nat × Nat :=
  let i := topOf t es none
  let j := topOf t es (some i)
  (min i j, max i j)

/-- The groups of four of a lane pair (R380). -/
def compGroups (t : Ty) (a b : Nat) : List (List Nat) :=
  if t.width = 8 then [(List.range 4).map (elem t a), (List.range 4).map (elem t b)]
  else [(List.range 2).map (elem t a) ++ (List.range 2).map (elem t b)]

def compData (t : Ty) (a b : Nat) : Nat :=
  let es := (compGroups t a b).flatMap fun g => let p := keptPair t g; [g.getD p.1 0, g.getD p.2 0]
  pack t fun j => es.getD j 0

def compMeta (t : Ty) (a b : Nat) : Nat :=
  ((compGroups t a b).map fun g => let p := keptPair t g; p.1 + 4 * p.2).foldr (fun v r => v + 16 * r) 0

def execCompress (h : Hdr) (d : VDst) (a b : VSrc) (vm slot : Nat) (s : State) : Host.Outcome State Fault Refusal :=
  issue (sigCompress h d a b vm slot) noPre (fun x s =>
    let va := srcVal x false a
    let vb := srcVal x false b
    let s := writeLanes h d x (fun l => compData h.ty (va l) (vb l)) s
    .next (writeSpan (metaDst vm) 1 x (fun l _ =>
      setBits (vget x.grp vm l).toNat (8 * slot + 7) (8 * slot) (compMeta h.ty (va l) (vb l))) s)) s

/-- A group of four restored from its two kept elements (R381): the second stands where both name one index. -/
def restored (k0 k1 m : Nat) (i : Nat) : Nat := if i = m / 4 % 4 then k1 else if i = m % 4 then k0 else 0

def expandWord (t : Ty) (v m w : Nat) : Nat :=
  if t.width = 8 then pack t fun j => restored (elem t v (2 * w)) (elem t v (2 * w + 1)) (m / 16 ^ w % 16) j
  else pack t fun j => restored (elem t v 0) (elem t v 1) (m % 16) (2 * w + j)

def execExpand (h : Hdr) (d : VDst) (a vm : VSrc) (slot : Nat) (s : State) : Host.Outcome State Fault Refusal :=
  issue (sigExpand h d a vm slot) noPre (fun x s =>
    .next (writeSpan d 2 x (fun l w =>
      expandWord h.ty (srcVal x false a l) (bits (srcVal x false vm l) (8 * slot + 7) (8 * slot)) w) s)) s

/-! ## Reductions (R382 to R384) -/

/-- The operations of reductions and scans. -/
inductive RedOp where
  | add | min | max | and | or | xor
  deriving DecidableEq, Repr

/-- The identity of an operation (R383), as a code of the type. -/
def redIdentity (t : Ty) : RedOp → Nat
  | .add => 0
  | .min => if t = .f32 then fmtF32.inf false else wrapN t.width t.maxI
  | .max => if t = .f32 then fmtF32.inf true else wrapN t.width t.minI
  | .and => 2 ^ t.width - 1
  | .or => 0
  | .xor => 0

/-- The operation on two codes; a float add is not made stepwise. -/
def redStep (t : Ty) (op : RedOp) (a b : Nat) : Nat := match op with
  | .add => (a + b) % 2 ^ t.width
  | .min => if t = .f32 then fminF fmtF32 false a b else if t.int b < t.int a then b else a
  | .max => if t = .f32 then fminF fmtF32 true a b else if t.int a < t.int b then b else a
  | .and => a &&& b
  | .or => a ||| b
  | .xor => a ^^^ b

/-- The combination of the active lanes' values: the identity for none; a float sum is rounded once (R383, R282); NaN for min and
max where every value is NaN. -/
def redVals (t : Ty) (op : RedOp) (mode : Rnd) (w : Nat) (vs : List Nat) : Nat := match vs with
  | [] => redIdentity t op
  | v :: r =>
    if t = .f32 ∧ op = .add then roundF fmtF32 mode w (FVal.sum mode (vs.map fmtF32.decode))
    else if t = .f32 then r.foldl (redStep t op) (fminF fmtF32 (op = .max) v v)
    else r.foldl (redStep t op) v

/-- A result for a k destination: zero-extended, sign-extended under i32 (R383). -/
def redK (t : Ty) (v : Nat) : W64 := if t = .i32 then BitVec.ofInt 64 (sext 32 v) else BitVec.ofNat 64 v

/-- The values of the active lanes in ascending lane order. -/
def activeVals (x : Iss) (t : Ty) (a : VSrc) : List Nat := (activeLanes x.mask).map (srcVal x t.pair a)

/-- A reduction without an index. -/
def reduction (i : Sig) (h : Hdr) (d : VDst) (a : VSrc) (op : RedOp) (s : State) : Host.Outcome State Fault Refusal :=
  issue i noPre (fun x s =>
    let v := redVals h.ty op .rne 0 (activeVals x h.ty a)
    .next (writeRed h d x v (redK h.ty v) s)) s

/-- redadd (R383): under SR one word is drawn, from the lowest active lane. -/
def execRedadd (h : Hdr) (d : VDst) (a : VSrc) (s : State) : Host.Outcome State Fault Refusal :=
  issue (sigRedadd h d a) noPre (fun x s =>
    let mode := if h.ty = .f32 then effRnd h.mod x.ent.fmt else .rne
    let low := (activeLanes x.mask).take 1
    let r := srDraws x mode 1 low s
    let v := redVals h.ty .add mode (drawOf r.1 (low.headD 0) 0) (activeVals x h.ty a)
    .next (writeRed h d x v (redK h.ty v) r.2)) s

def execRedmin (h : Hdr) (d : VDst) (a : VSrc) (s : State) : Host.Outcome State Fault Refusal :=
  reduction (sigRedmin h d a) h d a .min s
def execRedmax (h : Hdr) (d : VDst) (a : VSrc) (s : State) : Host.Outcome State Fault Refusal :=
  reduction (sigRedmax h d a) h d a .max s
def execRedand (h : Hdr) (d : VDst) (a : VSrc) (s : State) : Host.Outcome State Fault Refusal :=
  reduction (sigRedand h d a) h d a .and s
def execRedor (h : Hdr) (d : VDst) (a : VSrc) (s : State) : Host.Outcome State Fault Refusal :=
  reduction (sigRedor h d a) h d a .or s
def execRedxor (h : Hdr) (d : VDst) (a : VSrc) (s : State) : Host.Outcome State Fault Refusal :=
  reduction (sigRedxor h d a) h d a .xor s

/-- The lowest active lane that holds the extreme (R384). -/
def winLane (x : Iss) (t : Ty) (a : VSrc) (v : Nat) : Option Nat :=
  let isNan := t = .f32 ∧ fmtF32.decode v = .nan
  (activeLanes x.mask).find? fun l => decide (isNan) || srcVal x t.pair a l == v

/-- A reduction with an index. -/
def reductionIdx (i : Sig) (h : Hdr) (d di : VDst) (a b : VSrc) (op : RedOp) (s : State) : Host.Outcome State Fault Refusal :=
  issue i noPre (fun x s =>
    let v := redVals h.ty op .rne 0 (activeVals x h.ty a)
    let s := writeRed h d x v (redK h.ty v) s
    let ix := (winLane x h.ty a v).map (srcVal x h.ty.pair b)
    .next (writeRed { h with hold := 0 } di x (ix.getD 0) ((ix.map (redK h.ty)).getD 64) s)) s

def execRedminIndex (h : Hdr) (d di : VDst) (a b : VSrc) (s : State) : Host.Outcome State Fault Refusal :=
  reductionIdx (sigRedminIndex h d di a b) h d di a b .min s
def execRedmaxIndex (h : Hdr) (d di : VDst) (a b : VSrc) (s : State) : Host.Outcome State Fault Refusal :=
  reductionIdx (sigRedmaxIndex h d di a b) h d di a b .max s

/-! ## Scan (R385) -/

/-- The operation a MOD of scan names. -/
def scanOp (m : Nat) : RedOp := match m % 8 with
  | 0 => .add
  | 1 => .min
  | 2 => .max
  | 3 => .and
  | 4 => .or
  | _ => .xor

/-- The active lanes whose values lane l's prefix takes. -/
def scanLanes (x : Iss) (m l : Nat) : List Nat := (activeLanes x.mask).filter fun j => if 8 ≤ m then decide (j < l) else decide (j ≤ l)

def execScan (h : Hdr) (d : VDst) (a : VSrc) (s : State) : Host.Outcome State Fault Refusal :=
  issue (sigScan h d a) noPre (fun x s =>
    let op := scanOp h.mod
    let mode := if h.ty = .f32 ∧ op = .add then effRnd 5 x.ent.fmt else .rne
    let r := srDraws x mode 1 (activeLanes x.mask) s
    .next (writeLanes h d x (fun l =>
      redVals h.ty op mode (drawOf r.1 l 0) ((scanLanes x h.mod l).map (srcVal x h.ty.pair a))) r.2)) s

/-! ## Mask and vote (R386) -/

/-- The active lanes with a non-zero value. -/
def nonZero (x : Iss) (t : Ty) (a : VSrc) : Mask := x.mask &&& maskOf fun l => srcVal x t.pair a l != 0

/-- A vote: a value for a k register. -/
def vote (i : Sig) (h : Hdr) (kd : Nat) (f : Iss → W64) (s : State) : Host.Outcome State Fault Refusal :=
  issue i noPre (fun x s => .next (writeK h.nw kd (f x) x s)) s

def execBallot (h : Hdr) (kd : Nat) (a : VSrc) (s : State) : Host.Outcome State Fault Refusal :=
  vote (sigBallot h kd a) h kd (fun x => nonZero x h.ty a) s
def execVany (h : Hdr) (kd : Nat) (a : VSrc) (s : State) : Host.Outcome State Fault Refusal :=
  vote (sigVany h kd a) h kd (fun x => if nonZero x h.ty a ≠ 0 then 1 else 0) s
def execVall (h : Hdr) (kd : Nat) (a : VSrc) (s : State) : Host.Outcome State Fault Refusal :=
  vote (sigVall h kd a) h kd (fun x => if nonZero x h.ty a = x.mask then 1 else 0) s

/-- The lowest set bit alone. -/
def lowestBit (m : Mask) : Mask := m &&& (0 - m)

def execElect (h : Hdr) (md ms : Nat) (s : State) : Host.Outcome State Fault Refusal :=
  issue (sigElect h md ms) noPre (fun x s => .next (writeMask md x (lowestBit (x.mask &&& mget x.grp ms)) s)) s
def execMcnt (h : Hdr) (kd ms : Nat) (s : State) : Host.Outcome State Fault Refusal :=
  vote (sigMcnt h kd ms) h kd (fun x => BitVec.ofNat 64 (popcountN 64 (x.mask &&& mget x.grp ms).toNat)) s

/-- The operation of mlog on whole masks. -/
def mlogOp (m : Nat) (act a b : Mask) : Mask := match m with
  | 0 => a &&& b
  | 1 => a ||| b
  | 2 => a ^^^ b
  | 3 => a &&& ~~~b
  | 4 => ~~~a
  | 5 => a
  | _ => act

def execMlog (h : Hdr) (md ma mb : Nat) (s : State) : Host.Outcome State Fault Refusal :=
  issue (sigMlog h md ma mb) noPre (fun x s =>
    .next (writeMask md x (mlogOp h.mod x.mask (mget x.grp ma) (mget x.grp mb)) s)) s

end Sys2Proof.Machine
end

