-- ==== Sys2Proof/Machine/VLogic.lean ====
section
/-! DEFINITION. MAJ 0x09, 0x0A and 0x0B: logic, shifts, min, max, compare, select, move and bit operations (R363 to R368). -/

namespace Sys2Proof.Machine

open Sys2Proof

/-- lop3 (R364): every bit indexes the truth table by the bits of a, b and c. -/
def lop3 (w : Nat) (tbl : BitVec 8) (a b c : Nat) : Nat :=
  (List.range w).foldl (fun r i =>
    if tbl.getLsbD ((bit a i).toNat + 2 * (bit b i).toNat + 4 * (bit c i).toNat) then r + 2 ^ i else r) 0

def shlN (w a n : Nat) : Nat := if w ≤ n then 0 else a * 2 ^ n % 2 ^ w
def shrN (w a n : Nat) : Nat := if w ≤ n then 0 else a / 2 ^ n
def sraN (w a n : Nat) : Nat := wrapN w (sext w a / (2 ^ min n w : Nat))

/-- Element by element on element codes. -/
def codes (t : Ty) (f : Nat → Nat → Nat) (a b : Nat) : Nat := pack t fun j => f (elem t a j) (elem t b j)

def execAnd (h : Hdr) (d : VDst) (a b : VSrc) (s : State) : Host.Outcome State Fault Refusal :=
  lanewise (sigAnd h d a b) h d (fun x l => (srcVal x h.ty.pair a l) &&& (srcVal x h.ty.pair b l)) s

def execAndImm (h : Hdr) (d : VDst) (a : VSrc) (imm : W32) (s : State) : Host.Outcome State Fault Refusal :=
  lanewise (sigAndImm h d a imm) h d (fun x l => (srcVal x h.ty.pair a l) &&& (immVal h.ty imm)) s

def execOr (h : Hdr) (d : VDst) (a b : VSrc) (s : State) : Host.Outcome State Fault Refusal :=
  lanewise (sigOr h d a b) h d (fun x l => (srcVal x h.ty.pair a l) ||| (srcVal x h.ty.pair b l)) s

def execOrImm (h : Hdr) (d : VDst) (a : VSrc) (imm : W32) (s : State) : Host.Outcome State Fault Refusal :=
  lanewise (sigOrImm h d a imm) h d (fun x l => (srcVal x h.ty.pair a l) ||| (immVal h.ty imm)) s

def execXor (h : Hdr) (d : VDst) (a b : VSrc) (s : State) : Host.Outcome State Fault Refusal :=
  lanewise (sigXor h d a b) h d (fun x l => (srcVal x h.ty.pair a l) ^^^ (srcVal x h.ty.pair b l)) s

def execXorImm (h : Hdr) (d : VDst) (a : VSrc) (imm : W32) (s : State) : Host.Outcome State Fault Refusal :=
  lanewise (sigXorImm h d a imm) h d (fun x l => (srcVal x h.ty.pair a l) ^^^ (immVal h.ty imm)) s

def execLop3 (h : Hdr) (d : VDst) (a b c : VSrc) (tbl : BitVec 8) (s : State) : Host.Outcome State Fault Refusal :=
  lanewise (sigLop3 h d a b c tbl) h d (fun x l => lop3 h.ty.width tbl (srcVal x h.ty.pair a l) (srcVal x h.ty.pair b l) (srcVal x h.ty.pair c l)) s

def execShl (h : Hdr) (d : VDst) (a b : VSrc) (s : State) : Host.Outcome State Fault Refusal :=
  lanewise (sigShl h d a b) h d (fun x l => codes h.ty (shlN h.ty.width) (srcVal x h.ty.pair a l) (srcVal x h.ty.pair b l)) s

def execShlImm (h : Hdr) (d : VDst) (a : VSrc) (imm : W32) (s : State) : Host.Outcome State Fault Refusal :=
  lanewise (sigShlImm h d a imm) h d (fun x l => codes h.ty (shlN h.ty.width) (srcVal x h.ty.pair a l) (immVal h.ty imm)) s

def execShr (h : Hdr) (d : VDst) (a b : VSrc) (s : State) : Host.Outcome State Fault Refusal :=
  lanewise (sigShr h d a b) h d (fun x l => codes h.ty (shrN h.ty.width) (srcVal x h.ty.pair a l) (srcVal x h.ty.pair b l)) s

def execShrImm (h : Hdr) (d : VDst) (a : VSrc) (imm : W32) (s : State) : Host.Outcome State Fault Refusal :=
  lanewise (sigShrImm h d a imm) h d (fun x l => codes h.ty (shrN h.ty.width) (srcVal x h.ty.pair a l) (immVal h.ty imm)) s

def execSra (h : Hdr) (d : VDst) (a b : VSrc) (s : State) : Host.Outcome State Fault Refusal :=
  lanewise (sigSra h d a b) h d (fun x l => codes h.ty (sraN h.ty.width) (srcVal x h.ty.pair a l) (srcVal x h.ty.pair b l)) s

def execSraImm (h : Hdr) (d : VDst) (a : VSrc) (imm : W32) (s : State) : Host.Outcome State Fault Refusal :=
  lanewise (sigSraImm h d a imm) h d (fun x l => codes h.ty (sraN h.ty.width) (srcVal x h.ty.pair a l) (immVal h.ty imm)) s

def execMin (h : Hdr) (d : VDst) (a b : VSrc) (s : State) : Host.Outcome State Fault Refusal :=
  lanewise (sigMin h d a b) h d (fun x l => ints h.ty (fun a b _ => wrapN h.ty.width (if b < a then b else a)) (srcVal x h.ty.pair a l) (srcVal x h.ty.pair b l) 0) s

def execMinImm (h : Hdr) (d : VDst) (a : VSrc) (imm : W32) (s : State) : Host.Outcome State Fault Refusal :=
  lanewise (sigMinImm h d a imm) h d (fun x l => ints h.ty (fun a b _ => wrapN h.ty.width (if b < a then b else a)) (srcVal x h.ty.pair a l) (immVal h.ty imm) 0) s

def execMax (h : Hdr) (d : VDst) (a b : VSrc) (s : State) : Host.Outcome State Fault Refusal :=
  lanewise (sigMax h d a b) h d (fun x l => ints h.ty (fun a b _ => wrapN h.ty.width (if a < b then b else a)) (srcVal x h.ty.pair a l) (srcVal x h.ty.pair b l) 0) s

def execMaxImm (h : Hdr) (d : VDst) (a : VSrc) (imm : W32) (s : State) : Host.Outcome State Fault Refusal :=
  lanewise (sigMaxImm h d a imm) h d (fun x l => ints h.ty (fun a b _ => wrapN h.ty.width (if a < b then b else a)) (srcVal x h.ty.pair a l) (immVal h.ty imm) 0) s

def execCmp (h : Hdr) (md : Nat) (a b : VSrc) (s : State) : Host.Outcome State Fault Refusal :=
  issue (sigCmp h md a b) noPre (fun x s =>
    .next (writeMaskBits md x (fun l => cmpI h.mod (h.ty.int (srcVal x h.ty.pair a l)) (h.ty.int (srcVal x h.ty.pair b l))) s)) s

def execCmpImm (h : Hdr) (md : Nat) (a : VSrc) (imm : W32) (s : State) : Host.Outcome State Fault Refusal :=
  issue (sigCmpImm h md a imm) noPre (fun x s =>
    .next (writeMaskBits md x (fun l => cmpI h.mod (h.ty.int (srcVal x h.ty.pair a l)) (h.ty.int (immVal h.ty imm))) s)) s

def execSel (h : Hdr) (d : VDst) (a b : VSrc) (mc : Nat) (s : State) : Host.Outcome State Fault Refusal :=
  lanewise (sigSel h d a b mc) h d (fun x l => if laneOn (mget x.grp mc) l then (srcVal x h.ty.pair a l) else (srcVal x h.ty.pair b l)) s

def execMov (h : Hdr) (d : VDst) (a : VSrc) (s : State) : Host.Outcome State Fault Refusal :=
  lanewise (sigMov h d a) h d (fun x l => srcVal x h.ty.pair a l) s

def execMovImm (h : Hdr) (d : VDst) (imm : W32) (s : State) : Host.Outcome State Fault Refusal :=
  lanewise (sigMovImm h d imm) h d (fun _ _ => immVal h.ty imm) s

/-- movk writes one lane, and only if it is active. -/
def execMovk (h : Hdr) (d : VDst) (kv kl : Nat) (s : State) : Host.Outcome State Fault Refusal :=
  issue (sigMovk h d kv kl) noPre (fun x s =>
    let one := { x with mask := x.mask &&& BitVec.ofNat 64 (2 ^ ((kget x.grp kl).toNat % 64)) }
    .next (writeLanes h d one (fun _ => fileVal x.grp h.ty.pair (1600 + kv) 0) s)) s

def execPopc (h : Hdr) (d : VDst) (a : VSrc) (s : State) : Host.Outcome State Fault Refusal :=
  lanewise (sigPopc h d a) h d (fun x l => popcountN h.ty.width (srcVal x h.ty.pair a l)) s

def execClz (h : Hdr) (d : VDst) (a : VSrc) (s : State) : Host.Outcome State Fault Refusal :=
  lanewise (sigClz h d a) h d (fun x l => clzN h.ty.width (srcVal x h.ty.pair a l)) s

def execBrev (h : Hdr) (d : VDst) (a : VSrc) (s : State) : Host.Outcome State Fault Refusal :=
  lanewise (sigBrev h d a) h d (fun x l => bitRevN h.ty.width (srcVal x h.ty.pair a l)) s

/-- The position and width of a field word (R368). -/
def fieldPos (f : Nat) : Nat := bits f 4 0
def fieldWidth (f : Nat) : Nat := min (bits f 13 8) 32

def bfe (t : Ty) (a f : Nat) : Nat :=
  let v := (a / 2 ^ fieldPos f) % 2 ^ fieldWidth f
  if t = .i32 ∧ 0 < fieldWidth f then wrapN 32 (sext (fieldWidth f) v) else v

def bfi (a f c : Nat) : Nat :=
  let m := (2 ^ fieldWidth f - 1) * 2 ^ fieldPos f % 2 ^ 32
  (c &&& (2 ^ 32 - 1 - m)) ||| ((a * 2 ^ fieldPos f) &&& m)

def execBfe (h : Hdr) (d : VDst) (a b : VSrc) (s : State) : Host.Outcome State Fault Refusal :=
  lanewise (sigBfe h d a b) h d (fun x l => bfe h.ty (srcVal x h.ty.pair a l) (srcVal x h.ty.pair b l)) s

def execBfeImm (h : Hdr) (d : VDst) (a : VSrc) (imm : W32) (s : State) : Host.Outcome State Fault Refusal :=
  lanewise (sigBfeImm h d a imm) h d (fun x l => bfe h.ty (srcVal x h.ty.pair a l) (immVal h.ty imm)) s

def execBfi (h : Hdr) (d : VDst) (a b c : VSrc) (s : State) : Host.Outcome State Fault Refusal :=
  lanewise (sigBfi h d a b c) h d (fun x l => bfi (srcVal x h.ty.pair a l) (srcVal x h.ty.pair b l) (srcVal x h.ty.pair c l)) s

def execBfiImm (h : Hdr) (d : VDst) (a : VSrc) (imm : W32) (c : VSrc) (s : State) : Host.Outcome State Fault Refusal :=
  lanewise (sigBfiImm h d a imm c) h d (fun x l => bfi (srcVal x h.ty.pair a l) (immVal h.ty imm) (srcVal x h.ty.pair c l)) s

end Sys2Proof.Machine
end

