-- ==== Sys2Proof/Machine/Dispatch.lean ====
section
/-! DEFINITION. Dispatch: one arm per constructor, each one call of the instruction's or event's meaning. -/

namespace Sys2Proof.Machine

open Sys2Proof

def exec (i : Instr) (s : State) : Host.Outcome State Fault Refusal :=
  match i with
  | .moduleReset => Sys2Proof.Machine.execModuleReset s
  | .powerLoss => Sys2Proof.Machine.execPowerLoss s
  | .dieLoss dies => Sys2Proof.Machine.execDieLoss dies s
  | .dieReset port die => Sys2Proof.Machine.execDieReset port die s
  | .clockThrottle => Sys2Proof.Machine.execClockThrottle s
  | .clockRestore => Sys2Proof.Machine.execClockRestore s
  | .healthUpdate conf worst r => Sys2Proof.Machine.execHealthUpdate conf worst r s
  | .healthSnapshot => Sys2Proof.Machine.execHealthSnapshot s
  | .hbmErrorWindow stack => Sys2Proof.Machine.execHbmErrorWindow stack s
  | .flitReceive port f => Sys2Proof.Machine.execFlitReceive port f s
  | .portDown port => Sys2Proof.Machine.execPortDown port s
  | .portRetrain port => Sys2Proof.Machine.execPortRetrain port s
  | .spanMgtMessage m => Sys2Proof.Machine.execSpanMgtMessage m s
  | .ubyozoErrcntRead host port => Sys2Proof.Machine.execUbyozoErrcntRead host port s
  | .hostLinkDown port => Sys2Proof.Machine.execHostLinkDown port s
  | .hostLinkUp port => Sys2Proof.Machine.execHostLinkUp port s
  | .msemAcquire a b => Sys2Proof.Machine.execMsemAcquire a b s
  | .msemRelease port => Sys2Proof.Machine.execMsemRelease port s
  | .msemLeaseWrite port lease => Sys2Proof.Machine.execMsemLeaseWrite port lease s
  | .msemLeaseExpiry => Sys2Proof.Machine.execMsemLeaseExpiry s
  | .msemExpdClear port => Sys2Proof.Machine.execMsemExpdClear port s
  | .mgmtErrorClear port => Sys2Proof.Machine.execMgmtErrorClear port s
  | .policyWrite port vf val => Sys2Proof.Machine.execPolicyWrite port vf val s
  | .partitionWrite port vf val => Sys2Proof.Machine.execPartitionWrite port vf val s
  | .tenantReset vf => Sys2Proof.Machine.execTenantReset vf s
  | .registerWrite port fn reg val => Sys2Proof.Machine.execRegisterWrite port fn reg val s
  | .cmpstatRead port vf => Sys2Proof.Machine.execCmpstatRead port vf s
  | .queueStart port fn q => Sys2Proof.Machine.execQueueStart port fn q s
  | .queueStop port fn q => Sys2Proof.Machine.execQueueStop port fn q s
  | .queueReset port fn q => Sys2Proof.Machine.execQueueReset port fn q s
  | .ctsync port fn => Sys2Proof.Machine.execCtsync port fn s
  | .ctsyncComplete => Sys2Proof.Machine.execCtsyncComplete s
  | .shoot port fn => Sys2Proof.Machine.execShoot port fn s
  | .shootComplete fn => Sys2Proof.Machine.execShootComplete fn s
  | .preempt port fn => Sys2Proof.Machine.execPreempt port fn s
  | .release port fn => Sys2Proof.Machine.execRelease port fn s
  | .queueBlockServe q => Sys2Proof.Machine.execQueueBlockServe q s
  | .queueSerResume q => Sys2Proof.Machine.execQueueSerResume q s
  | .queueWaitRecheck q => Sys2Proof.Machine.execQueueWaitRecheck q s
  | .queueNextRecheck q => Sys2Proof.Machine.execQueueNextRecheck q s
  | .queueCompletionWrite q => Sys2Proof.Machine.execQueueCompletionWrite q s
  | .queueEngineNak q reason => Sys2Proof.Machine.execQueueEngineNak q reason s
  | .contextCreate port fn ctx d => Sys2Proof.Machine.execContextCreate port fn ctx d s
  | .contextDestroy port fn ctx => Sys2Proof.Machine.execContextDestroy port fn ctx s
  | .fqReplay port fn token => Sys2Proof.Machine.execFqReplay port fn token s
  | .fqKill port fn token => Sys2Proof.Machine.execFqKill port fn token s
  | .fqHeadWrite port fn head => Sys2Proof.Machine.execFqHeadWrite port fn head s
  | .faultBatchPost fn => Sys2Proof.Machine.execFaultBatchPost fn s
  | .runAheadEnd g => Sys2Proof.Machine.execRunAheadEnd g s
  | .trapDeliver g t => Sys2Proof.Machine.execTrapDeliver g t s
  | .boundaryTrap g => Sys2Proof.Machine.execBoundaryTrap g s
  | .dieHalt port dies => Sys2Proof.Machine.execDieHalt port dies s
  | .dieHaltClear port dies => Sys2Proof.Machine.execDieHaltClear port dies s
  | .watchdogExpiry launch => Sys2Proof.Machine.execWatchdogExpiry launch s
  | .heatHalve port => Sys2Proof.Machine.execHeatHalve port s
  | .heatHalveDone => Sys2Proof.Machine.execHeatHalveDone s
  | .firmwareUpdate port img => Sys2Proof.Machine.execFirmwareUpdate port img s
  | .spdmRequest port => Sys2Proof.Machine.execSpdmRequest port s
  | .rds m => Sys2Proof.Machine.execRds m s
  | .rdx m => Sys2Proof.Machine.execRdx m s
  | .upg m => Sys2Proof.Machine.execUpg m s
  | .evc m => Sys2Proof.Machine.execEvc m s
  | .wbd m => Sys2Proof.Machine.execWbd m s
  | .updateWrite m => Sys2Proof.Machine.execUpdateWrite m s
  | .updateCommit grain => Sys2Proof.Machine.execUpdateCommit grain s
  | .uncachedRead m => Sys2Proof.Machine.execUncachedRead m s
  | .uncachedWrite m => Sys2Proof.Machine.execUncachedWrite m s
  | .bdReductionElement m => Sys2Proof.Machine.execBdReductionElement m s
  | .fwds m => Sys2Proof.Machine.execFwds m s
  | .fwdx m => Sys2Proof.Machine.execFwdx m s
  | .inv m => Sys2Proof.Machine.execInv m s
  | .upd m => Sys2Proof.Machine.execUpd m s
  | .binv m => Sys2Proof.Machine.execBinv m s
  | .ack m => Sys2Proof.Machine.execAck m s
  | .cfl m => Sys2Proof.Machine.execCfl m s
  | .nak m => Sys2Proof.Machine.execNak m s
  | .data m => Sys2Proof.Machine.execData m s
  | .commitAck m => Sys2Proof.Machine.execCommitAck m s
  | .wback m => Sys2Proof.Machine.execWback m s
  | .l1Evict agent grain => Sys2Proof.Machine.execL1Evict agent grain s
  | .bounceDelayExpiry agent grain => Sys2Proof.Machine.execBounceDelayExpiry agent grain s
  | .bounceReset agent grain => Sys2Proof.Machine.execBounceReset agent grain s
  | .hostSnoop line write => Sys2Proof.Machine.execHostSnoop line write s
  | .hostAccess m => Sys2Proof.Machine.execHostAccess m s
  | .lrd m => Sys2Proof.Machine.execLrd m s
  | .lset m => Sys2Proof.Machine.execLset m s
  | .llock m => Sys2Proof.Machine.execLlock m s
  | .lunl m => Sys2Proof.Machine.execLunl m s
  | .lhist m => Sys2Proof.Machine.execLhist m s
  | .windowClose region => Sys2Proof.Machine.execWindowClose region s
  | .switchingComplete region => Sys2Proof.Machine.execSwitchingComplete region s
  | .regionEntryEvict region => Sys2Proof.Machine.execRegionEntryEvict region s
  | .compReadMiss page => Sys2Proof.Machine.execCompReadMiss page s
  | .compWriteback page => Sys2Proof.Machine.execCompWriteback page s
  | .compWritebackRetry page => Sys2Proof.Machine.execCompWritebackRetry page s
  | .blockPlace launch => Sys2Proof.Machine.execBlockPlace launch s
  | .sliceExpiry launch => Sys2Proof.Machine.execSliceExpiry launch s
  | .haltComplete ctx => Sys2Proof.Machine.execHaltComplete ctx s
  | .blockResume blk => Sys2Proof.Machine.execBlockResume blk s
  | .granuleFill blk g => Sys2Proof.Machine.execGranuleFill blk g s
  | .blockRetire blk => Sys2Proof.Machine.execBlockRetire blk s
  | .yieldExpiry g => Sys2Proof.Machine.execYieldExpiry g s
  | .xacqGrant blk => Sys2Proof.Machine.execXacqGrant blk s
  | .accessReturn op => Sys2Proof.Machine.execAccessReturn op s
  | .stackFill g => Sys2Proof.Machine.execStackFill g s
  | .copyCommandComplete op => Sys2Proof.Machine.execCopyCommandComplete op s
  | .bdPieceApply op piece => Sys2Proof.Machine.execBdPieceApply op piece s
  | .bdCommandComplete op => Sys2Proof.Machine.execBdCommandComplete op s
  | .teamMmatStart blk team => Sys2Proof.Machine.execTeamMmatStart blk team s
  | .matrixOpComplete core => Sys2Proof.Machine.execMatrixOpComplete core s
  | .matrixBatchComplete g => Sys2Proof.Machine.execMatrixBatchComplete g s
  | .streamWindowRun core => Sys2Proof.Machine.execStreamWindowRun core s
  | .floorRoundStart wl => Sys2Proof.Machine.execFloorRoundStart wl s
  | .floorRoundAnnounce wl shard => Sys2Proof.Machine.execFloorRoundAnnounce wl shard s
  | .lowerReceive wl shard key frm => Sys2Proof.Machine.execLowerReceive wl shard key frm s
  | .lowerAckComplete wl shard => Sys2Proof.Machine.execLowerAckComplete wl shard s
  | .stealRequest wl shard => Sys2Proof.Machine.execStealRequest wl shard s
  | .stealConfirm wl shard => Sys2Proof.Machine.execStealConfirm wl shard s
  | .terminationWave wl => Sys2Proof.Machine.execTerminationWave wl s
  | .shardHandover core => Sys2Proof.Machine.execShardHandover core s
  | .shardUnreachableTimeout wl shard => Sys2Proof.Machine.execShardUnreachableTimeout wl shard s
  | .padWordSkip w => Sys2Proof.Machine.execPadWordSkip w s
  | .illegalWord w => Sys2Proof.Machine.execIllegalWord w s
  | .fetchFault g => Sys2Proof.Machine.execFetchFault g s
  | .ackWithGrant m => Sys2Proof.Machine.execAckWithGrant m s
  | .labelCommandResult m => Sys2Proof.Machine.execLabelCommandResult m s
  | .padSliceAccess op slice => Sys2Proof.Machine.execPadSliceAccess op slice s
  | .clusterSlabAccess op => Sys2Proof.Machine.execClusterSlabAccess op s
  | .nop => Sys2Proof.Machine.execNop s
  | .bra c neg off => Sys2Proof.Machine.execBra c neg off s
  | .brd c neg tgt rpc => Sys2Proof.Machine.execBrd c neg tgt rpc s
  | .brx a => Sys2Proof.Machine.execBrx a s
  | .call nw kd off => Sys2Proof.Machine.execCall nw kd off s
  | .ret ka => Sys2Proof.Machine.execRet ka s
  | .exit => Sys2Proof.Machine.execExit s
  | .yield => Sys2Proof.Machine.execYield s
  | .trap imm => Sys2Proof.Machine.execTrap imm s
  | .tret => Sys2Proof.Machine.execTret s
  | .launch nw kd ka => Sys2Proof.Machine.execLaunch nw kd ka s
  | .spawn nw kd ka arg => Sys2Proof.Machine.execSpawn nw kd ka arg s
  | .lwait nw kd ka => Sys2Proof.Machine.execLwait nw kd ka s
  | .bar n cnt => Sys2Proof.Machine.execBar n cnt s
  | .arrive nw kd n cnt => Sys2Proof.Machine.execArrive nw kd n cnt s
  | .await n kp => Sys2Proof.Machine.execAwait n kp s
  | .cbar n cnt rank file => Sys2Proof.Machine.execCbar n cnt rank file s
  | .xacq n => Sys2Proof.Machine.execXacq n s
  | .xrel => Sys2Proof.Machine.execXrel s
  | .rgive n => Sys2Proof.Machine.execRgive n s
  | .rclaim nw kd n => Sys2Proof.Machine.execRclaim nw kd n s
  | .rolesw n => Sys2Proof.Machine.execRolesw n s
  | .setfmt ka => Sys2Proof.Machine.execSetfmt ka s
  | .setfmtImm imm => Sys2Proof.Machine.execSetfmtImm imm s
  | .getfmt nw kd => Sys2Proof.Machine.execGetfmt nw kd s
  | .crd nw kd c => Sys2Proof.Machine.execCrd nw kd c s
  | .cwr c ka => Sys2Proof.Machine.execCwr c ka s
  | .clock nw kd => Sys2Proof.Machine.execClock nw kd s
  | .kmov h kd ka => Sys2Proof.Machine.execKmov h kd ka s
  | .kadd h kd ka kb => Sys2Proof.Machine.execKadd h kd ka kb s
  | .kaddImm h kd ka imm => Sys2Proof.Machine.execKaddImm h kd ka imm s
  | .ksub h kd ka kb => Sys2Proof.Machine.execKsub h kd ka kb s
  | .ksubImm h kd ka imm => Sys2Proof.Machine.execKsubImm h kd ka imm s
  | .kmul h kd ka kb => Sys2Proof.Machine.execKmul h kd ka kb s
  | .kmulImm h kd ka imm => Sys2Proof.Machine.execKmulImm h kd ka imm s
  | .kmad h kd ka kb kc => Sys2Proof.Machine.execKmad h kd ka kb kc s
  | .kmadImm h kd ka imm kc => Sys2Proof.Machine.execKmadImm h kd ka imm kc s
  | .kand h kd ka kb => Sys2Proof.Machine.execKand h kd ka kb s
  | .kandImm h kd ka imm => Sys2Proof.Machine.execKandImm h kd ka imm s
  | .kor h kd ka kb => Sys2Proof.Machine.execKor h kd ka kb s
  | .korImm h kd ka imm => Sys2Proof.Machine.execKorImm h kd ka imm s
  | .kxor h kd ka kb => Sys2Proof.Machine.execKxor h kd ka kb s
  | .kxorImm h kd ka imm => Sys2Proof.Machine.execKxorImm h kd ka imm s
  | .kshl h kd ka kb => Sys2Proof.Machine.execKshl h kd ka kb s
  | .kshlImm h kd ka imm => Sys2Proof.Machine.execKshlImm h kd ka imm s
  | .kshr h kd ka kb => Sys2Proof.Machine.execKshr h kd ka kb s
  | .kshrImm h kd ka imm => Sys2Proof.Machine.execKshrImm h kd ka imm s
  | .ksra h kd ka kb => Sys2Proof.Machine.execKsra h kd ka kb s
  | .ksraImm h kd ka imm => Sys2Proof.Machine.execKsraImm h kd ka imm s
  | .kmin h kd ka kb => Sys2Proof.Machine.execKmin h kd ka kb s
  | .kminImm h kd ka imm => Sys2Proof.Machine.execKminImm h kd ka imm s
  | .kmax h kd ka kb => Sys2Proof.Machine.execKmax h kd ka kb s
  | .kmaxImm h kd ka imm => Sys2Proof.Machine.execKmaxImm h kd ka imm s
  | .kcmp h kd ka kb => Sys2Proof.Machine.execKcmp h kd ka kb s
  | .kcmpImm h kd ka imm => Sys2Proof.Machine.execKcmpImm h kd ka imm s
  | .ksel h kd ka kb kc => Sys2Proof.Machine.execKsel h kd ka kb kc s
  | .klea h kd ka kb sh disp => Sys2Proof.Machine.execKlea h kd ka kb sh disp s
  | .kpopc h kd ka => Sys2Proof.Machine.execKpopc h kd ka s
  | .kclz h kd ka => Sys2Proof.Machine.execKclz h kd ka s
  | .kli h kd imm => Sys2Proof.Machine.execKli h kd imm s
  | .kli64 h kd imm => Sys2Proof.Machine.execKli64 h kd imm s
  | .kfromv h kd va sel => Sys2Proof.Machine.execKfromv h kd va sel s
  | .add h d a b => Sys2Proof.Machine.execAdd h d a b s
  | .addImm h d a imm => Sys2Proof.Machine.execAddImm h d a imm s
  | .addc h d a b cin cout => Sys2Proof.Machine.execAddc h d a b cin cout s
  | .sub h d a b => Sys2Proof.Machine.execSub h d a b s
  | .subImm h d a imm => Sys2Proof.Machine.execSubImm h d a imm s
  | .mul h d a b => Sys2Proof.Machine.execMul h d a b s
  | .mulImm h d a imm => Sys2Proof.Machine.execMulImm h d a imm s
  | .mulh h d a b => Sys2Proof.Machine.execMulh h d a b s
  | .mulhImm h d a imm => Sys2Proof.Machine.execMulhImm h d a imm s
  | .mad h d a b c => Sys2Proof.Machine.execMad h d a b c s
  | .madImm h d a imm c => Sys2Proof.Machine.execMadImm h d a imm c s
  | .abs h d a => Sys2Proof.Machine.execAbs h d a s
  | .and h d a b => Sys2Proof.Machine.execAnd h d a b s
  | .andImm h d a imm => Sys2Proof.Machine.execAndImm h d a imm s
  | .or h d a b => Sys2Proof.Machine.execOr h d a b s
  | .orImm h d a imm => Sys2Proof.Machine.execOrImm h d a imm s
  | .xor h d a b => Sys2Proof.Machine.execXor h d a b s
  | .xorImm h d a imm => Sys2Proof.Machine.execXorImm h d a imm s
  | .lop3 h d a b c tbl => Sys2Proof.Machine.execLop3 h d a b c tbl s
  | .shl h d a b => Sys2Proof.Machine.execShl h d a b s
  | .shlImm h d a imm => Sys2Proof.Machine.execShlImm h d a imm s
  | .shr h d a b => Sys2Proof.Machine.execShr h d a b s
  | .shrImm h d a imm => Sys2Proof.Machine.execShrImm h d a imm s
  | .sra h d a b => Sys2Proof.Machine.execSra h d a b s
  | .sraImm h d a imm => Sys2Proof.Machine.execSraImm h d a imm s
  | .min h d a b => Sys2Proof.Machine.execMin h d a b s
  | .minImm h d a imm => Sys2Proof.Machine.execMinImm h d a imm s
  | .max h d a b => Sys2Proof.Machine.execMax h d a b s
  | .maxImm h d a imm => Sys2Proof.Machine.execMaxImm h d a imm s
  | .cmp h md a b => Sys2Proof.Machine.execCmp h md a b s
  | .cmpImm h md a imm => Sys2Proof.Machine.execCmpImm h md a imm s
  | .sel h d a b mc => Sys2Proof.Machine.execSel h d a b mc s
  | .mov h d a => Sys2Proof.Machine.execMov h d a s
  | .movImm h d imm => Sys2Proof.Machine.execMovImm h d imm s
  | .movk h d kv kl => Sys2Proof.Machine.execMovk h d kv kl s
  | .popc h d a => Sys2Proof.Machine.execPopc h d a s
  | .clz h d a => Sys2Proof.Machine.execClz h d a s
  | .brev h d a => Sys2Proof.Machine.execBrev h d a s
  | .bfe h d a b => Sys2Proof.Machine.execBfe h d a b s
  | .bfeImm h d a imm => Sys2Proof.Machine.execBfeImm h d a imm s
  | .bfi h d a b c => Sys2Proof.Machine.execBfi h d a b c s
  | .bfiImm h d a imm c => Sys2Proof.Machine.execBfiImm h d a imm c s
  | .fadd h d a b => Sys2Proof.Machine.execFadd h d a b s
  | .faddImm h d a imm => Sys2Proof.Machine.execFaddImm h d a imm s
  | .fsub h d a b => Sys2Proof.Machine.execFsub h d a b s
  | .fsubImm h d a imm => Sys2Proof.Machine.execFsubImm h d a imm s
  | .fmul h d a b => Sys2Proof.Machine.execFmul h d a b s
  | .fmulImm h d a imm => Sys2Proof.Machine.execFmulImm h d a imm s
  | .fma h d a b c => Sys2Proof.Machine.execFma h d a b c s
  | .fmaImm h d a imm c => Sys2Proof.Machine.execFmaImm h d a imm c s
  | .fmin h d a b => Sys2Proof.Machine.execFmin h d a b s
  | .fminImm h d a imm => Sys2Proof.Machine.execFminImm h d a imm s
  | .fmax h d a b => Sys2Proof.Machine.execFmax h d a b s
  | .fmaxImm h d a imm => Sys2Proof.Machine.execFmaxImm h d a imm s
  | .fcmp h md a b => Sys2Proof.Machine.execFcmp h md a b s
  | .fcmpImm h md a imm => Sys2Proof.Machine.execFcmpImm h md a imm s
  | .fclass h d a => Sys2Proof.Machine.execFclass h d a s
  | .fscale h d a b => Sys2Proof.Machine.execFscale h d a b s
  | .fscaleImm h d a imm => Sys2Proof.Machine.execFscaleImm h d a imm s
  | .frnd h d a => Sys2Proof.Machine.execFrnd h d a s
  | .frcp h d a => Sys2Proof.Machine.execFrcp h d a s
  | .fsqrt h d a => Sys2Proof.Machine.execFsqrt h d a s
  | .frsq h d a => Sys2Proof.Machine.execFrsq h d a s
  | .fexp2 h d a => Sys2Proof.Machine.execFexp2 h d a s
  | .flog2 h d a => Sys2Proof.Machine.execFlog2 h d a s
  | .cvt h d a src elem => Sys2Proof.Machine.execCvt h d a src elem s
  | .lpack h d va src => Sys2Proof.Machine.execLpack h d va src s
  | .lunpk h d va => Sys2Proof.Machine.execLunpk h d va s
  | .shfl h d a b => Sys2Proof.Machine.execShfl h d a b s
  | .shflImm h d a imm => Sys2Proof.Machine.execShflImm h d a imm s
  | .bcast h d a kl => Sys2Proof.Machine.execBcast h d a kl s
  | .bcastImm h d a imm => Sys2Proof.Machine.execBcastImm h d a imm s
  | .compress h d a b vm slot => Sys2Proof.Machine.execCompress h d a b vm slot s
  | .expand h d a vm slot => Sys2Proof.Machine.execExpand h d a vm slot s
  | .redadd h d a => Sys2Proof.Machine.execRedadd h d a s
  | .redmin h d a => Sys2Proof.Machine.execRedmin h d a s
  | .redmax h d a => Sys2Proof.Machine.execRedmax h d a s
  | .redand h d a => Sys2Proof.Machine.execRedand h d a s
  | .redor h d a => Sys2Proof.Machine.execRedor h d a s
  | .redxor h d a => Sys2Proof.Machine.execRedxor h d a s
  | .scan h d a => Sys2Proof.Machine.execScan h d a s
  | .redminIndex h d di a b => Sys2Proof.Machine.execRedminIndex h d di a b s
  | .redmaxIndex h d di a b => Sys2Proof.Machine.execRedmaxIndex h d di a b s
  | .ballot h kd a => Sys2Proof.Machine.execBallot h kd a s
  | .vany h kd a => Sys2Proof.Machine.execVany h kd a s
  | .vall h kd a => Sys2Proof.Machine.execVall h kd a s
  | .elect h md ms => Sys2Proof.Machine.execElect h md ms s
  | .mcnt h kd ms => Sys2Proof.Machine.execMcnt h kd ms s
  | .mlog h md ma mb => Sys2Proof.Machine.execMlog h md ma mb s
  | .ldg h d ad scope => Sys2Proof.Machine.execLdg h d ad scope s
  | .stg h ad b scope => Sys2Proof.Machine.execStg h ad b scope s
  | .pref h ad => Sys2Proof.Machine.execPref h ad s
  | .lds h d ad => Sys2Proof.Machine.execLds h d ad s
  | .sts h ad b => Sys2Proof.Machine.execSts h ad b s
  | .ldc h d off disp rank file scope => Sys2Proof.Machine.execLdc h d off disp rank file scope s
  | .stc h off disp rank file b scope => Sys2Proof.Machine.execStc h off disp rank file b scope s
  | .ldd h d ad scope => Sys2Proof.Machine.execLdd h d ad scope s
  | .std h ad b scope => Sys2Proof.Machine.execStd h ad b scope s
  | .ldl h d ad => Sys2Proof.Machine.execLdl h d ad s
  | .stl h ad b => Sys2Proof.Machine.execStl h ad b s
  | .atom h d ad b aop scope => Sys2Proof.Machine.execAtom h d ad b aop scope s
  | .atomc h d ad b c scope => Sys2Proof.Machine.execAtomc h d ad b c scope s
  | .red h ad b aop scope => Sys2Proof.Machine.execRed h ad b aop scope s
  | .atoms h ad b scope => Sys2Proof.Machine.execAtoms h ad b scope s
  | .fence sc p q scope => Sys2Proof.Machine.execFence sc p q scope s
  | .ofence => Sys2Proof.Machine.execOfence s
  | .waitp p kn => Sys2Proof.Machine.execWaitp p kn s
  | .cflush h ad => Sys2Proof.Machine.execCflush h ad s
  | .cinv h ad => Sys2Proof.Machine.execCinv h ad s
  | .tcopy nw d krec => Sys2Proof.Machine.execTcopy nw d krec s
  | .tstore krec vs => Sys2Proof.Machine.execTstore krec vs s
  | .tfill krec kval => Sys2Proof.Machine.execTfill krec kval s
  | .bdgather kd ka kl kc rsz iw => Sys2Proof.Machine.execBdgather kd ka kl kc rsz iw s
  | .bdscat kd ka kl kc rsz iw => Sys2Proof.Machine.execBdscat kd ka kl kc rsz iw s
  | .bdred ty kd ka kl kc rsz iw rop => Sys2Proof.Machine.execBdred ty kd ka kl kc rsz iw rop s
  | .bdconv ty src kd ka kc => Sys2Proof.Machine.execBdconv ty src kd ka kc s
  | .accwin kg kb kl => Sys2Proof.Machine.execAccwin kg kb kl s
  | .accz r c => Sys2Proof.Machine.execAccz r c s
  | .accld r krec => Sys2Proof.Machine.execAccld r krec s
  | .accst krec r => Sys2Proof.Machine.execAccst krec r s
  | .accout h d r c => Sys2Proof.Machine.execAccout h d r c s
  | .mma r a b sc => Sys2Proof.Machine.execMma r a b sc s
  | .mmat r a b sc => Sys2Proof.Machine.execMmat r a b sc s
  | .mmas r a b sc => Sys2Proof.Machine.execMmas r a b sc s
  | .mfence kd => Sys2Proof.Machine.execMfence kd s
  | .mwait ka => Sys2Proof.Machine.execMwait ka s
  | .mstat kd ka => Sys2Proof.Machine.execMstat kd ka s
  | .sgen zd a cls => Sys2Proof.Machine.execSgen zd a cls s
  | .sgenb zd a cls => Sys2Proof.Machine.execSgenb zd a cls s
  | .sregen zd za cls => Sys2Proof.Machine.execSregen zd za cls s
  | .sseed ka cls => Sys2Proof.Machine.execSseed ka cls s
  | .slen imm => Sys2Proof.Machine.execSlen imm s
  | .srnd msk d cls => Sys2Proof.Machine.execSrnd msk d cls s
  | .sand zd za zb => Sys2Proof.Machine.execSand zd za zb s
  | .sor zd za zb => Sys2Proof.Machine.execSor zd za zb s
  | .sxor zd za zb => Sys2Proof.Machine.execSxor zd za zb s
  | .sxnor zd za zb => Sys2Proof.Machine.execSxnor zd za zb s
  | .snot zd za => Sys2Proof.Machine.execSnot zd za s
  | .smux zd za zb zs => Sys2Proof.Machine.execSmux zd za zb zs s
  | .smin zd za zb => Sys2Proof.Machine.execSmin zd za zb s
  | .smax zd za zb => Sys2Proof.Machine.execSmax zd za zb s
  | .sdep kd za zb => Sys2Proof.Machine.execSdep kd za zb s
  | .scnt msk d za out => Sys2Proof.Machine.execScnt msk d za out s
  | .scnta msk d za => Sys2Proof.Machine.execScnta msk d za s
  | .wlcfg ka => Sys2Proof.Machine.execWlcfg ka s
  | .wlpush msk n64 a b => Sys2Proof.Machine.execWlpush msk n64 a b s
  | .wlpop msk n64 d md wait => Sys2Proof.Machine.execWlpop msk n64 d md wait s
  | .wlret msk b => Sys2Proof.Machine.execWlret msk b s
  | .wlfloor kd => Sys2Proof.Machine.execWlfloor kd s
  | .wldone kd => Sys2Proof.Machine.execWldone kd s
  | .wlstat kd sel => Sys2Proof.Machine.execWlstat kd sel s
  | .lblrd kd ka => Sys2Proof.Machine.execLblrd kd ka s
  | .lblset kd ka lbl => Sys2Proof.Machine.execLblset kd ka lbl s
  | .lbllock kd ka => Sys2Proof.Machine.execLbllock kd ka s
  | .lblunl kd ka => Sys2Proof.Machine.execLblunl kd ka s
  | .lblhist kd ka => Sys2Proof.Machine.execLblhist kd ka s

end Sys2Proof.Machine
end

