-- ==== Sys2Proof/Machine/Step.lean ====
section
/-! DEFINITION. One step of the machine: the clock moves on, and one move is made: a due event has its effect, or a live entry
issues its next instruction. `withFetchWord` places a word where the next step fetches it. -/

namespace Sys2Proof.Machine

open Sys2Proof

noncomputable section

/-- The step of a live entry: the event that its fetch meets, or its instruction. -/
def stepIssue (r : GRef) (s : State) : Host.Outcome State Fault Refusal :=
  match blkOf s r.blk with
  | none => .next s
  | some b => match grpIn b r.gid with
    | none => .next s
    | some g => match liveEntry g r.low with
      | none => .next s
      | some e => match fetch r b g e s with
        | (.join, s) => .next (popJoin r s)
        | (.wait, s) => .next s
        | (.event ev, s) => exec ev { s with cur := some r }
        | (.word i, s) => exec i { s with cur := some r }

/-- What follows a move that gives a next state. -/
def after (f : State → State) : Host.Outcome State Fault Refusal → Host.Outcome State Fault Refusal
  | .next s => .next (f s)
  | .fault f => .fault f
  | .refused r => .refused r

/-- One step. -/
def step (s : State) : Host.Outcome State Fault Refusal :=
  match pick s with
  | .event n e => after settle (exec e { tick s with agenda := s.agenda.eraseIdx n, tried := [] })
  | .issue r => after (fun t => settle (markTried r (tick s) t)) (stepIssue r (tick s))
  | .idle => .next (settle { passTime (max (s.pace.headD 1) (idleTo s - s.ns)) s with tried := [] })

end

/-- The context, launch, block and group that `withFetchWord` places on core 0. -/
def fetchCtx : Ctx :=
  { id := 1, root := 0, vf := 0, en := true, padBase := 0, padLim := 0x6000, wdt := 0, tdm := 0, cst := 1, stopc := 0,
    handle := 1, lost := 0, hold := 0 }

def fetchRec : LRec :=
  { entry := 0x10000, argp := 0, seed := 0, wlrec := 0, tvec := 0, blocks := 1, gpb := 0, breg := 3, slab := 1024, lpriv := 16,
    accr := 64, zreg := 64, team := 0, clm := false, prio := 0, nrole := 0, roles := [] }

def fetchLaunch (s : State) : Launch :=
  { id := 1, ctx := 1, vf := 0, handle := 1, lrec := fetchRec, prio := 0, depth := 1, k0 := none, queue := none, parent := none,
    nextBid := 1, retired := 0, lastCore := some 0, waitFrom := s.ns, started := s.ns, wdPosted := false, wdPause := none, status := .running }

def fetchEntry : Entry :=
  { pc := 0x10000, mask := BitVec.allOnes 64, rpc := 0, fmt := 0x8004D3, sib := false, wait := .none, latches := [], chain := 0,
    chainPc := 0, reissue := none, launching := none }

def noBatch : Batch :=
  { num := 0, nops := 0, dops := 0, isOpen := true, done := false, halt := false, teamErr := false, memErr := false,
    nar := false, novf := false, op := 0, rows := [] }

def fetchGroup (s : State) : Group :=
  { gid := 0, ridx := 0, stack := [fetchEntry], onChip := 1, turn := false, k := [], m := [], v := [], ext := 1504, role := 0,
    accBase := 0, accLim := 512, tvec := 0, trec := 0, dstk := 0, wlrec := 0, dsectl := 0, handler := none, held := [],
    flights := [], pend := [], busy := [], marks := [], seen := [], gens := [], ctrs := [], window := [], batch := noBatch,
    closed := [], nextBatch := 1, run := none, teamOps := 0, wlBound := none, faultWait := none, ahead := none,
    waitFrom := s.mcyc, exited := false, exitPc := 0 }

def fetchBlock (s : State) : Block :=
  { id := 1, launch := 1, ctx := 1, vf := 0, bid := 0, core := 0, state := .resident, since := s.ns, haltedAt := 0, setId := 1,
    groups := [fetchGroup s], pool := 0, acqQueue := [], slab := [], acc := [], z := [], zdep := [], barriers := [],
    cbarriers := [], issued := [], absent := [], held := true, broken := [],
    places := [], savedAt := [] }

/-- The leaf of the page that holds the word. -/
def fetchLeaf : Leaf :=
  { page := 0x10000, size := 4096, w := true, x := true, grain := 128, cmp := false, heat := false, kind := 0, d := true, slot := 0 }

/-- `s` with the word `w` of `nbits` bits where the next step fetches: a launch of one block of one group on core 0, whose entry
page is mapped by the core's TLB, with nothing else due (log entry 5: a program comes to run by a launch). -/
def State.withFetchWord (s : State) (nbits w : Nat) : State :=
  { memWrite 0x10000 (toBytes 16 (w % 2 ^ nbits)) s with
    agenda := [], sched := [], pace := [], tried := [], nextId := max s.nextId 2, ctxs := [fetchCtx], launches := [fetchLaunch s],
    blocks := [fetchBlock s], tlbs := [⟨.core 0, 1, 0x10, fetchLeaf⟩], coh := Coh.reset }

end Sys2Proof.Machine
end

