-- ==== Sys2Proof/Machine/Readout.lean ====
section
/-! DEFINITION. What the hosts read: the registers of the BARs (R9, R36), which a read does not change (those that a read clears have events of
their own), and the debug readout with the layouts of its snapshots (R86, R90, R117, R169). -/

namespace Sys2Proof.Machine

open Sys2Proof

/-! ## The debug readout (R169) -/

/-- GRAIN as the PTE encodes it (R143). -/
def grainCode (gsz : Nat) : Nat := if gsz = 32 then 1 else if gsz = 512 then 2 else 0

/-- The state of a sector (R86). -/
def sectorSt : Option Copy → Nat
  | none => 0
  | some c => match c.st with
    | .s => 1
    | .e => 2
    | .m => 3
    | .o => 4
    | .t => 5

/-- The tag of the sector group that holds some copies of an L1, in the layout of R86. -/
def l1Tag (group : Nat) (cs : List Copy) : BitVec 128 :=
  let at_ := fun i => cs.find? fun c => overlap c.pa c.gsz (512 * group + 32 * i) 32
  let sv := (List.range 16).foldl (fun n i => n + if (at_ i).isSome then 2 ^ i else 0) 0
  let gst := (List.range 16).foldl (fun n i => n + sectorSt (at_ i) * 2 ^ (3 * i)) 0
  let c := cs.head?.map fun c => (c.ctx, c.gsz)
  BitVec.ofNat 128 (group % 2 ^ 43 * 2 ^ 85 + (c.map (·.1)).getD 0 % 2 ^ 16 * 2 ^ 69 + grainCode ((c.map (·.2)).getD 128) * 2 ^ 67 + sv * 2 ^ 51 +
    gst * 2 ^ 3)

/-- The tags of a core's L1: a sector group has one CTXID and one GRAIN. -/
def l1Tags (s : State) (core : Nat) : List (BitVec 128) :=
  let cs := s.coh.l1.filter (·.agent == core)
  let key := fun c : Copy => (c.pa / 512, c.ctx, c.gsz)
  ((cs.map key).eraseDups).map fun k => l1Tag k.1 (cs.filter (key · == k))

/-- A region-table entry in the layout of R117. -/
def regionWord (r : Region) : BitVec 128 :=
  BitVec.ofNat 128 (r.byte * 2 ^ 120 + r.aag % 2 ^ 9 * 2 ^ 111 + r.actx % 2 ^ 16 * 2 ^ 95 + r.avf % 2 ^ 7 * 2 ^ 88 + r.sw.toNat * 2 ^ 87 +
    r.tgt % 8 * 2 ^ 84 + r.cand % 8 * 2 ^ 81 + r.cv.toNat * 2 ^ 80 + r.txn % 64 * 2 ^ 74 + r.fa % 2 ^ 9 * 2 ^ 65 + r.oth.toNat * 2 ^ 64 +
    r.lr % 2 ^ 9 * 2 ^ 55 + r.lrv.toNat * 2 ^ 54 + r.lw % 2 ^ 9 * 2 ^ 45 + r.lwv.toNat * 2 ^ 44 + r.wsr.toNat * 2 ^ 43 + r.nwr % 64 * 2 ^ 37 +
    r.rch % 16 * 2 ^ 33 + r.rarw % 16 * 2 ^ 29 + r.hnd % 16 * 2 ^ 25 + r.wil % 16 * 2 ^ 21 + r.hist.toNat * 2 ^ 9 + r.nchg % 2 ^ 9)

/-- DBGDATA: the snapshot that DBGSEL selects, 0 where there is none. -/
def dbgData (s : State) : BitVec 128 :=
  let kind := bits s.mg.dbgsel.toNat 63 60
  let at_ := Config.debugPlace kind (bits s.mg.dbgsel.toNat 59 0)
  match kind with
  | 0 => (l1Tags s at_.1).getD at_.2 0
  | 1 => (((s.coh.regions.filter fun r => homeOf (4096 * r.page) == at_.1)[at_.2]?).map regionWord).getD 0
  | 2 => (((s.coh.dir.filter fun e => homeOf e.pa == at_.1)[at_.2]?).map fun e => (dirWord s e).zeroExtend 128).getD 0
  | _ => 0

/-! ## Registers -/

/-- The registers that a host may read. -/
inductive BarReg where
  | msem | merr | policy (vf : Nat) | part (vf : Nat) | heatctl | ltctl | schedctl | svbase | qtbase | cxbase | pdbase (n : Nat)
  | pdmap (n : Nat) | ctbase | ctlim | ctsyncp | dbghalt | dbgsel | dbgdata | life | shootva | shootn | preemptc | cmpstat | fqbase | fqptr
  | fqreplay
  deriving DecidableEq, Repr

/-- The registers that the PF alone has. The policy and partition registers of a VF read 0 through the port that does not own it, as the VF's own BAR
does (R36; DESIGN CHOICE, log entry 137: R40 speaks of writes alone). -/
def readPf (port : Port) (r : BarReg) (s : State) : Nat := match r with
  | .msem => s.mg.msem.toNat
  | .merr => match port with
    | .a => s.mg.merrA.toNat
    | .b => s.mg.merrB.toNat
  | .policy vf => if portServes s port vf then (fnOf s vf).policy.toNat else 0
  | .part vf => if portServes s port vf then (fnOf s vf).part.toNat else 0
  | .heatctl => s.mg.heatctl.toNat
  | .ltctl => s.mg.ltctl.toNat
  | .schedctl => s.mg.schedctl.toNat
  | .svbase => s.mg.svbase.toNat
  | .qtbase => s.mg.qtbase.toNat
  | .cxbase => s.mg.cxbase.toNat
  | .pdbase n => (s.mg.pdbase.getD n 0).toNat
  | .pdmap n => (s.mg.pdmap.getD n 0).toNat
  | .ctbase => s.mg.ctbase.toNat
  | .ctlim => s.mg.ctlim.toNat
  | .ctsyncp => s.mg.ctsyncp.toNat
  | .dbghalt => s.pkg.haltDies.toNat
  | .dbgsel => s.mg.dbgsel.toNat
  | .dbgdata => (dbgData s).toNat
  | .life => s.pkg.life.toNat
  | _ => 0

/-- The registers of every function's BAR. -/
def readFn (fn : Nat) (r : BarReg) (s : State) : Nat := match r with
  | .shootva => (fnOf s fn).shootva.toNat
  | .shootn => (fnOf s fn).shootn.toNat
  | .preemptc => (fnOf s fn).preemptc.toNat
  | .cmpstat => cmpstat (fnOf s fn)
  | .fqbase => (fqOf s fn).base.toNat
  | .fqptr => (fqOf s fn).tail.toNat * 2 ^ 32 + (fqOf s fn).head.toNat
  | _ => 0

/-- What a host that reads a register of a function through a port gets: 0 through the port that does not serve the function (R36). FQREPLAY reads
as 0 (R150). -/
def regRead (port : Port) (fn : Nat) (r : BarReg) (s : State) : Nat :=
  if !portServes s port fn then 0 else readFn fn r s + if fn = 0 then readPf port r s else 0

end Sys2Proof.Machine
end

