-- ==== Sys2Proof/Safety.lean ====
section
/-! DEFINITION. What a safe run is and what an instruction does when it completes, in the terms that claims use: a step that answers
a next state, the hypotheses under which an instruction issues, the frame of an instruction that touches its own group alone,
and the canonical form of memory. -/

namespace Sys2Proof

open Sys2Proof.Machine

/-- A step ends in a next state. -/
def Goes (o : Host.Outcome State Fault Refusal) : Prop := ∃ t, o = .next t

end Sys2Proof

namespace Sys2Proof.Machine

open Sys2Proof

/-- The canonical form of memory: addresses strictly rising, and no entry equal to what an unlisted address reads as. -/
abbrev Memory.wf (m : FMap Byte) : Prop := FMap.wf 0 m = true

/-! ## Issue -/

/-- An instruction of signature `i` gets past issue (R164, R193, R239 to R242) with the view `x` of its group: the group is in
place, not in run-ahead and with no DEBUG due, its latch reads are legal, no register hazard holds it, and its registers exist. -/
structure Ready (i : Sig) (s : State) (x : Iss) : Prop where
  view : issOf i s = some x
  present : absentFor i x = none
  settled : x.grp.ahead = none
  calm : debugDue i x = false
  legal : chainIll i x.ent = false
  clear : hazard i x = false
  fits : i.beyond (vregsOf x.lrec x.grp) x.lrec.zreg = false

/-- Instruction `i` of signature `g` completes with the effect `P` (view, state before, state after) wherever it gets past issue and
`Q` holds of the view and the state. -/
def Completes (i : Instr) (g : Sig) (Q : Iss → State → Prop) (P : Iss → State → State → Prop) : Prop :=
  ∀ s x, Ready g s x → Q x s → ∃ t, exec i s = .next t ∧ P x s t

/-- No further condition. -/
def Always : Iss → State → Prop := fun _ _ => True

/-! ## Frames -/

/-- Nothing but the group `g` has changed: every byte of memory, every other group and block, and everything outside the blocks
is as it was. -/
def OnlyGroup (g : GRef) (s t : State) : Prop :=
  t = { s with blocks := t.blocks } ∧ (∀ c, c ≠ g.blk → blkOf t c = blkOf s c) ∧
    ∀ b, blkOf s g.blk = some b → ∃ b', blkOf t g.blk = some b' ∧ b' = { b with groups := b'.groups } ∧
      ∀ n, n ≠ g.gid → grpIn b' n = grpIn b n

/-- Nothing but the block `blk` has changed. -/
def OnlyBlock (blk : Nat) (s t : State) : Prop :=
  t = { s with blocks := t.blocks } ∧ ∀ c, c ≠ blk → blkOf t c = blkOf s c

/-- An entry without its latches. -/
def unlatched (e : Entry) : Entry := { e with latches := [] }

/-- The stack after an instruction whose own path goes on at `pc`: the path keeps its mask, RPC, FMT and SIB, and every other
entry is as it was but for its latches. -/
def PathAt (x : Iss) (pc : W64) (g : Group) : Prop :=
  (∃ e, liveEntry g x.g.low = some e ∧ e.pc = pc ∧ e.mask = x.ent.mask ∧ e.rpc = x.ent.rpc ∧ e.fmt = x.ent.fmt ∧
    e.sib = x.ent.sib ∧ e.wait = x.ent.wait) ∧ g.stack.length = x.grp.stack.length ∧
  ∀ n, n ≠ x.g.low.toNat → (g.stack[n]?).map unlatched = (x.grp.stack[n]?).map unlatched

/-- The path goes on at the next word (R331), but for an instruction that tret has re-issued (R337). -/
def MovedOn (x : Iss) (g : Group) : Prop := x.ent.reissue = none → PathAt x x.npc g

/-- The latch that HOLD leaves (R238): its number, its tagged register, and the 64 values. -/
def Latched (x : Iss) (hold tag : Nat) (pair : Bool) (vals : Nat → W64) (g : Group) : Prop :=
  hold ≠ 0 → ∃ e c, liveEntry g x.g.low = some e ∧ latchOf e (hold - 1) = some c ∧ c.tag = tag ∧ c.pair = pair ∧
    c.vals = lanes.map vals ∧ c.age = 0

/-- A uniform result `v` for k register `kd` under NW and HOLD (R318, R329, R357), and nothing else but the issue itself. -/
def UniDone (nw : Bool) (hold kd : Nat) (v : Iss → State → W64) (x : Iss) (s t : State) : Prop :=
  OnlyGroup x.g s t ∧ ∃ g, grpOf t x.g = some g ∧
    g = { x.grp with k := g.k, stack := g.stack, turn := g.turn, waitFrom := g.waitFrom } ∧
    (∀ n, kget g n = if n = kd ∧ nw = false then v x s else kget x.grp n) ∧ MovedOn x g ∧
    Latched x hold (1600 + kd) true (fun _ => v x s) g

/-- What lane l of register n holds after a per-lane result `r` for destination `d` (R315, R318, R356). -/
def laneAfter (nw pair : Bool) (d : VDst) (m : Mask) (r : Nat → Nat) (g : Group) (n l : Nat) : W32 := match d with
  | .reg k =>
    if nw = false ∧ laneOn m l = true ∧ n = k then BitVec.ofNat 32 (r l)
    else if nw = false ∧ laneOn m l = true ∧ pair = true ∧ n = k + 1 then BitVec.ofNat 32 (r l / 2 ^ 32)
    else vget g n l
  | .zero => vget g n l
  | .k _ => vget g n l

/-- A per-lane result `r` for destination `d` under NW and HOLD (R238, R318, R356): the active lanes take it, inactive lanes and every other
register keep their values, and nothing else changes but the issue itself. -/
def LanesDone (h : Hdr) (d : VDst) (r : Iss → State → Nat → Nat) (x : Iss) (s t : State) : Prop :=
  OnlyGroup x.g s t ∧ ∃ g, grpOf t x.g = some g ∧
    g = { x.grp with v := g.v, stack := g.stack, turn := g.turn, waitFrom := g.waitFrom } ∧
    (∀ n l, l < 64 → vget g n l = laneAfter h.nw h.ty.pair d x.mask (r x s) x.grp n l) ∧ MovedOn x g ∧
    Latched x h.hold d.code h.ty.pair
      (fun l => BitVec.ofNat 64 (if laneOn x.mask l then r x s l else fileVal x.grp h.ty.pair d.code l)) g

/-- The bits `p` of the active lanes of mask register `md`, the bits of its inactive lanes as they were (R366, R371); a write to m0 is
discarded (R314). -/
def MaskDone (md : Nat) (p : Iss → State → Nat → Bool) (x : Iss) (s t : State) : Prop :=
  OnlyGroup x.g s t ∧ ∃ g, grpOf t x.g = some g ∧
    g = { x.grp with m := g.m, stack := g.stack, turn := g.turn, waitFrom := g.waitFrom } ∧
    (∀ n l, l < 64 → laneOn (mget g n) l =
      if n = md ∧ n ≠ 0 ∧ laneOn x.mask l = true then p x s l else laneOn (mget x.grp n) l) ∧ MovedOn x g

/-- The group goes on with one change `f` of its own beside the issue: nothing outside the group changes, and of the group nothing but
what `f` says, the stack, the turn and the time it waits from. -/
def GroupDone (pc : Iss → State → W64) (f : Iss → State → Group → Group) (x : Iss) (s t : State) : Prop :=
  OnlyGroup x.g s t ∧ ∃ g, grpOf t x.g = some g ∧
    g = { f x s x.grp with stack := g.stack, turn := g.turn, waitFrom := g.waitFrom } ∧ (x.ent.reissue = none → PathAt x (pc x s) g)

/-- The address of the next word. -/
def npcOf : Iss → State → W64 := fun x _ => x.npc

/-- No change of the group's own. -/
def same : Iss → State → Group → Group := fun _ _ g => g

/-- The trap `tr` is taken at the instruction (R160), the group standing as it was before it; a trap that the instruction's effect
finds (`late`) is found after the issue. -/
def Traps (i : Instr) (g : Sig) (late : Bool) (Q : Iss → State → Prop) (tr : Iss → State → Trap) : Prop :=
  ∀ s x, Ready g s x → Q x s →
    exec i s = .next (takeTrap x (inChain g x.ent || g.hold ≠ 0) (tr x s) (if late then advance g x s else s))

/-- The instruction does not issue yet: the state is as it was. -/
def Stalls (i : Instr) (g : Sig) (Q : Iss → State → Prop) : Prop := ∀ s x, Ready g s x → Q x s → exec i s = .next s

end Sys2Proof.Machine
end

