-- ==== Sys2Proof/Certificates/Slice0/Obligations.lean ====
section
/-! DEFINITION. The statements about the model, for the provers. Each says in its docstring which rules of the spec it formalises,
and where it is the model's own choice. -/

namespace Sys2Proof.Stmt

open Sys2Proof Sys2Proof.Machine

/-! ## Values of uniform instructions, in the words of R352 -/

/-- A k value as a number: signed under .i64, unsigned under .n64. -/
def num (t : Ty) (v : W64) : Int := if t = .i64 then v.toInt else v.toNat

/-- The immediate of a uniform twin (R321): sign-extended under .i64, zero-extended otherwise. -/
def wide (t : Ty) (imm : W32) : W64 := if t = .i64 then imm.signExtend 64 else imm.zeroExtend 64

/-- An exact result modulo 2^64 under .wrap, clamped to the type's range under .sat. -/
def fit (h : Hdr) (v : Int) : W64 :=
  if h.mod = 1 then
    (if h.ty = .i64 then BitVec.ofInt 64 (max (-2 ^ 63) (min v (2 ^ 63 - 1))) else BitVec.ofInt 64 (max 0 (min v (2 ^ 64 - 1))))
  else BitVec.ofInt 64 v

/-- The uniform types. -/
def uniTy (h : Hdr) : Prop := h.ty = .i64 ∨ h.ty = .n64

/-- The six conditions of family CMP. -/
def holds (cond : Nat) (a b : Int) : Prop := match cond with
  | 0 => a = b
  | 1 => a ≠ b
  | 2 => a < b
  | 3 => a ≤ b
  | 4 => a > b
  | _ => a ≥ b

end Sys2Proof.Stmt

open Sys2Proof Sys2Proof.Machine Sys2Proof.Stmt

/-! ## Uniform instructions (MAJ 0x05 to 0x07) -/

/-- Every arithmetic instruction of the uniform ALU completes, in each of its forms: kd takes the exact sum, difference, product or
multiply-add modulo 2^64 under .wrap and clamped under .sat; no other register, path, byte or word changes. -/
def Sys2Proof.Stmt.UniformArithmetic : Prop := ∀ (h : Hdr) (kd ka kb kc : Nat) (imm : W32), uniTy h →
  let a := fun x : Iss => num h.ty (kget x.grp ka)
  let b := fun x : Iss => num h.ty (kget x.grp kb)
  let c := fun x : Iss => num h.ty (kget x.grp kc)
  let j := num h.ty (wide h.ty imm)
  let done := fun v : Iss → W64 => UniDone h.nw h.hold kd fun x _ => v x
  Completes (.kadd h kd ka kb) (sigKadd h kd ka kb) Always (done fun x => fit h (a x + b x)) ∧
  Completes (.kaddImm h kd ka imm) (sigKaddImm h kd ka imm) Always (done fun x => fit h (a x + j)) ∧
  Completes (.ksub h kd ka kb) (sigKsub h kd ka kb) Always (done fun x => fit h (a x - b x)) ∧
  Completes (.ksubImm h kd ka imm) (sigKsubImm h kd ka imm) Always (done fun x => fit h (a x - j)) ∧
  Completes (.kmul h kd ka kb) (sigKmul h kd ka kb) Always (done fun x => fit h (a x * b x)) ∧
  Completes (.kmulImm h kd ka imm) (sigKmulImm h kd ka imm) Always (done fun x => fit h (a x * j)) ∧
  Completes (.kmad h kd ka kb kc) (sigKmad h kd ka kb kc) Always (done fun x => fit h (a x * b x + c x)) ∧
  Completes (.kmadImm h kd ka imm kc) (sigKmadImm h kd ka imm kc) Always (done fun x => fit h (a x * j + c x)) ∧
  Completes (.kmin h kd ka kb) (sigKmin h kd ka kb) Always
    (done fun x => if b x < a x then kget x.grp kb else kget x.grp ka) ∧
  Completes (.kminImm h kd ka imm) (sigKminImm h kd ka imm) Always (done fun x => if j < a x then wide h.ty imm else kget x.grp ka) ∧
  Completes (.kmax h kd ka kb) (sigKmax h kd ka kb) Always
    (done fun x => if a x < b x then kget x.grp kb else kget x.grp ka) ∧
  Completes (.kmaxImm h kd ka imm) (sigKmaxImm h kd ka imm) Always (done fun x => if a x < j then wide h.ty imm else kget x.grp ka)

/-- kcmp writes 1 where the condition holds between the sources and 0 where it does not, in its register and its immediate form. -/
def Sys2Proof.Stmt.UniformCompare : Prop := ∀ (h : Hdr) (kd ka kb : Nat) (imm : W32), uniTy h →
  Completes (.kcmp h kd ka kb) (sigKcmp h kd ka kb) Always (fun x s t =>
    ∃ v : W64, UniDone h.nw h.hold kd (fun _ _ => v) x s t ∧
      (holds h.mod (num h.ty (kget x.grp ka)) (num h.ty (kget x.grp kb)) → v = 1) ∧
      (¬ holds h.mod (num h.ty (kget x.grp ka)) (num h.ty (kget x.grp kb)) → v = 0)) ∧
  Completes (.kcmpImm h kd ka imm) (sigKcmpImm h kd ka imm) Always (fun x s t =>
    ∃ v : W64, UniDone h.nw h.hold kd (fun _ _ => v) x s t ∧
      (holds h.mod (num h.ty (kget x.grp ka)) (num h.ty (wide h.ty imm)) → v = 1) ∧
      (¬ holds h.mod (num h.ty (kget x.grp ka)) (num h.ty (wide h.ty imm)) → v = 0))

/-- The moves, logic, shifts, select, address and bit-count instructions of the uniform ALU and the immediate loads complete with the
values of R352 and R353: a shift by 64 or more gives 0, or for ksra 64 copies of the sign. -/
def Sys2Proof.Stmt.UniformLogic : Prop := ∀ (h : Hdr) (kd ka kb kc sh disp : Nat) (imm : W32) (imm64 : W64),
  let a := fun x : Iss => kget x.grp ka
  let b := fun x : Iss => kget x.grp kb
  let z : W64 := imm.zeroExtend 64
  let done := fun v : Iss → W64 => UniDone h.nw h.hold kd fun x _ => v x
  (h.ty = .b32 →
    Completes (.kmov h kd ka) (sigKmov h kd ka) Always (done a) ∧
    Completes (.kand h kd ka kb) (sigKand h kd ka kb) Always (done fun x => a x &&& b x) ∧
    Completes (.kandImm h kd ka imm) (sigKandImm h kd ka imm) Always (done fun x => a x &&& z) ∧
    Completes (.kor h kd ka kb) (sigKor h kd ka kb) Always (done fun x => a x ||| b x) ∧
    Completes (.korImm h kd ka imm) (sigKorImm h kd ka imm) Always (done fun x => a x ||| z) ∧
    Completes (.kxor h kd ka kb) (sigKxor h kd ka kb) Always (done fun x => a x ^^^ b x) ∧
    Completes (.kxorImm h kd ka imm) (sigKxorImm h kd ka imm) Always (done fun x => a x ^^^ z) ∧
    Completes (.kshl h kd ka kb) (sigKshl h kd ka kb) Always (done fun x => if 64 ≤ (b x).toNat then 0 else a x <<< (b x).toNat) ∧
    Completes (.kshlImm h kd ka imm) (sigKshlImm h kd ka imm) Always (done fun x => if 64 ≤ imm.toNat then 0 else a x <<< imm.toNat) ∧
    Completes (.kshr h kd ka kb) (sigKshr h kd ka kb) Always (done fun x => if 64 ≤ (b x).toNat then 0 else a x >>> (b x).toNat) ∧
    Completes (.kshrImm h kd ka imm) (sigKshrImm h kd ka imm) Always (done fun x => if 64 ≤ imm.toNat then 0 else a x >>> imm.toNat) ∧
    Completes (.ksra h kd ka kb) (sigKsra h kd ka kb) Always (done fun x =>
      if 64 ≤ (b x).toNat then (if (a x).msb then BitVec.allOnes 64 else 0) else (a x).sshiftRight (b x).toNat) ∧
    Completes (.ksraImm h kd ka imm) (sigKsraImm h kd ka imm) Always (done fun x =>
      if 64 ≤ imm.toNat then (if (a x).msb then BitVec.allOnes 64 else 0) else (a x).sshiftRight imm.toNat) ∧
    Completes (.ksel h kd ka kb kc) (sigKsel h kd ka kb kc) Always (done fun x => if kget x.grp kc ≠ 0 then a x else b x) ∧
    Completes (.klea h kd ka kb sh disp) (sigKlea h kd ka kb sh disp) Always
      (done fun x => a x + b x <<< sh + (BitVec.ofNat 18 disp).signExtend 64) ∧
    Completes (.kpopc h kd ka) (sigKpopc h kd ka) Always
      (done fun x => BitVec.ofNat 64 ((lanes.filter fun n => (a x).getLsbD n).length)) ∧
    Completes (.kclz h kd ka) (sigKclz h kd ka) Always (fun x s t => ∃ n : Nat,
      UniDone h.nw h.hold kd (fun _ _ => BitVec.ofNat 64 n) x s t ∧ n ≤ 64 ∧ (∀ j, j < n → (a x).getMsbD j = false) ∧
      (n < 64 → (a x).getMsbD n = true)) ∧
    Completes (.kli64 h kd imm64) (sigKli64 h kd imm64) Always (done fun _ => imm64)) ∧
  (uniTy h → Completes (.kli h kd imm) (sigKli h kd imm) Always (done fun _ => wide h.ty imm))

/-- kfromv reads one lane of a vector register, or of a pair under a pair type, whether it is active or not: the lane that EXT names, the
lane that a k register names in its bits 5:0, or the lowest active lane of the path. -/
def Sys2Proof.Stmt.LaneRead : Prop := ∀ (h : Hdr) (kd va : Nat) (sel : LaneSel), va < 1536 →
  Completes (.kfromv h kd va sel) (sigKfromv h kd va sel) Always (fun x s t =>
    ∃ l : Nat, UniDone h.nw h.hold kd (fun x _ =>
        if h.ty = .i64 ∨ h.ty = .n64 then BitVec.ofNat 64 (pget x.grp va l)
        else if h.ty = .i32 then (vget x.grp va l).signExtend 64 else (vget x.grp va l).zeroExtend 64) x s t ∧
      match sel with
      | .lane n => l = n
      | .k n => l = (kget x.grp n).toNat % 64
      | .first => x.ent.mask ≠ 0 → laneOn x.ent.mask l = true ∧ ∀ j, j < l → laneOn x.ent.mask j = false)

/-! ## Per-lane integer and logic instructions (MAJ 0x08 to 0x0B) -/

namespace Sys2Proof.Stmt

open Sys2Proof Sys2Proof.Machine

/-- The lane value of an immediate twin (R321). -/
def immLane (h : Hdr) (imm : W32) : Iss → Nat → Nat := fun _ _ => (wide h.ty imm).toNat

/-- The lane value of a vector source. -/
def src (h : Hdr) (v : VSrc) : Iss → Nat → Nat := fun x l => srcVal x h.ty.pair v l

/-- No operand. -/
def none0 : Iss → Nat → Nat := fun _ _ => 0

/-- A per-lane result of which `P` says what each lane's value is. -/
def Each (h : Hdr) (d : VDst) (P : Iss → Nat → Nat → Prop) (x : Iss) (s t : State) : Prop :=
  ∃ r : Nat → Nat, LanesDone h d (fun _ _ => r) x s t ∧ ∀ l, l < 64 → P x l (r l)

/-- A per-lane result of one value for each lane. -/
def Val (h : Hdr) (d : VDst) (f : Iss → Nat → Nat) : Iss → State → State → Prop := Each h d fun x l r => r = f x l

/-- Element by element: the exact integer `f` of the elements of the sources, wrapped to the element's width, or under .sat clamped to the
type's range (R362). -/
def IntElems (h : Hdr) (d : VDst) (sat : Bool) (f : Int → Int → Int → Int) (a b c : Iss → Nat → Nat) : Iss → State → State → Prop :=
  Each h d fun x l r => r < 2 ^ (h.ty.width * h.ty.elems) ∧ ∀ j, j < h.ty.elems →
    let v := f (h.ty.int (elem h.ty (a x l) j)) (h.ty.int (elem h.ty (b x l) j)) (h.ty.int (elem h.ty (c x l) j))
    let v := if sat ∧ h.mod = 1 then max h.ty.minI (min v h.ty.maxI) else v
    ((elem h.ty r j : Nat) : Int) = v % (2 ^ h.ty.width : Nat)

/-- Element by element on the elements' codes. -/
def CodeElems (h : Hdr) (d : VDst) (f : Nat → Nat → Nat) (a b : Iss → Nat → Nat) : Iss → State → State → Prop :=
  Each h d fun x l r => r < 2 ^ (h.ty.width * h.ty.elems) ∧ ∀ j, j < h.ty.elems →
    elem h.ty r j = f (elem h.ty (a x l) j) (elem h.ty (b x l) j)

end Sys2Proof.Stmt

/-- Vector integer arithmetic completes: every element of every active lane takes the exact sum, difference, product, multiply-add or
absolute value, wrapped or saturated by MOD, and under mulh the high half of the exact product; min and max take the lesser
or greater element by the signedness of the type. Inactive lanes and everything else stay. -/
def Sys2Proof.Stmt.VectorInteger : Prop := ∀ (h : Hdr) (d : VDst) (a b c : VSrc) (imm : W32), h.ty ∈ intTys →
  let p := src h a
  let q := src h b
  let j := immLane h imm
  Completes (.add h d a b) (sigAdd h d a b) Always (IntElems h d true (fun a b _ => a + b) p q none0) ∧
  Completes (.addImm h d a imm) (sigAddImm h d a imm) Always (IntElems h d true (fun a b _ => a + b) p j none0) ∧
  Completes (.sub h d a b) (sigSub h d a b) Always (IntElems h d true (fun a b _ => a - b) p q none0) ∧
  Completes (.subImm h d a imm) (sigSubImm h d a imm) Always (IntElems h d true (fun a b _ => a - b) p j none0) ∧
  Completes (.mul h d a b) (sigMul h d a b) Always (IntElems h d true (fun a b _ => a * b) p q none0) ∧
  Completes (.mulImm h d a imm) (sigMulImm h d a imm) Always (IntElems h d true (fun a b _ => a * b) p j none0) ∧
  Completes (.mulh h d a b) (sigMulh h d a b) Always (IntElems h d false (fun a b _ => a * b / (2 ^ h.ty.width : Nat)) p q none0) ∧
  Completes (.mulhImm h d a imm) (sigMulhImm h d a imm) Always
    (IntElems h d false (fun a b _ => a * b / (2 ^ h.ty.width : Nat)) p j none0) ∧
  Completes (.mad h d a b c) (sigMad h d a b c) Always (IntElems h d true (fun a b c => a * b + c) p q (src h c)) ∧
  Completes (.madImm h d a imm c) (sigMadImm h d a imm c) Always (IntElems h d true (fun a b c => a * b + c) p j (src h c)) ∧
  Completes (.abs h d a) (sigAbs h d a) Always (IntElems h d true (fun a _ _ => (a.natAbs : Int)) p none0 none0) ∧
  Completes (.min h d a b) (sigMin h d a b) Always (IntElems h d false (fun a b _ => min a b) p q none0) ∧
  Completes (.minImm h d a imm) (sigMinImm h d a imm) Always (IntElems h d false (fun a b _ => min a b) p j none0) ∧
  Completes (.max h d a b) (sigMax h d a b) Always (IntElems h d false (fun a b _ => max a b) p q none0) ∧
  Completes (.maxImm h d a imm) (sigMaxImm h d a imm) Always (IntElems h d false (fun a b _ => max a b) p j none0)

/-- addc adds the carry-in of each lane's bit of its mask (1 from m0), writes the sum modulo 2^w and, where it names a carry-out mask, the
carry of each active lane; the carry-out bits of inactive lanes and every other mask stay. -/
def Sys2Proof.Stmt.AddWithCarry : Prop := ∀ (h : Hdr) (d : VDst) (a b : VSrc) (cin cout : Nat), h.ty = .n32 ∨ h.ty = .n64 →
  Completes (.addc h d a b cin cout) (sigAddc h d a b cin cout) Always (fun x s t =>
    let sum := fun l => src h a x l + src h b x l + (if laneOn (mget x.grp cin) l then 1 else 0)
    OnlyGroup x.g s t ∧ ∃ g, grpOf t x.g = some g ∧
      g = { x.grp with v := g.v, m := g.m, stack := g.stack, turn := g.turn, waitFrom := g.waitFrom } ∧
      (∀ n l, l < 64 → vget g n l = laneAfter h.nw h.ty.pair d x.mask (fun l => sum l % 2 ^ h.ty.width) x.grp n l) ∧
      (∀ n l, l < 64 → laneOn (mget g n) l =
        if n = cout ∧ n ≠ 0 ∧ laneOn x.mask l = true then decide (2 ^ h.ty.width ≤ sum l) else laneOn (mget x.grp n) l) ∧
      MovedOn x g)

/-- The logic, shift, select, move and bit-count instructions complete: lop3 looks every bit up in its truth table, a shift by the element's
width or more gives 0 or copies of the top bit, and movk writes its one lane only where it is active. -/
def Sys2Proof.Stmt.VectorLogic : Prop := ∀ (h : Hdr) (d : VDst) (a b c : VSrc) (imm : W32) (tbl : BitVec 8) (mc kv kl : Nat),
  let p := src h a
  let q := src h b
  let j := immLane h imm
  let w := h.ty.width
  let shl := fun v n : Nat => if w ≤ n then 0 else v * 2 ^ n % 2 ^ w
  let shr := fun v n : Nat => if w ≤ n then 0 else v / 2 ^ n
  let sra := fun v n : Nat => if v < 2 ^ (w - 1) then (if w ≤ n then 0 else v / 2 ^ n)
    else if w ≤ n then 2 ^ w - 1 else v / 2 ^ n + (2 ^ w - 2 ^ (w - n))
  Completes (.and h d a b) (sigAnd h d a b) Always (Val h d fun x l => p x l &&& q x l) ∧
  Completes (.andImm h d a imm) (sigAndImm h d a imm) Always (Val h d fun x l => p x l &&& j x l) ∧
  Completes (.or h d a b) (sigOr h d a b) Always (Val h d fun x l => p x l ||| q x l) ∧
  Completes (.orImm h d a imm) (sigOrImm h d a imm) Always (Val h d fun x l => p x l ||| j x l) ∧
  Completes (.xor h d a b) (sigXor h d a b) Always (Val h d fun x l => p x l ^^^ q x l) ∧
  Completes (.xorImm h d a imm) (sigXorImm h d a imm) Always (Val h d fun x l => p x l ^^^ j x l) ∧
  Completes (.lop3 h d a b c tbl) (sigLop3 h d a b c tbl) Always (Each h d fun x l r => r < 2 ^ w ∧ ∀ i, i < w →
    r.testBit i = tbl.getLsbD (((p x l).testBit i).toNat + 2 * ((q x l).testBit i).toNat + 4 * ((src h c x l).testBit i).toNat)) ∧
  Completes (.shl h d a b) (sigShl h d a b) Always (CodeElems h d shl p q) ∧
  Completes (.shlImm h d a imm) (sigShlImm h d a imm) Always (CodeElems h d shl p j) ∧
  Completes (.shr h d a b) (sigShr h d a b) Always (CodeElems h d shr p q) ∧
  Completes (.shrImm h d a imm) (sigShrImm h d a imm) Always (CodeElems h d shr p j) ∧
  Completes (.sra h d a b) (sigSra h d a b) Always (CodeElems h d sra p q) ∧
  Completes (.sraImm h d a imm) (sigSraImm h d a imm) Always (CodeElems h d sra p j) ∧
  Completes (.sel h d a b mc) (sigSel h d a b mc) Always (Val h d fun x l => if laneOn (mget x.grp mc) l then p x l else q x l) ∧
  Completes (.mov h d a) (sigMov h d a) Always (Val h d p) ∧
  Completes (.movImm h d imm) (sigMovImm h d imm) Always (Val h d j) ∧
  Completes (.movk h d kv kl) (sigMovk h d kv kl) Always (fun x s t =>
    let one : Iss := { x with mask := x.mask &&& BitVec.ofNat 64 (2 ^ ((kget x.grp kl).toNat % 64)) }
    LanesDone h d (fun _ _ _ => if h.ty.pair then (kget x.grp kv).toNat else (kget x.grp kv).toNat % 2 ^ 32) one s t)

/-- popc, clz, brev, bfe and bfi complete with the values of R368: a field width of 0 gives 0 in bfe and the base in bfi. -/
def Sys2Proof.Stmt.BitFields : Prop := ∀ (h : Hdr) (d : VDst) (a b c : VSrc) (imm : W32),
  let p := src h a
  let q := src h b
  let j := immLane h imm
  let w := h.ty.width
  let pos := fun f : Nat => f % 32
  let wid := fun f : Nat => min (f / 256 % 64) 32
  let bfe := fun v f : Nat => let t := v / 2 ^ pos f % 2 ^ wid f
    if h.ty = .i32 ∧ 0 < wid f ∧ 2 ^ (wid f - 1) ≤ t then t + (2 ^ 32 - 2 ^ wid f) else t
  let bfi := fun (v f base r : Nat) => r < 2 ^ 32 ∧ ∀ i, i < 32 →
    r.testBit i = if pos f ≤ i ∧ i < pos f + wid f then v.testBit (i - pos f) else base.testBit i
  (h.ty = .b32 ∨ h.ty = .n64 →
    Completes (.popc h d a) (sigPopc h d a) Always (Val h d fun x l => ((List.range w).filter (p x l).testBit).length) ∧
    Completes (.clz h d a) (sigClz h d a) Always (Each h d fun x l r => r ≤ w ∧ (∀ i, i < w → w ≤ i + r → (p x l).testBit i = false) ∧
      (r < w → (p x l).testBit (w - 1 - r) = true)) ∧
    Completes (.brev h d a) (sigBrev h d a) Always
      (Each h d fun x l r => r < 2 ^ w ∧ ∀ i, i < w → r.testBit i = (p x l).testBit (w - 1 - i))) ∧
  (h.ty = .n32 ∨ h.ty = .i32 →
    Completes (.bfe h d a b) (sigBfe h d a b) Always (Val h d fun x l => bfe (p x l) (q x l)) ∧
    Completes (.bfeImm h d a imm) (sigBfeImm h d a imm) Always (Val h d fun x l => bfe (p x l) (j x l))) ∧
  (h.ty = .b32 →
    Completes (.bfi h d a b c) (sigBfi h d a b c) Always (Each h d fun x l r => bfi (p x l) (q x l) (src h c x l) r) ∧
    Completes (.bfiImm h d a imm c) (sigBfiImm h d a imm c) Always (Each h d fun x l r => bfi (p x l) (j x l) (src h c x l) r))

/-- cmp sets the bit of every active lane to whether the condition holds between the lane's values, by the signedness of the type, and
leaves the bits of inactive lanes. -/
def Sys2Proof.Stmt.VectorCompare : Prop := ∀ (h : Hdr) (md : Nat) (a b : VSrc) (imm : W32),
  h.ty = .i32 ∨ h.ty = .n32 ∨ h.ty = .i64 ∨ h.ty = .n64 →
  let P := fun (q : Iss → Nat → Nat) (x : Iss) (s t : State) => ∃ p : Nat → Bool, MaskDone md (fun _ _ => p) x s t ∧
    ∀ l, l < 64 → (p l = true ↔ holds h.mod (h.ty.int (src h a x l)) (h.ty.int (q x l)))
  Completes (.cmp h md a b) (sigCmp h md a b) Always (P (src h b)) ∧
  Completes (.cmpImm h md a imm) (sigCmpImm h md a imm) Always (P (immLane h imm))

/-! ## Float instructions and conversions (MAJ 0x10 to 0x13) -/

namespace Sys2Proof.Stmt

open Sys2Proof Sys2Proof.Machine

/-- The effective rounding mode of an instruction (R275, R277): MOD 5 is FMT.RND of the issuing path. -/
def modeOf (h : Hdr) (x : Iss) : Rnd := match h.mod with
  | 0 => .rne
  | 1 => .rtz
  | 2 => .rdn
  | 3 => .rup
  | 5 => (match bits x.ent.fmt.toNat 14 12 with
    | 0 => .rne
    | 1 => .rtz
    | 2 => .rdn
    | 3 => .rup
    | _ => .sr)
  | _ => .sr

/-- A per-lane result that rounds `n` elements in each active lane (R359): the group's generators move on only under SR, and then as n
draws in each active lane from class FMT.GEN move them; `P` says what each lane's value is, given the words drawn. -/
def RoundDone (h : Hdr) (d : VDst) (mode : Iss → Rnd) (n : Nat) (P : Iss → (Nat → Nat → Nat) → Nat → Nat → Prop) (x : Iss) (s t : State) : Prop :=
  OnlyGroup x.g s t ∧ ∃ (g : Group) (w : Nat → Nat → Nat) (r : Nat → Nat), grpOf t x.g = some g ∧
    g = { x.grp with v := g.v, gens := g.gens, ctrs := g.ctrs, stack := g.stack, turn := g.turn, waitFrom := g.waitFrom } ∧
    (if mode x = .sr then
      let ds := drawLanes x.lrec.seed x.blk.bid (16 * 2 ^ bits x.grp.dsectl.toNat 2 0) (bits x.ent.fmt.toNat 18 15) n (activeLanes x.mask) x.grp
      g.gens = ds.2.gens ∧ g.ctrs = ds.2.ctrs ∧ ∀ l j, w l j = (FMap.get [] ds.1 l).getD j 0
    else g.gens = x.grp.gens ∧ g.ctrs = x.grp.ctrs) ∧
    (∀ m l, l < 64 → vget g m l = laneAfter h.nw h.ty.pair d x.mask r x.grp m l) ∧ (∀ l, l < 64 → P x w l (r l)) ∧ MovedOn x g ∧
    Latched x h.hold d.code h.ty.pair
      (fun l => BitVec.ofNat 64 (if laneOn x.mask l then r l else fileVal x.grp h.ty.pair d.code l)) g

/-- Element by element: `f` of the format, the mode, the word drawn for the element and the elements of the sources. -/
def FloatElems (h : Hdr) (d : VDst) (F : Fmt) (f : Fmt → Rnd → Nat → Nat → Nat → Nat → Nat) (a b c : Iss → Nat → Nat) :
    Iss → State → State → Prop :=
  RoundDone h d (modeOf h) h.ty.elems fun x w l r => r < 2 ^ (h.ty.width * h.ty.elems) ∧ ∀ j, j < h.ty.elems →
    elem h.ty r j = f F (modeOf h x) (w l j) (elem h.ty (a x l) j) (elem h.ty (b x l) j) (elem h.ty (c x l) j) % 2 ^ h.ty.width

/-- The float formats of the float instructions (FLT of R360). -/
def fltOf (t : Ty) (F : Fmt) : Prop := (t = .f32 ∧ F = fmtF32) ∨ (t = .bf16x2 ∧ F = fmtBf16) ∨ (t = .f16x2 ∧ F = fmtF16)

end Sys2Proof.Stmt

/-- The arithmetic of R370 and the roots of R292 complete on f32, bf16x2 and f16x2: every element is the exact result rounded once in the
effective mode, with the word that the element draws under SR. -/
def Sys2Proof.Stmt.FloatArithmetic : Prop := ∀ (h : Hdr) (d : VDst) (a b c : VSrc) (imm : W32) (F : Fmt), fltOf h.ty F →
  let p := src h a
  let q := src h b
  let j := fun (_ : Iss) (_ : Nat) => imm.toNat
  let add := fun (F : Fmt) (m : Rnd) (w a b _ : Nat) => roundF F m w (FVal.add m (F.decode a) (F.decode b))
  let sub := fun (F : Fmt) (m : Rnd) (w a b _ : Nat) => roundF F m w (FVal.add m (F.decode a) (F.decode b).neg)
  let mul := fun (F : Fmt) (m : Rnd) (w a b _ : Nat) => roundF F m w (FVal.mul (F.decode a) (F.decode b))
  let fma := fun (F : Fmt) (m : Rnd) (w a b c : Nat) => roundF F m w (FVal.add m (FVal.mul (F.decode a) (F.decode b)) (F.decode c))
  let scale := fun (F : Fmt) (m : Rnd) (w a n _ : Nat) => fscaleF F m w a (sext h.ty.width n)
  Completes (.fadd h d a b) (sigFadd h d a b) Always (FloatElems h d F add p q none0) ∧
  Completes (.faddImm h d a imm) (sigFaddImm h d a imm) Always (FloatElems h d F add p j none0) ∧
  Completes (.fsub h d a b) (sigFsub h d a b) Always (FloatElems h d F sub p q none0) ∧
  Completes (.fsubImm h d a imm) (sigFsubImm h d a imm) Always (FloatElems h d F sub p j none0) ∧
  Completes (.fmul h d a b) (sigFmul h d a b) Always (FloatElems h d F mul p q none0) ∧
  Completes (.fmulImm h d a imm) (sigFmulImm h d a imm) Always (FloatElems h d F mul p j none0) ∧
  Completes (.fma h d a b c) (sigFma h d a b c) Always (FloatElems h d F fma p q (src h c)) ∧
  Completes (.fmaImm h d a imm c) (sigFmaImm h d a imm c) Always (FloatElems h d F fma p j (src h c)) ∧
  Completes (.fscale h d a b) (sigFscale h d a b) Always (FloatElems h d F scale p q none0) ∧
  Completes (.fscaleImm h d a imm) (sigFscaleImm h d a imm) Always (FloatElems h d F scale p j none0) ∧
  Completes (.frnd h d a) (sigFrnd h d a) Always (FloatElems h d F (fun F m w a _ _ => frndF F m w a) p none0 none0) ∧
  Completes (.frcp h d a) (sigFrcp h d a) Always (FloatElems h d F (fun F m w a _ _ => frcpF F m w a) p none0 none0) ∧
  Completes (.fsqrt h d a) (sigFsqrt h d a) Always (FloatElems h d F (fun F m w a _ _ => fsqrtF F m w a) p none0 none0)

/-- frsq, fexp2 and flog2 complete on f32 with exactly the results of the algorithms of R294 to R296. -/
def Sys2Proof.Stmt.Transcendentals : Prop := ∀ (h : Hdr) (d : VDst) (a : VSrc), h.ty = .f32 →
  Completes (.frsq h d a) (sigFrsq h d a) Always (FloatElems h d fmtF32 (fun _ m w a _ _ => frsqF m w a) (src h a) none0 none0) ∧
  Completes (.fexp2 h d a) (sigFexp2 h d a) Always (FloatElems h d fmtF32 (fun _ m w a _ _ => fexp2F m w a) (src h a) none0 none0) ∧
  Completes (.flog2 h d a) (sigFlog2 h d a) Always (FloatElems h d fmtF32 (fun _ m w a _ _ => flog2F m w a) (src h a) none0 none0)

/-- fmin and fmax take the lesser or greater element with -0 below +0, a number over a NaN, and the canonical NaN for two; fclass writes
exactly one class bit for each element; neither draws. -/
def Sys2Proof.Stmt.FloatSelect : Prop := ∀ (h : Hdr) (d : VDst) (a b : VSrc) (imm : W32) (F : Fmt), fltOf h.ty F →
  let p := src h a
  let q := src h b
  let j := fun (_ : Iss) (_ : Nat) => imm.toNat
  let pick := fun (mx : Bool) (a b r : Nat) =>
    (F.decode a = .nan → F.decode b = .nan → r = F.nanBits) ∧ (F.decode a = .nan → F.decode b ≠ .nan → r = b) ∧
    (F.decode a ≠ .nan → F.decode b = .nan → r = a) ∧ (F.decode a ≠ .nan → F.decode b ≠ .nan → (r = a ∨ r = b) ∧
      (if mx then (F.decode r).lt true (F.decode a) = false ∧ (F.decode r).lt true (F.decode b) = false
       else (F.decode a).lt true (F.decode r) = false ∧ (F.decode b).lt true (F.decode r) = false))
  let picks := fun (mx : Bool) (a b : Iss → Nat → Nat) => Each h d fun x l r => r < 2 ^ 32 ∧ ∀ j, j < h.ty.elems →
    pick mx (elem h.ty (a x l) j) (elem h.ty (b x l) j) (elem h.ty r j)
  let mag := fun c : Nat => c % 2 ^ (F.bits - 1)
  Completes (.fmin h d a b) (sigFmin h d a b) Always (picks false p q) ∧
  Completes (.fminImm h d a imm) (sigFminImm h d a imm) Always (picks false p j) ∧
  Completes (.fmax h d a b) (sigFmax h d a b) Always (picks true p q) ∧
  Completes (.fmaxImm h d a imm) (sigFmaxImm h d a imm) Always (picks true p j) ∧
  Completes (.fclass h d a) (sigFclass h d a) Always (Each h d fun x l r => r < 2 ^ 32 ∧ ∀ j, j < h.ty.elems →
    let c := elem h.ty (p x l) j
    let neg := bit c (F.bits - 1)
    ∃ n, n < 10 ∧ elem h.ty r j = 2 ^ n ∧
      (F.decode c = .nan → n = if bit c (F.fb - 1) then 9 else 8) ∧
      (∀ s, F.decode c = .inf s → n = if neg then 0 else 7) ∧
      (mag c = 0 → n = if neg then 3 else 4) ∧
      (0 < mag c → mag c < 2 ^ F.fb → n = if neg then 2 else 5) ∧
      (2 ^ F.fb ≤ mag c → mag c ≤ F.maxBits → n = if neg then 1 else 6))

/-- fcmp sets the bit of every active lane by the conditions of R371: eq, lt, le, gt and ge are false and ne is true where an operand is
NaN, un is true and ord false there, and -0 equals +0. -/
def Sys2Proof.Stmt.FloatCompare : Prop := ∀ (h : Hdr) (md : Nat) (a b : VSrc) (imm : W32), h.ty = .f32 → h.mod < 8 →
  let cond := fun (x y : FVal) (r : Bool) =>
    (x = .nan ∨ y = .nan → r = decide (h.mod = 1 ∨ h.mod = 6)) ∧ (x ≠ .nan → y ≠ .nan → r = (match h.mod with
      | 0 => !x.lt false y && !y.lt false x
      | 1 => x.lt false y || y.lt false x
      | 2 => x.lt false y
      | 3 => !y.lt false x
      | 4 => y.lt false x
      | 5 => !x.lt false y
      | 6 => false
      | _ => true))
  let P := fun (q : Iss → Nat → Nat) (x : Iss) (s t : State) => ∃ p : Nat → Bool, MaskDone md (fun _ _ => p) x s t ∧
    ∀ l, l < 64 → cond (fmtF32.decode (src h a x l)) (fmtF32.decode (q x l)) (p l)
  Completes (.fcmp h md a b) (sigFcmp h md a b) Always (P (src h b)) ∧
  Completes (.fcmpImm h md a imm) (sigFcmpImm h md a imm) Always (P fun _ _ => imm.toNat)

/-- cvt converts the part of the lane that ELEM names (R376): with as many elements on both sides every element, into wider packing the
elements from ELEM x ns with the others kept, and from wider packing those from ELEM x nd. lpack and lunpk convert the 16 values of
their registers to and from the 96-bit packed form of R287. -/
def Obligations.Conversions : Prop := ∀ (h : Hdr) (d : VDst) (a : VSrc) (va : Nat) (f : Ty) (e : Nat),
  (h.ty ∈ cvtTys → f ∈ cvtTys → e < max f.elems h.ty.elems / min f.elems h.ty.elems →
    Completes (.cvt h d a f e) (sigCvt h d a f e) Always
      (RoundDone h d (fun x => if h.ty = .l6 then .rne else modeOf h x) (min f.elems h.ty.elems) fun x w l r =>
        let mode := if h.ty = .l6 then .rne else modeOf h x
        let old := fileVal x.grp h.ty.pair d.code l
        r < 2 ^ (h.ty.width * h.ty.elems) ∧ ∀ j, j < h.ty.elems → elem h.ty r j =
          if f.elems < h.ty.elems then
            (if e * f.elems ≤ j ∧ j < e * f.elems + f.elems then
              convert f h.ty mode (w l (j - e * f.elems)) (elem f (srcVal x f.pair a l) (j - e * f.elems)) % 2 ^ h.ty.width
            else elem h.ty old j)
          else convert f h.ty mode (w l j) (elem f (srcVal x f.pair a l) (e * h.ty.elems + j)) % 2 ^ h.ty.width)) ∧
  (h.ty = .l6 → f = .f32 ∨ f = .bf16x2 ∨ f = .f16x2 ∨ f = .l6 →
    Completes (.lpack h d va f) (sigLpack h d va f) Always (fun x s t => OnlyGroup x.g s t ∧ ∃ g, grpOf t x.g = some g ∧
      g = { x.grp with v := g.v, stack := g.stack, turn := g.turn, waitFrom := g.waitFrom } ∧ MovedOn x g ∧
      ∀ n, d = .reg n → (∀ m l, l < 64 → ¬ (laneOn x.mask l = true ∧ n ≤ m ∧ m < n + 3) → vget g m l = vget x.grp m l) ∧
        ∀ l, l < 64 → laneOn x.mask l = true → ∀ j, j < 16 → l6At (tripleVal g n l) j =
          let v := fun i => (vget x.grp (va + i) l).toNat
          (if f = .f32 then l6Encode (fmtF32.decode (v j)) else if f = .l6 then elem .l6 (v (j / 4)) (j % 4) % 64
           else l6Encode (f.value (elem f (v (j / 2)) (j % 2)))))) ∧
  (h.ty = .f32 ∨ h.ty = .l6 →
    Completes (.lunpk h d va) (sigLunpk h d va) Always (fun x s t => OnlyGroup x.g s t ∧ ∃ g, grpOf t x.g = some g ∧
      g = { x.grp with v := g.v, stack := g.stack, turn := g.turn, waitFrom := g.waitFrom } ∧ MovedOn x g ∧
      ∀ n, d = .reg n → let c := if h.ty = .f32 then 16 else 4
        (∀ m l, l < 64 → ¬ (laneOn x.mask l = true ∧ n ≤ m ∧ m < n + c) → vget g m l = vget x.grp m l) ∧
        ∀ l, l < 64 → laneOn x.mask l = true → ∀ j, j < 16 →
          let code := tripleVal x.grp va l / 2 ^ (6 * j) % 64
          if h.ty = .f32 then (vget g (n + j) l).toNat = roundF fmtF32 .rne 0 (l6Decode code)
          else elem .l6 (vget g (n + j / 4) l).toNat (j % 4) = code))

/-- A NaN that rounding delivers is the canonical NaN of its format (R273). -/
def Sys2Proof.Stmt.CanonicalNaN : Prop := ∀ (F : Fmt), F ∈ [fmtF32, fmtBf16, fmtF16, fmtE4m3, fmtE5m2] → ∀ (m : Rnd) (w : Nat) (v : FVal),
  F.decode (roundF F m w v) = .nan → roundF F m w v = F.nanBits

/-- A value that a format holds is rounded to itself in every mode, whatever word is drawn (R277). -/
def Sys2Proof.Stmt.RoundExact : Prop := ∀ (F : Fmt), F ∈ [fmtF32, fmtBf16, fmtF16, fmtE4m3, fmtE5m2] → ∀ (m : Rnd) (w c : Nat), w < 2 ^ 16 →
  c < 2 ^ F.bits → F.decode c ≠ .nan → roundF F m w (F.decode c) = c

/-- Each lane draws from its own state (R288 to R290): what lane l draws, n words in order, is what it would draw alone, and the classes of
lanes that do not draw stay as they are. -/
def Sys2Proof.Stmt.DrawsPerLane : Prop := ∀ (seed : W64) (bid len c n : Nat) (ls : List Nat) (g : Group), c < 16 → ls.Nodup → (∀ l ∈ ls, l < 64) →
  (∀ l ∈ ls, FMap.get [] (drawLanes seed bid len c n ls g).1 l = (drawN seed bid len c l n g).1) ∧
  ∀ k l, k < 16 → l < 64 → (k ≠ c ∨ l ∉ ls) →
    genState seed bid (drawLanes seed bid len c n ls g).2 k l = genState seed bid g k l ∧
    (14 ≤ k → FMap.get 0 (drawLanes seed bid len c n ls g).2.ctrs (64 * (k - 14) + l) = FMap.get 0 g.ctrs (64 * (k - 14) + l))

/-! ## Cross-lane instructions (MAJ 0x14 to 0x16) -/

namespace Sys2Proof.Stmt

open Sys2Proof Sys2Proof.Machine

/-- Element i of a group of four ranks above element j in compress (R380): NaN above every number, numbers by magnitude, equal ranks to the
lower index. -/
def outranks (t : Ty) (es : List Nat) (i j : Nat) : Prop :=
  let a := es.getD i 0
  let b := es.getD j 0
  match t.fmt? with
  | none => (t.int b).natAbs < (t.int a).natAbs ∨ ((t.int b).natAbs = (t.int a).natAbs ∧ i < j)
  | some F =>
    let nan := fun c => F.decode c = .nan
    let mag := fun c => c % 2 ^ (F.bits - 1)
    (nan a ∧ ¬ nan b) ∨ (nan a ∧ nan b ∧ i < j) ∨ (¬ nan a ∧ ¬ nan b ∧ (mag b < mag a ∨ (mag a = mag b ∧ i < j)))

/-- The two indices of a group of four that compress keeps, ascending. -/
def keeps (t : Ty) (es : List Nat) (i j : Nat) : Prop :=
  i < j ∧ j < 4 ∧ ∀ k, k < 4 → k ≠ i → k ≠ j → outranks t es i k ∧ outranks t es j k

/-- The value of a reduction (R383): that of the active lanes' values in lane order, the identity for none. -/
def isRed (t : Ty) (op : RedOp) (mode : Rnd) (w : Nat) (vs : List Nat) (r : Nat) : Prop :=
  (vs = [] → r = (match op with
    | .add => 0
    | .or => 0
    | .xor => 0
    | .and => 2 ^ t.width - 1
    | .min => if t = .f32 then 0x7F800000 else t.maxI.toNat
    | .max => if t = .f32 then 0xFF800000 else (t.minI % (2 ^ t.width : Nat)).toNat)) ∧
  (vs ≠ [] → match op with
    | .add => if t = .f32 then r = roundF fmtF32 mode w (FVal.sum mode (vs.map fmtF32.decode)) else r = vs.sum % 2 ^ t.width
    | .and => ∀ i, r.testBit i = vs.all fun v => v.testBit i
    | .or => ∀ i, r.testBit i = vs.any fun v => v.testBit i
    | .xor => ∀ i, r.testBit i = decide ((vs.filter fun v => v.testBit i).length % 2 = 1)
    | .min => if t = .f32 then
        (if ∀ v ∈ vs, fmtF32.decode v = .nan then r = 0x7FC00000
         else r ∈ vs ∧ fmtF32.decode r ≠ .nan ∧ ∀ v ∈ vs, (fmtF32.decode v).lt true (fmtF32.decode r) = false)
      else r ∈ vs ∧ ∀ v ∈ vs, t.int r ≤ t.int v
    | .max => if t = .f32 then
        (if ∀ v ∈ vs, fmtF32.decode v = .nan then r = 0x7FC00000
         else r ∈ vs ∧ fmtF32.decode r ≠ .nan ∧ ∀ v ∈ vs, (fmtF32.decode r).lt true (fmtF32.decode v) = false)
      else r ∈ vs ∧ ∀ v ∈ vs, t.int v ≤ t.int r)

/-- The values of the active lanes in ascending lane order. -/
def actives (h : Hdr) (a : VSrc) (x : Iss) : List Nat := (activeLanes x.mask).map (src h a x)

/-- A reduction's result in its destination: in every active lane of a vector register, or in a k register, zero-extended, under i32
sign-extended, and whole under a pair type. -/
def RedDone (h : Hdr) (d : VDst) (r : Nat) (x : Iss) (s t : State) : Prop := match d with
  | .k kd => UniDone h.nw h.hold kd (fun _ _ => if h.ty = .i32 then (BitVec.ofNat 32 r).signExtend 64 else BitVec.ofNat 64 r) x s t
  | .reg n => LanesDone h (.reg n) (fun _ _ _ => r) x s t
  | .zero => LanesDone h .zero (fun _ _ _ => r) x s t

end Sys2Proof.Stmt

/-- shfl and bcast read their source lanes whether those are active or not: selector bit 6 makes shfl take lane l XOR bits 5:0. -/
def Sys2Proof.Stmt.LaneMoves : Prop := ∀ (h : Hdr) (d : VDst) (a b : VSrc) (kl : Nat) (imm : W32),
  let pick := fun l sel : Nat => if sel.testBit 6 then l ^^^ (sel % 64) else sel % 64
  Completes (.shfl h d a b) (sigShfl h d a b) Always (Val h d fun x l => src h a x (pick l (src h b x l))) ∧
  Completes (.shflImm h d a imm) (sigShflImm h d a imm) Always (Val h d fun x l => src h a x (pick l imm.toNat)) ∧
  Completes (.bcast h d a kl) (sigBcast h d a kl) Always (Val h d fun x _ => src h a x ((kget x.grp kl).toNat % 64)) ∧
  Completes (.bcastImm h d a imm) (sigBcastImm h d a imm) Always (Val h d fun x _ => src h a x (imm.toNat % 64))

/-- compress keeps of every group of four the two elements that outrank the others, in ascending index order, and writes their indices to
its slot's byte of the metadata register; expand puts them back with zeros elsewhere. For the 8-bit types; the 16-bit types have one
group in each lane pair. -/
def Sys2Proof.Stmt.SparsePairs : Prop := ∀ (h : Hdr) (n vm slot : Nat) (a b v : VSrc), h.nw = false → h.hold = 0 → n ≠ vm → slot < 4 →
  h.ty ∈ [Ty.i8x4, .n8x4, .e4m3x4, .e5m2x4, .bf16x2, .f16x2] →
  let groups := fun p q : Nat => if h.ty.width = 8 then [[0, 1, 2, 3].map (elem h.ty p), [0, 1, 2, 3].map (elem h.ty q)]
    else [[elem h.ty p 0, elem h.ty p 1, elem h.ty q 0, elem h.ty q 1]]
  Completes (.compress h (.reg n) a b vm slot) (sigCompress h (.reg n) a b vm slot) Always (fun x s t =>
    OnlyGroup x.g s t ∧ ∃ g, grpOf t x.g = some g ∧
      g = { x.grp with v := g.v, stack := g.stack, turn := g.turn, waitFrom := g.waitFrom } ∧ MovedOn x g ∧
      (∀ m l, l < 64 → ¬ (laneOn x.mask l = true ∧ (m = n ∨ m = vm)) → vget g m l = vget x.grp m l) ∧
      ∀ l, l < 64 → laneOn x.mask l = true → ∀ q, q < (groups (srcVal x false a l) (srcVal x false b l)).length →
        let es := (groups (srcVal x false a l) (srcVal x false b l)).getD q []
        let word := (vget g n l).toNat
        let meta8 := (vget g vm l).toNat / 2 ^ (8 * slot) % 256
        ∃ i j, keeps h.ty es i j ∧ elem h.ty word (2 * q) = es.getD i 0 ∧ elem h.ty word (2 * q + 1) = es.getD j 0 ∧
          meta8 / 16 ^ q % 16 = i + 4 * j ∧ (h.ty.width = 16 → meta8 < 16) ∧
          ∀ k, k < 4 → k ≠ slot → (vget g vm l).toNat / 2 ^ (8 * k) % 256 = (vget x.grp vm l).toNat / 2 ^ (8 * k) % 256) ∧
  Completes (.expand h (.reg n) a v slot) (sigExpand h (.reg n) a v slot) Always (fun x s t =>
    OnlyGroup x.g s t ∧ ∃ g, grpOf t x.g = some g ∧
      g = { x.grp with v := g.v, stack := g.stack, turn := g.turn, waitFrom := g.waitFrom } ∧ MovedOn x g ∧
      (∀ m l, l < 64 → ¬ (laneOn x.mask l = true ∧ (m = n ∨ m = n + 1)) → vget g m l = vget x.grp m l) ∧
      ∀ l, l < 64 → laneOn x.mask l = true → ∀ i, i < 8 →
        let m := srcVal x false v l / 2 ^ (8 * slot) % 256
        let val := fun j => elem h.ty (srcVal x false a l) j
        let put := fun (m k0 k1 i : Nat) => if i = m / 4 % 4 then k1 else if i = m % 4 then k0 else 0
        if h.ty.width = 8 then
          elem h.ty (vget g (n + i / 4) l).toNat (i % 4) = put (m / 16 ^ (i / 4) % 16) (val (2 * (i / 4))) (val (2 * (i / 4) + 1)) (i % 4)
        else i < 4 → elem h.ty (vget g (n + i / 2) l).toNat (i % 2) = put (m % 16) (val 0) (val 1) i)

/-- The integer and bitwise reductions, and redmin and redmax on f32, complete with the combination of the active lanes' values, inactive
lanes counting as the identity; the destination is a vector or a k register. -/
def Sys2Proof.Stmt.Reductions : Prop := ∀ (h : Hdr) (d : VDst) (a : VSrc),
  let P := fun op => fun (x : Iss) (s t : State) => ∃ r, RedDone h d r x s t ∧ isRed h.ty op .rne 0 (actives h a x) r
  (h.ty = .i32 ∨ h.ty = .n32 ∨ h.ty = .i64 ∨ h.ty = .n64 ∨ h.ty = .f32 →
    Completes (.redmin h d a) (sigRedmin h d a) Always (P .min) ∧
    Completes (.redmax h d a) (sigRedmax h d a) Always (P .max) ∧
    (h.ty ≠ .f32 → Completes (.redadd h d a) (sigRedadd h d a) Always (P .add)) ∧
    (h.ty = .f32 → Completes (.redadd h d a) (sigRedadd h d a) (fun x _ => modeOf h x ≠ .sr) (fun x s t => ∃ r, RedDone h d r x s t ∧
      isRed .f32 .add (modeOf h x) 0 (actives h a x) r)) ∧
    (h.ty = .f32 → Completes (.redadd h d a) (sigRedadd h d a) (fun x _ => modeOf h x = .sr) (fun x s t =>
      OnlyGroup x.g s t ∧ ∃ g w r, grpOf t x.g = some g ∧ MovedOn x g ∧ isRed .f32 .add .sr w (actives h a x) r ∧
      g = { x.grp with v := g.v, k := g.k, gens := g.gens, ctrs := g.ctrs, stack := g.stack, turn := g.turn, waitFrom := g.waitFrom } ∧
      (∀ l, l < 64 → laneOn x.mask l = true → (∀ j, j < l → laneOn x.mask j = false) →
        let dr := drawN x.lrec.seed x.blk.bid (16 * 2 ^ bits x.grp.dsectl.toNat 2 0) (bits x.ent.fmt.toNat 18 15) l 1 x.grp
        w = dr.1.headD 0 ∧ g.gens = dr.2.gens ∧ g.ctrs = dr.2.ctrs) ∧
      (∀ n, kget g n = if d = .k n ∧ h.nw = false then BitVec.ofNat 64 r else kget x.grp n) ∧
      ∀ n l, l < 64 → vget g n l = if d = .reg n ∧ h.nw = false ∧ laneOn x.mask l = true then BitVec.ofNat 32 r else vget x.grp n l))) ∧
  (h.ty = .b32 ∨ h.ty = .n64 →
    Completes (.redand h d a) (sigRedand h d a) Always (P .and) ∧
    Completes (.redor h d a) (sigRedor h d a) Always (P .or) ∧
    Completes (.redxor h d a) (sigRedxor h d a) Always (P .xor))

/-- The index forms write the extreme as the base forms do and then, to the index destination, the value of the index source in the
lowest active lane that holds the extreme; with no active lane a k index destination receives 64 and a vector one stays. (That the index
is written after the extreme, which shows where the two destinations meet, is the model's choice: log entry 19.) -/
def Sys2Proof.Stmt.ReductionIndex : Prop := ∀ (h : Hdr) (d di : VDst) (a b : VSrc),
  h.ty = .i32 ∨ h.ty = .n32 ∨ h.ty = .i64 ∨ h.ty = .n64 ∨ h.ty = .f32 →
  let P := fun op => fun (x : Iss) (s t : State) => ∃ s1 g1 g r y, RedDone h d r x s s1 ∧ isRed h.ty op .rne 0 (actives h a x) r ∧
    OnlyGroup x.g s1 t ∧ grpOf s1 x.g = some g1 ∧ grpOf t x.g = some g ∧ g = { g1 with v := g.v, k := g.k } ∧
    (∀ n l, l < 64 → vget g n l = laneAfter h.nw h.ty.pair di x.mask (fun _ => y) g1 n l) ∧
    (∀ n, kget g n = if di = .k n ∧ h.nw = false then
      (if x.mask = 0 then 64 else if h.ty = .i32 then (BitVec.ofNat 32 y).signExtend 64 else BitVec.ofNat 64 y) else kget g1 n) ∧
    (x.mask ≠ 0 → ∃ l, l < 64 ∧ laneOn x.mask l = true ∧ y = src h b x l ∧
      ((∀ j, j < l → laneOn x.mask j = true → src h a x j ≠ r) ∧ src h a x l = r ∨
        (h.ty = .f32 ∧ fmtF32.decode r = .nan ∧ ∀ j, j < l → laneOn x.mask j = false)))
  Completes (.redminIndex h d di a b) (sigRedminIndex h d di a b) Always (P .min) ∧
  Completes (.redmaxIndex h d di a b) (sigRedmaxIndex h d di a b) Always (P .max)

/-- scan writes to each active lane the combination of the active lanes up to and including it, in the exclusive forms strictly below it;
an f32 sum is rounded once in FMT.RND, drawing one word for each lane under SR. -/
def Sys2Proof.Stmt.Scans : Prop := ∀ (h : Hdr) (d : VDst) (a : VSrc),
  let op : RedOp := match h.mod % 8 with
    | 0 => .add
    | 1 => .min
    | 2 => .max
    | 3 => .and
    | 4 => .or
    | _ => .xor
  (h.mod % 8 < 3 ∧ (h.ty = .i32 ∨ h.ty = .n32 ∨ h.ty = .i64 ∨ h.ty = .n64 ∨ h.ty = .f32)) ∨
    (3 ≤ h.mod % 8 ∧ h.mod % 8 < 6 ∧ (h.ty = .b32 ∨ h.ty = .n64)) →
  let mode : Iss → Rnd := fun x => if h.ty = .f32 ∧ h.mod % 8 = 0 then modeOf { h with mod := 5 } x else .rne
  Completes (.scan h d a) (sigScan h d a) Always (RoundDone h d mode 1 fun x w l r =>
    let below := (activeLanes x.mask).filter fun j => if 8 ≤ h.mod then decide (j < l) else decide (j ≤ l)
    isRed h.ty op (mode x) (if mode x = .sr then w l 0 else 0) (below.map (src h a x)) r)

/-- The votes and mask operations of MAJ 0x16 complete: ballot, vany, vall and mcnt write a k register, elect and mlog a whole mask
register; a write to m0 is discarded. -/
def Obligations.VotesAndMasks : Prop := ∀ (h : Hdr) (kd md ms ma mb : Nat) (a : VSrc), h.ty = .b32 → h.hold = 0 →
  let on := fun (x : Iss) (l : Nat) => laneOn x.mask l = true ∧ srcVal x false a l ≠ 0
  let K := fun P : Iss → W64 → Prop => fun (x : Iss) (s t : State) => ∃ v, UniDone h.nw 0 kd (fun _ _ => v) x s t ∧ P x v
  let M := fun P : Iss → Mask → Prop => fun (x : Iss) (s t : State) =>
    OnlyGroup x.g s t ∧ ∃ g, grpOf t x.g = some g ∧ g = { x.grp with m := g.m, stack := g.stack, turn := g.turn, waitFrom := g.waitFrom } ∧
      MovedOn x g ∧ (∀ n, n ≠ md → mget g n = mget x.grp n) ∧ (md ≠ 0 → P x (mget g md))
  Completes (.ballot h kd a) (sigBallot h kd a) Always (K fun x v => ∀ l, l < 64 → (v.getLsbD l = true ↔ on x l)) ∧
  Completes (.vany h kd a) (sigVany h kd a) Always
    (K fun x v => ((∃ l, l < 64 ∧ on x l) → v = 1) ∧ ((∀ l, l < 64 → ¬ on x l) → v = 0)) ∧
  Completes (.vall h kd a) (sigVall h kd a) Always (K fun x v =>
    ((∀ l, l < 64 → laneOn x.mask l = true → on x l) → v = 1) ∧ ((∃ l, l < 64 ∧ laneOn x.mask l = true ∧ ¬ on x l) → v = 0)) ∧
  Completes (.mcnt h kd ms) (sigMcnt h kd ms) Always
    (K fun x v => v = BitVec.ofNat 64 (lanes.filter fun l => laneOn x.mask l && laneOn (mget x.grp ms) l).length) ∧
  Completes (.elect h md ms) (sigElect h md ms) Always (M fun x v => ∀ l, l < 64 → (laneOn v l = true ↔
    laneOn (x.mask &&& mget x.grp ms) l = true ∧ ∀ j, j < l → laneOn (x.mask &&& mget x.grp ms) j = false)) ∧
  Completes (.mlog h md ma mb) (sigMlog h md ma mb) Always (M fun x v =>
    (h.mod = 0 → v = mget x.grp ma &&& mget x.grp mb) ∧ (h.mod = 1 → v = mget x.grp ma ||| mget x.grp mb) ∧
    (h.mod = 2 → v = mget x.grp ma ^^^ mget x.grp mb) ∧ (h.mod = 3 → v = mget x.grp ma &&& ~~~(mget x.grp mb)) ∧
    (h.mod = 4 → v = ~~~(mget x.grp ma)) ∧ (h.mod = 5 → v = mget x.grp ma) ∧ (h.mod = 6 → v = x.mask))

/-! ## Control, launch, barrier and register-model instructions (MAJ 0x00 to 0x04) -/

namespace Sys2Proof.Stmt

open Sys2Proof Sys2Proof.Machine

/-- The condition of a branch in lane l (R332). -/
def cond (x : Iss) (c : Nat) (neg : Bool) (l : Nat) : Bool := laneOn (mget x.grp c) l != neg

/-- The path has a lane, and `P` holds in each of its lanes. -/
def inEvery (x : Iss) (P : Nat → Prop) : Prop :=
  (∃ l, l < 64 ∧ laneOn x.ent.mask l = true) ∧ ∀ l, l < 64 → laneOn x.ent.mask l = true → P l

/-- `P` holds in some lane of the path. -/
def inSome (x : Iss) (P : Nat → Prop) : Prop := ∃ l, l < 64 ∧ laneOn x.ent.mask l = true ∧ P l

/-- The address `off` units of four bytes from the instruction. -/
def branchTo (off : W32) : Iss → State → W64 := fun x _ => x.ent.pc + off.signExtend 64 * 4

/-- A trap without access words (R163). -/
def plain (c : TrapCode) (words : Nat) : Iss → State → Trap := fun _ _ => ⟨c, BitVec.ofNat 256 words, false, none⟩

/-- The trap PROT, CAUSE 0, or ALIGN of a write that names the address `va` (R162): RESTART is 1, nothing is done. -/
def named (c : TrapCode) (va : Iss → W64) : Iss → State → Trap := fun x _ => ⟨c, BitVec.ofNat 256 ((va x).toNat * 2 ^ 192), true, none⟩

/-- The view of a path that goes on with another FMT. -/
def withFmt (v : W64) (x : Iss) : Iss := { x with ent := { x.ent with fmt := v } }

/-- The view of a path that goes on waiting. -/
def waiting (w : Wait) (x : Iss) : Iss := { x with ent := { x.ent with wait := w } }

/-- The fields of a stack entry that a program can tell apart, but for SIB. -/
def faceOf (e : Entry) : W64 × Mask × W64 × W64 × Wait := (e.pc, e.mask, e.rpc, e.fmt, e.wait)

end Sys2Proof.Stmt

/-- R332 to R334 and R331: a branch whose condition holds in every lane of the path, or in none, goes to its target or to the next
instruction, and one whose lanes differ traps with UNIF and moves no lane; brx goes to the one value that its lanes
hold, and traps with UNIF if they differ and with ILL if it is no multiple of 4; call writes the address of the next instruction and
goes to its target; ret goes to ka, and traps with ILL if it is no multiple of 4. Nothing else changes. -/
def Sys2Proof.Stmt.Branches : Prop := ∀ (c kd ka : Nat) (neg nw : Bool) (off : W32) (a : VSrc),
  Completes .nop sigNop Always (GroupDone npcOf same) ∧
  Completes (.bra c neg off) (sigBra c neg off) (fun x _ => inEvery x fun l => cond x c neg l = true) (GroupDone (branchTo off) same) ∧
  Completes (.bra c neg off) (sigBra c neg off) (fun x _ => inEvery x fun l => cond x c neg l = false) (GroupDone npcOf same) ∧
  Traps (.bra c neg off) (sigBra c neg off) false
    (fun x _ => (inSome x fun l => cond x c neg l = true) ∧ inSome x fun l => cond x c neg l = false) (plain .unif 0) ∧
  (∀ v : W64, v.toNat % 4 = 0 →
    Completes (.brx a) (sigBrx a) (fun x _ => inEvery x fun l => srcVal x true a l = v.toNat) (GroupDone (fun _ _ => v) same)) ∧
  (∀ v : W64, v.toNat % 4 ≠ 0 →
    Traps (.brx a) (sigBrx a) false (fun x _ => inEvery x fun l => srcVal x true a l = v.toNat) (plain .ill (sigBrx a).word)) ∧
  (∀ v : Nat, Traps (.brx a) (sigBrx a) false
    (fun x _ => (inSome x fun l => srcVal x true a l = v) ∧ inSome x fun l => srcVal x true a l ≠ v) (plain .unif 0)) ∧
  Completes (.call nw kd off) (sigCall nw kd off) Always (GroupDone (branchTo off) fun x _ g => if nw then g else kset kd (x.ent.pc + 12) g) ∧
  Completes (.ret ka) (sigRet ka) (fun x _ => (kget x.grp ka).toNat % 4 = 0) (GroupDone (fun x _ => kget x.grp ka) same) ∧
  Traps (.ret ka) (sigRet ka) false (fun x _ => (kget x.grp ka).toNat % 4 ≠ 0) (plain .ill (sigRet ka).word)

/-- R224, R229 and R332: brd goes to its target or to the next instruction where all lanes agree. Where they differ, the issuing entry waits
at rpc and two live entries stand above: the lanes whose condition holds at the target, with SIB, and the others at the next
instruction, each with rpc, FMT and no wait. A push of a full stack without a spill place traps with PROT, CAUSE 0. -/
def Sys2Proof.Stmt.DivergentBranch : Prop := ∀ (c : Nat) (neg : Bool) (tgt rpc : W32),
  Completes (.brd c neg tgt rpc) (sigBrd c neg tgt rpc) (fun x _ => inEvery x fun l => cond x c neg l = true)
    (GroupDone (branchTo tgt) same) ∧
  Completes (.brd c neg tgt rpc) (sigBrd c neg tgt rpc) (fun x _ => inEvery x fun l => cond x c neg l = false) (GroupDone npcOf same) ∧
  Completes (.brd c neg tgt rpc) (sigBrd c neg tgt rpc)
    (fun x _ => (inSome x fun l => cond x c neg l = true) ∧ (inSome x fun l => cond x c neg l = false) ∧ x.grp.onChip ≤ 14)
    (fun x s t => OnlyGroup x.g s t ∧ ∃ g e1 e2 r, grpOf t x.g = some g ∧
      g = { x.grp with stack := g.stack, onChip := x.grp.onChip + 2, turn := g.turn, waitFrom := g.waitFrom } ∧
      g.stack = e1 :: e2 :: r ∧ r.length = x.grp.stack.length ∧
      (∀ l, l < 64 → laneOn e1.mask l = (laneOn x.ent.mask l && cond x c neg l)) ∧
      (∀ l, l < 64 → laneOn e2.mask l = (laneOn x.ent.mask l && !cond x c neg l)) ∧
      e1.pc = branchTo tgt x s ∧ e2.pc = x.ent.pc + 16 ∧ e1.sib = true ∧ e2.sib = false ∧
      (∀ e ∈ [e1, e2], e.rpc = branchTo rpc x s ∧ e.fmt = x.ent.fmt ∧ e.wait = .none) ∧
      ∀ n, (r[n]?).map faceOf =
        if n = x.g.low.toNat then some (branchTo rpc x s, x.ent.mask, x.ent.rpc, x.ent.fmt, x.ent.wait)
        else (x.grp.stack[n]?).map faceOf) ∧
  Traps (.brd c neg tgt rpc) (sigBrd c neg tgt rpc) true
    (fun x _ => (inSome x fun l => cond x c neg l = true) ∧ (inSome x fun l => cond x c neg l = false) ∧ 14 < x.grp.onChip ∧
      x.grp.dstk = 0) (named .prot fun _ => 0)

/-- R227, R335 and R337: exit takes the lanes of its path out of every entry, in handler mode those of the trapping path with them, and ends
handler mode; the entries that keep a lane stay as they were, and the group exits when no lane remains, which closes its batch (R416): with 255
open on path 4 it waits first. yield ends its issue with its path not ready for 64 cycles (mcyc counts thousandths of a cycle), at whose end an event wakes it. -/
def Obligations.ExitAndYield : Prop :=
  (∀ m : Mask,
    let ends := fun (x : Iss) (e : Entry) => e.mask &&& ~~~m = 0 ∧ m = exitLanes x
    Completes .exit sigExit (fun x _ => m = exitLanes x ∧ ∃ e ∈ x.grp.stack, ¬ ends x e) (fun x s t =>
      OnlyGroup x.g { s with agenda := t.agenda } t ∧ ∃ g, grpOf t x.g = some g ∧
        g = { x.grp with stack := g.stack, turn := g.turn, waitFrom := g.waitFrom, onChip := g.onChip, handler := none } ∧
        g.stack.map faceOf = ((x.grp.stack.map fun e => { e with mask := e.mask &&& ~~~m }).filter (·.mask != 0)).map faceOf) ∧
    Completes .exit sigExit (fun x _ => (∀ e ∈ x.grp.stack, ends x e) ∧ cnt x.grp 4 < 255) (fun x _ t =>
      ∃ g, grpOf t x.g = some g ∧ g.exited = true ∧ g.stack = [] ∧ g.handler = none ∧ g.k = x.grp.k ∧ g.v = x.grp.v ∧
        g.nextBatch = x.grp.nextBatch + 1) ∧
    Stalls .exit sigExit (fun x _ => (∀ e ∈ x.grp.stack, ends x e) ∧ 255 ≤ cnt x.grp 4)) ∧
  (∀ x : Iss, x.grp.handler = none → exitLanes x = x.ent.mask) ∧
  Completes .yield sigYield Always (fun x s t =>
    GroupDone npcOf same (waiting (.yielding (s.mcyc + 64000)) x) { s with agenda := t.agenda } t ∧
      t.agenda = s.agenda ++ [⟨s.ns, s.mcyc + 64000, .yieldExpiry x.g⟩])

/-- R160 and R161: where TVEC is not 0, the group is not in handler mode and the record fits in the slab, a trap writes its record to the 64
bytes at TREC and no other byte of the slab, and the trapping path goes on at TVEC in handler mode with its mask and stack
depth, and the distance of the trapping instruction from the record's PC; all else stays but for answers that uncached accesses of the path had
still to take (`asks`) and the fill of the record's granule of the slab, which is asked for where it is absent (R193). Otherwise the context stops with STOPC at the code, its running launches end as KILLED, and a record of CAUSE 5 waits with the code and
the PC, while no block changes. -/
def Sys2Proof.Stmt.TrapEntry : Prop := ∀ (x : Iss) (tr : Trap) (chain : Bool) (pc npc : W64) (mask : Mask) (inst : W64) (s : State) (b : Block),
  blkOf s x.g.blk = some b → (grpIn b x.g.gid).isSome → x.grp.gid = x.g.gid →
  (∃ e, liveEntry x.grp x.g.low = some e ∧ e.mask = x.ent.mask) →
  let t := enterTrap x chain tr pc npc mask inst s
  (x.grp.tvec ≠ 0 → x.grp.handler = none → x.grp.trec + 64 ≤ 256 * x.lrec.slab →
    t = { s with blocks := t.blocks, coh := t.coh, agenda := t.agenda } ∧ t.coh = { s.coh with asks := t.coh.asks } ∧
    (Granule.slab (x.grp.trec / 2048) ∉ x.blk.absent → t.agenda = s.agenda) ∧
    (Granule.slab (x.grp.trec / 2048) ∈ x.blk.absent → ∃ d ∈ t.agenda, d.ev = .granuleFill x.g.blk (.slab (x.grp.trec / 2048))) ∧ ∃ g b', grpOf t x.g = some g ∧ blkOf t x.g.blk = some b' ∧
      g = { x.grp with stack := g.stack, turn := g.turn, waitFrom := g.waitFrom,
                       handler := some ⟨x.grp.stack.length, x.g.low, inst - pc⟩ } ∧
      (∃ e, liveEntry g x.g.low = some e ∧ e.pc = x.grp.tvec ∧ e.mask = x.ent.mask ∧ e.wait = .none) ∧
      g.stack.length = x.grp.stack.length ∧ (∀ n, n ≠ x.g.low.toNat → g.stack[n]? = x.grp.stack[n]?) ∧
      b' = { b with groups := b'.groups, slab := b'.slab } ∧
      (∀ o, o < x.grp.trec ∨ x.grp.trec + 64 ≤ o → FMap.get 0 b'.slab o = FMap.get 0 b.slab o) ∧
      let r := ofBytes (slabRead b' x.grp.trec 64)
      bits r 255 192 = pc.toNat ∧ bits r 191 128 = npc.toNat ∧ bits r 127 64 = mask.toNat ∧ bits r 63 48 = x.ctx % 2 ^ 16 ∧
      bits r 47 40 = trapNum tr.code ∧ bits r 39 24 = x.blk.bid % 2 ^ 16 ∧ bits r 23 19 = x.grp.gid % 32 ∧
      bits r 18 15 = coreRank x.core % 16 ∧ bits r 14 11 = coreFile x.core % 16 ∧ bit r 10 = x.g.low ∧ bit r 9 = tr.restart ∧
      bit r 8 = chain ∧ bits r 7 0 = 0 ∧ r / 2 ^ 256 = tr.words.toNat) ∧
  ((x.grp.tvec = 0 ∨ x.grp.handler.isSome ∨ 256 * x.lrec.slab < x.grp.trec + 64) →
    ∀ c, ctxOf s x.ctx = some c → c.vf < s.faultQs.length →
      ctxOf t x.ctx = some { c with cst := 3, stopc := trapNum tr.code } ∧ t.blocks = s.blocks ∧ t.mem = s.mem ∧
      (∀ l ∈ t.launches, l.ctx = x.ctx → l.status ≠ .running) ∧
      ∃ r, (fqOf t c.vf).waiting = (fqOf s c.vf).waiting ++ [r] ∧ r.ctx = x.ctx ∧ r.cause = 5 ∧
        r.info = BitVec.ofNat 64 (trapNum tr.code + (pc.toNat % 2 ^ 48) * 2 ^ 16))

namespace Sys2Proof.Stmt

open Sys2Proof Sys2Proof.Machine

/-- The context stops at the instruction with trap `code` (R160): CST and STOPC, its running launches killed, a CAUSE 5 record that names the PC;
the group and memory are as they were. -/
def StopsHere (code : Nat) (x : Iss) (s t : State) : Prop := ∀ c, ctxOf s x.ctx = some c → c.vf < s.faultQs.length →
  ctxOf t x.ctx = some { c with cst := 3, stopc := code } ∧ grpOf t x.g = some x.grp ∧ t.mem = s.mem ∧
    (∀ l ∈ t.launches, l.ctx = x.ctx → l.status ≠ .running) ∧
    ∃ r, (fqOf t c.vf).waiting = (fqOf s c.vf).waiting ++ [r] ∧ r.ctx = x.ctx ∧ r.cause = 5 ∧
      r.info = BitVec.ofNat 64 (code + (x.ent.pc.toNat % 2 ^ 48) * 2 ^ 16)

end Sys2Proof.Stmt

/-- R163, R336 and R337: trap raises SOFT with its immediate in the trap words, and a trap at the instruction leaves the group as it was before
it. tret outside handler mode raises ILL, at another stack depth UNIF and for a PC or NPC that is no multiple of 4 ILL, which stop the context at the
instruction (R355); otherwise it ends handler mode, and the path goes on at the record's NPC, or under RESTART at its PC with the lanes that the
record leaves to the instruction that trapped. -/
def Sys2Proof.Stmt.SoftTrapAndReturn : Prop :=
  (∀ imm : W32, Traps (.trap imm) (sigTrap imm) false Always (plain .soft imm.toNat)) ∧
  Completes .tret sigTret (fun x _ => x.grp.handler = none) (StopsHere 1) ∧
  (∀ h : Handler, Completes .tret sigTret (fun x _ => x.grp.handler = some h ∧ x.grp.stack.length ≠ h.depth) (StopsHere 2)) ∧
  (∀ (h : Handler) (pc npc : W64),
    let r := fun x : Iss => ofBytes (slabRead x.blk x.grp.trec 64)
    let at_ := fun (x : Iss) (again : Bool) => x.grp.handler = some h ∧ x.grp.stack.length = h.depth ∧
      bits (r x) 255 192 = pc.toNat ∧ bits (r x) 191 128 = npc.toNat ∧ bit (r x) 9 = again
    let ends := fun _ (_ : State) (g : Group) => { g with handler := none }
    (npc.toNat % 4 = 0 → pc.toNat % 4 = 0 → Completes .tret sigTret (fun x _ => at_ x false) (GroupDone (fun _ _ => npc) ends)) ∧
    (npc.toNat % 4 = 0 → pc.toNat % 4 = 0 → Completes .tret sigTret (fun x _ => at_ x true) (fun x s t =>
      GroupDone (fun _ _ => pc) ends x s t ∧ ∃ g e m, grpOf t x.g = some g ∧ liveEntry g x.g.low = some e ∧
        e.reissue = some (m, npc, pc + h.off) ∧ ∀ l, l < 64 → (laneOn m l = true ↔ bit (r x) (64 + l) = true ∧
          ¬ (bits (r x) 47 40 ∈ [3, 4, 7, 11] ∧ bit (r x) (256 + 128 + l) = true)))) ∧
    (npc.toNat % 4 ≠ 0 ∨ pc.toNat % 4 ≠ 0 → ∀ again, Completes .tret sigTret (fun x _ => at_ x again) (StopsHere 1)))

/-- The launches of the issuing group's block that have not ended, and those of its paths that have taken a handle and not yet read the record. -/
def Sys2Proof.Stmt.openOf (x : Iss) (s : State) : Nat :=
  (x.blk.issued.filter fun l => (launchOf s l).any (·.status == .running)).length +
    (x.blk.groups.map fun g => (g.stack.filter (·.launching.isSome)).length).sum

/-- R338 to R340, R172, R173 and R180: launch and spawn write the context's next handle and hold the record's address, and then, with the path at the
instruction still, read that record and start a launch with that handle at the next depth and the issuing launch's priority (launch numbers are the
model's own, and no path waits on a handle not yet given); an address that is not canonical or not 128-byte aligned gives status BADREC at once. At
depth 10 they trap with LAUNCH.DEPTH; with 64 launches of the block still running they wait. lwait writes 0 for handle 0, 3 for a handle that
names no launch of the context, the status of one that has ended, and waits for one that runs. The model's choices (log entries): that launches are numbered (20) and that a launch into a stopped context is killed (44). -/
def Obligations.Launching : Prop := ∀ (nw spawn : Bool) (kd ka : Nat) (arg : Option Nat),
  let i : Instr := if spawn then .spawn nw kd ka arg else .launch nw kd ka
  let g : Sig := if spawn then sigSpawn nw kd ka arg else sigLaunch nw kd ka
  let few := fun (x : Iss) (s : State) => x.lau.depth < 10 ∧
    Stmt.openOf x s < 64 ∧ relReady x s = true ∧ x.ent.launching = none
  let takes := fun (x : Iss) (s t : State) => ∀ c, ctxOf s x.ctx = some c → ∃ g e, grpOf t x.g = some g ∧
    kget g kd = (if nw then kget x.grp kd else BitVec.ofNat 64 c.handle) ∧ (∃ c', ctxOf t x.ctx = some c' ∧ c'.handle = c.handle + 1) ∧
    liveEntry g x.g.low = some e ∧ e.pc = x.ent.pc ∧ t.launches = s.launches ∧
    e.launching = some (c.handle, kget x.grp ka, if spawn then arg.map (kget x.grp) else none)
  let starts := fun (r h : Nat) (k0 : Option W64) (x : Iss) (s t : State) => ∀ c, ctxOf s x.ctx = some c → c.cst ≠ 3 →
    (∀ l ∈ s.launches, l.id < s.nextId) → (∀ e ∈ x.grp.stack, ∀ k, e.wait ≠ .lwait k h) →
    (∃ g e, grpOf t x.g = some g ∧ liveEntry g x.g.low = some e ∧ e.launching = none ∧ (x.ent.reissue = none → e.pc = x.npc)) ∧
    ∃ l ∈ t.launches, l.ctx = x.ctx ∧ l.handle = h ∧ l.depth = x.lau.depth + 1 ∧ l.prio = min x.lau.prio 7 ∧
      l.parent = some x.g.blk ∧ l.lrec = lrecOf spawn r ∧ l.k0 = k0 ∧
      (lrecOk r (lrecOf spawn r) = false → l.status = .badrec)
  let has := fun (x : Iss) (h : Nat) (va : W64) (k0 : Option W64) => x.lau.depth < 10 ∧ x.ent.launching = some (h, va, k0)
  Traps i g false (fun x _ => 10 ≤ x.lau.depth) (plain .launchDepth 0) ∧
  Completes i g few takes ∧
  (∀ h va k0, Completes i g (fun x _ => has x h va k0 ∧ (va.toNat % 128 ≠ 0 ∨ canonical va = false)) (starts 0 h k0)) ∧
  (∀ (bs : List Byte) (h : Nat) (va : W64) (k0 : Option W64), Completes i g
    (fun x s => has x h va k0 ∧ va.toNat % 128 = 0 ∧ canonical va = true ∧
      ∃ s', readAt (.core x.core) (groupKey x.g) x.ctx va 128 (advance g x s) = .ok bs s') (starts (ofBytes bs) h k0)) ∧
  Completes i g (fun x s => x.lau.depth < 10 ∧ 64 ≤ Stmt.openOf x s ∧ x.ent.launching = none)
    (fun x s t => OnlyGroup x.g { s with agenda := t.agenda } t ∧ ∃ g e, grpOf t x.g = some g ∧ liveEntry g x.g.low = some e ∧ e.pc = x.ent.pc ∧
      e.wait = .launchLimit ∧ g = { x.grp with stack := g.stack }) ∧
  Completes (.lwait nw kd ka) (sigLwait nw kd ka) (fun x _ => kget x.grp ka = 0) (UniDone nw 0 kd fun _ _ => 0) ∧
  Completes (.lwait nw kd ka) (sigLwait nw kd ka)
    (fun x s => kget x.grp ka ≠ 0 ∧ ∀ l ∈ s.launches, ¬ (l.ctx = x.ctx ∧ l.handle = (kget x.grp ka).toNat))
    (UniDone nw 0 kd fun _ _ => 3) ∧
  (∀ l : Launch,
    let this := fun (x : Iss) (s : State) => kget x.grp ka ≠ 0 ∧
      (s.launches.find? fun m => m.ctx == x.ctx && m.handle == (kget x.grp ka).toNat) = some l
    (l.status ≠ .running → Completes (.lwait nw kd ka) (sigLwait nw kd ka) this (UniDone nw 0 kd fun _ _ => match l.status with
      | .running => 0
      | .done => 0
      | .badrec => 1
      | .nofit => 2
      | .killed => 3)) ∧
    (l.status = .running → Completes (.lwait nw kd ka) (sigLwait nw kd ka) this (fun x s t => GroupDone npcOf same
      (waiting (.lwait (if nw then none else some kd) (kget x.grp ka).toNat) x) { s with agenda := t.agenda } t)))

namespace Sys2Proof.Stmt

open Sys2Proof Sys2Proof.Machine

/-- An arrival of `who` at a barrier of `all` participants (R342): the first of a phase sets the expected count; one group counts once; under
the all-participants count those that have exited count; a complete phase clears the arrivals and moves the phase number on. -/
def Arrives (all count : Nat) (exited : List (Nat × Nat)) (who : Nat × Nat) (a b : Barrier) : Prop :=
  let e := if a.arrived = [] then (if count = 0 ∨ all < count then all else count) else a.expected
  let here := if who ∈ a.arrived then a.arrived else a.arrived ++ [who]
  let n := here.length + if e = all then (exited.filter fun w => decide (w ∉ here)).length else 0
  (e ≤ n → b = ⟨e, [], a.phase + 1⟩) ∧ (n < e → b = ⟨e, here, a.phase⟩)

/-- The groups of a block that have exited. -/
def exitedIn (b : Block) : List (Nat × Nat) := (b.groups.filter (·.exited)).map fun g => (b.id, g.gid)

/-- The count operand of a barrier instruction. -/
def countArg (c : Option Nat) (x : Iss) : Nat := (c.map fun k => (kget x.grp k).toNat).getD 0

/-- After an arrival at block barrier n the barrier of the group's block is as R342 says, nothing outside the block changes, no group of the block
still waits on a phase that is complete, and of every group only waits have changed. -/
def BarArrived (n : Nat) (c : Option Nat) (x : Iss) (s t : State) (br : Barrier) : Prop :=
  Arrives (x.lrec.gpb + 1) (countArg c x) (exitedIn x.blk) (x.g.blk, x.g.gid) (FMap.get ⟨0, [], 0⟩ x.blk.barriers n) br ∧
  OnlyBlock x.g.blk s t ∧ ∃ b, blkOf t x.g.blk = some b ∧ FMap.get ⟨0, [], 0⟩ b.barriers n = br ∧
    (∀ m, m ≠ n → FMap.get ⟨0, [], 0⟩ b.barriers m = FMap.get ⟨0, [], 0⟩ x.blk.barriers m) ∧
    b = { x.blk with barriers := b.barriers, groups := b.groups } ∧
    (br.phase ≠ (FMap.get ⟨0, [], 0⟩ x.blk.barriers n).phase →
      ∀ g ∈ b.groups, ∀ e ∈ g.stack, ∀ p, e.wait = .bar n p → br.phase.toNat ≤ p) ∧
    ∀ m, m ≠ x.g.gid → (grpIn b m).map (fun g => { g with stack := [], ahead := none, waitFrom := 0 }) =
      (grpIn x.blk m).map fun g => { g with stack := [], ahead := none, waitFrom := 0 }

end Sys2Proof.Stmt

/-- R342 and R343 with the release of R261 met: bar arrives and waits for its phase unless it completes it; arrive arrives, writes the phase
number at its arrival and goes on; await goes on at once where the phase number exceeds kp, and waits otherwise. Before the
release is met, bar and arrive do not issue (the model's choice of R261's wait: log entry 18). -/
def Sys2Proof.Stmt.BlockBarriers : Prop := ∀ (n kd kp : Nat) (nw : Bool) (c : Option Nat),
  let old := fun x : Iss => (FMap.get ⟨0, [], 0⟩ x.blk.barriers n).phase
  let goes := fun (w : Wait) (x : Iss) (t : State) => ∃ g, grpOf t x.g = some g ∧ (x.ent.reissue = none → PathAt (waiting w x) x.npc g)
  Completes (.bar n c) (sigBar n c) (fun x s => relReady x s = true ∧ x.ent.wait = .none) (fun x s t =>
    ∃ br, BarArrived n c x s t br ∧ (br.phase = old x → goes (.bar n (old x).toNat) x t) ∧ (br.phase ≠ old x → goes .none x t)) ∧
  Completes (.arrive nw kd n c) (sigArrive nw kd n c) (fun x s => relReady x s = true ∧ x.ent.wait = .none) (fun x s t =>
    ∃ br, BarArrived n c x s t br ∧ goes .none x t ∧
      ∃ g, grpOf t x.g = some g ∧ kget g kd = if nw then kget x.grp kd else old x) ∧
  Stalls (.bar n c) (sigBar n c) (fun x s => relReady x s = false) ∧
  Stalls (.arrive nw kd n c) (sigArrive nw kd n c) (fun x s => relReady x s = false) ∧
  Completes (.await n kp) (sigAwait n kp) (fun x _ => (kget x.grp kp).toNat < (old x).toNat) (GroupDone npcOf same) ∧
  Completes (.await n kp) (sigAwait n kp) (fun x _ => (old x).toNat ≤ (kget x.grp kp).toNat)
    (fun x s t => GroupDone npcOf same (waiting (.bar n (kget x.grp kp).toNat) x) s t)

/-- R345 with R342 to R344: cbar arrives at the barrier that the named core holds and waits for its phase unless it completes it; a core that holds no
block of the set, or without CLM another core than the group's own, makes it trap with PROT, CAUSE 0, and nothing arrives. -/
def Sys2Proof.Stmt.ClusterBarrier : Prop := ∀ (n rank file : Nat) (c : Option Nat) (b : Block),
  let holds_ := fun (x : Iss) (s : State) => b.id = (if x.lrec.clm then b.id else x.g.blk) ∧ blkOf s b.id = some b ∧
    b.launch = x.blk.launch ∧ b.setId = x.blk.setId ∧ b.core = rank * 16 + file ∧
    ∀ d ∈ s.blocks, d.launch = b.launch → d.setId = b.setId → d.core = b.core → d = b
  let old := FMap.get ⟨0, [], 0⟩ b.cbarriers n
  let set := fun (x : Iss) (s : State) => s.blocks.filter fun d => d.launch == x.blk.launch && d.setId == x.blk.setId
  Completes (.cbar n c rank file) (sigCbar n c rank file) (fun x s => holds_ x s ∧ relReady x s = true ∧ x.ent.wait = .none) (fun x s t =>
    ∃ br b', Arrives ((x.lrec.gpb + 1) * (set x s).length) (countArg c x) ((set x s).flatMap exitedIn) (x.g.blk, x.g.gid) old br ∧
      blkOf t b.id = some b' ∧ FMap.get ⟨0, [], 0⟩ b'.cbarriers n = br ∧ t = { s with blocks := t.blocks } ∧
      ∃ g, grpOf t x.g = some g ∧ (x.ent.reissue = none →
        PathAt (waiting (if br.phase = old.phase then .cbar b.id n old.phase.toNat else .none) x) x.npc g)) ∧
  Traps (.cbar n c rank file) (sigCbar n c rank file) true (fun x s => if x.lrec.clm then
      ∀ d ∈ s.blocks, d.launch = x.blk.launch → d.setId = x.blk.setId → d.core ≠ rank * 16 + file
    else x.core ≠ rank * 16 + file) (named .prot fun _ => 0)

/-- R231 to R236 and R346: xacq joins the acquire queue and waits, and traps with XREG where the request could never be granted; the grant gives the head
of the queue its registers once they are free, all reading as 0; xrel returns the extended block and rgive its top registers, once nothing in
flight needs them; rclaim grows it at its top where that is possible at once, and writes 1 or 0. -/
def Sys2Proof.Stmt.RegisterPool : Prop := ∀ (n kd : Nat) (nw : Bool),
  let top := fun x : Iss => baseRegs x.lrec + x.grp.ext
  let pool := fun x : Iss => ((x.lrec.roles.take x.lrec.nrole).map fun r => 8 * r.xsz * (r.ghi + 1 - r.glo)).sum
  let bad := fun x : Iss => n = 0 ∨ 191 < n ∨ x.grp.ext ≠ 0 ∨ 1536 < baseRegs x.lrec + 8 * n ∨ pool x < 8 * n
  let gives := fun (k : Nat) (x : Iss) (s t : State) => ∃ b g, blkOf t x.g.blk = some b ∧ grpOf t x.g = some g ∧
    b.pool = x.blk.pool + k ∧ g = { x.grp with ext := x.grp.ext - k, stack := g.stack, turn := g.turn, waitFrom := g.waitFrom } ∧
    t = { s with blocks := t.blocks, agenda := t.agenda } ∧ (x.blk.acqQueue ≠ [] → ∃ d ∈ t.agenda, d.ev = .xacqGrant x.g.blk)
  Traps (.xacq n) (sigXacq n) true (fun x _ => bad x) (plain .xreg 0) ∧
  Completes (.xacq n) (sigXacq n) (fun x _ => ¬ bad x) (fun x s t => ∃ b g, blkOf t x.g.blk = some b ∧ grpOf t x.g = some g ∧
    b = { x.blk with groups := b.groups, acqQueue := x.blk.acqQueue ++ [s.nextId] } ∧
    (x.ent.reissue = none → PathAt (waiting (.xacq n none s.nextId) x) x.npc g) ∧
    t = { s with blocks := t.blocks, nextId := s.nextId + 1, agenda := s.agenda ++ [⟨s.ns, 0, .xacqGrant x.g.blk⟩] }) ∧
  Completes .xrel sigXrel (fun x _ => regsInUse x.grp (baseRegs x.lrec) (top x) = false) (fun x s t => gives x.grp.ext x s t) ∧
  Stalls .xrel sigXrel (fun x _ => regsInUse x.grp (baseRegs x.lrec) (top x) = true) ∧
  Traps (.rgive n) (sigRgive n) true (fun x _ => n = 0 ∨ 191 < n ∨ x.grp.ext < 8 * n) (plain .xreg 0) ∧
  Completes (.rgive n) (sigRgive n)
    (fun x _ => 0 < n ∧ n ≤ 191 ∧ 8 * n ≤ x.grp.ext ∧ regsInUse x.grp (top x - 8 * n) (top x) = false) (gives (8 * n)) ∧
  Traps (.rclaim nw kd n) (sigRclaim nw kd n) true (fun _ _ => n = 0 ∨ 191 < n) (plain .xreg 0) ∧
  Completes (.rclaim nw kd n) (sigRclaim nw kd n)
    (fun x _ => 0 < n ∧ n ≤ 191 ∧ 8 * n ≤ x.blk.pool ∧ x.blk.acqQueue = [] ∧ top x + 8 * n ≤ 1536) (fun x _ t =>
      ∃ b g, blkOf t x.g.blk = some b ∧ grpOf t x.g = some g ∧ b.pool = x.blk.pool - 8 * n ∧ g.ext = x.grp.ext + 8 * n ∧
        kget g kd = (if nw then kget x.grp kd else 1) ∧
        ∀ v l, l < 64 → vget g v l = if top x ≤ v ∧ v < top x + 8 * n then 0 else vget x.grp v l) ∧
  Completes (.rclaim nw kd n) (sigRclaim nw kd n)
    (fun x _ => 0 < n ∧ n ≤ 191 ∧ (x.blk.pool < 8 * n ∨ x.blk.acqQueue ≠ [] ∨ 1536 < top x + 8 * n)) (UniDone nw 0 kd fun _ _ => 0)

/-- R236 and R232: rolesw of a diverged group traps with UNIF and of a role that the record does not have with XREG; it waits at the instruction, in the waiting
state, while an operation of the group is in flight (R347); then it returns the extended block and, where the role needs no registers, takes the role and goes to its entry, and
otherwise queues for them. The grant of a queued request gives the head of the queue its registers, all reading as 0, once the pool holds
them, and takes the role of a rolesw. -/
def Sys2Proof.Stmt.RolesAndGrants : Prop := ∀ (n : Nat),
  let entry := fun x : Iss => x.lrec.entry + BitVec.ofNat 64 (32 * ((x.lrec.roles[n]?).map (·.eoff)).getD 0)
  let size := fun x : Iss => ((x.lrec.roles[n]?).map (·.xsz)).getD 0
  let quiet := fun (x : Iss) (s : State) => x.grp.stack.length ≤ 1 ∧ n < 4 ∧ n < x.lrec.nrole ∧ x.grp.flights = [] ∧
    (∀ e ∈ s.eng.mops, ∀ o ∈ e.2, ¬ (o.g.blk = x.g.blk ∧ o.g.gid = x.g.gid)) ∧
    regsInUse x.grp (baseRegs x.lrec) (baseRegs x.lrec + x.grp.ext) = false
  Traps (.rolesw n) (sigRolesw n) false (fun x _ => 1 < x.grp.stack.length) (plain .unif 0) ∧
  Traps (.rolesw n) (sigRolesw n) true (fun x _ => x.grp.stack.length ≤ 1 ∧ (4 ≤ n ∨ x.lrec.nrole ≤ n)) (plain .xreg 0) ∧
  Completes (.rolesw n) (sigRolesw n) (fun x _ => x.grp.stack.length ≤ 1 ∧ n < 4 ∧ n < x.lrec.nrole ∧ x.grp.flights ≠ []) (fun x s t =>
    OnlyGroup x.g s t ∧ ∃ g e, grpOf t x.g = some g ∧ liveEntry g x.g.low = some e ∧ e.pc = x.ent.pc ∧ e.wait = .rolesw ∧
      g = { x.grp with stack := g.stack }) ∧
  Completes (.rolesw n) (sigRolesw n) (fun x s => quiet x s ∧ size x = 0) (fun x _ t => ∃ b g, blkOf t x.g.blk = some b ∧
    grpOf t x.g = some g ∧ b.pool = x.blk.pool + x.grp.ext ∧ g.ext = 0 ∧ g.role = n ∧ PathAt x (entry x) g) ∧
  Completes (.rolesw n) (sigRolesw n) (fun x s => quiet x s ∧ size x ≠ 0) (fun x s t => ∃ b g e, blkOf t x.g.blk = some b ∧
    grpOf t x.g = some g ∧ b.pool = x.blk.pool + x.grp.ext ∧ b.acqQueue = x.blk.acqQueue ++ [s.nextId] ∧ g.ext = 0 ∧
    g.role = x.grp.role ∧ liveEntry g x.g.low = some e ∧ e.wait = .xacq (size x) (some n) s.nextId) ∧
  (∀ (s : State) (b : Block) (l : Launch) (g : Group) (req : Nat) (rest : List Nat) (k : Nat) (role : Option Nat) (e : Entry),
    blkOf s b.id = some b → launchOf s b.launch = some l → b.acqQueue = req :: rest → grpIn b g.gid = some g → g.stack = [e] →
    (∀ y ∈ b.groups, ∀ u ∈ y.stack, asks req u.wait = true → y = g) → e.wait = .xacq k role req → g.ext = 0 → 8 * k ≤ b.pool → b.state = .resident →
    ∃ t b' g' e', exec (.xacqGrant b.id) s = .next t ∧ blkOf t b.id = some b' ∧ grpIn b' g.gid = some g' ∧ b'.pool = b.pool - 8 * k ∧
      b'.acqQueue = rest ∧ g'.ext = 8 * k ∧ g'.role = role.getD g.role ∧ g'.stack = [e'] ∧ e'.wait = .none ∧
      e'.pc = (match role with
        | none => e.pc
        | some r => l.lrec.entry + BitVec.ofNat 64 (32 * ((l.lrec.roles[r]?).map (·.eoff)).getD 0)) ∧
      (∀ v j, j < 64 → vget g' v j = if baseRegs l.lrec ≤ v ∧ v < baseRegs l.lrec + 8 * k then 0 else vget g v j) ∧
      (rest ≠ [] → ∃ d ∈ t.agenda, d.ev = .xacqGrant b.id))

namespace Sys2Proof.Stmt

open Sys2Proof Sys2Proof.Machine

/-- The values that may be written to FMT (R276). -/
def fmtLegal (v : W64) : Prop :=
  let n := v.toNat
  let tys := [0x05, 0x06, 0x11, 0x12, 0x13, 0x14, 0x15]
  n < 2 ^ 24 ∧ n / 2 ^ 21 % 8 ≤ 4 ∧ n / 2 ^ 19 % 4 ≤ 1 ∧ n / 2 ^ 12 % 8 ≤ 4 ∧ n % 64 ∈ tys ∧ n / 64 % 64 ∈ tys

/-- The values that may be written to DSECTL (R434). -/
def dsectlLegal (v : W64) : Prop := v.toNat < 2 ^ 20 ∧ v.toNat / 8 % 32 = 0 ∧ v.toNat % 8 ≤ 4

/-- The control registers by number (R348, R221). -/
def control (x : Iss) (now : Nat) : Nat → W64
  | 0 => x.ent.fmt
  | 1 => BitVec.ofNat 64 x.grp.role
  | 2 => BitVec.ofNat 64 x.grp.accBase
  | 3 => BitVec.ofNat 64 x.grp.accLim
  | 4 => x.grp.tvec
  | 5 => BitVec.ofNat 64 x.grp.trec
  | 6 => x.grp.dstk
  | 7 => x.lrec.seed
  | 8 => x.grp.wlrec
  | 9 => x.grp.dsectl
  | 10 => BitVec.ofNat 64 x.grp.gid
  | 11 => BitVec.ofNat 64 x.blk.bid
  | 12 => BitVec.ofNat 64 x.lrec.blocks
  | 13 => BitVec.ofNat 64 (x.lrec.gpb + 1)
  | 14 =>
    let n := x.lrec.team + 1
    if x.lrec.team = 0 then 0 else BitVec.ofNat 64 (x.grp.gid / n * 256 + x.grp.gid % n * 16 + (n - 1))
  | 15 => BitVec.ofNat 64 x.lau.depth
  | 16 => BitVec.ofNat 64 (x.core / 16)
  | 17 => BitVec.ofNat 64 (x.core % 16)
  | _ => BitVec.ofNat 64 now

end Sys2Proof.Stmt

/-- R348 to R350 and R276: setfmt and cwr write the register they name where the value is legal; a value that is not traps (ILL for FMT and DSECTL, ALIGN or
PROT with the value as VADDR for TVEC, TREC and DSTK) and leaves the register as it was; cwr of any other register traps with ILL; crd,
getfmt and clock write the value of R348, clock the cycles since module reset. -/
def Obligations.ControlRegisters : Prop := ∀ (nw : Bool) (kd ka : Nat) (imm : W32),
  let v := fun x : Iss => kget x.grp ka
  let puts := fun (c : Nat) (f : W64 → Group → Group) (ok : Iss → Prop) => Completes (.cwr c ka) (sigCwr c ka) (fun x _ => ok x)
    (GroupDone npcOf fun x _ g => f (v x) g)
  let ill := fun (c : Nat) (bad : Iss → Prop) => Traps (.cwr c ka) (sigCwr c ka) true (fun x _ => bad x) (plain .ill (sigCwr c ka).word)
  let stops := fun (c : Nat) (code : TrapCode) (bad : Iss → Prop) => Traps (.cwr c ka) (sigCwr c ka) true (fun x _ => bad x) (named code v)
  Completes (.setfmt ka) (sigSetfmt ka) (fun x _ => fmtLegal (v x)) (fun x s t => GroupDone npcOf same (withFmt (v x) x) s t) ∧
  Traps (.setfmt ka) (sigSetfmt ka) true (fun x _ => ¬ fmtLegal (v x)) (plain .ill (sigSetfmt ka).word) ∧
  (fmtLegal (imm.zeroExtend 64) → Completes (.setfmtImm imm) (sigSetfmtImm imm) Always
    (fun x s t => GroupDone npcOf same (withFmt (imm.zeroExtend 64) x) s t)) ∧
  (¬ fmtLegal (imm.zeroExtend 64) →
    Traps (.setfmtImm imm) (sigSetfmtImm imm) true Always (plain .ill (sigSetfmtImm imm).word)) ∧
  Completes (.getfmt nw kd) (sigGetfmt nw kd) Always (UniDone nw 0 kd fun x _ => x.ent.fmt) ∧
  (∀ c, c ≤ 18 → Completes (.crd nw kd c) (sigCrd nw kd c) Always (UniDone nw 0 kd fun x s => control x s.ns c)) ∧
  Completes (.clock nw kd) (sigClock nw kd) Always (UniDone nw 0 kd fun _ s => BitVec.ofNat 64 (s.mcyc / 1000)) ∧
  Completes (.cwr 0 ka) (sigCwr 0 ka) (fun x _ => fmtLegal (v x)) (fun x s t => GroupDone npcOf same (withFmt (v x) x) s t) ∧
  ill 0 (fun x => ¬ fmtLegal (v x)) ∧
  puts 4 (fun w g => { g with tvec := w }) (fun x => (v x).toNat % 4 = 0) ∧
  stops 4 .align (fun x => (v x).toNat % 4 ≠ 0) ∧
  puts 5 (fun w g => { g with trec := w.toNat }) (fun x => (v x).toNat % 64 = 0 ∧ (v x).toNat + 64 ≤ 256 * x.lrec.slab) ∧
  stops 5 .align (fun x => (v x).toNat % 64 ≠ 0) ∧
  stops 5 .prot (fun x => (v x).toNat % 64 = 0 ∧ 256 * x.lrec.slab < (v x).toNat + 64) ∧
  puts 6 (fun w g => { g with dstk := w }) (fun x => x.grp.stack.length ≤ 16) ∧
  stops 6 .prot (fun x => 16 < x.grp.stack.length) ∧
  puts 8 (fun w g => { g with wlrec := w }) (fun _ => True) ∧
  puts 9 (fun w g => { g with dsectl := w }) (fun x => dsectlLegal (v x) ∧ x.grp.window = []) ∧
  ill 9 (fun x => ¬ dsectlLegal (v x)) ∧
  ∀ c, c ∉ [0, 4, 5, 6, 8, 9] → ill c fun _ => True

/-! ## Loads, stores, atomics, fences and waits (MAJ 0x18 to 0x1B) -/

namespace Sys2Proof.Stmt

open Sys2Proof Sys2Proof.Machine

/-- The bytes of each lane's access (R389). -/
def widthOf (t : Ty) : Nat := match t with
  | .i64 | .n64 => 8
  | .i16x2 | .n16x2 => 2
  | .i8x4 | .n8x4 => 1
  | _ => 4

/-- What a load writes from the bytes read, as a number (R389). -/
def loaded (t : Ty) (v : Nat) : Nat := match t with
  | .i16x2 => ((BitVec.ofNat 16 v).signExtend 32).toNat
  | .i8x4 => ((BitVec.ofNat 8 v).signExtend 32).toNat
  | _ => v

/-- The types of R389. -/
def memTy (h : Hdr) : Prop := h.ty ∈ [Ty.b32, .i32, .n32, .i64, .n64, .i16x2, .n16x2, .i8x4, .n8x4]

/-- A signed 10-bit displacement (R387). -/
def signed10 (d : Nat) : W64 := (BitVec.ofNat 10 d).signExtend 64

/-- The effective address of lane l (R388). -/
def ea (ad : Addr) (x : Iss) (l : Nat) : W64 := match ad with
  | .pair n d => BitVec.ofNat 64 (pget x.grp n l) + signed10 d
  | .base kb o d => kget x.grp kb + BitVec.ofNat 64 (srcVal x false o l) + signed10 d
  | .off o d => BitVec.ofNat 64 (srcVal x false o l) + signed10 d

/-- The effective address of lane l of ldc and stc, whose displacement is unsigned. -/
def eaCore (o : VSrc) (d : Nat) (x : Iss) (l : Nat) : W64 := BitVec.ofNat 64 (srcVal x false o l) + BitVec.ofNat 64 d

/-- Every active lane satisfies `P`. -/
def allActive (x : Iss) (P : Nat → Prop) : Prop := ∀ l, l < 64 → laneOn x.mask l = true → P l

/-- Lane l is the lowest active lane that satisfies `P`. -/
def lowest (x : Iss) (P : Nat → Prop) (l : Nat) : Prop :=
  l < 64 ∧ laneOn x.mask l = true ∧ P l ∧ ∀ j, j < l → laneOn x.mask j = true → ¬ P j

/-- The trap of an access of which nothing is performed (R162, R390): VADDR, LANE, CAUSE and KIND. -/
def laneTrapOf (c : TrapCode) (va : W64) (l cause kind : Nat) : Trap :=
  ⟨c, BitVec.ofNat 256 (va.toNat * 2 ^ 192 + l * 2 ^ 70 + cause * 2 ^ 66 + kind * 2 ^ 62), true, none⟩

/-- The highest active lane whose access, placed at `place l`, covers byte o (R253). -/
def cover (x : Iss) (w : Nat) (place : Nat → Nat) (o : Nat) : Option Nat :=
  ((lanes.filter fun l => laneOn x.mask l && decide (place l ≤ o ∧ o < place l + w)).getLast?)

/-- Byte o of the slab after the active lanes have stored `v`, each at its place. -/
def storedByte (x : Iss) (w : Nat) (place v : Nat → Nat) (o : Nat) : Byte := match cover x w place o with
  | some l => BitVec.ofNat 8 (v l / 2 ^ (8 * (o - place l)))
  | none => FMap.get 0 x.blk.slab o

/-- The checks of a slab access (R390, R247) that lane l fails. -/
def misaligned (t : Ty) (a : W64) : Prop := a.toNat % widthOf t ≠ 0
def beyondExtent (t : Ty) (n : Nat) (a : W64) : Prop := n < a.toNat + widthOf t

/-- No path of the group waits for an acquire to return (R262). -/
def noAcquire (x : Iss) : Prop := ∀ e ∈ x.grp.stack, (∀ n, e.wait ≠ .access n) ∧ ∀ a b, e.wait ≠ .label a b

end Sys2Proof.Stmt

/-- R388 to R393, R246 to R248 and R253: lds and ldl read the slab at each active lane's place and write DST by the type's rule; sts and stl
store each active lane's data at its place, the highest lane winning a byte that several name; nothing else changes. A lane whose address is misaligned
makes the instruction trap with ALIGN, one beyond the extent with PROT, CAUSE 0, naming the lowest failing lane, and nothing is performed. An access behind a cluster access of its group to the same bytes of
its own slab does not issue before that is served (R257), and one that meets an absent granule of the slab asks for its fill and issues again (R193). The model's choices (log entries): that an instruction waits for the granules it names (90). -/
def Obligations.SlabAccess : Prop := ∀ (h : Hdr) (d : VDst) (ad : Addr) (b : VSrc), memTy h →
  let w := widthOf h.ty
  let ext := fun (priv : Bool) (x : Iss) => if priv then 16 * x.lrec.lpriv else 256 * x.lrec.slab
  let place := fun (priv : Bool) (x : Iss) (l : Nat) =>
    (if priv then 256 * x.lrec.slab + 16 * x.lrec.lpriv * (64 * x.grp.gid + l) else 0) + (ea ad x l).toNat
  let good := fun (priv : Bool) (x : Iss) (_ : State) =>
    allActive x (fun l => ¬ misaligned h.ty (ea ad x l) ∧ ¬ beyondExtent h.ty (ext priv x) (ea ad x l)) ∧ noAcquire x
  let first := fun (priv : Bool) (x : Iss) (s : State) => priv = true ∨
    allActive x fun l => slabWaits x.g x.g.blk (ea ad x l).toNat w s.eng.accs = false
  let full := fun (x : Iss) => ∀ n, Granule.slab n ∉ x.blk.absent
  let loads := fun (priv : Bool) (i : Instr) (g : Sig) => Completes i g (fun x s => good priv x s ∧ first priv x s ∧ full x) (LanesDone { h with hold := 0 } d fun x _ l =>
    loaded h.ty (ofBytes (slabRead x.blk (place priv x l) w)))
  let stores := fun (priv : Bool) (i : Instr) (g : Sig) => Completes i g (fun x s => good priv x s ∧ first priv x s ∧ full x) (fun x s t => OnlyBlock x.g.blk s t ∧
    ∃ b' g', blkOf t x.g.blk = some b' ∧ grpOf t x.g = some g' ∧ b' = { x.blk with groups := b'.groups, slab := b'.slab } ∧
      (∀ n, n ≠ x.g.gid → grpIn b' n = grpIn x.blk n) ∧
      g' = { x.grp with stack := g'.stack, turn := g'.turn, waitFrom := g'.waitFrom } ∧ MovedOn x g' ∧
      ∀ o, FMap.get 0 b'.slab o = storedByte x w (place priv x) (fun l => srcVal x h.ty.pair b l) o)
  let stops := fun (priv : Bool) (i : Instr) (g : Sig) (kind : Nat) => ∀ l,
    Traps i g true (fun x _ => lowest x (fun l => misaligned h.ty (ea ad x l)) l) (fun x _ => laneTrapOf .align (ea ad x l) l 0 kind) ∧
    Traps i g true (fun x _ => (allActive x fun l => ¬ misaligned h.ty (ea ad x l)) ∧
      lowest x (fun l => beyondExtent h.ty (ext priv x) (ea ad x l)) l) (fun x _ => laneTrapOf .prot (ea ad x l) l 0 kind) ∧
    Stalls i g (fun x s => good priv x s ∧ ¬ first priv x s) ∧
    Completes i g (fun x s => good priv x s ∧ first priv x s ∧ x.blk.state ≠ .halted ∧ ∃ n j, Granule.slab n ∈ x.blk.absent ∧ j < 64 ∧
        laneOn x.mask j = true ∧ 2048 * n < place priv x j + w ∧ place priv x j < 2048 * n + 2048)
      (fun x s t => (∃ d m, d ∈ t.agenda ∧ d.ev = .granuleFill x.g.blk (.slab m)) ∧ grpOf t x.g = some x.grp ∧ t.mem = s.mem)
  loads false (.lds h d ad) (sigLds h d ad) ∧ stops false (.lds h d ad) (sigLds h d ad) 0 ∧
  loads true (.ldl h d ad) (sigLdl h d ad) ∧ stops true (.ldl h d ad) (sigLdl h d ad) 0 ∧
  stores false (.sts h ad b) (sigSts h ad b) ∧ stops false (.sts h ad b) (sigSts h ad b) 1 ∧
  stores true (.stl h ad b) (sigStl h ad b) ∧ stops true (.stl h ad b) (sigStl h ad b) 1

namespace Sys2Proof.Stmt

open Sys2Proof Sys2Proof.Machine

/-- The destination register of a load or returning atomic (R391). -/
def dstOf (h : Hdr) (d : VDst) : Option Nat := match d with
  | .reg n => if h.nw then none else some n
  | _ => none

/-- The access of instruction `x` as it is put in flight: its kind, type, destination, and of each active lane the address, the place, the data and
what has become of it. -/
def isAccess (x : Iss) (k : AccKind) (lv : Level) (t : Ty) (aop : Nat) (d : Option Nat) (addr : Nat → W64) (pl : Nat → Nat)
    (b c : Nat → Nat) (a : Access) : Prop :=
  a.g = x.g ∧ a.core = x.core ∧ a.ctx = x.ctx ∧ a.kind = k ∧ a.level = lv ∧ a.ty = t ∧ a.aop = aop ∧ a.dst = d ∧ a.pc = x.ent.pc ∧ a.chainPc = x.ent.chainPc ∧
    a.mask = x.mask ∧ a.lanes.map (fun l => (l.lane, l.ea, l.pa, l.b, l.c)) = (lanes.filter fun l => laneOn x.mask l).map fun l =>
      (l, addr l, pl l, BitVec.ofNat 64 (b l), BitVec.ofNat 64 (c l))

/-- No access has the model's next operation number or a higher one. -/
def accNumbers (s : State) : Prop := ∀ a ∈ s.eng.accs, a.id < s.nextId

/-- The physical addresses and the grain sizes of the active lanes, all in mapped pages that permit the access; `s'` is the state after their
translation. -/
def mapsTo (x : Iss) (acc : AccType) (addr : Nat → W64) (pl gr : Nat → Nat) (s s' : State) : Prop :=
  ∃ ts, xlatLanes x.core x.ctx acc ((lanes.filter fun l => laneOn x.mask l).map fun l => (l, addr l)) s = .ok ts [] s' ∧
    ∀ q ∈ ts, q.2.2.1 = pl q.1 ∧ q.2.2.2.grain = gr q.1

/-- Lane l meets a page fault with CAUSE `cause`, the active lanes below it none (R147). -/
def faultsAt (x : Iss) (acc : AccType) (addr : Nat → W64) (l cause : Nat) (s s' : State) : Prop :=
  l < 64 ∧ laneOn x.mask l = true ∧ ∃ ts bad s1,
    xlatLanes x.core x.ctx acc ((lanes.filter fun j => laneOn x.mask j && decide (j < l)).map fun j => (j, addr j)) s = .ok ts bad s1 ∧
    translate (.core x.core) x.ctx acc (addr l) s1 = (.fault cause, s')

/-- Every copy has the bytes of its grain, and no two of one agent meet. -/
def copiesOk (s : State) : Prop := (∀ c ∈ s.coh.l1, c.data.length = c.gsz ∧ 0 < c.gsz ∧ c.pa % c.gsz = 0) ∧
  s.coh.l1.Pairwise fun c d => c.agent = d.agent → overlap c.pa c.gsz d.pa d.gsz = false

/-- No byte lies in grains of two sizes (R85, R88). -/
def oneSize (x : Iss) (pl gr : Nat → Nat) : Prop := allActive x fun l => allActive x fun j =>
  overlap (pl l / gr l * gr l) (gr l) (pl j / gr j * gr j) (gr j) = true → gr j = gr l

/-- The core has no other access to its L1 in flight. -/
def alone (x : Iss) (s : State) : Prop := ∀ a ∈ s.eng.accs, a.core = x.core → a.level = .g → a.returned = true ∧ ∀ y ∈ a.lanes, y.st ≠ .waiting

/-- What every instruction of level g needs beyond its lanes (R250, R252, R261, R262): no acquire outstanding, room in its counter, a release's earlier accesses
performed, and its scope allowed. -/
def mayStart (h : Hdr) (path scope : Nat) (x : Iss) (s : State) : Prop :=
  noAcquire x ∧ cnt x.grp path < 255 ∧ (h.mod ∈ [2, 3, 4] → relReady x s = true) ∧
    (h.mod = 4 → copyOut x s = false ∧ moveOut x s = false) ∧ (scope ≤ 3 ∨ scope ≤ maxScope s x.vf)

/-- An access that returns a value starts: nothing is written yet, its destination is pending, its counter counts it, its path goes on, or with an
acquire waits for it. -/
def Started (h : Hdr) (path : Nat) (k : AccKind) (lv : Level) (aop : Nat) (d : Option Nat) (addr : Iss → Nat → W64)
    (b c : Iss → Nat → Nat) (pl : Nat → Nat) (x : Iss) (t : State) : Prop :=
  ∃ a ∈ t.eng.accs, isAccess x k lv h.ty aop d (addr x) pl (b x) (c x) a ∧ ∃ g, grpOf t x.g = some g ∧
    g.k = x.grp.k ∧ g.m = x.grp.m ∧ g.v = x.grp.v ∧ (∃ f ∈ g.flights, f.path = path ∧ f.op = a.id ∧ f.done = false) ∧
    (∀ r, d = some r → ∀ n ∈ (if h.ty.pair then [r, r + 1] else [r]), ∃ p ∈ g.pend, p.reg = n ∧ p.op = a.id) ∧
    (x.ent.reissue = none → x.ent.wait = .none → ∃ e, liveEntry g x.g.low = some e ∧ e.pc = x.npc ∧ e.mask = x.ent.mask ∧
      e.wait = if h.mod ∈ [1, 3, 4] then .access a.id else .none)

/-- The path goes on, no register changes, and a write that returns nothing is in flight, counted on path 1, or every lane of it is done. -/
def Sent (h : Hdr) (k : AccKind) (aop : Nat) (addr : Iss → Nat → W64) (b : Iss → Nat → Nat) (pl : Nat → Nat) (n0 : Nat)
    (x : Iss) (t : State) : Prop :=
  ∃ g, grpOf t x.g = some g ∧ g.k = x.grp.k ∧ g.m = x.grp.m ∧ g.v = x.grp.v ∧
    (x.ent.reissue = none → x.ent.wait = .none → ∃ e, liveEntry g x.g.low = some e ∧ e.pc = x.npc ∧ e.mask = x.ent.mask ∧ e.wait = .none) ∧
    ((∃ a ∈ t.eng.accs, isAccess x k .g h.ty aop none (addr x) pl (b x) (fun _ => 0) a ∧ ∃ f ∈ g.flights, f.path = 1 ∧ f.op = a.id) ∨
      ∀ a ∈ t.eng.accs, a.id < n0)

/-- What an atomic leaves in a place that held `old`, with operands `b` and `c` (R398, R291). -/
def leaves (k : AccKind) (t : Ty) (aop old b c : Nat) : Nat := match k with
  | .atomc => if old = b then c else old
  | .atom => atomOp t aop old b
  | .red => atomOp t aop old b
  | .store => b
  | .atoms => b
  | .load => old
  | .pref => old

/-- The bytes of a grain and the values returned after the lanes of an access act on it in ascending order, given as (lane, byte in the grain, b, c). -/
def actOn (k : AccKind) (t : Ty) (aop : Nat) : List (Nat × Nat × Nat × Nat) → (Nat → Byte) → (Nat → Byte) × List (Nat × Nat)
  | [], m => (m, [])
  | (l, o, b, c) :: r, m =>
    let w := widthOf t
    let old := ((List.range w).map fun i => (m (o + i)).toNat * 2 ^ (8 * i)).sum
    let new := leaves k t aop old (b % 2 ^ (8 * w)) (c % 2 ^ (8 * w))
    let m := if k = .load then m else fun q => if o ≤ q ∧ q < o + w then BitVec.ofNat 8 (new / 2 ^ (8 * (q - o))) else m q
    let t := actOn k t aop r m
    (t.1, (l, old) :: t.2)

/-- The active lanes that fall in a grain of `gsz` bytes at `pa`, as `actOn` takes them. -/
def inGrain (x : Iss) (pl b : Nat → Nat) (pa gsz : Nat) : List (Nat × Nat × Nat × Nat) :=
  (lanes.filter fun l => laneOn x.mask l && decide (pa ≤ pl l ∧ pl l < pa + gsz)).map fun l => (l, pl l - pa, b l, 0)

/-- Lane l of an access numbered from n0 on waits no more. -/
def laneDone (n0 l : Nat) (t : State) : Prop := ∀ a ∈ t.eng.accs, n0 ≤ a.id → ∀ y ∈ a.lanes, y.lane = l → y.st = .performed

/-- Where a store or red has been performed (R101, R253, R398): the core's copy of the lane's grain is in M, and its bytes are what the operation leaves
of the bytes that it found, in ascending lane order; with nothing else of the core in flight these are the copy's as it was, and a lane whose
grain the L1 held in E or M is performed at once. -/
def Stored (h : Hdr) (k : AccKind) (aop : Nat) (b : Iss → Nat → Nat) (pl gr : Nat → Nat) (n0 : Nat) (s' : State) (x : Iss) (t : State) : Prop :=
  let w := widthOf h.ty
  ∃ old : Nat → Byte,
    (alone x s' → ∀ l c, l < 64 → laneOn x.mask l = true → copyOf s' x.core (pl l) w = some c →
      (∀ i, i < c.gsz → old (c.pa + i) = c.data.getD i 0) ∧
      (c.ctx = x.ctx → c.pa = pl l / gr l * gr l → c.gsz = gr l → c.st = .e ∨ c.st = .m → laneDone n0 l t)) ∧
    ∀ l, l < 64 → laneOn x.mask l = true → laneDone n0 l t → ∃ c, copyOf t x.core (pl l) w = some c ∧ c.ctx = x.ctx ∧ c.st = .m ∧
      c.pa ≤ pl l ∧ pl l + w ≤ c.pa + c.gsz ∧
      ∀ i, i < c.gsz → c.data.getD i 0 = (actOn k h.ty aop (inGrain x pl (b x) c.pa c.gsz) fun j => old (c.pa + j)).1 i

/-- atoms sends each grain's bytes to its home as an uncached write of those bytes alone (R398), at once where the core has nothing of the grain and
nothing else in flight. -/
def SentHome (h : Hdr) (b : Iss → Nat → Nat) (pl gr : Nat → Nat) (s' : State) (x : Iss) (t : State) : Prop :=
  alone x s' → ∀ l, l < 64 → laneOn x.mask l = true →
    let pa := pl l / gr l * gr l
    copyOf s' x.core pa (gr l) = none → pendOf s' x.core pa (gr l) = none → wbufOf s' x.core pa (gr l) = none →
    ∃ m, ⟨s'.ns, 0, .uncachedWrite m⟩ ∈ t.agenda ∧ m.pa = pa ∧ m.gsz = gr l ∧ m.req = x.core ∧ m.ctx = x.ctx ∧
      ∀ i, i < gr l →
        (m.bmask.getD i false = true ↔ ∃ q ∈ inGrain x pl (b x) pa (gr l), q.2.1 ≤ i ∧ i < q.2.1 + widthOf h.ty) ∧
        (m.bmask.getD i false = true → m.data.getD i 0 = (actOn .atoms h.ty 0 (inGrain x pl (b x) pa (gr l)) fun _ => 0).1 i)

/-- A page fault at issue (R154): the group keeps its registers to roll back to and starts to run ahead with the instruction's destinations unknown, with
the faulting page as its blocking page; no access starts. -/
def RunsAhead (g : Sig) (acc : AccType) (va : W64) (cause : Nat) (s' : State) (x : Iss) (t : State) : Prop :=
  ∃ y r, grpOf t x.g = some y ∧ y.ahead = some r ∧ r.fault = (va.toNat % 2 ^ 48 / 4096, acc.code, cause) ∧ r.k = x.grp.k ∧ r.m = x.grp.m ∧
    r.v = x.grp.v ∧ r.gens = x.grp.gens ∧ r.found = [] ∧ r.passed = 0 ∧ r.unknown = g.writes ∧ r.low = x.g.low ∧ y.k = x.grp.k ∧ y.m = x.grp.m ∧
    y.v = x.grp.v ∧ y.flights = x.grp.flights ∧ y.pend = x.grp.pend ∧ t.eng = s'.eng ∧ t.mem = s'.mem ∧ t.agenda = s'.agenda

end Sys2Proof.Stmt

/-- R388 to R393, R397, R398 and R249, R250: where the lanes are aligned, canonical and mapped, the counter has room and the orders allow it, the global loads, stores and
atomics start their access and the path goes on: no register has changed yet, the destination is pending, and the access carries each active
lane's address and data. A store or red that the L1 can perform leaves its result in the L1's copies (`Stored`), atoms sends its bytes to their homes. A
lane whose page faults starts run-ahead (R154). The lowest misaligned lane traps with ALIGN, the lowest non-canonical one with PROT, CAUSE 2, and a scope
beyond the policy's with SCOPE.DENIED. Operation numbers are the model's own. The model's choices (log entries): that the issue waits at the instruction while an order is not met or 255 are in flight (18), and that the L1 performs at issue what its copies allow (24). -/
def Obligations.GlobalAccess : Prop := ∀ (h : Hdr) (d : VDst) (ad : Addr) (b c : VSrc) (aop scope : Nat) (pl gr : Nat → Nat) (s' : State),
  memTy h ∨ h.ty = .f32 →
  let sb := fun x => srcVal x h.ty.pair b
  let sc := fun x => srcVal x h.ty.pair c
  let z := fun (_ : Iss) (_ : Nat) => 0
  let good := fun (g : Sig) (path : Nat) (acc : AccType) (x : Iss) (s : State) =>
    allActive x (fun l => ¬ misaligned h.ty (ea ad x l) ∧ canonical (ea ad x l) = true) ∧ mayStart h path scope x s ∧
      mapsTo x acc (ea ad x) pl gr (advance g x s) s' ∧ accNumbers s ∧ copiesOk s' ∧ oneSize x pl gr ∧ x.grp.exited = false
  let stops := fun (i : Instr) (g : Sig) (kind : Nat) (path : Nat) (acc : AccType) =>
    (∀ l cause, Completes i g (fun x s => allActive x (fun l => ¬ misaligned h.ty (ea ad x l) ∧ canonical (ea ad x l) = true) ∧
      mayStart h path scope x s ∧ faultsAt x acc (ea ad x) l cause (advance g x s) s')
      (fun x _ t => RunsAhead g acc (ea ad x l) cause s' x t)) ∧
    (∀ l, Traps i g true (fun x s => (scope ≤ 3 ∨ scope ≤ maxScope s x.vf) ∧ lowest x (fun l => misaligned h.ty (ea ad x l)) l)
      (fun x _ => laneTrapOf .align (ea ad x l) l 0 kind)) ∧
    (∀ l, Traps i g true (fun x s => (scope ≤ 3 ∨ scope ≤ maxScope s x.vf) ∧ (allActive x fun l => ¬ misaligned h.ty (ea ad x l)) ∧
      lowest x (fun l => canonical (ea ad x l) = false) l) (fun x _ => laneTrapOf .prot (ea ad x l) l 2 kind)) ∧
    Traps i g false (fun x s => 4 ≤ scope ∧ maxScope s x.vf < scope) (plain .scopeDenied scope)
  let reads := fun (i : Instr) (g : Sig) (k : AccKind) (acc : AccType) (aop : Nat) (b c : Iss → Nat → Nat) =>
    Completes i g (good g 0 acc) (fun x _ t => Started h 0 k .g aop (dstOf h d) (ea ad) b c pl x t ∧ t.mem = s'.mem)
  let writes := fun (i : Instr) (g : Sig) (k : AccKind) (acc : AccType) (aop : Nat) =>
    Completes i g (good g 1 acc) (fun x s t => Sent h k aop (ea ad) sb pl s.nextId x t ∧ t.mem = s'.mem ∧
      (if k = .atoms then SentHome h sb pl gr s' x t else Stored h k aop sb pl gr s.nextId s' x t))
  reads (.ldg h d ad scope) (sigLdg h d ad scope) .load .read 0 z z ∧ stops (.ldg h d ad scope) (sigLdg h d ad scope) 0 0 .read ∧
  reads (.atom h d ad b aop scope) (sigAtom h d ad b aop scope) .atom .atomic aop sb z ∧
  stops (.atom h d ad b aop scope) (sigAtom h d ad b aop scope) 2 0 .atomic ∧
  reads (.atomc h d ad b c scope) (sigAtomc h d ad b c scope) .atomc .atomic 0 sb sc ∧
  stops (.atomc h d ad b c scope) (sigAtomc h d ad b c scope) 2 0 .atomic ∧
  writes (.stg h ad b scope) (sigStg h ad b scope) .store .write 0 ∧ stops (.stg h ad b scope) (sigStg h ad b scope) 1 1 .write ∧
  writes (.red h ad b aop scope) (sigRed h ad b aop scope) .red .atomic aop ∧ stops (.red h ad b aop scope) (sigRed h ad b aop scope) 2 1 .atomic ∧
  writes (.atoms h ad b scope) (sigAtoms h ad b scope) .atoms .atomic 0 ∧ stops (.atoms h ad b scope) (sigAtoms h ad b scope) 2 1 .atomic

/-- R253, R257, R398 and R393: an access whose waiting lanes lie in a grain that its core's L1 holds for its context, E or M for a write, acts on that grain in
ascending lane order with the bytes it finds there: each lane reads what the lanes before it left, a write leaves the grain in M with
its bytes changed as the operation says and no others. Nothing earlier of the core is in flight. -/
def Sys2Proof.Stmt.GrainPerformed : Prop := ∀ (s : State) (a : Access) (c : Copy) (rest : List Access),
  s.eng.accs = a :: rest → a.level = .g → a.kind ≠ .pref → a.kind ≠ .atoms → a.returned = false → a.ty.width = 8 * widthOf a.ty →
  (a.lanes.map (·.lane)).Nodup → (∀ b ∈ rest, b.id ≠ a.id) → (∀ l ∈ a.lanes, l.st = .waiting) →
  s.coh.l1.find? (fun e => e.agent == a.core && overlap e.pa e.gsz c.pa c.gsz) = some c → c.agent = a.core → c.ctx = a.ctx → c.data.length = c.gsz →
  0 < c.gsz → c.pa % c.gsz = 0 → c.staged = [] → (a.kind = .load ∨ c.st = .e ∨ c.st = .m) →
  (∀ l ∈ a.lanes, l.gsz = c.gsz ∧ c.pa ≤ l.pa ∧ l.pa + widthOf a.ty ≤ c.pa + c.gsz) → a.lanes ≠ [] →
  let out := actOn a.kind a.ty a.aop (a.lanes.map fun l => (l.lane, l.pa - c.pa, l.b.toNat, l.c.toNat)) fun i => c.data.getD i 0
  let t := tryGrain a.id c.pa c.gsz s
  t.mem = s.mem ∧ t.blocks.length = s.blocks.length ∧
  (∃ a', accOf t a.id = some a' ∧ a' = { a with lanes := a'.lanes } ∧
    a'.lanes = (a.lanes.zip out.2).map fun p => { p.1 with st := .performed, val := BitVec.ofNat 64 p.2.2 }) ∧
  ∃ c', copyOf t a.core c.pa c.gsz = some c' ∧ c'.data.length = c.gsz ∧ (∀ i, i < c.gsz → c'.data.getD i 0 = out.1 i) ∧
    c' = { c with data := c'.data, st := c'.st } ∧ (if a.kind = .load then c'.st = c.st else c'.st = .m)

/-- R242, R250 and R393: at its return the performed lanes of an access are written to its destination, sign- or zero-extended by its type, its pending
write and its counter's rise are gone, the acquire wait of its path ends, and a lane that was refused keeps its register. Where the access met an error
or a refusal, DATA.UE (R165) or LABEL.FALSE (R133, R135) is due then, for the lowest lane that met it, with its address and the lanes performed; that
an error and a refusal of one access give the refusal's trap is the model's reading (log entry 131). -/
def Sys2Proof.Stmt.AccessReturns : Prop := ∀ (s : State) (a : Access) (g : Group) (b : Block),
  accOf s a.id = some a → blkOf s a.g.blk = some b → grpIn b a.g.gid = some g → g.exited = false → (∀ n, Granule.vreg n ∉ b.absent) →
  (∀ c, ctxOf s a.ctx = some c → c.cst ≠ 3) →
  (a.lanes.map (·.lane)).Nodup → (∀ l ∈ a.lanes, l.lane < 64) →
  ∃ t g', exec (.accessReturn a.id) s = .next t ∧ grpOf t a.g = some g' ∧ (∀ y ∈ t.eng.accs, y.id ≠ a.id) ∧ t.mem = s.mem ∧ t.coh = s.coh ∧
    (a.naks = [] → g'.held = g.held) ∧
    (∀ ls m n y, a.naks = [(ls, m)] → n ∈ ls → (∀ j ∈ ls, n ≤ j) → a.lanes.find? (fun y => y.lane == n) = some y → m.reason < 4 →
      ∃ tr, g'.held = g.held ++ [tr] ∧ tr.named = some (if m.reason = 2 ∧ a.chained = true then a.chainPc else a.pc, a.mask, a.chained, a.pc) ∧
        let v := tr.words.toNat
        bits v 255 192 = y.ea.toNat ∧ (∀ l, l < 64 → (bit v (128 + l) = true ↔ ∃ z ∈ a.lanes, z.lane = l ∧ z.st = .performed)) ∧
        bits v 127 76 = y.pa % 2 ^ 52 ∧ bits v 75 70 = n ∧ bits v 64 62 = a.kind.num ∧
        if m.reason = 2 then tr.code = .labelFalse ∧ tr.restart = true ∧ bits v 69 67 = m.lbyte % 8 ∧ bits v 61 53 = m.req % 512
        else tr.code = .dataUe ∧ tr.restart = false ∧ bits v 61 60 = m.reason) ∧
    g'.k = g.k ∧ g'.m = g.m ∧ (∀ p ∈ g'.pend, p.op ≠ a.id) ∧ (∀ e ∈ g'.stack, e.wait ≠ .access a.id) ∧
    g'.flights = fallFrom [] (mapIf (·.op == a.id) (fun f => { f with done := true }) g.flights) ∧
    ∀ n l, l < 64 → vget g' n l = match a.dst, a.lanes.find? (fun y => y.lane == l) with
      | some d, some y =>
        if y.st = .performed ∧ n = d then BitVec.ofNat 32 (if a.ty.pair then y.val.toNat else loaded a.ty y.val.toNat)
        else if y.st = .performed ∧ a.ty.pair = true ∧ n = d + 1 then BitVec.ofNat 32 (y.val.toNat / 2 ^ 32) else vget g n l
      | _, _ => vget g n l

/-- R65, R66, R247, R390, R393 and R395: the cluster and pad loads and stores whose lanes are aligned and within the slab or the window start their access on path 2, the pad ones
at the window's base and no further than the 96 MiB of the pad; the lowest misaligned lane traps with ALIGN, the lowest one beyond the extent with PROT, CAUSE 0, and a core outside the set has no extent.
The slab and the pad serve the lanes of such an access at once, in ascending order. -/
def Sys2Proof.Stmt.ClusterAndPad : Prop := ∀ (h : Hdr) (d : VDst) (ad : Addr) (o b : VSrc) (disp rank file scope : Nat), memTy h →
  let sb := fun x => srcVal x h.ty.pair b
  let z := fun (_ : Iss) (_ : Nat) => 0
  let window := fun (x : Iss) (s : State) => ((ctxOf s x.ctx).map fun c =>
    (c.padBase * 4096, min (c.padLim * 4096) (96 * 2 ^ 20 - c.padBase * 4096))).getD (0, 0)
  let target := fun (x : Iss) (s : State) => if x.lrec.clm then
      (s.blocks.filter fun c => c.launch == x.blk.launch && c.setId == x.blk.setId && c.core == rank * 16 + file).head?
    else if x.core = rank * 16 + file then some x.blk else none
  let extC := fun (x : Iss) (s : State) => if (target x s).isSome then 256 * x.lrec.slab else 0
  let allowed := fun (x : Iss) (s : State) => scope ≤ 3 ∨ scope ≤ maxScope s x.vf
  let good := fun (ext : Iss → State → Nat) (ad : Iss → Nat → W64) (x : Iss) (s : State) =>
    allActive x (fun l => ¬ misaligned h.ty (ad x l) ∧ ¬ beyondExtent h.ty (ext x s) (ad x l)) ∧ mayStart h 2 scope x s ∧ accNumbers s ∧
      x.grp.exited = false
  let starts := fun (i : Instr) (g : Sig) (k : AccKind) (lv : Level) (d : Option Nat) (ext : Iss → State → Nat) (ad : Iss → Nat → W64)
      (b : Iss → Nat → Nat) (base : Iss → State → Nat) => ∀ (x : Iss) (s : State), Ready g s x → good ext ad x s →
    (lv = .c ∨ ∃ l, l < 64 ∧ laneOn x.mask l = true) →
    ∃ t, exec i s = .next t ∧ t.mem = s.mem ∧ ∃ a ∈ t.eng.accs, a.id = s.nextId ∧
      isAccess x k lv h.ty 0 d (ad x) (fun l => base x s + (ad x l).toNat) (b x) (fun _ => 0) a ∧
      (∃ g', grpOf t x.g = some g' ∧ g'.v = x.grp.v ∧ g'.k = x.grp.k ∧ ∃ f ∈ g'.flights, f.path = 2 ∧ f.op = a.id ∧ f.done = false) ∧
      (lv = .c → ⟨s.ns, 0, .clusterSlabAccess a.id⟩ ∈ t.agenda ∧ ∀ c, target x s = some c → a.target = c.id) ∧
      (lv = .d → ∀ l ∈ a.lanes, ⟨s.ns, 0, .padSliceAccess a.id (((l.pa - padBase) / 2 ^ 9) % 256)⟩ ∈ t.agenda)
  let stops := fun (i : Instr) (g : Sig) (kind : Nat) (ext : Iss → State → Nat) (ad : Iss → Nat → W64) =>
    (∀ l, Traps i g true (fun x s => allowed x s ∧ lowest x (fun l => misaligned h.ty (ad x l)) l)
      (fun x _ => laneTrapOf .align (ad x l) l 0 kind)) ∧
    (∀ l, Traps i g true (fun x s => allowed x s ∧ (allActive x fun l => ¬ misaligned h.ty (ad x l)) ∧
      lowest x (fun l => beyondExtent h.ty (ext x s) (ad x l)) l) (fun x _ => laneTrapOf .prot (ad x l) l 0 kind))
  let pad := fun x s => (window x s).2
  let pb := fun x s => padBase + (window x s).1
  starts (.ldc h d o disp rank file scope) (sigLdc h d o disp rank file scope) .load .c (dstOf h d) extC (eaCore o disp) z (fun _ _ => 0) ∧
  stops (.ldc h d o disp rank file scope) (sigLdc h d o disp rank file scope) 0 extC (eaCore o disp) ∧
  starts (.stc h o disp rank file b scope) (sigStc h o disp rank file b scope) .store .c none extC (eaCore o disp) sb (fun _ _ => 0) ∧
  stops (.stc h o disp rank file b scope) (sigStc h o disp rank file b scope) 1 extC (eaCore o disp) ∧
  starts (.ldd h d ad scope) (sigLdd h d ad scope) .load .d (dstOf h d) pad (ea ad) z pb ∧
  stops (.ldd h d ad scope) (sigLdd h d ad scope) 0 pad (ea ad) ∧
  starts (.std h ad b scope) (sigStd h ad b scope) .store .d none pad (ea ad) sb pb ∧
  stops (.std h ad b scope) (sigStd h ad b scope) 1 pad (ea ad)

/-- R66, R253 and R393: the events that serve a cluster access and the lanes of a pad access in one slice read and write the slab of the named block, or the pad, in
ascending lane order, and no other byte. No access before it is in flight and no granule of the slab is absent. -/
def Sys2Proof.Stmt.SlabAndPadService : Prop := ∀ (s : State) (a : Access) (rest : List Access), s.eng.accs = a :: rest → (∀ b ∈ rest, b.id ≠ a.id) →
  a.kind = .load ∨ a.kind = .store →
  (∀ l ∈ a.lanes, l.st = .waiting) → a.ty.width = 8 * widthOf a.ty → a.returned = false → (a.lanes.map (·.lane)).Nodup →
  let act := fun (ls : List LaneAcc) (m : Nat → Byte) => actOn a.kind a.ty 0 (ls.map fun l => (l.lane, l.pa, l.b.toNat, l.c.toNat)) m
  (∀ b, blkOf s a.target = some b → (∀ n, Granule.slab n ∉ b.absent) →
    let out := act a.lanes fun o => FMap.get 0 b.slab o
    ∃ t b', exec (.clusterSlabAccess a.id) s = .next t ∧ blkOf t a.target = some b' ∧ t.mem = s.mem ∧ (∀ o, FMap.get 0 b'.slab o = out.1 o) ∧
      (a.kind = .load → ∃ a', accOf t a.id = some a' ∧ a'.returned = true ∧
        a'.lanes = (a.lanes.zip out.2).map fun p => { p.1 with st := .performed, val := BitVec.ofNat 64 p.2.2 })) ∧
  ∀ n, (∀ l ∈ a.lanes, padBase ≤ l.pa ∧ sliceOf l.pa = n) →
    let out := act a.lanes fun o => FMap.get 0 s.mem o
    ∃ t, exec (.padSliceAccess a.id n) s = .next t ∧ (∀ o, FMap.get 0 t.mem o = out.1 o) ∧
      (a.kind = .load → ∃ a', accOf t a.id = some a' ∧ a'.returned = true ∧
        a'.lanes = (a.lanes.zip out.2).map fun p => { p.1 with st := .performed, val := BitVec.ofNat 64 p.2.2 })

/-- R264, R265 and R399 to R401: a fence goes on once what its predecessor set names of the group has been performed, at once with an empty set, and does not issue before (the
model holds the group at the fence, which R264 allows: log entry 18); waitp goes on at once where its counter is low enough, and waits otherwise, at the instruction, so that a trap due when the
counter has fallen comes before it (R133); ofence marks the asynchronous
register writes that are on their way, and stalls nothing. -/
def Sys2Proof.Stmt.FencesAndWaits : Prop := ∀ (sc : Bool) (p q scope n kn : Nat),
  let own := fun (x : Iss) (a : Access) => a.g.blk = x.g.blk ∧ a.g.gid = x.g.gid ∧ a.kind ≠ .pref ∧ (a.returned = false ∨ a.naks ≠ [])
  let set := fun (b : Nat) => sc = true ∨ bit p b = true
  let performed := fun (x : Iss) (s : State) =>
    (set 0 → ∀ a ∈ s.eng.accs, own x a → a.kind ∉ [.load, .atom, .atomc]) ∧
    (set 1 → ∀ a ∈ s.eng.accs, (own x a → a.kind ∉ [.store, .atom, .atomc, .red, .atoms]) ∧ a.id ∉ x.grp.seen) ∧
    (set 2 ∨ set 3 → copyOut x s = false) ∧ (set 4 ∨ set 5 → moveOut x s = false)
  let empty := sc = false ∧ (p = 0 ∨ q = 0)
  let allowed := fun (x : Iss) (s : State) => scope ≤ 3 ∨ scope ≤ maxScope s x.vf
  Completes (.fence sc p q scope) (sigFence sc p q scope) (fun x s => allowed x s ∧ noAcquire x ∧ (empty ∨ performed x s)) (GroupDone npcOf same) ∧
  Stalls (.fence sc p q scope) (sigFence sc p q scope) (fun x s => allowed x s ∧ (¬ noAcquire x ∨ (¬ empty ∧ ¬ performed x s))) ∧
  Traps (.fence sc p q scope) (sigFence sc p q scope) false (fun x s => 4 ≤ scope ∧ maxScope s x.vf < scope) (plain .scopeDenied scope) ∧
  Completes (.waitp n kn) (sigWaitp n kn) (fun x _ => cnt x.grp n ≤ (kget x.grp kn).toNat) (GroupDone npcOf same) ∧
  Completes (.waitp n kn) (sigWaitp n kn) (fun x _ => (kget x.grp kn).toNat < cnt x.grp n)
    (fun x s t => OnlyGroup x.g s t ∧ ∃ g e, grpOf t x.g = some g ∧ liveEntry g x.g.low = some e ∧ e.pc = x.ent.pc ∧
      e.wait = .waitp n (kget x.grp kn).toNat ∧ g = { x.grp with stack := g.stack }) ∧
  Completes .ofence sigOfence Always (fun x s t => OnlyGroup x.g s t ∧ ∃ g, grpOf t x.g = some g ∧ MovedOn x g ∧
    g = { x.grp with marks := g.marks, stack := g.stack, turn := g.turn, waitFrom := g.waitFrom } ∧
    ∀ op, op ∈ g.marks ↔ op ∈ x.grp.marks ∨ ∃ r ∈ x.grp.pend, r.op = op)

/-- R396 and R101: cinv drops the grains of the active lanes that the core holds in S or T and no others, at once; cflush gives up the grains that the core holds, WbD going out
from M and O and EvC from E, and waits until each has been acknowledged; pref asks with RdS for a grain that the L1 lacks. Lanes that are misaligned, not
canonical or not mapped are left out, and no trap or fault is raised; one whose translation waits for a table's home holds the instruction. With every lane left out, nothing but the issue happens. -/
def Sys2Proof.Stmt.CacheOperations : Prop := ∀ (h : Hdr) (ad : Addr), h.ty = .b32 →
  let out := fun (x : Iss) (_ : State) => allActive x (fun l => (ea ad x l).toNat % 4 ≠ 0 ∨ canonical (ea ad x l) = false) ∧ noAcquire x ∧
    x.ent.reissue = none
  let one := fun (g : Sig) (leaf : Leaf) (l pa : Nat) (x : Iss) (s : State) => x.mask = 1#64 <<< l ∧ l < 64 ∧ noAcquire x ∧
    (ea ad x l).toNat % 4 = 0 ∧ canonical (ea ad x l) = true ∧
    translate (.core x.core) x.ctx .read (ea ad x l) (advance g x s) = (.ok pa leaf, advance g x s) ∧ pendOf s x.core pa 1 = none ∧ leaf.grain > 0
  let waits := fun (g : Sig) (l : Nat) (x : Iss) (s : State) => x.mask = 1#64 <<< l ∧ l < 64 ∧ (ea ad x l).toNat % 4 = 0 ∧
    canonical (ea ad x l) = true ∧ (translate (.core x.core) x.ctx .read (ea ad x l) (advance g x s)).1 = .wait
  Completes (.cinv h ad) (sigCinv h ad) out (GroupDone npcOf same) ∧
  Completes (.cflush h ad) (sigCflush h ad) out (GroupDone npcOf same) ∧
  (∀ l, Stalls (.cinv h ad) (sigCinv h ad) (waits (sigCinv h ad) l) ∧ Stalls (.cflush h ad) (sigCflush h ad) (waits (sigCflush h ad) l) ∧
    Stalls (.pref h ad) (sigPref h ad) (waits (sigPref h ad) l)) ∧
  (∀ (leaf : Leaf) (l pa : Nat) (c : Copy),
    let here := fun (x : Iss) (s : State) => copyOf s x.core pa 1 = some c ∧ c.agent = x.core ∧ c.pa ≤ pa ∧ pa < c.pa + c.gsz ∧
      pendOf s x.core c.pa c.gsz = none
    Completes (.cinv h ad) (sigCinv h ad) (fun x s => one (sigCinv h ad) leaf l pa x s ∧ here x s) (fun x s t =>
      (if c.st = .s ∨ c.st = .t then copyOf t x.core pa 1 = none else t.coh = s.coh) ∧ t.agenda = s.agenda ∧ t.mem = s.mem) ∧
    Completes (.cflush h ad) (sigCflush h ad) (fun x s => one (sigCflush h ad) leaf l pa x s ∧ here x s) (fun x s t =>
      copyOf t x.core pa 1 = none ∧ t.mem = s.mem ∧
      (c.st = .m ∨ c.st = .o → ∃ m, ⟨s.ns, 0, .wbd m⟩ ∈ t.agenda ∧ m.pa = c.pa ∧ m.frm = x.core ∧ m.data = c.data) ∧
      (c.st = .e → ∃ m, ⟨s.ns, 0, .evc m⟩ ∈ t.agenda ∧ m.pa = c.pa ∧ m.frm = x.core) ∧
      (c.st = .s ∨ c.st = .t → t.agenda = s.agenda) ∧
      (c.st ∈ [.m, .o, .e] → ∃ g e, grpOf t x.g = some g ∧ liveEntry g x.g.low = some e ∧ e.wait = .cflush [c.pa]))) ∧
  ∀ (leaf : Leaf) (l pa : Nat), Completes (.pref h ad) (sigPref h ad)
    (fun x s => one (sigPref h ad) leaf l pa x s ∧ s.eng.accs = [] ∧
      let q := pa / leaf.grain * leaf.grain
      copyOf s x.core q leaf.grain = none ∧ wbufOf s x.core q leaf.grain = none ∧ pendOf s x.core q leaf.grain = none ∧ uncachedBy s x.core q leaf.grain = false ∧
      tagBusy s x.core q leaf.grain x.ctx = false)
    (fun x s t => ∃ m g, ⟨s.ns, 0, .rds m⟩ ∈ t.agenda ∧ m.pa = pa / leaf.grain * leaf.grain ∧ m.gsz = leaf.grain ∧ m.frm = x.core ∧
      grpOf t x.g = some g ∧ g = { x.grp with stack := g.stack, turn := g.turn, waitFrom := g.waitFrom } ∧ MovedOn x g)

/-! ## Copy engines and base-die commands (MAJ 0x1C and 0x1D) -/

namespace Sys2Proof.Stmt

open Sys2Proof Sys2Proof.Machine

/-- The extents of a tensor record minus 1, and the number of its elements (R403). -/
def extent (t : TRec) (n : Nat) : Nat := t.n.getD n 0
def elements (t : TRec) : Nat := (extent t 0 + 1) * (extent t 1 + 1) * (extent t 2 + 1) * (extent t 3 + 1)

/-- The offset of element k in element order, i0 fastest (R403). -/
def elementAt (t : TRec) (ss : List Int) (k : Nat) : Int :=
  let i0 := k % (extent t 0 + 1)
  let i1 := k / (extent t 0 + 1) % (extent t 1 + 1)
  let i2 := k / ((extent t 0 + 1) * (extent t 1 + 1)) % (extent t 2 + 1)
  let i3 := k / ((extent t 0 + 1) * (extent t 1 + 1) * (extent t 2 + 1)) % (extent t 3 + 1)
  (i0 * 2 ^ t.esz : Nat) + i1 * ss.getD 0 0 + i2 * ss.getD 1 0 + i3 * ss.getD 2 0

/-- Check 1 of R405 on a side. -/
def sideAligned (t : TRec) (lv : Nat) (base : W64) (ss : List Int) : Prop :=
  lv = 3 ∨ (base.toNat % 2 ^ t.esz = 0 ∧ ∀ d ∈ ss, d % (2 ^ t.esz : Nat) = 0)

/-- Check 2 of R405 on a side: a slab of `slab` bytes and a pad window of `pad` bytes hold every byte that it reaches. -/
def sideInside (t : TRec) (slab pad lv : Nat) (base : W64) (ss : List Int) : Prop :=
  lv ≠ 3 ∧ (lv = 0 ∨ ∀ k, k < elements t → 0 ≤ (base.toNat : Int) + elementAt t ss k ∧
    (base.toNat : Int) + elementAt t ss k + (2 ^ t.esz : Nat) ≤ (if lv = 1 then slab else pad : Nat))

/-- Check 3 of R405. -/
def regSideOk (t : TRec) : Prop :=
  extent t 1 = 63 ∧ extent t 2 = 0 ∧ extent t 3 = 0 ∧ ((extent t 0 + 1) * 2 ^ t.esz) % 4 = 0 ∧ (extent t 0 + 1) * 2 ^ t.esz ≤ 128

/-- The sides of a copy instruction that its record gives. -/
def sidesOf (t : TRec) (src dst : Bool) : List (Nat × W64 × List Int) :=
  (if src then [(t.slv, t.srca, t.ss)] else []) ++ if dst then [(t.dlv, t.dsta, t.ds)] else []

/-- A slab after the first k elements of a record's destination side have been written in element order, byte j of element i from `val`, which sees
the slab as the elements before i have left it (R406). -/
def slabAfter (t : TRec) (val : (Nat → Byte) → Nat → Nat → Byte) : Nat → (Nat → Byte) → Nat → Byte
  | 0, m => m
  | k + 1, m =>
    let m := slabAfter t val k m
    let d := ((t.dsta.toNat : Int) + elementAt t t.ds k).toNat
    fun o => if d ≤ o ∧ o < d + 2 ^ t.esz then val m k (o - d) else m o

/-- Where element k of a source side in the slab lies. -/
def srcPlace (t : TRec) (k : Nat) : Nat := ((t.srca.toNat : Int) + elementAt t t.ss k).toNat

/-- The bytes of the elements of a fill, of a copy from the slab, and of a register side. -/
def fillBytes (v : W64) (_ : Nat → Byte) (_ j : Nat) : Byte := BitVec.ofNat 8 (v.toNat / 2 ^ (8 * j))
def slabBytes (t : TRec) (m : Nat → Byte) (k j : Nat) : Byte := m (srcPlace t k + j)
def regBytesOf (t : TRec) (g : Group) (v : Nat) (_ : Nat → Byte) (k j : Nat) : Byte :=
  let i := k * 2 ^ t.esz + j
  let row := (extent t 0 + 1) * 2 ^ t.esz
  BitVec.ofNat 8 ((vget g (v + i % row / 4) (i / row)).toNat / 2 ^ (8 * (i % row % 4)))

/-- No die is halted or lost and every granule of the block's slab is there, so that the copy engine runs. -/
def engineRuns (b : Block) (s : State) : Prop :=
  b.state = .resident ∧ s.pkg.haltDies = 0 ∧ s.pkg.lostDies = 0 ∧ ∀ n, Granule.slab n ∉ b.absent

/-- The context runs and the group has not exited. -/
def runsOn (x : Iss) (s : State) : Prop := x.grp.exited = false ∧ ∀ c, ctxOf s x.ctx = some c → c.cst ≠ 3

/-- The trap PROT, CAUSE 2, of an engine instruction, at a boundary and with RESTART 0 (log entry 133). -/
def canonTrap (va : W64) (kind : Nat) (x : Iss) : Trap :=
  ⟨.prot, BitVec.ofNat 256 (va.toNat * 2 ^ 192 + 2 * 2 ^ 66 + kind * 2 ^ 62), false, some (x.ent.pc, x.mask, false, x.ent.pc)⟩

/-- Nothing is performed, the path goes on, and the trap is due at the group's next boundary. -/
def DueAt (tr : Iss → Trap) (x : Iss) (s t : State) : Prop := ∃ y, grpOf t x.g = some y ∧ y.held = x.grp.held ++ [tr x] ∧ y.k = x.grp.k ∧
  y.v = x.grp.v ∧ y.flights = x.grp.flights ∧ t.eng = s.eng ∧ t.mem = s.mem ∧
  (x.ent.reissue = none → ∃ e, liveEntry y x.g.low = some e ∧ e.pc = x.npc)

/-- A command of the group on its core's engine, counted on path p by its operation number. -/
def counted (x : Iss) (p op : Nat) (t : State) : Prop :=
  ∃ g, grpOf t x.g = some g ∧ g.k = x.grp.k ∧ g.m = x.grp.m ∧ g.v = x.grp.v ∧ (∃ f ∈ g.flights, f.path = p ∧ f.op = op ∧ f.done = false) ∧
    (x.ent.reissue = none → x.ent.wait = .none → ∃ e, liveEntry g x.g.low = some e ∧ e.pc = x.npc ∧ e.wait = .none)

end Sys2Proof.Stmt

/-- R403 to R406: a copy instruction reads its 64-byte record, makes its checks in order and, where they pass, queues one command with that record, counted on path 3,
while the group goes on; registers that a tcopy fills are pending from issue, and a tstore's command carries its registers' bytes, row i1 from lane i1. A check
that fails traps with RESTART, the record address and its physical address. A record that is not aligned traps unread; the trap PROT, CAUSE 2, of one that is not canonical
is due at a boundary (the model's reading of R140 and R355: log entry 133). A fill, a tstore or a copy that lies in the slab and has at most 4,096 elements is
performed at issue (the burst is the model's choice: log entry 96), each element in order with the bytes of its source, and no other byte of the slab
changes. That KIND of a record's trap is 3 is log entry 132. No element's address at level g is other than canonical here and the translation of the first
one meets no error; command numbers are the model's own. -/
def Sys2Proof.Stmt.CopyIssue : Prop := ∀ (nw : Bool) (krec vs kval : Nat) (bs : List Byte) (s' : State),
  let t := trecOf bs
  let va := fun x : Iss => kget x.grp krec
  let pad := fun x : Iss => ((ctxOf s' x.ctx).map fun c => min (c.padLim * 4096) (96 * 2 ^ 20 - c.padBase * 4096)).getD 0
  let room := fun x : Iss => noAcquire x ∧ cnt x.grp 3 < 255
  let reads := fun (g : Sig) (x : Iss) (s : State) => room x ∧ (va x).toNat % 64 = 0 ∧ canonical (va x) = true ∧
    readAt (.core x.core) (groupKey x.g) x.ctx (va x) 64 (advance g x s) = .ok bs s' ∧ (∀ c ∈ s'.eng.copies, c.op < s'.nextId) ∧ x.grp.exited = false ∧
    s'.blocks = (advance g x s).blocks
  let reachable := fun (a b : Bool) => ∀ q ∈ sidesOf t a b, q.1 = 0 → ∀ k, k < elements t →
    canonical (q.2.1 + BitVec.ofInt 64 (elementAt t q.2.2 k)) = true
  let clean := fun (a b : Bool) (x : Iss) => (a = true → t.slv = 0 → ∀ m, (translate (.copy x.core) x.ctx .read t.srca s').1 ≠ .nak m) ∧
    (b = true → t.dlv = 0 → ∀ m, (translate (.copy x.core) x.ctx .write t.dsta s').1 ≠ .nak m)
  let inSlab := fun (val : Iss → (Nat → Byte) → Nat → Nat → Byte) (src : Bool) (x : Iss) (u : State) (c : CopyCmd) =>
    t.dlv = 1 → (src = true → t.slv = 1) → elements t ≤ 4096 → engineRuns x.blk s' → c.next = elements t ∧
      ∃ b', blkOf u x.g.blk = some b' ∧ ∀ o, FMap.get 0 b'.slab o = slabAfter t (val x) (elements t) (fun o => FMap.get 0 x.blk.slab o) o
  let aligned := fun (a b : Bool) => ∀ q ∈ sidesOf t a b, sideAligned t q.1 q.2.1 q.2.2
  let inside := fun (a b : Bool) (x : Iss) => ∀ q ∈ sidesOf t a b, sideInside t (256 * x.lrec.slab) (pad x) q.1 q.2.1 q.2.2
  let row := (extent t 0 + 1) * 2 ^ t.esz
  let regs := fun n : Nat => (List.range (row / 4)).map (n + ·)
  let top := fun x : Iss => baseRegs x.lrec + x.grp.ext
  let fits := fun (base : Option Nat) (x : Iss) => ∀ b, base = some b → regSideOk t ∧ b + row / 4 ≤ top x
  let starts := fun (i : Instr) (g : Sig) (a b : Bool) (base : Option Nat) (free : Iss → Prop) (P : Iss → State → CopyCmd → Group → Prop) =>
    Completes i g (fun x s => reads g x s ∧ clean a b x ∧ reachable a b ∧ aligned a b ∧ inside a b x ∧ fits base x ∧ free x) (fun x _ u =>
      ∃ c ∈ u.eng.copies, c.g = some x.g ∧ c.trecd = t ∧ c.op = s'.nextId ∧ c.pc = x.ent.pc ∧ counted x 3 c.op u ∧
        ∃ g', grpOf u x.g = some g' ∧ P x u c g')
  let bad := fun (c : TrapCode) (pa : Nat) (x : Iss) =>
    (⟨c, BitVec.ofNat 256 ((va x).toNat * 2 ^ 192 + pa % 2 ^ 52 * 2 ^ 76 + 3 * 2 ^ 62), true, none⟩ : Trap)
  let stops := fun (i : Instr) (g : Sig) (a b : Bool) (base : Option Nat) =>
    Traps i g true (fun x _ => room x ∧ (∀ b, base = some b → b < top x) ∧ (va x).toNat % 64 ≠ 0) (fun x _ => laneTrapOf .align (va x) 0 0 0) ∧
    Completes i g (fun x s => room x ∧ (∀ b, base = some b → b < top x) ∧ (va x).toNat % 64 = 0 ∧ canonical (va x) = false ∧ runsOn x s)
      (DueAt fun x => canonTrap (va x) 0 x) ∧
    ∀ (x : Iss) (s : State) (pa : Nat) (l : Leaf), Ready g s x → reads g x s → (∀ b, base = some b → b < top x) →
      probe s' (.core x.core) x.ctx .read (va x) = .ok pa l →
      (¬ aligned a b → exec i s = .next (takeTrap x (inChain g x.ent || g.hold ≠ 0) (bad .align pa x) s')) ∧
      (aligned a b → ¬ inside a b x → exec i s = .next (takeTrap x (inChain g x.ent || g.hold ≠ 0) (bad .prot pa x) s')) ∧
      (aligned a b → inside a b x → ∀ n, base = some n → ¬ regSideOk t →
        exec i s = .next (takeTrap x (inChain g x.ent || g.hold ≠ 0) (bad .prot pa x) s')) ∧
      (aligned a b → inside a b x → ∀ n, base = some n → regSideOk t → top x < n + row / 4 →
        exec i s = .next (takeTrap x (inChain g x.ent || g.hold ≠ 0) ⟨.xreg, 0, true, none⟩ s'))
  starts (.tcopy nw none krec) (sigTcopy nw none krec) true true none (fun _ => True) (fun x u c _ => c.kind = .copy ∧ inSlab (fun _ => slabBytes t) true x u c) ∧
  stops (.tcopy nw none krec) (sigTcopy nw none krec) true true none ∧
  (∀ n, starts (.tcopy nw (some n) krec) (sigTcopy nw (some n) krec) true false (some n)
    (fun x => n < top x ∧ ∀ r ∈ regs n, (∀ p ∈ x.grp.pend, p.reg ≠ r) ∧ ∀ p ∈ x.grp.busy, p.reg ≠ r)
    (fun _ _ c g => c.kind = .toRegs (if nw then none else some n) ∧ (nw = false → ∀ r ∈ regs n, ∃ p ∈ g.pend, p.reg = r ∧ p.op = c.op)) ∧
    stops (.tcopy nw (some n) krec) (sigTcopy nw (some n) krec) true false (some n)) ∧
  starts (.tstore krec vs) (sigTstore krec vs) false true (some vs)
    (fun x => vs < top x ∧ ∀ p ∈ x.grp.pend, ¬ (p.reg ∈ regs vs ∧ p.op ∈ x.grp.marks)) (fun x u c _ => c.kind = .fromRegs ∧
      inSlab (fun x => regBytesOf t x.grp vs) false x u c ∧
      ∀ l b, l < 64 → b < row → c.buf.getD (l * row + b) 0 = BitVec.ofNat 8 ((vget x.grp (vs + b / 4) l).toNat / 2 ^ (8 * (b % 4)))) ∧
  stops (.tstore krec vs) (sigTstore krec vs) false true (some vs) ∧
  starts (.tfill krec kval) (sigTfill krec kval) false true none (fun _ => True) (fun x u c _ => c.kind = .fill (kget x.grp kval) ∧ inSlab (fun x => fillBytes (kget x.grp kval)) false x u c) ∧
  stops (.tfill krec kval) (sigTfill krec kval) false true none ∧
  (let r := ofBytes bs
   t.srca.toNat = bits r 511 448 ∧ t.dsta.toNat = bits r 447 384 ∧ t.ss = [sext 32 (bits r 383 352), sext 32 (bits r 351 320), sext 32 (bits r 319 288)] ∧
   t.ds = [sext 32 (bits r 287 256), sext 32 (bits r 255 224), sext 32 (bits r 223 192)] ∧
   t.n = [bits r 191 176, bits r 175 160, bits r 159 144, bits r 143 128] ∧ t.slv = bits r 127 126 ∧ t.dlv = bits r 125 124 ∧ t.esz = bits r 123 122)

/-- R404, R406 to R408: a command performs its elements in element order, its slab elements at once, and completes when the last is performed. A fill or a copy that lies in
the slab and has at most 4,096 elements is performed by the step that resumes it (the burst is the model's choice: log entry 96): every byte of an element takes the
value of its source as the elements before it have left it, and no other byte changes. An element at level g is read and written by one uncached access of its bytes to its
home, under the grain of its page; the bytes that come back land in the slab or stand as the element's value, and the answer to its write is what performs the element. At
completion the rows that came to registers are written lane by lane, registers that no row byte reaches stay, and the counter falls. -/
def Sys2Proof.Stmt.CopyPerforms : Prop := ∀ (s : State) (c : CopyCmd) (g : GRef) (b : Block) (gr : Group),
  copyCmd s c.op = some c → c.g = some g → blkOf s g.blk = some b → grpIn b g.gid = some gr → gr.exited = false → b.state = .resident →
  s.pkg.haltDies = 0 → s.pkg.lostDies = 0 → (∀ n, Granule.slab n ∉ b.absent) → (∀ n, Granule.vreg n ∉ b.absent) → c.stopped = none → c.queue = none → c.trecd.n.length = 4 → c.trecd.ss.length = 3 → c.trecd.ds.length = 3 →
  let t := c.trecd
  let w := 2 ^ t.esz
  let inSlab := fun (lv : Nat) (base : W64) (ss : List Int) => lv = 1 ∧ sideInside t (2 ^ 20) 0 1 base ss
  let performs := fun (val : (Nat → Byte) → Nat → Nat → Byte) => c.tag = 0 → c.next = 0 → c.val = none → elements t ≤ 4096 → t.esz ≤ 3 →
    inSlab t.dlv t.dsta t.ds →
    ∃ u b', exec (.copyCommandComplete c.op) s = .next u ∧ blkOf u g.blk = some b' ∧ u.mem = s.mem ∧
      (∃ c', copyCmd u c.op = some c' ∧ c'.next = elements t) ∧ (∃ d ∈ u.agenda, d.ev = .copyCommandComplete c.op) ∧
      ∀ o, FMap.get 0 b'.slab o = slabAfter t val (elements t) (fun o => FMap.get 0 b.slab o) o
  let free := fun (pa : Nat) (l : Leaf) => l.grain > 0 ∧ pendOf s c.core (pa / l.grain * l.grain) l.grain = none ∧
    wbufOf s c.core (pa / l.grain * l.grain) l.grain = none ∧ copyOf s c.core (pa / l.grain * l.grain) l.grain = none
  let at_ := fun (base : W64) (ss : List Int) => base + BitVec.ofInt 64 (elementAt t ss c.next)
  let place := ((t.dsta.toNat : Int) + elementAt t t.ds c.next).toNat
  (∀ v, c.kind = .fill v → performs (fillBytes v)) ∧
  (c.kind = .copy → inSlab t.slv t.srca t.ss → performs (slabBytes t)) ∧
  (∀ (pa : Nat) (l : Leaf), c.tag = 0 → c.next < elements t → c.val = none → (c.kind = .copy ∨ ∃ d, c.kind = .toRegs d) → t.slv = 0 →
    canonical (at_ t.srca t.ss) = true → translate (.copy c.core) c.ctx .read (at_ t.srca t.ss) s = (.ok pa l, s) → free pa l →
    ∃ u m c', exec (.copyCommandComplete c.op) s = .next u ∧ ⟨s.ns, 0, .uncachedRead m⟩ ∈ u.agenda ∧ m.req = c.core ∧ m.ctx = c.ctx ∧
      m.pa = pa / l.grain * l.grain ∧ m.gsz = l.grain ∧ m.off = pa % l.grain ∧ copyCmd u c.op = some c' ∧ c' = { c with tag := m.tag } ∧
      u.mem = s.mem ∧ u.blocks = s.blocks) ∧
  (∀ (v : W64) (pa : Nat) (l : Leaf), c.tag = 0 → c.next < elements t → c.val = some v → (∀ d, c.kind ≠ .toRegs d) → t.dlv = 0 →
    canonical (at_ t.dsta t.ds) = true → translate (.copy c.core) c.ctx .write (at_ t.dsta t.ds) s = (.ok pa l, s) → free pa l →
    pa % l.grain + w ≤ l.grain →
    ∃ u m c', exec (.copyCommandComplete c.op) s = .next u ∧ ⟨s.ns, 0, .uncachedWrite m⟩ ∈ u.agenda ∧ m.req = c.core ∧ m.ctx = c.ctx ∧
      m.pa = pa / l.grain * l.grain ∧ m.gsz = l.grain ∧ copyCmd u c.op = some c' ∧ c' = { c with tag := m.tag } ∧ u.mem = s.mem ∧
      u.blocks = s.blocks ∧ ∀ i, i < l.grain →
        (m.bmask.getD i false = true ↔ pa % l.grain ≤ i ∧ i < pa % l.grain + w) ∧
        (m.bmask.getD i false = true → m.data.getD i 0 = BitVec.ofNat 8 (v.toNat / 2 ^ (8 * (i - pa % l.grain))))) ∧
  (∀ m : Msg, m.tag ≠ 0 → c.tag = m.tag → m.frm = 512 → m.dst = c.core → c.core < 160 → pendTag m s = none → asked m s = false →
    (∀ e ∈ s.eng.copies, e.tag = m.tag → e = c) → c.next < elements t →
    (c.val = none → c.kind = .copy → t.slv = 0 → inSlab t.dlv t.dsta t.ds → t.esz ≤ 3 →
      ∃ u b', exec (.data m) s = .next u ∧ blkOf u g.blk = some b' ∧ u.mem = s.mem ∧
        (c.next + 1 = elements t → ∃ c', copyCmd u c.op = some c' ∧ c'.next = elements t ∧ ∃ d ∈ u.agenda, d.ev = .copyCommandComplete c.op) ∧
        ∀ o, FMap.get 0 b'.slab o =
          if place ≤ o ∧ o < place + w then m.data.getD (m.off + (o - place)) 0 else FMap.get 0 b.slab o) ∧
    (∀ v, c.val = some v → c.next + 1 = elements t → (∀ d, c.kind ≠ .toRegs d) →
      ∃ u c', exec (.data m) s = .next u ∧ copyCmd u c.op = some c' ∧ c' = { c with tag := 0, val := none, next := elements t } ∧
        ∃ d ∈ u.agenda, d.ev = .copyCommandComplete c.op)) ∧
  (∀ d : Option Nat, c.next = elements t → c.kind = .toRegs d → regSideOk t →
    ∃ u g', exec (.copyCommandComplete c.op) s = .next u ∧ grpOf u g = some g' ∧ copyCmd u c.op = none ∧
      g'.flights = fallFrom [] (mapIf (·.op == c.op) (fun f => { f with done := true }) gr.flights) ∧ (∀ p ∈ g'.pend, p.op ≠ c.op) ∧
      ∀ n l, l < 64 → vget g' n l = match d with
        | some d => if d ≤ n ∧ n < d + (extent t 0 + 1) * w / 4 then
            BitVec.ofNat 32 (((List.range 4).map fun j => (c.buf.getD (l * ((extent t 0 + 1) * w) + 4 * (n - d) + j) 0).toNat * 2 ^ (8 * j)).sum)
          else vget gr n l
        | none => vget gr n l)

namespace Sys2Proof.Stmt

open Sys2Proof Sys2Proof.Machine

/-- A translation that the core's TLB holds: it permits the access, and no A, D or table byte changes (R145, R146). -/
def tlbHit (s : State) (core ctx : Nat) (write : Bool) (va : Nat) (l : Leaf) : Prop :=
  (∃ c, ctxOf s ctx = some c ∧ c.en = true) ∧ tlbFind s (.core core) ctx (va % 2 ^ 48 / 4096) = some l ∧
    (write = true → l.w = true ∧ l.d = true)

/-- Entry i of a list of indices of w bytes. -/
def indexAt (list : List Byte) (w i : Nat) : Nat := ((List.range w).map fun j => (list.getD (i * w + j) 0).toNat * 2 ^ (8 * j)).sum

end Sys2Proof.Stmt

/-- R82, R84, R409 to R411: a base-die command over pages that the core's TLB holds is sent whole, counted on path 5, as pieces split at the pages of its routing side, and moves
exactly the words that R410 names: row idx[i] of the source to row i for bdgather, row i to row idx[i] for bdscat (one row for a word that several name, a free choice: log entry 9),
each element of row i to row t of the destination for bdred, and element i for bdconv. n = 0 sends nothing. A count above 65,536 traps with PROT, CAUSE 0, a base that is not
aligned with ALIGN, and a page that breaks R84 with PROT, CAUSE 3, naming its address, its physical address and by KIND its side, and nothing is
sent; the trap PROT, CAUSE 2, of a list whose base is not canonical is due at a boundary (log entry 133). No die is lost. -/
def Sys2Proof.Stmt.BaseDieIssue : Prop := ∀ (kd ka kl kc rsz rop : Nat) (iw : Bool) (ty st : Ty) (list : List Byte) (s' : State) (leafS leafD : Nat → Leaf),
  let n := fun x : Iss => (kget x.grp kc).toNat
  let sa := fun x : Iss => (kget x.grp ka).toNat
  let da := fun x : Iss => (kget x.grp kd).toNat
  let r := 4 * (rsz + 1)
  let w := if iw then 8 else 4
  let ew := ty.width / 8
  let idx := indexAt list w
  let room := fun x : Iss => noAcquire x ∧ cnt x.grp 5 < 255
  let sends := fun (i : Instr) (g : Sig) (kind : BdKind) (sw dw : Nat) (from_ : Iss → State → Prop) (moves : Iss → Nat → Nat → Prop) =>
    Completes i g (fun x s => room x ∧ n x ≤ 65536 ∧ da x % dw = 0 ∧ sa x % sw = 0 ∧ from_ x s ∧ (∀ c ∈ s'.eng.bds, c.op < s'.nextId) ∧
        x.grp.exited = false ∧ grpOf s' x.g = grpOf (advance g x s) x.g ∧ s'.pkg.lostDies = 0 ∧
        ∀ a b, moves x a b → canonical (BitVec.ofNat 64 a) = true ∧ canonical (BitVec.ofNat 64 b) = true ∧ a < 2 ^ 64 ∧ b < 2 ^ 64 ∧
          tlbHit s' x.core x.ctx false a (leafS a) ∧ tlbHit s' x.core x.ctx true b (leafD b) ∧ (leafS a).kind = 0 ∧ (leafS a).cmp = false ∧
          (leafD b).kind = 0 ∧ (leafD b).cmp = false)
      (fun x _ t => ∃ c ∈ t.eng.bds, c.g = x.g ∧ c.kind = kind ∧ c.op = s'.nextId ∧ c.todo = [] ∧ counted x 5 c.op t ∧
        (∀ p ∈ c.pieces, ∀ m ∈ p.2, moves x m.sva m.dva ∧ m.src = (leafS m.sva).page + m.sva % 2 ^ 48 % (leafS m.sva).size ∧
          m.dst = (leafD m.dva).page + m.dva % 2 ^ 48 % (leafD m.dva).size) ∧
        (∀ p ∈ c.pieces, ∀ m ∈ p.2, ∀ q ∈ c.pieces, ∀ k ∈ q.2,
          (if kind = .gather then m.src / 4096 = k.src / 4096 else m.dst / 4096 = k.dst / 4096) ↔ p.1 = q.1) ∧
        (kind ≠ .scat → ∀ a b, moves x a b → ∃ p ∈ c.pieces, ∃ m ∈ p.2, m.sva = a ∧ m.dva = b) ∧
        (kind = .scat → (∀ a b, moves x a b → ∃ p ∈ c.pieces, ∃ m ∈ p.2, m.dva = b) ∧
          ∀ p ∈ c.pieces, ∀ m ∈ p.2, ∀ q ∈ c.pieces, ∀ k ∈ q.2, m.dva = k.dva → m = k) ∧
        (∀ p ∈ c.pieces, ∃ d ∈ t.agenda, d.ev = .bdPieceApply c.op p.1) ∧ (n x = 0 → ∃ d ∈ t.agenda, d.ev = .bdCommandComplete c.op))
  let listed := fun (g : Sig) (x : Iss) (s : State) => (kget x.grp kl).toNat % w = 0 ∧
    (n x ≠ 0 → canonical (kget x.grp kl) = true ∧ canonical (kget x.grp kl + BitVec.ofNat 64 (n x * w - 1)) = true) ∧
    readList x w (n x) (kget x.grp kl) (advance g x s) = .ok list s'
  let bare := fun (g : Sig) (x : Iss) (s : State) => s' = advance g x s
  let words := fun (f : Iss → Nat → Nat) (h : Iss → Nat → Nat) (k : Nat) (x : Iss) (a b : Nat) => ∃ i e, i < n x ∧ e < r / k ∧
    a = (f x i + e * k) % 2 ^ 64 ∧ b = (h x i + e * k) % 2 ^ 64
  let stops := fun (i : Instr) (g : Sig) (sw dw : Nat) =>
    Traps i g true (fun x _ => room x ∧ 65536 < n x) (named .prot fun _ => 0) ∧
    Traps i g true (fun x _ => room x ∧ n x ≤ 65536 ∧ da x % dw ≠ 0) (fun x _ => laneTrapOf .align (kget x.grp kd) 0 0 4) ∧
    Traps i g true (fun x _ => room x ∧ n x ≤ 65536 ∧ da x % dw = 0 ∧ sa x % sw ≠ 0) (fun x _ => laneTrapOf .align (kget x.grp ka) 0 0 3)
  let listStops := fun (i : Instr) (g : Sig) (sw dw : Nat) =>
    Completes i g (fun x s => room x ∧ n x ≤ 65536 ∧ n x ≠ 0 ∧ da x % dw = 0 ∧ sa x % sw = 0 ∧ (kget x.grp kl).toNat % w = 0 ∧
      canonical (kget x.grp kl) = false ∧ runsOn x s) (DueAt fun x => canonTrap (kget x.grp kl) 3 x)
  let gG := sigBdgather kd ka kl kc rsz iw
  let gS := sigBdscat kd ka kl kc rsz iw
  let gR := fun k => sigBdred ty kd ka k kc rsz iw rop
  let gC := sigBdconv ty st kd ka kc
  let gathers := words (fun x i => sa x + idx i * r) (fun x i => da x + i * r) 4
  sends (.bdgather kd ka kl kc rsz iw) gG .gather 4 4 (listed gG) gathers ∧
  (∀ (x : Iss) (s : State), Ready gG s x → room x → n x ≤ 65536 → da x % 4 = 0 → sa x % 4 = 0 → listed gG x s →
    (∀ c ∈ s'.eng.bds, c.op < s'.nextId) → s'.pkg.lostDies = 0 →
    (∀ a b, gathers x a b → canonical (BitVec.ofNat 64 a) = true ∧ canonical (BitVec.ofNat 64 b) = true ∧
      tlbHit s' x.core x.ctx false a (leafS a) ∧ tlbHit s' x.core x.ctx true b (leafD b)) →
    (∃ a b, gathers x a b ∧ ((leafS a).kind = 2 ∨ (leafD b).kind = 2)) →
    ∃ (a b va pa kind : Nat) (u : State), gathers x a b ∧
      (kind = 3 ∧ va = a ∧ (leafS a).kind = 2 ∧ pa = (leafS a).page + a % 2 ^ 48 % (leafS a).size ∨
        kind = 4 ∧ va = b ∧ (leafD b).kind = 2 ∧ pa = (leafD b).page + b % 2 ^ 48 % (leafD b).size) ∧
      exec (.bdgather kd ka kl kc rsz iw) s = .next (takeTrap x (inChain gG x.ent || gG.hold ≠ 0)
        ⟨.prot, BitVec.ofNat 256 (va * 2 ^ 192 + pa % 2 ^ 52 * 2 ^ 76 + 3 * 2 ^ 66 + kind * 2 ^ 62), true, none⟩ u) ∧
      u.eng.bds = s'.eng.bds) ∧
  sends (.bdscat kd ka kl kc rsz iw) gS .scat 4 4 (listed gS) (words (fun x i => sa x + i * r) (fun x i => da x + idx i * r) 4) ∧
  (ty ∈ [Ty.i32, .n32, .i64, .n64, .f32] →
    sends (.bdred ty kd ka (some kl) kc rsz iw rop) (gR (some kl)) (.red ty rop) ew ew (listed (gR (some kl)))
      (words (fun x i => sa x + i * r) (fun x i => da x + idx i * r) ew) ∧
    sends (.bdred ty kd ka none kc rsz iw rop) (gR none) (.red ty rop) ew ew (bare (gR none))
      (words (fun x i => sa x + i * r) (fun x i => da x + i * r) ew) ∧
    stops (.bdred ty kd ka none kc rsz iw rop) (gR none) ew ew ∧ stops (.bdred ty kd ka (some kl) kc rsz iw rop) (gR (some kl)) ew ew) ∧
  (let set := [Ty.f32, .i32, .bf16x2, .f16x2, .e4m3x4, .e5m2x4, .l6]
   ty ∈ set → st ∈ set →
    sends (.bdconv ty st kd ka kc) gC (.conv ty st) (st.width / 8) ew (bare gC)
      (fun x a b => ∃ i, i < n x ∧ a = (sa x + i * (st.width / 8)) % 2 ^ 64 ∧ b = (da x + i * ew) % 2 ^ 64) ∧
    stops (.bdconv ty st kd ka kc) gC (st.width / 8) ew) ∧
  stops (.bdgather kd ka kl kc rsz iw) gG 4 4 ∧ stops (.bdscat kd ka kl kc rsz iw) gS 4 4 ∧
  listStops (.bdgather kd ka kl kc rsz iw) gG 4 4 ∧ listStops (.bdscat kd ka kl kc rsz iw) gS 4 4

/-! ## The matrix engine (MAJ 0x20 to 0x22) -/

namespace Sys2Proof.Stmt

open Sys2Proof Sys2Proof.Machine

/-- The types that accout converts to (R419). -/
def outTys : List Ty := [.f32, .i32, .bf16x2, .f16x2, .i8x4, .e4m3x4, .e5m2x4, .l6]

/-- The first row of a row operand (R414). -/
def rowOf (r : RowOp) (x : Iss) : Nat := (match r.base with
  | some k => (kget x.grp k).toNat
  | none => 0) + r.e

/-- Row n lies in the window of the group. -/
def inWindow (x : Iss) (n : Nat) : Prop := x.grp.accBase ≤ n ∧ n < x.grp.accLim

/-- Row n is the lowest of c rows from r0 outside the group's window. -/
def outAt (x : Iss) (r0 c n : Nat) : Prop := r0 ≤ n ∧ n < r0 + c ∧ ¬ inWindow x n ∧ ∀ j, r0 ≤ j → j < n → inWindow x j

/-- Some incomplete batch of another group of the block writes one of the rows (R242, R415). -/
def rowsBusy (x : Iss) (r0 c : Nat) : Prop := ∃ g ∈ x.blk.groups, g.gid ≠ x.g.gid ∧ ∃ b ∈ g.batch :: g.closed, b.done = false ∧
  ∃ w ∈ b.rows, w.1 < r0 + c ∧ r0 < w.1 + w.2

/-- The registers of a matrix operand of c registers with V code n (R314, R424): one k register stands for all of them, and the codes for zero and
the lane index name none (the model's choice, log entry 144). -/
def operand (n c : Nat) : List Nat := if n < 1536 then (List.range c).map (n + ·) else if 1600 ≤ n then [n] else []

/-- The destinations have no write on its way and no op still reads them, and the open batch has room. -/
def opRoom (dsts : List Nat) (x : Iss) : Prop :=
  (∀ r ∈ dsts, (∀ p ∈ x.grp.pend, p.reg ≠ r) ∧ ∀ p ∈ x.grp.busy, p.reg ≠ r) ∧ x.grp.batch.nops < 4096

/-- An op has joined its group's open batch and the order of its core's engine, from state `s`: its sources are busy, its destinations pending, nothing is written. -/
def Joined (kind : MKind → Prop) (r0 c : Nat) (srcs dsts : List Nat) (x : Iss) (s t : State) : Prop :=
  ∃ o g b, coreMops t x.core = coreMops s x.core ++ [o] ∧ kind o.kind ∧ o.op = s.nextId ∧ o.g = x.g ∧ o.r0 = r0 ∧ o.c = c ∧ o.row = 0 ∧ o.fmt = x.ent.fmt ∧
    o.batch = x.grp.nextBatch ∧ o.stopped = none ∧ (∃ d ∈ t.agenda, d.ev = .matrixOpComplete x.core) ∧ t.mem = s.mem ∧
    blkOf t x.g.blk = some b ∧ b = { x.blk with groups := b.groups } ∧ grpOf t x.g = some g ∧ MovedOn x g ∧
    g = { x.grp with
      stack := g.stack, turn := g.turn, waitFrom := g.waitFrom, pend := g.pend, busy := g.busy, teamOps := g.teamOps, gens := g.gens, ctrs := g.ctrs
      batch := { x.grp.batch with nops := x.grp.batch.nops + 1, rows := g.batch.rows } } ∧
    (∀ p, p ∈ g.pend ↔ p ∈ x.grp.pend ∨ p.op = o.op ∧ p.reg ∈ dsts) ∧ ∀ p, p ∈ g.busy ↔ p ∈ x.grp.busy ∨ p.op = o.op ∧ p.reg ∈ srcs

/-- The op waits at issue: nothing has changed but what its record's read leaves. -/
def HeldBack (x : Iss) (s t : State) : Prop := grpOf t x.g = some x.grp ∧ t.eng = s.eng ∧ t.mem = s.mem ∧ t.agenda = s.agenda

end Sys2Proof.Stmt

/-- R413 to R416 and R418 to R421 at issue: accwin sets the window of the group that it names and of no other, and traps with ACCWIN where it may not; accz, the accumulator moves and accout
join the open batch and the engine's order where all their rows lie in the window, the lowest row that does not traps with ACCWIN, and rows of an incomplete batch of another group hold
the op back. A conversion to l6 draws nothing whatever FMT.RND is (R284). A record is read and checked at issue; the registers of accout are pending from issue, and one beyond the group's traps with XREG. -/
def Sys2Proof.Stmt.AccumulatorIssue : Prop := ∀ (kg kb kl krec c : Nat) (h : Hdr) (n : Nat) (r : RowOp) (bs : List Byte) (s' : State), 0 < c →
  let gid := fun x : Iss => (kget x.grp kg).toNat
  let lo := fun x : Iss => (kget x.grp kb).toNat
  let hi := fun x : Iss => (kget x.grp kl).toNat
  let good := fun x : Iss => x.g.gid = 0 ∧ gid x ≤ x.lrec.gpb ∧ lo x ≤ hi x ∧ hi x ≤ 8 * x.lrec.accr
  Completes (.accwin kg kb kl) (sigAccwin kg kb kl) (fun x _ => good x) (fun x s t => OnlyBlock x.g.blk s t ∧
    (∃ g, grpOf t x.g = some g ∧ MovedOn x g ∧
      g = { x.grp with accBase := g.accBase, accLim := g.accLim, stack := g.stack, turn := g.turn, waitFrom := g.waitFrom }) ∧
    ∀ j g, grpOf s ⟨x.g.blk, j, false⟩ = some g → ∃ g', grpOf t ⟨x.g.blk, j, false⟩ = some g' ∧
      (g'.accBase, g'.accLim) = (if j = gid x then (lo x % 2 ^ 14, hi x % 2 ^ 15) else (g.accBase, g.accLim)) ∧
      (j ≠ 0 → g' = { g with accBase := g'.accBase, accLim := g'.accLim })) ∧
  Traps (.accwin kg kb kl) (sigAccwin kg kb kl) true (fun x _ => ¬ good x) (fun x s => plain .accwin (lo x % 2 ^ 14) x s) ∧
  (let r0 := rowOf r
   let wins := fun (c : Nat) (x : Iss) => ∀ j, r0 x ≤ j → j < r0 x + c → inWindow x j
   let t := trecOf bs
   let rows := extent t 1 + 1
   let reads := fun (g : Sig) (k : Nat) (x : Iss) (s : State) => (kget x.grp k).toNat % 64 = 0 ∧ canonical (kget x.grp k) = true ∧
     readAt (.core x.core) (groupKey x.g) x.ctx (kget x.grp k) 64 (advance g x s) = .ok bs s' ∧ s'.blocks = (advance g x s).blocks
   let shape := fun (esz : Nat) => extent t 0 = 63 ∧ extent t 2 = 0 ∧ extent t 3 = 0 ∧ t.esz = esz
   let side := fun (load : Bool) (x : Iss) => ∀ q ∈ sidesOf t load (!load), sideAligned t q.1 q.2.1 q.2.2 ∧
     sideInside t (256 * x.lrec.slab) (((ctxOf s' x.ctx).map fun c => min (c.padLim * 4096) (96 * 2 ^ 20 - c.padBase * 4096)).getD 0) q.1 q.2.1 q.2.2
   let moves := fun (i : Instr) (g : Sig) (k : Nat) (load : Bool) (esz : Nat) (kind : MKind → Prop) =>
     Completes i g (fun x s => reads g k x s ∧ side load x ∧ shape esz ∧ wins rows x ∧ ¬ rowsBusy x (r0 x) rows ∧ opRoom [] x)
       (fun x _ u => Joined kind (r0 x) rows [] [] x s' u) ∧
     Completes i g (fun x s => reads g k x s ∧ side load x ∧ shape esz ∧ wins rows x ∧ rowsBusy x (r0 x) rows) (fun x _ u => HeldBack x s' u) ∧
     (∀ j, ∀ (x : Iss) (s : State), Ready g s x → reads g k x s → side load x → shape esz → outAt x (r0 x) rows j →
       exec i s = .next (takeTrap x (inChain g x.ent || g.hold ≠ 0) (plain .accwin (j % 2 ^ 14) x s) s')) ∧
     Traps i g true (fun x _ => (kget x.grp k).toNat % 64 ≠ 0) (fun x _ => laneTrapOf .align (kget x.grp k) 0 0 0)
   Completes (.accz r c) (sigAccz r c) (fun x _ => wins c x ∧ ¬ rowsBusy x (r0 x) c ∧ opRoom [] x)
     (fun x s u => Joined (· = .accz) (r0 x) c [] [] x (advance (sigAccz r c) x s) u) ∧
   Completes (.accz r c) (sigAccz r c) (fun x _ => wins c x ∧ rowsBusy x (r0 x) c) (fun x s u => HeldBack x s u) ∧
   (∀ j, Traps (.accz r c) (sigAccz r c) true (fun x _ => outAt x (r0 x) c j) (plain .accwin (j % 2 ^ 14))) ∧
   moves (.accld r krec) (sigAccld r krec) krec true 2 (· = .accld t) ∧
   moves (.accst krec r) (sigAccst krec r) krec false 2 (· = .accst t) ∧
   (h.ty ∈ outTys → ∀ k : Nat,
     moves (.accout h (.mem k) r c) (sigAccout h (.mem k) r c) k false (Nat.log2 (4 / h.ty.elems)) (fun m => ∃ ws, m = .accoutMem t h.ty h.mod ws)) ∧
   let e := h.ty.elems
   let regs := operand n (c / e)
   let inside := fun (x : Iss) => n + c / e ≤ min 1536 (baseRegs x.lrec + x.grp.ext)
   let i : Instr := .accout h (.reg n) r c
   let g := sigAccout h (.reg n) r c
   Traps i g true (fun x _ => baseRegs x.lrec + x.grp.ext < n + c / e) (plain .xreg 0) ∧
   (∀ j, Traps i g true (fun x _ => inside x ∧ outAt x (r0 x) c j) (plain .accwin (j % 2 ^ 14))) ∧
   Completes i g (fun x _ => n < 1536 ∧ inside x ∧ wins c x ∧ ¬ rowsBusy x (r0 x) c ∧ opRoom regs x) (fun x s u =>
     ∃ ws : List (List Nat), Joined (· = .accoutReg n h.ty h.mod ws) (r0 x) c [] regs x (advance g x s) u ∧
       (h.ty = .l6 → ∃ g, grpOf u x.g = some g ∧ g.gens = x.grp.gens ∧ g.ctrs = x.grp.ctrs) ∧
       (h.ty ≠ .l6 → effRnd h.mod x.ent.fmt = .sr → ∀ l, l < 64 →
         ws.getD l [] = (drawN x.lrec.seed x.blk.bid (passLen x.grp.dsectl) (fmtGen x.ent.fmt) l c x.grp).1)))

/-- R413, R423, R425 to R427 at issue: mma, mmas and mmat join the open batch where their types pair, their registers exist and their 64 rows lie in the window, with the registers that R424 and
R426 name busy until the op has read them; an operand may be any V code (R314; what the codes for zero, the lane index and a k register stand for is log entry 144, a DESIGN CHOICE). Types that do not pair, a scale register without SCALE, SCALE with other than 8-bit types, mmas under l6 and mmat without a team trap with ILL; a register
beyond the group's with XREG; the lowest row outside the window with ACCWIN. A share of a team op waits for its team, and takes no effect once a member has gone without supplying its own. -/
def Sys2Proof.Stmt.MatrixIssue : Prop := ∀ (r : RowOp) (a b sc : Nat),
  let r0 := rowOf r
  let ta := fun x : Iss => bits x.ent.fmt.toNat 5 0
  let tb := fun x : Iss => bits x.ent.fmt.toNat 11 6
  let scaled := fun x : Iss => bits x.ent.fmt.toNat 20 19 = 1
  let e4 := Ty.e4m3x4.code
  let legal := fun x : Iss => ∀ t ∈ [ta x, tb x], t ∈ [e4, Ty.e5m2x4.code, Ty.i8x4.code, Ty.n8x4.code, Ty.bf16x2.code, Ty.f16x2.code, Ty.l6.code]
  let one := fun x : Iss => (ta x ∈ [e4, Ty.e5m2x4.code] ∧ tb x ∈ [e4, Ty.e5m2x4.code]) ∨ (ta x ∈ [Ty.i8x4.code, Ty.n8x4.code] ∧ tb x ∈ [Ty.i8x4.code, Ty.n8x4.code])
  let pair := fun x : Iss => one x ∨ (ta x = tb x ∧ ta x ∈ [Ty.bf16x2.code, Ty.f16x2.code, Ty.l6.code])
  let typed := fun (sparse : Bool) (x : Iss) => pair x ∧ (sparse = true → ta x ≠ Ty.l6.code) ∧ (scaled x → one x) ∧ (¬ scaled x → sc = 0)
  let k := fun x : Iss => if ta x = Ty.l6.code then 12 else 8
  let uses := fun (sparse team : Bool) (x : Iss) => [(a, if sparse then 10 else k x)] ++
    (if team ∧ x.grp.gid % (x.lrec.team + 1) ≠ 0 then [] else [(b, if sparse then 16 else k x)]) ++ (if scaled x then [(sc, 1)] else [])
  let srcs := fun (sparse team : Bool) (x : Iss) => (uses sparse team x).flatMap fun q => operand q.1 q.2
  let exist := fun (sparse team : Bool) (x : Iss) => ∀ q ∈ uses sparse team x, q.1 < 8192 ∧ (q.1 < 1536 → q.1 + q.2 ≤ min 1536 (baseRegs x.lrec + x.grp.ext))
  let wins := fun x : Iss => ∀ j, r0 x ≤ j → j < r0 x + 64 → inWindow x j
  let ready := fun (sparse team : Bool) (x : Iss) => legal x ∧ typed sparse x ∧ exist sparse team x ∧ wins x ∧ ¬ rowsBusy x (r0 x) 64 ∧ opRoom [] x
  let stops := fun (i : Instr) (g : Sig) (sparse team : Bool) (teamed : Iss → Prop) =>
    Traps i g false (fun x _ => legal x ∧ teamed x ∧ ¬ typed sparse x) (plain .ill g.word) ∧
    Traps i g true (fun x _ => legal x ∧ teamed x ∧ typed sparse x ∧ ¬ exist sparse team x) (plain .xreg 0) ∧
    (∀ j, Traps i g true (fun x _ => legal x ∧ teamed x ∧ typed sparse x ∧ exist sparse team x ∧ outAt x (r0 x) 64 j) (plain .accwin (j % 2 ^ 14))) ∧
    Completes i g (fun x _ => legal x ∧ teamed x ∧ typed sparse x ∧ exist sparse team x ∧ wins x ∧ rowsBusy x (r0 x) 64) (fun x s u => HeldBack x s u)
  let mate := fun (x : Iss) (g : Group) => g.gid / (x.lrec.team + 1) = x.grp.gid / (x.lrec.team + 1)
  Completes (.mma r a b sc) (sigMma r a b sc) (fun x _ => ready false false x)
    (fun x s u => Joined (· = .mma a b sc) (r0 x) 64 (srcs false false x) [] x (advance (sigMma r a b sc) x s) u) ∧
  stops (.mma r a b sc) (sigMma r a b sc) false false (fun _ => True) ∧
  Completes (.mmas r a b sc) (sigMmas r a b sc) (fun x _ => ready true false x)
    (fun x s u => Joined (· = .mmas a b sc) (r0 x) 64 (srcs true false x) [] x (advance (sigMmas r a b sc) x s) u) ∧
  stops (.mmas r a b sc) (sigMmas r a b sc) true false (fun _ => True) ∧
  Completes (.mmat r a b sc) (sigMmat r a b sc)
    (fun x _ => ready false true x ∧ x.lrec.team ≠ 0 ∧ x.blk.broken = [] ∧ ∀ g ∈ x.blk.groups, mate x g → g.exited = false)
    (fun x s u => Joined (· = .mmat a b sc (x.grp.teamOps + 1) none) (r0 x) 64 (srcs false true x) [] x (advance (sigMmat r a b sc) x s) u ∧
      (∃ g, grpOf u x.g = some g ∧ g.teamOps = x.grp.teamOps + 1) ∧ (∃ o ∈ coreMops u x.core, o.op = s.nextId ∧ o.started = false) ∧
      ∃ d ∈ u.agenda, d.ev = .teamMmatStart x.g.blk (x.grp.gid / (x.lrec.team + 1))) ∧
  Completes (.mmat r a b sc) (sigMmat r a b sc)
    (fun x _ => ready false true x ∧ x.lrec.team ≠ 0 ∧ ∃ g ∈ x.blk.groups, mate x g ∧ g.gid ≠ x.g.gid ∧ g.exited = true ∧ g.teamOps ≤ x.grp.teamOps)
    (fun x s u => ∃ o ∈ coreMops u x.core, o.op = s.nextId ∧ o.started = true ∧ o.noEffect = true) ∧
  Traps (.mmat r a b sc) (sigMmat r a b sc) false (fun x _ => x.lrec.team = 0) (plain .ill (sigMmat r a b sc).word) ∧
  stops (.mmat r a b sc) (sigMmat r a b sc) false true (fun x => x.lrec.team ≠ 0)

/-- R416, R428 to R430: mfence closes the open batch, writes its number to kd and counts it on path 4, and does not issue while path 4 stands at 255; mwait goes on at once where every closed batch that it
names has completed, else waits for those closed so far; mstat writes the status word of the open batch, DONE being 1 where it has ops and all are complete, or of one of the 16 closed last, and 0 for any other
number. A run that is short of its promotion point leaves its batch's last op incomplete. -/
def Sys2Proof.Stmt.BatchControl : Prop := ∀ (kd ka : Nat),
  let named := fun (x : Iss) => (kget x.grp ka).toNat
  let open_ := fun (x : Iss) => x.grp.closed.all fun b => !decide (b.num ≤ named x) || b.done
  let closes := fun (x : Iss) (s u : State) (g : Group) => grpOf u x.g = some g ∧ MovedOn x g ∧ u.mem = s.mem ∧
    (∀ n, kget g n = if n = kd then BitVec.ofNat 64 x.grp.nextBatch else kget x.grp n) ∧ g.m = x.grp.m ∧ g.v = x.grp.v ∧
    g.flights = x.grp.flights ++ [⟨4, s.nextId, false⟩] ∧ g.nextBatch = x.grp.nextBatch + 1 ∧ g.batch.nops = 0 ∧ g.batch.isOpen = true ∧
    (∃ d ∈ u.agenda, d.ev = .matrixBatchComplete x.g)
  Completes (.mfence kd) (sigMfence kd) (fun x _ => cnt x.grp 4 < 255) (fun x s u => ∃ g b, closes x s u g ∧
    { x.grp.batch with num := x.grp.nextBatch, isOpen := false, op := s.nextId } ∈ g.closed ∧
    (∀ c ∈ x.grp.closed, c.done = false ∨ x.grp.nextBatch < c.num + 16 → c ∈ g.closed) ∧ g.run = x.grp.run ∧
    blkOf u x.g.blk = some b ∧ b = { x.blk with groups := b.groups }) ∧
  Stalls (.mfence kd) (sigMfence kd) (fun x _ => 255 ≤ cnt x.grp 4) ∧
  Completes (.mwait ka) (sigMwait ka) (fun x _ => open_ x = true) (GroupDone npcOf same) ∧
  Completes (.mwait ka) (sigMwait ka) (fun x _ => open_ x = false)
    (fun x s u => GroupDone npcOf same (waiting (.mwait (min (named x) (x.grp.nextBatch - 1))) x) s u) ∧
  Completes (.mstat kd none) (sigMstat kd none) Always (UniDone false 0 kd fun x _ => batchWord { x.grp.batch with
    done := decide (0 < x.grp.batch.nops ∧ x.grp.batch.nops ≤ x.grp.batch.dops ∧ ∀ r, x.grp.run = some r → r.batch = x.grp.nextBatch → r.count = 0) }) ∧
  (∀ b : Batch, Completes (.mstat kd (some ka)) (sigMstat kd (some ka))
    (fun x _ => x.grp.closed.find? (fun c => c.num == named x) = some b ∧ x.grp.nextBatch ≤ named x + 16) (UniDone false 0 kd fun _ _ => batchWord b)) ∧
  Completes (.mstat kd (some ka)) (sigMstat kd (some ka))
    (fun x _ => named x + 16 < x.grp.nextBatch ∨ ∀ b ∈ x.grp.closed, b.num ≠ named x) (UniDone false 0 kd fun _ _ => 0) ∧
  ∀ b : Batch, b.nops ≤ 4096 → b.dops ≤ b.nops → let w := (batchWord b).toNat
    bits w 63 40 = (if b.isOpen then 0 else b.num % 2 ^ 24) ∧ bits w 39 27 = b.nops ∧ bits w 26 14 = b.dops ∧ bits w 13 7 = 0 ∧
    bit w 6 = b.isOpen ∧ bit w 5 = b.done ∧ bit w 4 = b.halt ∧ bit w 3 = b.teamErr ∧ bit w 2 = b.memErr ∧ bit w 1 = b.nar ∧ bit w 0 = b.novf

namespace Sys2Proof.Stmt

open Sys2Proof Sys2Proof.Machine

/-- Lane l of the j-th register of the operand with V code n (R314, R424; for the codes of zero, of the lane index and of a k register, log entry 144). -/
def operandAt (g : Group) (n j l : Nat) : Nat :=
  if n < 1536 then (vget g (n + j) l).toNat else if n = 1540 then l else if n < 1600 then 0 else (kget g (n - 1600)).toNat % 2 ^ 32

/-- Element k of a fragment with V code n in lane l (R424). -/
def fragAt (t : Ty) (g : Group) (n k l : Nat) : Nat := elem t (operandAt g n (k / t.elems) l) (k % t.elems)

/-- The exact product of two element codes, scaled where FMT.SCALE is 1 by byte 2b of row i's scale and byte 2b + 1 of column n's (R281, R425).
A product of integers is an exact integer, whose zero has no sign (R282). -/
def termOf (o : MOp) (x y sa sb blk : Nat) : FVal :=
  let scale := fun e : Nat => if e = 255 then FVal.nan else .fin false 1 ((e : Int) - 127)
  let q := FVal.mul ((fmtA o.fmt).value x) ((fmtB o.fmt).value y)
  let p := if fmtA o.fmt ∈ [Ty.i8x4, Ty.n8x4] ∧ q.isZero = true then FVal.fin false 0 0 else q
  if bits o.fmt.toNat 20 19 = 1 then FVal.mul (FVal.mul p (scale (sa / 2 ^ (16 * blk) % 256))) (scale (sb / 2 ^ (16 * blk + 8) % 256)) else p

/-- The one rounding of the row's value plus the exact sum (R282). -/
def rounded (old : W32) (ts : List FVal) : W32 :=
  BitVec.ofNat 32 (roundF fmtF32 .rne 0 (FVal.add .rne (fmtF32.decode old.toNat) (FVal.sum .rne ts)))

/-- The exact sum of the 64 products of an l6 op at (i, n), the lanes' 96-bit values holding sixteen codes each (R285 to R287). -/
def l6At (g h : Group) (a b k l : Nat) (i : Nat) : Int × Bool :=
  let v := fun (g : Group) (n l : Nat) => let j := 3 * (k / 16)
    operandAt g n j l + 2 ^ 32 * operandAt g n (j + 1) l + 2 ^ 64 * operandAt g n (j + 2) l
  l6Product (v g a i / 2 ^ (6 * (k % 16)) % 64) (v h b l / 2 ^ (6 * (k % 16)) % 64)

/-- The engine of `core` has one op, which may be performed: its group is there, its block is resident with all of its granules, and no source has a write on its way. -/
def OneOp (s : State) (core : Nat) (o : MOp) (b : Block) (g : Group) : Prop :=
  coreMops s core = [o] ∧ blkOf s o.g.blk = some b ∧ grpIn b o.g.gid = some g ∧ b.state = .resident ∧ b.absent = [] ∧ g.exited = false ∧
    o.stopped = none ∧ o.started = true ∧ o.after = [] ∧ o.old = [] ∧ o.row = 0 ∧ o.lane = 0 ∧
    o.batch = g.nextBatch ∧ s.pkg.haltDies = 0 ∧ s.pkg.lostDies = 0

/-- The rows of the block after the promotion of a run (R286): canonical NaN where a product was NaR, else one rounding of the row plus the narrow accumulator. -/
def promoted (b : Block) (run : Option Run) (row l : Nat) : W32 := match run with
  | none => accGet b row l
  | some r => if r.r0 ≤ row ∧ row < r.r0 + 64 then
      (if 64 * (row - r.r0) + l ∈ r.nar then 0x7FC00000#32
       else BitVec.ofNat 32 (roundF fmtF32 .rne 0 (FVal.add .rne (fmtF32.decode (accGet b row l).toNat)
         (FVal.ofUnits false (FMap.get 0 r.acc (64 * (row - r.r0) + l)).toInt (-16)))))
    else accGet b row l

/-- The flag that the promotion of a group's run leaves in its open batch. -/
def runNar (g : Group) (f : Batch) : Batch := { f with nar := f.nar || g.run.any fun r => r.batch == g.nextBatch && !r.nar.isEmpty }

/-- The op is done: the engine holds none, its batch counts it with the flags `f`, its registers are free; of the accumulators, the registers and the slab `P` says what they are. -/
def OpDone (core : Nat) (o : MOp) (g : Group) (f : Batch → Batch) (P : State → Block → Group → Prop) (s : State) : Prop :=
  ∃ t b' g', exec (.matrixOpComplete core) s = .next t ∧ blkOf t o.g.blk = some b' ∧ grpIn b' o.g.gid = some g' ∧ coreMops t core = [] ∧
    t.mem = s.mem ∧ g'.batch = f { g.batch with dops := g.batch.dops + 1 } ∧ (∀ p ∈ g'.busy, p.op ≠ o.op) ∧ (∀ p ∈ g'.pend, p.op ≠ o.op) ∧
    g'.k = g.k ∧ g'.m = g.m ∧ P t b' g'

end Sys2Proof.Stmt

/-- R281, R282, R286, R421, R424 to R427: the engine performs the op at the head of its order, after it has promoted the run of l6 ops that the op ends. accz writes +0 to its rows; accld and accst move each element between a slab record and lane n of row j;
accout converts each row element to its type; an mma adds to every output element the exact sum of its products with one rounding, an mmas those of the kept elements with the B elements that their
indices name, and a share of a team op those of its own A with its leader's B. Rows and registers that an op does not name stay, and a share without effect writes no row. -/
def Sys2Proof.Stmt.MatrixPerforms : Prop := ∀ (s : State) (core : Nat) (o : MOp) (b : Block) (g : Group), OneOp s core o b g → o.noEffect = false →
  let acc := promoted b g.run
  let keep := fun (t : State) (b' : Block) (g' : Group) => b'.slab = b.slab ∧ g'.v = g.v ∧ g'.run = none ∧
    t.coh = { s.coh with asks := t.coh.asks }
  let writes := fun (r0 c : Nat) (v : Nat → Nat → W32) => OpDone core o g (runNar g) (fun t b' g' => keep t b' g' ∧ ∀ row l, l < 64 →
    accGet b' row l = if r0 ≤ row ∧ row < r0 + c then v (row - r0) l else acc row l) s
  let ta := fmtA o.fmt
  let tb := fmtB o.fmt
  let wide := ta ≠ .l6 ∧ tb ≠ .l6
  let dense := fun (h : Group) (a bb sc lsc : Nat) (i n : Nat) => rounded (acc (o.r0 + i) n) ((List.range (8 * ta.elems)).map fun k =>
    termOf o (fragAt ta g a k i) (fragAt tb h bb k n) (operandAt g sc 0 i) (operandAt h lsc 0 n) (k / 32))
  (o.kind = .accz → writes o.r0 o.c fun _ _ => 0) ∧
  (∀ a bb sc, o.kind = .mma a bb sc → wide → writes o.r0 64 (dense g a bb sc sc)) ∧
  (∀ a bb sc, o.kind = .mmas a bb sc → wide → writes o.r0 64 fun i n => rounded (acc (o.r0 + i) n)
    ((List.range 8).flatMap fun j => (List.range ta.elems).map fun e =>
      let k := 4 * (if ta.elems = 4 then 2 * j + e / 2 else j) + operandAt g a (8 + j / 4) i / 2 ^ (8 * (j % 4)) % 256 / 2 ^ (2 * e) % 4
      termOf o (elem ta (operandAt g a j i) e) (fragAt tb g bb k n) (operandAt g sc 0 i) (operandAt g sc 0 n) (k / 32))) ∧
  (∀ a bb sc q lop lsc l h, o.kind = .mmat a bb sc q (some (lop, lsc)) → wide → launchOf s b.launch = some l →
    grpIn b (o.g.gid / (l.lrec.team + 1) * (l.lrec.team + 1)) = some h → writes o.r0 64 (dense h a bb sc lsc)) ∧
  (∀ t : TRec, o.kind = .accld t → t.slv = 1 → t.esz = 2 → t.n = [63, o.c - 1, 0, 0] → 0 < o.c → t.ss.length = 3 → sideInside t (2 ^ 20) 0 1 t.srca t.ss →
    writes o.r0 o.c fun j l => BitVec.ofNat 32 (ofBytes (slabRead b ((t.srca.toNat : Int) + elementAt t t.ss (64 * j + l)).toNat 4))) ∧
  (let stores := fun (t : TRec) (v : Nat → Nat → Nat) => t.dlv = 1 → t.n = [63, o.c - 1, 0, 0] → 0 < o.c → t.ds.length = 3 → sideInside t (2 ^ 20) 0 1 t.dsta t.ds →
     let place := fun k => ((t.dsta.toNat : Int) + elementAt t t.ds k).toNat
     OpDone core o g (runNar g) (fun _ b' g' => g'.v = g.v ∧ g'.run = none ∧ (∀ row l, l < 64 → accGet b' row l = acc row l) ∧ ∀ q : Nat, FMap.get 0 b'.slab q =
       match ((List.range (64 * o.c)).filter fun k => decide (place k ≤ q ∧ q < place k + 2 ^ t.esz)).getLast? with
       | some k => BitVec.ofNat 8 (v (k / 64) (k % 64) / 2 ^ (8 * (q - place k)))
       | none => FMap.get 0 b.slab q) s
   (∀ t, o.kind = .accst t → t.esz = 2 → stores t fun j l => (acc (o.r0 + j) l).toNat) ∧
   ∀ t ty mode ws, o.kind = .accoutMem t ty mode ws → t.esz = Nat.log2 (4 / ty.elems) → ty ∈ outTys → stores t fun j l =>
     convert .f32 ty (effRnd mode o.fmt) ((ws.getD l []).getD j 0) (acc (o.r0 + j) l).toNat) ∧
  ∀ (d : Nat) (ty : Ty) (mode : Nat) (ws : List (List Nat)), o.kind = .accoutReg d ty mode ws → ty ∈ outTys → o.c % ty.elems = 0 →
    OpDone core o g (runNar g) (fun _ b' g' => (∀ row l, l < 64 → accGet b' row l = acc row l) ∧ b'.slab = b.slab ∧ g'.run = none ∧
      (∀ n l, l < 64 → ¬ (d ≤ n ∧ n < d + o.c / ty.elems) → vget g' n l = vget g n l) ∧
      ∀ j l, j < o.c → l < 64 → elem ty (vget g' (d + j / ty.elems) l).toNat (j % ty.elems) =
        convert .f32 ty (effRnd mode o.fmt) ((ws.getD l []).getD j 0) (acc (o.r0 + j) l).toNat % 2 ^ ty.width) s

/-- R286: an l6 op, of one group or a share of a team op with its leader's B, adds its exact sum of products to the narrow accumulators of its run, saturated to 32 bits: it goes on with the group's open run where
that is of its batch and its rows, else with a run that begins at 0 once the other is promoted. The op that completes the run's interval promotes them with one rounding into the rows, as canonical NaN where a
product was NaR, and begins at 0 again. Saturation sets NOVF in the batch, and a promoted NaR sets NAR. A share that takes no effect sets TEAMERR and writes no row (R427). -/
def Sys2Proof.Stmt.NarrowAccumulation : Prop := ∀ (s : State) (core : Nat) (o : MOp) (b : Block) (g : Group), OneOp s core o b g →
  (o.noEffect = true → g.run = none →
    OpDone core o g (fun f => { f with teamErr := true }) (fun _ b' g' => b'.acc = b.acc ∧ b'.slab = b.slab ∧ g'.v = g.v ∧ g'.run = none) s) ∧
  (o.noEffect = false → fmtA o.fmt = .l6 →
    let on := g.run.any fun r => decide (r.batch = o.batch ∧ r.r0 = o.r0)
    let open_ := if on then g.run else none
    let was := fun (i n : Nat) => (open_.map fun r => (FMap.get 0 r.acc (64 * i + n)).toInt).getD 0
    let wasNar := fun (i n : Nat) => open_.any fun r => decide (64 * i + n ∈ r.nar)
    let count := (open_.map (·.count)).getD 0 + 1
    let interval := (open_.map (·.interval)).getD (2 ^ bits o.fmt.toNat 23 21)
    let acc := if on then accGet b else promoted b g.run
    let flags := fun f : Batch => if on then f else runNar g f
    let adds := fun (h : Group) (a bb : Nat) =>
      let sum := fun (i n : Nat) => was i n + ((List.range 64).map fun k => (l6At g h a bb k n i).1).sum
      let nar := fun (i n : Nat) => wasNar i n || (List.range 64).any fun k => (l6At g h a bb k n i).2
      let sat := fun (i n : Nat) => max (-2 ^ 31) (min (sum i n) (2 ^ 31 - 1))
      let sated := (List.range 64).any fun i => (List.range 64).any fun n => sum i n != sat i n
      (count ≠ interval → OpDone core o g (fun f => { flags f with novf := f.novf || sated }) (fun _ b' g' => (∀ row n, n < 64 → accGet b' row n = acc row n) ∧ b'.slab = b.slab ∧ g'.v = g.v ∧
        ∃ r, g'.run = some r ∧ r.batch = o.batch ∧ r.r0 = o.r0 ∧ r.count = count ∧ r.interval = interval ∧
          ∀ i n, i < 64 → n < 64 → (FMap.get 0 r.acc (64 * i + n)).toInt = sat i n ∧ (64 * i + n ∈ r.nar ↔ nar i n = true)) s) ∧
      (count = interval → (∀ r, open_ = some r → ∀ k ∈ r.nar, k < 4096) → OpDone core o g
        (fun f => { flags f with novf := f.novf || sated, nar := (flags f).nar || (List.range 64).any fun i => (List.range 64).any fun n => nar i n })
        (fun _ b' g' => b'.slab = b.slab ∧ g'.v = g.v ∧
          (∃ r, g'.run = some r ∧ r.batch = o.batch ∧ r.r0 = o.r0 ∧ r.interval = interval ∧ r.count = 0 ∧ r.acc = [] ∧ r.nar = []) ∧ ∀ row n, n < 64 → accGet b' row n =
          if o.r0 ≤ row ∧ row < o.r0 + 64 then
            (if nar (row - o.r0) n then 0x7FC00000#32 else BitVec.ofNat 32 (roundF fmtF32 .rne 0 (FVal.add .rne
              (fmtF32.decode (acc row n).toNat) (FVal.ofUnits false (sat (row - o.r0) n) (-16)))))
          else acc row n) s)
    (∀ a bb sc, o.kind = .mma a bb sc → adds g a bb) ∧
    ∀ a bb sc q lop lsc l h, o.kind = .mmat a bb sc q (some (lop, lsc)) → launchOf s b.launch = some l →
      grpIn b (o.g.gid / (l.lrec.team + 1) * (l.lrec.team + 1)) = some h → adds h a bb)

/-- R416, R250 and R429: a closed batch completes once all of its ops have: the run of l6 ops that is still open in it is promoted into its rows (R286), it is marked done, its counter on path 4 falls, and the groups' waits on it end; with an op outstanding nothing happens. R427: when every
member's share waits, the shares start in member order with the leader's B, scale register and types, or, where types differ, without effect. -/
def Sys2Proof.Stmt.BatchCompletion : Prop :=
  (∀ (s : State) (r : GRef) (bk : Block) (g : Group) (b : Batch), blkOf s r.blk = some bk → bk.absent = [] → grpOf s r = some g → g.exited = false →
    g.closed = [b] → b.done = false → b.num < g.nextBatch →
    let ends := g.run.filter (·.batch == b.num)
    (b.dops = b.nops → ∃ t bk' g', exec (.matrixBatchComplete r) s = .next t ∧ blkOf t r.blk = some bk' ∧ grpOf t r = some g' ∧
      g'.closed = [{ b with done := true, nar := b.nar || ends.any (!·.nar.isEmpty) }] ∧ g'.run = (if ends.isSome then none else g.run) ∧
      (∀ row l, l < 64 → accGet bk' row l = promoted bk ends row l) ∧
      g'.flights = fallFrom [] (mapIf (·.op == b.op) (fun f => { f with done := true }) g.flights) ∧ (∀ e ∈ g'.stack, ∀ n, e.wait ≠ .mwait n) ∧
      g'.k = g.k ∧ g'.v = g.v ∧ t.mem = s.mem) ∧
    (b.dops ≠ b.nops → exec (.matrixBatchComplete r) s = .next s)) ∧
  ∀ (s : State) (b : Block) (l : Launch) (team q : Nat) (share : Nat → MOp) (op a : Nat → Nat) (bb sc : Nat → Nat),
    blkOf s b.id = some b → launchOf s b.launch = some l →
    let size := l.lrec.team + 1
    (∀ i, i < size → share i ∈ coreMops s b.core) → (∀ o ∈ coreMops s b.core, ∃ i, i < size ∧ o = share i) → (coreMops s b.core).Nodup →
    (∀ i, i < size → (share i).g.blk = b.id ∧ (share i).g.gid = team * size + i ∧ (share i).started = false ∧ (share i).op = op i ∧
      (share i).kind = .mmat (a i) (bb i) (sc i) q none) → (∀ i j, i < size → j < size → op i = op j → i = j) →
    let key := fun o : MOp => (fmtA o.fmt, fmtB o.fmt, fmtScale o.fmt)
    ∃ t, exec (.teamMmatStart b.id team) s = .next t ∧ t.mem = s.mem ∧ t.blocks = s.blocks ∧ (coreMops t b.core).length = size ∧
      ∀ i, i < size → ∃ o, (coreMops t b.core)[i]? = some o ∧ o.g = (share i).g ∧ o.started = true ∧ o.r0 = (share i).r0 ∧
        o.kind = .mmat (a i) (bb 0) (sc i) q (some (op 0, sc 0)) ∧
        ((∀ j, j < size → key (share j) = key (share 0)) → o.fmt = (share 0).fmt ∧ o.noEffect = false) ∧
        ((∃ j, j < size ∧ key (share j) ≠ key (share 0)) → o.noEffect = true)

/-! ## The Density Stream Engine (MAJ 0x28 to 0x2A) -/

namespace Sys2Proof.Stmt

open Sys2Proof Sys2Proof.Machine

/-- The path goes on at the next word, with its mask and without a wait. -/
def WentOn (x : Iss) (g : Group) : Prop := x.ent.reissue = none → x.ent.wait = .none →
  ∃ e, liveEntry g x.g.low = some e ∧ e.pc = x.npc ∧ e.mask = x.ent.mask ∧ e.wait = .none

/-- An engine instruction has joined the group's open window (R435): it counts on path 7, the tags are `dep`, and nothing else changes. -/
def InWindow (i : Iss → StrIns) (dep : Iss → Nat → BitVec 16) (x : Iss) (s t : State) : Prop :=
  t = { s with blocks := t.blocks, nextId := s.nextId + 1 } ∧ (∀ c, c ≠ x.g.blk → blkOf t c = blkOf s c) ∧
    ∃ b g, blkOf t x.g.blk = some b ∧ grpOf t x.g = some g ∧ b = { x.blk with groups := b.groups, zdep := b.zdep } ∧
      (∀ n, n ≠ x.g.gid → grpIn b n = grpIn x.blk n) ∧ (∀ z, FMap.get 0 b.zdep z = dep x z) ∧ MovedOn x g ∧
      g = { x.grp with
        stack := g.stack, turn := g.turn, waitFrom := g.waitFrom, window := x.grp.window ++ [{ i x with op := s.nextId }]
        flights := x.grp.flights ++ [⟨7, s.nextId, false⟩] }

/-- The group's window has closed with the last instruction `i` (R435, R436): the engine has it with the L and P of DSECTL and the generator states from which it
draws, and the draws of its classes are taken. -/
def WindowClosed (i : StrIns) (x : Iss) (s t : State) : Prop :=
  let len := passLen x.grp.dsectl
  let p := passCount x.grp.dsectl
  let ins := x.grp.window ++ [{ i with op := s.nextId }]
  FMap.get [] t.eng.windows x.core = FMap.get [] s.eng.windows x.core ++ [⟨x.g, len, p, ins, x.grp.gens, x.grp.ctrs, 0, []⟩] ∧ t.mem = s.mem ∧
    (∃ d ∈ t.agenda, d.ev = .streamWindowRun x.core) ∧ ∃ g, grpOf t x.g = some g ∧ MovedOn x g ∧ g.window = [] ∧ g.k = x.grp.k ∧ g.v = x.grp.v ∧
      g.flights = x.grp.flights ++ [⟨7, s.nextId, false⟩] ∧
      ∀ c l, c < 14 → l < 64 → genState x.lrec.seed x.blk.bid g c l =
        if (∃ j ∈ ins, (j.kind = .gen ∨ j.kind = .regen) ∧ j.cls = c)
        then genState x.lrec.seed x.blk.bid (drawN x.lrec.seed x.blk.bid len c l (len * p) x.grp).2 c l
        else genState x.lrec.seed x.blk.bid x.grp c l

end Sys2Proof.Stmt

/-- R433, R435, R436, R440, R444 and R445 at issue: an engine instruction joins the group's open window with its data read at issue and sets the tag of its destination; where the source tags break the
rule of its row it traps with STREAM.CORR and the two masks, and nothing joins. The 64th instruction, and every count, closes the window, whose draws are then taken. A count's destination is pending. With path 7
at 255 the instruction does not issue. -/
def Sys2Proof.Stmt.StreamIssue : Prop := ∀ (zd za zb zs cls out msk : Nat) (a : VSrc) (d : VDst),
  let room := fun x : Iss => cnt x.grp 7 < 255
  let dep := fun (x : Iss) (z : Nat) => FMap.get 0 x.blk.zdep z
  let one : BitVec 16 := BitVec.ofNat 16 (2 ^ cls)
  let sets := fun (v : Iss → BitVec 16) (x : Iss) (z : Nat) => if z = zd then v x else dep x z
  let joins := fun (i : Instr) (g : Sig) (ok : Iss → Prop) (ins : Iss → StrIns) (v : Iss → BitVec 16) =>
    Completes i g (fun x _ => room x ∧ ok x ∧ x.grp.window.length < 63) (InWindow ins (sets v)) ∧
    Completes i g (fun x _ => room x ∧ ok x ∧ x.grp.window.length = 63) (fun x s t => WindowClosed (ins x) x s t ∧
      ∃ b, blkOf t x.g.blk = some b ∧ ∀ z, FMap.get 0 b.zdep z = sets v x z) ∧
    ∀ x s, Ready g s x → ok x → 255 ≤ cnt x.grp 7 → exec i s = .next s
  let breaks := fun (i : Instr) (g : Sig) (bad : Iss → Prop) (m n : Iss → BitVec 16) =>
    Traps i g true (fun x _ => bad x) (fun x s => plain .streamCorr ((m x).toNat * 65536 + (n x).toNat) x s)
  let p := fun (flip : Nat) (x : Iss) => lanes.map fun l => (srcVal x false a l % 65536) ^^^ flip
  let any := fun _ : Iss => True
  let da := fun x : Iss => dep x za
  let db := fun x : Iss => dep x zb
  let apart := fun x : Iss => da x &&& db x = 0
  let same := fun x : Iss => da x = db x
  let both := fun x : Iss => da x ||| db x
  let ins := fun (k : StrOp) (_ : Iss) => (⟨k, zd, za, zb, 0, 0, [], none, 0, 0⟩ : StrIns)
  let logic := fun (i : Instr) (g : Sig) (k : StrOp) (ok : Iss → Prop) => joins i g ok (ins k) both ∧ breaks i g (fun x => ¬ ok x) da db
  joins (.sgen zd a cls) (sigSgen zd a cls) any (fun x => ⟨.gen, zd, 0, 0, 0, cls, p 0 x, none, 0, 0⟩) (fun _ => one) ∧
  joins (.sgenb zd a cls) (sigSgenb zd a cls) any (fun x => ⟨.gen, zd, 0, 0, 0, cls, p 0x8000 x, none, 0, 0⟩) (fun _ => one) ∧
  joins (.sregen zd za cls) (sigSregen zd za cls) any (fun _ => ⟨.regen, zd, za, 0, 0, cls, [], none, 0, 0⟩) (fun _ => one) ∧
  logic (.sand zd za zb) (sigSand zd za zb) .and apart ∧ logic (.sor zd za zb) (sigSor zd za zb) .or apart ∧
  logic (.sxor zd za zb) (sigSxor zd za zb) .xor apart ∧ logic (.sxnor zd za zb) (sigSxnor zd za zb) .xnor apart ∧
  logic (.smin zd za zb) (sigSmin zd za zb) .and same ∧ logic (.smax zd za zb) (sigSmax zd za zb) .or same ∧
  joins (.snot zd za) (sigSnot zd za) any (fun _ => ⟨.inv, zd, za, 0, 0, 0, [], none, 0, 0⟩) da ∧
  joins (.smux zd za zb zs) (sigSmux zd za zb zs) (fun x => dep x zs &&& both x = 0) (fun _ => ⟨.mux, zd, za, zb, zs, 0, [], none, 0, 0⟩)
    (fun x => both x ||| dep x zs) ∧
  breaks (.smux zd za zb zs) (sigSmux zd za zb zs) (fun x => dep x zs &&& both x ≠ 0) (fun x => dep x zs) both ∧
  let dst := match d with
    | .reg n => some n
    | _ => none
  let counts := fun (i : Instr) (g : Sig) (k : StrOp) =>
    Completes i g (fun x _ => room x) (fun x s t => WindowClosed ⟨k, 0, za, 0, 0, 0, [], dst, x.mask, 0⟩ x s t ∧
      ∀ n, dst = some n → ∃ g, grpOf t x.g = some g ∧ ⟨n, s.nextId⟩ ∈ g.pend) ∧
    Stalls i g (fun x _ => 255 ≤ cnt x.grp 7)
  counts (.scnt msk d za out) (sigScnt msk d za out) (.cnt out) ∧ counts (.scnta msk d za) (sigScnta msk d za) .cnta

/-- R434, R438, R441 to R443 and R446: with no window open, sseed sets the state of its class in every lane, slen writes DSECTL, srnd draws one word in each active lane and writes it, and sdep writes the tags of two
streams; each completes at issue. slen traps with ILL on a value that DSECTL does not take. -/
def Sys2Proof.Stmt.StreamControl : Prop := ∀ (ka kd cls za zb msk : Nat) (imm : W32) (d : VDst),
  let room := fun x : Iss => cnt x.grp 7 < 255 ∧ x.grp.window = [] ∧ x.grp.exited = false
  let done := fun (x : Iss) (s t : State) (g : Group) => grpOf t x.g = some g ∧ WentOn x g ∧ t.mem = s.mem ∧ t.eng = s.eng ∧ t.coh = s.coh ∧
    g.m = x.grp.m ∧ g.pend.length ≤ x.grp.pend.length ∧ ((∀ f ∈ x.grp.flights, f.path ≠ 7) → cnt g 7 = 0)
  let dep := fun (x : Iss) (z : Nat) => FMap.get 0 x.blk.zdep z
  let classOf := fun m : BitVec 16 => if m.toNat ∈ (List.range 16).map (2 ^ ·) then Nat.log2 m.toNat else 31
  (cls < 16 → Completes (.sseed ka cls) (sigSseed ka cls) (fun x _ => room x) (fun x s t => ∃ g, done x s t g ∧ g.k = x.grp.k ∧ g.v = x.grp.v ∧
    ∀ c l, c < 16 → l < 64 →
      FMap.get 0 g.gens (64 * c + l) = (if c = cls ∧ c < 14 then
          let m := splitMix64 (kget x.grp ka ^^^ BitVec.ofNat 64 (c * 2 ^ 56) ^^^ BitVec.ofNat 64 (x.blk.bid * 2 ^ 32) ^^^
            BitVec.ofNat 64 (x.g.gid * 2 ^ 8) ^^^ BitVec.ofNat 64 l)
          if m = 0 then 0x9E3779B97F4A7C15#64 else m
        else FMap.get 0 x.grp.gens (64 * c + l)) ∧
      (14 ≤ c → FMap.get 0 g.ctrs (64 * (c - 14) + l) = if c = cls then (kget x.grp ka).truncate 16 else FMap.get 0 x.grp.ctrs (64 * (c - 14) + l)))) ∧
  Completes (.slen imm) (sigSlen imm) (fun x _ => room x ∧ dsectlLegal (imm.zeroExtend 64))
    (fun x s t => ∃ g, done x s t g ∧ g.dsectl = imm.zeroExtend 64 ∧ g.k = x.grp.k ∧ g.v = x.grp.v ∧ g.gens = x.grp.gens) ∧
  Traps (.slen imm) (sigSlen imm) true (fun x _ => cnt x.grp 7 < 255 ∧ ¬ dsectlLegal (imm.zeroExtend 64)) (plain .ill (sigSlen imm).word) ∧
  (cls < 16 → Completes (.srnd msk d cls) (sigSrnd msk d cls) (fun x _ => room x) (fun x s t => ∃ g, done x s t g ∧ g.k = x.grp.k ∧
    let own := fun l => drawN x.lrec.seed x.blk.bid (passLen x.grp.dsectl) cls l 1 x.grp
    ∀ n l, l < 64 → vget g n l = (if laneOn x.mask l = true ∧ d = .reg n then BitVec.ofNat 32 ((own l).1.getD 0 0) else vget x.grp n l) ∧
      ∀ c, c < 16 → genState x.lrec.seed x.blk.bid g c l =
        (if laneOn x.mask l = true ∧ c = cls then genState x.lrec.seed x.blk.bid (own l).2 c l else genState x.lrec.seed x.blk.bid x.grp c l))) ∧
  Completes (.sdep kd za zb) (sigSdep kd za zb) (fun x _ => cnt x.grp 7 < 255 ∧ x.grp.exited = false) (fun x s t => ∃ g, done x s t g ∧ g.v = x.grp.v ∧
    (∀ n, n ≠ kd → kget g n = kget x.grp n) ∧
    let v := (kget g kd).toNat
    let a := dep x za
    let b := dep x zb
    bits v 63 50 = 0 ∧ (bit v 49 = true ↔ a = b) ∧ (bit v 48 = true ↔ a &&& b = 0) ∧ bits v 47 45 = 0 ∧ bits v 44 40 = classOf b ∧ bits v 39 37 = 0 ∧
      bits v 36 32 = classOf a ∧ bits v 31 16 = b.toNat ∧ bits v 15 0 = a.toNat)

/-- R436, R438, R440, R444 and R447: the engine runs one pass of a window with one instruction: each lane's bits below L of the destination are what its row says of the bits of its sources, or of the L draws of its class,
the bits from L on are 0, and every other stream register stays; a count adds the ones of its source to those counted so far. With passes left, the window stays in the engine with the passes run, the counts and the states
of its draws (what a halt then saves), and its instruction is not complete. After the last pass, the instruction completes, and a count writes each active lane of its destination with the value of its OUT, or adds to it. The model's choices (log entries): that a pass acts in one step (96) and that the passes of a window draw in the order of the windows (67). -/
def Obligations.WindowRuns : Prop := ∀ (s : State) (core : Nat) (w : Window) (i : StrIns) (b : Block) (g : Group) (l : Launch),
  FMap.get [] s.eng.windows core = [w] → w.ins = [i] → s.pkg.haltDies = 0 → s.pkg.lostDies = 0 →
  b.absent = [] → blkOf s w.g.blk = some b → grpIn b w.g.gid = some g → b.state = .resident →
  g.exited = false → launchOf s b.launch = some l → w.len ∈ [16, 32, 64, 128, 256] → 0 < w.passes →
  let last := w.passes ≤ w.pass + 1
  let src := fun (z n j : Nat) => (FMap.get 0 b.z (64 * z + n)).getLsbD j
  let ones := fun (z n : Nat) => ((List.range w.len).filter fun j => src z n j).length
  let own := fun (n : Nat) => drawN l.lrec.seed b.bid w.len i.cls n w.len { g with gens := w.gens, ctrs := w.ctrs }
  let drawn := fun (n : Nat) => (own n).1
  let sofar := fun (n : Nat) => FMap.get 0 w.counts (64 * i.op + n)
  let isCount := i.kind = .cnt 0 ∨ i.kind = .cnt 1 ∨ i.kind = .cnt 2 ∨ i.kind = .cnta
  let run := fun (P : Block → Group → Prop) => ∃ t b' g', exec (.streamWindowRun core) s = .next t ∧ blkOf t w.g.blk = some b' ∧ grpIn b' w.g.gid = some g' ∧
    t.mem = s.mem ∧ b'.slab = b.slab ∧ b'.acc = b.acc ∧ g'.k = g.k ∧ g'.m = g.m ∧ P b' g' ∧
    (last → FMap.get [] t.eng.windows core = [] ∧
      g'.flights = fallFrom [] (mapIf (·.op == i.op) (fun f => { f with done := true }) g.flights) ∧ ∀ p ∈ g'.pend, p.op ≠ i.op) ∧
    (¬ last → g' = g ∧ (∃ d ∈ t.agenda, d.ev = .streamWindowRun core) ∧ ∃ v, FMap.get [] t.eng.windows core = [v] ∧
      v = { w with pass := w.pass + 1, gens := v.gens, ctrs := v.ctrs, counts := v.counts } ∧
      (∀ n, n < 64 → FMap.get 0 v.counts (64 * i.op + n) = sofar n + if isCount then ones i.za n else 0) ∧
      ∀ c n, c < 16 → n < 64 →
        let after := if (i.kind = .gen ∨ i.kind = .regen) ∧ c = i.cls then (own n).2 else { g with gens := w.gens, ctrs := w.ctrs }
        (c < 14 → genState l.lrec.seed b.bid { g with gens := v.gens, ctrs := v.ctrs } c n = genState l.lrec.seed b.bid after c n) ∧
        (14 ≤ c → FMap.get 0 v.ctrs (64 * (c - 14) + n) = FMap.get 0 after.ctrs (64 * (c - 14) + n)))
  let stream := fun (f : Nat → Nat → Bool) => i.dst = none → run fun b' g' => g'.v = g.v ∧ ∀ z n, n < 64 →
    FMap.get 0 b'.z (64 * z + n) = (if z = i.zd then BitVec.ofNat 256 (((List.range w.len).map fun j => (f n j).toNat * 2 ^ j).sum) else FMap.get 0 b.z (64 * z + n))
  (i.kind = .gen → i.cls < 16 → stream fun n j => decide ((drawn n).getD j 0 < i.p.getD n 0)) ∧
  (i.kind = .regen → i.cls < 16 → stream fun n j => decide ((drawn n).getD j 0 < ones i.za n * (65536 / w.len))) ∧
  (i.kind = .and → stream fun n j => src i.za n j && src i.zb n j) ∧ (i.kind = .or → stream fun n j => src i.za n j || src i.zb n j) ∧
  (i.kind = .xor → stream fun n j => src i.za n j ^^ src i.zb n j) ∧ (i.kind = .xnor → stream fun n j => !(src i.za n j ^^ src i.zb n j)) ∧
  (i.kind = .inv → stream fun n j => !src i.za n j) ∧ (i.kind = .mux → stream fun n j => if src i.zs n j then src i.za n j else src i.zb n j) ∧
  let c := fun n => sofar n + ones i.za n
  let total : Int := (w.len * w.passes : Nat)
  let count := fun (f : Nat → Nat → Int) => run fun b' g' => b'.z = b.z ∧ ∀ n r, n < 64 → vget g' r n =
    if last ∧ i.dst = some r ∧ laneOn i.mask n = true then BitVec.ofInt 32 (f r n) else vget g r n
  (i.kind = .cnt 0 → count fun _ n => c n) ∧ (i.kind = .cnt 1 → count fun _ n => min ((c n : Int) * 65536 / total) 65535) ∧
  (i.kind = .cnt 2 → count fun _ n => max (-32768) (min ((2 * (c n : Int) - total) * 32768 / total) 32767)) ∧
  (i.kind = .cnta → count fun r n => min (((vget g r n).toNat : Int) + c n) 0xFFFFFFFF)

/-! ## The Ordered Worklist (MAJ 0x2C) and the label commands (MAJ 0x2D) -/

namespace Sys2Proof.Stmt

open Sys2Proof Sys2Proof.Machine

/-- The key of an item or a priority (R198). -/
def keyBy (w : Worklist) (p : W32) : Nat := p.toNat / 2 ^ w.wrec.w

/-- A shard that has nothing to go on with: no push, pop or retirement waits, nothing is under way in its spill area, its items lie in the window of F and its chunks beyond it. -/
def Still (w : Worklist) (sh : Shard) : Prop := sh.pushes = [] ∧ sh.pops = [] ∧ sh.rets = [] ∧ sh.spillToken = none ∧ sh.doing = none ∧ (∀ i ∈ sh.items, keyBy w i.prio ≤ sh.f + 63) ∧
  ∀ c ∈ sh.chunks, sh.f + 63 < c.minKey

/-- The group is bound to worklist `w`, whose record is of this device alone, and `sh` is its core's shard, which is in use and has nothing to go on
with; the instruction has room on path 6. -/
def BoundTo (w : Worklist) (sh : Shard) (x : Iss) (s : State) : Prop :=
  x.grp.wlBound = some w.id ∧ wlOf s w.id = some w ∧ boundTo s x.core = some w ∧ shardIn w x.core = some sh ∧ w.unreachable = none ∧ w.killed = false ∧
    (w.shards.map (·.core)).Nodup ∧ sh.vacated = false ∧ Still w sh ∧ w.wrec.spanmask = 0 ∧ cnt x.grp 6 < 255 ∧ noAcquire x ∧ x.grp.exited = false

/-- A shard with nothing under way: no chunk, no push, no pop, no retirement, no LOWER, and its items lie in the window of F. -/
def Calm (w : Worklist) (f : Nat) (sh : Shard) : Prop :=
  sh.chunks = [] ∧ sh.pushes = [] ∧ sh.pops = [] ∧ sh.rets = [] ∧ sh.lowering = none ∧ sh.spillToken = none ∧ sh.doing = none ∧ ∀ i ∈ sh.items, keyBy w i.prio ≤ f + 63

/-- A shard has one hold count for each group and key. -/
def OneHold (sh : Shard) : Prop := (sh.holds.map fun h => (h.1, h.2.1, h.2.2.1)).Nodup

/-- The items that a shard may hand out, in the order of R199: lowest key first, and within one key in the order in which they entered. -/
def handOrder (w : Worklist) (sh : Shard) : List Item :=
  (sh.items.filter fun i => decide (keyBy w i.prio ≤ sh.f + w.wrec.lambda)).mergeSort fun a b => decide (keyBy w a.prio ≤ keyBy w b.prio)

/-- Every earlier access of the group and every store whose value it has read is performed (R204, R261). -/
def released (x : Iss) (s : State) : Prop := ∀ a ∈ s.eng.accs, a.kind = .pref ∨ (a.returned = true ∧ a.naks = []) ∨
  (¬ (a.g.blk = x.g.blk ∧ a.g.gid = x.g.gid) ∧ a.id ∉ x.grp.seen)

/-- The active lanes in ascending order. -/
def active (x : Iss) : List Nat := lanes.filter (laneOn x.mask)

/-- The trap is taken, with the worklists and memory as they were; the group is then as `seen` has it. -/
def WlTraps (i : Instr) (g : Sig) (Q : Iss → State → Prop) (tr : Iss → Trap) (seen : Iss → Iss := id) : Prop := ∀ s x, Ready g s x → Q x s →
  ∃ u, exec i s = .next (takeTrap (seen x) (inChain g x.ent || g.hold ≠ 0) (tr x) u) ∧ (∀ n, wlOf u n = wlOf s n) ∧ u.mem = s.mem

/-- The group after a wlcfg that names a record has written its address to WLREC (R449). -/
def cfgWrote (k : Nat) (x : Iss) : Iss := { x with grp := { x.grp with wlrec := kget x.grp k } }

/-- Every other span device of the worklist can be reached (R28). -/
def Reach (w : Worklist) (s : State) : Prop := ∀ d, d < 16 → w.wrec.spanmask.getLsbD d = true → d = s.pkg.spanDev ∨ (routeTo s d).isSome = true

/-- The items that are on their way from the chip of a shard to its spill area. -/
def onWay (sh : Shard) : List Item := match sh.doing with
  | none => []
  | some (.spill push its) => if push then [] else its
  | some (.refill _ out) => out
  | some (.swap _ _ out) => out

/-- An instruction that its shard completes at once, without a change of any worklist but for shard `core` of `w`, or of memory. -/
def ShardDone (w : Worklist) (x : Iss) (s t : State) (g : Group) : Prop :=
  grpOf t x.g = some g ∧ WentOn x g ∧ g.m = x.grp.m ∧ g.v = x.grp.v ∧ t.mem = s.mem ∧ t.coh = s.coh ∧ (∀ n, n ≠ w.id → wlOf t n = wlOf s n) ∧
    ∀ c, c ≠ x.core → shardOf t w.id c = shardOf s w.id c

end Sys2Proof.Stmt

/-- R197, R449 and R453: wlcfg, wlfloor, wldone and wlstat of a bound group complete with their value and no change of a shard; binding reads the record once and gives the group the worklist that it names. WL.CFG stops a
group without a record, one whose record is not aligned or holds a reserved bit, one outside CLMASK, and a wlcfg whose record, named or in WLREC, is another than the one bound; SCOPE.DENIED one whose record spans devices beyond its
policy. The write of WLREC comes first and stays where a trap follows. DATA.UE stops one whose shard has stayed unreachable, or has met an error of its own, with the words of that (log entry 76). The model's choices (log entries): that SCOPE.DENIED comes first (68), that every shard reads the record for itself (69), that an unreachable worklist traps until its context ends (75), and that a record address that is not canonical is WL.CFG (76). -/
def Obligations.WorklistBinding : Prop := ∀ (w : Worklist) (sh : Shard) (kd k sel : Nat) (bs : List Byte) (s' : State),
  let reads := fun (i : Instr) (g : Sig) (v : Iss → Nat) => Completes i g (BoundTo w sh) (fun x s t => ∃ g, ShardDone w x s t g ∧ (∀ n, wlOf t n = wlOf s n) ∧
    ∀ n, kget g n = if n = kd then BitVec.ofNat 64 (v x) else kget x.grp n)
  let held := fun x : Iss => ((sh.holds.filter fun h => decide (h.1 = x.g.blk ∧ h.2.1 = x.g.gid)).map (·.2.2.2)).sum
  let empty := sh.items = [] ∧ sh.holds = [] ∧ sh.chunks = [] ∧ sh.given = [] ∧ sh.taken = [] ∧ sh.lowering = none
  let room := fun x : Iss => cnt x.grp 6 < 255 ∧ noAcquire x ∧ x.grp.exited = false
  let stops := fun (i : Instr) (g : Sig) =>
    WlTraps i g (fun x _ => room x ∧ x.grp.wlBound = none ∧ (x.grp.wlrec = 0 ∨ x.grp.wlrec.toNat % 128 ≠ 0)) (fun _ => ⟨.wlCfg, 0, false, none⟩) ∧
    ∀ words, WlTraps i g (fun x s => room x ∧ x.grp.wlBound = some w.id ∧ wlOf s w.id = some w ∧ w.wrec.spanmask = 0 ∧ w.killed = false ∧ w.unreachable = some words)
      (fun _ => ⟨.dataUe, words, false, none⟩)
  reads (.wlfloor kd) (sigWlfloor kd) (fun _ => sh.f) ∧ reads (.wldone kd) (sigWldone kd) (fun _ => w.terminated.toNat) ∧
  reads (.wlstat kd 0) (sigWlstat kd 0) (fun x => sh.items.length * 2 ^ 48 + held x * 2 ^ 39 + sh.chunks.length) ∧
  reads (.wlstat kd 1) (sigWlstat kd 1) (fun _ => sh.push.toNat) ∧ reads (.wlstat kd 2) (sigWlstat kd 2) (fun _ => sh.ret.toNat) ∧
  (empty → reads (.wlstat kd 3) (sigWlstat kd 3) fun _ => 2 ^ 32) ∧
  (∀ m, ¬ empty → localMin w sh = m → m < 2 ^ 32 → reads (.wlstat kd 3) (sigWlstat kd 3) fun _ => m) ∧
  Completes (.wlcfg none) (sigWlcfg none) (fun x s => BoundTo w sh x s ∧ x.grp.wlrec = w.wrec.addr) (fun x s t => ∃ g, ShardDone w x s t g ∧ (∀ n, wlOf t n = wlOf s n) ∧ g.k = x.grp.k) ∧
  Completes (.wlcfg (some k)) (sigWlcfg (some k)) (fun x s => BoundTo w sh x s ∧ kget x.grp k = w.wrec.addr)
    (fun x s t => ∃ g, ShardDone w x s t g ∧ (∀ n, wlOf t n = wlOf s n) ∧ g.k = x.grp.k ∧ g.wlrec = x.grp.wlrec) ∧
  WlTraps (.wlcfg none) (sigWlcfg none) (fun x s => BoundTo w sh x s ∧ x.grp.wlrec ≠ w.wrec.addr) (fun _ => ⟨.wlCfg, 0, false, none⟩) ∧
  WlTraps (.wlcfg (some k)) (sigWlcfg (some k)) (fun x s => BoundTo w sh x s ∧ kget x.grp k ≠ w.wrec.addr) (fun _ => ⟨.wlCfg, 0, false, none⟩) ∧
  WlTraps (.wlcfg (some k)) (sigWlcfg (some k))
    (fun x _ => room x ∧ x.grp.wlBound = none ∧ (kget x.grp k = 0 ∨ (kget x.grp k).toNat % 128 ≠ 0)) (fun _ => ⟨.wlCfg, 0, false, none⟩) (cfgWrote k) ∧
  stops (.wlfloor kd) (sigWlfloor kd) ∧ stops (.wldone kd) (sigWldone kd) ∧ stops (.wlstat kd sel) (sigWlstat kd sel) ∧
  let r := ofBytes bs
  let fresh := fun (x : Iss) (s : State) => room x ∧ x.grp.wlBound = none ∧ kget x.grp k ≠ 0 ∧ (kget x.grp k).toNat % 128 = 0 ∧ canonical (kget x.grp k) = true ∧
    (∀ w ∈ s.worklists, ¬ (w.wrec.ctx = x.ctx ∧ w.wrec.addr = kget x.grp k)) ∧
    (let s1 := modGrp x.g (fun g => { g with wlrec := kget x.grp k }) (advance (sigWlcfg (some k)) x s)
     readAt (.core x.core) (groupKey x.g) x.ctx (kget x.grp k) 128 s1 = .ok bs s' ∧ s'.blocks = s1.blocks ∧ s'.worklists = s.worklists) ∧
    (∀ w ∈ s.worklists, w.id < s'.nextId) ∧ boundTo s' x.core = none
  let inScope := fun x : Iss => bits r 823 808 = 0 ∨ (4 ≤ maxScope s' x.vf ∧ (x.vf = 0 ∨ ∀ d, d < 16 → bit (bits r 823 808) d = true → bit (bits (fnOf s' x.vf).policy.toNat 39 24) d = true))
  let legal := fun x : Iss => bits r 796 0 = 0 ∧ bits r 1023 960 % 4096 = 0 ∧ bits r 959 896 % 256 = 0 ∧ bit (bits r 863 824) (coreCluster x.core) = true
  Completes (.wlcfg (some k)) (sigWlcfg (some k)) (fun x s => fresh x s ∧ inScope x ∧ legal x ∧ x.core < 160) (fun x s t => ∃ g w, grpOf t x.g = some g ∧ WentOn x g ∧
    g.wlrec = kget x.grp k ∧ g.wlBound = some w.id ∧ wlOf t w.id = some w ∧ (∀ n, n ≠ w.id → wlOf t n = wlOf s n) ∧ (∀ v ∈ s.worklists, v.id ≠ w.id) ∧
    w.wrec.ctx = x.ctx ∧ w.wrec.addr = kget x.grp k ∧ w.wrec.spbase.toNat = bits r 1023 960 ∧ w.wrec.stbase.toNat = bits r 959 896 ∧ w.wrec.spch = bits r 895 864 ∧
    w.wrec.clmask.toNat = bits r 863 824 ∧ w.wrec.spanmask.toNat = bits r 823 808 ∧ w.wrec.w = bits r 807 803 ∧ w.wrec.lambda = bits r 802 797 ∧
    w.armed = false ∧ w.terminated = false ∧ (∃ sh, shardIn w x.core = some sh ∧ sh.bound = true ∧ sh.known = true) ∧
    ∀ sh ∈ w.shards, sh.f = 0xFFFFFFFF ∧ sh.cap = 0xFFFFFFFF ∧ sh.items = [] ∧ sh.push = 0 ∧ sh.ret = 0) ∧
  ∀ s x, Ready (sigWlcfg (some k)) s x → fresh x s → let ends := fun t : Trap => ∃ u, exec (.wlcfg (some k)) s = .next (takeTrap (cfgWrote k x) false t u) ∧ ∀ n, wlOf u n = wlOf s n
    (inScope x → ¬ legal x → ends ⟨.wlCfg, 0, false, none⟩) ∧ (¬ inScope x → ends ⟨.scopeDenied, 4, false, none⟩)

/-- R199, R202, R203, R207, R209, R212, R214 and R450 to R452: a push whose keys lie at or above its shard's threshold, with the window and the chip able to hold them, enters the active lanes' items in lane order and PUSH counts
them; one lane below the threshold lowers F and CAP and sends LOWER to every other shard while it waits; after termination it traps with WL.CFG naming its lowest lane. A pop hands the active lanes, in ascending order, the items that may be
handed out by R199, while the group holds fewer than 256, and counts them as held; where it finds nothing it returns an empty mask and starts a steal, or waits in its waiting form. A retirement takes away what its lanes name and counts
them in RET, or traps with WL.CFG and retires nothing where the group holds too few; its release then follows, and completes it at once where every earlier access is performed, else later. The model's choices (log entries): that pushes enter in order of arrival (72) and what a failed push reports (75, 76). -/
def Obligations.WorklistItems : Prop := ∀ (w : Worklist) (sh : Shard) (msk : Nat) (n64 : Bool) (a b : VSrc) (d : VDst) (md : Nat) (wait : Bool),
  (w.shards.map (·.core)).Nodup → OneHold sh →
  let prio := fun (x : Iss) (l : Nat) => (BitVec.ofNat 32 (srcVal x false b l) : W32)
  let items := fun x : Iss => (active x).map fun l => (⟨BitVec.ofNat 64 (srcVal x n64 a l), prio x l⟩ : Item)
  let key := fun x l => keyBy w (prio x l)
  let push : Instr := .wlpush msk n64 a b
  let sPush := sigWlpush msk n64 a b
  let calm := Calm w sh.f sh
  Completes push sPush (fun x s => BoundTo w sh x s ∧ released x s ∧ calm ∧ w.terminated = false ∧ sh.items.length + (active x).length ≤ 4096 ∧
      ∀ l ∈ active x, sh.reported.getD sh.f ≤ key x l ∧ key x l ≤ sh.f + 63)
    (fun x s t => ∃ g sh', ShardDone w x s t g ∧ g.k = x.grp.k ∧ shardOf t w.id x.core = some sh' ∧ sh'.items = sh.items ++ items x ∧
      sh'.push = sh.push + BitVec.ofNat 64 (active x).length ∧ sh'.f = sh.f ∧ sh'.pushes = [] ∧ ((active x) ≠ [] → (wlOf t w.id).any (·.armed) = true)) ∧
  (∀ l, Completes push sPush (fun x s => BoundTo w sh x s ∧ released x s ∧ calm ∧ w.terminated = false ∧ active x = [l] ∧ key x l < sh.reported.getD sh.f ∧
      ∃ o ∈ w.shards, o.core ≠ x.core)
    (fun x s t => ∃ g e sh', grpOf t x.g = some g ∧ liveEntry g x.g.low = some e ∧ e.wait = .push s.nextId ∧ t.mem = s.mem ∧
      shardOf t w.id x.core = some sh' ∧ sh'.f = min sh.f (key x l) ∧ sh'.cap = key x l ∧ sh'.lowering = some (key x l) ∧ sh'.items = sh.items ∧ sh'.push = sh.push ∧
      ∀ o ∈ w.shards, o.core ≠ x.core → ∃ v ∈ t.agenda, v.ev = .lowerReceive w.id o.core (key x l) x.core)) ∧
  (∀ l ls, WlTraps push sPush (fun x s => BoundTo w sh x s ∧ released x s ∧ w.terminated = true ∧ active x = l :: ls) (fun _ => ⟨.wlCfg, BitVec.ofNat 256 (l + 64), false, none⟩)) ∧
  (let pop : Instr := .wlpop msk n64 d md wait
   let sPop := sigWlpop msk n64 d md wait
   let got := fun x : Iss => ((active x).zip (handOrder w sh)).take (256 - heldBy sh x.g)
   let at_ := fun (x : Iss) (l : Nat) => ((got x).find? fun p => p.1 == l).map (·.2)
   Completes pop sPop (fun x s => BoundTo w sh x s ∧ calm ∧ (got x ≠ [] ∨ wait = false ∨ w.terminated = true)) (fun x s t => ∃ g sh', grpOf t x.g = some g ∧ WentOn x g ∧
     g.k = x.grp.k ∧ t.mem = s.mem ∧ shardOf t w.id x.core = some sh' ∧ (∀ c, c ≠ x.core → shardOf t w.id c = shardOf s w.id c) ∧
     (∀ n, n ≠ md → mget g n = mget x.grp n) ∧ (md ≠ 0 → ∀ l, l < 64 → laneOn (mget g md) l = (at_ x l).isSome) ∧
     (∀ n l, l < 64 → vget g n l = match d, at_ x l with
       | .reg r, some i =>
         if n64 then (if n = r then i.payload.truncate 32 else if n = r + 1 then (i.payload >>> 32).truncate 32 else if n = r + 2 then i.prio else vget x.grp n l)
         else if n = r then i.payload.truncate 32 else if n = r + 1 then i.prio else vget x.grp n l
       | _, _ => vget x.grp n l) ∧
     (sh'.items ++ (got x).map (·.2)).Perm sh.items ∧ sh'.f = sh.f ∧ sh'.push = sh.push ∧ sh'.ret = sh.ret ∧
     (∀ k, heldAt sh' x.g k = heldAt sh x.g k + ((got x).filter fun p => keyBy w p.2.prio == k).length) ∧
     (∀ q : GRef, q.blk ≠ x.g.blk ∨ q.gid ≠ x.g.gid → ∀ k, heldAt sh' q k = heldAt sh q k) ∧
     (got x = [] → w.terminated = false → ∃ v ∈ t.agenda, v.ev = .stealRequest w.id x.core)) ∧
   Completes pop sPop (fun x s => BoundTo w sh x s ∧ calm ∧ handOrder w sh = [] ∧ wait = true ∧ w.terminated = false) (fun x s t => ∃ g e sh' p,
     grpOf t x.g = some g ∧ liveEntry g x.g.low = some e ∧ e.wait = .worklist s.nextId ∧ g.v = x.grp.v ∧ g.m = x.grp.m ∧ g.k = x.grp.k ∧ t.mem = s.mem ∧
     shardOf t w.id x.core = some sh' ∧ sh'.pops = [p] ∧ p.op = s.nextId ∧ p.g = x.g ∧ p.md = md ∧ p.mask = x.mask ∧ sh'.items = sh.items ∧
     ∃ v ∈ t.agenda, v.ev = .stealRequest w.id x.core)) ∧
  let ret : Instr := .wlret msk b
  let sRet := sigWlret msk b
  let names := fun (x : Iss) (k : Nat) => ((active x).filter fun l => key x l == k).length
  Completes ret sRet (fun x s => BoundTo w sh x s ∧ ∀ k, names x k ≤ heldAt sh x.g k) (fun x s t => ∃ g sh', ShardDone w x s t g ∧ g.k = x.grp.k ∧
    (released x s → sh'.rets = []) ∧ (¬ released x s → g.flights = x.grp.flights ++ [⟨6, s.nextId, false⟩] ∧ sh'.rets = [(x.g, s.nextId)]) ∧
    shardOf t w.id x.core = some sh' ∧ (∀ k, heldAt sh' x.g k = heldAt sh x.g k - names x k) ∧
    (∀ q : GRef, q.blk ≠ x.g.blk ∨ q.gid ≠ x.g.gid → ∀ k, heldAt sh' q k = heldAt sh q k) ∧ sh'.ret = sh.ret + BitVec.ofNat 64 (active x).length ∧ sh'.items = sh.items) ∧
  WlTraps ret sRet (fun x s => BoundTo w sh x s ∧ ∃ k, heldAt sh x.g k < names x k) (fun _ => ⟨.wlCfg, 0, false, none⟩)

/-- R205 to R207 and R212 to R214: the events of LOWER, of floor rounds and of termination waves. LOWER brings F and CAP of the shard that receives it down to the key and is acknowledged, and the stalled item enters when all have
acknowledged. A round collects the local minimum of every shard, takes the lowest, and each shard adopts F := min(R, CAP); CAP is cleared where the round began after it was set. Two consecutive waves with equal sums of PUSH, equal sums of RET, both sums equal, and every
shard empty declare termination, and nothing else does. Neither a round nor a wave ends while a span device of the worklist cannot be reached (R218). -/
def Sys2Proof.Stmt.FloorAndTermination : Prop := ∀ (s : State) (w : Worklist), wlOf s w.id = some w → (w.shards.map (·.core)).Nodup → s.pkg.haltDies = 0 → s.pkg.lostDies = 0 →
  (∀ sh, let keys := (sh.items ++ onWay sh ++ sh.given.flatMap (·.2)).map (fun i => keyBy w i.prio) ++ sh.holds.map (·.2.2.1) ++ sh.chunks.map (·.minKey) ++ sh.lowering.toList
    (∀ k ∈ keys, localMin w sh ≤ k) ∧ (localMin w sh = 2 ^ 32 ∨ localMin w sh ∈ keys)) ∧
  (∀ sh frm key, sh ∈ w.shards → frm ∈ w.shards → frm.core ≠ sh.core → Calm w (min sh.f key) sh →
    ∃ t sh' frm', exec (.lowerReceive w.id sh.core key frm.core) s = .next t ∧ t.mem = s.mem ∧ shardOf t w.id sh.core = some sh' ∧ shardOf t w.id frm.core = some frm' ∧
      sh'.f = min sh.f key ∧ sh'.cap = min sh.cap key ∧ sh'.items = sh.items ∧ frm'.items = frm.items ∧ frm'.f = frm.f ∧
      (∀ p r, frm.pushes = p :: r → ∃ p', frm'.pushes = p' :: r ∧ p' = { p with acks := p.acks.filter (· != sh.core) } ∧
        (p'.acks = [] → frm.lowering.isSome = true → ∃ d ∈ t.agenda, d.ev = .lowerAckComplete w.id frm.core))) ∧
  (∀ sh p lane i key g b, w.killed = false → sh ∈ w.shards → sh.bound = true → sh.pushes = [p] → p.items = [(lane, i)] → p.acks = [] → sh.lowering = some key → sh.chunks = [] → sh.pops = [] →
    sh.spillToken = none → sh.doing = none → sh.rets = [] → w.unreachable = none → (∀ j ∈ sh.items, keyBy w j.prio ≤ sh.f + 63) → keyBy w i.prio ≤ sh.f + 63 → sh.items.length < 4096 → blkOf s p.g.blk = some b → grpIn b p.g.gid = some g →
    g.exited = false → ∃ t sh' g', exec (.lowerAckComplete w.id sh.core) s = .next t ∧ shardOf t w.id sh.core = some sh' ∧ sh'.items = sh.items ++ [i] ∧
      sh'.push = sh.push + 1 ∧ sh'.lowering = none ∧ sh'.pushes = [] ∧ grpOf t p.g = some g' ∧ (∀ e ∈ g'.stack, e.wait ≠ .push p.op) ∧ (wlOf t w.id).any (·.armed) = true) ∧
  (let live := w.terminated = false ∧ ∃ c, ctxOf s w.wrec.ctx = some c ∧ c.en = true
   (¬ Reach w s → (∃ t, exec (.floorRoundStart w.id) s = .next t ∧ ∀ n, wlOf t n = wlOf s n) ∧ ∃ t, exec (.terminationWave w.id) s = .next t ∧ ∀ n, wlOf t n = wlOf s n) ∧
   (live → Reach w s → w.roundOpen = false → (∃ sh ∈ w.shards, localMin w sh < 2 ^ 32 ∨ sh.pops ≠ [] ∨ sh.pushes ≠ []) →
     ∃ t w', exec (.floorRoundStart w.id) s = .next t ∧ wlOf t w.id = some w' ∧ w'.round = w.round + 1 ∧ w'.roundOpen = true ∧
       (∀ g, w'.result = some g ↔ g < 2 ^ 32 ∧ (∃ sh ∈ w.shards, localMin w sh = g) ∧ ∀ sh ∈ w.shards, g ≤ localMin w sh) ∧
       w'.shards = (w.shards.map fun sh => { sh with reported := some (localMin w sh) }) ∧ ∀ sh ∈ w.shards, ∃ d ∈ t.agenda, d.ev = .floorRoundAnnounce w.id sh.core) ∧
   (live → Reach w s → w.armed = true → w.unreachable = none →
     let now := ((w.shards.map (·.push)).sum, (w.shards.map (·.ret)).sum)
     let empty := ∀ sh ∈ w.shards, shardEmpty sh = true
     ∃ t w', exec (.terminationWave w.id) s = .next t ∧ wlOf t w.id = some w' ∧ t.mem = s.mem ∧ (∃ p r e, w'.wave = some (p, r, e) ∧ (p, r) = now ∧ (e = true ↔ empty)) ∧
       (w'.terminated = true ↔ (w.wave = some (now.1, now.2, true) ∧ empty ∧ now.1 = now.2)))) ∧
  ∀ sh m, sh ∈ w.shards → sh.reported = some m → sh.taken = [] → (let f := match w.result with
      | some r => min r sh.cap
      | none => sh.f
    Calm w f sh → ∃ t sh' w', exec (.floorRoundAnnounce w.id sh.core) s = .next t ∧ wlOf t w.id = some w' ∧ shardOf t w.id sh.core = some sh' ∧ sh'.f = f ∧
      sh'.cap = (if sh.capRound < w.round then 0xFFFFFFFF else sh.cap) ∧ sh'.reported = none ∧ sh'.items = sh.items ∧
      (w'.roundOpen = true ↔ ∃ o ∈ w.shards, o.core ≠ sh.core ∧ o.reported.isSome = true))

/-- R210, R211, R217 and R218: a steal takes up to 8 of the items that the victim may hand out, in the order of R199, and they count at the victim until the thief, with no round open at it, has entered and confirmed them; a shard with nothing on chip is handed over once its state is in its slot, and the groups that wait for it go on; a worklist
whose shard has stayed unreachable is marked, but for one on a halted die, or of a device that can be reached again. -/
def Sys2Proof.Stmt.StealsAndHandover : Prop := ∀ (s : State) (w : Worklist), wlOf s w.id = some w → (w.shards.map (·.core)).Nodup → s.pkg.haltDies = 0 → s.pkg.lostDies = 0 →
  (∀ thief v, thief ∈ w.shards → v ∈ w.shards → v.core ≠ thief.core → (∀ o ∈ w.shards, o.core = thief.core ∨ o.core = v.core) → v.core < 160 → v.bound = true → w.terminated = false →
    thief.taken = [] → handOrder w thief = [] → handOrder w v ≠ [] →
    ∃ t v' thief', exec (.stealRequest w.id thief.core) s = .next t ∧ shardOf t w.id v.core = some v' ∧ shardOf t w.id thief.core = some thief' ∧
      v'.given = v.given ++ [(thief.core, (handOrder w v).take 8)] ∧ thief'.taken = [(v.core, (handOrder w v).take 8)] ∧ (v'.items ++ (handOrder w v).take 8).Perm v.items ∧
      thief'.items = thief.items ∧ v'.push = v.push ∧ localMin w v' = localMin w v ∧ ∃ d ∈ t.agenda, d.ev = .stealConfirm w.id thief.core) ∧
  (∀ thief v its, thief ∈ w.shards → v ∈ w.shards → v.core ≠ thief.core → thief.taken = [(v.core, its)] → v.given = [(thief.core, its)] → Calm w thief.f thief →
    its.length ≤ 8 → (∀ i ∈ its, keyBy w i.prio ≤ thief.f + 63) → thief.items.length + its.length ≤ 4096 →
    ∃ t v' thief', exec (.stealConfirm w.id thief.core) s = .next t ∧ shardOf t w.id v.core = some v' ∧ shardOf t w.id thief.core = some thief' ∧ thief'.items = thief.items ++ its ∧
      thief'.push = thief.push ∧ (thief.reported = none → v'.given = [] ∧ thief'.taken = []) ∧ (thief.reported.isSome = true → v'.given = v.given ∧ thief'.taken = [(v.core, [])])) ∧
  (∀ core u bs, boundTo s core = some w → (∀ sh, shardIn w core = some sh → sh.items = [] ∧ sh.spillToken = none ∧ sh.doing = none) → w.killed = false → w.unreachable = none →
    (let s1 := modShard w.id core (fun sh => { sh with leaving := true }) s
     shardAccess w core 2 (slotVa s w core) 256 (some ((List.range 256).map (Config.spillByte s.free))) { s1 with free := s.free + 1 } = .ok bs u ∧
       u.worklists = s1.worklists) →
    ∃ t, exec (.shardHandover core) s = .next t ∧ (∀ sh, shardIn w core = some sh → shardOf t w.id core = some { sh with bound := false, leaving := false, vacated := true }) ∧ t.mem = u.mem ∧
      ∀ b ∈ t.blocks, b.core = core → ∀ g ∈ b.groups, ∀ e ∈ g.stack, e.wait ≠ .handover) ∧
  ∀ n h, let u := { s with pkg := { s.pkg with haltDies := h } }
    exec (.shardUnreachableTimeout w.id n) u = .next (if (n < 160 ∧ h.getLsbD (coreDie n) = true) ∨ (162 ≤ n ∧ (routeTo u (n - 162)).isSome = true) then u
      else modWl w.id (fun w => { w with unreachable := some (BitVec.ofNat 256 (2 ^ 60)) }) u)

/-- R131, R455 and R456: a label command whose page its core's TLB holds goes to the home of its region, with the grain, the label, the function and the context, once the group's earlier accesses are performed, and its path waits; until they are, it does not issue (log entry 18). lblset, lbllock and lblunl on a
page that is not writable answer DENIED, RES 4, and send nothing; a non-canonical address traps with PROT, CAUSE 2. The answer of the home is written to kd and ends the wait. -/
def Sys2Proof.Stmt.LabelCommands : Prop := ∀ (kd ka lbl pa : Nat) (leaf : Leaf),
  let va := fun x : Iss => kget x.grp ka
  let here := fun (g : Sig) (x : Iss) (s : State) => canonical (va x) = true ∧ translate (.core x.core) x.ctx .read (va x) (advance g x s) = (.ok pa leaf, advance g x s)
  let command := fun (i : Instr) (g : Sig) (wr : Bool) (lval : Nat) (ev : Msg → Instr) =>
    Completes i g (fun x s => here g x s ∧ (wr = true → leaf.w = true) ∧ noAcquire x ∧ released x s) (fun x s t => ∃ m gr e, ⟨s.ns, 0, ev m⟩ ∈ t.agenda ∧
      m.pa = pa ∧ m.gsz = leaf.grain ∧ m.req = x.core ∧ m.ctx = x.ctx ∧ m.vf = x.vf ∧ m.tag = s.nextId ∧ m.lval = lval ∧ t.mem = s.mem ∧
      grpOf t x.g = some gr ∧ gr.k = x.grp.k ∧ gr.v = x.grp.v ∧ liveEntry gr x.g.low = some e ∧ e.wait = .label s.nextId kd ∧ (x.ent.reissue = none → e.pc = x.npc)) ∧
    Stalls i g (fun x s => here g x s ∧ (wr = true → leaf.w = true) ∧ (¬ noAcquire x ∨ ¬ released x s)) ∧
    (wr = true → Completes i g (fun x s => here g x s ∧ leaf.w = false) (UniDone false 0 kd fun _ _ => 4)) ∧
    Traps i g true (fun x _ => canonical (va x) = false) (fun x _ => laneTrapOf .prot (va x) 0 2 0)
  command (.lblrd kd ka) (sigLblrd kd ka) false 0 .lrd ∧ command (.lblset kd ka lbl) (sigLblset kd ka lbl) true lbl .lset ∧
  command (.lbllock kd ka) (sigLbllock kd ka) true 0 .llock ∧ command (.lblunl kd ka) (sigLblunl kd ka) true 0 .lunl ∧
  command (.lblhist kd ka) (sigLblhist kd ka) false 0 .lhist ∧
  ∀ (s : State) (m : Msg) (b : Block) (g : Group), blkOf s b.id = some b → grpIn b g.gid = some g → (∃ e ∈ g.stack, e.wait = .label m.tag kd) →
    (∀ c ∈ s.blocks, ∀ h ∈ c.groups, ∀ e ∈ h.stack, ∀ k, e.wait = .label m.tag k → c.id = b.id ∧ h.gid = g.gid ∧ k = kd) →
    ∃ t g', exec (.labelCommandResult m) s = .next t ∧ grpOf t ⟨b.id, g.gid, false⟩ = some g' ∧ t = { s with blocks := t.blocks } ∧
      (∀ n, kget g' n = if n = kd then m.res else kget g n) ∧ g'.m = g.m ∧ g'.v = g.v ∧ ∀ e ∈ g'.stack, ∀ k, e.wait ≠ .label m.tag k

/-! ## Events of the package and of the management controller -/

namespace Sys2Proof.Stmt

open Sys2Proof Sys2Proof.Machine

/-- The fields of MSEM (R37). -/
def msemGen (s : State) : Nat := bits s.mg.msem.toNat 63 32
def msemLease (s : State) : Nat := bits s.mg.msem.toNat 31 16
def msemOwn (s : State) : Nat := bits s.mg.msem.toNat 5 4
def msemExpd (s : State) : Bool := bit s.mg.msem.toNat 3
def msemLast (s : State) : Bool := bit s.mg.msem.toNat 2

/-- The number by which OWNER names a port. -/
def ownerNum : Port → Nat
  | .a => 1
  | .b => 2

/-- An event ends in a next state of which `P` holds. -/
def Gives (e : Instr) (s : State) (P : State → Prop) : Prop := ∃ t, exec e s = .next t ∧ P t

/-- Nothing but MSEM has changed. -/
def OnlyMsem (s t : State) : Prop := t = { s with mg := { s.mg with msem := t.mg.msem } }

/-- A management write without MSEM: it is ignored, and bit 0 of the port's error register is set (R39). -/
def Ignored (p : Port) (s t : State) : Prop := t = { s with mg := { s.mg with merrA := t.mg.merrA, merrB := t.mg.merrB } } ∧
  (match p with
    | .a => t.mg.merrA = s.mg.merrA ||| 1 ∧ t.mg.merrB = s.mg.merrB
    | .b => t.mg.merrB = s.mg.merrB ||| 1 ∧ t.mg.merrA = s.mg.merrA)

/-- Nothing but the package has changed. -/
def OnlyPkg (p : Pkg) (s t : State) : Prop := t = { s with pkg := p }

end Sys2Proof.Stmt

/-- R37 to R39: a write of ACQ while MSEM is free grants it to one port, by turns where both write in one cycle, with GEN one higher and no lease; while it is held such a write changes nothing. Only the owner's REL, its lease and a fall of its link free it; the lease runs from the owner's last write of LEASE. A write of
a port that does not hold MSEM is ignored and noted in that port's error register, which is cleared by writing 1. The model's choices (log entries): that a release by a port without MSEM sets its error bit, and that EXPD is cleared through either port (47). -/
def Obligations.ManagementSemaphore : Prop := ∀ s : State,
  let fields := fun (t : State) (own lease gen : Nat) (expd last : Bool) =>
    msemOwn t = own ∧ msemLease t = lease ∧ msemGen t = gen ∧ msemExpd t = expd ∧ msemLast t = last
  (∀ a b, msemOwn s ≠ 0 ∨ (a = false ∧ b = false) → exec (.msemAcquire a b) s = .next s) ∧
  (∀ a b, msemOwn s = 0 → a = true ∨ b = true → Gives (.msemAcquire a b) s fun t => OnlyMsem s t ∧
    let toB := if a = true ∧ b = true then !msemLast s else b
    fields t (if toB then 2 else 1) 0 ((msemGen s + 1) % 2 ^ 32) (msemExpd s) (if a = true ∧ b = true then toB else msemLast s)) ∧
  (∀ p, Gives (.msemRelease p) s fun t => if msemOwn s = ownerNum p then OnlyMsem s t ∧ fields t 0 0 (msemGen s) (msemExpd s) (msemLast s) else Ignored p s t) ∧
  (∀ p n, Gives (.msemLeaseWrite p n) s fun t => if msemOwn s = ownerNum p then
      fields t (ownerNum p) n.toNat (msemGen s) (msemExpd s) (msemLast s) ∧ t.mg.leaseFrom = s.ns ∧ t.mem = s.mem ∧ t.blocks = s.blocks ∧
        (n ≠ 0 → ⟨s.ns + n.toNat * 1000000, 0, .msemLeaseExpiry⟩ ∈ t.agenda)
    else Ignored p s t) ∧
  (Gives .msemLeaseExpiry s fun t => if msemOwn s ≠ 0 ∧ msemLease s ≠ 0 ∧ s.mg.leaseFrom + msemLease s * 1000000 ≤ s.ns
    then OnlyMsem s t ∧ fields t 0 0 (msemGen s) true (msemLast s) else t = s) ∧
  (∀ p, Gives (.msemExpdClear p) s fun t => OnlyMsem s t ∧ fields t (msemOwn s) (msemLease s) (msemGen s) false (msemLast s)) ∧
  (∀ p, Gives (.mgmtErrorClear p) s fun t => t = { s with mg := { s.mg with merrA := t.mg.merrA, merrB := t.mg.merrB } } ∧ match p with
    | .a => (∀ i, t.mg.merrA.getLsbD i = (s.mg.merrA.getLsbD i && i != 0)) ∧ t.mg.merrB = s.mg.merrB
    | .b => (∀ i, t.mg.merrB.getLsbD i = (s.mg.merrB.getLsbD i && i != 0)) ∧ t.mg.merrA = s.mg.merrA) ∧
  ∀ p, (Gives (.hostLinkDown p) s fun t => (match p with
      | .a => t.pkg = { s.pkg with linkA := false }
      | .b => t.pkg = { s.pkg with linkB := false }) ∧ t = { s with pkg := t.pkg, mg := { s.mg with msem := t.mg.msem } } ∧
      if msemOwn s = ownerNum p then fields t 0 0 (msemGen s) (msemExpd s) (msemLast s) else t.mg.msem = s.mg.msem) ∧
    Gives (.hostLinkUp p) s fun t => if s.pkg.lostDies.getLsbD 4 then t = s else match p with
      | .a => OnlyPkg { s.pkg with linkA := true } s t
      | .b => OnlyPkg { s.pkg with linkB := true } s t

/-- R10, R15, R18 to R21 and R34: a module reset gives every register its reset value; the fuse map and the firmware that the boot ROM accepts stand, and the controller's monitors resume from their last snapshot, while the MARGIN fields of the ports read their reset value 0 (the model's choice, log entry 136); memory outside the package's pad keeps its bytes (the model's choice, log entry 3). A loss of power ends everything until a module reset; pool and
host memory keep their bytes. A lost die makes DIE.LOST due in every group of every context that has touched it, wakes what waits, and leaves the blocks of other contexts as they are (a context without blocks has the loss recorded, log entry 107); a driver that holds MSEM returns a die to service, but for the I/O die. -/
def Sys2Proof.Stmt.ResetAndLoss : Prop := ∀ s : State,
  let kept := fun (t : State) => t.pkg.fuseMap = s.pkg.fuseMap ∧ t.pkg.fwMin = s.pkg.fwMin ∧
    (∀ i, i < s.pkg.fwVersion.length → i < s.pkg.fwHash.length → t.pkg.fwVersion[i]? = (s.pkg.fwVersion[i]?).map (fun v => if s.pkg.fwMin ≤ v then v else 0) ∧
      (s.pkg.fwMin ≤ s.pkg.fwVersion.getD i 0 → t.pkg.fwHash[i]? = s.pkg.fwHash[i]?)) ∧
    t.pkg.snapshot = s.pkg.snapshot ∧ t.pkg.ageing = s.pkg.snapshot.take 5 ∧ t.pkg.mhz = 2700 ∧ t.pkg.lostDies = 0 ∧ t.pkg.haltDies = 0 ∧
    t.pkg.linkErrors = s.pkg.snapshot.getD 37 0 ∧ (∀ n, n < 16 → t.pkg.ports[n]? = some UPort.reset) ∧ t.pkg.margins = (s.pkg.snapshot.drop 21).take 16 ∧ t.mg = Mgmt.reset ∧ t.ctxs = [] ∧ t.queues = [] ∧ t.launches = [] ∧ t.blocks = [] ∧ t.tlbs = [] ∧ t.worklists = [] ∧
    t.coh = Coh.reset ∧ t.eng = Eng.reset ∧ t.faultQs = List.replicate 65 FaultQ.reset ∧ t.ns = 0
  (Gives .moduleReset s fun t => kept t ∧ t.pkg.powered = true ∧ ∀ a, FMap.get 0 t.mem a = if a < padBase then FMap.get 0 s.mem a else 0) ∧
  (Gives .powerLoss s fun t => kept t ∧ t.pkg.powered = false ∧ ∀ a, FMap.get 0 t.mem a = if poolBase ≤ a ∧ a < padBase then FMap.get 0 s.mem a else 0) ∧
  (∀ dies, s.eng.bds = [] → (s.ctxs.map (·.id)).Nodup → (s.blocks.map (·.id)).Nodup → (∀ b ∈ s.blocks, (b.groups.map (·.gid)).Nodup) →
    Gives (.dieLoss dies) s fun t => t.pkg.lostDies = s.pkg.lostDies ||| dies ∧ t.mem = s.mem ∧
      (∀ b ∈ s.blocks, (∀ c ∈ s.ctxs, c.id = b.ctx → c.tdm &&& dies = 0) → b ∈ t.blocks) ∧
      (∀ c ∈ s.ctxs, c.tdm &&& dies ≠ 0 → c.cst ≠ 3 → (∃ d ∈ t.ctxs, d.id = c.id ∧ d.lost = if ∃ b ∈ s.blocks, b.ctx = c.id then c.lost else c.lost ||| dies) ∧ ∀ b ∈ s.blocks, b.ctx = c.id → ∀ g ∈ b.groups, g.exited = false →
        ∃ g', grpOf t ⟨b.id, g.gid, false⟩ = some g' ∧ g'.held = ⟨.dieLost, dies.zeroExtend 256, false, none⟩ :: g.held ∧ g'.faultWait = none ∧ g'.k = (g.ahead.map (·.k)).getD g.k ∧
          ∀ e ∈ g'.stack, lostWakes e.wait = none) ∧
      (dies.getLsbD 4 = true → t.pkg.linkA = false ∧ t.pkg.linkB = false ∧ msemOwn t = 0)) ∧
  ∀ p die, die < 13 → s.coh.homeQ = [] → (∀ r ∈ s.coh.regions, r.sw = false) → Gives (.dieReset p die) s fun t => if msemOwn s = ownerNum p then
      t.pkg = { s.pkg with lostDies := t.pkg.lostDies } ∧ t.blocks = s.blocks ∧ t.mem = s.mem ∧
        ∀ i, t.pkg.lostDies.getLsbD i = (s.pkg.lostDies.getLsbD i && (i != die || i == 4))
    else Ignored p s t

/-- R31 to R34: the clock moves in steps of 100 MHz between 1.2 and 2.7 GHz; the monitors take what they have measured and the remaining-life register the controller's prediction; the snapshot takes the monitors' values; a window of an error-trend counter closes with its count. -/
def Sys2Proof.Stmt.ClockAndHealth : Prop := ∀ s : State,
  (Gives .clockThrottle s (OnlyPkg { s.pkg with mhz := max 1200 (s.pkg.mhz - 100) } s)) ∧
  (Gives .clockRestore s (OnlyPkg { s.pkg with mhz := min 2700 (s.pkg.mhz + 100) } s)) ∧
  (∀ conf worst r, conf ≤ 100 → worst ≤ 13 → r.hours < 2 ^ 32 → Gives (.healthUpdate conf worst r) s fun t =>
    OnlyPkg { s.pkg with life := t.pkg.life, ageing := t.pkg.ageing, hbmErrors := t.pkg.hbmErrors, linkErrors := s.pkg.linkErrors + r.links } s t ∧
    (∀ d, d < 5 → t.pkg.ageing[d]? = some (r.ageing.getD d 0)) ∧ (∀ n, n < 8 → t.pkg.hbmErrors[n]? = some (s.pkg.hbmErrors.getD n 0 + r.hbm.getD n 0)) ∧
    bits t.pkg.life.toNat 63 56 = conf ∧ bits t.pkg.life.toNat 55 48 = worst ∧ bits t.pkg.life.toNat 47 32 = 0 ∧ bits t.pkg.life.toNat 31 0 = r.hours) ∧
  (Gives .healthSnapshot s (OnlyPkg { s.pkg with snapshot := s.pkg.ageing ++ s.pkg.hbmErrors ++ s.pkg.hbmClosed ++ s.pkg.margins ++ [s.pkg.linkErrors] } s)) ∧
  ∀ n, n < s.pkg.hbmErrors.length → s.pkg.hbmErrors.length = s.pkg.hbmClosed.length → Gives (.hbmErrorWindow n) s fun t =>
    OnlyPkg { s.pkg with hbmErrors := t.pkg.hbmErrors, hbmClosed := t.pkg.hbmClosed } s t ∧ t.pkg.hbmErrors[n]? = some 0 ∧ t.pkg.hbmClosed[n]? = s.pkg.hbmErrors[n]? ∧
      ∀ i, i ≠ n → t.pkg.hbmErrors[i]? = s.pkg.hbmErrors[i]? ∧ t.pkg.hbmClosed[i]? = s.pkg.hbmClosed[i]?

/-- R24 to R29: a flit carries its class, credit return, acknowledgements, sequence number and up to five slots at the bytes of R24, under a CRC. A good one is delivered in sequence order, slot by slot; the flits that it acknowledges leave the retry buffer, and its credits come back. One that fails its CRC or names a
reserved class is not delivered and counts as a replay (log entry 115), and when its eight replays have failed too the port goes down, which DOWN counts up to 255, and retrains; a port that has trained again is up and sends its retry buffer again. A sender whose peer asks for a replay sends its retry buffer again, which counts as replays, and goes down when the eighth has failed. The traffic of a port that has gone down moves to
the remaining routes of its peers, the messages of unacknowledged flits with it. Identities come over trained ports; the span, the device number and the
routes are the driver's, under MSEM. A read of the error counters hands out the register and clears its read-clear fields. The model's choices (log entries): that the ninth failure takes the port down (49); one credit for each flit, the place of the CRC within CHK, the message that asks for a replay, and retraining only after failed replays (108); what REPLAY counts (115). -/
def Obligations.UbyozoPorts : Prop :=
  (∀ (cls credit ackd : Nat) (seq : BitVec 16) (slots : List (List Byte)), cls < 8 → credit < 32 → ackd < 256 → slots.length ≤ 5 → (∀ m ∈ slots, m.length = 48) →
    let b := flitImage (flitBody cls credit ackd seq slots)
    b.length = 256 ∧ flitCrcOk b = true ∧ flitClass b = cls ∧ flitCredit b = credit ∧ flitAckd b = ackd ∧ flitSeq b = seq.toNat ∧
      ∀ i, i < slots.length → (flitSlots b)[i]? = slots[i]?) ∧
  ∀ (s : State) (n : Nat), n < s.pkg.ports.length →
  let p := s.pkg.ports.getD n UPort.reset
  let sets := fun (q : UPort) (t : State) => t.pkg = { s.pkg with ports := s.pkg.ports.set n q } ∧ t = { s with pkg := t.pkg, agenda := t.agenda }
  let noted := fun f : Flit => { p with corr := min (2 ^ 32 - 1) (p.corr + f.corr), margin := f.margin % 256 }
  let hears := fun (f : Flit) (q : UPort) (t : State) =>
    t.pkg = { s.pkg with ports := s.pkg.ports.set n q, margins := s.pkg.margins.set n (f.margin % 256) } ∧ t = { s with pkg := t.pkg, agenda := t.agenda }
  let good := fun b => flitCrcOk b = true ∧ flitClass b < 6
  (∀ f : Flit, p.up = true → p.waiting = [] → good f.bytes → flitSeq f.bytes = p.seq.toNat → Gives (.flitReceive n f) s (hears f { noted f with
    seq := p.seq + 1, fails := 0, delivered := p.delivered ++ (flitSlots f.bytes).map fun m => (flitClass f.bytes, m)
    toAck := p.toAck + 1, toCredit := p.toCredit.set (flitClass f.bytes) (p.toCredit.getD (flitClass f.bytes) 0 + 1), retry := p.retry.drop (flitAckd f.bytes), tries := if flitAckd f.bytes = 0 then p.tries else 0
    credits := p.credits.set (flitClass f.bytes) (p.credits.getD (flitClass f.bytes) 0 + flitCredit f.bytes) })) ∧
  (∀ f : Flit, p.up = true → good f.bytes → flitSeq f.bytes ≠ p.seq.toNat → Gives (.flitReceive n f) s (hears f (noted f))) ∧
  (∀ f : Flit, p.up = true → ¬ good f.bytes → Gives (.flitReceive n f) s fun t =>
    hears f { noted f with fails := p.fails + 1, replay := min 65535 (p.replay + 1) } t ∧ (8 ≤ p.fails → ∃ d ∈ t.agenda, d.ev = .portDown n)) ∧
  (∀ f : Flit, p.up = false → exec (.flitReceive n f) s = .next s) ∧
  (p.waiting = [] → p.retry = [] → Gives (.portDown n) s fun t => sets (if p.up then { p with up := false, fails := 0, tries := 0, downCnt := min 255 (p.downCnt + 1) } else p) t ∧
    (p.up = true → 9 ≤ p.fails ∨ 9 ≤ p.tries → ∃ d ∈ t.agenda, d.ev = .portRetrain n)) ∧
  (p.up = true → Gives (.portDown n) s fun t => t = { s with pkg := { s.pkg with ports := t.pkg.ports }, agenda := t.agenda } ∧
    let at_ := fun i => t.pkg.ports.getD i UPort.reset
    (at_ n).up = false ∧ (at_ n).downCnt = min 255 (p.downCnt + 1) ∧ (at_ n).retry.length = p.retry.length ∧ (∀ m ∈ (at_ n).waiting, 16 ≤ m.1) ∧
    (∀ f ∈ (at_ n).retry, ∀ m ∈ f.2, 16 ≤ m.1 ∨ routeTo t m.1 = none) ∧
    ∀ m ∈ p.waiting ++ p.retry.flatMap (·.2), ∀ j, j < s.pkg.ports.length → m.1 < 16 → routeTo t m.1 = some j → m ∈ (at_ j).waiting ∨ ∃ f ∈ (at_ j).retry, m ∈ f.2) ∧
  (Gives (.spanMgtMessage (.replay n)) s fun t =>
    if p.up = false ∨ p.retry = [] then t = s
    else if p.tries < 8 then sets { p with wire := p.wire ++ p.retry.map (·.1), tries := p.tries + 1, replay := min 65535 (p.replay + p.retry.length) } t
    else sets { p with tries := 9 } t ∧ ∃ d ∈ t.agenda, d.ev = .portDown n) ∧
  (p.up = true → exec (.portRetrain n) s = .next s) ∧
  (p.up = false → Gives (.portRetrain n) s fun t => ∃ q, t = { s with pkg := { s.pkg with ports := s.pkg.ports.set n q }, free := s.free + 1, agenda := t.agenda } ∧
    q.up = true ∧ q.fails = 0 ∧ p.wire ++ p.retry.map (·.1) <+: q.wire ∧ q.seq = p.seq ∧ q.delivered = p.delivered) ∧
  (∀ ident, Gives (.spanMgtMessage (.identity n ident)) s fun t => if p.up then sets { p with peer := ident } t else t = s) ∧
  (∀ h span dev, dev < 16 → Gives (.spanMgtMessage (.assign h span dev)) s fun t =>
    if msemOwn s = ownerNum h then OnlyPkg { s.pkg with spanId := span, spanDev := dev } s t else Ignored h s t) ∧
  (∀ h dev ports, Gives (.spanMgtMessage (.route h dev ports)) s fun t =>
    if msemOwn s = ownerNum h then t = { s with pkg := { s.pkg with routes := s.pkg.routes.set dev ports }, agenda := t.agenda } else Ignored h s t) ∧
  ∀ h, p.downCnt < 256 → p.margin < 256 → p.replay < 65536 → p.corr < 2 ^ 32 → Gives (.ubyozoErrcntRead h n) s fun t =>
    t = { s with pkg := { s.pkg with ports := s.pkg.ports.set n { p with downCnt := 0, replay := 0, corr := 0 } }, mg := { s.mg with readOut := t.mg.readOut } } ∧
      ∃ v, t.mg.readOut = v :: s.mg.readOut ∧ bits v.toNat 63 56 = p.downCnt ∧ bits v.toNat 55 48 = p.margin ∧ bits v.toNat 47 32 = p.replay ∧ bits v.toNat 31 0 = p.corr

/-! ## Management from the hosts -/

namespace Sys2Proof.Stmt

open Sys2Proof Sys2Proof.Machine

/-- The policy register of a function, and the error register of a port. -/
def pol (s : State) (vf : Nat) : Nat := (fnOf s vf).policy.toNat
def errOf (p : Port) (s : State) : W64 := match p with
  | .a => s.mg.merrA
  | .b => s.mg.merrB
def otherPort : Port → Port
  | .a => .b
  | .b => .a

/-- Whether queues `lo` to `lo + cnt` (QBASE and QCNT) may be the range of `vf`: none passes queue 4,095, and where the VF is enabled
none is a queue of another enabled VF (R41). -/
def RangeFits (s : State) (vf lo cnt : Nat) (en : Bool) : Prop := lo + cnt ≤ 4095 ∧ (en = true → ∀ v, 1 ≤ v → v ≤ 64 → v ≠ vf → bit (pol s v) 12 = true →
  lo + cnt < bits (pol s v) 63 52 ∨ bits (pol s v) 63 52 + bits (pol s v) 51 40 < lo)

/-- Every VF holds such a range (R41). -/
def RangesOk (s : State) : Prop := ∀ v, 1 ≤ v → v ≤ 64 → RangeFits s v (bits (pol s v) 63 52) (bits (pol s v) 51 40) (bit (pol s v) 12)

/-- A tenant has been reset (R53): its queues stand stopped with no work, no group of its contexts is left, and no fault of it is pending;
queues of other functions keep their state, and every block of another context stands as it was. -/
def TenantCleared (vf : Nat) (s t : State) : Prop :=
  (∀ q ∈ t.queues, q.vf = vf → q.state = .stopped ∧ q.work = []) ∧
  (∀ q ∈ s.queues, q.vf ≠ vf → ∃ r ∈ t.queues, r.id = q.id ∧ r.state = q.state ∧ r.cptr = q.cptr) ∧
  (∀ b ∈ t.blocks, ∀ c ∈ s.ctxs, c.vf = vf → b.ctx ≠ c.id) ∧
  (∀ b ∈ s.blocks, (∀ c ∈ s.ctxs, c.vf = vf → b.ctx ≠ c.id) → b ∈ t.blocks) ∧
  (fqOf t vf).waiting = [] ∧ (fqOf t vf).filter = [] ∧ (fqOf t vf).waiters = []

/-- A write that a port may make to a register under MSEM: the holder writes it, and otherwise it is ignored with the error bit (R39). -/
def UnderMsem (p : Port) (s t : State) (P : Prop) : Prop := if msemOwn s = ownerNum p then P else Ignored p s t

/-- Nothing but the management registers and the agenda has changed. -/
def OnlyMgmt (s t : State) : Prop := t = { s with mg := t.mg, agenda := t.agenda }

/-- An event is due. -/
def DueIn (t : State) (e : Instr) : Prop := ∃ d ∈ t.agenda, d.ev = e

/-- Every home is free, and no agent holds a copy of any grain or writes one back: a write at the home stands as it is written. -/
def AllHome (s : State) : Prop := s.coh.l1 = [] ∧ s.coh.dir = [] ∧ s.coh.wbufs = [] ∧ s.coh.homeQ = [] ∧ s.coh.txns = [] ∧ (∀ r ∈ s.coh.regions, r.sw = false) ∧
  s.pkg.haltDies = 0 ∧ s.pkg.lostDies = 0 ∧ Memory.wf s.mem

/-- Memory holds `bs` from address `a` on, and its other bytes are as they were. -/
def Holds (s t : State) (a : Nat) (bs : List Byte) : Prop :=
  ∀ n, FMap.get 0 t.mem n = if a ≤ n ∧ n < a + bs.length then bs.getD (n - a) 0 else FMap.get 0 s.mem n

/-- The little-endian number in n bytes of memory at `a`. -/
def memNum (s : State) (a n : Nat) : Nat := (List.range n).foldr (fun i v => (FMap.get 0 s.mem (a + i)).toNat + 256 * v) 0

end Sys2Proof.Stmt

/-- R36, R40 to R42 and R53: a policy or partition is written through the port that owns the VF. Its MSEM fields change only for the port that holds MSEM, a write that
would change one without it sets the error bit, a range that does not fit leaves QBASE and QCNT, MAXSCOPE = 7 leaves MAXSCOPE, EN = 1 over a range that another enabled VF shares stays 0, reserved bits read 0, and EN = 0
resets the tenant. The enabled VFs' ranges never come to overlap. The model's choices (log entries): the error bit of a value that R41 would have refused (116), the reset of a tenant by any write with EN = 0 (58), what a reset drops (59), and FCODE 0 in every queue (113). -/
def Obligations.PoliciesAndTenants : Prop := ∀ s : State, s.mg.fns.length = 65 → s.faultQs.length = 65 → (s.queues.map (·.id)).Nodup →
  (∀ (p : Port) vf (val : W64), vf = 0 ∨ 64 < vf ∨ bit (pol s vf) 13 ≠ (p == .b) →
    exec (.policyWrite p vf val) s = .next s ∧ exec (.partitionWrite p vf val) s = .next s) ∧
  (∀ (p : Port) vf (val : W64), 1 ≤ vf → vf ≤ 64 → bit (pol s vf) 13 = (p == .b) → RangesOk s → Gives (.policyWrite p vf val) s fun t =>
    let o := pol s vf
    let v := val.toNat
    let n := pol t vf
    let held := msemOwn s = ownerNum p
    bits n 11 0 = 0 ∧ bits n 39 20 = bits v 39 20 ∧ bits n 16 14 = bits v 16 14 ∧ bits n 19 17 = (if bits v 19 17 = 7 then bits o 19 17 else bits v 19 17) ∧
    bit n 13 = (if held then bit v 13 else bit o 13) ∧
    (held ∧ RangeFits s vf (bits v 63 52) (bits v 51 40) (bit v 12) → bits n 63 40 = bits v 63 40) ∧
    (¬ held ∨ ¬ RangeFits s vf (bits v 63 52) (bits v 51 40) (bit v 12) → bits n 63 40 = bits o 63 40) ∧
    (RangeFits s vf (bits n 63 52) (bits n 51 40) (bit v 12) → bit n 12 = bit v 12) ∧
    (¬ RangeFits s vf (bits n 63 52) (bits n 51 40) (bit v 12) → bit n 12 = false) ∧
    errOf p t = (if ¬ held ∧ (bits o 63 40 ≠ bits v 63 40 ∨ bit o 13 ≠ bit v 13) then errOf p s ||| 1 else errOf p s) ∧
    errOf (otherPort p) t = errOf (otherPort p) s ∧ t.mg.msem = s.mg.msem ∧
    (∀ w, w ≠ vf → fnOf t w = fnOf s w) ∧ (fnOf t vf).part = (fnOf s vf).part ∧ RangesOk t ∧
    (bit v 12 = true → OnlyMgmt s t) ∧ (bit v 12 = false → TenantCleared vf s t)) ∧
  (∀ (p : Port) vf (val : W64), 1 ≤ vf → vf ≤ 64 → bit (pol s vf) 13 = (p == .b) → Gives (.partitionWrite p vf val) s fun t =>
    if msemOwn s = ownerNum p then OnlyMgmt s t ∧ (∀ w, w ≠ vf → fnOf t w = fnOf s w) ∧ fnOf t vf = { fnOf s vf with part := BitVec.ofNat 64 (val.toNat % 2 ^ 40) }
    else if (fnOf s vf).part = BitVec.ofNat 64 (val.toNat % 2 ^ 40) then t = s else Ignored p s t) ∧
  ∀ vf, Gives (.tenantReset vf) s fun t => if 1 ≤ vf ∧ vf ≤ 64 then TenantCleared vf s t ∧ pol t vf = pol s vf else t = s

/-- R9, R36, R67, R73, R75, R80, R81, R113, R114, R138, R149 to R151, R189 and R190: the device registers take the value written but for their reserved and read-only bits; those of the PF that stand under MSEM take it from its holder alone, those of a function through its own port, a VF has none of the PF's, LTCTL
stands while any VF is enabled, FQBASE takes only a SIZE of 6 to 16, operands of a command stand while it is BUSY. A read of CMPSTAT hands out the counts and clears the read-clear ones, PIN at most 255 (log entry 118); every register reads 0 through the other port, and FQREPLAY always. -/
def Sys2Proof.Stmt.DeviceRegisters : Prop := ∀ s : State, s.mg.fns.length = 65 → s.faultQs.length = 65 →
  let write := fun (p : Port) (reg : DevReg) (val : W64) (P : State → Prop) => Gives (.registerWrite p 0 reg val) s P
  let under := fun (p : Port) (reg : DevReg) (val : W64) (m : Mgmt) => write p reg val fun t => UnderMsem p s t (t = { s with mg := m })
  (∀ (p : Port) fn reg (val : W64), 64 < fn ∨ (fn ≠ 0 ∧ bit (pol s fn) 13 ≠ (p == .b)) → exec (.registerWrite p fn reg val) s = .next s) ∧
  (∀ (p : Port) (val : W64) n,
    (write p .schedctl val fun t => UnderMsem p s t (t = { s with mg := { s.mg with schedctl := BitVec.ofNat 64 (val.toNat % 2 ^ 16) }, agenda := t.agenda })) ∧
    under p .svbase val { s.mg with svbase := BitVec.ofNat 64 (bits val.toNat 51 12 * 2 ^ 12) } ∧
    under p .cxbase val { s.mg with cxbase := val } ∧ under p .ctbase val { s.mg with ctbase := val } ∧ under p .ctlim val { s.mg with ctlim := val } ∧
    under p (.pdbase n) val { s.mg with pdbase := s.mg.pdbase.set n (BitVec.ofNat 64 (bits val.toNat 63 48 * 2 ^ 48 + bits val.toNat 43 30 * 2 ^ 30)) } ∧
    under p (.pdmap n) val { s.mg with pdmap := s.mg.pdmap.set n (BitVec.ofNat 64 (bits val.toNat 63 62 * 2 ^ 62 + bits val.toNat 51 30 * 2 ^ 30)) } ∧
    under p .ltctl val { s.mg with ltctl := (if (List.range 64).any (fun v => bit (pol s (v + 1)) 12) then s.mg.ltctl else BitVec.ofNat 64 (bits val.toNat 51 12 * 2 ^ 12 + val.toNat % 2)) } ∧
    (write p .heatctl val fun t => UnderMsem p s t (OnlyMgmt s t ∧ bits t.mg.heatctl.toNat 51 12 = bits val.toNat 51 12 ∧ bits t.mg.heatctl.toNat 7 4 = bits val.toNat 7 4 ∧
      bit t.mg.heatctl.toNat 0 = bit val.toNat 0 ∧ bits t.mg.heatctl.toNat 63 52 = 0 ∧ bits t.mg.heatctl.toNat 11 8 = 0 ∧ bit t.mg.heatctl.toNat 3 = false ∧ bit t.mg.heatctl.toNat 1 = false ∧
      bit t.mg.heatctl.toNat 2 = (bit s.mg.heatctl.toNat 2 || bit val.toNat 1) ∧
      (bit s.mg.heatctl.toNat 2 = false → bit val.toNat 1 = true → DueIn t .heatHalveDone))) ∧
    (write p .qtbase val fun t => t = { s with mg := { s.mg with qtbase := val } }) ∧ (write p .dbgsel val fun t => t = { s with mg := { s.mg with dbgsel := val } }) ∧
    (write p .ctsyncp val fun t => t = { s with mg := { s.mg with ctsyncp := if bit s.mg.ctsyncp.toNat 63 then s.mg.ctsyncp else BitVec.ofNat 64 (val.toNat % 2 ^ 36) } })) ∧
  (∀ (p : Port) fn (val : W64), fn ≤ 64 → (fn = 0 ∨ bit (pol s fn) 13 = (p == .b)) →
    let sets := fun (reg : DevReg) (f : Fn) => Gives (.registerWrite p fn reg val) s fun t => t = { s with mg := { s.mg with fns := s.mg.fns.set fn f } }
    let f := fnOf s fn
    sets .shootva (if bit f.shootn.toNat 63 then f else { f with shootva := BitVec.ofNat 64 (bits val.toNat 63 12 * 2 ^ 12) }) ∧
    sets .shootn (if bit f.shootn.toNat 63 then f else { f with shootn := BitVec.ofNat 64 (val.toNat % 2 ^ 32) }) ∧
    sets .preemptc { f with preemptc := BitVec.ofNat 64 (val.toNat % 2 ^ 56) } ∧
    (Gives (.registerWrite p fn .fqbase val) s fun t => if 6 ≤ val.toNat % 32 ∧ val.toNat % 32 ≤ 16 then
        t = { s with faultQs := t.faultQs, agenda := t.agenda } ∧ fqOf t fn = { fqOf s fn with base := BitVec.ofNat 64 (bits val.toNat 51 12 * 2 ^ 12 + val.toNat % 32) } ∧
          (∀ w, w ≠ fn → fqOf t w = fqOf s w) ∧ DueIn t (.faultBatchPost fn)
      else t = s) ∧
    (Gives (.fqHeadWrite p fn (BitVec.ofNat 32 val.toNat)) s fun t => t = { s with faultQs := t.faultQs, agenda := t.agenda } ∧
      fqOf t fn = { fqOf s fn with head := BitVec.ofNat 32 val.toNat } ∧ (∀ w, w ≠ fn → fqOf t w = fqOf s w) ∧ DueIn t (.faultBatchPost fn)) ∧
    (fn ≠ 0 → ∀ reg ∈ [DevReg.heatctl, .ltctl, .schedctl, .svbase, .qtbase, .cxbase, .ctbase, .ctlim, .ctsyncp, .dbgsel, .pdbase 0, .pdmap 0],
      exec (.registerWrite p fn reg val) s = .next s)) ∧
  (∀ (p : Port) fn r, fn ≠ 0 → bit (pol s fn) 13 ≠ (p == .b) → regRead p fn r s = 0) ∧
  (∀ (p : Port) fn, fn ≠ 0 → bit (pol s fn) 13 = (p == .b) → regRead p fn .shootva s = (fnOf s fn).shootva.toNat ∧ regRead p fn .shootn s = (fnOf s fn).shootn.toNat ∧
    regRead p fn .preemptc s = (fnOf s fn).preemptc.toNat ∧ regRead p fn .fqbase s = (fqOf s fn).base.toNat ∧
    regRead p fn .fqptr s = (fqOf s fn).tail.toNat * 2 ^ 32 + (fqOf s fn).head.toNat ∧ regRead p fn .fqreplay s = 0 ∧ regRead p fn .msem s = 0 ∧
    regRead p 0 (.policy fn) s = pol s fn) ∧
  ∀ (p : Port) vf, vf ≤ 64 → Gives (.cmpstatRead p vf) s fun t =>
    if vf ≠ 0 ∧ bit (pol s vf) 13 ≠ (p == .b) then t = { s with mg := { s.mg with readOut := 0 :: s.mg.readOut } }
    else t = { s with mg := { s.mg with fns := s.mg.fns.set vf { fnOf s vf with cmpRaw := 0, cmpExp := 0, cmpUe := 0 }, readOut := t.mg.readOut } } ∧
      ∃ v : W64, t.mg.readOut = v :: s.mg.readOut ∧ bits v.toNat 63 40 = (fnOf s vf).cmpRaw % 2 ^ 24 ∧ bits v.toNat 39 24 = (fnOf s vf).cmpExp % 2 ^ 16 ∧
        bits v.toNat 23 8 = (fnOf s vf).cmpUe % 2 ^ 16 ∧ bits v.toNat 7 0 = min 255 (fnOf s vf).cmpPin

/-- R56, R57, R74 and R80: the management work that the driver asks for. CTSYNC and a halving show BUSY until they are done, a halving until its last step has been performed at its home; a halving halves every byte of the heat table and the HEAT byte of every compression-table entry, rounding down, and no
other byte of memory; firmware is taken from the holder of MSEM if its signature verifies and its version is not below the minimum, which a commit raises; an SPDM request is answered with the four measurements, whose values are free (log entry 11). -/
def Sys2Proof.Stmt.ManagementWork : Prop := ∀ s : State,
  (∀ (p : Port) fn, fn ≠ 0 ∨ bit s.mg.ctsyncp.toNat 63 = true → exec (.ctsync p fn) s = .next s) ∧
  (∀ p : Port, bit s.mg.ctsyncp.toNat 63 = false → Gives (.ctsync p 0) s fun t => OnlyMgmt s t ∧ bit t.mg.ctsyncp.toNat 63 = true ∧
    bits t.mg.ctsyncp.toNat 35 0 = bits s.mg.ctsyncp.toNat 35 0 ∧ DueIn t .ctsyncComplete) ∧
  (Gives .ctsyncComplete s fun t => bit t.mg.ctsyncp.toNat 63 = false ∧ bits t.mg.ctsyncp.toNat 35 0 = bits s.mg.ctsyncp.toNat 35 0 ∧ t.mem = s.mem ∧
    t.blocks = s.blocks ∧ (∀ c ∈ t.coh.comp, c.page = 2 ^ 36 + bits s.mg.ctsyncp.toNat 35 0 → c.drop = true) ∧
    ∀ c ∈ s.coh.comp, c.page ≠ 2 ^ 36 + bits s.mg.ctsyncp.toNat 35 0 → c ∈ t.coh.comp) ∧
  (∀ p : Port, Gives (.heatHalve p) s fun t => UnderMsem p s t (OnlyMgmt s t ∧ bit t.mg.heatctl.toNat 2 = true ∧
    (bit s.mg.heatctl.toNat 2 = true → t = s) ∧ (bit s.mg.heatctl.toNat 2 = false → DueIn t .heatHalveDone))) ∧
  (∀ x ∈ s.coh.txns, x.req.kind = .halve → homeLost s x.req.msg.pa = false → bit s.mg.heatctl.toNat 2 = true → s.mg.halved = true →
    Gives .heatHalveDone s fun t => bit t.mg.heatctl.toNat 2 = true ∧ DueIn t .heatHalveDone) ∧
  (AllHome s → bit s.mg.heatctl.toNat 2 = true → s.mg.halved = false → Gives .heatHalveDone s fun t => bit t.mg.heatctl.toNat 2 = false ∧ t.mg.halved = false ∧ t.blocks = s.blocks ∧
    let base := bits s.mg.heatctl.toNat 51 12 * 4096
    let ct := s.mg.ctbase.toNat
    base + heatSize s ≤ 2 ^ 48 → ct + 64 * s.mg.ctlim.toNat ≤ 2 ^ 48 →
    let reach := fun n => ∃ i, i < 16 ∧ bit (s.mg.pdmap.getD i 0).toNat 63 = true ∧ i < s.mg.pdbase.length ∧ i < s.mg.pdmap.length ∧
      n < 0x06000000 + (bits (s.mg.pdbase.getD i 0).toNat 43 30 + bits (s.mg.pdbase.getD i 0).toNat 63 48 + 1) * 2 ^ 18
    ∀ a, (s.mg.pdbase.length = 16 → s.mg.pdmap.length = 16 → ((base ≤ a ∧ (a < base + 0x06000000 ∨ reach (a - base))) ∨
        (ct ≤ a ∧ a < ct + 64 * s.mg.ctlim.toNat ∧ (a - ct) % 64 = 59)) → (FMap.get 0 t.mem a).toNat = (FMap.get 0 s.mem a).toNat / 2) ∧
      (s.mg.pdbase.length = 16 → s.mg.pdmap.length = 16 → ¬ ((base ≤ a ∧ (a < base + 0x06000000 ∨ reach (a - base))) ∨
        (ct ≤ a ∧ a < ct + 64 * s.mg.ctlim.toNat ∧ (a - ct) % 64 = 59)) → FMap.get 0 t.mem a = FMap.get 0 s.mem a)) ∧
  (bit s.mg.heatctl.toNat 2 = false → exec .heatHalveDone s = .next s) ∧
  (∀ (p : Port) (i : FwImage), i.die < 5 → Gives (.firmwareUpdate p i) s fun t => UnderMsem p s t (
    if i.sigOk = true ∧ s.pkg.fwMin ≤ i.version then OnlyPkg { s.pkg with fwVersion := s.pkg.fwVersion.set i.die i.version, fwHash := s.pkg.fwHash.set i.die i.hash,
                                                                          fwMin := if i.commit then i.version else s.pkg.fwMin } s t
    else t = s)) ∧
  ∀ p : Port, Gives (.spdmRequest p) s fun t => OnlyPkg { s.pkg with spdmOut := t.pkg.spdmOut } s t ∧ t.pkg.spdmOut = (ownerNum p,
    [Config.measure 1 [], Config.measure 2 (s.pkg.fwHash.map (·.toNat)), Config.measure 3 s.pkg.fuseMap,
     Config.measure 4 (s.mg.msem.toNat :: (s.mg.fns.drop 1).flatMap fun f => [f.policy.toNat, f.part.toNat])]) :: s.pkg.spdmOut

/-- R65, R138, R139 and R53: a function creates a context that it owns, with its descriptor written to the table at CXBASE + 64 × CTXID and the pad bytes of its window zeroed but where another
window of the same VF holds them; a window that would meet one of another VF is not taken. It is destroyed only while no queue that names it runs, is parked or waits, and no group of it is left. A context is changed by its owner alone. The model's choices (log entries): what EN = 1 does to a context that exists (60), that the device writes the bytes of the descriptor (61), that the stored window is enabled and zeroed (117), and what goes with a context (59). -/
def Obligations.Contexts : Prop := ∀ (s : State) (p : Port) (fn ctx : Nat), fn ≤ 64 → ctx < 65536 →
  let mine := (fn = 0 ∨ bit (pol s fn) 13 = (p == .b)) ∧ (fn = 0 ∨ ∃ c, ctxOf s ctx = some c ∧ c.vf = fn)
  let slot := s.mg.cxbase.toNat + 64 * ctx
  (∀ d, ¬ mine → exec (.contextCreate p fn ctx d) s = .next s ∧ exec (.contextDestroy p fn ctx) s = .next s) ∧
  (∀ d : DescWrite, mine → AllHome s → d.vf < 128 → d.padBase < 2 ^ 15 → d.padLim < 2 ^ 15 → d.wdt < 2 ^ 16 → slot + 64 ≤ 2 ^ 48 → (s.ctxs.map (·.id)).Nodup →
    Gives (.contextCreate p fn ctx d) s fun t => t.blocks = s.blocks ∧ (∀ c ∈ s.ctxs, c.id ≠ ctx → c ∈ t.ctxs) ∧ ∃ c, ctxOf t ctx = some c ∧
      c.root = d.root ∧ (fn = 0 → c.vf = d.vf) ∧ (fn ≠ 0 → c.vf = fn) ∧ c.en = true ∧ c.wdt = d.wdt ∧ c.tdm = 0 ∧ c.cst = 0 ∧ c.stopc = 0 ∧
      (let meets := ∃ x ∈ s.ctxs, x.en = true ∧ x.id ≠ ctx ∧ x.vf ≠ c.vf ∧ 0 < d.padLim ∧ 0 < x.padLim ∧ d.padBase < x.padBase + x.padLim ∧ x.padBase < d.padBase + d.padLim
       (¬ meets → c.padBase = d.padBase ∧ c.padLim = d.padLim) ∧ (meets → ∀ o, ctxOf s ctx = some o → c.padBase = o.padBase ∧ c.padLim = o.padLim) ∧
       (meets → ctxOf s ctx = none → c.padBase = 0 ∧ c.padLim = 0)) ∧
      (∀ a, (a < slot ∨ slot + 64 ≤ a) →
        (let here := padBase + 4096 * c.padBase ≤ a ∧ a < padBase + 4096 * (c.padBase + c.padLim)
         let shared := ∃ x ∈ s.ctxs, x.en = true ∧ x.id ≠ ctx ∧ x.vf = c.vf ∧ padBase + 4096 * x.padBase ≤ a ∧ a < padBase + 4096 * (x.padBase + x.padLim)
         (here → ¬ shared → FMap.get 0 t.mem a = 0) ∧ ((¬ here ∨ shared) → FMap.get 0 t.mem a = FMap.get 0 s.mem a))) ∧
      (let r := memNum t slot 64
       bits r 511 472 = d.root.toNat ∧ bits r 471 465 = c.vf % 128 ∧ bit r 464 = true ∧ bits r 463 449 = c.padBase % 2 ^ 15 ∧ bits r 448 434 = c.padLim % 2 ^ 15 ∧
       bits r 433 418 = d.wdt ∧ bits r 417 402 = 0 ∧ bits r 401 400 = cstOf t c ∧ bits r 399 392 = 0 ∧ bits r 391 0 = 0)) ∧
  (mine → (∃ q ∈ s.queues, q.ctx = ctx ∧ q.state ≠ .stopped) → exec (.contextDestroy p fn ctx) s = .next s) ∧
  (mine → (∀ q ∈ s.queues, q.ctx = ctx → q.state = .stopped) → (s.ctxs.map (·.id)).Nodup → Gives (.contextDestroy p fn ctx) s fun t =>
    (∀ c ∈ t.ctxs, c.id = ctx → c.en = false) ∧ (∀ c ∈ s.ctxs, c.id ≠ ctx → c ∈ t.ctxs) ∧ (∀ b ∈ t.blocks, b.ctx ≠ ctx) ∧
    (∀ b ∈ s.blocks, b.ctx ≠ ctx → b ∈ t.blocks) ∧ (∀ l ∈ t.launches, l.ctx ≠ ctx) ∧ ∀ a ∈ t.eng.accs, a.ctx ≠ ctx)

/-- R149 and R189: SHOOT drops the translations of its range from every TLB and run-ahead and its code from the instruction buffers (R311), shows BUSY and is done when no access made through an old entry is left to perform; PREEMPT halts what runs of the context on the clusters of CLSEL and holds
it; RELEASE ends the hold, and halted blocks are looked at again; PREEMPTC then reads 0. Each acts on the issuing function's own contexts alone. -/
def Sys2Proof.Stmt.ShootAndPreempt : Prop := ∀ (s : State) (p : Port) (fn : Nat), fn ≤ 64 → s.mg.fns.length = 65 →
  let f := fnOf s fn
  let via := fn = 0 ∨ bit (pol s fn) 13 = (p == .b)
  let sctx := bits f.shootva.toNat 63 48
  let own := fun c => ∃ d, ctxOf s c = some d ∧ (fn = 0 ∨ d.vf = fn)
  let inRange := fun (c vpn : Nat) => c = sctx ∧ (bits f.shootn.toNat 31 0 = 0 ∨ (bits f.shootva.toNat 47 12 ≤ vpn ∧ vpn < bits f.shootva.toNat 47 12 + bits f.shootn.toNat 31 0))
  let pctx := bits f.preemptc.toNat 15 0
  let sel := fun b : Block => b.ctx = pctx ∧ bit f.preemptc.toNat (16 + coreCluster b.core) = true ∧ coreCluster b.core < 40
  (¬ via ∨ bit f.shootn.toNat 63 = true ∨ (fn ≠ 0 ∧ ¬ own sctx) → exec (.shoot p fn) s = .next s) ∧
  (via → bit f.shootn.toNat 63 = false → fn = 0 ∨ own sctx → Gives (.shoot p fn) s fun t => bit (fnOf t fn).shootn.toNat 63 = true ∧
    bits (fnOf t fn).shootn.toNat 31 0 = bits f.shootn.toNat 31 0 ∧ DueIn t (.shootComplete fn) ∧ t.mem = s.mem ∧
    (∀ w ∈ t.coh.ibuf, w ∈ s.coh.ibuf ∧ ¬ inRange w.ctx (w.win % 2 ^ 43 / 128)) ∧ (∀ e ∈ t.tlbs, e ∈ s.tlbs ∧ ¬ inRange e.ctx e.vpn) ∧ (∀ e ∈ s.tlbs, ¬ inRange e.ctx e.vpn → e ∈ t.tlbs) ∧
    ∀ b ∈ t.blocks, b.ctx = sctx → ∀ g ∈ b.groups, ∀ r, g.ahead = some r → ∀ q ∈ r.found, ¬ inRange sctx q.1) ∧
  (Gives (.shootComplete fn) s fun t => if bit f.shootn.toNat 63 = false then t = s else
    if shootOpen f s then t = { s with agenda := t.agenda } ∧ DueIn t (.shootComplete fn)
    else t = { s with mg := t.mg } ∧ bit (fnOf t fn).shootn.toNat 63 = false ∧ bits (fnOf t fn).shootn.toNat 31 0 = bits f.shootn.toNat 31 0) ∧
  (¬ via ∨ ¬ own pctx → exec (.preempt p fn) s = .next s ∧ exec (.release p fn) s = .next s) ∧
  (via → own pctx → (s.blocks.map (·.id)).Nodup → (s.ctxs.map (·.id)).Nodup → Gives (.preempt p fn) s fun t =>
    (∃ c d, ctxOf s pctx = some c ∧ ctxOf t pctx = some d ∧ ∀ i, i < 40 → d.hold.getLsbD i = (c.hold.getLsbD i || bit f.preemptc.toNat (16 + i))) ∧
    ((saveArea s pctx).isSome → (∀ b ∈ s.blocks, sel b → b.state = .resident → ∃ b', blkOf t b.id = some b' ∧ b'.state = .halting) ∧
      ((∃ b ∈ s.blocks, sel b ∧ b.state = .resident) → DueIn t (.haltComplete pctx))) ∧
    ((saveArea s pctx).isNone → t.blocks = s.blocks) ∧
    ((∀ b ∈ t.blocks, b.ctx = pctx → b.state ≠ .halting) → (fnOf t fn).preemptc = 0)) ∧
  (via → own pctx → (s.ctxs.map (·.id)).Nodup → Gives (.release p fn) s fun t => t.blocks = s.blocks ∧ (fnOf t fn).preemptc = 0 ∧
    (∃ c d, ctxOf s pctx = some c ∧ ctxOf t pctx = some d ∧ ∀ i, i < 40 → d.hold.getLsbD i = (c.hold.getLsbD i && !bit f.preemptc.toNat (16 + i))) ∧
    ∀ b ∈ s.blocks, b.state = .halted → prioOf s b < 8 → DueIn t (.blockResume b.id))

/-- R167 and R168: the holder of MSEM halts dies and lets them go on; a launch of a context that a halted die touches does not count the time halted towards its watchdog, and no other launch stops counting. -/
def Sys2Proof.Stmt.DieHalts : Prop := ∀ (s : State) (p : Port) (dies : BitVec 16),
  let touches := fun (l : Launch) (m : BitVec 16) => ∃ c, ctxOf s l.ctx = some c ∧ c.tdm &&& m ≠ 0
  (Gives (.dieHalt p dies) s fun t => UnderMsem p s t (t = { s with pkg := { s.pkg with haltDies := s.pkg.haltDies ||| (dies &&& 0x1FFF) }, launches := t.launches } ∧
    ∀ l ∈ s.launches, (touches l t.pkg.haltDies → l.wdPause = none → { l with wdPause := some s.ns } ∈ t.launches) ∧
      (¬ touches l t.pkg.haltDies ∨ l.wdPause ≠ none → l ∈ t.launches))) ∧
  (Gives (.dieHaltClear p dies) s fun t => UnderMsem p s t (((s.launches.map (·.id)).Nodup → s.coh.homeQ = [] → (∀ r ∈ s.coh.regions, r.sw = false) →
      t.pkg = { s.pkg with haltDies := s.pkg.haltDies &&& ~~~dies } ∧ ∀ l ∈ s.launches, ∀ since, l.wdPause = some since →
      (¬ touches l (s.pkg.haltDies &&& ~~~dies) → { l with wdPause := none, started := l.started + (s.ns - since) } ∈ t.launches) ∧
      (touches l (s.pkg.haltDies &&& ~~~dies) → l ∈ t.launches))))

/-! ## Queues and compression -/

namespace Sys2Proof.Stmt

open Sys2Proof Sys2Proof.Machine

/-- Nothing waits at the homes or for a page, no region is tracked, and no sector has an error. -/
def Quiet (s : State) : Prop := AllHome s ∧ s.coh.compHeld = [] ∧ s.coh.regions = [] ∧ s.coh.ue = []

/-- Queue `id` stands as `P` says. -/
def QueueIs (t : State) (id : Nat) (P : Queue → Prop) : Prop := ∃ q, queueOf t id = some q ∧ P q

/-- A queue stops with an FCODE, CPTR at the block (R52). -/
def StoppedAt (x : Queue) (code : Nat) (t : State) : Prop := QueueIs t x.id fun q => q.state = .stopped ∧ q.fcode = code ∧ q.cptr = x.cptr ∧ q.done = x.done

/-- The block of queue `x` has been performed, and the queue goes on to `next` (R49, R50): it serves that block, parks where there is none, unless an error in the page table keeps it from holding NEXT (R478), and
stops at the boundary where a stop was asked for (R46). Its work is now `work`. -/
def WentTo (x : Queue) (next : W64) (work : List Work) (t : State) : Prop := QueueIs t x.id fun q => q.work = work ∧ q.done = x.done ∧ q.caddr = x.caddr ∧
  (x.stopAsked = true → q.state = .stopped ∧ q.fcode = 0 ∧ q.cptr = if next = 0 then x.cptr else next) ∧
  (x.stopAsked = false → next = 0 → q.cptr = x.cptr ∧ (q.state = .parked ∨ (q.state = .stopped ∧ q.fcode = 4))) ∧
  (x.stopAsked = false → next ≠ 0 → q.state = .running ∧ q.cptr = next ∧ q.served = false ∧ q.condDone = false ∧ q.seq = x.seq + 1 ∧ DueIn t (.queueBlockServe x.id))

/-- The work of the block being served, as it stands. -/
def worked (x : Queue) (note : Bool) (fin : WorkEnd) : List Work := x.work ++ [⟨x.seq, x.cptr, note, fin⟩]

/-- The first check of R52 that block `b` of queue `x` fails, as its FCODE; the policy of the VF comes last (log entry 110). -/
def flaw (x : Queue) (b : CBlock) (s : State) : Option Nat :=
  if 4 < b.op ∨ 5 < b.cond ∨ 2 < b.onFail ∨ bits b.hdr 55 42 ≠ 0 ∨ bits b.hdr 33 0 ≠ 0 then some 1
  else if b.next.toNat % 128 ≠ 0 ∨ b.alt.toNat % 128 ≠ 0 ∨ b.cadr.toNat % 8 ≠ 0 ∨ ((b.op = 2 ∨ b.op = 4) ∧ b.p0.toNat % 8 ≠ 0) then some 2
  else if b.cond ≠ 0 ∧ b.onFail = 0 ∧ b.alt = 0 then some 3
  else if x.vf ≠ 0 ∧ bits (pol s x.vf) 19 17 < 6 ∧ (b.cond ≠ 0 ∨ b.op = 2 ∨ b.op = 4) then some 5 else none

/-- The block `b` that CPTR of queue `x` points at has been read at its home; `u` is the state then, with the queue as it was. -/
def BlockRead (x : Queue) (s : State) (b : CBlock) (u : State) : Prop := x.cptr.toNat % 128 = 0 ∧ canonical x.cptr = true ∧
  ∃ bs, readAt .queue (queueKey x.id 0) x.ctx x.cptr 128 (setTdm x.ctx 16 s) = .ok bs u ∧ b = cblockOf bs ∧ queueOf u x.id = some x

/-- Whether COND holds of the condition word (R49); SEMACQ tests the whole word. -/
def condMet (b : CBlock) (w : Nat) : Prop := match b.cond with
  | 0 => True
  | 1 => w &&& b.cmsk = b.cval
  | 2 => w &&& b.cmsk ≠ b.cval
  | 3 => b.cval ≤ w &&& b.cmsk
  | 4 => w &&& b.cmsk < b.cval
  | _ => b.cval ≤ w

/-- COND has been evaluated with the answer `ok`, and the queue is as it was in `v`: nothing where there is no condition, an acquire read of CADR, or the one atomic step of SEMACQ, which takes CVAL where the word
holds as much. -/
def CondRead (x : Queue) (b : CBlock) (ok : Bool) (u v : State) : Prop := queueOf v x.id = some x ∧
  ((b.cond = 0 ∧ ok = true ∧ v = u) ∨
   (1 ≤ b.cond ∧ b.cond ≤ 4 ∧ ∃ w, qRead x 1 b.cadr u = .ok w v ∧ (ok = true ↔ condMet b w.toNat)) ∨
   (b.cond = 5 ∧ ∃ w, qAtomic x 1 b.cadr (fun n => condHolds b n.toNat) (fun n => n - BitVec.ofNat 64 b.cval) u = .ok w v ∧ (ok = true ↔ condMet b w.toNat)))

/-- The engine acts for a queue: the I/O die is in service, and no fault of the queue waits for its answer. -/
def Acting (x : Queue) (s : State) : Prop := queueOf s x.id = some x ∧ s.pkg.lostDies.getLsbD 4 = false ∧ s.pkg.haltDies.getLsbD 4 = false ∧ x.faulted = []

/-- A queue is at a block that is to be served. -/
def Serving (x : Queue) (s : State) : Prop := Acting x s ∧ x.state = .running ∧ x.served = false ∧ x.serWait = false

/-- What the block `b` of queue `x` does once COND holds (R48), from the state `u` on. -/
def Performs (x : Queue) (b : CBlock) (u t : State) : Prop :=
  let kept := fun v : State => queueOf v x.id = queueOf u x.id
  (b.op = 0 → WentTo x b.next (worked x b.note .success) t ∧ t.blocks = u.blocks ∧ t.launches = u.launches) ∧
  (b.op = 2 → ∀ w v, qWrite x 1 b.p0 b.p1 u = .ok w v → kept v → WentTo x b.next (worked x b.note .success) t) ∧
  (b.op = 4 → ∀ w v, qAtomic x 1 b.p0 (fun _ => true) (fun n => n + b.p1) u = .ok w v → kept v → WentTo x b.next (worked x b.note .success) t) ∧
  (b.op = 3 → b.p0.toNat % 64 ≠ 0 → StoppedAt x 2 t) ∧
  (b.op = 3 → b.p0.toNat % 64 = 0 → canonical b.p0 = true → ∀ bs v, readAt .queue (queueKey x.id 2) x.ctx b.p0 64 u = .ok bs v → kept v → (∀ c ∈ v.eng.copies, c.op < v.nextId) →
    let r := trecOf bs
    let sides := sidesOf r true true
    let pad := ((ctxOf v x.ctx).map fun c => min (c.padLim * 4096) (96 * 2 ^ 20 - c.padBase * 4096)).getD 0
    let aligned := ∀ q ∈ sides, sideAligned r q.1 q.2.1 q.2.2
    let inside := ∀ q ∈ sides, sideInside r 0 pad q.1 q.2.1 q.2.2
    let reachable := ∀ q ∈ sides, q.1 = 0 → ∀ k, k < elements r → canonical (q.2.1 + BitVec.ofInt 64 (elementAt r q.2.2 k)) = true
    let clean := (r.slv = 0 → ∀ m, (translate .queue x.ctx .read r.srca v).1 ≠ .nak m) ∧ (r.dlv = 0 → ∀ m, (translate .queue x.ctx .write r.dsta v).1 ≠ .nak m)
    (¬ aligned → StoppedAt x 2 t) ∧ (aligned → ¬ inside → StoppedAt x 1 t) ∧
    (aligned → inside → reachable → clean → WentTo x b.next (worked x b.note .pending) t ∧
      ∃ c ∈ t.eng.copies, c.op = v.nextId ∧ c.g = none ∧ c.kind = .copy ∧ c.trecd = r ∧ c.ctx = x.ctx ∧ c.vf = x.vf ∧ c.queue = some (x.id, x.seq) ∧ c.next = 0)) ∧
  (b.op = 1 → b.p0.toNat % 128 = 0 → canonical b.p0 = true → ∀ bs v, readAt .queue (queueKey x.id 2) x.ctx b.p0 128 u = .ok bs v → kept v →
    (∀ w ∈ x.work, w.seq ≠ x.seq) → (∀ c ∈ v.ctxs, c.cst ≠ 3) → (∀ n ∈ v.launches, n.id ≠ v.nextId) →
    let l := lrecOf false (ofBytes bs)
    (lrecOk (ofBytes bs) l = false ∨ (footOf l).le emptyCore = false → StoppedAt x 8 t) ∧
    (lrecOk (ofBytes bs) l = true → (footOf l).le emptyCore = true → WentTo x b.next (worked x b.note .pending) t ∧
      ∃ n ∈ t.launches, n.id = v.nextId ∧ n.ctx = x.ctx ∧ n.vf = x.vf ∧ n.lrec = l ∧ n.prio = min x.prio l.prio ∧ n.queue = some (x.id, x.seq) ∧ n.status = .running ∧ n.handle = 0))

end Sys2Proof.Stmt

/-- R40, R45 and R46: start reads the record of a stopped queue of the function's range and runs it, or leaves it stopped with FCODE 0x06 where PRIO passes MAXPRIO; stop ends the walk at the next block boundary, where a parked queue stands already; reset stops the queue and clears DONE, STATE and FCODE in the engine and
in the record; each is ignored outside the function's range or through a port that does not serve it, and start on a queue that is not stopped. -/
def Sys2Proof.Stmt.QueueCommands : Prop := ∀ (s : State) (p : Port) (fn q : Nat), fn ≤ 64 →
  let holds := fun v => bit (pol s v) 12 = true ∧ bits (pol s v) 63 52 ≤ q ∧ q ≤ bits (pol s v) 63 52 + bits (pol s v) 51 40
  let mine := (fn = 0 ∨ bit (pol s fn) 13 = (p == .b)) ∧ (fn ≠ 0 → holds fn) ∧ (fn = 0 → q < 4096 ∧ ∀ v, 1 ≤ v → v ≤ 64 → ¬ holds v)
  let slot := s.mg.qtbase.toNat + 64 * q
  let r := memNum s slot 64
  (¬ mine → exec (.queueStart p fn q) s = .next s ∧ exec (.queueStop p fn q) s = .next s ∧ exec (.queueReset p fn q) s = .next s) ∧
  ((∃ x, queueOf s q = some x ∧ x.state ≠ .stopped) → exec (.queueStart p fn q) s = .next s) ∧
  (mine → (∀ x, queueOf s q = some x → x.state = .stopped) → AllHome s → slot + 64 ≤ 2 ^ 48 → (bits r 303 297 = 0 ∨ bit (pol s (bits r 303 297)) 12 = true) → Gives (.queueStart p fn q) s fun t =>
    let above := bits r 303 297 ≠ 0 ∧ bits (pol s (bits r 303 297)) 16 14 < bits r 296 294
    (QueueIs t q fun x => x.cptr = BitVec.ofNat 64 (bits r 511 448) ∧ x.done = BitVec.ofNat 64 (bits r 447 384) ∧ x.caddr = BitVec.ofNat 64 (bits r 383 320) ∧ x.ctx = bits r 319 304 ∧
      x.vf = bits r 303 297 ∧ x.prio = bits r 296 294 ∧ (above → x.state = .stopped ∧ x.fcode = 6) ∧ (¬ above → x.state = .running)) ∧
    (¬ above → DueIn t (.queueBlockServe q) ∧ bits (memNum t slot 64) 293 292 = 1) ∧ (above → bits (memNum t slot 64) 293 292 = 0 ∧ bits (memNum t slot 64) 287 256 = 6) ∧
    (∀ x ∈ s.queues, x.id ≠ q → x ∈ t.queues) ∧ ∀ a, (a < slot ∨ slot + 64 ≤ a) → FMap.get 0 t.mem a = FMap.get 0 s.mem a) ∧
  (mine → ∀ x, queueOf s q = some x → Gives (.queueStop p fn q) s fun t => QueueIs t q fun y =>
    (x.state = .running ∨ x.state = .waiting → y = { x with stopAsked := true }) ∧ (x.state = .parked → y = halted 0 x) ∧ (x.state = .stopped → y = x)) ∧
  (mine → Gives (.queueReset p fn q) s fun t =>
    (∀ x, queueOf s q = some x → QueueIs t q fun y => y.state = .stopped ∧ y.done = 0 ∧ y.fcode = 0 ∧ y.cptr = x.cptr ∧ y.work = [] ∧ y.faulted = []) ∧
    (AllHome s → slot + 64 ≤ 2 ^ 48 → bits (memNum t slot 64) 447 384 = 0 ∧ bits (memNum t slot 64) 293 292 = 0 ∧ bits (memNum t slot 64) 287 256 = 0 ∧
      bits (memNum t slot 64) 511 448 = bits r 511 448 ∧ ∀ a, (a < slot ∨ slot + 64 ≤ a) → FMap.get 0 t.mem a = FMap.get 0 s.mem a))

/-- R44, R48 to R52 and R478: the queue engine checks a block, waits for earlier work where SER asks, evaluates COND and performs OP or acts by FAIL, and goes on to NEXT or ALT; a block that fails a check stops the queue with its FCODE; a parked queue reads NEXT again and a waiting one its condition; work
retires in chain order and DONE counts what NOTE marks; a Nak of the engine's own access stops the queue. -/
def Sys2Proof.Stmt.QueueWalk : Prop := ∀ (s : State) (x : Queue), queueOf s x.id = some x →
  (¬ Serving x s → exec (.queueBlockServe x.id) s = .next s) ∧
  (Serving x s → x.cptr.toNat % 128 ≠ 0 → Gives (.queueBlockServe x.id) s (StoppedAt x 2)) ∧
  (Serving x s → ∀ b u, BlockRead x s b u → ∀ c, flaw x b u = some c → Gives (.queueBlockServe x.id) s (StoppedAt x c)) ∧
  (Serving x s → ∀ b u, BlockRead x s b u → flaw x b u = none → x.condDone = false →
    (b.ser = true → (∃ w ∈ x.work, w.fin = .pending) → Gives (.queueBlockServe x.id) s fun t => QueueIs t x.id fun q => q = { x with serWait := true }) ∧
    ((b.ser = false ∨ ∀ w ∈ x.work, w.fin ≠ .pending) → ∀ ok v, CondRead x b ok u v → Gives (.queueBlockServe x.id) s fun t =>
      (ok = true → Performs x b (modQueue x.id (fun q => { q with condDone := true }) v) t) ∧ (ok = false → b.onFail = 0 → WentTo x b.alt x.work t) ∧
      (ok = false → b.onFail = 1 → WentTo x b.next (worked x b.note .success) t) ∧
      (ok = false → b.onFail = 2 → QueueIs t x.id fun q => q.cptr = x.cptr ∧ q.work = x.work ∧ (q.state = .waiting ∨ (q.state = .stopped ∧ q.fcode = 4))))) ∧
  (Acting x s → x.state = .waiting → ∀ b u, BlockRead x s b u → flaw x b u = none → ∀ ok v, CondRead x b ok u v → Gives (.queueWaitRecheck x.id) s fun t =>
    (ok = true → b.op = 0 → WentTo x b.next (worked x b.note .success) t) ∧
    (ok = false → b.onFail = 2 → QueueIs t x.id fun q => q.cptr = x.cptr ∧ (q.state = .waiting ∨ (q.state = .stopped ∧ q.fcode = 4)))) ∧
  (Acting x s → x.state = .parked → ∀ v u, qRead x 1 x.cptr (setTdm x.ctx 16 s) = .ok v u → queueOf u x.id = some x → Gives (.queueNextRecheck x.id) s fun t =>
    (v = 0 → QueueIs t x.id fun q => q.cptr = x.cptr ∧ (q.state = .parked ∨ (q.state = .stopped ∧ q.fcode = 4))) ∧ (v ≠ 0 → v.toNat % 128 ≠ 0 → StoppedAt x 2 t) ∧
    (v ≠ 0 → v.toNat % 128 = 0 → WentTo x v x.work t)) ∧
  (x.serWait = true → (∀ w ∈ x.work, w.fin ≠ .pending) → Gives (.queueSerResume x.id) s fun t => QueueIs t x.id (· = { x with serWait := false }) ∧ DueIn t (.queueBlockServe x.id)) ∧
  (x.serWait = false ∨ (∃ w ∈ x.work, w.fin = .pending) → exec (.queueSerResume x.id) s = .next s) ∧
  (Acting x s → x.caddr = 0 → Gives (.queueCompletionWrite x.id) s fun t => QueueIs t x.id fun q => let ended := x.work.takeWhile (·.fin != .pending)
    q.work = x.work.drop ended.length ∧ q.done = x.done + BitVec.ofNat 64 (ended.filter fun w => w.fin == .success && w.note).length ∧ q.state = x.state ∧ q.cptr = x.cptr ∧
      (x.serWait = true → (∀ w ∈ x.work, w.fin ≠ .pending) → DueIn t (.queueSerResume x.id))) ∧
  (Acting x s → x.caddr ≠ 0 → ∀ w, x.work = [w] → w.fin = .success → w.note = true → ∀ o u, qWrite x 3 x.caddr (x.done + 1) s = .ok o u → queueOf u x.id = some x → Gives (.queueCompletionWrite x.id) s fun t =>
    QueueIs t x.id fun q => q.work = [] ∧ q.done = x.done + 1) ∧
  (x.state ≠ .stopped → ∀ reason, Gives (.queueEngineNak x.id reason) s (StoppedAt x (if reason = 2 then 9 else 4))) ∧
  (x.state = .stopped → ∀ reason, exec (.queueEngineNak x.id reason) s = .next s)

/-- R75 to R79: a read that misses brings a page in from its sectors, all zeros for USED = 0, with BAD set and no line filled where the CRC fails; a dirty page that leaves is stored where its sectors suffice, raw at eight, an all-zero page in none, and is otherwise pinned and reported with COMP.EXP;
the retry stores it and clears PIN, or reports it again. How many sectors other data needs is the implementation's. The model's choices (log entries): the polynomial of CRC-32C (98, PRESUMED), the filter key and ACC of COMP.EXP (51), that HEAT is kept (52), and the free number of sectors (12). -/
def Obligations.CompressedPages : Prop := ∀ (s : State) (page : Nat), Quiet s → s.mg.fns.length = 65 → 2 ^ 36 ≤ page → page < 2 ^ 37 →
  s.mg.ctbase.toNat + 64 * (page % 2 ^ 36) + 64 ≤ 2 ^ 48 →
  let slot := s.mg.ctbase.toNat + 64 * (page % 2 ^ 36)
  let e := memNum s slot 64
  let vf := bits e 471 465
  let sector := fun i => bits e (32 * i + 31) (32 * i) * 512
  let byteAt := fun (t : State) a => FMap.get 0 t.mem a
  let line := fun (t : State) (lines dirty pinned : Bool) => ∃ c, compOf t page = some c ∧ c.lines = lines ∧ c.dirty = dirty ∧ c.pinned = pinned ∧ c.drop = false
  (compOf s page = none → (s.coh.comp.filter (·.lines)).length < 128 →
    (bit e 464 = true → Gives (.compReadMiss page) s fun t => line t false false false ∧ t.mem = s.mem) ∧
    (bit e 464 = false → bits e 461 458 = 0 → Gives (.compReadMiss page) s fun t => line t true false false ∧
      ∀ a, byteAt t a = if page * 4096 ≤ a ∧ a < page * 4096 + 4096 then 0 else byteAt s a) ∧
    (bit e 464 = false → bits e 461 458 = 8 → bit e 463 = true →
      let raw := (List.range 8).flatMap fun i => (List.range 512).map fun b => byteAt s (sector i + b)
      (crc32c raw = bits e 511 480 → Gives (.compReadMiss page) s fun t => line t true false false ∧
        ∀ a, byteAt t a = if page * 4096 ≤ a ∧ a < page * 4096 + 4096 then raw.getD (a - page * 4096) 0 else byteAt s a) ∧
      (crc32c raw ≠ bits e 511 480 → vf ≤ 64 → Gives (.compReadMiss page) s fun t => line t false false false ∧ bit (memNum t slot 64) 464 = true ∧
        (fnOf t vf).cmpUe = min 65535 ((fnOf s vf).cmpUe + 1) ∧ ∀ a, (a < slot ∨ slot + 64 ≤ a) → byteAt t a = byteAt s a))) ∧
  (∀ c, compOf s page = some c → c.lines = true → c.dirty = true → (c.drop = true ∨ c.entry = BitVec.ofNat 512 e) → vf ≤ 64 →
    let bs := (List.range 4096).map fun i => byteAt s (page * 4096 + i)
    let n := if bs.all (· == 0) then 0 else max 1 (min 8 (Config.sectorCount bs))
    let stored := fun (t : State) => compOf t page = none ∧ bits (memNum t slot 64) 511 480 = crc32c bs ∧ bits (memNum t slot 64) 461 458 = n ∧
      bits (memNum t slot 64) 463 462 = (if n = 8 then 2 else 0) ∧ bits (memNum t slot 64) 471 465 = vf ∧ bits (memNum t slot 64) 457 454 = bits e 457 454 ∧
      (fnOf t vf).cmpRaw = (if n = 8 then min (2 ^ 24 - 1) ((fnOf s vf).cmpRaw + 1) else (fnOf s vf).cmpRaw) ∧ (fnOf t vf).cmpPin = (if c.pinned then (fnOf s vf).cmpPin - 1 else (fnOf s vf).cmpPin) ∧
      (n = 8 → (∀ i j, i < 8 → j < 8 → i ≠ j → sector i ≠ sector j) → (∀ i, i < 8 → sector i + 512 ≤ slot ∨ slot + 64 ≤ sector i) → ∀ i b, i < 8 → b < 512 →
        byteAt t (sector i + b) = bs.getD (512 * i + b) 0)
    let reported := fun (t : State) => (fnOf t vf).cmpExp = min 65535 ((fnOf s vf).cmpExp + 1) ∧ (vf < s.faultQs.length → outstanding (fqOf s vf) (2 ^ 16) ⟨page % 2 ^ 36, 1, 4, 0, 0⟩ = none →
      DueIn t (.faultBatchPost vf) ∧ ∃ r ∈ (fqOf t vf).waiting, r.cause = 4 ∧ r.src = 7 ∧ r.vaddr = page % 2 ^ 36 * 4096)
    (c.pinned = true → exec (.compWriteback page) s = .next s) ∧
    (c.pinned = false → n ≤ bits e 457 454 → Gives (.compWriteback page) s stored) ∧
    (c.pinned = false → bits e 457 454 < n → (s.coh.comp.filter (·.pinned)).length < 32 → Gives (.compWriteback page) s fun t => line t true true true ∧ reported t ∧ bit (memNum t slot 64) 462 = true ∧
      (fnOf t vf).cmpPin = (fnOf s vf).cmpPin + 1) ∧
    (c.pinned = false → exec (.compWritebackRetry page) s = .next s) ∧
    (c.pinned = true → c.drop = true → n ≤ bits e 457 454 → Gives (.compWritebackRetry page) s stored) ∧
    (c.pinned = true → c.drop = true → bits e 457 454 < n → Gives (.compWritebackRetry page) s fun t => line t true true true ∧ reported t))

/-! ## Placement, pre-emption and retirement -/

namespace Sys2Proof.Stmt

open Sys2Proof Sys2Proof.Machine

/-- The four cores of cluster c = 8i + j in the order of R175, core(rank, file) being number 16 × rank + file. -/
def coresOf (c : Nat) : List Nat := [32 * (c / 8) + 2 * (c % 8), 32 * (c / 8) + 2 * (c % 8) + 1, 32 * (c / 8) + 2 * (c % 8) + 16, 32 * (c / 8) + 2 * (c % 8) + 17]

/-- The clusters that a function's blocks may use, in ascending number; the PF's may use each. -/
def partOf (s : State) (vf : Nat) : List Nat := (List.range 40).filter fun c => vf == 0 || bit (fnOf s vf).part.toNat c

/-- What the blocks on a core hold there. -/
def heldThere (s : State) (c : Nat) : Foot := ((s.blocks.filter fun b => b.core == c && b.state != .retired).map (blockUse s)).foldl Foot.add Foot.zero

/-- A core of a die in service, on which no hold of the driver stands, has room for a block of launch `l` beside what is there (R174, R175, R189). -/
def Free (s : State) (l : Launch) (c : Nat) : Prop := s.pkg.lostDies.getLsbD (coreDie c) = false ∧ heldOn s l.ctx c = false ∧
  ((heldThere s c).add (footOf l.lrec)).le emptyCore = true

/-- The core keeps the control states of the blocks there and of one more of launch `l` (R192: at most 512). -/
def ControlRoom (s : State) (l : Launch) (c : Nat) : Prop :=
  ((s.blocks.filter fun b => b.core == c && b.state != .retired).map fun b => b.groups.length).sum + (l.lrec.gpb + 1) ≤ 512

/-- Position `n` of the walk over `order` that starts after `last` and wraps (R175); where the core of `last` is not among them, it starts at the first (the model's choice, log entry 139). -/
def walkAt (order : List Nat) (last : Option Nat) (n : Nat) : Option Nat :=
  order[((match last with
    | none => 0
    | some c => if order.contains c then order.idxOf c + 1 else 0) + n) % order.length]?

/-- Block `bid` of launch `l` has been placed on core `c` (R178): its storage is 0, and each of its groups starts at ENTRY with all lanes active, the lowest free
resident index and the registers that the record gives. -/
def BlockStarted (s : State) (l : Launch) (c bid setId : Nat) (b : Block) : Prop :=
  b.launch = l.id ∧ b.ctx = l.ctx ∧ b.vf = l.vf ∧ b.bid = bid ∧ b.core = c ∧ b.state = .resident ∧ b.setId = setId ∧ b.pool = poolSize l.lrec ∧ b.slab = [] ∧ b.acc = [] ∧ b.z = [] ∧
  b.barriers = [] ∧ b.cbarriers = [] ∧ b.issued = [] ∧ b.absent = [] ∧ b.groups.length = l.lrec.gpb + 1 ∧
  ∀ n, n < l.lrec.gpb + 1 → ∃ g e, b.groups[n]? = some g ∧ g.gid = n ∧ g.stack = [e] ∧ e.pc = l.lrec.entry ∧ e.mask = BitVec.allOnes 64 ∧ e.fmt = 0x8004D3 ∧ e.wait = .none ∧ e.sib = false ∧
    (∀ r, kget g r = if r = 0 then l.k0.getD l.lrec.argp else 0) ∧ g.v = [] ∧ g.m = [] ∧ g.ext = 0 ∧ g.tvec = l.lrec.tvec ∧ g.wlrec = l.lrec.wlrec ∧ g.trec = 0 ∧ g.accBase = 0 ∧ g.accLim = 0 ∧
    g.dstk = 0 ∧ g.dsectl = 0 ∧ g.handler = none ∧ g.flights = [] ∧ g.exited = false ∧ (l.lrec.nrole = 0 → g.role = 0) ∧
    (∀ r e, r < l.lrec.nrole → l.lrec.roles[r]? = some e → e.glo ≤ n → n ≤ e.ghi → (∀ q e', q < r → l.lrec.roles[q]? = some e' → ¬ (e'.glo ≤ n ∧ n ≤ e'.ghi)) → g.role = r) ∧
    (let taken := fun i => (∃ b' ∈ s.blocks, b'.core = c ∧ b'.state ≠ .retired ∧ b'.held = true ∧ ∃ g' ∈ b'.groups, g'.ridx = i) ∨ ∃ m g', m < n ∧ b.groups[m]? = some g' ∧ g'.ridx = i
     l.lrec.gpb + 1 ≤ ((List.range 256).filter fun i => !(s.blocks.any fun b' => b'.core == c && b'.state != .retired && b'.held && b'.groups.any (·.ridx == i))).length →
       ¬ taken g.ridx ∧ ∀ i, i < g.ridx → taken i)

/-- No placement or resumption that is due has a priority above `p`: none goes first (R193). -/
def NoneBefore (s : State) (p : Nat) : Prop := ∀ d ∈ s.agenda, d.time ≤ s.ns → d.cyc ≤ s.mcyc → spaceRank s d.ev ≤ p

/-- Launch `l` waits for space, and no core of its partition counts as having it (R176). -/
def Pending (s : State) (l : Launch) : Prop := launchOf s l.id = some l ∧ l.status = .running ∧ l.nextBid < l.lrec.blocks ∧ l.lrec.clm = false ∧
  ∀ c ∈ (partOf s l.vf).flatMap coresOf, fitsOn s c l.ctx l.prio none (footOf l.lrec) = false

/-- A context of another VF whose running blocks stand on the partition of `l`, one of which satisfies `P`, is asked to halt (R185), the one with the
block of the lowest priority, if no such request is in progress; without such a block nothing is asked. -/
def AsksFor (s : State) (l : Launch) (P : Block → Prop) (t : State) : Prop :=
  let near := fun b : Block => b ∈ s.blocks ∧ coreCluster b.core ∈ partOf s l.vf ∧ b.vf ≠ l.vf
  let may := fun b : Block => near b ∧ b.state = .resident ∧ (saveArea s b.ctx).isSome ∧ P b
  ((∃ b, near b ∧ b.state = .halting) ∨ (∀ b, ¬ may b) → t.blocks = s.blocks) ∧
  ((∀ b, near b → b.state ≠ .halting) → (∃ b, may b) → ∃ b, may b ∧ (∀ c, may c → prioOf s b ≤ prioOf s c) ∧ (∃ b', blkOf t b.id = some b' ∧ b'.state = .halting) ∧ DueIn t (.haltComplete b.ctx))

end Sys2Proof.Stmt

/-- R174, R175, R177 and R178: where no context may be pre-empted and no shard is to be handed over, the next block of a launch goes to the first core with room in the walk of its partition, or its next four blocks to the four cores of the first cluster with room on each; it starts as the record says, and the launch goes on with
the next. Where no core has room, nothing is placed, and its slice begins to count. The model's choices (log entries): that the PF has all clusters (43), the start of the walk after a core that left the partition (139), and DIE.LOST in groups that come later (107). -/
def Obligations.Placement : Prop := ∀ (s : State) (l : Launch), launchOf s l.id = some l → (s.launches.map (·.id)).Nodup → (∀ b ∈ s.blocks, saveArea s b.ctx = none) → s.worklists = [] → NoneBefore s l.prio →
  (l.status ≠ .running ∨ l.lrec.blocks ≤ l.nextBid → exec (.blockPlace l.id) s = .next s ∧ exec (.sliceExpiry l.id) s = .next s) ∧
  (l.status = .running → l.nextBid < l.lrec.blocks → l.lrec.clm = false →
    let order := (partOf s l.vf).flatMap coresOf
    (∀ n c, n < order.length → walkAt order l.lastCore n = some c → Free s l c → ControlRoom s l c → (∀ m d, m < n → walkAt order l.lastCore m = some d → ¬ Free s l d) → Gives (.blockPlace l.id) s fun t =>
      (∃ b, t.blocks = s.blocks ++ [b] ∧ BlockStarted s l c l.nextBid b.id b ∧ b.id = s.nextId) ∧ t.mem = s.mem ∧
      (∃ m, launchOf t l.id = some m ∧ m = { l with nextBid := l.nextBid + 1, lastCore := some c, waitFrom := s.ns }) ∧ (l.nextBid + 1 < l.lrec.blocks → DueIn t (.blockPlace l.id)) ∧
      ∀ x, ctxOf s l.ctx = some x → ∃ y, ctxOf t l.ctx = some y ∧ y.tdm = x.tdm ||| BitVec.ofNat 16 (2 ^ coreDie c)) ∧
    ((∀ c ∈ order, ¬ Free s l c) → Gives (.blockPlace l.id) s fun t => t = { s with agenda := t.agenda } ∧
      (s.mg.schedctl.toNat % 2 ^ 16 ≠ 0 → s.ns ≤ l.waitFrom + s.mg.schedctl.toNat % 2 ^ 16 * 10000 → DueIn t (.sliceExpiry l.id)))) ∧
  (l.status = .running → l.nextBid < l.lrec.blocks → l.lrec.clm = true → l.lastCore = none → ∀ (n c : Nat), (partOf s l.vf)[n]? = some c → (∀ d ∈ coresOf c, Free s l d ∧ ControlRoom s l d) →
    (∀ (m d : Nat), m < n → (partOf s l.vf)[m]? = some d → ∃ e ∈ coresOf d, ¬ Free s l e) → Gives (.blockPlace l.id) s fun t => ∃ b0 b1 b2 b3 : Block, t.blocks = s.blocks ++ [b0, b1, b2, b3] ∧
      ∀ (i : Nat) (b : Block), [b0, b1, b2, b3][i]? = some b → BlockStarted s l ((coresOf c).getD i 0) (l.nextBid + i) b0.id b)

/-- R168, R179, R180, R185 to R187, R189 and R192 to R194: a launch that waits for space asks for that of a context of lower priority at once, and of an equal one once its slice has passed; a context halts when every block that is to halt stands at an instruction boundary, its latches then invalid; a halted block resumes on its core
once it fits, with the state that it had; a granule that comes back is absent no more; a block retires when nothing of it is left, and with the last its launch, whose waiters then see its status; a launch that outlives its watchdog is reported once. The model's choices (log entries): the victim among equals (42), what a waiting parent does (39, 140), the order of granules and their places (38, 109), which accesses a halt records (24), and the time from which a resumed block ranks (138). -/
def Obligations.PreemptionAndRetirement : Prop := ∀ s : State, (s.blocks.map (·.id)).Nodup → (s.launches.map (·.id)).Nodup →
  let slice := s.mg.schedctl.toNat % 2 ^ 16 * 10000
  (∀ l, Pending s l → NoneBefore s l.prio → slice = 0 ∨ s.ns ≤ l.waitFrom + slice → Gives (.blockPlace l.id) s (AsksFor s l fun b => prioOf s b < l.prio)) ∧
  (∀ l, Pending s l → Gives (.sliceExpiry l.id) s fun t =>
    (slice = 0 → t = s) ∧ (slice ≠ 0 → s.ns ≤ l.waitFrom + slice → AsksFor s l (fun b => prioOf s b < l.prio) t) ∧
    (slice ≠ 0 → l.waitFrom + slice < s.ns → (∀ b ∈ s.blocks, l.prio ≤ prioOf s b) → AsksFor s l (fun b => prioOf s b = l.prio) t)) ∧
  (∀ ctx, let goes := fun b : Block => b ∈ s.blocks ∧ b.ctx = ctx ∧ b.state = .halting
    ((∀ b, goes b → atBoundary s b = true) → Gives (.haltComplete ctx) s fun t => (∀ b ∈ s.blocks, ¬ goes b → b ∈ t.blocks) ∧
      ∀ b, goes b → ∃ b', blkOf t b.id = some b' ∧
        b' = { b with state := .halted, haltedAt := s.mcyc, groups := b'.groups, places := b'.places, absent := b'.absent, savedAt := b'.savedAt } ∧
        (∀ a ∈ b.absent, a ∈ b'.absent) ∧ (∀ a ∈ b'.absent, a ∈ b.absent ∨ ∃ n, a = .narrow n ∧ .acc n ∈ b.absent) ∧ b'.groups.length = b.groups.length ∧
        ∀ g' ∈ b'.groups, ∃ g ∈ b.groups, g' = { g with stack := g'.stack, batch := g'.batch, closed := g'.closed } ∧ (∀ e ∈ g'.stack, ∀ c ∈ e.latches, c.valid = false) ∧
          let left := fun (n : Nat) (f : Batch) => f.dops < f.nops ∨ ∃ r, g.run = some r ∧ r.batch = n ∧ r.count ≠ 0
          (left g.nextBatch g.batch → g'.batch = { g.batch with halt := true }) ∧ (¬ left g.nextBatch g.batch → g'.batch = g.batch)) ∧
    ((∃ b, goes b ∧ atBoundary s b = false) → Gives (.haltComplete ctx) s fun t => t = { s with agenda := t.agenda } ∧ DueIn t (.haltComplete ctx))) ∧
  (s.worklists = [] → ∀ b ∈ s.blocks, ∀ l, launchOf s b.launch = some l → (setBlocks s b = [b]) → NoneBefore s (prioOf s b) →
    let ready := b.state = .halted ∧ heldOn s b.ctx b.core = false ∧ fitsOn s b.core b.ctx (prioOf s b) (some b.id) (footOf l.lrec) = true ∧ ∃ c, ctxOf s b.ctx = some c ∧ c.cst ≠ 3
    (b.state ≠ .retired → ¬ ready → exec (.blockResume b.id) s = .next s) ∧
    (ready → (∀ c ∈ s.blocks, c.core = b.core → c.state = .resident → parentWaits s c = false) → Gives (.blockResume b.id) s fun t => ∃ b', blkOf t b.id = some b' ∧ b'.state = .resident ∧ b'.held = true ∧
      (∀ a ∈ t.eng.accs, a.g.blk = b.id → ∀ l ∈ a.lanes, l.st ≠ .held) ∧ ((∀ a ∈ s.eng.accs, a.core ≠ b.core) → b' = { b with state := .resident, held := true, groups := b'.groups, places := b'.places } ∧
      b'.groups.length = b.groups.length ∧ ∀ (n : Nat) (g : Group), b.groups[n]? = some g → ∃ g' : Group, b'.groups[n]? = some g' ∧
        g' = { g with ridx := g'.ridx, waitFrom := g.waitFrom + (s.mcyc - b.haltedAt) } ∧ (b.held = true → g'.ridx = g.ridx)))) ∧
  (s.pkg.haltDies = 0 → s.pkg.lostDies = 0 → ∀ b ∈ s.blocks, ∀ gr, (b.state = .halted → exec (.granuleFill b.id gr) s = .next s) ∧ (b.state ≠ .halted → Gives (.granuleFill b.id gr) s fun t =>
    (∃ b', blkOf t b.id = some b' ∧ b' = { b with absent := b.absent.erase gr, savedAt := b'.savedAt }) ∧ (∀ c, c ≠ b.id → blkOf t c = blkOf s c) ∧ t.mem = s.mem)) ∧
  (∀ b ∈ s.blocks, ∀ l, launchOf s b.launch = some l → (setBlocks s b = [b]) → l.parent ≠ some b.id →
    let ended := b.state ≠ .retired ∧ (∀ g ∈ b.groups, g.exited = true ∧ g.flights = []) ∧ ∀ m ∈ b.issued, ∀ x, launchOf s m = some x → x.status ≠ .running
    (¬ ended → exec (.blockRetire b.id) s = .next s) ∧
    (ended → Gives (.blockRetire b.id) s fun t => blkOf t b.id = none ∧ t.mem = s.mem ∧
      (l.status ≠ .running ∨ l.retired + 1 ≠ l.lrec.blocks → launchOf t l.id = some { l with retired := l.retired + 1 }) ∧
      (l.status = .running → l.retired + 1 = l.lrec.blocks → l.queue = none → launchOf t l.id = some { l with retired := l.retired + 1, status := .done } ∧
        (l.handle ≠ 0 → ∀ c ∈ t.blocks, c.ctx = l.ctx → ∀ g ∈ c.groups, ∀ e ∈ g.stack, ∀ kd, e.wait ≠ .lwait kd l.handle)) ∧
      (l.status = .running → l.retired + 1 = l.lrec.blocks → ∀ q n x, l.queue = some (q, n) → queueOf s q = some x → launchOf t l.id = none ∧ DueIn t (.queueCompletionWrite q) ∧
        QueueIs t q fun y => y = { x with work := y.work } ∧ ∀ (i : Nat) (w : Work), x.work[i]? = some w → y.work[i]? = some (if w.seq = n ∧ w.fin = .pending then { w with fin := .success } else w)))) ∧
  ∀ l, launchOf s l.id = some l → let wdt := ((ctxOf s l.ctx).map (·.wdt)).getD 0 * 1000000
    (l.status ≠ .running ∨ l.wdPosted = true ∨ wdt = 0 ∨ l.wdPause.isSome → exec (.watchdogExpiry l.id) s = .next s) ∧
    (l.status = .running → l.wdPosted = false → wdt ≠ 0 → l.wdPause = none → Gives (.watchdogExpiry l.id) s fun t =>
      if s.ns < l.started + wdt then t = { s with agenda := t.agenda } ∧ DueIn t (.watchdogExpiry l.id)
      else launchOf t l.id = some { l with wdPosted := true } ∧ t.blocks = s.blocks ∧ (l.vf < s.faultQs.length → DueIn t (.faultBatchPost l.vf) ∧
        ∃ r, (fqOf t l.vf).waiting = (fqOf s l.vf).waiting ++ [r] ∧ r.cause = 6 ∧ r.ctx = l.ctx))

/-! ## The fault queue and the traps of a group -/

namespace Sys2Proof.Stmt

open Sys2Proof Sys2Proof.Machine

/-- No home holds anything back. -/
def Unheld (s : State) : Prop := Quiet s

/-- Group `g` has changed as `f` says, and nothing else of the machine but the fault queues and the agenda. -/
def OnlyGroupAs (g : GRef) (f : Group → Group) (s t : State) : Prop := ∀ b x, blkOf s g.blk = some b → grpIn b g.gid = some x →
  t = { s with blocks := t.blocks, faultQs := t.faultQs, agenda := t.agenda } ∧ (∀ c, c ≠ g.blk → blkOf t c = blkOf s c) ∧
  ∃ b', blkOf t g.blk = some b' ∧ b' = { b with groups := b'.groups } ∧ (∀ n, n ≠ g.gid → grpIn b' n = grpIn b n) ∧ grpIn b' g.gid = some (f x)

/-- The batch of pages has been queued for function `fn` with one token (R151 to R153, R155): NPG counts from 0, the last record has LAST, and each carries the canonical address of its page, ACC, CAUSE, the context, SRC and AGENT. -/
def Reported (fn ctx src agent : Nat) (pages : List (Nat × Nat × Nat)) (s t : State) : Prop := ∃ rs : List FRec, (fqOf t fn).waiting = (fqOf s fn).waiting ++ rs ∧ rs.length = pages.length ∧
  DueIn t (.faultBatchPost fn) ∧ ∀ (n : Nat) (p : Nat × Nat × Nat), pages[n]? = some p → ∃ r : FRec, rs[n]? = some r ∧ r.vaddr = p.1 * 4096 + (if p.2.2 ≠ 4 ∧ p.1 / 2 ^ 35 % 2 = 1 then (2 ^ 16 - 1) * 2 ^ 48 else 0) ∧ r.acc = p.2.1 ∧ r.cause = p.2.2 ∧ r.ctx = ctx ∧ r.src = src ∧ r.agent = agent ∧
    r.token = (fqOf s fn).token.toNat ∧ r.npg = n ∧ (r.last = true ↔ n + 1 = pages.length)

end Sys2Proof.Stmt

/-- R150 to R153, R155 to R158: the records of a batch are written to the ring from slot TAIL on, with their fields and sequence numbers, and only then TAIL advances, with MSI-X vector 0 where TAIL stood at HEAD; without a valid SIZE or without room they wait. A group's run-ahead ends with one batch
and the group back at its faulting instruction; a fetch fault posts one page. A replay frees the pages of its token and its waiters act; a kill makes them take their traps and stops; a token that no one waits on does nothing. The model's choices (log entries): that a batch waits until it fits as a whole (26), that a refused record waits (130), and answers to tokens without waiters or for groups that are not resident (79, 80). -/
def Obligations.FaultRing : Prop := ∀ (s : State) (fn : Nat), fn ≤ 64 → s.faultQs.length = 65 →
  let q := fqOf s fn
  let size := 2 ^ (q.base.toNat % 32)
  let valid := 6 ≤ q.base.toNat % 32 ∧ q.base.toNat % 32 ≤ 16
  let ring := bits q.base.toNat 51 12 * 4096
  (¬ valid ∨ q.waiting = [] → exec (.faultBatchPost fn) s = .next s) ∧
  (∀ r0 rest, q.waiting = r0 :: rest →
    let batch := q.waiting.takeWhile (·.token == r0.token)
    (valid → size < (q.tail - q.head).toNat + batch.length → exec (.faultBatchPost fn) s = .next s) ∧
    (valid → (q.tail - q.head).toNat + batch.length ≤ size → q.filter.length ≤ 256 → Unheld s → Gives (.faultBatchPost fn) s fun t =>
      (fqOf t fn).tail = q.tail + BitVec.ofNat 32 batch.length ∧ (fqOf t fn).head = q.head ∧ (fqOf t fn).waiting = q.waiting.drop batch.length ∧ (fqOf t fn).seq = q.seq + BitVec.ofNat 64 batch.length ∧
      (fqOf t fn).msix = (if q.tail = q.head then q.msix + 1 else q.msix) ∧ t.blocks = s.blocks ∧
      (∀ (n : Nat) (r : FRec), batch[n]? = some r → let m := memNum t (ring + 64 * ((q.tail.toNat + n) % size)) 64
        bits m 511 448 = r.vaddr % 2 ^ 64 ∧ bits m 447 432 = r.ctx % 2 ^ 16 ∧ bits m 431 416 = r.token % 2 ^ 16 ∧ bits m 415 410 = r.npg % 64 ∧ bit m 409 = r.last ∧ bits m 408 406 = r.acc % 8 ∧
        bits m 405 402 = r.cause % 16 ∧ bits m 401 398 = r.src % 16 ∧ bits m 397 389 = r.agent % 512 ∧ bits m 388 384 = 0 ∧ bits m 383 320 = (q.seq + BitVec.ofNat 64 n).toNat ∧ bits m 319 256 = r.info.toNat ∧ bits m 255 0 = 0) ∧
      ∀ a, (∀ n, n < batch.length → a < ring + 64 * ((q.tail.toNat + n) % size) ∨ ring + 64 * ((q.tail.toNat + n) % size) + 64 ≤ a) → FMap.get 0 t.mem a = FMap.get 0 s.mem a)) ∧
  (∀ (g : GRef) b x r, blkOf s g.blk = some b → b.vf = fn → grpIn b g.gid = some x → x.gid = g.gid →
    (x.ahead = none → exec (.runAheadEnd g) s = .next s) ∧
    (x.ahead = some r → (∀ p ∈ r.fault :: r.found, outstanding q b.ctx ⟨p.1, p.2.1, p.2.2, 0, 0⟩ = none) → Gives (.runAheadEnd g) s fun t => Reported fn b.ctx 0 b.core (r.fault :: r.found) s t ∧
      OnlyGroupAs g (fun y => { y with stack := r.stack, k := r.k, m := r.m, v := r.v, gens := r.gens, ctrs := r.ctrs, ahead := none, faultWait := some q.token.toNat }) s t ∧
      (fqOf t fn).waiters = q.waiters ++ [(q.token.toNat, .group { g with low := r.low } r.kill)])) ∧
  (∀ (g : GRef) v c, issRaw g 0 0 s = some v → v.vf = fn → v.grp.gid = g.gid → probe s (.core v.core) v.ctx .fetch v.ent.pc = .fault c → v.ent.chain = 0 ∨ 3 ≤ v.ent.chain → outstanding q v.ctx (pageOf v.ent.pc 2 c) = none → Gives (.fetchFault g) s fun t =>
    Reported fn v.ctx 1 v.core [(v.ent.pc.toNat % 2 ^ 48 / 4096, 2, c)] s t ∧ OnlyGroupAs g (fun y => { y with faultWait := some q.token.toNat }) s t) ∧
  (∀ (p : Port) tok, (fn ≠ 0 ∧ bit (pol s fn) 13 ≠ (p == .b)) ∨ ((∀ w ∈ q.waiters, w.1 ≠ tok) ∧ ∀ e ∈ q.filter, e.2.2.2 ≠ tok) → exec (.fqReplay p fn tok) s = .next s ∧ exec (.fqKill p fn tok) s = .next s) ∧
  (∀ (p : Port) tok w, fn = 0 ∨ bit (pol s fn) 13 = (p == .b) → (q.waiters.filter (·.1 == tok) = [(tok, w)]) →
    let freed := fun t : State => (∀ e ∈ (fqOf t fn).filter, e ∈ q.filter ∧ e.2.2.2 ≠ tok) ∧ (∀ e ∈ q.filter, e.2.2.2 ≠ tok → e ∈ (fqOf t fn).filter) ∧ ∀ x ∈ (fqOf t fn).waiters, x.1 ≠ tok
    (∀ g k, w = .group g k ∨ w = .stack g k → (∀ x, grpOf s g = some x → x.gid = g.gid ∧ x.faultWait = some tok) → Gives (.fqReplay p fn tok) s fun t => freed t ∧ OnlyGroupAs g (fun y => { y with faultWait := none, waitFrom := s.mcyc }) s t) ∧
    (∀ g k v, w = .group g k ∨ w = .stack g k → issRaw g 0 0 s = some v → v.grp.faultWait = some tok → v.grp.gid = g.gid → v.grp.tvec ≠ 0 → v.grp.handler = none → v.grp.trec + 64 ≤ 256 * v.lrec.slab → Gives (.fqKill p fn tok) s fun t => freed t ∧
      ∃ b g', blkOf t g.blk = some b ∧ grpIn b g.gid = some g' ∧ g'.faultWait = none ∧ g'.handler = some ⟨v.grp.stack.length, g.low, k.inst - k.pc⟩ ∧ (∃ e, liveEntry g' g.low = some e ∧ e.pc = v.grp.tvec) ∧
        let r := ofBytes (slabRead b v.grp.trec 64)
        bits r 255 192 = k.pc.toNat ∧ bits r 191 128 = k.npc.toNat ∧ bits r 127 64 = k.mask.toNat ∧ bits r 47 40 = 4 ∧ bit r 9 = true ∧ bit r 8 = k.chain ∧ r / 2 ^ 256 = k.words.toNat) ∧
    (∀ x, w = .queue x.id → queueOf s x.id = some x → tok ∈ x.faulted → x.state ≠ .stopped →
      (Gives (.fqReplay p fn tok) s fun t => freed t ∧ QueueIs t x.id (· = { x with faulted := x.faulted.filter (· != tok) }) ∧ (x.state = .running → DueIn t (.queueBlockServe x.id)) ∧
        (x.state = .waiting → DueIn t (.queueWaitRecheck x.id)) ∧ (x.state = .parked → DueIn t (.queueNextRecheck x.id))) ∧
      (Gives (.fqKill p fn tok) s fun t => freed t ∧ StoppedAt x 7 t)) ∧
    (∀ page, w = .comp page → (Gives (.fqReplay p fn tok) s fun t => freed t ∧ DueIn t (.compWritebackRetry page)) ∧ Gives (.fqKill p fn tok) s fun t => freed t ∧ DueIn t (.compWritebackRetry page)) ∧
    (∀ wl c, w = .spill wl c → (∃ sh, shardOf s wl c = some sh ∧ sh.spillToken = some tok) → Gives (.fqKill p fn tok) s fun t => freed t ∧ ∃ x, wlOf t wl = some x ∧ x.killed = true))

/-- A trap that is due may be taken at a boundary of the path of `v` (R133, R477): any but the refusal of an access, which waits for a boundary of a path
that has one of its lanes while the group has such a path. -/
def Sys2Proof.Stmt.TakenOn (v : Iss) (t : Trap) : Prop := match t.named with
  | some (_, m, _, _) => t.restart = false ∨ v.ent.mask &&& m ≠ 0 ∨ ∀ u ∈ v.grp.stack, u.mask &&& m = 0
  | none => True

/-- R160 to R164, R228, R309, R325, R326, R335 and R477: a trap that is delivered names the instruction at which its slot stands; at a boundary DIE.LOST goes first, then the others in their order of arrival, DEBUG last; for an exited group each is reported with CAUSE 5 instead. An illegal word raises ILL with the word; a pad word moves the
path to the next 32-byte boundary; a yield ends when its time has come; a fill brings the stack back to three entries on chip. The model's choices (log entries): the address that a trap names where an instruction waited (50), DIE.LOST in groups that come later (107), and what an error in a stack fill does (123). -/
def Obligations.TrapsAtBoundaries : Prop := ∀ (s : State) (g : GRef),
  (∀ v tr, issRaw g 0 0 s = some v → v.ent.reissue = none → tr.named = none → exec (.trapDeliver g tr) s = .next (enterTrap v false tr v.ent.pc v.ent.pc v.mask v.ent.pc s)) ∧
  (issRaw g 0 0 s = none → ∀ tr, exec (.trapDeliver g tr) s = .next s) ∧
  (∀ v tr pre post, issRaw g 0 0 s = some v → v.ent.reissue = none → v.grp.held = pre ++ tr :: post →
    (tr.code = .dieLost ∧ (∀ x ∈ pre, x.code ≠ .dieLost)) ∨ (tr.code ≠ .debug ∧ TakenOn v tr ∧ (∀ x ∈ v.grp.held, x.code ≠ .dieLost) ∧ ∀ x ∈ pre, x.code = .debug ∨ ¬ TakenOn v x) ∨ (pre = [] ∧ ∀ x ∈ v.grp.held, x.code = .debug) →
    tr ∉ pre → Gives (.boundaryTrap g) s fun t => let y := { v with grp := { v.grp with held := pre ++ post } }
      let at_ := tr.named.getD (v.ent.pc, v.ent.mask, false, v.ent.pc)
      t = enterTrap y at_.2.2.1 { tr with named := some at_ } at_.1 v.ent.pc at_.2.1 at_.2.2.2 (modGrp g (fun _ => y.grp) s)) ∧
  (∀ v, issRaw g 0 0 s = some v → v.grp.held = [] → exec (.boundaryTrap g) s = .next s) ∧
  (∀ b x, issRaw g 0 0 s = none → blkOf s g.blk = some b → grpIn b g.gid = some x → x.gid = g.gid → x.exited = true → (∀ c, ctxOf s b.ctx = some c → c.cst ≠ 3) → b.vf < s.faultQs.length → Gives (.boundaryTrap g) s fun t =>
    OnlyGroupAs g (fun y => { y with held := [] }) s t ∧ ∃ rs : List FRec, (fqOf t b.vf).waiting = (fqOf s b.vf).waiting ++ rs ∧ rs.length = x.held.length ∧
      ∀ (n : Nat) (tr : Trap), x.held[n]? = some tr → ∃ r : FRec, rs[n]? = some r ∧ r.cause = 5 ∧ r.ctx = b.ctx ∧ bits r.info.toNat 7 0 = trapNum tr.code) ∧
  (∀ (w : BitVec 128) v, s.cur = some g → issRaw g (lenOf (BitVec.ofNat 8 w.toNat)) (bits w.toNat 17 14) s = some v → v.grp.ahead = none → v.ent.reissue = none →
    exec (.illegalWord w) s = .next (enterTrap v false (trapAt .ill w.toNat) v.ent.pc (v.ent.pc + BitVec.ofNat 64 (lenOf (BitVec.ofNat 8 w.toNat))) v.mask v.ent.pc s)) ∧
  (∀ w e x, s.cur = some g → grpOf s g = some x → x.gid = g.gid → liveEntry x g.low = some e → Gives (.padWordSkip w) s fun t => OnlyGroup g s t ∧ ∃ y f, grpOf t g = some y ∧ y = { x with stack := y.stack } ∧ liveEntry y g.low = some f ∧
    f = { e with pc := f.pc } ∧ f.pc.toNat = (e.pc.toNat / 32 + 1) * 32 % 2 ^ 64 ∧ y.stack.length = x.stack.length ∧ ∀ n, n ≠ g.low.toNat → y.stack[n]? = x.stack[n]?) ∧
  (∀ x, grpOf s g = some x → x.gid = g.gid → Gives (.yieldExpiry g) s fun t => OnlyGroup g s t ∧ ∃ y, grpOf t g = some y ∧ y = { x with stack := y.stack, waitFrom := y.waitFrom, ahead := y.ahead } ∧ y.stack.length = x.stack.length ∧
    ∀ (n : Nat) (e : Entry), x.stack[n]? = some e → ((∃ til, e.wait = .yielding til ∧ til ≤ s.mcyc) → y.stack[n]? = some { e with wait := .none }) ∧ ((∀ til, e.wait = .yielding til → s.mcyc < til) → y.stack[n]? = some e)) ∧
  (∀ v, issRaw g 0 0 s = some v → v.grp.gid = g.gid → v.blk.absent = [] → (∀ p, p < 3 → v.grp.stack.length - 3 + p < 64 * bits v.grp.dstk.toNat 7 0) → Gives (.stackFill g) s fun t => OnlyGroup g s t ∧
    grpOf t g = some { v.grp with onChip := max v.grp.onChip (min v.grp.stack.length 3) })

/-! ## The homes and the caches -/

namespace Sys2Proof.Stmt

open Sys2Proof Sys2Proof.Machine

/-- A message of one kind that satisfies `P` is on its way. -/
def Sends (t : State) (f : Msg → Instr) (P : Msg → Prop) : Prop := ∃ m, DueIn t (f m) ∧ P m

/-- Labels and heat sampling are off, no die is halted or lost, no error stands, and no transaction, queued request, stale mark or caller that asks
again does. -/
def HomeFree (s : State) : Prop := s.coh.txns = [] ∧ s.coh.homeQ = [] ∧ s.coh.regions = [] ∧ s.coh.stale = [] ∧ s.coh.ue = [] ∧ s.coh.asks = [] ∧
  s.pkg.haltDies = 0 ∧ s.pkg.lostDies = 0 ∧ bit s.mg.ltctl.toNat 0 = false ∧ bit s.mg.heatctl.toNat 0 = false

/-- No route to a span peer that may have to be snooped is missing (R28): the owner, or any peer where the EXT bit of the peers is set. -/
def Reached (s : State) (e : DirEnt) : Prop := (162 ≤ e.owner → e.owner < 178 → (routeTo s (e.owner - 162)).isSome = true) ∧ (e.ext.getLsbD 1 = true → peerCut s = false)

/-- A request to a grain of HBM. -/
def InHbm (m : Msg) : Prop := 0 < m.gsz ∧ m.pa + m.gsz ≤ 2 ^ 48

/-- Nothing but messages, the homes' books and memory has changed; `coh` says that memory has not either. -/
def OnlyHome (s t : State) : Prop := t = { s with agenda := t.agenda, coh := t.coh, mem := t.mem }
def OnlyBooks (s t : State) : Prop := t = { s with agenda := t.agenda, coh := t.coh }

/-- The directory holds this entry alone, but for the order of its last use. -/
def DirIs (t : State) (e : DirEnt) : Prop := ∃ n, t.coh.dir = [{ e with used := n }]

/-- A snoop of agent `a` gets there: no span peer, or one to which there is a route (R28). -/
def Gets (s : State) (a : Nat) : Prop := isPeer a = false ∨ (routeTo s (a - 162)).isSome = true

/-- The entry of a grain that agent `a` alone owns, charged to function `vf`. -/
def ownEntry (pa gsz a vf : Nat) : DirEnt := ⟨pa, gsz, .x, a, 0, 0, vf, 0⟩

/-- An entry with one more sharer: the bit of its cluster, or the EXT bit of the agent outside the cores (R90). -/
def withSharer (e : DirEnt) (a : Nat) : DirEnt :=
  { e with shr := if a < 160 then e.shr ||| BitVec.ofNat 40 (2 ^ coreCluster a) else e.shr
           ext := if a < 160 then e.ext else e.ext ||| BitVec.ofNat 4 (2 ^ (if a = 160 then 3 else if a = 161 then 2 else if a = 178 then 0 else 1)) }

/-- One transaction is open, for request `m` of kind `k`, awaiting answers from `await` and, with `ack`, the requester's. -/
def Opened (t : State) (m : Msg) (k : HKind) (kind : TxnKind) (await : List Nat) (ack : Bool) : Prop :=
  ∃ x, t.coh.txns = [x] ∧ x.pa = m.pa ∧ x.req = ⟨k, m, [], false⟩ ∧ x.kind = kind ∧ x.await = await ∧ x.needAck = ack ∧ x.lab = .uncl

/-- Data to the requester of `m` from the home, or the home's Ack with GRANT. -/
def DataTo (s t : State) (m : Msg) (g : Grant) : Prop := Sends t .data fun d => d.dst = m.req ∧ d.tag = m.tag ∧ d.pa = m.pa ∧ d.grant = g ∧ d.data = memRead s m.pa m.gsz
def GrantTo (t : State) (m : Msg) (g : Grant) : Prop := Sends t .ackWithGrant fun d => d.dst = m.req ∧ d.tag = m.tag ∧ d.pa = m.pa ∧ d.grant = g

/-- A snoop about the grain of `m` to an agent. -/
def SnoopTo (t : State) (f : Msg → Instr) (m : Msg) (a : Nat) : Prop := Sends t f fun d => d.dst = a ∧ d.pa = m.pa ∧ d.gsz = m.gsz ∧ d.req = m.req ∧ d.tag = m.tag

/-- The answer of the snooped agent `m.dst`. -/
def Acks (t : State) (m : Msg) (dirty wb : Bool) : Prop := Sends t .ack fun a => a.frm = m.dst ∧ a.dst = 512 ∧ a.pa = m.pa ∧ a.gsz = m.gsz ∧ a.dirty = dirty ∧ a.wb = wb ∧ a.pend = 0
def Cfls (t : State) (m : Msg) (dirty : Bool) (pend : Nat) : Prop := Sends t .cfl fun a => a.frm = m.dst ∧ a.dst = 512 ∧ a.pa = m.pa ∧ a.gsz = m.gsz ∧ a.dirty = dirty ∧ a.pend = pend
def Gives' (t : State) (m : Msg) (g : Grant) (data : List Byte) : Prop := Sends t .data fun d => d.frm = m.dst ∧ d.dst = m.req ∧ d.tag = m.tag ∧ d.grant = g ∧ d.data = data

/-- Agent `a` holds the copy `c` of grain `pa`; a snoop of it gets there, it is no queue engine, and no access waits in the machine. -/
def HasCopy (s : State) (a pa gsz : Nat) (c : Copy) : Prop := copyOf s a pa gsz = some c ∧ c.agent = a ∧ c.pa = pa ∧ c.gsz = gsz ∧ 0 < gsz ∧ a ≠ 178 ∧ Gets s a ∧ s.eng.accs = []

/-- What agent `a` holds of grain `pa` after an event. -/
def Now' (t : State) (a pa gsz : Nat) (c : Option Copy) : Prop := copyOf t a pa gsz = c

/-- Old bytes with the new ones where the mask is set. -/
def merged (old new : List Byte) (mask : List Bool) : List Byte := (old.zip (new.zip mask)).map fun (o, n, b) => if b then n else o

/-- The dirty answer to a BInv: the WbD of a copy with the number and tag of the request for which the BInv was sent (R95). -/
def DirtyAnswer (t : State) (m : Msg) (c : Copy) : Prop := Sends t .wbd fun d => d.frm = m.dst ∧ d.pa = m.pa ∧ d.data = c.data ∧ d.keep = false ∧ d.req = m.req ∧ d.tag = m.tag

/-- The result word of a label command goes back. -/
def LabelAnswer (t : State) (m : Msg) (res lbyte hist nchg : Nat) : Prop := Sends t .labelCommandResult fun d => d.dst = m.req ∧ d.tag = m.tag ∧
  bits d.res.toNat 7 0 = res ∧ bits d.res.toNat 15 8 = lbyte ∧ bits d.res.toNat 27 16 = hist ∧ bits d.res.toNat 40 32 = nchg

end Sys2Proof.Stmt

/-- R90, R98 to R100 and R102: the home serves the requests for an unlabelled grain of HBM by the rows of its table: data and ownership from I and S, FwdS and FwdX to an owner, Inv to the sharers first, an Upg without a copy as an RdX, write-backs at once, uncached accesses and reduction elements at
once where no agent holds the grain, and waits its turn behind an open transaction. An answer moves the transaction on; it closes when the last answer and the requester's Ack are in, and the entry takes the state that the row gives. The model's choices (log entries): that uncached accesses ask grain by grain and recall by BInv (17), when the bytes of an update reach memory (30), how a WbD that answers BInv is told from an eviction (83), a write-back under a transaction that has not asked its owner (84), and what counts as a write (86). -/
def Obligations.HomeServesRequests : Prop := ∀ (s : State) (m : Msg), HomeFree s → InHbm m →
  (s.coh.dir = [] →
    (Gives (.rds m) s fun t => OnlyBooks s t ∧ DataTo s t m .s ∧ DirIs t (withSharer ⟨m.pa, m.gsz, .s, 0, 0, 0, m.vf, 0⟩ m.req) ∧ Opened t m .rds .grant [] true) ∧
    (Gives (.rdx m) s fun t => OnlyBooks s t ∧ DataTo s t m .e ∧ DirIs t (ownEntry m.pa m.gsz m.req m.vf) ∧ Opened t m .rdx .grant [] true) ∧
    (Gives (.upg m) s fun t => OnlyBooks s t ∧ DataTo s t m .e ∧ DirIs t (ownEntry m.pa m.gsz m.req m.vf) ∧ Opened t m .upg .grant [] true) ∧
    (Gives (.updateWrite m) s fun t => OnlyBooks s t ∧ DataTo s t m .e ∧ DirIs t (ownEntry m.pa m.gsz m.req m.vf)) ∧
    (Gives (.uncachedRead m) s fun t => OnlyBooks s t ∧ DataTo s t m .s ∧ t.coh.dir = [] ∧ t.coh.txns = []) ∧
    (m.data.length = m.gsz → m.bmask.length = m.gsz → Gives (.uncachedWrite m) s fun t => OnlyHome s t ∧ (Sends t .data fun d => d.dst = m.req ∧ d.tag = m.tag ∧ d.data = []) ∧ t.coh.dir = [] ∧
      ∀ a, FMap.get 0 t.mem a = if m.pa ≤ a ∧ a < m.pa + m.gsz ∧ m.bmask.getD (a - m.pa) false = true then m.data.getD (a - m.pa) 0 else FMap.get 0 s.mem a) ∧
    (m.off + m.ty.width / 8 ≤ m.gsz → Gives (.bdReductionElement m) s fun t => OnlyHome s t ∧ (Sends t .data fun d => d.dst = m.req ∧ d.tag = m.tag ∧ d.data = []) ∧
      let w := m.ty.width / 8
      let old := memNum s (m.pa + m.off) w
      Holds s t (m.pa + m.off) (toBytes w (atomOp m.ty m.aop old (ofBytes m.data)))) ∧
    ((Gives (.evc m) s fun t => OnlyBooks s t ∧ t.coh.dir = [] ∧ Sends t .wback fun d => d.dst = m.frm ∧ d.pa = m.pa)) ∧
    (m.keep = false → m.data.length = m.gsz → (Gives (.wbd m) s fun t => OnlyHome s t ∧ Holds s t m.pa m.data ∧ Sends t .wback fun d => d.dst = m.frm ∧ d.pa = m.pa)) ∧
    (m.keep = true → m.data.length = m.gsz → m.bmask = List.replicate m.gsz true → (Gives (.wbd m) s fun t => OnlyHome s t ∧ Holds s t m.pa m.data))) ∧
  (∀ e, s.coh.dir = [e] → e.pa = m.pa → e.gsz = m.gsz → e.hst = .s → sharersOf s e ≠ [] → Reached s e →
    let others := (sharersOf s e).filter (· != m.req)
    (Gives (.rds m) s fun t => OnlyBooks s t ∧ DataTo s t m .s ∧ DirIs t (withSharer e m.req)) ∧
    (others ≠ [] → (Gives (.rdx m) s fun t => OnlyBooks s t ∧ t.coh.dir = [e] ∧ (∀ a ∈ others, SnoopTo t .inv m a) ∧ Opened t m .rdx .inv others true) ∧
      (Gives (.upg m) s fun t => OnlyBooks s t ∧ t.coh.dir = [e] ∧ (∀ a ∈ others, SnoopTo t .inv m a) ∧ ∃ l, Opened t m .upg .upgAck l true ∧ ∀ a, a ∈ l ↔ a ∈ others)) ∧
    (others = [] → (Gives (.upg m) s fun t => OnlyBooks s t ∧ GrantTo t m .e ∧ DirIs t (ownEntry m.pa m.gsz m.req e.vf))) ∧
    (others ≠ [] → Gives (.uncachedWrite m) s fun t => OnlyBooks s t ∧ (∀ a ∈ others, Sends t .binv fun d => d.dst = a ∧ d.pa = m.pa ∧ d.region = false) ∧ ∃ l, Opened t m .uwrite .uncachedW l false ∧ ∀ a, a ∈ l ↔ a ∈ others) ∧
    (others = [] → Gives (.uncachedWrite m) s fun t => OnlyHome s t ∧ t.coh.dir = [] ∧ t.coh.txns = [] ∧ Sends t .data fun d => d.dst = m.req ∧ d.tag = m.tag ∧ d.data = [])) ∧
  (∀ e, s.coh.dir = [e] → e.pa = m.pa → e.gsz = m.gsz → e.hst = .x → e.shr = 0 → e.ext = 0 → Reached s e →
    (e.owner ≠ m.req → (Gives (.rds m) s fun t => OnlyBooks s t ∧ t.coh.dir = [e] ∧ SnoopTo t .fwds m e.owner ∧ Opened t m .rds .fwdS [e.owner] true) ∧
      (Gives (.rdx m) s fun t => OnlyBooks s t ∧ t.coh.dir = [e] ∧ SnoopTo t .fwdx m e.owner ∧ Opened t m .rdx .fwdX [e.owner] true) ∧
      (Gives (.upg m) s fun t => OnlyBooks s t ∧ t.coh.dir = [e] ∧ SnoopTo t .fwdx m e.owner ∧ Opened t m .upg .fwdX [e.owner] true) ∧
      (Gives (.uncachedRead m) s fun t => OnlyBooks s t ∧ t.coh.dir = [e] ∧ SnoopTo t .fwds m e.owner ∧ Opened t m .uread .uncachedR [e.owner] true)) ∧
    (m.frm = e.owner → (Gives (.evc m) s fun t => OnlyBooks s t ∧ t.coh.dir = [] ∧ Sends t .wback fun d => d.dst = m.frm ∧ d.pa = m.pa) ∧
      (m.keep = false → m.data.length = m.gsz → (Gives (.wbd m) s fun t => OnlyHome s t ∧ t.coh.dir = [] ∧ Holds s t m.pa m.data ∧ Sends t .wback fun d => d.dst = m.frm ∧ d.pa = m.pa))) ∧
    (m.frm ≠ e.owner → (Gives (.evc m) s fun t => OnlyBooks s t ∧ t.coh.dir = [e] ∧ Sends t .wback fun d => d.dst = m.frm ∧ d.pa = m.pa) ∧
      (m.keep = false → (Gives (.wbd m) s fun t => OnlyBooks s t ∧ t.coh.dir = [e] ∧ Sends t .wback fun d => d.dst = m.frm ∧ d.pa = m.pa)))) ∧
  (∀ e, s.coh.dir = [e] → e.pa = m.pa → e.gsz = m.gsz → e.hst = .os → sharersOf s e = [] → Reached s e → m.req = e.owner → m.data.length = m.gsz → m.bmask.length = m.gsz →
    (Gives (.upg m) s fun t => OnlyBooks s t ∧ GrantTo t m .e ∧ DirIs t (ownEntry m.pa m.gsz m.req e.vf)) ∧
    (Gives (.updateWrite m) s fun t => OnlyHome s t ∧ DueIn t (.updateCommit m.pa) ∧ DirIs t e ∧
      ∀ a, FMap.get 0 t.mem a = if m.pa ≤ a ∧ a < m.pa + m.gsz ∧ m.bmask.getD (a - m.pa) false = true then m.data.getD (a - m.pa) 0 else FMap.get 0 s.mem a)) ∧
  (∀ e x (u : State), s.coh.dir = [e] → e.pa = m.pa → e.gsz = m.gsz → x.pa = m.pa → x.gsz = m.gsz → x.req.msg.pa = m.pa → x.req.msg.gsz = m.gsz → x.lab = .uncl → x.wbAwait = [] → x.wbSeen = [] → x.counts = [] → x.keepAwait = false →
    u = { s with coh := { s.coh with txns := [x] } } → m.wb = false →
    (∀ k ∈ [Instr.rds m, .rdx m, .upg m, .uncachedRead m, .uncachedWrite m, .bdReductionElement m, .updateWrite m], Gives k u fun t => OnlyBooks u t ∧ t.coh.txns = [x] ∧ t.coh.dir = [e] ∧ t.agenda = u.agenda ∧ ∃ q, t.coh.homeQ = [q] ∧ q.msg = m) ∧
    (x.kind = .grant → x.await = [] → x.needAck = true → m.tag = x.req.msg.tag → m.pend = 0 → Gives (.ack m) u fun t => OnlyBooks u t ∧ t.coh.txns = [] ∧ t.coh.dir = [e]) ∧
    (x.kind = .inv → x.req.kind ≠ .hostSnoop → x.await = [m.frm] → m.tag = x.req.msg.tag → m.pend = 0 → Gives (.ack m) u fun t => OnlyBooks u t ∧ DataTo s t x.req.msg .e ∧ DirIs t (ownEntry m.pa m.gsz x.req.msg.req e.vf)) ∧
    (x.kind = .inv → x.req.kind ≠ .hostSnoop → x.await = [m.frm] → m.tag = x.req.msg.tag → m.pend ≠ 0 → Gives (.cfl m) u fun t => OnlyBooks u t ∧ (m.frm, m.pend) ∈ t.coh.stale ∧ DataTo s t x.req.msg .e) ∧
    (x.kind = .fwdS → x.req.kind ≠ .hostSnoop → x.await = [m.frm] → m.tag = x.req.msg.tag → x.needAck = false → m.pend = 0 → e.hst = .x → e.owner = m.frm → Gives (.ack m) u fun t => OnlyBooks u t ∧ t.coh.txns = [] ∧
      (m.dirty = true → x.dirty = false → DirIs t { withSharer e x.req.msg.req with hst := .os }) ∧
      (m.dirty = false → x.dirty = false → DirIs t (withSharer (withSharer { e with hst := .s, owner := 0 } x.req.msg.req) e.owner))) ∧
    (x.kind = .fwdX → x.req.kind ≠ .hostSnoop → x.await = [m.frm] → m.tag = x.req.msg.tag → x.needAck = false → m.pend = 0 → Gives (.ack m) u fun t => OnlyBooks u t ∧ t.coh.txns = [] ∧ DirIs t (ownEntry m.pa m.gsz x.req.msg.req e.vf)) ∧
    (x.kind = .update → x.await = [] → (∀ c ∈ s.coh.l1, c.agent = x.req.msg.req → c.pa = m.pa ∧ c.gsz = m.gsz) → Gives (.updateCommit m.pa) u fun t => t = { u with agenda := t.agenda, coh := t.coh, eng := t.eng } ∧ t.coh.txns = [] ∧
      (∀ p, s.coh.pends.find? (fun p => p.agent == x.req.msg.req && p.tag == x.req.msg.tag && p.kind == .upd) = some p → ∀ a ∈ s.eng.accs, a.id = p.op → ∃ b ∈ t.eng.accs, b.id = a.id ∧ ∀ l ∈ b.lanes, l.pa / l.gsz * l.gsz = p.pa → l.st ≠ .waiting) ∧
      (Sends t .wback fun d => d.dst = x.req.msg.req ∧ d.tag = x.req.msg.tag) ∧ ∀ c ∈ s.coh.l1, (c.agent = x.req.msg.req → { c with data := merged c.data x.req.msg.data x.req.msg.bmask } ∈ t.coh.l1) ∧ (c.agent ≠ x.req.msg.req → c ∈ t.coh.l1))) ∧
  (∀ e line, s.coh.dir = [e] → hostBase ≤ line → e.pa = line / 128 * 128 → e.gsz = 128 → e.hst = .x → e.shr = 0 → e.ext = 0 →
    (Gives (.hostSnoop line true) s fun t => t.coh.dir = [e] ∧ Sends t .fwdx fun d => d.dst = e.owner ∧ d.pa = e.pa) ∧ (Gives (.hostSnoop line false) s fun t => t.coh.dir = [e] ∧ Sends t .fwds fun d => d.dst = e.owner ∧ d.pa = e.pa)) ∧
  (∀ line w, s.coh.dir = [] → hostBase ≤ line → (Gives (.hostSnoop line w) s fun t => t.agenda = s.agenda ∧ t.mem = s.mem ∧ t.coh.txns = [] ∧ t.coh.dir = []))

/-- R101, R103, R105, R107, R124 and R125: an L1 answers snoops, installs what it is granted and gives up its copies by the rows of its table, from the write-back buffer where the grain lies there; an eviction is silent from S and T and sends EvC or WbD from E, M and O; a delayed request goes when
its delay ends, and a count of bounces ends with 1,024 cycles of exclusive hold; a Nak ends the request, and a write-back or update write is done with its WbAck. A host port asks for the grains of its access as an agent does. That a
BInv makes a request pending on its grain stale is the model's choice (log entry 105). The model's choices (log entries): that a BInv makes a request pending on its grain stale (105), the number and tag in the WbD that answers BInv (83), and the answers for a peer that is cut off (120). -/
def Obligations.CachesAnswer : Prop := ∀ (s : State) (m : Msg),
  (∀ c, HasCopy s m.dst m.pa m.gsz c → pendOf s m.dst m.pa m.gsz = none → wbufOf s m.dst m.pa m.gsz = none →
    (c.st = .e → (Gives (.fwds m) s fun t => Gives' t m .s c.data ∧ Acks t m false false ∧ Now' t m.dst m.pa m.gsz (some { c with st := .s, mode := m.mode }) ∧ t.mem = s.mem) ∧
      (Gives (.fwdx m) s fun t => Gives' t m .e c.data ∧ Acks t m false false ∧ Now' t m.dst m.pa m.gsz none)) ∧
    (c.st = .m ∨ c.st = .o → (Gives (.fwds m) s fun t => Gives' t m .s c.data ∧ Acks t m true false ∧ Now' t m.dst m.pa m.gsz (some { c with st := .o, mode := m.mode }) ∧
        (m.mode = .pc → Sends t .wbd fun d => d.frm = m.dst ∧ d.pa = m.pa ∧ d.keep = true ∧ d.data = c.data ∧ d.bmask = List.replicate m.gsz true)) ∧
      (Gives (.fwdx m) s fun t => Gives' t m .m c.data ∧ Acks t m true false ∧ Now' t m.dst m.pa m.gsz none)) ∧
    (c.st = .s ∨ c.st = .o → Gives (.inv m) s fun t => Acks t m (decide (c.st = .o)) false ∧ Now' t m.dst m.pa m.gsz none) ∧
    (m.region = false → (c.st = .m ∨ c.st = .o → Gives (.binv m) s fun t => Now' t m.dst m.pa m.gsz none ∧ DirtyAnswer t m c) ∧
      (c.st = .e ∨ c.st = .s ∨ c.st = .t → Gives (.binv m) s fun t => Acks t m false false ∧ Now' t m.dst m.pa m.gsz none)) ∧
    (Gives (.upd m) s fun t => Acks t m true false ∧ Now' t m.dst m.pa m.gsz (some { c with staged := c.staged ++ [(m.tag, m.data, m.bmask)] })) ∧
    (∀ d b r, c.staged = (m.tag, d, b) :: r → Gives (.commitAck m) s fun t => Now' t m.dst m.pa m.gsz (some { c with data := merged c.data d b, staged := r })) ∧
    (s.coh.l1.find? (fun x => x.agent == m.dst && x.pa == m.pa) = some c → Gives (.l1Evict m.dst m.pa) s fun t => Now' t m.dst m.pa m.gsz none ∧
      (c.st = .s ∨ c.st = .t → t = { s with coh := { s.coh with l1 := t.coh.l1 } }) ∧ (c.st = .e → (Sends t .evc fun d => d.frm = m.dst ∧ d.pa = m.pa) ∧ ∃ w ∈ t.coh.wbufs, w.agent = m.dst ∧ w.pa = m.pa ∧ w.dirty = false ∧ w.data = c.data) ∧
      (c.st = .m ∨ c.st = .o → (Sends t .wbd fun d => d.frm = m.dst ∧ d.pa = m.pa ∧ d.data = c.data ∧ d.keep = false) ∧ ∃ w ∈ t.coh.wbufs, w.agent = m.dst ∧ w.pa = m.pa ∧ w.dirty = true ∧ w.data = c.data)) ∧
    (s.coh.l1.find? (fun x => x.agent == m.dst && x.pa == m.pa) = some c → c.st = .e ∨ c.st = .m → c.since + 1024000 ≤ s.mcyc → Gives (.bounceReset m.dst m.pa) s fun t => bounceOf t m.dst m.pa = 0 ∧ t.coh.l1 = s.coh.l1)) ∧
  (∀ c p, HasCopy s m.dst m.pa m.gsz c → pendOf s m.dst m.pa m.gsz = some p → p.tag ≠ 0 →
    (Gives (.inv m) s fun t => Cfls t m c.st.dirty p.tag ∧ Now' t m.dst m.pa m.gsz none ∧ p ∈ t.coh.pends) ∧
    (c.st = .o → Gives (.fwds m) s fun t => Gives' t m .s c.data ∧ Cfls t m true 0 ∧ Now' t m.dst m.pa m.gsz (some { c with mode := m.mode })) ∧
    (c.st = .e ∨ c.st = .m ∨ c.st = .o → Gives (.fwdx m) s fun t => Gives' t m (if c.st = .e then .e else .m) c.data ∧ Cfls t m c.st.dirty p.tag ∧ Now' t m.dst m.pa m.gsz none) ∧
    (m.region = false → Gives (.binv m) s fun t => (m.dst, p.tag) ∈ t.coh.stale ∧ Now' t m.dst m.pa m.gsz none ∧ p ∈ t.coh.pends ∧
      (if c.st.dirty then DirtyAnswer t m c else Acks t m false false)) ∧
    (s.coh.l1.find? (fun x => x.agent == m.dst && x.pa == m.pa) = some c → exec (.l1Evict m.dst m.pa) s = .next s)) ∧
  (copyOf s m.dst m.pa m.gsz = none → pendOf s m.dst m.pa m.gsz = none → Gets s m.dst → s.eng.accs = [] →
    (∀ w, wbufOf s m.dst m.pa m.gsz = some w → (Gives (.fwds m) s fun t => Gives' t m .s w.data ∧ Acks t m w.dirty true) ∧ (Gives (.fwdx m) s fun t => Gives' t m (if w.dirty then .m else .e) w.data ∧ Acks t m w.dirty true) ∧
      (Gives (.inv m) s fun t => Acks t m false true) ∧ (m.region = false → Gives (.binv m) s fun t => Acks t m false true)) ∧
    (wbufOf s m.dst m.pa m.gsz = none → ∀ k ∈ [Instr.fwds m, .fwdx m, .inv m, .upd m], Gives k s fun t => Acks t m false false ∧ t.coh = s.coh ∧ t.mem = s.mem ∧ t.blocks = s.blocks)) ∧
  (∀ k ∈ [Instr.fwds m, .fwdx m, .inv m, .upd m, .binv m], ¬ Gets s m.dst →
    (txnOn s m.pa m.gsz = none → Gives k s fun t => Acks t m false false ∧ t.coh = s.coh ∧ t.mem = s.mem) ∧
    (∀ x, txnOn s m.pa m.gsz = some x → x.kind = .recall ∨ x.kind = .update ∨ x.req.kind.isDevice = true ∨ x.req.kind = .hostSnoop → Gives k s fun t => Acks t m false false ∧ t.coh = s.coh ∧ t.mem = s.mem) ∧
    (∀ x, txnOn s m.pa m.gsz = some x → x.kind ≠ .recall → x.kind ≠ .update → x.req.kind.isDevice = false → x.req.kind ≠ .hostSnoop → s.coh.homeQ = [] → s.coh.regions = [] → Gives k s fun t => (Sends t .nak fun d => d.dst = x.req.msg.req ∧ d.tag = x.req.msg.tag ∧ d.reason = 1) ∧
      (∀ y ∈ t.coh.txns, y.pa ≠ x.pa) ∧ t.coh.dir = s.coh.dir ∧ t.coh.l1 = s.coh.l1 ∧ t.mem = s.mem)) ∧
  (s.eng.accs = [] → m.region = true → Gets s m.dst → Gives (.binv m) s fun t => Acks t m false false ∧ (∀ c ∈ t.coh.l1, c ∈ s.coh.l1 ∧ ¬ (c.agent = m.dst ∧ c.st = .t ∧ c.pa / 4096 = m.pa / 4096)) ∧
    ∀ c ∈ s.coh.l1, ¬ (c.agent = m.dst ∧ c.st = .t ∧ c.pa / 4096 = m.pa / 4096) → c ∈ t.coh.l1) ∧
  (∀ p, s.eng.accs = [] → s.coh.pends.find? (fun q => q.agent == m.dst && q.tag == m.tag) = some p → m.dst < 160 → p.kind ≠ .upd → 0 < m.gsz →
    let done := fun t : State => (∀ q ∈ t.coh.pends, ¬ (q.agent = m.dst ∧ q.tag = m.tag)) ∧ Sends t .ack fun a => a.frm = m.dst ∧ a.dst = 512 ∧ a.tag = m.tag ∧ a.pa = m.pa
    (Gives (.data m) s fun t => done t ∧ t.mem = s.mem ∧ Now' t m.dst m.pa m.gsz (some ⟨m.dst, m.pa, m.gsz, p.ctx, p.vf, (match m.grant with
      | .s => .s
      | .e => .e
      | .m => .m
      | .t => .t), m.mode, m.data, s.mcyc, p.heat, []⟩)) ∧
    (∀ c, HasCopy s m.dst m.pa m.gsz c → m.grant = .e ∨ m.grant = .m → Gives (.ackWithGrant m) s fun t => done t ∧ Now' t m.dst m.pa m.gsz (some { c with st := if m.grant = .e then .e else .m, since := s.mcyc, data := c.staged.foldl (fun d u => merged d u.2.1 u.2.2) c.data, staged := [] })) ∧
    (Gives (.nak m) s fun t => (∀ q ∈ t.coh.pends, ¬ (q.agent = m.dst ∧ q.tag = m.tag)) ∧ t.coh.l1 = s.coh.l1 ∧ t.mem = s.mem) ∧
    (∀ grain, s.coh.pends.find? (fun q => q.agent == m.dst && q.pa == grain && q.delayed) = some p → Gives (.bounceDelayExpiry m.dst grain) s fun t => (∃ k, (k = Instr.rds (reqMsg p) ∨ k = .rdx (reqMsg p) ∨ k = .upg (reqMsg p)) ∧ DueIn t k) ∧
      ∀ q ∈ t.coh.pends, q.agent = m.dst → q.tag = m.tag → q.delayed = false)) ∧
  (s.eng.accs = [] → (∀ q ∈ s.coh.pends, ¬ (q.agent = m.dst ∧ q.tag = m.tag)) → Gives (.wback m) s fun t => (∀ w ∈ t.coh.wbufs, w ∈ s.coh.wbufs ∧ ¬ (w.agent = m.dst ∧ w.pa = m.pa)) ∧ (∀ w ∈ s.coh.wbufs, ¬ (w.agent = m.dst ∧ w.pa = m.pa) → w ∈ t.coh.wbufs) ∧ t.mem = s.mem) ∧
  (s.eng.accs = [] → s.coh.dir = [] → s.coh.pends = [] → s.coh.wbufs = [] → s.coh.l1 = [] → s.coh.bounces = [] → m.req = 160 ∨ m.req = 161 → uncachedBy s m.req (m.pa / 128 * 128) 128 = false →
    (m.write = false → 1 ≤ m.off → m.pa % 128 + m.off ≤ 128 → Gives (.hostAccess m) s fun t => Sends t .rds fun d => d.frm = m.req ∧ d.pa = m.pa / 128 * 128 ∧ d.gsz = 128) ∧
    (m.write = true → m.data ≠ [] → m.pa % 128 + m.data.length ≤ 128 → Gives (.hostAccess m) s fun t => Sends t .rdx fun d => d.frm = m.req ∧ d.pa = m.pa / 128 * 128 ∧ d.gsz = 128))

/-- R112 to R121, R127, R128, R131 and R132: label commands answer NOLBL where labels are off; on a region that no other context has locked LRD gives the label byte, LHIST the history, LLOCK and LUNL set and clear LOCK in the byte and the table, and LSET starts SWITCHING; a command from another context is answered LOCKED and changes nothing. The window's
64th transaction closes it by the verdict's rows; SWITCHING ends with the new label in the entry and the byte; an unpinned entry may go, with its byte in the table. -/
def Sys2Proof.Stmt.RegionLabels : Prop := ∀ (s : State) (m : Msg), InHbm m → s.coh.l1 = [] → s.coh.txns = [] → s.coh.homeQ = [] → s.coh.dir = [] → s.pkg.haltDies = 0 → s.pkg.lostDies = 0 → s.coh.wbufs = [] →
  let cmds := [Instr.lrd m, .lset m, .llock m, .lunl m, .lhist m]
  let page := m.pa / 4096
  let byteAt := bits s.mg.ltctl.toNat 51 12 * 4096 + page
  (bit s.mg.ltctl.toNat 0 = false → s.coh.regions = [] → ∀ k ∈ cmds, Gives k s fun t => LabelAnswer t m 3 0 0 0 ∧ t = { s with agenda := t.agenda, coh := t.coh } ∧ t.coh.regions = []) ∧
  (bit s.mg.ltctl.toNat 0 = true → ∀ r, s.coh.regions = [r] → r.page = page → r.sw = false → r.label ≤ 5 →
    let byte := fun (lab : Nat) (asrt lock : Bool) => lab + 8 * asrt.toNat + 16 * lock.toNat
    let now := byte r.label r.asrt r.lock
    let free := r.lock = false ∨ m.ctx = r.actx
    (Gives (.lrd m) s fun t => LabelAnswer t m 0 now 0 0 ∧ t.coh.regions = [r]) ∧ (r.nchg < 512 → Gives (.lhist m) s fun t => LabelAnswer t m 0 now r.hist.toNat r.nchg ∧ t.coh.regions = [r]) ∧
    (¬ free → ∀ k ∈ [Instr.lset m, .llock m, .lunl m], Gives k s fun t => LabelAnswer t m 1 now 0 0 ∧ t.coh.regions = [r] ∧ t.mem = s.mem) ∧
    (free → (Gives (.llock m) s fun t => LabelAnswer t m 0 (byte r.label r.asrt true) 0 0 ∧ t.coh.regions = [{ r with lock := true, aag := m.req, actx := m.ctx, avf := m.vf }] ∧ Holds s t byteAt [BitVec.ofNat 8 (byte r.label r.asrt true)]) ∧
      (Gives (.lunl m) s fun t => LabelAnswer t m 0 (byte r.label r.asrt false) 0 0 ∧ t.coh.regions = [{ r with lock := false }] ∧ Holds s t byteAt [BitVec.ofNat 8 (byte r.label r.asrt false)]) ∧
      (r.label = 2 → Gives (.lset m) s fun t => t.mem = s.mem ∧ (∀ a < 160, Sends t .binv fun d => d.dst = a ∧ d.pa = page * 4096 ∧ d.region = true) ∧
        ∃ r', t.coh.regions = [r'] ∧ r'.sw = true ∧ r'.tgt = m.lval ∧ r'.label = 2 ∧ ∀ a < 160, (a, 2 ^ 60) ∈ r'.swAwait) ∧
      (r.label ≠ 2 → Gives (.lset m) s fun t => t.mem = s.mem ∧ DueIn t (.switchingComplete page) ∧ ∃ r', t.coh.regions = [r'] ∧ r' = { r with sw := true, tgt := m.lval, swAsrt := decide (m.lval ≠ 0), swLock := r.lock, swCmd := some m, swOwner := (m.req, m.ctx, m.vf), swAwait := [] })) ∧
    (r.closing = false → exec (.windowClose page) s = .next s) ∧
    (r.closing = true → r.label ≠ 2 →
      let v := if r.oth = false then 1 else if r.nwr = 0 then 2 else if r.hnd = 0 ∧ r.wil = 0 ∧ 4 ≤ r.rarw then 4 else if 4 ≤ r.wil then 5 else if 2 ≤ r.hnd ∧ r.wil ≤ 1 then 3 else 0
      let cleared := fun r' : Region => r'.txn = 0 ∧ r'.closing = false ∧ r'.oth = false ∧ r'.lrv = false ∧ r'.lwv = false ∧ r'.wsr = false ∧ r'.nwr = 0 ∧ r'.rch = 0 ∧ r'.rarw = 0 ∧ r'.hnd = 0 ∧ r'.wil = 0 ∧ r'.label = r.label ∧ r'.page = page ∧ r'.lock = r.lock ∧ r'.asrt = r.asrt
      Gives (.windowClose page) s fun t => t.mem = s.mem ∧ ∃ r', t.coh.regions = [r'] ∧ cleared r' ∧
        (r.asrt = true ∨ r.lock = true ∨ v = r.label → r'.cv = false ∧ r'.sw = false) ∧
        (r.asrt = false → r.lock = false → v ≠ r.label → ¬ (r.cv = true ∧ r.cand = v) → r'.cand = v ∧ r'.cv = true ∧ r'.sw = false) ∧
        (r.asrt = false → r.lock = false → v ≠ r.label → r.cv = true → r.cand = v → r'.sw = true ∧ r'.tgt = v ∧ r'.swAsrt = false ∧ DueIn t (.switchingComplete page))) ∧
    (r.asrt = true ∨ r.lock = true → exec (.regionEntryEvict page) s = .next s) ∧
    (r.asrt = false → r.lock = false → Gives (.regionEntryEvict page) s fun t => t.coh.regions = [] ∧ Holds s t byteAt [BitVec.ofNat 8 now])) ∧
  (∀ r, s.coh.regions = [r] → r.page = page → r.sw = true → r.swAwait ≠ [] → exec (.switchingComplete page) s = .next s) ∧
  (∀ r, s.coh.regions = [r] → r.page = page → r.sw = true → r.swAwait = [] → r.tgt ≤ 5 → Gives (.switchingComplete page) s fun t => (∃ r', t.coh.regions = [r'] ∧ r'.label = r.tgt ∧ r'.asrt = r.swAsrt ∧ r'.lock = r.swLock ∧ r'.sw = false ∧ r'.cv = false ∧
      r'.txn = 0 ∧ r'.nchg = min 511 (r.nchg + 1) ∧ bits r'.hist.toNat 11 9 = r.label % 8 ∧ bits r'.hist.toNat 8 0 = bits r.hist.toNat 11 3 ∧ (r'.aag, r'.actx, r'.avf) = r.swOwner) ∧
    Holds s t byteAt [BitVec.ofNat 8 (r.tgt + 8 * r.swAsrt.toNat + 16 * r.swLock.toNat)] ∧ ∀ c, r.swCmd = some c → Sends t .labelCommandResult fun d => d.dst = c.req ∧ d.tag = c.tag ∧ bits d.res.toNat 7 0 = 0)

/-- R82, R83 and R410: a piece of a base-die command moves its words at the home, one reduction element is sent to its home and awaited, a halted die holds its pieces, and the command that has no piece left is done: its counter falls. -/
def Sys2Proof.Stmt.BaseDiePieces : Prop := ∀ (s : State) (c : BdCmd) (n : Nat) (mv : BdMove), HomeFree s → s.coh.l1 = [] → s.coh.wbufs = [] → s.coh.dir = [] → s.coh.pends = [] → s.eng.bds = [c] → c.tags = [] → c.stopped = none →
  mv.src + mv.gsz.1 ≤ 2 ^ 48 → mv.dst + mv.gsz.2 ≤ 2 ^ 48 → mv.src % mv.gsz.1 + 8 ≤ mv.gsz.1 → mv.dst % mv.gsz.2 + 8 ≤ mv.gsz.2 → 0 < mv.part.2 →
  let part := fun bs : List Byte => slice 0 bs mv.part.1 mv.part.2
  (c.pieces = [(n, [mv])] → mv.lost = false → mv.part.1 + mv.part.2 ≤ 4 → c.kind = .gather ∨ c.kind = .scat → Gives (.bdPieceApply c.op n) s fun t => Holds s t (mv.dst + mv.part.1) (part (memRead s mv.src 4)) ∧ DueIn t (.bdCommandComplete c.op) ∧ bdOf t c.op = some { c with pieces := [] } ∧ t.blocks = s.blocks) ∧
  (∀ dst src, c.pieces = [(n, [mv])] → mv.part.1 + mv.part.2 ≤ dst.width / 8 → c.kind = .conv dst src → Gives (.bdPieceApply c.op n) s fun t => DueIn t (.bdCommandComplete c.op) ∧
    if mv.lost then ∃ bs : List Byte, bs.length = mv.part.2 ∧ Holds s t (mv.dst + mv.part.1) bs
    else Holds s t (mv.dst + mv.part.1) (part (toBytes (dst.width / 8) (convert src dst .rne 0 (ofBytes (memRead s mv.src (src.width / 8))))))) ∧
  (∀ k mk, mv.lost = true → mk.lost = false → k ≠ n → c.pieces = [(n, [mv]), (k, [mk])] → Gives (.bdPieceApply c.op n) s fun t => t.mem = s.mem ∧ DueIn t (.bdPieceApply c.op n)) ∧
  (∀ ty op, c.pieces = [(n, [mv])] → c.kind = .red ty op → Gives (.bdPieceApply c.op n) s fun t => t.mem = s.mem ∧ Sends t .bdReductionElement fun d => d.pa = mv.dst / mv.gsz.2 * mv.gsz.2 ∧ d.gsz = mv.gsz.2 ∧ d.off = mv.dst % mv.gsz.2 ∧ d.ty = ty ∧ d.aop = op ∧ d.data = memRead s mv.src (ty.width / 8) ∧
    ∃ c', bdOf t c.op = some c' ∧ c'.tags = [(n, d.tag)] ∧ c'.pieces = c.pieces) ∧
  (∀ k, k ≠ n → c.pieces = [(n, [mv])] → exec (.bdPieceApply c.op k) s = .next s) ∧
  (c.todo = [] → c.pieces ≠ [] → exec (.bdCommandComplete c.op) s = .next s) ∧
  (∀ b x, c.todo = [] → c.pieces = [] → blkOf s c.g.blk = some b → grpIn b c.g.gid = some x → x.exited = false → x.flights = [⟨5, c.op, false⟩] → Gives (.bdCommandComplete c.op) s fun t => bdOf t c.op = none ∧
    ∃ y, grpOf t c.g = some y ∧ cnt y 5 = 0 ∧ y.v = x.v ∧ y.k = x.k)

/-! ## The machine: encoding, the step, memory and reset -/

/-- Decode and encode agree (R312 to R325): every well-formed instruction has a word, and the decoder reads that word, wherever
it lies whole in a fetch window and whatever follows it, as the instruction with every operand as it was; a pad word (R305) is read as itself. -/
def Obligations.EncodeDecode : Prop :=
  (∀ i f, i.wf = true → instrFields i = some f →
    encode i = some (formLen f.form, fieldsWord f) ∧ fieldsWord f < 2 ^ (8 * formLen f.form) ∧
    decodeWord (formLen f.form) (fieldsWord f) = .ok i ∧
    ∀ off rest, off + formLen f.form ≤ 32 → decodeAt off (encodeBytes i ++ rest) = .ok (i, formLen f.form)) ∧
  ∀ w off rest, (Instr.padWordSkip w).wf = true → decodeAt off (encodeBytes (.padWordSkip w) ++ rest) = .ok (.padWordSkip w, 4)

/-- Each word has one meaning and each instruction one word (R325: a reserved bit that is set makes a word illegal): what the decoder
accepts is well-formed and encodes to the word it was read from. -/
def Obligations.DecodeEncode : Prop :=
  ∀ form w i, w < 2 ^ (8 * formLen form) → w % 4 = formCode form → decodeWord (formLen form) w = .ok i →
    i.wf = true ∧ encode i = some (formLen form, w)

/-- Words that the spec writes out bit by bit, with the instructions they stand for (chapters 12 to 18). -/
def Obligations.WordsDecode : Prop :=
  decodeWord 12 0x000000010040000400802021 = .ok (.addImm ⟨0, .i32, 0, false, 0⟩ (.reg 4) (.reg 4) 1) ∧
  decodeWord 12 0x000000065400280401400341 = .ok (.fma ⟨5, .f32, 0, false, 0⟩ (.reg 10) (.reg 4) (.reg 5) (.reg 6)) ∧
  decodeWord 16 0x123456789ABCDEF000000000C8A0011A = .ok (.kli64 ⟨0, .b32, 0, false, 0⟩ 5 0x123456789ABCDEF0) ∧
  decodeWord 16 0x00000014000000060000000200000202 = .ok (.brd 2 false 6 20) ∧
  decodeWord 12 0x600000011000000200800169 = .ok (.atomc ⟨1, .b32, 0, false, 0⟩ (.reg 4) (.pair 2 0) (.reg 0) (.reg 1) 3) ∧
  decodeWord 12 0x000200000000C010C8800085 = .ok (.mma ⟨some 4, 64⟩ 16 24 0) ∧
  decodeWord 12 0x0000700000000004006000A1 = .ok (.sgen 3 (.reg 4) 14) ∧
  decodeWord 8 0x00800803010002B0 = .ok (.wlpop 0 false (.reg 8) 3 true) ∧
  decodeWord 8 0x00001641C8A001B4 = .ok (.lblset 5 1 2)

namespace Sys2Proof.Stmt

open Sys2Proof Sys2Proof.Machine

/-- The step turns to the live entry `e` of group `g` of block `b`. -/
structure Turn (s : State) (r : GRef) (b : Block) (g : Group) (e : Entry) : Prop where
  picked : pick s = .issue r
  blk : blkOf s r.blk = some b
  grp : grpIn b r.gid = some g
  entry : liveEntry g r.low = some e

/-- No trap that goes before the instruction at this boundary is due in the group (R164, R477): a held DEBUG waits for what the instruction itself
raises. -/
def NoneDue (s : State) (b : Block) (g : Group) (e : Entry) : Prop :=
  (∀ t, nextHeld g e = some t → t.code = .debug) ∨ g.handler ≠ none ∨ e.reissue ≠ none ∨ e.launching ≠ none ∨ chainOpen (tick s) b e = true ∨ g.ahead ≠ none

/-- The group's control state is on chip (R193). -/
def HasControl (b : Block) (g : Group) : Prop := b.absent.contains (.control g.gid) = false

/-- Nothing comes before the entry's instruction: the control state and the top entries are on chip (R193, R228), no trap is due (R477), and it is not
at its RPC (R225). -/
def AtWord (s : State) (r : GRef) (b : Block) (g : Group) (e : Entry) : Prop :=
  HasControl b g ∧ (g.ahead = none → min g.stack.length 3 ≤ g.onChip) ∧ NoneDue s b g e ∧ atJoin g r.low e = false

/-- What the translation of a fetch gives, and the state after it (R145); in run-ahead it changes no page table and no TLB (R154). -/
def Walks (s : State) (b : Block) (g : Group) (e : Entry) : Xlat × State :=
  if g.ahead.isSome then (probe (tick s) (.core b.core) b.ctx .fetch e.pc, setTdm b.ctx (walkBits (tick s) (.core b.core) b.ctx e.pc) (tick s))
  else translate (.core b.core) b.ctx .fetch e.pc (tick s)

/-- The fetch translates the pc and reads `bs`, the rest of its 32-byte window, leaving the state `t` (R309): from the instruction buffer (R311), or
by one coherent read, which touches its dies (R17) and enters the buffer. -/
def Reads (s : State) (b : Block) (g : Group) (e : Entry) (bs : List Byte) (t : State) : Prop :=
  canonical e.pc = true ∧ ∃ pa lf u w, Walks s b g e = (.ok pa lf, u) ∧ bs = w.drop (e.pc.toNat % 32) ∧
    (bufFind u b.core b.ctx b.id e.pc = some w ∧ t = u ∨
      bufFind u b.core b.ctx b.id e.pc = none ∧ cohLook u (pa / 32 * 32) 32 = .ok w ∧ t = bufFill b.core b.ctx e.pc w (touch b.ctx pa u))

/-- What follows an issue that leaves the state `t`: a slot whose group is as it was has been tried (R181), and the contexts' descriptors and the
watchdogs follow. -/
def Issued (s : State) (r : GRef) (t : State) : State := settle (markTried r (tick s) t)

/-- The event `ev` at the group that issues. -/
def Meets (s : State) (r : GRef) (ev : Instr) (t : State) : Prop := step s = after (Issued s r) (exec ev { t with cur := some r })

end Sys2Proof.Stmt

/-- A step runs the decoded instruction. Where the step turns to a live entry and nothing comes before its instruction, the bytes at
the pc are decoded and `step` is `exec` of that instruction, with the clock moved on and the issuing group noted before it; after it the
group is noted as tried where it is as it was, and the contexts' descriptors and the watchdogs follow; `exec` itself moves the pc. A pad
word and an illegal word are events of their own (R305, R325). The model's choices (log entries): that fetch and walk are one step each (16), the extent of the instruction buffer (92), the bytes of the descriptors (61), and slots that have been tried (125). -/
def Obligations.StepRunsDecoded : Prop :=
  ∀ s r b g e bs t, Turn s r b g e → AtWord s r b g e → Reads s b g e bs t →
    ((bs.headD 0).toNat % 4 = 3 → Meets s r (.padWordSkip (BitVec.ofNat 32 (ofBytes (bs.take 4)))) t) ∧
    ((bs.headD 0).toNat % 4 ≠ 3 → ∀ i n, decodeAt (e.pc.toNat % 32) bs = .ok (i, n) → Meets s r i t) ∧
    ((bs.headD 0).toNat % 4 ≠ 3 → ∀ x, decodeAt (e.pc.toNat % 32) bs = .error x → Meets s r (.illegalWord (illWord bs)) t)

/-- What a step does besides: an event that is due happens; an idle machine lets time pass; a control state that has not been filled since a halt
is asked for (R193); a stack that lacks its on-chip entries is
filled (R228), a trap that is due is taken at a boundary (R477), an entry at its RPC is removed once the loads of its lanes have returned
(R225, R258), a pc that is not canonical traps with PROT (R156), a page fault of the fetch is one (R156), and an error where the fetch
reads is DATA.UE (R165); in run-ahead each of these three ends the run-ahead (R154). A fetch that cannot be answered yet leaves the group as it
was, and asks for the lines of a compressed page (R76). The move chosen is the one that the plain data `sched` selects (log entry 1): the machine allows every order of
the moves that are possible. The model's choices (log entries): the order of moves (1), that fetch and walk are one step each (16), the instruction buffer (92), PC and NPC of a fetch error (124), and slots that have been tried (125). -/
def Obligations.StepMeetsEvents : Prop :=
  (∀ s n ev, pick s = .event n ev → step s = after settle (exec ev { tick s with agenda := s.agenda.eraseIdx n, tried := [] })) ∧
  (∀ s, pick s = .idle → ∃ t, step s = .next t ∧ s.ns ≤ t.ns ∧ t = settle { passTime (t.ns - s.ns) s with tried := [] }) ∧
  ∀ s r b g e, Turn s r b g e →
    let onChip := g.ahead = none → min g.stack.length 3 ≤ g.onChip
    let runOr := fun ev => if g.ahead = none then ev else Instr.runAheadEnd r
    (¬ HasControl b g → step s = .next (Issued s r (askFill b.id (.control g.gid) (tick s)))) ∧
    (HasControl b g → g.ahead = none → g.onChip < min g.stack.length 3 → Meets s r (.stackFill r) (tick s)) ∧
    (HasControl b g → g.ahead = none → onChip → g.handler = none → e.reissue = none → e.launching = none → chainOpen (tick s) b e = false →
      ∀ t, nextHeld g e = some t → t.code ≠ .debug → Meets s r (.boundaryTrap r) (tick s)) ∧
    (HasControl b g → onChip → NoneDue s b g e → atJoin g r.low e = true →
      (g.ahead ≠ none ∨ loadsOut (tick s) r e = false → step s = .next (Issued s r (popJoin r (tick s)))) ∧
      (g.ahead = none → loadsOut (tick s) r e = true → step s = .next (Issued s r (tick s)))) ∧
    (AtWord s r b g e → canonical e.pc = false → Meets s r (runOr (.trapDeliver r (accessTrap .prot e.pc 0 0 2 0))) (tick s)) ∧
    (AtWord s r b g e → canonical e.pc = true → ∀ u,
      (Walks s b g e = (.wait, u) → step s = .next (Issued s r u)) ∧
      (∀ f, Walks s b g e = (.fault f, u) → Meets s r (runOr (.fetchFault r)) u) ∧
      (∀ m, Walks s b g e = (.nak m, u) → m.reason ≠ 2 →
        Meets s r (runOr (.trapDeliver r ⟨.dataUe, accessWords e.pc 0 0 0 0 false 0 m.reason, false, none⟩)) u) ∧
      ∀ pa lf, Walks s b g e = (.ok pa lf, u) → bufFind u b.core b.ctx b.id e.pc = none →
        (cohLook u (pa / 32 * 32) 32 = .wait → step s = .next (Issued s r (wantLines pa (touch b.ctx pa u)))) ∧
        ∀ n, cohLook u (pa / 32 * 32) 32 = .nak n → n ≠ 2 →
          Meets s r (runOr (.trapDeliver r ⟨.dataUe, accessWords e.pc 0 pa 0 0 false 0 n, false, none⟩)) (touch b.ctx pa u))

/-- The selection of an issue slot (R182, R183): the candidate that the slot selects goes before every other candidate of its slot: a
group within a chain keeps the slot, be the chain's next instruction able to issue or not, and issues from the path of the chain; else a group that
has waited 1,024 cycles goes first, the longest wait first; else, and between equal waits, the
higher launch priority, then a holder of an item of the floor bucket, then the group resident earliest, then the lower GID. The model's choices (log entries): that the floor bucket is that of the worklist to which the group is bound (94), and that a resumed block keeps the time of its placement (138). -/
def Obligations.SlotSelection : Prop :=
  (∀ s c, c ∈ winners s → (chainLows s c.blk c.grp ≠ [] → (chainLows s c.blk c.grp).head? = some c.ref.low) ∧
    ∀ b ∈ s.blocks, ∀ g ∈ b.groups, chainLows s b g ≠ [] → b.core * 4 + g.ridx % 4 = slotOf c → chainLows s c.blk c.grp ≠ []) ∧
  ∀ s c d, c ∈ winners s → d ∈ candsOf s → slotOf d = slotOf c → d.ref ≠ c.ref →
    (chainLows s d.blk d.grp ≠ [] → chainLows s c.blk c.grp ≠ []) ∧
    ((chainLows s c.blk c.grp = [] ↔ chainLows s d.blk d.grp = []) →
      let wc := s.mcyc - c.grp.waitFrom
      let wd := s.mcyc - d.grp.waitFrom
      (1024000 ≤ wc ∨ 1024000 ≤ wd → wd ≤ wc) ∧
      (wc = wd ∨ (wc < 1024000 ∧ wd < 1024000) →
        d.prio ≤ c.prio ∧ (c.prio = d.prio →
          (holdsFloor s d.blk d.grp = true → holdsFloor s c.blk c.grp = true) ∧
          (holdsFloor s c.blk c.grp = holdsFloor s d.blk d.grp →
            c.blk.since ≤ d.blk.since ∧ (c.blk.since = d.blk.since → c.grp.gid ≤ d.grp.gid)))))

/-- Reads and writes of memory (R5: bytes in order of address): a byte that a write covers reads as what was written, every byte stored
elsewhere as before, and what was written reads back. An address outside the pool is stored at itself; two offsets of the pool whose
decoders give one fabric address are one byte (R68). -/
def Obligations.MemoryReadWrite : Prop :=
  ∀ a (bs : List Byte) s,
    (∀ x, spaceOf x ≠ .pool → placeIn s x = x) ∧
    (∀ x, (∀ k, k < bs.length → placeIn s (a + k) ≠ placeIn s x) → memByte (memWrite a bs s) x = memByte s x ∧ ∀ mk, memByte (memWriteMask a bs mk s) x = memByte s x) ∧
    ((∀ j k, j < bs.length → k < bs.length → placeIn s (a + j) = placeIn s (a + k) → j = k) →
      (∀ k, k < bs.length → memByte (memWrite a bs s) (a + k) = bs[k]?.getD 0) ∧ memRead (memWrite a bs s) a bs.length = bs ∧
      ∀ mk : List Bool, ∀ k, k < bs.length →
        memByte (memWriteMask a bs mk s) (a + k) = if mk[k]?.getD false then bs[k]?.getD 0 else memByte s (a + k))

/-- An invariant that every step keeps: memory stays in its canonical form, addresses strictly rising and no byte listed that reads as
an unlisted one does (log entry 2), so that equal memories are equal data. -/
def Obligations.MemoryFormKept : Prop := ∀ s t, Memory.wf s.mem → step s = .next t → Memory.wf t.mem

/-- Memory has its canonical form at reset. -/
def Obligations.MemoryFormAtReset : Prop := Memory.wf State.reset.mem

/-- Every step completes, and so does every instruction and event that a step may meet, of every form and from every state: none ends in a fault or a refusal. The spec names no state in which
the machine stops for good. What each form does, the statements of its family say. The model's choices (log entries): that no state stops the machine for good and an event that names nothing changes nothing (22). -/
def Obligations.EveryStepCompletes : Prop := (∀ i s, Goes (exec i s)) ∧ ∀ s, Goes (step s)

/-- Time does not run back: CLOCK never decreases (R348) across a step but for a module reset, from which it counts, and a loss of power (R34). The model's choices (log entries): what a loss of power leaves (48). -/
def Obligations.TimeGoesOn : Prop :=
  ∀ s t, step s = .next t → (∀ n, pick s ≠ .event n .moduleReset ∧ pick s ≠ .event n .powerLoss) → s.ns ≤ t.ns

/-- After module reset (R10): of the register maps, DWAYS, MAXSCOPE and MAXPRIO of every function's policy are 3 and its other fields, EN, OWNPORT,
SPANMASK, QBASE and QCNT among them, are 0 (R40), and every other register reads as 0 through both ports: MSEM (R39) and the error registers, HEATCTL, LTCTL, SCHEDCTL, SVBASE,
QTBASE, CXBASE, PDBASE and PDMAP, CTBASE, CTLIM, CTSYNCP, DBGHALT, DBGSEL, DBGDATA, the remaining life (R33), SHOOTVA, SHOOTN, PREEMPTC, CMPSTAT, FQBASE, FQPTR, and the
error counters of the ports (R29). The clock runs at 2.7 GHz (R2) and CLOCK counts from 0; 40 working cores of each die stand in the fuse map
(R15); and no context, queue, launch, block or worklist exists. What else the registers of the module hold after reset is the
model's choice (log entry 3, the fuse map's cores log entry 4, memory log entry 2). -/
def Obligations.ResetState : Prop :=
  State.reset.ns = 0 ∧ State.reset.mcyc = 0 ∧ State.reset.pkg.mhz = 2700 ∧
  State.reset.mg.fns.length = 65 ∧ (∀ f ∈ State.reset.mg.fns, f.policy = BitVec.ofNat 64 (3 * 2 ^ 14 + 3 * 2 ^ 17 + 3 * 2 ^ 20)) ∧
  (∀ port fn r, (∀ vf, r ≠ .policy vf) → regRead port fn r State.reset = 0) ∧
  (∀ vf, vf < 65 → regRead .a 0 (.policy vf) State.reset = 3 * 2 ^ 14 + 3 * 2 ^ 17 + 3 * 2 ^ 20) ∧
  State.reset.pkg.ports.length = 16 ∧ (∀ p ∈ State.reset.pkg.ports, p.downCnt = 0 ∧ p.margin = 0 ∧ p.replay = 0 ∧ p.corr = 0) ∧
  (∀ p, p < 160 → ∃ c, State.reset.pkg.fuseMap[p]? = some c ∧ 44 * (p / 40) ≤ c ∧ c < 44 * (p / 40) + 44) ∧
  (∀ c, c < 160 → 44 * coreDie c ≤ physicalCore State.reset c ∧ physicalCore State.reset c < 44 * coreDie c + 44) ∧
  State.reset.pkg.fuseMap.Nodup ∧ State.reset.pkg.fuseMap.length = 160 ∧
  State.reset.ctxs = [] ∧ State.reset.queues = [] ∧ State.reset.launches = [] ∧ State.reset.blocks = [] ∧
  State.reset.worklists = [] ∧ (∀ x, memByte State.reset x = 0)

/-! ## Statements of several parts -/

/-- The uniform instructions of MAJ 0x05 to 0x07: arithmetic, comparison, logic, shifts, select, address, bit counts, immediate loads and the lane read (R352 to R354). -/
def Obligations.UniformInstructions : Prop := Stmt.UniformArithmetic ∧ Stmt.UniformCompare ∧ Stmt.UniformLogic ∧ Stmt.LaneRead

/-- The integer arithmetic of MAJ 0x08 and its carries (R362), with min and max (R366). -/
def Obligations.VectorArithmetic : Prop := Stmt.VectorInteger ∧ Stmt.AddWithCarry

/-- The logic, shifts, selects, moves and comparisons (R364, R366) and the bit counts and bit fields (R368). -/
def Obligations.VectorLogicAndFields : Prop := Stmt.VectorLogic ∧ Stmt.VectorCompare ∧ Stmt.BitFields

/-- Float arithmetic and roots (R292, R370) and the three functions of R294 to R296. -/
def Obligations.FloatArithmeticAndRoots : Prop := Stmt.FloatArithmetic ∧ Stmt.Transcendentals

/-- The float instructions that round nothing: fmin, fmax, fclass and fcmp (R370 to R372). -/
def Obligations.FloatSelectAndCompare : Prop := Stmt.FloatSelect ∧ Stmt.FloatCompare

/-- What every rounding and every draw obeys (R273, R277, R288 to R290). -/
def Obligations.RoundingAndDraws : Prop := Stmt.CanonicalNaN ∧ Stmt.RoundExact ∧ Stmt.DrawsPerLane

/-- The instructions of MAJ 0x14: shfl, bcast, compress and expand (R379 to R381). -/
def Obligations.CrossLaneMoves : Prop := Stmt.LaneMoves ∧ Stmt.SparsePairs

/-- The reductions, their index forms and the scans of MAJ 0x15 (R383 to R385). The model's choices (log entries): the index of a NaN extreme (93), and that an index is written after its extreme (19). -/
def Obligations.ReductionsAndScans : Prop := Stmt.Reductions ∧ Stmt.ReductionIndex ∧ Stmt.Scans

/-- Branches that keep their lanes together, and brd, which may part them (R224, R331 to R334). The model's choices (log entries): that the child in the live slot of a brd keeps its latches (135), and the trap of a stack address that is not canonical or refused (123, 133). -/
def Obligations.BranchesAndDivergence : Prop := Stmt.Branches ∧ Stmt.DivergentBranch

/-- What taking a trap saves and where it goes, the trap instruction, and the return (R160, R161, R336, R337). -/
def Obligations.TrapsAndReturns : Prop := Stmt.TrapEntry ∧ Stmt.SoftTrapAndReturn

/-- The barriers of a block and of a cluster (R342 to R345). The model's choices (log entries): that an arrival waits for earlier accesses at the instruction (18). -/
def Obligations.Barriers : Prop := Stmt.BlockBarriers ∧ Stmt.ClusterBarrier

/-- The register pool and the roles of a block (R231 to R236, R346). The model's choices (log entries): what the second of two requests of one group gets (141). -/
def Obligations.RegisterPoolAndRoles : Prop := Stmt.RegisterPool ∧ Stmt.RolesAndGrants

/-- How an access is performed in a grain and how it returns (R242, R250, R253, R393, R398). The model's choices (log entries): that a refusal goes before an error (131), and when the L1 accepts (24). -/
def Obligations.AccessPerforms : Prop := Stmt.GrainPerformed ∧ Stmt.AccessReturns

/-- Cluster and pad accesses from issue to service (R65, R66, R247, R390 to R395). The model's choices (log entries): that an access waits at the instruction for its orders (18) and for granules (90), and pad offsets beyond 96 MiB (97). -/
def Obligations.ClusterAndPadAccess : Prop := Stmt.ClusterAndPad ∧ Stmt.SlabAndPadService

/-- Fences, waits on a path, and the cache instructions (R264, R265, R396, R399 to R401). The model's choices (log entries): that a fence or release waits at the instruction (18). -/
def Obligations.FencesAndCaches : Prop := Stmt.FencesAndWaits ∧ Stmt.CacheOperations

/-- Copy instructions and the commands that they queue (R403 to R408). The model's choices (log entries): when tstore reads its registers (27), RESTART of XREG (28), element order (29), a Nak of the record (32), the pages of a batch (89), KIND (132), CAUSE 2 at a boundary (133). -/
def Obligations.CopyCommands : Prop := Stmt.CopyIssue ∧ Stmt.CopyPerforms

/-- Base-die instructions and the pieces that they send (R82 to R84, R409 to R411). The model's choices (log entries): the row that a bdscat keeps and the bytes that a bdconv overlaps (9), uncached accesses (17), the order of the checks (45), how often a piece counts (46), and PROT with CAUSE 2 at a boundary (133). -/
def Obligations.BaseDieCommands : Prop := Stmt.BaseDieIssue ∧ Stmt.BaseDiePieces

/-- The matrix and accumulator instructions at issue (R413 to R427). The model's choices (log entries): that an op waits at issue for rows of another group (34), and V codes that are no registers (144). -/
def Obligations.MatrixIssues : Prop := Stmt.AccumulatorIssue ∧ Stmt.MatrixIssue

/-- Batches: how they close, complete and are waited on (R416, R427 to R430). The model's choices (log entries): the batches whose status is kept (36), promotion at an implicit close (37), and a stopped op that keeps its turn (33). -/
def Obligations.BatchOrder : Prop := Stmt.BatchControl ∧ Stmt.BatchCompletion

/-- What the matrix engine computes (R281, R282, R286, R421, R424 to R427). The model's choices (log entries): which lanes of a pending source are old (10), a broken team (35), promotion (37), ops in one step (96), and V codes that are no registers (144). -/
def Obligations.MatrixResults : Prop := Stmt.MatrixPerforms ∧ Stmt.NarrowAccumulation

/-- The stream instructions at issue (R433 to R446). The model's choices (log entries): that srnd, slen, sseed and sdep complete at issue (66). -/
def Obligations.StreamInstructions : Prop := Stmt.StreamIssue ∧ Stmt.StreamControl

/-- The floor, termination, steals and handover of an ordered worklist (R205 to R218). The model's choices (log entries): CAP after an empty round (73), the period of rounds and waves (77), when a steal is tried again (74), stolen items without room (142), handover (70), peers of other devices (15), and an unreachable worklist (75). -/
def Obligations.FloorsAndSteals : Prop := Stmt.FloorAndTermination ∧ Stmt.StealsAndHandover

/-- Label commands from issue to answer, and the regions they act on (R112 to R132, R454 to R456). The model's choices (log entries): that a command waits at the instruction for earlier accesses (18), where DENIED is decided (78), that the label byte is written through (85), a verdict that cannot be pinned (102), and the tag of a region's BInv (87). -/
def Obligations.LabelsAndRegions : Prop := Stmt.RegionLabels ∧ Stmt.LabelCommands

/-- Module reset, losses of power and of dies, the clock and the monitors (R10, R15 to R21, R31 to R34). The model's choices (log entries): registers without a reset value (3, 4), what a loss of power erases (48), how the waits of a context that loses a die end (50), a refused image (119), groups on the lost die (134), and the margins at reset (136). -/
def Obligations.ResetAndPackage : Prop := Stmt.ResetAndLoss ∧ Stmt.ClockAndHealth

/-- SHOOT, PREEMPT, RELEASE and the halting of dies (R149, R167, R168, R189). The model's choices (log entries): which contexts the PF may name (62), what a SHOOT waits for (63), placement under a hold (41), and events held by a halted die (56). -/
def Obligations.ShootPreemptHalt : Prop := Stmt.ShootAndPreempt ∧ Stmt.DieHalts

/-- Device registers and the management work that they start. The model's choices (log entries): the halving of bytes at their homes (64), the images and the measurements (65, 11), reads without an event (57), a VF's policy through the other PF (137), and PIN beyond 255 (118). -/
def Obligations.RegistersAndWork : Prop := Stmt.DeviceRegisters ∧ Stmt.ManagementWork

/-- Command queues: their commands and the walk of their blocks (R45 to R52). The model's choices (log entries): FCODE of failed checks (53, 112), where a queue stops (54), what a replay repeats (55), which operations have a scope (110), work in flight at a reset (111), and a queue with an open fault (114). -/
def Obligations.CommandQueues : Prop := Stmt.QueueCommands ∧ Stmt.QueueWalk
end

