-- ==== Sys2Proof/Laws/Sparse.lean ====
section
/-! SUPPORT. The laws of sparse maps: a read after a write, and the canonical form, which every write keeps. -/

namespace Sys2Proof

variable {α : Type} [DecidableEq α] {d : α}

theorem fmap_wf_weaken {m : FMap α} {lo lo' : Nat} (h : FMap.wfFrom d lo m = true) (hl : lo' ≤ lo) :
    FMap.wfFrom d lo' m = true := by
  cases m with
  | nil => rfl
  | cons e r =>
    obtain ⟨k', v⟩ := e
    simp only [FMap.wfFrom, Bool.and_eq_true, decide_eq_true_eq] at h ⊢
    exact ⟨⟨by omega, h.1.2⟩, h.2⟩

/-- Leaving entries out keeps the canonical form. -/
theorem fmap_wf_filter {m : FMap α} {lo : Nat} (p : Nat × α → Bool) (h : FMap.wfFrom d lo m = true) :
    FMap.wfFrom d lo (m.filter p) = true := by
  induction m generalizing lo with
  | nil => rfl
  | cons e r ih =>
    obtain ⟨k, v⟩ := e
    simp only [FMap.wfFrom, Bool.and_eq_true, decide_eq_true_eq] at h
    rw [List.filter_cons]
    split
    · simp only [FMap.wfFrom, Bool.and_eq_true, decide_eq_true_eq]
      exact ⟨h.1, ih h.2⟩
    · exact ih (fmap_wf_weaken h.2 (by omega))

/-- Writing the default removes the key. -/
theorem fmap_set_default (m : FMap α) (k : Nat) : FMap.set d m k d = m.filter (·.1 ≠ k) := by
  induction m with
  | nil => simp [FMap.set]
  | cons e r ih =>
    obtain ⟨k', w⟩ := e
    by_cases hk : k' = k <;> simp [FMap.set, hk, ih]

/-- A write keeps the canonical form above a bound that its key meets. -/
theorem fmap_wfFrom_set {m : FMap α} {lo : Nat} (k : Nat) (v : α) (h : FMap.wfFrom d lo m = true) (hk : lo ≤ k) :
    FMap.wfFrom d lo (FMap.set d m k v) = true := by
  induction m generalizing lo with
  | nil =>
    unfold FMap.set
    split
    · rfl
    · rename_i hv; simp [FMap.wfFrom, hk, hv]
  | cons e r ih =>
    obtain ⟨k', w⟩ := e
    have h' := h
    simp only [FMap.wfFrom, Bool.and_eq_true, decide_eq_true_eq] at h
    unfold FMap.set
    split
    · split
      · exact fmap_wf_filter _ (fmap_wf_weaken h.2 (by omega))
      · rename_i hv
        simp only [FMap.wfFrom, Bool.and_eq_true, decide_eq_true_eq]
        exact ⟨⟨hk, hv⟩, fmap_wf_weaken h.2 (by omega)⟩
    · split
      · rename_i hv
        simp only [FMap.wfFrom, Bool.and_eq_true, decide_eq_true_eq]
        exact ⟨⟨hk, hv.2⟩, ⟨by omega, h.1.2⟩, h.2⟩
      · rename_i hk' hv
        simp only [FMap.wfFrom, Bool.and_eq_true, decide_eq_true_eq]
        refine ⟨⟨h.1.1, h.1.2⟩, ?_⟩
        by_cases hd : v = d
        · subst hd
          rw [fmap_set_default]
          exact fmap_wf_filter _ h.2
        · have hlt : ¬ k < k' := fun hl => hv ⟨hl, hd⟩
          exact ih h.2 (by omega)

/-- A write keeps the canonical form. -/
theorem fmap_wf_set {m : FMap α} (k : Nat) (v : α) (h : FMap.wf d m = true) : FMap.wf d (FMap.set d m k v) = true :=
  fmap_wfFrom_set k v h (Nat.zero_le k)

theorem fmap_wf_setAll {m : FMap α} (es : List (Nat × α)) (h : FMap.wf d m = true) : FMap.wf d (FMap.setAll d m es) = true := by
  unfold FMap.setAll
  induction es generalizing m with
  | nil => exact h
  | cons e r ih => exact ih (fmap_wf_set e.1 e.2 h)

omit [DecidableEq α] in
theorem fmap_get_filter_self (m : FMap α) (k : Nat) : FMap.get d (m.filter (·.1 ≠ k)) k = d := by
  induction m with
  | nil => rfl
  | cons e r ih =>
    obtain ⟨k', w⟩ := e
    by_cases hk : k' = k <;> simp_all [FMap.get]

omit [DecidableEq α] in
theorem fmap_get_filter_other (m : FMap α) {k j : Nat} (hj : j ≠ k) :
    FMap.get d (m.filter (·.1 ≠ k)) j = FMap.get d m j := by
  induction m with
  | nil => rfl
  | cons e r ih =>
    obtain ⟨k', w⟩ := e
    by_cases hk : k' = k
    · subst hk
      have : k' ≠ j := fun e => hj e.symm
      simp_all [FMap.get]
    · by_cases hkj : k' = j <;> simp_all [FMap.get]

/-- A read after a write to the same key gives the value written. -/
@[simp] theorem fmap_get_set_same (m : FMap α) (k : Nat) (v : α) : FMap.get d (FMap.set d m k v) k = v := by
  induction m with
  | nil => unfold FMap.set; split <;> simp_all [FMap.get]
  | cons e r ih =>
    obtain ⟨k', w⟩ := e
    unfold FMap.set
    split
    · split
      · rename_i hv; rw [hv]; exact fmap_get_filter_self r k
      · simp [FMap.get]
    · rename_i hk
      split
      · simp [FMap.get]
      · simp [FMap.get, hk, ih]

/-- A write leaves every other key alone. -/
theorem fmap_get_set_other (m : FMap α) {k j : Nat} (v : α) (hj : j ≠ k) :
    FMap.get d (FMap.set d m k v) j = FMap.get d m j := by
  have hkj : k ≠ j := fun e => hj e.symm
  induction m with
  | nil => unfold FMap.set; split <;> simp [FMap.get, hkj]
  | cons e r ih =>
    obtain ⟨k', w⟩ := e
    unfold FMap.set
    split
    · rename_i hk
      subst hk
      split
      · simp only [FMap.get, hkj, if_false]; exact fmap_get_filter_other r hj
      · simp [FMap.get, hkj]
    · split
      · simp [FMap.get, hkj]
      · simp only [FMap.get, ih]

/-- What a map holds after a write. -/
theorem fmap_get_set (m : FMap α) (k j : Nat) (v : α) :
    FMap.get d (FMap.set d m k v) j = if j = k then v else FMap.get d m j := by
  split
  · rename_i hj; subst hj; exact fmap_get_set_same m j v
  · rename_i hj; exact fmap_get_set_other m v hj

/-- A map read outside the keys that several writes name is unchanged. -/
theorem fmap_get_setAll_other (m : FMap α) {j : Nat} (es : List (Nat × α)) (hj : ∀ e ∈ es, e.1 ≠ j) :
    FMap.get d (FMap.setAll d m es) j = FMap.get d m j := by
  unfold FMap.setAll
  induction es generalizing m with
  | nil => rfl
  | cons e r ih =>
    rw [List.foldl_cons, ih _ fun x hx => hj x (List.mem_cons_of_mem _ hx)]
    exact fmap_get_set_other _ _ (hj e (List.mem_cons_self ..)).symm

/-- A canonical map reads as its default below its first key. -/
theorem fmap_get_below {m : FMap α} {lo k : Nat} (h : FMap.wfFrom d lo m = true) (hk : k < lo) : FMap.get d m k = d := by
  induction m generalizing lo with
  | nil => rfl
  | cons e r ih =>
    obtain ⟨k', v⟩ := e
    simp only [FMap.wfFrom, Bool.and_eq_true, decide_eq_true_eq] at h
    have h1 : k' ≠ k := by omega
    simp only [FMap.get, h1, if_false]
    exact ih h.2 (by omega)

/-- Canonical maps with equal contents are equal data. -/
theorem fmap_ext {m n : FMap α} {lo : Nat} (hm : FMap.wfFrom d lo m = true) (hn : FMap.wfFrom d lo n = true)
    (h : ∀ k, FMap.get d m k = FMap.get d n k) : m = n := by
  induction m generalizing n lo with
  | nil =>
    cases n with
    | nil => rfl
    | cons e r =>
      obtain ⟨k, v⟩ := e
      simp only [FMap.wfFrom, Bool.and_eq_true, decide_eq_true_eq] at hn
      have := h k
      simp [FMap.get] at this
      exact absurd this.symm hn.1.2
  | cons e r ih =>
    obtain ⟨k, v⟩ := e
    simp only [FMap.wfFrom, Bool.and_eq_true, decide_eq_true_eq] at hm
    cases n with
    | nil =>
      have := h k
      simp [FMap.get] at this
      exact absurd this hm.1.2
    | cons e' r' =>
      obtain ⟨k', v'⟩ := e'
      simp only [FMap.wfFrom, Bool.and_eq_true, decide_eq_true_eq] at hn
      have hk : k = k' := by
        rcases Nat.lt_trichotomy k k' with hl | he | hl
        · have := h k
          have h0 : k' ≠ k := by omega
          simp only [FMap.get, h0, if_false, if_true] at this
          rw [fmap_get_below hn.2 (by omega)] at this
          exact absurd this hm.1.2
        · exact he
        · have := h k'
          have h0 : k ≠ k' := by omega
          simp only [FMap.get, h0, if_false, if_true] at this
          rw [fmap_get_below hm.2 (by omega)] at this
          exact absurd this.symm hn.1.2
      subst hk
      have hv : v = v' := by have := h k; simpa [FMap.get] using this
      subst hv
      congr 1
      refine ih hm.2 hn.2 fun j => ?_
      have := h j
      by_cases hj : k = j
      · subst hj; rw [fmap_get_below hm.2 (by omega), fmap_get_below hn.2 (by omega)]
      · simpa [FMap.get, hj] using this

end Sys2Proof
end

