-- ==== Sys2Proof/Laws/State.lean ====
section
/-! SUPPORT. One lemma per field for each update of the state and of a group, true by definition. -/

namespace Sys2Proof.Machine

open Sys2Proof

/-! post -/

@[simp] theorem post_ns (d : Nat) (ev : Instr) (s : State) : (post d ev s).ns = s.ns := rfl
@[simp] theorem post_mcyc (d : Nat) (ev : Instr) (s : State) : (post d ev s).mcyc = s.mcyc := rfl
@[simp] theorem post_sched (d : Nat) (ev : Instr) (s : State) : (post d ev s).sched = s.sched := rfl
@[simp] theorem post_pace (d : Nat) (ev : Instr) (s : State) : (post d ev s).pace = s.pace := rfl
@[simp] theorem post_free (d : Nat) (ev : Instr) (s : State) : (post d ev s).free = s.free := rfl
@[simp] theorem post_nextId (d : Nat) (ev : Instr) (s : State) : (post d ev s).nextId = s.nextId := rfl
@[simp] theorem post_cur (d : Nat) (ev : Instr) (s : State) : (post d ev s).cur = s.cur := rfl
@[simp] theorem post_tried (d : Nat) (ev : Instr) (s : State) : (post d ev s).tried = s.tried := rfl
@[simp] theorem post_mem (d : Nat) (ev : Instr) (s : State) : (post d ev s).mem = s.mem := rfl
@[simp] theorem post_pkg (d : Nat) (ev : Instr) (s : State) : (post d ev s).pkg = s.pkg := rfl
@[simp] theorem post_mg (d : Nat) (ev : Instr) (s : State) : (post d ev s).mg = s.mg := rfl
@[simp] theorem post_queues (d : Nat) (ev : Instr) (s : State) : (post d ev s).queues = s.queues := rfl
@[simp] theorem post_ctxs (d : Nat) (ev : Instr) (s : State) : (post d ev s).ctxs = s.ctxs := rfl
@[simp] theorem post_faultQs (d : Nat) (ev : Instr) (s : State) : (post d ev s).faultQs = s.faultQs := rfl
@[simp] theorem post_tlbs (d : Nat) (ev : Instr) (s : State) : (post d ev s).tlbs = s.tlbs := rfl
@[simp] theorem post_launches (d : Nat) (ev : Instr) (s : State) : (post d ev s).launches = s.launches := rfl
@[simp] theorem post_blocks (d : Nat) (ev : Instr) (s : State) : (post d ev s).blocks = s.blocks := rfl
@[simp] theorem post_eng (d : Nat) (ev : Instr) (s : State) : (post d ev s).eng = s.eng := rfl
@[simp] theorem post_coh (d : Nat) (ev : Instr) (s : State) : (post d ev s).coh = s.coh := rfl
@[simp] theorem post_worklists (d : Nat) (ev : Instr) (s : State) : (post d ev s).worklists = s.worklists := rfl

/-! postAll -/

@[simp] theorem postAll_ns (evs : List Instr) (s : State) : (postAll evs s).ns = s.ns := rfl
@[simp] theorem postAll_mcyc (evs : List Instr) (s : State) : (postAll evs s).mcyc = s.mcyc := rfl
@[simp] theorem postAll_sched (evs : List Instr) (s : State) : (postAll evs s).sched = s.sched := rfl
@[simp] theorem postAll_pace (evs : List Instr) (s : State) : (postAll evs s).pace = s.pace := rfl
@[simp] theorem postAll_free (evs : List Instr) (s : State) : (postAll evs s).free = s.free := rfl
@[simp] theorem postAll_nextId (evs : List Instr) (s : State) : (postAll evs s).nextId = s.nextId := rfl
@[simp] theorem postAll_cur (evs : List Instr) (s : State) : (postAll evs s).cur = s.cur := rfl
@[simp] theorem postAll_tried (evs : List Instr) (s : State) : (postAll evs s).tried = s.tried := rfl
@[simp] theorem postAll_mem (evs : List Instr) (s : State) : (postAll evs s).mem = s.mem := rfl
@[simp] theorem postAll_pkg (evs : List Instr) (s : State) : (postAll evs s).pkg = s.pkg := rfl
@[simp] theorem postAll_mg (evs : List Instr) (s : State) : (postAll evs s).mg = s.mg := rfl
@[simp] theorem postAll_queues (evs : List Instr) (s : State) : (postAll evs s).queues = s.queues := rfl
@[simp] theorem postAll_ctxs (evs : List Instr) (s : State) : (postAll evs s).ctxs = s.ctxs := rfl
@[simp] theorem postAll_faultQs (evs : List Instr) (s : State) : (postAll evs s).faultQs = s.faultQs := rfl
@[simp] theorem postAll_tlbs (evs : List Instr) (s : State) : (postAll evs s).tlbs = s.tlbs := rfl
@[simp] theorem postAll_launches (evs : List Instr) (s : State) : (postAll evs s).launches = s.launches := rfl
@[simp] theorem postAll_blocks (evs : List Instr) (s : State) : (postAll evs s).blocks = s.blocks := rfl
@[simp] theorem postAll_eng (evs : List Instr) (s : State) : (postAll evs s).eng = s.eng := rfl
@[simp] theorem postAll_coh (evs : List Instr) (s : State) : (postAll evs s).coh = s.coh := rfl
@[simp] theorem postAll_worklists (evs : List Instr) (s : State) : (postAll evs s).worklists = s.worklists := rfl

/-! modBlk -/

@[simp] theorem modBlk_ns (b : Nat) (f : Block → Block) (s : State) : (modBlk b f s).ns = s.ns := rfl
@[simp] theorem modBlk_mcyc (b : Nat) (f : Block → Block) (s : State) : (modBlk b f s).mcyc = s.mcyc := rfl
@[simp] theorem modBlk_agenda (b : Nat) (f : Block → Block) (s : State) : (modBlk b f s).agenda = s.agenda := rfl
@[simp] theorem modBlk_sched (b : Nat) (f : Block → Block) (s : State) : (modBlk b f s).sched = s.sched := rfl
@[simp] theorem modBlk_pace (b : Nat) (f : Block → Block) (s : State) : (modBlk b f s).pace = s.pace := rfl
@[simp] theorem modBlk_free (b : Nat) (f : Block → Block) (s : State) : (modBlk b f s).free = s.free := rfl
@[simp] theorem modBlk_nextId (b : Nat) (f : Block → Block) (s : State) : (modBlk b f s).nextId = s.nextId := rfl
@[simp] theorem modBlk_cur (b : Nat) (f : Block → Block) (s : State) : (modBlk b f s).cur = s.cur := rfl
@[simp] theorem modBlk_tried (b : Nat) (f : Block → Block) (s : State) : (modBlk b f s).tried = s.tried := rfl
@[simp] theorem modBlk_mem (b : Nat) (f : Block → Block) (s : State) : (modBlk b f s).mem = s.mem := rfl
@[simp] theorem modBlk_pkg (b : Nat) (f : Block → Block) (s : State) : (modBlk b f s).pkg = s.pkg := rfl
@[simp] theorem modBlk_mg (b : Nat) (f : Block → Block) (s : State) : (modBlk b f s).mg = s.mg := rfl
@[simp] theorem modBlk_queues (b : Nat) (f : Block → Block) (s : State) : (modBlk b f s).queues = s.queues := rfl
@[simp] theorem modBlk_ctxs (b : Nat) (f : Block → Block) (s : State) : (modBlk b f s).ctxs = s.ctxs := rfl
@[simp] theorem modBlk_faultQs (b : Nat) (f : Block → Block) (s : State) : (modBlk b f s).faultQs = s.faultQs := rfl
@[simp] theorem modBlk_tlbs (b : Nat) (f : Block → Block) (s : State) : (modBlk b f s).tlbs = s.tlbs := rfl
@[simp] theorem modBlk_launches (b : Nat) (f : Block → Block) (s : State) : (modBlk b f s).launches = s.launches := rfl
@[simp] theorem modBlk_eng (b : Nat) (f : Block → Block) (s : State) : (modBlk b f s).eng = s.eng := rfl
@[simp] theorem modBlk_coh (b : Nat) (f : Block → Block) (s : State) : (modBlk b f s).coh = s.coh := rfl
@[simp] theorem modBlk_worklists (b : Nat) (f : Block → Block) (s : State) : (modBlk b f s).worklists = s.worklists := rfl

/-! modGrp -/

@[simp] theorem modGrp_ns (g : GRef) (f : Group → Group) (s : State) : (modGrp g f s).ns = s.ns := rfl
@[simp] theorem modGrp_mcyc (g : GRef) (f : Group → Group) (s : State) : (modGrp g f s).mcyc = s.mcyc := rfl
@[simp] theorem modGrp_agenda (g : GRef) (f : Group → Group) (s : State) : (modGrp g f s).agenda = s.agenda := rfl
@[simp] theorem modGrp_sched (g : GRef) (f : Group → Group) (s : State) : (modGrp g f s).sched = s.sched := rfl
@[simp] theorem modGrp_pace (g : GRef) (f : Group → Group) (s : State) : (modGrp g f s).pace = s.pace := rfl
@[simp] theorem modGrp_free (g : GRef) (f : Group → Group) (s : State) : (modGrp g f s).free = s.free := rfl
@[simp] theorem modGrp_nextId (g : GRef) (f : Group → Group) (s : State) : (modGrp g f s).nextId = s.nextId := rfl
@[simp] theorem modGrp_cur (g : GRef) (f : Group → Group) (s : State) : (modGrp g f s).cur = s.cur := rfl
@[simp] theorem modGrp_tried (g : GRef) (f : Group → Group) (s : State) : (modGrp g f s).tried = s.tried := rfl
@[simp] theorem modGrp_mem (g : GRef) (f : Group → Group) (s : State) : (modGrp g f s).mem = s.mem := rfl
@[simp] theorem modGrp_pkg (g : GRef) (f : Group → Group) (s : State) : (modGrp g f s).pkg = s.pkg := rfl
@[simp] theorem modGrp_mg (g : GRef) (f : Group → Group) (s : State) : (modGrp g f s).mg = s.mg := rfl
@[simp] theorem modGrp_queues (g : GRef) (f : Group → Group) (s : State) : (modGrp g f s).queues = s.queues := rfl
@[simp] theorem modGrp_ctxs (g : GRef) (f : Group → Group) (s : State) : (modGrp g f s).ctxs = s.ctxs := rfl
@[simp] theorem modGrp_faultQs (g : GRef) (f : Group → Group) (s : State) : (modGrp g f s).faultQs = s.faultQs := rfl
@[simp] theorem modGrp_tlbs (g : GRef) (f : Group → Group) (s : State) : (modGrp g f s).tlbs = s.tlbs := rfl
@[simp] theorem modGrp_launches (g : GRef) (f : Group → Group) (s : State) : (modGrp g f s).launches = s.launches := rfl
@[simp] theorem modGrp_eng (g : GRef) (f : Group → Group) (s : State) : (modGrp g f s).eng = s.eng := rfl
@[simp] theorem modGrp_coh (g : GRef) (f : Group → Group) (s : State) : (modGrp g f s).coh = s.coh := rfl
@[simp] theorem modGrp_worklists (g : GRef) (f : Group → Group) (s : State) : (modGrp g f s).worklists = s.worklists := rfl

/-! modLaunch -/

@[simp] theorem modLaunch_ns (l : Nat) (f : Launch → Launch) (s : State) : (modLaunch l f s).ns = s.ns := rfl
@[simp] theorem modLaunch_mcyc (l : Nat) (f : Launch → Launch) (s : State) : (modLaunch l f s).mcyc = s.mcyc := rfl
@[simp] theorem modLaunch_agenda (l : Nat) (f : Launch → Launch) (s : State) : (modLaunch l f s).agenda = s.agenda := rfl
@[simp] theorem modLaunch_sched (l : Nat) (f : Launch → Launch) (s : State) : (modLaunch l f s).sched = s.sched := rfl
@[simp] theorem modLaunch_pace (l : Nat) (f : Launch → Launch) (s : State) : (modLaunch l f s).pace = s.pace := rfl
@[simp] theorem modLaunch_free (l : Nat) (f : Launch → Launch) (s : State) : (modLaunch l f s).free = s.free := rfl
@[simp] theorem modLaunch_nextId (l : Nat) (f : Launch → Launch) (s : State) : (modLaunch l f s).nextId = s.nextId := rfl
@[simp] theorem modLaunch_cur (l : Nat) (f : Launch → Launch) (s : State) : (modLaunch l f s).cur = s.cur := rfl
@[simp] theorem modLaunch_tried (l : Nat) (f : Launch → Launch) (s : State) : (modLaunch l f s).tried = s.tried := rfl
@[simp] theorem modLaunch_mem (l : Nat) (f : Launch → Launch) (s : State) : (modLaunch l f s).mem = s.mem := rfl
@[simp] theorem modLaunch_pkg (l : Nat) (f : Launch → Launch) (s : State) : (modLaunch l f s).pkg = s.pkg := rfl
@[simp] theorem modLaunch_mg (l : Nat) (f : Launch → Launch) (s : State) : (modLaunch l f s).mg = s.mg := rfl
@[simp] theorem modLaunch_queues (l : Nat) (f : Launch → Launch) (s : State) : (modLaunch l f s).queues = s.queues := rfl
@[simp] theorem modLaunch_ctxs (l : Nat) (f : Launch → Launch) (s : State) : (modLaunch l f s).ctxs = s.ctxs := rfl
@[simp] theorem modLaunch_faultQs (l : Nat) (f : Launch → Launch) (s : State) : (modLaunch l f s).faultQs = s.faultQs := rfl
@[simp] theorem modLaunch_tlbs (l : Nat) (f : Launch → Launch) (s : State) : (modLaunch l f s).tlbs = s.tlbs := rfl
@[simp] theorem modLaunch_blocks (l : Nat) (f : Launch → Launch) (s : State) : (modLaunch l f s).blocks = s.blocks := rfl
@[simp] theorem modLaunch_eng (l : Nat) (f : Launch → Launch) (s : State) : (modLaunch l f s).eng = s.eng := rfl
@[simp] theorem modLaunch_coh (l : Nat) (f : Launch → Launch) (s : State) : (modLaunch l f s).coh = s.coh := rfl
@[simp] theorem modLaunch_worklists (l : Nat) (f : Launch → Launch) (s : State) : (modLaunch l f s).worklists = s.worklists := rfl

/-! modCtx -/

@[simp] theorem modCtx_ns (c : Nat) (f : Ctx → Ctx) (s : State) : (modCtx c f s).ns = s.ns := rfl
@[simp] theorem modCtx_mcyc (c : Nat) (f : Ctx → Ctx) (s : State) : (modCtx c f s).mcyc = s.mcyc := rfl
@[simp] theorem modCtx_agenda (c : Nat) (f : Ctx → Ctx) (s : State) : (modCtx c f s).agenda = s.agenda := rfl
@[simp] theorem modCtx_sched (c : Nat) (f : Ctx → Ctx) (s : State) : (modCtx c f s).sched = s.sched := rfl
@[simp] theorem modCtx_pace (c : Nat) (f : Ctx → Ctx) (s : State) : (modCtx c f s).pace = s.pace := rfl
@[simp] theorem modCtx_free (c : Nat) (f : Ctx → Ctx) (s : State) : (modCtx c f s).free = s.free := rfl
@[simp] theorem modCtx_nextId (c : Nat) (f : Ctx → Ctx) (s : State) : (modCtx c f s).nextId = s.nextId := rfl
@[simp] theorem modCtx_cur (c : Nat) (f : Ctx → Ctx) (s : State) : (modCtx c f s).cur = s.cur := rfl
@[simp] theorem modCtx_tried (c : Nat) (f : Ctx → Ctx) (s : State) : (modCtx c f s).tried = s.tried := rfl
@[simp] theorem modCtx_mem (c : Nat) (f : Ctx → Ctx) (s : State) : (modCtx c f s).mem = s.mem := rfl
@[simp] theorem modCtx_pkg (c : Nat) (f : Ctx → Ctx) (s : State) : (modCtx c f s).pkg = s.pkg := rfl
@[simp] theorem modCtx_mg (c : Nat) (f : Ctx → Ctx) (s : State) : (modCtx c f s).mg = s.mg := rfl
@[simp] theorem modCtx_queues (c : Nat) (f : Ctx → Ctx) (s : State) : (modCtx c f s).queues = s.queues := rfl
@[simp] theorem modCtx_faultQs (c : Nat) (f : Ctx → Ctx) (s : State) : (modCtx c f s).faultQs = s.faultQs := rfl
@[simp] theorem modCtx_tlbs (c : Nat) (f : Ctx → Ctx) (s : State) : (modCtx c f s).tlbs = s.tlbs := rfl
@[simp] theorem modCtx_launches (c : Nat) (f : Ctx → Ctx) (s : State) : (modCtx c f s).launches = s.launches := rfl
@[simp] theorem modCtx_blocks (c : Nat) (f : Ctx → Ctx) (s : State) : (modCtx c f s).blocks = s.blocks := rfl
@[simp] theorem modCtx_eng (c : Nat) (f : Ctx → Ctx) (s : State) : (modCtx c f s).eng = s.eng := rfl
@[simp] theorem modCtx_coh (c : Nat) (f : Ctx → Ctx) (s : State) : (modCtx c f s).coh = s.coh := rfl
@[simp] theorem modCtx_worklists (c : Nat) (f : Ctx → Ctx) (s : State) : (modCtx c f s).worklists = s.worklists := rfl

/-! modFn -/

@[simp] theorem modFn_ns (n : Nat) (f : Fn → Fn) (s : State) : (modFn n f s).ns = s.ns := rfl
@[simp] theorem modFn_mcyc (n : Nat) (f : Fn → Fn) (s : State) : (modFn n f s).mcyc = s.mcyc := rfl
@[simp] theorem modFn_agenda (n : Nat) (f : Fn → Fn) (s : State) : (modFn n f s).agenda = s.agenda := rfl
@[simp] theorem modFn_sched (n : Nat) (f : Fn → Fn) (s : State) : (modFn n f s).sched = s.sched := rfl
@[simp] theorem modFn_pace (n : Nat) (f : Fn → Fn) (s : State) : (modFn n f s).pace = s.pace := rfl
@[simp] theorem modFn_free (n : Nat) (f : Fn → Fn) (s : State) : (modFn n f s).free = s.free := rfl
@[simp] theorem modFn_nextId (n : Nat) (f : Fn → Fn) (s : State) : (modFn n f s).nextId = s.nextId := rfl
@[simp] theorem modFn_cur (n : Nat) (f : Fn → Fn) (s : State) : (modFn n f s).cur = s.cur := rfl
@[simp] theorem modFn_tried (n : Nat) (f : Fn → Fn) (s : State) : (modFn n f s).tried = s.tried := rfl
@[simp] theorem modFn_mem (n : Nat) (f : Fn → Fn) (s : State) : (modFn n f s).mem = s.mem := rfl
@[simp] theorem modFn_pkg (n : Nat) (f : Fn → Fn) (s : State) : (modFn n f s).pkg = s.pkg := rfl
@[simp] theorem modFn_queues (n : Nat) (f : Fn → Fn) (s : State) : (modFn n f s).queues = s.queues := rfl
@[simp] theorem modFn_ctxs (n : Nat) (f : Fn → Fn) (s : State) : (modFn n f s).ctxs = s.ctxs := rfl
@[simp] theorem modFn_faultQs (n : Nat) (f : Fn → Fn) (s : State) : (modFn n f s).faultQs = s.faultQs := rfl
@[simp] theorem modFn_tlbs (n : Nat) (f : Fn → Fn) (s : State) : (modFn n f s).tlbs = s.tlbs := rfl
@[simp] theorem modFn_launches (n : Nat) (f : Fn → Fn) (s : State) : (modFn n f s).launches = s.launches := rfl
@[simp] theorem modFn_blocks (n : Nat) (f : Fn → Fn) (s : State) : (modFn n f s).blocks = s.blocks := rfl
@[simp] theorem modFn_eng (n : Nat) (f : Fn → Fn) (s : State) : (modFn n f s).eng = s.eng := rfl
@[simp] theorem modFn_coh (n : Nat) (f : Fn → Fn) (s : State) : (modFn n f s).coh = s.coh := rfl
@[simp] theorem modFn_worklists (n : Nat) (f : Fn → Fn) (s : State) : (modFn n f s).worklists = s.worklists := rfl

/-! modQueue -/

@[simp] theorem modQueue_ns (q : Nat) (f : Queue → Queue) (s : State) : (modQueue q f s).ns = s.ns := rfl
@[simp] theorem modQueue_mcyc (q : Nat) (f : Queue → Queue) (s : State) : (modQueue q f s).mcyc = s.mcyc := rfl
@[simp] theorem modQueue_agenda (q : Nat) (f : Queue → Queue) (s : State) : (modQueue q f s).agenda = s.agenda := rfl
@[simp] theorem modQueue_sched (q : Nat) (f : Queue → Queue) (s : State) : (modQueue q f s).sched = s.sched := rfl
@[simp] theorem modQueue_pace (q : Nat) (f : Queue → Queue) (s : State) : (modQueue q f s).pace = s.pace := rfl
@[simp] theorem modQueue_free (q : Nat) (f : Queue → Queue) (s : State) : (modQueue q f s).free = s.free := rfl
@[simp] theorem modQueue_nextId (q : Nat) (f : Queue → Queue) (s : State) : (modQueue q f s).nextId = s.nextId := rfl
@[simp] theorem modQueue_cur (q : Nat) (f : Queue → Queue) (s : State) : (modQueue q f s).cur = s.cur := rfl
@[simp] theorem modQueue_tried (q : Nat) (f : Queue → Queue) (s : State) : (modQueue q f s).tried = s.tried := rfl
@[simp] theorem modQueue_mem (q : Nat) (f : Queue → Queue) (s : State) : (modQueue q f s).mem = s.mem := rfl
@[simp] theorem modQueue_pkg (q : Nat) (f : Queue → Queue) (s : State) : (modQueue q f s).pkg = s.pkg := rfl
@[simp] theorem modQueue_mg (q : Nat) (f : Queue → Queue) (s : State) : (modQueue q f s).mg = s.mg := rfl
@[simp] theorem modQueue_ctxs (q : Nat) (f : Queue → Queue) (s : State) : (modQueue q f s).ctxs = s.ctxs := rfl
@[simp] theorem modQueue_faultQs (q : Nat) (f : Queue → Queue) (s : State) : (modQueue q f s).faultQs = s.faultQs := rfl
@[simp] theorem modQueue_tlbs (q : Nat) (f : Queue → Queue) (s : State) : (modQueue q f s).tlbs = s.tlbs := rfl
@[simp] theorem modQueue_launches (q : Nat) (f : Queue → Queue) (s : State) : (modQueue q f s).launches = s.launches := rfl
@[simp] theorem modQueue_blocks (q : Nat) (f : Queue → Queue) (s : State) : (modQueue q f s).blocks = s.blocks := rfl
@[simp] theorem modQueue_eng (q : Nat) (f : Queue → Queue) (s : State) : (modQueue q f s).eng = s.eng := rfl
@[simp] theorem modQueue_coh (q : Nat) (f : Queue → Queue) (s : State) : (modQueue q f s).coh = s.coh := rfl
@[simp] theorem modQueue_worklists (q : Nat) (f : Queue → Queue) (s : State) : (modQueue q f s).worklists = s.worklists := rfl

/-! modFq -/

@[simp] theorem modFq_ns (n : Nat) (f : FaultQ → FaultQ) (s : State) : (modFq n f s).ns = s.ns := rfl
@[simp] theorem modFq_mcyc (n : Nat) (f : FaultQ → FaultQ) (s : State) : (modFq n f s).mcyc = s.mcyc := rfl
@[simp] theorem modFq_agenda (n : Nat) (f : FaultQ → FaultQ) (s : State) : (modFq n f s).agenda = s.agenda := rfl
@[simp] theorem modFq_sched (n : Nat) (f : FaultQ → FaultQ) (s : State) : (modFq n f s).sched = s.sched := rfl
@[simp] theorem modFq_pace (n : Nat) (f : FaultQ → FaultQ) (s : State) : (modFq n f s).pace = s.pace := rfl
@[simp] theorem modFq_free (n : Nat) (f : FaultQ → FaultQ) (s : State) : (modFq n f s).free = s.free := rfl
@[simp] theorem modFq_nextId (n : Nat) (f : FaultQ → FaultQ) (s : State) : (modFq n f s).nextId = s.nextId := rfl
@[simp] theorem modFq_cur (n : Nat) (f : FaultQ → FaultQ) (s : State) : (modFq n f s).cur = s.cur := rfl
@[simp] theorem modFq_tried (n : Nat) (f : FaultQ → FaultQ) (s : State) : (modFq n f s).tried = s.tried := rfl
@[simp] theorem modFq_mem (n : Nat) (f : FaultQ → FaultQ) (s : State) : (modFq n f s).mem = s.mem := rfl
@[simp] theorem modFq_pkg (n : Nat) (f : FaultQ → FaultQ) (s : State) : (modFq n f s).pkg = s.pkg := rfl
@[simp] theorem modFq_mg (n : Nat) (f : FaultQ → FaultQ) (s : State) : (modFq n f s).mg = s.mg := rfl
@[simp] theorem modFq_queues (n : Nat) (f : FaultQ → FaultQ) (s : State) : (modFq n f s).queues = s.queues := rfl
@[simp] theorem modFq_ctxs (n : Nat) (f : FaultQ → FaultQ) (s : State) : (modFq n f s).ctxs = s.ctxs := rfl
@[simp] theorem modFq_tlbs (n : Nat) (f : FaultQ → FaultQ) (s : State) : (modFq n f s).tlbs = s.tlbs := rfl
@[simp] theorem modFq_launches (n : Nat) (f : FaultQ → FaultQ) (s : State) : (modFq n f s).launches = s.launches := rfl
@[simp] theorem modFq_blocks (n : Nat) (f : FaultQ → FaultQ) (s : State) : (modFq n f s).blocks = s.blocks := rfl
@[simp] theorem modFq_eng (n : Nat) (f : FaultQ → FaultQ) (s : State) : (modFq n f s).eng = s.eng := rfl
@[simp] theorem modFq_coh (n : Nat) (f : FaultQ → FaultQ) (s : State) : (modFq n f s).coh = s.coh := rfl
@[simp] theorem modFq_worklists (n : Nat) (f : FaultQ → FaultQ) (s : State) : (modFq n f s).worklists = s.worklists := rfl

/-! memWrite -/

@[simp] theorem memWrite_ns (a : Nat) (bs : List Byte) (s : State) : (memWrite a bs s).ns = s.ns := rfl
@[simp] theorem memWrite_mcyc (a : Nat) (bs : List Byte) (s : State) : (memWrite a bs s).mcyc = s.mcyc := rfl
@[simp] theorem memWrite_agenda (a : Nat) (bs : List Byte) (s : State) : (memWrite a bs s).agenda = s.agenda := rfl
@[simp] theorem memWrite_sched (a : Nat) (bs : List Byte) (s : State) : (memWrite a bs s).sched = s.sched := rfl
@[simp] theorem memWrite_pace (a : Nat) (bs : List Byte) (s : State) : (memWrite a bs s).pace = s.pace := rfl
@[simp] theorem memWrite_free (a : Nat) (bs : List Byte) (s : State) : (memWrite a bs s).free = s.free := rfl
@[simp] theorem memWrite_nextId (a : Nat) (bs : List Byte) (s : State) : (memWrite a bs s).nextId = s.nextId := rfl
@[simp] theorem memWrite_cur (a : Nat) (bs : List Byte) (s : State) : (memWrite a bs s).cur = s.cur := rfl
@[simp] theorem memWrite_tried (a : Nat) (bs : List Byte) (s : State) : (memWrite a bs s).tried = s.tried := rfl
@[simp] theorem memWrite_pkg (a : Nat) (bs : List Byte) (s : State) : (memWrite a bs s).pkg = s.pkg := rfl
@[simp] theorem memWrite_mg (a : Nat) (bs : List Byte) (s : State) : (memWrite a bs s).mg = s.mg := rfl
@[simp] theorem memWrite_queues (a : Nat) (bs : List Byte) (s : State) : (memWrite a bs s).queues = s.queues := rfl
@[simp] theorem memWrite_ctxs (a : Nat) (bs : List Byte) (s : State) : (memWrite a bs s).ctxs = s.ctxs := rfl
@[simp] theorem memWrite_faultQs (a : Nat) (bs : List Byte) (s : State) : (memWrite a bs s).faultQs = s.faultQs := rfl
@[simp] theorem memWrite_tlbs (a : Nat) (bs : List Byte) (s : State) : (memWrite a bs s).tlbs = s.tlbs := rfl
@[simp] theorem memWrite_launches (a : Nat) (bs : List Byte) (s : State) : (memWrite a bs s).launches = s.launches := rfl
@[simp] theorem memWrite_blocks (a : Nat) (bs : List Byte) (s : State) : (memWrite a bs s).blocks = s.blocks := rfl
@[simp] theorem memWrite_eng (a : Nat) (bs : List Byte) (s : State) : (memWrite a bs s).eng = s.eng := rfl
@[simp] theorem memWrite_coh (a : Nat) (bs : List Byte) (s : State) : (memWrite a bs s).coh = s.coh := rfl
@[simp] theorem memWrite_worklists (a : Nat) (bs : List Byte) (s : State) : (memWrite a bs s).worklists = s.worklists := rfl

/-! memWriteMask -/

@[simp] theorem memWriteMask_ns (a : Nat) (bs : List Byte) (mk : List Bool) (s : State) : (memWriteMask a bs mk s).ns = s.ns := rfl
@[simp] theorem memWriteMask_mcyc (a : Nat) (bs : List Byte) (mk : List Bool) (s : State) : (memWriteMask a bs mk s).mcyc = s.mcyc := rfl
@[simp] theorem memWriteMask_agenda (a : Nat) (bs : List Byte) (mk : List Bool) (s : State) : (memWriteMask a bs mk s).agenda = s.agenda := rfl
@[simp] theorem memWriteMask_sched (a : Nat) (bs : List Byte) (mk : List Bool) (s : State) : (memWriteMask a bs mk s).sched = s.sched := rfl
@[simp] theorem memWriteMask_pace (a : Nat) (bs : List Byte) (mk : List Bool) (s : State) : (memWriteMask a bs mk s).pace = s.pace := rfl
@[simp] theorem memWriteMask_free (a : Nat) (bs : List Byte) (mk : List Bool) (s : State) : (memWriteMask a bs mk s).free = s.free := rfl
@[simp] theorem memWriteMask_nextId (a : Nat) (bs : List Byte) (mk : List Bool) (s : State) : (memWriteMask a bs mk s).nextId = s.nextId := rfl
@[simp] theorem memWriteMask_cur (a : Nat) (bs : List Byte) (mk : List Bool) (s : State) : (memWriteMask a bs mk s).cur = s.cur := rfl
@[simp] theorem memWriteMask_tried (a : Nat) (bs : List Byte) (mk : List Bool) (s : State) : (memWriteMask a bs mk s).tried = s.tried := rfl
@[simp] theorem memWriteMask_pkg (a : Nat) (bs : List Byte) (mk : List Bool) (s : State) : (memWriteMask a bs mk s).pkg = s.pkg := rfl
@[simp] theorem memWriteMask_mg (a : Nat) (bs : List Byte) (mk : List Bool) (s : State) : (memWriteMask a bs mk s).mg = s.mg := rfl
@[simp] theorem memWriteMask_queues (a : Nat) (bs : List Byte) (mk : List Bool) (s : State) : (memWriteMask a bs mk s).queues = s.queues := rfl
@[simp] theorem memWriteMask_ctxs (a : Nat) (bs : List Byte) (mk : List Bool) (s : State) : (memWriteMask a bs mk s).ctxs = s.ctxs := rfl
@[simp] theorem memWriteMask_faultQs (a : Nat) (bs : List Byte) (mk : List Bool) (s : State) : (memWriteMask a bs mk s).faultQs = s.faultQs := rfl
@[simp] theorem memWriteMask_tlbs (a : Nat) (bs : List Byte) (mk : List Bool) (s : State) : (memWriteMask a bs mk s).tlbs = s.tlbs := rfl
@[simp] theorem memWriteMask_launches (a : Nat) (bs : List Byte) (mk : List Bool) (s : State) : (memWriteMask a bs mk s).launches = s.launches := rfl
@[simp] theorem memWriteMask_blocks (a : Nat) (bs : List Byte) (mk : List Bool) (s : State) : (memWriteMask a bs mk s).blocks = s.blocks := rfl
@[simp] theorem memWriteMask_eng (a : Nat) (bs : List Byte) (mk : List Bool) (s : State) : (memWriteMask a bs mk s).eng = s.eng := rfl
@[simp] theorem memWriteMask_coh (a : Nat) (bs : List Byte) (mk : List Bool) (s : State) : (memWriteMask a bs mk s).coh = s.coh := rfl
@[simp] theorem memWriteMask_worklists (a : Nat) (bs : List Byte) (mk : List Bool) (s : State) : (memWriteMask a bs mk s).worklists = s.worklists := rfl

/-! setTdm -/

@[simp] theorem setTdm_ns (c b : Nat) (s : State) : (setTdm c b s).ns = s.ns := rfl
@[simp] theorem setTdm_mcyc (c b : Nat) (s : State) : (setTdm c b s).mcyc = s.mcyc := rfl
@[simp] theorem setTdm_agenda (c b : Nat) (s : State) : (setTdm c b s).agenda = s.agenda := rfl
@[simp] theorem setTdm_sched (c b : Nat) (s : State) : (setTdm c b s).sched = s.sched := rfl
@[simp] theorem setTdm_pace (c b : Nat) (s : State) : (setTdm c b s).pace = s.pace := rfl
@[simp] theorem setTdm_free (c b : Nat) (s : State) : (setTdm c b s).free = s.free := rfl
@[simp] theorem setTdm_nextId (c b : Nat) (s : State) : (setTdm c b s).nextId = s.nextId := rfl
@[simp] theorem setTdm_cur (c b : Nat) (s : State) : (setTdm c b s).cur = s.cur := rfl
@[simp] theorem setTdm_tried (c b : Nat) (s : State) : (setTdm c b s).tried = s.tried := rfl
@[simp] theorem setTdm_mem (c b : Nat) (s : State) : (setTdm c b s).mem = s.mem := rfl
@[simp] theorem setTdm_pkg (c b : Nat) (s : State) : (setTdm c b s).pkg = s.pkg := rfl
@[simp] theorem setTdm_mg (c b : Nat) (s : State) : (setTdm c b s).mg = s.mg := rfl
@[simp] theorem setTdm_queues (c b : Nat) (s : State) : (setTdm c b s).queues = s.queues := rfl
@[simp] theorem setTdm_faultQs (c b : Nat) (s : State) : (setTdm c b s).faultQs = s.faultQs := rfl
@[simp] theorem setTdm_tlbs (c b : Nat) (s : State) : (setTdm c b s).tlbs = s.tlbs := rfl
@[simp] theorem setTdm_launches (c b : Nat) (s : State) : (setTdm c b s).launches = s.launches := rfl
@[simp] theorem setTdm_blocks (c b : Nat) (s : State) : (setTdm c b s).blocks = s.blocks := rfl
@[simp] theorem setTdm_eng (c b : Nat) (s : State) : (setTdm c b s).eng = s.eng := rfl
@[simp] theorem setTdm_coh (c b : Nat) (s : State) : (setTdm c b s).coh = s.coh := rfl
@[simp] theorem setTdm_worklists (c b : Nat) (s : State) : (setTdm c b s).worklists = s.worklists := rfl

/-! touch -/

@[simp] theorem touch_ns (c pa : Nat) (s : State) : (touch c pa s).ns = s.ns := rfl
@[simp] theorem touch_mcyc (c pa : Nat) (s : State) : (touch c pa s).mcyc = s.mcyc := rfl
@[simp] theorem touch_agenda (c pa : Nat) (s : State) : (touch c pa s).agenda = s.agenda := rfl
@[simp] theorem touch_sched (c pa : Nat) (s : State) : (touch c pa s).sched = s.sched := rfl
@[simp] theorem touch_pace (c pa : Nat) (s : State) : (touch c pa s).pace = s.pace := rfl
@[simp] theorem touch_free (c pa : Nat) (s : State) : (touch c pa s).free = s.free := rfl
@[simp] theorem touch_nextId (c pa : Nat) (s : State) : (touch c pa s).nextId = s.nextId := rfl
@[simp] theorem touch_cur (c pa : Nat) (s : State) : (touch c pa s).cur = s.cur := rfl
@[simp] theorem touch_tried (c pa : Nat) (s : State) : (touch c pa s).tried = s.tried := rfl
@[simp] theorem touch_mem (c pa : Nat) (s : State) : (touch c pa s).mem = s.mem := rfl
@[simp] theorem touch_pkg (c pa : Nat) (s : State) : (touch c pa s).pkg = s.pkg := rfl
@[simp] theorem touch_mg (c pa : Nat) (s : State) : (touch c pa s).mg = s.mg := rfl
@[simp] theorem touch_queues (c pa : Nat) (s : State) : (touch c pa s).queues = s.queues := rfl
@[simp] theorem touch_faultQs (c pa : Nat) (s : State) : (touch c pa s).faultQs = s.faultQs := rfl
@[simp] theorem touch_tlbs (c pa : Nat) (s : State) : (touch c pa s).tlbs = s.tlbs := rfl
@[simp] theorem touch_launches (c pa : Nat) (s : State) : (touch c pa s).launches = s.launches := rfl
@[simp] theorem touch_blocks (c pa : Nat) (s : State) : (touch c pa s).blocks = s.blocks := rfl
@[simp] theorem touch_eng (c pa : Nat) (s : State) : (touch c pa s).eng = s.eng := rfl
@[simp] theorem touch_coh (c pa : Nat) (s : State) : (touch c pa s).coh = s.coh := rfl
@[simp] theorem touch_worklists (c pa : Nat) (s : State) : (touch c pa s).worklists = s.worklists := rfl

/-! setCopy -/

@[simp] theorem setCopy_ns (c : Copy) (s : State) : (setCopy c s).ns = s.ns := rfl
@[simp] theorem setCopy_mcyc (c : Copy) (s : State) : (setCopy c s).mcyc = s.mcyc := rfl
@[simp] theorem setCopy_agenda (c : Copy) (s : State) : (setCopy c s).agenda = s.agenda := rfl
@[simp] theorem setCopy_sched (c : Copy) (s : State) : (setCopy c s).sched = s.sched := rfl
@[simp] theorem setCopy_pace (c : Copy) (s : State) : (setCopy c s).pace = s.pace := rfl
@[simp] theorem setCopy_free (c : Copy) (s : State) : (setCopy c s).free = s.free := rfl
@[simp] theorem setCopy_nextId (c : Copy) (s : State) : (setCopy c s).nextId = s.nextId := rfl
@[simp] theorem setCopy_cur (c : Copy) (s : State) : (setCopy c s).cur = s.cur := rfl
@[simp] theorem setCopy_tried (c : Copy) (s : State) : (setCopy c s).tried = s.tried := rfl
@[simp] theorem setCopy_mem (c : Copy) (s : State) : (setCopy c s).mem = s.mem := rfl
@[simp] theorem setCopy_pkg (c : Copy) (s : State) : (setCopy c s).pkg = s.pkg := rfl
@[simp] theorem setCopy_mg (c : Copy) (s : State) : (setCopy c s).mg = s.mg := rfl
@[simp] theorem setCopy_queues (c : Copy) (s : State) : (setCopy c s).queues = s.queues := rfl
@[simp] theorem setCopy_ctxs (c : Copy) (s : State) : (setCopy c s).ctxs = s.ctxs := rfl
@[simp] theorem setCopy_faultQs (c : Copy) (s : State) : (setCopy c s).faultQs = s.faultQs := rfl
@[simp] theorem setCopy_tlbs (c : Copy) (s : State) : (setCopy c s).tlbs = s.tlbs := rfl
@[simp] theorem setCopy_launches (c : Copy) (s : State) : (setCopy c s).launches = s.launches := rfl
@[simp] theorem setCopy_blocks (c : Copy) (s : State) : (setCopy c s).blocks = s.blocks := rfl
@[simp] theorem setCopy_eng (c : Copy) (s : State) : (setCopy c s).eng = s.eng := rfl
@[simp] theorem setCopy_worklists (c : Copy) (s : State) : (setCopy c s).worklists = s.worklists := rfl

/-! dropCopy -/

@[simp] theorem dropCopy_ns (a pa gsz : Nat) (s : State) : (dropCopy a pa gsz s).ns = s.ns := rfl
@[simp] theorem dropCopy_mcyc (a pa gsz : Nat) (s : State) : (dropCopy a pa gsz s).mcyc = s.mcyc := rfl
@[simp] theorem dropCopy_agenda (a pa gsz : Nat) (s : State) : (dropCopy a pa gsz s).agenda = s.agenda := rfl
@[simp] theorem dropCopy_sched (a pa gsz : Nat) (s : State) : (dropCopy a pa gsz s).sched = s.sched := rfl
@[simp] theorem dropCopy_pace (a pa gsz : Nat) (s : State) : (dropCopy a pa gsz s).pace = s.pace := rfl
@[simp] theorem dropCopy_free (a pa gsz : Nat) (s : State) : (dropCopy a pa gsz s).free = s.free := rfl
@[simp] theorem dropCopy_nextId (a pa gsz : Nat) (s : State) : (dropCopy a pa gsz s).nextId = s.nextId := rfl
@[simp] theorem dropCopy_cur (a pa gsz : Nat) (s : State) : (dropCopy a pa gsz s).cur = s.cur := rfl
@[simp] theorem dropCopy_tried (a pa gsz : Nat) (s : State) : (dropCopy a pa gsz s).tried = s.tried := rfl
@[simp] theorem dropCopy_mem (a pa gsz : Nat) (s : State) : (dropCopy a pa gsz s).mem = s.mem := rfl
@[simp] theorem dropCopy_pkg (a pa gsz : Nat) (s : State) : (dropCopy a pa gsz s).pkg = s.pkg := rfl
@[simp] theorem dropCopy_mg (a pa gsz : Nat) (s : State) : (dropCopy a pa gsz s).mg = s.mg := rfl
@[simp] theorem dropCopy_queues (a pa gsz : Nat) (s : State) : (dropCopy a pa gsz s).queues = s.queues := rfl
@[simp] theorem dropCopy_ctxs (a pa gsz : Nat) (s : State) : (dropCopy a pa gsz s).ctxs = s.ctxs := rfl
@[simp] theorem dropCopy_faultQs (a pa gsz : Nat) (s : State) : (dropCopy a pa gsz s).faultQs = s.faultQs := rfl
@[simp] theorem dropCopy_tlbs (a pa gsz : Nat) (s : State) : (dropCopy a pa gsz s).tlbs = s.tlbs := rfl
@[simp] theorem dropCopy_launches (a pa gsz : Nat) (s : State) : (dropCopy a pa gsz s).launches = s.launches := rfl
@[simp] theorem dropCopy_blocks (a pa gsz : Nat) (s : State) : (dropCopy a pa gsz s).blocks = s.blocks := rfl
@[simp] theorem dropCopy_eng (a pa gsz : Nat) (s : State) : (dropCopy a pa gsz s).eng = s.eng := rfl
@[simp] theorem dropCopy_worklists (a pa gsz : Nat) (s : State) : (dropCopy a pa gsz s).worklists = s.worklists := rfl

/-! fresh -/

@[simp] theorem fresh_ns (s : State) : (fresh s).2.ns = s.ns := rfl
@[simp] theorem fresh_mcyc (s : State) : (fresh s).2.mcyc = s.mcyc := rfl
@[simp] theorem fresh_agenda (s : State) : (fresh s).2.agenda = s.agenda := rfl
@[simp] theorem fresh_sched (s : State) : (fresh s).2.sched = s.sched := rfl
@[simp] theorem fresh_pace (s : State) : (fresh s).2.pace = s.pace := rfl
@[simp] theorem fresh_free (s : State) : (fresh s).2.free = s.free := rfl
@[simp] theorem fresh_cur (s : State) : (fresh s).2.cur = s.cur := rfl
@[simp] theorem fresh_tried (s : State) : (fresh s).2.tried = s.tried := rfl
@[simp] theorem fresh_mem (s : State) : (fresh s).2.mem = s.mem := rfl
@[simp] theorem fresh_pkg (s : State) : (fresh s).2.pkg = s.pkg := rfl
@[simp] theorem fresh_mg (s : State) : (fresh s).2.mg = s.mg := rfl
@[simp] theorem fresh_queues (s : State) : (fresh s).2.queues = s.queues := rfl
@[simp] theorem fresh_ctxs (s : State) : (fresh s).2.ctxs = s.ctxs := rfl
@[simp] theorem fresh_faultQs (s : State) : (fresh s).2.faultQs = s.faultQs := rfl
@[simp] theorem fresh_tlbs (s : State) : (fresh s).2.tlbs = s.tlbs := rfl
@[simp] theorem fresh_launches (s : State) : (fresh s).2.launches = s.launches := rfl
@[simp] theorem fresh_blocks (s : State) : (fresh s).2.blocks = s.blocks := rfl
@[simp] theorem fresh_eng (s : State) : (fresh s).2.eng = s.eng := rfl
@[simp] theorem fresh_coh (s : State) : (fresh s).2.coh = s.coh := rfl
@[simp] theorem fresh_worklists (s : State) : (fresh s).2.worklists = s.worklists := rfl

/-! kset -/

@[simp] theorem kset_gid (n : Nat) (v : W64) (g : Group) : (kset n v g).gid = g.gid := rfl
@[simp] theorem kset_ridx (n : Nat) (v : W64) (g : Group) : (kset n v g).ridx = g.ridx := rfl
@[simp] theorem kset_stack (n : Nat) (v : W64) (g : Group) : (kset n v g).stack = g.stack := rfl
@[simp] theorem kset_onChip (n : Nat) (v : W64) (g : Group) : (kset n v g).onChip = g.onChip := rfl
@[simp] theorem kset_turn (n : Nat) (v : W64) (g : Group) : (kset n v g).turn = g.turn := rfl
@[simp] theorem kset_m (n : Nat) (v : W64) (g : Group) : (kset n v g).m = g.m := rfl
@[simp] theorem kset_v (n : Nat) (v : W64) (g : Group) : (kset n v g).v = g.v := rfl
@[simp] theorem kset_ext (n : Nat) (v : W64) (g : Group) : (kset n v g).ext = g.ext := rfl
@[simp] theorem kset_role (n : Nat) (v : W64) (g : Group) : (kset n v g).role = g.role := rfl
@[simp] theorem kset_accBase (n : Nat) (v : W64) (g : Group) : (kset n v g).accBase = g.accBase := rfl
@[simp] theorem kset_accLim (n : Nat) (v : W64) (g : Group) : (kset n v g).accLim = g.accLim := rfl
@[simp] theorem kset_tvec (n : Nat) (v : W64) (g : Group) : (kset n v g).tvec = g.tvec := rfl
@[simp] theorem kset_trec (n : Nat) (v : W64) (g : Group) : (kset n v g).trec = g.trec := rfl
@[simp] theorem kset_dstk (n : Nat) (v : W64) (g : Group) : (kset n v g).dstk = g.dstk := rfl
@[simp] theorem kset_wlrec (n : Nat) (v : W64) (g : Group) : (kset n v g).wlrec = g.wlrec := rfl
@[simp] theorem kset_dsectl (n : Nat) (v : W64) (g : Group) : (kset n v g).dsectl = g.dsectl := rfl
@[simp] theorem kset_handler (n : Nat) (v : W64) (g : Group) : (kset n v g).handler = g.handler := rfl
@[simp] theorem kset_held (n : Nat) (v : W64) (g : Group) : (kset n v g).held = g.held := rfl
@[simp] theorem kset_flights (n : Nat) (v : W64) (g : Group) : (kset n v g).flights = g.flights := rfl
@[simp] theorem kset_pend (n : Nat) (v : W64) (g : Group) : (kset n v g).pend = g.pend := rfl
@[simp] theorem kset_busy (n : Nat) (v : W64) (g : Group) : (kset n v g).busy = g.busy := rfl
@[simp] theorem kset_marks (n : Nat) (v : W64) (g : Group) : (kset n v g).marks = g.marks := rfl
@[simp] theorem kset_seen (n : Nat) (v : W64) (g : Group) : (kset n v g).seen = g.seen := rfl
@[simp] theorem kset_gens (n : Nat) (v : W64) (g : Group) : (kset n v g).gens = g.gens := rfl
@[simp] theorem kset_ctrs (n : Nat) (v : W64) (g : Group) : (kset n v g).ctrs = g.ctrs := rfl
@[simp] theorem kset_window (n : Nat) (v : W64) (g : Group) : (kset n v g).window = g.window := rfl
@[simp] theorem kset_batch (n : Nat) (v : W64) (g : Group) : (kset n v g).batch = g.batch := rfl
@[simp] theorem kset_closed (n : Nat) (v : W64) (g : Group) : (kset n v g).closed = g.closed := rfl
@[simp] theorem kset_nextBatch (n : Nat) (v : W64) (g : Group) : (kset n v g).nextBatch = g.nextBatch := rfl
@[simp] theorem kset_run (n : Nat) (v : W64) (g : Group) : (kset n v g).run = g.run := rfl
@[simp] theorem kset_teamOps (n : Nat) (v : W64) (g : Group) : (kset n v g).teamOps = g.teamOps := rfl
@[simp] theorem kset_wlBound (n : Nat) (v : W64) (g : Group) : (kset n v g).wlBound = g.wlBound := rfl
@[simp] theorem kset_faultWait (n : Nat) (v : W64) (g : Group) : (kset n v g).faultWait = g.faultWait := rfl
@[simp] theorem kset_ahead (n : Nat) (v : W64) (g : Group) : (kset n v g).ahead = g.ahead := rfl
@[simp] theorem kset_waitFrom (n : Nat) (v : W64) (g : Group) : (kset n v g).waitFrom = g.waitFrom := rfl
@[simp] theorem kset_exited (n : Nat) (v : W64) (g : Group) : (kset n v g).exited = g.exited := rfl
@[simp] theorem kset_exitPc (n : Nat) (v : W64) (g : Group) : (kset n v g).exitPc = g.exitPc := rfl

/-! vset -/

@[simp] theorem vset_gid (n l : Nat) (v : W32) (g : Group) : (vset n l v g).gid = g.gid := rfl
@[simp] theorem vset_ridx (n l : Nat) (v : W32) (g : Group) : (vset n l v g).ridx = g.ridx := rfl
@[simp] theorem vset_stack (n l : Nat) (v : W32) (g : Group) : (vset n l v g).stack = g.stack := rfl
@[simp] theorem vset_onChip (n l : Nat) (v : W32) (g : Group) : (vset n l v g).onChip = g.onChip := rfl
@[simp] theorem vset_turn (n l : Nat) (v : W32) (g : Group) : (vset n l v g).turn = g.turn := rfl
@[simp] theorem vset_k (n l : Nat) (v : W32) (g : Group) : (vset n l v g).k = g.k := rfl
@[simp] theorem vset_m (n l : Nat) (v : W32) (g : Group) : (vset n l v g).m = g.m := rfl
@[simp] theorem vset_ext (n l : Nat) (v : W32) (g : Group) : (vset n l v g).ext = g.ext := rfl
@[simp] theorem vset_role (n l : Nat) (v : W32) (g : Group) : (vset n l v g).role = g.role := rfl
@[simp] theorem vset_accBase (n l : Nat) (v : W32) (g : Group) : (vset n l v g).accBase = g.accBase := rfl
@[simp] theorem vset_accLim (n l : Nat) (v : W32) (g : Group) : (vset n l v g).accLim = g.accLim := rfl
@[simp] theorem vset_tvec (n l : Nat) (v : W32) (g : Group) : (vset n l v g).tvec = g.tvec := rfl
@[simp] theorem vset_trec (n l : Nat) (v : W32) (g : Group) : (vset n l v g).trec = g.trec := rfl
@[simp] theorem vset_dstk (n l : Nat) (v : W32) (g : Group) : (vset n l v g).dstk = g.dstk := rfl
@[simp] theorem vset_wlrec (n l : Nat) (v : W32) (g : Group) : (vset n l v g).wlrec = g.wlrec := rfl
@[simp] theorem vset_dsectl (n l : Nat) (v : W32) (g : Group) : (vset n l v g).dsectl = g.dsectl := rfl
@[simp] theorem vset_handler (n l : Nat) (v : W32) (g : Group) : (vset n l v g).handler = g.handler := rfl
@[simp] theorem vset_held (n l : Nat) (v : W32) (g : Group) : (vset n l v g).held = g.held := rfl
@[simp] theorem vset_flights (n l : Nat) (v : W32) (g : Group) : (vset n l v g).flights = g.flights := rfl
@[simp] theorem vset_pend (n l : Nat) (v : W32) (g : Group) : (vset n l v g).pend = g.pend := rfl
@[simp] theorem vset_busy (n l : Nat) (v : W32) (g : Group) : (vset n l v g).busy = g.busy := rfl
@[simp] theorem vset_marks (n l : Nat) (v : W32) (g : Group) : (vset n l v g).marks = g.marks := rfl
@[simp] theorem vset_seen (n l : Nat) (v : W32) (g : Group) : (vset n l v g).seen = g.seen := rfl
@[simp] theorem vset_gens (n l : Nat) (v : W32) (g : Group) : (vset n l v g).gens = g.gens := rfl
@[simp] theorem vset_ctrs (n l : Nat) (v : W32) (g : Group) : (vset n l v g).ctrs = g.ctrs := rfl
@[simp] theorem vset_window (n l : Nat) (v : W32) (g : Group) : (vset n l v g).window = g.window := rfl
@[simp] theorem vset_batch (n l : Nat) (v : W32) (g : Group) : (vset n l v g).batch = g.batch := rfl
@[simp] theorem vset_closed (n l : Nat) (v : W32) (g : Group) : (vset n l v g).closed = g.closed := rfl
@[simp] theorem vset_nextBatch (n l : Nat) (v : W32) (g : Group) : (vset n l v g).nextBatch = g.nextBatch := rfl
@[simp] theorem vset_run (n l : Nat) (v : W32) (g : Group) : (vset n l v g).run = g.run := rfl
@[simp] theorem vset_teamOps (n l : Nat) (v : W32) (g : Group) : (vset n l v g).teamOps = g.teamOps := rfl
@[simp] theorem vset_wlBound (n l : Nat) (v : W32) (g : Group) : (vset n l v g).wlBound = g.wlBound := rfl
@[simp] theorem vset_faultWait (n l : Nat) (v : W32) (g : Group) : (vset n l v g).faultWait = g.faultWait := rfl
@[simp] theorem vset_ahead (n l : Nat) (v : W32) (g : Group) : (vset n l v g).ahead = g.ahead := rfl
@[simp] theorem vset_waitFrom (n l : Nat) (v : W32) (g : Group) : (vset n l v g).waitFrom = g.waitFrom := rfl
@[simp] theorem vset_exited (n l : Nat) (v : W32) (g : Group) : (vset n l v g).exited = g.exited := rfl
@[simp] theorem vset_exitPc (n l : Nat) (v : W32) (g : Group) : (vset n l v g).exitPc = g.exitPc := rfl

/-! pset -/

@[simp] theorem pset_gid (n l v : Nat) (g : Group) : (pset n l v g).gid = g.gid := rfl
@[simp] theorem pset_ridx (n l v : Nat) (g : Group) : (pset n l v g).ridx = g.ridx := rfl
@[simp] theorem pset_stack (n l v : Nat) (g : Group) : (pset n l v g).stack = g.stack := rfl
@[simp] theorem pset_onChip (n l v : Nat) (g : Group) : (pset n l v g).onChip = g.onChip := rfl
@[simp] theorem pset_turn (n l v : Nat) (g : Group) : (pset n l v g).turn = g.turn := rfl
@[simp] theorem pset_k (n l v : Nat) (g : Group) : (pset n l v g).k = g.k := rfl
@[simp] theorem pset_m (n l v : Nat) (g : Group) : (pset n l v g).m = g.m := rfl
@[simp] theorem pset_ext (n l v : Nat) (g : Group) : (pset n l v g).ext = g.ext := rfl
@[simp] theorem pset_role (n l v : Nat) (g : Group) : (pset n l v g).role = g.role := rfl
@[simp] theorem pset_accBase (n l v : Nat) (g : Group) : (pset n l v g).accBase = g.accBase := rfl
@[simp] theorem pset_accLim (n l v : Nat) (g : Group) : (pset n l v g).accLim = g.accLim := rfl
@[simp] theorem pset_tvec (n l v : Nat) (g : Group) : (pset n l v g).tvec = g.tvec := rfl
@[simp] theorem pset_trec (n l v : Nat) (g : Group) : (pset n l v g).trec = g.trec := rfl
@[simp] theorem pset_dstk (n l v : Nat) (g : Group) : (pset n l v g).dstk = g.dstk := rfl
@[simp] theorem pset_wlrec (n l v : Nat) (g : Group) : (pset n l v g).wlrec = g.wlrec := rfl
@[simp] theorem pset_dsectl (n l v : Nat) (g : Group) : (pset n l v g).dsectl = g.dsectl := rfl
@[simp] theorem pset_handler (n l v : Nat) (g : Group) : (pset n l v g).handler = g.handler := rfl
@[simp] theorem pset_held (n l v : Nat) (g : Group) : (pset n l v g).held = g.held := rfl
@[simp] theorem pset_flights (n l v : Nat) (g : Group) : (pset n l v g).flights = g.flights := rfl
@[simp] theorem pset_pend (n l v : Nat) (g : Group) : (pset n l v g).pend = g.pend := rfl
@[simp] theorem pset_busy (n l v : Nat) (g : Group) : (pset n l v g).busy = g.busy := rfl
@[simp] theorem pset_marks (n l v : Nat) (g : Group) : (pset n l v g).marks = g.marks := rfl
@[simp] theorem pset_seen (n l v : Nat) (g : Group) : (pset n l v g).seen = g.seen := rfl
@[simp] theorem pset_gens (n l v : Nat) (g : Group) : (pset n l v g).gens = g.gens := rfl
@[simp] theorem pset_ctrs (n l v : Nat) (g : Group) : (pset n l v g).ctrs = g.ctrs := rfl
@[simp] theorem pset_window (n l v : Nat) (g : Group) : (pset n l v g).window = g.window := rfl
@[simp] theorem pset_batch (n l v : Nat) (g : Group) : (pset n l v g).batch = g.batch := rfl
@[simp] theorem pset_closed (n l v : Nat) (g : Group) : (pset n l v g).closed = g.closed := rfl
@[simp] theorem pset_nextBatch (n l v : Nat) (g : Group) : (pset n l v g).nextBatch = g.nextBatch := rfl
@[simp] theorem pset_run (n l v : Nat) (g : Group) : (pset n l v g).run = g.run := rfl
@[simp] theorem pset_teamOps (n l v : Nat) (g : Group) : (pset n l v g).teamOps = g.teamOps := rfl
@[simp] theorem pset_wlBound (n l v : Nat) (g : Group) : (pset n l v g).wlBound = g.wlBound := rfl
@[simp] theorem pset_faultWait (n l v : Nat) (g : Group) : (pset n l v g).faultWait = g.faultWait := rfl
@[simp] theorem pset_ahead (n l v : Nat) (g : Group) : (pset n l v g).ahead = g.ahead := rfl
@[simp] theorem pset_waitFrom (n l v : Nat) (g : Group) : (pset n l v g).waitFrom = g.waitFrom := rfl
@[simp] theorem pset_exited (n l v : Nat) (g : Group) : (pset n l v g).exited = g.exited := rfl
@[simp] theorem pset_exitPc (n l v : Nat) (g : Group) : (pset n l v g).exitPc = g.exitPc := rfl

/-! rise -/

@[simp] theorem rise_gid (p op : Nat) (g : Group) : (rise p op g).gid = g.gid := rfl
@[simp] theorem rise_ridx (p op : Nat) (g : Group) : (rise p op g).ridx = g.ridx := rfl
@[simp] theorem rise_stack (p op : Nat) (g : Group) : (rise p op g).stack = g.stack := rfl
@[simp] theorem rise_onChip (p op : Nat) (g : Group) : (rise p op g).onChip = g.onChip := rfl
@[simp] theorem rise_turn (p op : Nat) (g : Group) : (rise p op g).turn = g.turn := rfl
@[simp] theorem rise_k (p op : Nat) (g : Group) : (rise p op g).k = g.k := rfl
@[simp] theorem rise_m (p op : Nat) (g : Group) : (rise p op g).m = g.m := rfl
@[simp] theorem rise_v (p op : Nat) (g : Group) : (rise p op g).v = g.v := rfl
@[simp] theorem rise_ext (p op : Nat) (g : Group) : (rise p op g).ext = g.ext := rfl
@[simp] theorem rise_role (p op : Nat) (g : Group) : (rise p op g).role = g.role := rfl
@[simp] theorem rise_accBase (p op : Nat) (g : Group) : (rise p op g).accBase = g.accBase := rfl
@[simp] theorem rise_accLim (p op : Nat) (g : Group) : (rise p op g).accLim = g.accLim := rfl
@[simp] theorem rise_tvec (p op : Nat) (g : Group) : (rise p op g).tvec = g.tvec := rfl
@[simp] theorem rise_trec (p op : Nat) (g : Group) : (rise p op g).trec = g.trec := rfl
@[simp] theorem rise_dstk (p op : Nat) (g : Group) : (rise p op g).dstk = g.dstk := rfl
@[simp] theorem rise_wlrec (p op : Nat) (g : Group) : (rise p op g).wlrec = g.wlrec := rfl
@[simp] theorem rise_dsectl (p op : Nat) (g : Group) : (rise p op g).dsectl = g.dsectl := rfl
@[simp] theorem rise_handler (p op : Nat) (g : Group) : (rise p op g).handler = g.handler := rfl
@[simp] theorem rise_held (p op : Nat) (g : Group) : (rise p op g).held = g.held := rfl
@[simp] theorem rise_pend (p op : Nat) (g : Group) : (rise p op g).pend = g.pend := rfl
@[simp] theorem rise_busy (p op : Nat) (g : Group) : (rise p op g).busy = g.busy := rfl
@[simp] theorem rise_marks (p op : Nat) (g : Group) : (rise p op g).marks = g.marks := rfl
@[simp] theorem rise_seen (p op : Nat) (g : Group) : (rise p op g).seen = g.seen := rfl
@[simp] theorem rise_gens (p op : Nat) (g : Group) : (rise p op g).gens = g.gens := rfl
@[simp] theorem rise_ctrs (p op : Nat) (g : Group) : (rise p op g).ctrs = g.ctrs := rfl
@[simp] theorem rise_window (p op : Nat) (g : Group) : (rise p op g).window = g.window := rfl
@[simp] theorem rise_batch (p op : Nat) (g : Group) : (rise p op g).batch = g.batch := rfl
@[simp] theorem rise_closed (p op : Nat) (g : Group) : (rise p op g).closed = g.closed := rfl
@[simp] theorem rise_nextBatch (p op : Nat) (g : Group) : (rise p op g).nextBatch = g.nextBatch := rfl
@[simp] theorem rise_run (p op : Nat) (g : Group) : (rise p op g).run = g.run := rfl
@[simp] theorem rise_teamOps (p op : Nat) (g : Group) : (rise p op g).teamOps = g.teamOps := rfl
@[simp] theorem rise_wlBound (p op : Nat) (g : Group) : (rise p op g).wlBound = g.wlBound := rfl
@[simp] theorem rise_faultWait (p op : Nat) (g : Group) : (rise p op g).faultWait = g.faultWait := rfl
@[simp] theorem rise_ahead (p op : Nat) (g : Group) : (rise p op g).ahead = g.ahead := rfl
@[simp] theorem rise_waitFrom (p op : Nat) (g : Group) : (rise p op g).waitFrom = g.waitFrom := rfl
@[simp] theorem rise_exited (p op : Nat) (g : Group) : (rise p op g).exited = g.exited := rfl
@[simp] theorem rise_exitPc (p op : Nat) (g : Group) : (rise p op g).exitPc = g.exitPc := rfl

/-! complete -/

@[simp] theorem complete_gid (op : Nat) (g : Group) : (complete op g).gid = g.gid := rfl
@[simp] theorem complete_ridx (op : Nat) (g : Group) : (complete op g).ridx = g.ridx := rfl
@[simp] theorem complete_stack (op : Nat) (g : Group) : (complete op g).stack = g.stack := rfl
@[simp] theorem complete_onChip (op : Nat) (g : Group) : (complete op g).onChip = g.onChip := rfl
@[simp] theorem complete_turn (op : Nat) (g : Group) : (complete op g).turn = g.turn := rfl
@[simp] theorem complete_k (op : Nat) (g : Group) : (complete op g).k = g.k := rfl
@[simp] theorem complete_m (op : Nat) (g : Group) : (complete op g).m = g.m := rfl
@[simp] theorem complete_v (op : Nat) (g : Group) : (complete op g).v = g.v := rfl
@[simp] theorem complete_ext (op : Nat) (g : Group) : (complete op g).ext = g.ext := rfl
@[simp] theorem complete_role (op : Nat) (g : Group) : (complete op g).role = g.role := rfl
@[simp] theorem complete_accBase (op : Nat) (g : Group) : (complete op g).accBase = g.accBase := rfl
@[simp] theorem complete_accLim (op : Nat) (g : Group) : (complete op g).accLim = g.accLim := rfl
@[simp] theorem complete_tvec (op : Nat) (g : Group) : (complete op g).tvec = g.tvec := rfl
@[simp] theorem complete_trec (op : Nat) (g : Group) : (complete op g).trec = g.trec := rfl
@[simp] theorem complete_dstk (op : Nat) (g : Group) : (complete op g).dstk = g.dstk := rfl
@[simp] theorem complete_wlrec (op : Nat) (g : Group) : (complete op g).wlrec = g.wlrec := rfl
@[simp] theorem complete_dsectl (op : Nat) (g : Group) : (complete op g).dsectl = g.dsectl := rfl
@[simp] theorem complete_handler (op : Nat) (g : Group) : (complete op g).handler = g.handler := rfl
@[simp] theorem complete_held (op : Nat) (g : Group) : (complete op g).held = g.held := rfl
@[simp] theorem complete_pend (op : Nat) (g : Group) : (complete op g).pend = g.pend := rfl
@[simp] theorem complete_busy (op : Nat) (g : Group) : (complete op g).busy = g.busy := rfl
@[simp] theorem complete_marks (op : Nat) (g : Group) : (complete op g).marks = g.marks := rfl
@[simp] theorem complete_seen (op : Nat) (g : Group) : (complete op g).seen = g.seen := rfl
@[simp] theorem complete_gens (op : Nat) (g : Group) : (complete op g).gens = g.gens := rfl
@[simp] theorem complete_ctrs (op : Nat) (g : Group) : (complete op g).ctrs = g.ctrs := rfl
@[simp] theorem complete_window (op : Nat) (g : Group) : (complete op g).window = g.window := rfl
@[simp] theorem complete_batch (op : Nat) (g : Group) : (complete op g).batch = g.batch := rfl
@[simp] theorem complete_closed (op : Nat) (g : Group) : (complete op g).closed = g.closed := rfl
@[simp] theorem complete_nextBatch (op : Nat) (g : Group) : (complete op g).nextBatch = g.nextBatch := rfl
@[simp] theorem complete_run (op : Nat) (g : Group) : (complete op g).run = g.run := rfl
@[simp] theorem complete_teamOps (op : Nat) (g : Group) : (complete op g).teamOps = g.teamOps := rfl
@[simp] theorem complete_wlBound (op : Nat) (g : Group) : (complete op g).wlBound = g.wlBound := rfl
@[simp] theorem complete_faultWait (op : Nat) (g : Group) : (complete op g).faultWait = g.faultWait := rfl
@[simp] theorem complete_ahead (op : Nat) (g : Group) : (complete op g).ahead = g.ahead := rfl
@[simp] theorem complete_waitFrom (op : Nat) (g : Group) : (complete op g).waitFrom = g.waitFrom := rfl
@[simp] theorem complete_exited (op : Nat) (g : Group) : (complete op g).exited = g.exited := rfl
@[simp] theorem complete_exitPc (op : Nat) (g : Group) : (complete op g).exitPc = g.exitPc := rfl

/-! modEntries -/

@[simp] theorem modEntries_gid (f : Entry → Entry) (g : Group) : (modEntries f g).gid = g.gid := rfl
@[simp] theorem modEntries_ridx (f : Entry → Entry) (g : Group) : (modEntries f g).ridx = g.ridx := rfl
@[simp] theorem modEntries_onChip (f : Entry → Entry) (g : Group) : (modEntries f g).onChip = g.onChip := rfl
@[simp] theorem modEntries_turn (f : Entry → Entry) (g : Group) : (modEntries f g).turn = g.turn := rfl
@[simp] theorem modEntries_k (f : Entry → Entry) (g : Group) : (modEntries f g).k = g.k := rfl
@[simp] theorem modEntries_m (f : Entry → Entry) (g : Group) : (modEntries f g).m = g.m := rfl
@[simp] theorem modEntries_v (f : Entry → Entry) (g : Group) : (modEntries f g).v = g.v := rfl
@[simp] theorem modEntries_ext (f : Entry → Entry) (g : Group) : (modEntries f g).ext = g.ext := rfl
@[simp] theorem modEntries_role (f : Entry → Entry) (g : Group) : (modEntries f g).role = g.role := rfl
@[simp] theorem modEntries_accBase (f : Entry → Entry) (g : Group) : (modEntries f g).accBase = g.accBase := rfl
@[simp] theorem modEntries_accLim (f : Entry → Entry) (g : Group) : (modEntries f g).accLim = g.accLim := rfl
@[simp] theorem modEntries_tvec (f : Entry → Entry) (g : Group) : (modEntries f g).tvec = g.tvec := rfl
@[simp] theorem modEntries_trec (f : Entry → Entry) (g : Group) : (modEntries f g).trec = g.trec := rfl
@[simp] theorem modEntries_dstk (f : Entry → Entry) (g : Group) : (modEntries f g).dstk = g.dstk := rfl
@[simp] theorem modEntries_wlrec (f : Entry → Entry) (g : Group) : (modEntries f g).wlrec = g.wlrec := rfl
@[simp] theorem modEntries_dsectl (f : Entry → Entry) (g : Group) : (modEntries f g).dsectl = g.dsectl := rfl
@[simp] theorem modEntries_handler (f : Entry → Entry) (g : Group) : (modEntries f g).handler = g.handler := rfl
@[simp] theorem modEntries_held (f : Entry → Entry) (g : Group) : (modEntries f g).held = g.held := rfl
@[simp] theorem modEntries_flights (f : Entry → Entry) (g : Group) : (modEntries f g).flights = g.flights := rfl
@[simp] theorem modEntries_pend (f : Entry → Entry) (g : Group) : (modEntries f g).pend = g.pend := rfl
@[simp] theorem modEntries_busy (f : Entry → Entry) (g : Group) : (modEntries f g).busy = g.busy := rfl
@[simp] theorem modEntries_marks (f : Entry → Entry) (g : Group) : (modEntries f g).marks = g.marks := rfl
@[simp] theorem modEntries_seen (f : Entry → Entry) (g : Group) : (modEntries f g).seen = g.seen := rfl
@[simp] theorem modEntries_gens (f : Entry → Entry) (g : Group) : (modEntries f g).gens = g.gens := rfl
@[simp] theorem modEntries_ctrs (f : Entry → Entry) (g : Group) : (modEntries f g).ctrs = g.ctrs := rfl
@[simp] theorem modEntries_window (f : Entry → Entry) (g : Group) : (modEntries f g).window = g.window := rfl
@[simp] theorem modEntries_batch (f : Entry → Entry) (g : Group) : (modEntries f g).batch = g.batch := rfl
@[simp] theorem modEntries_closed (f : Entry → Entry) (g : Group) : (modEntries f g).closed = g.closed := rfl
@[simp] theorem modEntries_nextBatch (f : Entry → Entry) (g : Group) : (modEntries f g).nextBatch = g.nextBatch := rfl
@[simp] theorem modEntries_run (f : Entry → Entry) (g : Group) : (modEntries f g).run = g.run := rfl
@[simp] theorem modEntries_teamOps (f : Entry → Entry) (g : Group) : (modEntries f g).teamOps = g.teamOps := rfl
@[simp] theorem modEntries_wlBound (f : Entry → Entry) (g : Group) : (modEntries f g).wlBound = g.wlBound := rfl
@[simp] theorem modEntries_faultWait (f : Entry → Entry) (g : Group) : (modEntries f g).faultWait = g.faultWait := rfl
@[simp] theorem modEntries_ahead (f : Entry → Entry) (g : Group) : (modEntries f g).ahead = g.ahead := rfl
@[simp] theorem modEntries_waitFrom (f : Entry → Entry) (g : Group) : (modEntries f g).waitFrom = g.waitFrom := rfl
@[simp] theorem modEntries_exited (f : Entry → Entry) (g : Group) : (modEntries f g).exited = g.exited := rfl
@[simp] theorem modEntries_exitPc (f : Entry → Entry) (g : Group) : (modEntries f g).exitPc = g.exitPc := rfl

/-! mset and modEntry -/

@[simp] theorem mset_gid (n : Nat) (v : Mask) (g : Group) : (mset n v g).gid = g.gid := by unfold mset; split <;> rfl
@[simp] theorem mset_ridx (n : Nat) (v : Mask) (g : Group) : (mset n v g).ridx = g.ridx := by unfold mset; split <;> rfl
@[simp] theorem mset_stack (n : Nat) (v : Mask) (g : Group) : (mset n v g).stack = g.stack := by unfold mset; split <;> rfl
@[simp] theorem mset_onChip (n : Nat) (v : Mask) (g : Group) : (mset n v g).onChip = g.onChip := by unfold mset; split <;> rfl
@[simp] theorem mset_turn (n : Nat) (v : Mask) (g : Group) : (mset n v g).turn = g.turn := by unfold mset; split <;> rfl
@[simp] theorem mset_k (n : Nat) (v : Mask) (g : Group) : (mset n v g).k = g.k := by unfold mset; split <;> rfl
@[simp] theorem mset_v (n : Nat) (v : Mask) (g : Group) : (mset n v g).v = g.v := by unfold mset; split <;> rfl
@[simp] theorem mset_ext (n : Nat) (v : Mask) (g : Group) : (mset n v g).ext = g.ext := by unfold mset; split <;> rfl
@[simp] theorem mset_role (n : Nat) (v : Mask) (g : Group) : (mset n v g).role = g.role := by unfold mset; split <;> rfl
@[simp] theorem mset_accBase (n : Nat) (v : Mask) (g : Group) : (mset n v g).accBase = g.accBase := by unfold mset; split <;> rfl
@[simp] theorem mset_accLim (n : Nat) (v : Mask) (g : Group) : (mset n v g).accLim = g.accLim := by unfold mset; split <;> rfl
@[simp] theorem mset_tvec (n : Nat) (v : Mask) (g : Group) : (mset n v g).tvec = g.tvec := by unfold mset; split <;> rfl
@[simp] theorem mset_trec (n : Nat) (v : Mask) (g : Group) : (mset n v g).trec = g.trec := by unfold mset; split <;> rfl
@[simp] theorem mset_dstk (n : Nat) (v : Mask) (g : Group) : (mset n v g).dstk = g.dstk := by unfold mset; split <;> rfl
@[simp] theorem mset_wlrec (n : Nat) (v : Mask) (g : Group) : (mset n v g).wlrec = g.wlrec := by unfold mset; split <;> rfl
@[simp] theorem mset_dsectl (n : Nat) (v : Mask) (g : Group) : (mset n v g).dsectl = g.dsectl := by unfold mset; split <;> rfl
@[simp] theorem mset_handler (n : Nat) (v : Mask) (g : Group) : (mset n v g).handler = g.handler := by unfold mset; split <;> rfl
@[simp] theorem mset_held (n : Nat) (v : Mask) (g : Group) : (mset n v g).held = g.held := by unfold mset; split <;> rfl
@[simp] theorem mset_flights (n : Nat) (v : Mask) (g : Group) : (mset n v g).flights = g.flights := by unfold mset; split <;> rfl
@[simp] theorem mset_pend (n : Nat) (v : Mask) (g : Group) : (mset n v g).pend = g.pend := by unfold mset; split <;> rfl
@[simp] theorem mset_busy (n : Nat) (v : Mask) (g : Group) : (mset n v g).busy = g.busy := by unfold mset; split <;> rfl
@[simp] theorem mset_marks (n : Nat) (v : Mask) (g : Group) : (mset n v g).marks = g.marks := by unfold mset; split <;> rfl
@[simp] theorem mset_seen (n : Nat) (v : Mask) (g : Group) : (mset n v g).seen = g.seen := by unfold mset; split <;> rfl
@[simp] theorem mset_gens (n : Nat) (v : Mask) (g : Group) : (mset n v g).gens = g.gens := by unfold mset; split <;> rfl
@[simp] theorem mset_ctrs (n : Nat) (v : Mask) (g : Group) : (mset n v g).ctrs = g.ctrs := by unfold mset; split <;> rfl
@[simp] theorem mset_window (n : Nat) (v : Mask) (g : Group) : (mset n v g).window = g.window := by unfold mset; split <;> rfl
@[simp] theorem mset_batch (n : Nat) (v : Mask) (g : Group) : (mset n v g).batch = g.batch := by unfold mset; split <;> rfl
@[simp] theorem mset_closed (n : Nat) (v : Mask) (g : Group) : (mset n v g).closed = g.closed := by unfold mset; split <;> rfl
@[simp] theorem mset_nextBatch (n : Nat) (v : Mask) (g : Group) : (mset n v g).nextBatch = g.nextBatch := by unfold mset; split <;> rfl
@[simp] theorem mset_run (n : Nat) (v : Mask) (g : Group) : (mset n v g).run = g.run := by unfold mset; split <;> rfl
@[simp] theorem mset_teamOps (n : Nat) (v : Mask) (g : Group) : (mset n v g).teamOps = g.teamOps := by unfold mset; split <;> rfl
@[simp] theorem mset_wlBound (n : Nat) (v : Mask) (g : Group) : (mset n v g).wlBound = g.wlBound := by unfold mset; split <;> rfl
@[simp] theorem mset_faultWait (n : Nat) (v : Mask) (g : Group) : (mset n v g).faultWait = g.faultWait := by unfold mset; split <;> rfl
@[simp] theorem mset_ahead (n : Nat) (v : Mask) (g : Group) : (mset n v g).ahead = g.ahead := by unfold mset; split <;> rfl
@[simp] theorem mset_waitFrom (n : Nat) (v : Mask) (g : Group) : (mset n v g).waitFrom = g.waitFrom := by unfold mset; split <;> rfl
@[simp] theorem mset_exited (n : Nat) (v : Mask) (g : Group) : (mset n v g).exited = g.exited := by unfold mset; split <;> rfl
@[simp] theorem modEntry_gid (low : Bool) (f : Entry → Entry) (g : Group) : (modEntry low f g).gid = g.gid := by
  unfold modEntry; split <;> first | rfl | (split <;> rfl)
@[simp] theorem modEntry_ridx (low : Bool) (f : Entry → Entry) (g : Group) : (modEntry low f g).ridx = g.ridx := by
  unfold modEntry; split <;> first | rfl | (split <;> rfl)
@[simp] theorem modEntry_onChip (low : Bool) (f : Entry → Entry) (g : Group) : (modEntry low f g).onChip = g.onChip := by
  unfold modEntry; split <;> first | rfl | (split <;> rfl)
@[simp] theorem modEntry_turn (low : Bool) (f : Entry → Entry) (g : Group) : (modEntry low f g).turn = g.turn := by
  unfold modEntry; split <;> first | rfl | (split <;> rfl)
@[simp] theorem modEntry_k (low : Bool) (f : Entry → Entry) (g : Group) : (modEntry low f g).k = g.k := by
  unfold modEntry; split <;> first | rfl | (split <;> rfl)
@[simp] theorem modEntry_m (low : Bool) (f : Entry → Entry) (g : Group) : (modEntry low f g).m = g.m := by
  unfold modEntry; split <;> first | rfl | (split <;> rfl)
@[simp] theorem modEntry_v (low : Bool) (f : Entry → Entry) (g : Group) : (modEntry low f g).v = g.v := by
  unfold modEntry; split <;> first | rfl | (split <;> rfl)
@[simp] theorem modEntry_ext (low : Bool) (f : Entry → Entry) (g : Group) : (modEntry low f g).ext = g.ext := by
  unfold modEntry; split <;> first | rfl | (split <;> rfl)
@[simp] theorem modEntry_role (low : Bool) (f : Entry → Entry) (g : Group) : (modEntry low f g).role = g.role := by
  unfold modEntry; split <;> first | rfl | (split <;> rfl)
@[simp] theorem modEntry_accBase (low : Bool) (f : Entry → Entry) (g : Group) : (modEntry low f g).accBase = g.accBase := by
  unfold modEntry; split <;> first | rfl | (split <;> rfl)
@[simp] theorem modEntry_accLim (low : Bool) (f : Entry → Entry) (g : Group) : (modEntry low f g).accLim = g.accLim := by
  unfold modEntry; split <;> first | rfl | (split <;> rfl)
@[simp] theorem modEntry_tvec (low : Bool) (f : Entry → Entry) (g : Group) : (modEntry low f g).tvec = g.tvec := by
  unfold modEntry; split <;> first | rfl | (split <;> rfl)
@[simp] theorem modEntry_trec (low : Bool) (f : Entry → Entry) (g : Group) : (modEntry low f g).trec = g.trec := by
  unfold modEntry; split <;> first | rfl | (split <;> rfl)
@[simp] theorem modEntry_dstk (low : Bool) (f : Entry → Entry) (g : Group) : (modEntry low f g).dstk = g.dstk := by
  unfold modEntry; split <;> first | rfl | (split <;> rfl)
@[simp] theorem modEntry_wlrec (low : Bool) (f : Entry → Entry) (g : Group) : (modEntry low f g).wlrec = g.wlrec := by
  unfold modEntry; split <;> first | rfl | (split <;> rfl)
@[simp] theorem modEntry_dsectl (low : Bool) (f : Entry → Entry) (g : Group) : (modEntry low f g).dsectl = g.dsectl := by
  unfold modEntry; split <;> first | rfl | (split <;> rfl)
@[simp] theorem modEntry_handler (low : Bool) (f : Entry → Entry) (g : Group) : (modEntry low f g).handler = g.handler := by
  unfold modEntry; split <;> first | rfl | (split <;> rfl)
@[simp] theorem modEntry_held (low : Bool) (f : Entry → Entry) (g : Group) : (modEntry low f g).held = g.held := by
  unfold modEntry; split <;> first | rfl | (split <;> rfl)
@[simp] theorem modEntry_flights (low : Bool) (f : Entry → Entry) (g : Group) : (modEntry low f g).flights = g.flights := by
  unfold modEntry; split <;> first | rfl | (split <;> rfl)
@[simp] theorem modEntry_pend (low : Bool) (f : Entry → Entry) (g : Group) : (modEntry low f g).pend = g.pend := by
  unfold modEntry; split <;> first | rfl | (split <;> rfl)
@[simp] theorem modEntry_busy (low : Bool) (f : Entry → Entry) (g : Group) : (modEntry low f g).busy = g.busy := by
  unfold modEntry; split <;> first | rfl | (split <;> rfl)
@[simp] theorem modEntry_marks (low : Bool) (f : Entry → Entry) (g : Group) : (modEntry low f g).marks = g.marks := by
  unfold modEntry; split <;> first | rfl | (split <;> rfl)
@[simp] theorem modEntry_seen (low : Bool) (f : Entry → Entry) (g : Group) : (modEntry low f g).seen = g.seen := by
  unfold modEntry; split <;> first | rfl | (split <;> rfl)
@[simp] theorem modEntry_gens (low : Bool) (f : Entry → Entry) (g : Group) : (modEntry low f g).gens = g.gens := by
  unfold modEntry; split <;> first | rfl | (split <;> rfl)
@[simp] theorem modEntry_ctrs (low : Bool) (f : Entry → Entry) (g : Group) : (modEntry low f g).ctrs = g.ctrs := by
  unfold modEntry; split <;> first | rfl | (split <;> rfl)
@[simp] theorem modEntry_window (low : Bool) (f : Entry → Entry) (g : Group) : (modEntry low f g).window = g.window := by
  unfold modEntry; split <;> first | rfl | (split <;> rfl)
@[simp] theorem modEntry_batch (low : Bool) (f : Entry → Entry) (g : Group) : (modEntry low f g).batch = g.batch := by
  unfold modEntry; split <;> first | rfl | (split <;> rfl)
@[simp] theorem modEntry_closed (low : Bool) (f : Entry → Entry) (g : Group) : (modEntry low f g).closed = g.closed := by
  unfold modEntry; split <;> first | rfl | (split <;> rfl)
@[simp] theorem modEntry_nextBatch (low : Bool) (f : Entry → Entry) (g : Group) : (modEntry low f g).nextBatch = g.nextBatch := by
  unfold modEntry; split <;> first | rfl | (split <;> rfl)
@[simp] theorem modEntry_run (low : Bool) (f : Entry → Entry) (g : Group) : (modEntry low f g).run = g.run := by
  unfold modEntry; split <;> first | rfl | (split <;> rfl)
@[simp] theorem modEntry_teamOps (low : Bool) (f : Entry → Entry) (g : Group) : (modEntry low f g).teamOps = g.teamOps := by
  unfold modEntry; split <;> first | rfl | (split <;> rfl)
@[simp] theorem modEntry_wlBound (low : Bool) (f : Entry → Entry) (g : Group) : (modEntry low f g).wlBound = g.wlBound := by
  unfold modEntry; split <;> first | rfl | (split <;> rfl)
@[simp] theorem modEntry_faultWait (low : Bool) (f : Entry → Entry) (g : Group) : (modEntry low f g).faultWait = g.faultWait := by
  unfold modEntry; split <;> first | rfl | (split <;> rfl)
@[simp] theorem modEntry_ahead (low : Bool) (f : Entry → Entry) (g : Group) : (modEntry low f g).ahead = g.ahead := by
  unfold modEntry; split <;> first | rfl | (split <;> rfl)
@[simp] theorem modEntry_waitFrom (low : Bool) (f : Entry → Entry) (g : Group) : (modEntry low f g).waitFrom = g.waitFrom := by
  unfold modEntry; split <;> first | rfl | (split <;> rfl)
@[simp] theorem modEntry_exited (low : Bool) (f : Entry → Entry) (g : Group) : (modEntry low f g).exited = g.exited := by
  unfold modEntry; split <;> first | rfl | (split <;> rfl)

/-! postCycles -/

@[simp] theorem postCycles_ns (n : Nat) (ev : Instr) (s : State) : (postCycles n ev s).ns = s.ns := rfl
@[simp] theorem postCycles_mcyc (n : Nat) (ev : Instr) (s : State) : (postCycles n ev s).mcyc = s.mcyc := rfl
@[simp] theorem postCycles_sched (n : Nat) (ev : Instr) (s : State) : (postCycles n ev s).sched = s.sched := rfl
@[simp] theorem postCycles_pace (n : Nat) (ev : Instr) (s : State) : (postCycles n ev s).pace = s.pace := rfl
@[simp] theorem postCycles_free (n : Nat) (ev : Instr) (s : State) : (postCycles n ev s).free = s.free := rfl
@[simp] theorem postCycles_nextId (n : Nat) (ev : Instr) (s : State) : (postCycles n ev s).nextId = s.nextId := rfl
@[simp] theorem postCycles_cur (n : Nat) (ev : Instr) (s : State) : (postCycles n ev s).cur = s.cur := rfl
@[simp] theorem postCycles_tried (n : Nat) (ev : Instr) (s : State) : (postCycles n ev s).tried = s.tried := rfl
@[simp] theorem postCycles_mem (n : Nat) (ev : Instr) (s : State) : (postCycles n ev s).mem = s.mem := rfl
@[simp] theorem postCycles_pkg (n : Nat) (ev : Instr) (s : State) : (postCycles n ev s).pkg = s.pkg := rfl
@[simp] theorem postCycles_mg (n : Nat) (ev : Instr) (s : State) : (postCycles n ev s).mg = s.mg := rfl
@[simp] theorem postCycles_queues (n : Nat) (ev : Instr) (s : State) : (postCycles n ev s).queues = s.queues := rfl
@[simp] theorem postCycles_ctxs (n : Nat) (ev : Instr) (s : State) : (postCycles n ev s).ctxs = s.ctxs := rfl
@[simp] theorem postCycles_faultQs (n : Nat) (ev : Instr) (s : State) : (postCycles n ev s).faultQs = s.faultQs := rfl
@[simp] theorem postCycles_tlbs (n : Nat) (ev : Instr) (s : State) : (postCycles n ev s).tlbs = s.tlbs := rfl
@[simp] theorem postCycles_launches (n : Nat) (ev : Instr) (s : State) : (postCycles n ev s).launches = s.launches := rfl
@[simp] theorem postCycles_blocks (n : Nat) (ev : Instr) (s : State) : (postCycles n ev s).blocks = s.blocks := rfl
@[simp] theorem postCycles_eng (n : Nat) (ev : Instr) (s : State) : (postCycles n ev s).eng = s.eng := rfl
@[simp] theorem postCycles_coh (n : Nat) (ev : Instr) (s : State) : (postCycles n ev s).coh = s.coh := rfl
@[simp] theorem postCycles_worklists (n : Nat) (ev : Instr) (s : State) : (postCycles n ev s).worklists = s.worklists := rfl

/-! dropAsks -/

@[simp] theorem dropAsks_ns (who : Nat) (s : State) : (dropAsks who s).ns = s.ns := rfl
@[simp] theorem dropAsks_mcyc (who : Nat) (s : State) : (dropAsks who s).mcyc = s.mcyc := rfl
@[simp] theorem dropAsks_agenda (who : Nat) (s : State) : (dropAsks who s).agenda = s.agenda := rfl
@[simp] theorem dropAsks_sched (who : Nat) (s : State) : (dropAsks who s).sched = s.sched := rfl
@[simp] theorem dropAsks_pace (who : Nat) (s : State) : (dropAsks who s).pace = s.pace := rfl
@[simp] theorem dropAsks_free (who : Nat) (s : State) : (dropAsks who s).free = s.free := rfl
@[simp] theorem dropAsks_nextId (who : Nat) (s : State) : (dropAsks who s).nextId = s.nextId := rfl
@[simp] theorem dropAsks_cur (who : Nat) (s : State) : (dropAsks who s).cur = s.cur := rfl
@[simp] theorem dropAsks_tried (who : Nat) (s : State) : (dropAsks who s).tried = s.tried := rfl
@[simp] theorem dropAsks_mem (who : Nat) (s : State) : (dropAsks who s).mem = s.mem := rfl
@[simp] theorem dropAsks_pkg (who : Nat) (s : State) : (dropAsks who s).pkg = s.pkg := rfl
@[simp] theorem dropAsks_mg (who : Nat) (s : State) : (dropAsks who s).mg = s.mg := rfl
@[simp] theorem dropAsks_queues (who : Nat) (s : State) : (dropAsks who s).queues = s.queues := rfl
@[simp] theorem dropAsks_ctxs (who : Nat) (s : State) : (dropAsks who s).ctxs = s.ctxs := rfl
@[simp] theorem dropAsks_faultQs (who : Nat) (s : State) : (dropAsks who s).faultQs = s.faultQs := rfl
@[simp] theorem dropAsks_tlbs (who : Nat) (s : State) : (dropAsks who s).tlbs = s.tlbs := rfl
@[simp] theorem dropAsks_launches (who : Nat) (s : State) : (dropAsks who s).launches = s.launches := rfl
@[simp] theorem dropAsks_blocks (who : Nat) (s : State) : (dropAsks who s).blocks = s.blocks := rfl
@[simp] theorem dropAsks_eng (who : Nat) (s : State) : (dropAsks who s).eng = s.eng := rfl
@[simp] theorem dropAsks_worklists (who : Nat) (s : State) : (dropAsks who s).worklists = s.worklists := rfl

end Sys2Proof.Machine
end

