-- ==== Sys2Proof/Laws/Groups.lean ====
section
/-! SUPPORT. Finding a block, a group, a context and a register after an update: at the same name the update's value, at every
other name what stood there before. -/

namespace Sys2Proof.Machine

open Sys2Proof

/-! ## Lists of records -/

theorem mapIf_cons {α : Type} (p : α → Bool) (f : α → α) (a : α) (r : List α) :
    mapIf p f (a :: r) = (if p a then f a else a) :: mapIf p f r := rfl

/-- An update that keeps the name: the record of that name is the updated one. -/
theorem find_mapIf_name {α : Type} {name : α → Nat} {f : α → α} (hf : ∀ a, name (f a) = name a) (n : Nat) (l : List α) :
    (mapIf (fun a => name a == n) f l).find? (fun a => name a == n) = (l.find? fun a => name a == n).map f := by
  induction l with
  | nil => rfl
  | cons a r ih =>
    rw [mapIf_cons]
    by_cases ha : name a = n
    · simp [ha, hf]
    · simp [ha, ih]

/-- An update that keeps the names leaves the records of other names alone. -/
theorem find_mapIf_other {α : Type} {name : α → Nat} {f : α → α} (hf : ∀ a, name (f a) = name a) {n m : Nat} (h : m ≠ n)
    (l : List α) : (mapIf (fun a => name a == n) f l).find? (fun a => name a == m) = l.find? fun a => name a == m := by
  induction l with
  | nil => rfl
  | cons a r ih =>
    rw [mapIf_cons]
    by_cases ha : name a = n
    · subst ha
      have : name a ≠ m := fun e => h e.symm
      simp [hf, this, ih]
    · by_cases hm : name a = m
      · subst hm; simp [ha]
      · simp [ha, hm, ih]

/-! ## Blocks, groups, contexts -/

theorem blkOf_modBlk (b : Nat) (f : Block → Block) (hf : ∀ x, (f x).id = x.id) (s : State) :
    blkOf (modBlk b f s) b = (blkOf s b).map f := find_mapIf_name (name := Block.id) hf b s.blocks

theorem blkOf_modBlk_other {b c : Nat} (f : Block → Block) (hf : ∀ x, (f x).id = x.id) (h : c ≠ b) (s : State) :
    blkOf (modBlk b f s) c = blkOf s c := find_mapIf_other (name := Block.id) hf h s.blocks

/-- The block of a group after an update of the group. -/
theorem blkOf_modGrp (g : GRef) (f : Group → Group) (s : State) :
    blkOf (modGrp g f s) g.blk = (blkOf s g.blk).map fun b => { b with groups := mapIf (·.gid == g.gid) f b.groups } :=
  blkOf_modBlk g.blk (fun b => { b with groups := mapIf (·.gid == g.gid) f b.groups }) (fun _ => rfl) s

theorem blkOf_modGrp_other {g : GRef} {c : Nat} (f : Group → Group) (h : c ≠ g.blk) (s : State) :
    blkOf (modGrp g f s) c = blkOf s c := 
  blkOf_modBlk_other (fun b => { b with groups := mapIf (·.gid == g.gid) f b.groups }) (fun _ => rfl) h s

theorem grpOf_modGrp (g : GRef) (f : Group → Group) (hf : ∀ x, (f x).gid = x.gid) (s : State) :
    grpOf (modGrp g f s) g = (grpOf s g).map f := by
  unfold grpOf
  rw [blkOf_modGrp]
  cases blkOf s g.blk with
  | none => rfl
  | some b => exact find_mapIf_name (name := Group.gid) hf g.gid b.groups

/-- A group whose name the update's result keeps, for one known group. -/
theorem find_mapIf_known {α : Type} {name : α → Nat} {f : α → α} {n : Nat} {a : α} {l : List α}
    (h : l.find? (fun a => name a == n) = some a) (hf : name (f a) = n) :
    (mapIf (fun a => name a == n) f l).find? (fun a => name a == n) = some (f a) := by
  induction l with
  | nil => simp at h
  | cons b r ih =>
    by_cases hb : name b = n
    · simp [hb] at h; subst h; simp [mapIf_cons, hb, hf]
    · simp [hb] at h
      simp [mapIf_cons, hb, ih h]

theorem grpOf_modGrp_known {g : GRef} {f : Group → Group} {s : State} {x : Group} (h : grpOf s g = some x)
    (hf : (f x).gid = g.gid) : grpOf (modGrp g f s) g = some (f x) := by
  unfold grpOf at h ⊢
  rw [blkOf_modGrp]
  cases hb : blkOf s g.blk with
  | none => rw [hb] at h; simp at h
  | some b =>
    rw [hb] at h
    exact find_mapIf_known (name := Group.gid) (f := f) h hf

theorem grpOf_gid {s : State} {g : GRef} {x : Group} (h : grpOf s g = some x) : x.gid = g.gid := by
  unfold grpOf at h
  cases hb : blkOf s g.blk with
  | none => rw [hb] at h; simp at h
  | some b =>
    rw [hb] at h
    have := List.find?_some h
    simpa using this

theorem grpOf_modGrp_other {g r : GRef} (f : Group → Group) (hf : ∀ x, (f x).gid = x.gid) (h : r.blk ≠ g.blk ∨ r.gid ≠ g.gid)
    (s : State) : grpOf (modGrp g f s) r = grpOf s r := by
  unfold grpOf
  by_cases hb : r.blk = g.blk
  · rw [hb, blkOf_modGrp]
    cases blkOf s g.blk with
    | none => rfl
    | some b => exact find_mapIf_other (name := Group.gid) hf (h.resolve_left fun e => e hb) b.groups
  · rw [blkOf_modGrp_other f hb]

theorem modGrp_modGrp (g : GRef) (f h : Group → Group) (hf : ∀ x, (f x).gid = x.gid) (s : State) :
    modGrp g h (modGrp g f s) = modGrp g (fun x => h (f x)) s := by
  unfold modGrp modBlk mapIf
  simp only [List.map_map]
  congr 1
  refine List.map_congr_left fun b _ => ?_
  by_cases hb : b.id = g.blk
  · simp only [Function.comp, hb, beq_self_eq_true, if_true, List.map_map]
    congr 1
    refine List.map_congr_left fun x _ => ?_
    by_cases hx : x.gid = g.gid <;> simp [hx, hf]
  · simp [hb]

theorem ctxOf_modCtx (c : Nat) (f : Ctx → Ctx) (hf : ∀ x, (f x).id = x.id) (s : State) :
    ctxOf (modCtx c f s) c = (ctxOf s c).map f := find_mapIf_name (name := Ctx.id) hf c s.ctxs

theorem queueOf_modQueue (q : Nat) (f : Queue → Queue) (hf : ∀ x, (f x).id = x.id) (s : State) :
    queueOf (modQueue q f s) q = (queueOf s q).map f := find_mapIf_name (name := Queue.id) hf q s.queues

theorem queueOf_modQueue_other {q r : Nat} (f : Queue → Queue) (hf : ∀ x, (f x).id = x.id) (h : r ≠ q) (s : State) :
    queueOf (modQueue q f s) r = queueOf s r := find_mapIf_other (name := Queue.id) hf h s.queues

theorem fnOf_modFn (n : Nat) (f : Fn → Fn) (s : State) (h : n < s.mg.fns.length) : fnOf (modFn n f s) n = f (fnOf s n) := by
  simp [fnOf, modFn, List.getD, h]

theorem fqOf_modFq (n : Nat) (f : FaultQ → FaultQ) (s : State) (h : n < s.faultQs.length) : fqOf (modFq n f s) n = f (fqOf s n) := by
  simp [fqOf, modFq, List.getD, h]

/-! ## Registers of a group (R314, R328) -/

theorem kget_kset (n m : Nat) (v : W64) (g : Group) : kget (kset n v g) m = if m = n then v else kget g m :=
  fmap_get_set g.k n m v

theorem mget_mset (n m : Nat) (v : Mask) (g : Group) : mget (mset n v g) m = if m = n ∧ n ≠ 0 then v else mget g m := by
  unfold mset
  split
  · rename_i h; simp [h]
  · rename_i h
    unfold mget
    by_cases hm : m = 0
    · simp [hm, Ne.symm h]
    · simp [hm, h, fmap_get_set]

theorem vget_vset (n l m j : Nat) (v : W32) (g : Group) :
    vget (vset n l v g) m j = if 64 * m + j = 64 * n + l then v else vget g m j := fmap_get_set g.v _ _ v

theorem vget_kset (n : Nat) (v : W64) (g : Group) (m l : Nat) : vget (kset n v g) m l = vget g m l := rfl
theorem mget_kset (n : Nat) (v : W64) (g : Group) (m : Nat) : mget (kset n v g) m = mget g m := rfl
theorem kget_vset (n l : Nat) (v : W32) (g : Group) (m : Nat) : kget (vset n l v g) m = kget g m := rfl
theorem mget_vset (n l : Nat) (v : W32) (g : Group) (m : Nat) : mget (vset n l v g) m = mget g m := rfl

/-- The live slots after a change of one of them. -/
theorem liveEntry_modEntry (low : Bool) (f : Entry → Entry) (g : Group) :
    liveEntry (modEntry low f g) low = (liveEntry g low).map f := by
  unfold modEntry
  match hst : g.stack with
  | [] => simp [liveEntry, hst]
  | [t] => cases low <;> simp [liveEntry, hst]
  | t :: u :: r => cases low <;> simp [liveEntry, hst]

theorem liveEntry_modEntry_other (low : Bool) (f : Entry → Entry) (hf : ∀ e, (f e).sib = e.sib) (g : Group) :
    liveEntry (modEntry (!low) f g) low = liveEntry g low := by
  unfold modEntry
  match hst : g.stack with
  | [] => simp [liveEntry, hst]
  | [t] => cases low <;> simp [liveEntry, hst]
  | t :: u :: r => cases low <;> simp [liveEntry, hst, hf]

end Sys2Proof.Machine
end

