-- ==== Sys2Proof/Laws/Issue.lean ====
section
/-! SUPPORT. What the issue of an instruction can do, said once: an instruction that gets past issue runs its effect on the state
after the issue; a trap found before it, a hazard, and a stall of the effect leave the group where it stood. -/

namespace Sys2Proof.Machine

open Sys2Proof

variable {i : Sig} {pre : Iss → State → Option Trap} {body : Iss → State → Res} {addrs : Iss → List (AccType × W64)}
  {s : State} {x : Iss}

theorem early_ready (h : Ready i s x) (hp : pre x s = none) : early i pre x s = none := by
  simp [early, h.legal, h.clear, hp, h.fits]

theorem early_pre {t : Trap} (h : Ready i s x) (hp : pre x s = some t) : early i pre x s = some (.trap t) := by
  simp [early, h.legal, h.clear, hp]

/-- Past issue, the answer is that of the effect on the state after the issue. -/
theorem issueWith_ready (h : Ready i s x) (hp : pre x s = none) :
    issueWith i addrs pre body s = .next (finish i x s (body x (advance i x s))) := by
  simp [issueWith, h.view, h.present, h.settled, early_ready h hp, debugLast, h.calm]

theorem issue_ready (h : Ready i s x) (hp : pre x s = none) :
    issue i pre body s = .next (finish i x s (body x (advance i x s))) := issueWith_ready h hp

theorem issueWith_next {t : State} (h : Ready i s x) (hp : pre x s = none) (hb : body x (advance i x s) = .next t) :
    issueWith i addrs pre body s = .next t := by rw [issueWith_ready h hp, hb]; rfl

theorem issue_next {t : State} (h : Ready i s x) (hp : pre x s = none) (hb : body x (advance i x s) = .next t) :
    issue i pre body s = .next t := issueWith_next h hp hb

/-- A trap that the instruction's own early check finds is taken on the state before the issue. -/
theorem issueWith_pre {t : Trap} (h : Ready i s x) (hp : pre x s = some t) :
    issueWith i addrs pre body s = .next (takeTrap x (inChain i x.ent || i.hold ≠ 0) t s) := by
  simp [issueWith, h.view, h.present, h.settled, early_pre h hp, finish]

theorem issue_pre {t : Trap} (h : Ready i s x) (hp : pre x s = some t) :
    issue i pre body s = .next (takeTrap x (inChain i x.ent || i.hold ≠ 0) t s) := issueWith_pre h hp

/-- A trap that the effect finds. -/
theorem issueWith_trap {t : Trap} {s' : State} (h : Ready i s x) (hp : pre x s = none)
    (hb : body x (advance i x s) = .trap t s') :
    issueWith i addrs pre body s = .next (takeTrap x (inChain i x.ent || i.hold ≠ 0) t s') := by
  rw [issueWith_ready h hp, hb]; rfl

theorem issue_trap {t : Trap} {s' : State} (h : Ready i s x) (hp : pre x s = none) (hb : body x (advance i x s) = .trap t s') :
    issue i pre body s = .next (takeTrap x (inChain i x.ent || i.hold ≠ 0) t s') := issueWith_trap h hp hb

theorem issue_stall (h : Ready i s x) (hp : pre x s = none) (hb : body x (advance i x s) = .stall) :
    issue i pre body s = .next s := by rw [issue_ready h hp, hb]; rfl

/-- What an issuing instruction sees is what stands in the state. -/
theorem issRaw_spec {g : GRef} {len msk : Nat} (h : issRaw g len msk s = some x) :
    x.g = g ∧ blkOf s g.blk = some x.blk ∧ launchOf s x.blk.launch = some x.lau ∧ grpIn x.blk g.gid = some x.grp ∧
      liveEntry x.grp g.low = some x.ent ∧ x.npc = x.ent.pc + BitVec.ofNat 64 len := by
  unfold issRaw at h
  simp only [Option.bind_eq_some_iff, Option.map_eq_some_iff] at h
  obtain ⟨b, hb, l, hl, gr, hg, e, he, rfl⟩ := h
  exact ⟨rfl, hb, hl, hg, he, rfl⟩

theorem issOf_spec (h : issOf i s = some x) :
    s.cur = some x.g ∧ blkOf s x.g.blk = some x.blk ∧ launchOf s x.blk.launch = some x.lau ∧ grpIn x.blk x.g.gid = some x.grp ∧
      (∃ e, liveEntry x.grp x.g.low = some e ∧ x.ent = { e with chainPc := x.ent.chainPc }) ∧
      x.npc = x.ent.pc + BitVec.ofNat 64 i.len := by
  unfold issOf at h
  simp only [Option.map_eq_some_iff, Option.bind_eq_some_iff] at h
  obtain ⟨y, ⟨g, hg, hy⟩, rfl⟩ := h
  obtain ⟨h1, h2, h3, h4, h5, h6⟩ := issRaw_spec hy
  subst h1
  exact ⟨hg, h2, h3, h4, ⟨y.ent, h5, rfl⟩, h6⟩

theorem issOf_grp (h : issOf i s = some x) : grpOf s x.g = some x.grp := by
  obtain ⟨-, hb, -, hg, -⟩ := issOf_spec h
  simp [grpOf, hb, hg]

/-- The group after the issue itself. -/
def issuedGrp (i : Sig) (x : Iss) (s : State) : Group :=
  { modEntry x.g.low (nextEntry i x s) (modEntries (invalidate i.writes) x.grp) with turn := !x.g.low, waitFrom := s.mcyc }

theorem grpOf_advance (h : issOf i s = some x) : grpOf (advance i x s) x.g = some (issuedGrp i x s) := by
  have hg := issOf_grp h
  exact grpOf_modGrp_known hg (by simpa using grpOf_gid hg)

@[simp] theorem nextEntry_sib (i : Sig) (x : Iss) (s : State) (e : Entry) : (nextEntry i x s e).sib = e.sib := rfl
@[simp] theorem nextEntry_mask (i : Sig) (x : Iss) (s : State) (e : Entry) : (nextEntry i x s e).mask = e.mask := rfl
@[simp] theorem nextEntry_rpc (i : Sig) (x : Iss) (s : State) (e : Entry) : (nextEntry i x s e).rpc = e.rpc := rfl
@[simp] theorem nextEntry_fmt (i : Sig) (x : Iss) (s : State) (e : Entry) : (nextEntry i x s e).fmt = e.fmt := rfl
@[simp] theorem nextEntry_wait (i : Sig) (x : Iss) (s : State) (e : Entry) : (nextEntry i x s e).wait = e.wait := rfl

/-- An update of one group leaves everything else as it was. -/
theorem onlyGroup_modGrp {g : GRef} {f : Group → Group} (hf : ∀ y, y.gid = g.gid → (f y).gid = g.gid) (s : State) :
    OnlyGroup g s (modGrp g f s) := by
  refine ⟨rfl, fun c hc => blkOf_modGrp_other f hc s, fun b hb => ?_⟩
  refine ⟨{ b with groups := mapIf (·.gid == g.gid) f b.groups }, by rw [blkOf_modGrp, hb]; rfl, rfl, fun n hn => ?_⟩
  unfold grpIn
  induction b.groups with
  | nil => rfl
  | cons a r ih =>
    rw [mapIf_cons]
    by_cases ha : a.gid = g.gid
    · have h1 : g.gid ≠ n := fun e => hn e.symm
      simp [ha, hf a ha, h1, ih]
    · by_cases hm : a.gid = n
      · simp [hm, hn]
      · simp [ha, hm, ih]

theorem OnlyGroup.trans {g : GRef} {s t u : State} (h1 : OnlyGroup g s t) (h2 : OnlyGroup g t u) : OnlyGroup g s u := by
  obtain ⟨a1, b1, c1⟩ := h1
  obtain ⟨a2, b2, c2⟩ := h2
  refine ⟨by rw [a2, a1], fun c hc => (b2 c hc).trans (b1 c hc), fun b hb => ?_⟩
  obtain ⟨b', hb', e1, k1⟩ := c1 b hb
  obtain ⟨b'', hb'', e2, k2⟩ := c2 b' hb'
  exact ⟨b'', hb'', by rw [e2, e1], fun n hn => (k2 n hn).trans (k1 n hn)⟩

theorem advance_only (i : Sig) (x : Iss) (s : State) : OnlyGroup x.g s (advance i x s) :=
  onlyGroup_modGrp (fun y hy => by simpa using hy) s

/-! ## The stack after the issue -/

theorem modEntries_stack (f : Entry → Entry) (g : Group) : (modEntries f g).stack = g.stack.map f := rfl

theorem liveEntry_modEntries (f : Entry → Entry) (hf : ∀ e, (f e).sib = e.sib) (low : Bool) (g : Group) :
    liveEntry (modEntries f g) low = (liveEntry g low).map f := by
  unfold liveEntry modEntries
  match hst : g.stack with
  | [] => simp
  | [t] => cases low <;> simp
  | t :: u :: r => cases low <;> simp [hf]

theorem modEntry_length (low : Bool) (f : Entry → Entry) (g : Group) : (modEntry low f g).stack.length = g.stack.length := by
  unfold modEntry
  match hst : g.stack with
  | [] => simp [hst]
  | [t] => cases low <;> simp [hst]
  | t :: u :: r => cases low <;> simp

/-- A change of one live slot leaves every other entry alone. -/
theorem modEntry_get_other (low : Bool) (f : Entry → Entry) (g : Group) {n : Nat} (hn : n ≠ low.toNat) :
    (modEntry low f g).stack[n]? = g.stack[n]? := by
  unfold modEntry
  match hst : g.stack with
  | [] => simp [hst]
  | [t] =>
    cases low
    · cases n with
      | zero => simp at hn
      | succ m => simp
    · simp [hst]
  | t :: u :: r =>
    cases low
    · cases n with
      | zero => simp at hn
      | succ m => simp
    · match n with
      | 0 => simp
      | 1 => simp at hn
      | m + 2 => simp

/-- The path that issues goes on at the next word, unless tret has re-issued the instruction. -/
theorem pathAt_issued (h : issOf i s = some x) : MovedOn x (issuedGrp i x s) := by
  intro hr
  obtain ⟨-, -, -, -, ⟨e, he, hx⟩, -⟩ := issOf_spec h
  have hmask : x.ent.mask = e.mask := by rw [hx]
  have hrpc : x.ent.rpc = e.rpc := by rw [hx]
  have hfmt : x.ent.fmt = e.fmt := by rw [hx]
  have hsib : x.ent.sib = e.sib := by rw [hx]
  have hwait : x.ent.wait = e.wait := by rw [hx]
  have hre : e.reissue = none := by rw [← hr, hx]
  refine ⟨⟨nextEntry i x s (invalidate i.writes e), ?_, ?_, ?_⟩, ?_, ?_⟩
  · show liveEntry (modEntry x.g.low (nextEntry i x s) (modEntries (invalidate i.writes) x.grp)) x.g.low = _
    rw [liveEntry_modEntry, liveEntry_modEntries (invalidate i.writes) (fun _ => rfl), he]
    rfl
  · simp [nextEntry, invalidate, hre]
  · exact ⟨hmask.symm, hrpc.symm, hfmt.symm, hsib.symm, hwait.symm⟩
  · show (modEntry x.g.low (nextEntry i x s) (modEntries (invalidate i.writes) x.grp)).stack.length = _
    rw [modEntry_length, modEntries_stack, List.length_map]
  · intro n hn
    show ((modEntry x.g.low (nextEntry i x s) (modEntries (invalidate i.writes) x.grp)).stack[n]?).map unlatched = _
    rw [modEntry_get_other _ _ _ hn, modEntries_stack, List.getElem?_map, Option.map_map]
    rfl

/-- The stack after a change that leaves the entries alone but for their latches. -/
theorem pathAt_congr {pc : W64} {g g' : Group} (h : PathAt x pc g) (hl : g'.stack.map unlatched = g.stack.map unlatched) :
    PathAt x pc g' := by
  have hlen : g'.stack.length = g.stack.length := by simpa using congrArg List.length hl
  have hget : ∀ n : Nat, (g'.stack[n]?).map unlatched = (g.stack[n]?).map unlatched := fun n => by
    rw [← List.getElem?_map, ← List.getElem?_map, hl]
  obtain ⟨⟨e, he, h1, h2, h3, h4, h5, h6⟩, h7, h8⟩ := h
  refine ⟨?_, hlen.trans h7, fun n hn => (hget n).trans (h8 n hn)⟩
  have hun : ∀ {a b : Entry}, unlatched a = unlatched b → a.pc = b.pc ∧ a.mask = b.mask ∧ a.rpc = b.rpc ∧ a.fmt = b.fmt ∧
      a.sib = b.sib ∧ a.wait = b.wait := fun {a b} hab => by
    have := hab
    simp only [unlatched, Entry.mk.injEq] at this
    obtain ⟨p1, p2, p3, p4, p5, p6, -⟩ := this
    exact ⟨p1, p2, p3, p4, p5, p6⟩
  have hlive : ∃ e', liveEntry g' x.g.low = some e' ∧ unlatched e' = unlatched e := by
    unfold liveEntry at he ⊢
    match hs : g.stack, hs' : g'.stack with
    | [], _ => simp [hs] at he
    | [t], [] => simp [hs, hs'] at hl
    | [t], [t'] =>
      simp only [hs, hs', List.map_cons, List.map_nil, List.cons.injEq, and_true] at hl he ⊢
      cases hlow : x.g.low <;> simp [hlow] at he ⊢
      subst he; exact hl
    | [t], _ :: _ :: _ => simp [hs, hs'] at hlen
    | _ :: _ :: _, [] => simp [hs, hs'] at hlen
    | _ :: _ :: _, [_] => simp [hs, hs'] at hlen
    | t :: u :: r, t' :: u' :: r' =>
      simp only [hs, hs', List.map_cons, List.cons.injEq] at hl he ⊢
      have ht := hun hl.1
      cases hlow : x.g.low
      · simp [hlow] at he ⊢; subst he; exact hl.1
      · simp [hlow, ht.2.2.2.2.1] at he ⊢
        exact ⟨he.1, by rw [← he.2]; exact hl.2.1⟩
  obtain ⟨e', he', hu⟩ := hlive
  obtain ⟨u1, u2, u3, u4, u5, u6⟩ := hun hu
  exact ⟨e', he', u1.trans h1, u2.trans h2, u3.trans h3, u4.trans h4, u5.trans h5, u6.trans h6⟩

end Sys2Proof.Machine
end

