-- ==== Sys2Proof/Laws/Memory.lean ====
section
/-! SUPPORT. The laws of memory: what a read finds after a write, what a write leaves alone, and the canonical form, which every
operation that writes memory keeps. -/

namespace Sys2Proof.Machine

open Sys2Proof

/-! ## The canonical form -/

/-- Writing bytes keeps the canonical form. -/
theorem memWrite_form (a : Nat) (bs : List Byte) {s : State} (h : Memory.wf s.mem) : Memory.wf (memWrite a bs s).mem :=
  fmap_wf_setAll _ h

/-- Writing the bytes of a mask keeps the canonical form. -/
theorem memWriteMask_form (a : Nat) (bs : List Byte) (mk : List Bool) {s : State} (h : Memory.wf s.mem) :
    Memory.wf (memWriteMask a bs mk s).mem := fmap_wf_setAll _ h

/-- Zeroing a range, a module reset and a loss of power leave bytes out; that keeps the canonical form. -/
theorem memFilter_form (p : Nat × Byte → Bool) {m : FMap Byte} (h : Memory.wf m) : Memory.wf (m.filter p) := fmap_wf_filter p h

/-- A fold of steps that each keep the canonical form keeps it. -/
theorem foldl_form {α : Type} (f : State → α → State) (hf : ∀ s a, Memory.wf s.mem → Memory.wf (f s a).mem) (l : List α) {s : State}
    (h : Memory.wf s.mem) : Memory.wf (l.foldl f s).mem := by
  induction l generalizing s with
  | nil => exact h
  | cons a r ih => exact ih (hf s a h)

/-- Recalling copies writes the dirty ones to memory. -/
theorem recallNow_form (pa n : Nat) {s : State} (h : Memory.wf s.mem) : Memory.wf (recallNow pa n s).mem := by
  refine foldl_form (fun (s : State) (c : Copy) => if c.st.dirty then memWrite c.pa c.data s else s) (fun s c hs => ?_) _ h
  split
  · exact memWrite_form _ _ hs
  · exact hs

theorem devLine_form (a grain gsz : Nat) (bs : List Byte) {s : State} (h : Memory.wf s.mem) : Memory.wf (devLine a grain gsz bs s).mem := by
  unfold devLine; split
  · exact memWrite_form _ _ (recallNow_form _ _ h)
  · exact h

/-- A write of the device, made at once or queued at its home. -/
theorem devWrite_form (a : Nat) (bs : List Byte) {s : State} (h : Memory.wf s.mem) : Memory.wf (devWrite a bs s).mem :=
  foldl_form (fun (s : State) (p : Nat × Nat × Nat × Nat) => devLine p.1 p.2.2.1 p.2.2.2 (slice 0 bs (p.1 - a) p.2.1) s)
    (fun _ _ hs => devLine_form _ _ _ _ hs) _ h

/-- A sample or a halving of a heat byte, applied at once or queued at its home. -/
theorem heatStep_form (half : Bool) (a : Nat) {s : State} (h : Memory.wf s.mem) : Memory.wf (heatStep half a s).mem := by
  unfold heatStep; split
  · exact memWrite_form _ _ (recallNow_form _ _ h)
  · exact h

/-! ## Reads after writes -/

/-- Outside the pool an address is stored at itself. -/
theorem placeIn_self {a : Nat} (h : spaceOf a ≠ .pool) (s : State) : placeIn s a = a := by simp [placeIn, h]

/-- A write of memory moves no byte to another place. -/
@[simp] theorem placeIn_memWrite (a : Nat) (bs : List Byte) (s : State) (x : Nat) : placeIn (memWrite a bs s) x = placeIn s x := rfl
@[simp] theorem placeIn_memWriteMask (a : Nat) (bs : List Byte) (mk : List Bool) (s : State) (x : Nat) :
    placeIn (memWriteMask a bs mk s) x = placeIn s x := rfl

/-- A byte that is stored at none of the written places reads as before. -/
theorem memByte_memWrite_out (a : Nat) (bs : List Byte) (s : State) {x : Nat} (h : ∀ i, i < bs.length → placeIn s (a + i) ≠ placeIn s x) :
    memByte (memWrite a bs s) x = memByte s x := by
  refine fmap_get_setAll_other _ _ fun e he => ?_
  obtain ⟨⟨i, b⟩, hi, rfl⟩ := List.mem_map.1 he
  exact h i (List.mem_range.1 (List.of_mem_zip hi).1)

/-- The same of a masked write. -/
theorem memByte_memWriteMask_out (a : Nat) (bs : List Byte) (mk : List Bool) (s : State) {x : Nat}
    (h : ∀ i, i < bs.length → placeIn s (a + i) ≠ placeIn s x) : memByte (memWriteMask a bs mk s) x = memByte s x := by
  refine fmap_get_setAll_other _ _ fun e he => ?_
  obtain ⟨⟨i, b, m⟩, hi, hm⟩ := List.mem_filterMap.1 he
  cases m
  · simp at hm
  · simp only [if_true, Option.some.injEq] at hm
    rw [← hm]
    exact h i (List.mem_range.1 (List.of_mem_zip hi).1)

/-- A byte reads back as it was written. -/
theorem memByte_memWrite_one (a : Nat) (b : Byte) (s : State) : memByte (memWrite a [b] s) a = b := by
  unfold memByte
  rw [placeIn_memWrite]
  simp [memWrite, FMap.setAll, List.range_succ]

/-- A read of n bytes has n bytes. -/
@[simp] theorem memRead_length (s : State) (a n : Nat) : (memRead s a n).length = n := by simp [memRead]

/-- A write of memory changes memory alone. -/
theorem memWrite_frame (a : Nat) (bs : List Byte) (s : State) : memWrite a bs s = { s with mem := (memWrite a bs s).mem } := rfl

/-- A masked write of memory changes memory alone. -/
theorem memWriteMask_frame (a : Nat) (bs : List Byte) (mk : List Bool) (s : State) :
    memWriteMask a bs mk s = { s with mem := (memWriteMask a bs mk s).mem } := rfl

/-- What a read finds depends on memory and the pool decoders alone. -/
theorem memRead_congr {s t : State} (h : s.mem = t.mem) (hm : s.mg = t.mg) (a n : Nat) : memRead s a n = memRead t a n := by
  simp only [memRead, memByte, placeIn, decoderOf, h, hm]

end Sys2Proof.Machine
end

