-- ==== Sys2Proof/Laws/PerInstr.lean ====
section
/-! SUPPORT. One lemma per instruction about its words: a well-formed instruction's fields fit their places (R312, R313), so
that no bit of an operand is dropped or runs into its neighbour. -/

namespace Sys2Proof.Laws

open Sys2Proof Sys2Proof.Machine

/-- The fields beyond bit 63 that a form has fit, and those it lacks are 0 (R313). -/
def tailFits (f : Fields) : Prop := match f.form with
  | .b => f.imm = 0 ∧ f.immB = 0 ∧ f.sc = 0 ∧ f.ext = 0
  | .i => f.imm < 2 ^ 32 ∧ f.immB = 0 ∧ f.sc = 0 ∧ f.ext = 0
  | .s => f.imm = 0 ∧ f.immB = 0 ∧ f.sc < 2 ^ 11 ∧ f.ext < 2 ^ 21
  | .q => f.imm < 2 ^ 64 ∧ f.immB = 0 ∧ f.sc = 0 ∧ f.ext = 0
  | .si => f.imm = 0 ∧ f.immB < 2 ^ 32 ∧ f.sc < 2 ^ 11 ∧ f.ext < 2 ^ 21
  | .ii => f.imm < 2 ^ 32 ∧ f.immB < 2 ^ 32 ∧ f.sc = 0 ∧ f.ext = 0

/-- Every field of a word fits its place (R312, R313). -/
def fieldsFit (f : Fields) : Prop :=
  f.maj < 2 ^ 6 ∧ f.fn < 2 ^ 6 ∧ f.msk < 2 ^ 4 ∧ f.nw < 2 ∧ f.hold < 2 ^ 2 ∧ f.dst < 2 ^ 11 ∧ f.sa < 2 ^ 11 ∧ f.sb < 2 ^ 11 ∧
    f.ty < 2 ^ 6 ∧ f.mod < 2 ^ 4 ∧ tailFits f

theorem firstFail_none {l : List (Bool × DecodeError)} (h : firstFail l = none) : ∀ c ∈ l, c.1 = true := by
  induction l with
  | nil => intro _ hc; cases hc
  | cons d r ih =>
    obtain ⟨b, e⟩ := d
    cases b
    · cases h
    · intro c hc
      rcases List.mem_cons.1 hc with rfl | hc
      · rfl
      · exact ih h c hc

/-- The checks of a well-formed instruction hold. -/
theorem checks_of_wf {i : Instr} (h : i.wf = true) : (reasons i).all (·.1) = true :=
  List.all_eq_true.2 (firstFail_none (Option.isNone_iff_eq_none.1 h))

theorem kCode_lt {n : Nat} (h : decide (n < 64) = true) : kCode n < 2 ^ 11 := by
  have := of_decide_eq_true h; simp only [kCode]; omega

theorem kCode0_lt {o : Option Nat} (h : o.all (decide <| · < 64) = true) : kCode0 o < 2 ^ 11 := by
  cases o <;> simp_all [kCode0, kCode] <;> omega

theorem kCodeZ_lt {o : Option Nat} (h : o.all (decide <| · < 64) = true) : kCodeZ o < 2 ^ 11 := by
  cases o <;> simp_all [kCodeZ, kCode] <;> omega

theorem vsrc_lt {l : Bool} {t : Ty} {a : VSrc} (h : vsrcOk l t a = true) : a.code < 2 ^ 11 := by
  cases a <;> simp_all [vsrcOk, VSrc.code, kCode] <;> omega

theorem vdst_lt {k : Bool} {t : Ty} {d : VDst} (h : vdstOk k t d = true) : d.code < 2 ^ 11 := by
  cases d <;> simp_all [vdstOk, VDst.code, kCode] <;> omega

theorem brx_lt {a : VSrc} (h : brxOk a = true) : a.code < 2 ^ 11 := by
  cases a <;> simp_all [brxOk, VSrc.code, kCode] <;> omega

theorem off_lt {l : Bool} {a : VSrc} (h : offOk l a = true) : a.code < 2 ^ 11 := by
  cases a <;> simp_all [offOk, VSrc.code] <;> omega

theorem accDst_lt {d : AccDst} (h : accDstOk d = true) : d.code < 2 ^ 11 := by
  cases d <;> simp_all [accDstOk, AccDst.code, kCode] <;> omega

theorem addrOp_lt {p q r l : Bool} {a : Addr} (h : addrOk p q r l a = true) : a.opCode < 2 ^ 11 := by
  cases a with
  | pair n d => simp_all [addrOk, Addr.opCode]; omega
  | base k o d => simp only [addrOk, Bool.and_eq_true] at h; exact off_lt h.1.2
  | off o d => simp only [addrOk, Bool.and_eq_true] at h; exact off_lt h.1.2

theorem addrExt_lt {p q r l : Bool} {a : Addr} (h : addrOk p q r l a = true) : a.ext < 2 ^ 18 := by
  cases a <;> simp only [addrOk, Bool.and_eq_true, decide_eq_true_eq] at h <;> simp only [Addr.ext] <;> omega

theorem addrExt_aop {p q l : Bool} {a : Addr} (h : addrOk p q false l a = true) (hd : noDisp a = true) : a.ext + 15 < 2 ^ 18 := by
  cases a <;> simp only [addrOk, noDisp, Bool.and_eq_true, decide_eq_true_eq, beq_iff_eq] at h hd <;> simp only [Addr.ext] <;> omega

theorem lane_lt {s : LaneSel} (h : laneSelOk s = true) : s.sb < 2 ^ 11 ∧ s.ext < 2 ^ 21 := by
  cases s <;> simp_all [laneSelOk, LaneSel.sb, LaneSel.ext, kCode] <;> omega

theorem tyCode_lt (t : Ty) : t.code < 2 ^ 6 := by cases t <;> decide

theorem nw_lt (b : Bool) : b.toNat < 2 := by cases b <;> decide

/-- The header fields fit where the header checks hold. -/
theorem hdr_fits {h : Hdr} {mods : List Nat} {tys : List Ty} {p q r : Bool} (hm : ∀ m ∈ mods, m < 16)
    (hc : (hdrOk h mods tys p q r).all (·.1) = true) : h.msk < 2 ^ 4 ∧ h.hold < 2 ^ 2 ∧ h.mod < 2 ^ 4 := by
  simp only [hdrOk, List.all_cons, List.all_nil, Bool.and_true, Bool.and_eq_true, Bool.or_eq_true, decide_eq_true_eq,
    List.contains_iff_mem] at hc
  obtain ⟨h1, -, h3, h4, -⟩ := hc
  exact ⟨by omega, by omega, hm _ h3⟩

theorem fit {f : Fields} (h1 : f.maj < 2 ^ 6) (h2 : f.fn < 2 ^ 6) (h3 : f.msk < 2 ^ 4) (h4 : f.nw < 2) (h5 : f.hold < 2 ^ 2)
    (h6 : f.dst < 2 ^ 11) (h7 : f.sa < 2 ^ 11) (h8 : f.sb < 2 ^ 11) (h9 : f.ty < 2 ^ 6) (h10 : f.mod < 2 ^ 4)
    (h11 : tailFits f) : fieldsFit f := ⟨h1, h2, h3, h4, h5, h6, h7, h8, h9, h10, h11⟩

section

variable {f : Fields}

theorem tail_b (h : f.form = .b) (a : f.imm = 0) (b : f.immB = 0) (c : f.sc = 0) (d : f.ext = 0) : tailFits f := by
  rw [tailFits, h]; exact ⟨a, b, c, d⟩
theorem tail_i (h : f.form = .i) (a : f.imm < 2 ^ 32) (b : f.immB = 0) (c : f.sc = 0) (d : f.ext = 0) : tailFits f := by
  rw [tailFits, h]; exact ⟨a, b, c, d⟩
theorem tail_s (h : f.form = .s) (a : f.imm = 0) (b : f.immB = 0) (c : f.sc < 2 ^ 11) (d : f.ext < 2 ^ 21) : tailFits f := by
  rw [tailFits, h]; exact ⟨a, b, c, d⟩
theorem tail_q (h : f.form = .q) (a : f.imm < 2 ^ 64) (b : f.immB = 0) (c : f.sc = 0) (d : f.ext = 0) : tailFits f := by
  rw [tailFits, h]; exact ⟨a, b, c, d⟩
theorem tail_si (h : f.form = .si) (a : f.imm = 0) (b : f.immB < 2 ^ 32) (c : f.sc < 2 ^ 11) (d : f.ext < 2 ^ 21) :
    tailFits f := by rw [tailFits, h]; exact ⟨a, b, c, d⟩
theorem tail_ii (h : f.form = .ii) (a : f.imm < 2 ^ 32) (b : f.immB < 2 ^ 32) (c : f.sc = 0) (d : f.ext = 0) :
    tailFits f := by rw [tailFits, h]; exact ⟨a, b, c, d⟩

end

theorem cvtMods_lt (t : Ty) : ∀ m ∈ cvtMods t, m < 16 := by unfold cvtMods; split <;> decide
theorem accoutMods_lt (t : Ty) : ∀ m ∈ accoutMods t, m < 16 := by unfold accoutMods; split <;> decide
theorem cwr_lt {c : Nat} (h : [0, 4, 5, 6, 8, 9].contains c = true) : c < 2 ^ 11 := by
  simp only [List.contains_iff_mem, List.mem_cons, List.not_mem_nil, or_false] at h; omega
theorem bool_lt (b : Bool) : b.toNat < 2 ^ 11 := by cases b <;> decide
theorem scMod_lt (sc : Bool) : (if sc then 4 else 0) < 2 ^ 4 := by cases sc <;> decide
theorem optReg_lt {d : Option Nat} (h : d.all (decide <| · < 1536) = true) : d.getD 1539 < 2 ^ 11 := by
  cases d <;> simp_all; omega
theorem ext_scope {x s : Nat} (h : x < 2 ^ 18) (hs : s ≤ 6) : x + s * 2 ^ 18 < 2 ^ 21 := by omega
theorem ext_aop {x a s : Nat} (h : x + 15 < 2 ^ 18) (ha : a < 16) (hs : s ≤ 6) : x + a + s * 2 ^ 18 < 2 ^ 21 := by omega

theorem chk1 {a1 : Bool} {e1 : DecodeError} (c : ([(a1, e1)]).all (·.1) = true) :
    a1 = true := by
  simpa using c

theorem chk2 {a1 a2 : Bool} {e1 e2 : DecodeError} (c : ([(a1, e1), (a2, e2)]).all (·.1) = true) :
    a1 = true ∧ a2 = true := by
  simpa using c

theorem chk3 {a1 a2 a3 : Bool} {e1 e2 e3 : DecodeError} (c : ([(a1, e1), (a2, e2), (a3, e3)]).all (·.1) = true) :
    a1 = true ∧ a2 = true ∧ a3 = true := by
  simpa using c

theorem chk4 {a1 a2 a3 a4 : Bool} {e1 e2 e3 e4 : DecodeError} (c : ([(a1, e1), (a2, e2), (a3, e3), (a4, e4)]).all (·.1) = true) :
    a1 = true ∧ a2 = true ∧ a3 = true ∧ a4 = true := by
  simpa using c

theorem chk5 {a1 a2 a3 a4 a5 : Bool} {e1 e2 e3 e4 e5 : DecodeError} (c : ([(a1, e1), (a2, e2), (a3, e3), (a4, e4), (a5, e5)]).all (·.1) = true) :
    a1 = true ∧ a2 = true ∧ a3 = true ∧ a4 = true ∧ a5 = true := by
  simpa using c

theorem chk6 {a1 a2 a3 a4 a5 a6 : Bool} {e1 e2 e3 e4 e5 e6 : DecodeError} (c : ([(a1, e1), (a2, e2), (a3, e3), (a4, e4), (a5, e5), (a6, e6)]).all (·.1) = true) :
    a1 = true ∧ a2 = true ∧ a3 = true ∧ a4 = true ∧ a5 = true ∧ a6 = true := by
  simpa using c

theorem chkC2 {a1 a2 : Bool} {e1 e2 : DecodeError} (c : ([(a1, e1)] ++ [(a2, e2)]).all (·.1) = true) :
    a1 = true ∧ a2 = true := by
  simpa using c

theorem chkC3 {a1 a2 a3 : Bool} {e1 e2 e3 : DecodeError} (c : ([(a1, e1)] ++ [(a2, e2), (a3, e3)]).all (·.1) = true) :
    a1 = true ∧ a2 = true ∧ a3 = true := by
  simpa using c

theorem chkC5 {a1 a2 a3 a4 a5 : Bool} {e1 e2 e3 e4 e5 : DecodeError} (c : ([(a1, e1)] ++ [(a2, e2), (a3, e3), (a4, e4), (a5, e5)]).all (·.1) = true) :
    a1 = true ∧ a2 = true ∧ a3 = true ∧ a4 = true ∧ a5 = true := by
  simpa using c

theorem chkC9 {a1 a2 a3 a4 a5 a6 a7 a8 a9 : Bool} {e1 e2 e3 e4 e5 e6 e7 e8 e9 : DecodeError} (c : ([(a1, e1)] ++ [(a2, e2), (a3, e3), (a4, e4), (a5, e5), (a6, e6), (a7, e7), (a8, e8), (a9, e9)]).all (·.1) = true) :
    a1 = true ∧ a2 = true ∧ a3 = true ∧ a4 = true ∧ a5 = true ∧ a6 = true ∧ a7 = true ∧ a8 = true ∧ a9 = true := by
  simpa using c

theorem chkH1 {h : Hdr} {m : List Nat} {t : List Ty} {p q r : Bool} {a1 : Bool} {e1 : DecodeError} (c : (hdrOk h m t p q r ++ [(a1, e1)]).all (·.1) = true) :
    (hdrOk h m t p q r).all (·.1) = true ∧ a1 = true := by
  simpa using c

theorem chkH2 {h : Hdr} {m : List Nat} {t : List Ty} {p q r : Bool} {a1 a2 : Bool} {e1 e2 : DecodeError} (c : (hdrOk h m t p q r ++ [(a1, e1), (a2, e2)]).all (·.1) = true) :
    (hdrOk h m t p q r).all (·.1) = true ∧ a1 = true ∧ a2 = true := by
  simpa using c

theorem chkH3 {h : Hdr} {m : List Nat} {t : List Ty} {p q r : Bool} {a1 a2 a3 : Bool} {e1 e2 e3 : DecodeError} (c : (hdrOk h m t p q r ++ [(a1, e1), (a2, e2), (a3, e3)]).all (·.1) = true) :
    (hdrOk h m t p q r).all (·.1) = true ∧ a1 = true ∧ a2 = true ∧ a3 = true := by
  simpa using c

theorem chkH4 {h : Hdr} {m : List Nat} {t : List Ty} {p q r : Bool} {a1 a2 a3 a4 : Bool} {e1 e2 e3 e4 : DecodeError} (c : (hdrOk h m t p q r ++ [(a1, e1), (a2, e2), (a3, e3), (a4, e4)]).all (·.1) = true) :
    (hdrOk h m t p q r).all (·.1) = true ∧ a1 = true ∧ a2 = true ∧ a3 = true ∧ a4 = true := by
  simpa using c

theorem chkH5 {h : Hdr} {m : List Nat} {t : List Ty} {p q r : Bool} {a1 a2 a3 a4 a5 : Bool} {e1 e2 e3 e4 e5 : DecodeError} (c : (hdrOk h m t p q r ++ [(a1, e1), (a2, e2), (a3, e3), (a4, e4), (a5, e5)]).all (·.1) = true) :
    (hdrOk h m t p q r).all (·.1) = true ∧ a1 = true ∧ a2 = true ∧ a3 = true ∧ a4 = true ∧ a5 = true := by
  simpa using c

theorem chkH6 {h : Hdr} {m : List Nat} {t : List Ty} {p q r : Bool} {a1 a2 a3 a4 a5 a6 : Bool} {e1 e2 e3 e4 e5 e6 : DecodeError} (c : (hdrOk h m t p q r ++ [(a1, e1), (a2, e2), (a3, e3), (a4, e4), (a5, e5), (a6, e6)]).all (·.1) = true) :
    (hdrOk h m t p q r).all (·.1) = true ∧ a1 = true ∧ a2 = true ∧ a3 = true ∧ a4 = true ∧ a5 = true ∧ a6 = true := by
  simpa using c

theorem chkH7 {h : Hdr} {m : List Nat} {t : List Ty} {p q r : Bool} {a1 a2 a3 a4 a5 a6 a7 : Bool} {e1 e2 e3 e4 e5 e6 e7 : DecodeError} (c : (hdrOk h m t p q r ++ [(a1, e1), (a2, e2), (a3, e3), (a4, e4), (a5, e5), (a6, e6), (a7, e7)]).all (·.1) = true) :
    (hdrOk h m t p q r).all (·.1) = true ∧ a1 = true ∧ a2 = true ∧ a3 = true ∧ a4 = true ∧ a5 = true ∧ a6 = true ∧ a7 = true := by
  simpa using c

theorem and_l {a b : Bool} (h : (a && b) = true) : a = true := (Bool.and_eq_true_iff.1 h).1
theorem and_r {a b : Bool} (h : (a && b) = true) : b = true := (Bool.and_eq_true_iff.1 h).2

end Sys2Proof.Laws

namespace Sys2Proof.Laws.Fits

open Sys2Proof Sys2Proof.Machine Sys2Proof.Laws

/-- The fields of a well-formed instruction fit their places. -/
def Statement (i : Instr) : Prop := i.wf = true → ∀ f, instrFields i = some f → fieldsFit f

theorem moduleReset : Statement (.moduleReset) := fun _ _ h => nomatch h

theorem powerLoss : Statement (.powerLoss) := fun _ _ h => nomatch h

theorem dieLoss (dies : BitVec 16) : Statement (.dieLoss dies) := fun _ _ h => nomatch h

theorem dieReset (port : Port) (die : Nat) : Statement (.dieReset port die) := fun _ _ h => nomatch h

theorem clockThrottle : Statement (.clockThrottle) := fun _ _ h => nomatch h

theorem clockRestore : Statement (.clockRestore) := fun _ _ h => nomatch h

theorem healthUpdate (conf : Nat) (worst : Nat) (r : Reading) : Statement (.healthUpdate conf worst r) := fun _ _ h => nomatch h

theorem healthSnapshot : Statement (.healthSnapshot) := fun _ _ h => nomatch h

theorem hbmErrorWindow (stack : Nat) : Statement (.hbmErrorWindow stack) := fun _ _ h => nomatch h

theorem flitReceive (port : Nat) (f : Flit) : Statement (.flitReceive port f) := fun _ _ h => nomatch h

theorem portDown (port : Nat) : Statement (.portDown port) := fun _ _ h => nomatch h

theorem portRetrain (port : Nat) : Statement (.portRetrain port) := fun _ _ h => nomatch h

theorem spanMgtMessage (m : MgtMsg) : Statement (.spanMgtMessage m) := fun _ _ h => nomatch h

theorem ubyozoErrcntRead (host : Port) (port : Nat) : Statement (.ubyozoErrcntRead host port) := fun _ _ h => nomatch h

theorem hostLinkDown (port : Port) : Statement (.hostLinkDown port) := fun _ _ h => nomatch h

theorem hostLinkUp (port : Port) : Statement (.hostLinkUp port) := fun _ _ h => nomatch h

theorem msemAcquire (a : Bool) (b : Bool) : Statement (.msemAcquire a b) := fun _ _ h => nomatch h

theorem msemRelease (port : Port) : Statement (.msemRelease port) := fun _ _ h => nomatch h

theorem msemLeaseWrite (port : Port) (lease : BitVec 16) : Statement (.msemLeaseWrite port lease) := fun _ _ h => nomatch h

theorem msemLeaseExpiry : Statement (.msemLeaseExpiry) := fun _ _ h => nomatch h

theorem msemExpdClear (port : Port) : Statement (.msemExpdClear port) := fun _ _ h => nomatch h

theorem mgmtErrorClear (port : Port) : Statement (.mgmtErrorClear port) := fun _ _ h => nomatch h

theorem policyWrite (port : Port) (vf : Nat) (val : W64) : Statement (.policyWrite port vf val) := fun _ _ h => nomatch h

theorem partitionWrite (port : Port) (vf : Nat) (val : W64) : Statement (.partitionWrite port vf val) := fun _ _ h => nomatch h

theorem tenantReset (vf : Nat) : Statement (.tenantReset vf) := fun _ _ h => nomatch h

theorem registerWrite (port : Port) (fn : Nat) (reg : DevReg) (val : W64) : Statement (.registerWrite port fn reg val) := fun _ _ h => nomatch h

theorem cmpstatRead (port : Port) (vf : Nat) : Statement (.cmpstatRead port vf) := fun _ _ h => nomatch h

theorem queueStart (port : Port) (fn : Nat) (q : Nat) : Statement (.queueStart port fn q) := fun _ _ h => nomatch h

theorem queueStop (port : Port) (fn : Nat) (q : Nat) : Statement (.queueStop port fn q) := fun _ _ h => nomatch h

theorem queueReset (port : Port) (fn : Nat) (q : Nat) : Statement (.queueReset port fn q) := fun _ _ h => nomatch h

theorem ctsync (port : Port) (fn : Nat) : Statement (.ctsync port fn) := fun _ _ h => nomatch h

theorem ctsyncComplete : Statement (.ctsyncComplete) := fun _ _ h => nomatch h

theorem shoot (port : Port) (fn : Nat) : Statement (.shoot port fn) := fun _ _ h => nomatch h

theorem shootComplete (fn : Nat) : Statement (.shootComplete fn) := fun _ _ h => nomatch h

theorem preempt (port : Port) (fn : Nat) : Statement (.preempt port fn) := fun _ _ h => nomatch h

theorem release (port : Port) (fn : Nat) : Statement (.release port fn) := fun _ _ h => nomatch h

theorem queueBlockServe (q : Nat) : Statement (.queueBlockServe q) := fun _ _ h => nomatch h

theorem queueSerResume (q : Nat) : Statement (.queueSerResume q) := fun _ _ h => nomatch h

theorem queueWaitRecheck (q : Nat) : Statement (.queueWaitRecheck q) := fun _ _ h => nomatch h

theorem queueNextRecheck (q : Nat) : Statement (.queueNextRecheck q) := fun _ _ h => nomatch h

theorem queueCompletionWrite (q : Nat) : Statement (.queueCompletionWrite q) := fun _ _ h => nomatch h

theorem queueEngineNak (q : Nat) (reason : Nat) : Statement (.queueEngineNak q reason) := fun _ _ h => nomatch h

theorem contextCreate (port : Port) (fn : Nat) (ctx : Nat) (d : DescWrite) : Statement (.contextCreate port fn ctx d) := fun _ _ h => nomatch h

theorem contextDestroy (port : Port) (fn : Nat) (ctx : Nat) : Statement (.contextDestroy port fn ctx) := fun _ _ h => nomatch h

theorem fqReplay (port : Port) (fn : Nat) (token : Nat) : Statement (.fqReplay port fn token) := fun _ _ h => nomatch h

theorem fqKill (port : Port) (fn : Nat) (token : Nat) : Statement (.fqKill port fn token) := fun _ _ h => nomatch h

theorem fqHeadWrite (port : Port) (fn : Nat) (head : W32) : Statement (.fqHeadWrite port fn head) := fun _ _ h => nomatch h

theorem faultBatchPost (fn : Nat) : Statement (.faultBatchPost fn) := fun _ _ h => nomatch h

theorem runAheadEnd (g : GRef) : Statement (.runAheadEnd g) := fun _ _ h => nomatch h

theorem trapDeliver (g : GRef) (t : Trap) : Statement (.trapDeliver g t) := fun _ _ h => nomatch h

theorem boundaryTrap (g : GRef) : Statement (.boundaryTrap g) := fun _ _ h => nomatch h

theorem dieHalt (port : Port) (dies : BitVec 16) : Statement (.dieHalt port dies) := fun _ _ h => nomatch h

theorem dieHaltClear (port : Port) (dies : BitVec 16) : Statement (.dieHaltClear port dies) := fun _ _ h => nomatch h

theorem watchdogExpiry (launch : Nat) : Statement (.watchdogExpiry launch) := fun _ _ h => nomatch h

theorem heatHalve (port : Port) : Statement (.heatHalve port) := fun _ _ h => nomatch h

theorem heatHalveDone : Statement (.heatHalveDone) := fun _ _ h => nomatch h

theorem firmwareUpdate (port : Port) (img : FwImage) : Statement (.firmwareUpdate port img) := fun _ _ h => nomatch h

theorem spdmRequest (port : Port) : Statement (.spdmRequest port) := fun _ _ h => nomatch h

theorem rds (m : Msg) : Statement (.rds m) := fun _ _ h => nomatch h

theorem rdx (m : Msg) : Statement (.rdx m) := fun _ _ h => nomatch h

theorem upg (m : Msg) : Statement (.upg m) := fun _ _ h => nomatch h

theorem evc (m : Msg) : Statement (.evc m) := fun _ _ h => nomatch h

theorem wbd (m : Msg) : Statement (.wbd m) := fun _ _ h => nomatch h

theorem updateWrite (m : Msg) : Statement (.updateWrite m) := fun _ _ h => nomatch h

theorem updateCommit (grain : Nat) : Statement (.updateCommit grain) := fun _ _ h => nomatch h

theorem uncachedRead (m : Msg) : Statement (.uncachedRead m) := fun _ _ h => nomatch h

theorem uncachedWrite (m : Msg) : Statement (.uncachedWrite m) := fun _ _ h => nomatch h

theorem bdReductionElement (m : Msg) : Statement (.bdReductionElement m) := fun _ _ h => nomatch h

theorem fwds (m : Msg) : Statement (.fwds m) := fun _ _ h => nomatch h

theorem fwdx (m : Msg) : Statement (.fwdx m) := fun _ _ h => nomatch h

theorem inv (m : Msg) : Statement (.inv m) := fun _ _ h => nomatch h

theorem upd (m : Msg) : Statement (.upd m) := fun _ _ h => nomatch h

theorem binv (m : Msg) : Statement (.binv m) := fun _ _ h => nomatch h

theorem ack (m : Msg) : Statement (.ack m) := fun _ _ h => nomatch h

theorem cfl (m : Msg) : Statement (.cfl m) := fun _ _ h => nomatch h

theorem nak (m : Msg) : Statement (.nak m) := fun _ _ h => nomatch h

theorem data (m : Msg) : Statement (.data m) := fun _ _ h => nomatch h

theorem commitAck (m : Msg) : Statement (.commitAck m) := fun _ _ h => nomatch h

theorem wback (m : Msg) : Statement (.wback m) := fun _ _ h => nomatch h

theorem l1Evict (agent : Nat) (grain : Nat) : Statement (.l1Evict agent grain) := fun _ _ h => nomatch h

theorem bounceDelayExpiry (agent : Nat) (grain : Nat) : Statement (.bounceDelayExpiry agent grain) := fun _ _ h => nomatch h

theorem bounceReset (agent : Nat) (grain : Nat) : Statement (.bounceReset agent grain) := fun _ _ h => nomatch h

theorem hostSnoop (line : Nat) (write : Bool) : Statement (.hostSnoop line write) := fun _ _ h => nomatch h

theorem hostAccess (m : Msg) : Statement (.hostAccess m) := fun _ _ h => nomatch h

theorem lrd (m : Msg) : Statement (.lrd m) := fun _ _ h => nomatch h

theorem lset (m : Msg) : Statement (.lset m) := fun _ _ h => nomatch h

theorem llock (m : Msg) : Statement (.llock m) := fun _ _ h => nomatch h

theorem lunl (m : Msg) : Statement (.lunl m) := fun _ _ h => nomatch h

theorem lhist (m : Msg) : Statement (.lhist m) := fun _ _ h => nomatch h

theorem windowClose (region : Nat) : Statement (.windowClose region) := fun _ _ h => nomatch h

theorem switchingComplete (region : Nat) : Statement (.switchingComplete region) := fun _ _ h => nomatch h

theorem regionEntryEvict (region : Nat) : Statement (.regionEntryEvict region) := fun _ _ h => nomatch h

theorem compReadMiss (page : Nat) : Statement (.compReadMiss page) := fun _ _ h => nomatch h

theorem compWriteback (page : Nat) : Statement (.compWriteback page) := fun _ _ h => nomatch h

theorem compWritebackRetry (page : Nat) : Statement (.compWritebackRetry page) := fun _ _ h => nomatch h

theorem blockPlace (launch : Nat) : Statement (.blockPlace launch) := fun _ _ h => nomatch h

theorem sliceExpiry (launch : Nat) : Statement (.sliceExpiry launch) := fun _ _ h => nomatch h

theorem haltComplete (ctx : Nat) : Statement (.haltComplete ctx) := fun _ _ h => nomatch h

theorem blockResume (blk : Nat) : Statement (.blockResume blk) := fun _ _ h => nomatch h

theorem granuleFill (blk : Nat) (g : Granule) : Statement (.granuleFill blk g) := fun _ _ h => nomatch h

theorem blockRetire (blk : Nat) : Statement (.blockRetire blk) := fun _ _ h => nomatch h

theorem yieldExpiry (g : GRef) : Statement (.yieldExpiry g) := fun _ _ h => nomatch h

theorem xacqGrant (blk : Nat) : Statement (.xacqGrant blk) := fun _ _ h => nomatch h

theorem accessReturn (op : Nat) : Statement (.accessReturn op) := fun _ _ h => nomatch h

theorem stackFill (g : GRef) : Statement (.stackFill g) := fun _ _ h => nomatch h

theorem copyCommandComplete (op : Nat) : Statement (.copyCommandComplete op) := fun _ _ h => nomatch h

theorem bdPieceApply (op : Nat) (piece : Nat) : Statement (.bdPieceApply op piece) := fun _ _ h => nomatch h

theorem bdCommandComplete (op : Nat) : Statement (.bdCommandComplete op) := fun _ _ h => nomatch h

theorem teamMmatStart (blk : Nat) (team : Nat) : Statement (.teamMmatStart blk team) := fun _ _ h => nomatch h

theorem matrixOpComplete (core : Nat) : Statement (.matrixOpComplete core) := fun _ _ h => nomatch h

theorem matrixBatchComplete (g : GRef) : Statement (.matrixBatchComplete g) := fun _ _ h => nomatch h

theorem streamWindowRun (core : Nat) : Statement (.streamWindowRun core) := fun _ _ h => nomatch h

theorem floorRoundStart (wl : Nat) : Statement (.floorRoundStart wl) := fun _ _ h => nomatch h

theorem floorRoundAnnounce (wl : Nat) (shard : Nat) : Statement (.floorRoundAnnounce wl shard) := fun _ _ h => nomatch h

theorem lowerReceive (wl : Nat) (shard : Nat) (key : Nat) (frm : Nat) : Statement (.lowerReceive wl shard key frm) := fun _ _ h => nomatch h

theorem lowerAckComplete (wl : Nat) (shard : Nat) : Statement (.lowerAckComplete wl shard) := fun _ _ h => nomatch h

theorem stealRequest (wl : Nat) (shard : Nat) : Statement (.stealRequest wl shard) := fun _ _ h => nomatch h

theorem stealConfirm (wl : Nat) (shard : Nat) : Statement (.stealConfirm wl shard) := fun _ _ h => nomatch h

theorem terminationWave (wl : Nat) : Statement (.terminationWave wl) := fun _ _ h => nomatch h

theorem shardHandover (core : Nat) : Statement (.shardHandover core) := fun _ _ h => nomatch h

theorem shardUnreachableTimeout (wl : Nat) (shard : Nat) : Statement (.shardUnreachableTimeout wl shard) := fun _ _ h => nomatch h

theorem padWordSkip (w : W32) : Statement (.padWordSkip w) := fun _ _ h => nomatch h

theorem illegalWord (w : BitVec 128) : Statement (.illegalWord w) := fun _ _ h => nomatch h

theorem fetchFault (g : GRef) : Statement (.fetchFault g) := fun _ _ h => nomatch h

theorem ackWithGrant (m : Msg) : Statement (.ackWithGrant m) := fun _ _ h => nomatch h

theorem labelCommandResult (m : Msg) : Statement (.labelCommandResult m) := fun _ _ h => nomatch h

theorem padSliceAccess (op : Nat) (slice : Nat) : Statement (.padSliceAccess op slice) := fun _ _ h => nomatch h

theorem clusterSlabAccess (op : Nat) : Statement (.clusterSlabAccess op) := fun _ _ h => nomatch h

theorem nop : Statement (.nop) := fun _ _ e => by
  cases e
  exact fit (by decide : 0x00 < 2 ^ 6) (by decide : 0x00 < 2 ^ 6) (by decide : 0 < 2 ^ 4) (by decide : 0 < 2) (by decide : 0 < 2 ^ 2) (by decide : 0 < 2 ^ 11) (by decide : 0 < 2 ^ 11) (by decide : 0 < 2 ^ 11) (by decide : 0 < 2 ^ 6) (by decide : 0 < 2 ^ 4) (tail_b rfl rfl rfl rfl rfl)

theorem bra (c : Nat) (neg : Bool) (off : W32) : Statement (.bra c neg off) := fun w _ e => by
  obtain c1 := chk1 (checks_of_wf w)
  have c1 := of_decide_eq_true c1
  cases e
  exact fit (by decide : 0x00 < 2 ^ 6) (by decide : 0x01 < 2 ^ 6) (by decide : 0 < 2 ^ 4) (by decide : 0 < 2) (by decide : 0 < 2 ^ 2) (by decide : 0 < 2 ^ 11) (show c < 2 ^ 11 by omega) (bool_lt _) (by decide : 0 < 2 ^ 6) (by decide : 0 < 2 ^ 4) (tail_i rfl (BitVec.isLt _) rfl rfl rfl)

theorem brd (c : Nat) (neg : Bool) (tgt : W32) (rpc : W32) : Statement (.brd c neg tgt rpc) := fun w _ e => by
  obtain c1 := chk1 (checks_of_wf w)
  have c1 := of_decide_eq_true c1
  cases e
  exact fit (by decide : 0x00 < 2 ^ 6) (by decide : 0x02 < 2 ^ 6) (by decide : 0 < 2 ^ 4) (by decide : 0 < 2) (by decide : 0 < 2 ^ 2) (by decide : 0 < 2 ^ 11) (show c < 2 ^ 11 by omega) (bool_lt _) (by decide : 0 < 2 ^ 6) (by decide : 0 < 2 ^ 4) (tail_ii rfl (BitVec.isLt _) (BitVec.isLt _) rfl rfl)

theorem brx (a : VSrc) : Statement (.brx a) := fun w _ e => by
  obtain c1 := chk1 (checks_of_wf w)
  cases e
  exact fit (by decide : 0x00 < 2 ^ 6) (by decide : 0x03 < 2 ^ 6) (by decide : 0 < 2 ^ 4) (by decide : 0 < 2) (by decide : 0 < 2 ^ 2) (by decide : 0 < 2 ^ 11) (brx_lt c1) (by decide : 0 < 2 ^ 11) (tyCode_lt Ty.n64) (by decide : 0 < 2 ^ 4) (tail_b rfl rfl rfl rfl rfl)

theorem call (nw : Bool) (kd : Nat) (off : W32) : Statement (.call nw kd off) := fun w _ e => by
  obtain c1 := chk1 (checks_of_wf w)
  cases e
  exact fit (by decide : 0x00 < 2 ^ 6) (by decide : 0x04 < 2 ^ 6) (by decide : 0 < 2 ^ 4) (nw_lt _) (by decide : 0 < 2 ^ 2) (kCode_lt c1) (by decide : 0 < 2 ^ 11) (by decide : 0 < 2 ^ 11) (by decide : 0 < 2 ^ 6) (by decide : 0 < 2 ^ 4) (tail_i rfl (BitVec.isLt _) rfl rfl rfl)

theorem ret (ka : Nat) : Statement (.ret ka) := fun w _ e => by
  obtain c1 := chk1 (checks_of_wf w)
  cases e
  exact fit (by decide : 0x00 < 2 ^ 6) (by decide : 0x05 < 2 ^ 6) (by decide : 0 < 2 ^ 4) (by decide : 0 < 2) (by decide : 0 < 2 ^ 2) (by decide : 0 < 2 ^ 11) (kCode_lt c1) (by decide : 0 < 2 ^ 11) (by decide : 0 < 2 ^ 6) (by decide : 0 < 2 ^ 4) (tail_b rfl rfl rfl rfl rfl)

theorem exit : Statement (.exit) := fun _ _ e => by
  cases e
  exact fit (by decide : 0x00 < 2 ^ 6) (by decide : 0x06 < 2 ^ 6) (by decide : 0 < 2 ^ 4) (by decide : 0 < 2) (by decide : 0 < 2 ^ 2) (by decide : 0 < 2 ^ 11) (by decide : 0 < 2 ^ 11) (by decide : 0 < 2 ^ 11) (by decide : 0 < 2 ^ 6) (by decide : 0 < 2 ^ 4) (tail_b rfl rfl rfl rfl rfl)

theorem yield : Statement (.yield) := fun _ _ e => by
  cases e
  exact fit (by decide : 0x00 < 2 ^ 6) (by decide : 0x07 < 2 ^ 6) (by decide : 0 < 2 ^ 4) (by decide : 0 < 2) (by decide : 0 < 2 ^ 2) (by decide : 0 < 2 ^ 11) (by decide : 0 < 2 ^ 11) (by decide : 0 < 2 ^ 11) (by decide : 0 < 2 ^ 6) (by decide : 0 < 2 ^ 4) (tail_b rfl rfl rfl rfl rfl)

theorem trap (imm : W32) : Statement (.trap imm) := fun _ _ e => by
  cases e
  exact fit (by decide : 0x00 < 2 ^ 6) (by decide : 0x08 < 2 ^ 6) (by decide : 0 < 2 ^ 4) (by decide : 0 < 2) (by decide : 0 < 2 ^ 2) (by decide : 0 < 2 ^ 11) (by decide : 0 < 2 ^ 11) (by decide : 0 < 2 ^ 11) (by decide : 0 < 2 ^ 6) (by decide : 0 < 2 ^ 4) (tail_i rfl (BitVec.isLt _) rfl rfl rfl)

theorem tret : Statement (.tret) := fun _ _ e => by
  cases e
  exact fit (by decide : 0x00 < 2 ^ 6) (by decide : 0x09 < 2 ^ 6) (by decide : 0 < 2 ^ 4) (by decide : 0 < 2) (by decide : 0 < 2 ^ 2) (by decide : 0 < 2 ^ 11) (by decide : 0 < 2 ^ 11) (by decide : 0 < 2 ^ 11) (by decide : 0 < 2 ^ 6) (by decide : 0 < 2 ^ 4) (tail_b rfl rfl rfl rfl rfl)

theorem launch (nw : Bool) (kd : Nat) (ka : Nat) : Statement (.launch nw kd ka) := fun w _ e => by
  obtain ⟨c1, c2⟩ := chk2 (checks_of_wf w)
  cases e
  exact fit (by decide : 0x01 < 2 ^ 6) (by decide : 0x00 < 2 ^ 6) (by decide : 0 < 2 ^ 4) (nw_lt _) (by decide : 0 < 2 ^ 2) (kCode_lt c1) (kCode_lt c2) (by decide : 0 < 2 ^ 11) (by decide : 0 < 2 ^ 6) (by decide : 0 < 2 ^ 4) (tail_b rfl rfl rfl rfl rfl)

theorem spawn (nw : Bool) (kd : Nat) (ka : Nat) (arg : Option Nat) : Statement (.spawn nw kd ka arg) := fun w _ e => by
  obtain ⟨c1, c2, c3⟩ := chk3 (checks_of_wf w)
  cases e
  exact fit (by decide : 0x01 < 2 ^ 6) (by decide : 0x01 < 2 ^ 6) (by decide : 0 < 2 ^ 4) (nw_lt _) (by decide : 0 < 2 ^ 2) (kCode_lt c1) (kCode_lt c2) (kCode0_lt c3) (by decide : 0 < 2 ^ 6) (by decide : 0 < 2 ^ 4) (tail_b rfl rfl rfl rfl rfl)

theorem lwait (nw : Bool) (kd : Nat) (ka : Nat) : Statement (.lwait nw kd ka) := fun w _ e => by
  obtain ⟨c1, c2⟩ := chk2 (checks_of_wf w)
  cases e
  exact fit (by decide : 0x01 < 2 ^ 6) (by decide : 0x02 < 2 ^ 6) (by decide : 0 < 2 ^ 4) (nw_lt _) (by decide : 0 < 2 ^ 2) (kCode_lt c1) (kCode_lt c2) (by decide : 0 < 2 ^ 11) (by decide : 0 < 2 ^ 6) (by decide : 0 < 2 ^ 4) (tail_b rfl rfl rfl rfl rfl)

theorem bar (n : Nat) (cnt : Option Nat) : Statement (.bar n cnt) := fun w _ e => by
  obtain ⟨c1, c2⟩ := chk2 (checks_of_wf w)
  have c1 := of_decide_eq_true c1
  cases e
  exact fit (by decide : 0x02 < 2 ^ 6) (by decide : 0x00 < 2 ^ 6) (by decide : 0 < 2 ^ 4) (by decide : 0 < 2) (by decide : 0 < 2 ^ 2) (by decide : 0 < 2 ^ 11) (show n < 2 ^ 11 by omega) (kCode0_lt c2) (by decide : 0 < 2 ^ 6) (by decide : 0 < 2 ^ 4) (tail_b rfl rfl rfl rfl rfl)

theorem arrive (nw : Bool) (kd : Nat) (n : Nat) (cnt : Option Nat) : Statement (.arrive nw kd n cnt) := fun w _ e => by
  obtain ⟨c1, c2, c3⟩ := chk3 (checks_of_wf w)
  have c2 := of_decide_eq_true c2
  cases e
  exact fit (by decide : 0x02 < 2 ^ 6) (by decide : 0x01 < 2 ^ 6) (by decide : 0 < 2 ^ 4) (nw_lt _) (by decide : 0 < 2 ^ 2) (kCode_lt c1) (show n < 2 ^ 11 by omega) (kCode0_lt c3) (by decide : 0 < 2 ^ 6) (by decide : 0 < 2 ^ 4) (tail_b rfl rfl rfl rfl rfl)

theorem await (n : Nat) (kp : Nat) : Statement (.await n kp) := fun w _ e => by
  obtain ⟨c1, c2⟩ := chk2 (checks_of_wf w)
  have c1 := of_decide_eq_true c1
  cases e
  exact fit (by decide : 0x02 < 2 ^ 6) (by decide : 0x02 < 2 ^ 6) (by decide : 0 < 2 ^ 4) (by decide : 0 < 2) (by decide : 0 < 2 ^ 2) (by decide : 0 < 2 ^ 11) (show n < 2 ^ 11 by omega) (kCode_lt c2) (by decide : 0 < 2 ^ 6) (by decide : 0 < 2 ^ 4) (tail_b rfl rfl rfl rfl rfl)

theorem cbar (n : Nat) (cnt : Option Nat) (rank : Nat) (file : Nat) : Statement (.cbar n cnt rank file) := fun w _ e => by
  obtain ⟨c1, c2, c3, c4, c5⟩ := chk5 (checks_of_wf w)
  have c1 := of_decide_eq_true c1
  have c3 := of_decide_eq_true c3
  have c4 := of_decide_eq_true c4
  have c5 := of_decide_eq_true c5
  cases e
  exact fit (by decide : 0x02 < 2 ^ 6) (by decide : 0x03 < 2 ^ 6) (by decide : 0 < 2 ^ 4) (by decide : 0 < 2) (by decide : 0 < 2 ^ 2) (by decide : 0 < 2 ^ 11) (show n < 2 ^ 11 by omega) (kCode0_lt c2) (by decide : 0 < 2 ^ 6) (by decide : 0 < 2 ^ 4) (tail_s rfl rfl rfl (by decide : 0 < 2 ^ 11) (show rank + file * 2 ^ 4 < 2 ^ 21 by omega))

theorem xacq (n : Nat) : Statement (.xacq n) := fun w _ e => by
  obtain c1 := chk1 (checks_of_wf w)
  have c1 := of_decide_eq_true c1
  cases e
  exact fit (by decide : 0x03 < 2 ^ 6) (by decide : 0x00 < 2 ^ 6) (by decide : 0 < 2 ^ 4) (by decide : 0 < 2) (by decide : 0 < 2 ^ 2) (by decide : 0 < 2 ^ 11) (by decide : 0 < 2 ^ 11) (by decide : 0 < 2 ^ 11) (by decide : 0 < 2 ^ 6) (by decide : 0 < 2 ^ 4) (tail_i rfl (show n < 2 ^ 32 by omega) rfl rfl rfl)

theorem xrel : Statement (.xrel) := fun _ _ e => by
  cases e
  exact fit (by decide : 0x03 < 2 ^ 6) (by decide : 0x01 < 2 ^ 6) (by decide : 0 < 2 ^ 4) (by decide : 0 < 2) (by decide : 0 < 2 ^ 2) (by decide : 0 < 2 ^ 11) (by decide : 0 < 2 ^ 11) (by decide : 0 < 2 ^ 11) (by decide : 0 < 2 ^ 6) (by decide : 0 < 2 ^ 4) (tail_b rfl rfl rfl rfl rfl)

theorem rgive (n : Nat) : Statement (.rgive n) := fun w _ e => by
  obtain c1 := chk1 (checks_of_wf w)
  have c1 := of_decide_eq_true c1
  cases e
  exact fit (by decide : 0x03 < 2 ^ 6) (by decide : 0x02 < 2 ^ 6) (by decide : 0 < 2 ^ 4) (by decide : 0 < 2) (by decide : 0 < 2 ^ 2) (by decide : 0 < 2 ^ 11) (by decide : 0 < 2 ^ 11) (by decide : 0 < 2 ^ 11) (by decide : 0 < 2 ^ 6) (by decide : 0 < 2 ^ 4) (tail_i rfl (show n < 2 ^ 32 by omega) rfl rfl rfl)

theorem rclaim (nw : Bool) (kd : Nat) (n : Nat) : Statement (.rclaim nw kd n) := fun w _ e => by
  obtain ⟨c1, c2⟩ := chk2 (checks_of_wf w)
  have c2 := of_decide_eq_true c2
  cases e
  exact fit (by decide : 0x03 < 2 ^ 6) (by decide : 0x03 < 2 ^ 6) (by decide : 0 < 2 ^ 4) (nw_lt _) (by decide : 0 < 2 ^ 2) (kCode_lt c1) (by decide : 0 < 2 ^ 11) (by decide : 0 < 2 ^ 11) (by decide : 0 < 2 ^ 6) (by decide : 0 < 2 ^ 4) (tail_i rfl (show n < 2 ^ 32 by omega) rfl rfl rfl)

theorem rolesw (n : Nat) : Statement (.rolesw n) := fun w _ e => by
  obtain c1 := chk1 (checks_of_wf w)
  have c1 := of_decide_eq_true c1
  cases e
  exact fit (by decide : 0x03 < 2 ^ 6) (by decide : 0x04 < 2 ^ 6) (by decide : 0 < 2 ^ 4) (by decide : 0 < 2) (by decide : 0 < 2 ^ 2) (by decide : 0 < 2 ^ 11) (by decide : 0 < 2 ^ 11) (by decide : 0 < 2 ^ 11) (by decide : 0 < 2 ^ 6) (by decide : 0 < 2 ^ 4) (tail_i rfl (show n < 2 ^ 32 by omega) rfl rfl rfl)

theorem setfmt (ka : Nat) : Statement (.setfmt ka) := fun w _ e => by
  obtain c1 := chk1 (checks_of_wf w)
  cases e
  exact fit (by decide : 0x04 < 2 ^ 6) (by decide : 0x00 < 2 ^ 6) (by decide : 0 < 2 ^ 4) (by decide : 0 < 2) (by decide : 0 < 2 ^ 2) (by decide : 0 < 2 ^ 11) (kCode_lt c1) (by decide : 0 < 2 ^ 11) (by decide : 0 < 2 ^ 6) (by decide : 0 < 2 ^ 4) (tail_b rfl rfl rfl rfl rfl)

theorem setfmtImm (imm : W32) : Statement (.setfmtImm imm) := fun _ _ e => by
  cases e
  exact fit (by decide : 0x04 < 2 ^ 6) (by decide : 0x20 < 2 ^ 6) (by decide : 0 < 2 ^ 4) (by decide : 0 < 2) (by decide : 0 < 2 ^ 2) (by decide : 0 < 2 ^ 11) (by decide : 0 < 2 ^ 11) (by decide : 0 < 2 ^ 11) (by decide : 0 < 2 ^ 6) (by decide : 0 < 2 ^ 4) (tail_i rfl (BitVec.isLt _) rfl rfl rfl)

theorem getfmt (nw : Bool) (kd : Nat) : Statement (.getfmt nw kd) := fun w _ e => by
  obtain c1 := chk1 (checks_of_wf w)
  cases e
  exact fit (by decide : 0x04 < 2 ^ 6) (by decide : 0x01 < 2 ^ 6) (by decide : 0 < 2 ^ 4) (nw_lt _) (by decide : 0 < 2 ^ 2) (kCode_lt c1) (by decide : 0 < 2 ^ 11) (by decide : 0 < 2 ^ 11) (by decide : 0 < 2 ^ 6) (by decide : 0 < 2 ^ 4) (tail_b rfl rfl rfl rfl rfl)

theorem crd (nw : Bool) (kd : Nat) (c : Nat) : Statement (.crd nw kd c) := fun w _ e => by
  obtain ⟨c1, c2⟩ := chk2 (checks_of_wf w)
  have c2 := of_decide_eq_true c2
  cases e
  exact fit (by decide : 0x04 < 2 ^ 6) (by decide : 0x02 < 2 ^ 6) (by decide : 0 < 2 ^ 4) (nw_lt _) (by decide : 0 < 2 ^ 2) (kCode_lt c1) (show c < 2 ^ 11 by omega) (by decide : 0 < 2 ^ 11) (by decide : 0 < 2 ^ 6) (by decide : 0 < 2 ^ 4) (tail_b rfl rfl rfl rfl rfl)

theorem cwr (c : Nat) (ka : Nat) : Statement (.cwr c ka) := fun w _ e => by
  obtain ⟨c1, c2⟩ := chk2 (checks_of_wf w)
  cases e
  exact fit (by decide : 0x04 < 2 ^ 6) (by decide : 0x03 < 2 ^ 6) (by decide : 0 < 2 ^ 4) (by decide : 0 < 2) (by decide : 0 < 2 ^ 2) (cwr_lt c1) (kCode_lt c2) (by decide : 0 < 2 ^ 11) (by decide : 0 < 2 ^ 6) (by decide : 0 < 2 ^ 4) (tail_b rfl rfl rfl rfl rfl)

theorem clock (nw : Bool) (kd : Nat) : Statement (.clock nw kd) := fun w _ e => by
  obtain c1 := chk1 (checks_of_wf w)
  cases e
  exact fit (by decide : 0x04 < 2 ^ 6) (by decide : 0x04 < 2 ^ 6) (by decide : 0 < 2 ^ 4) (nw_lt _) (by decide : 0 < 2 ^ 2) (kCode_lt c1) (by decide : 0 < 2 ^ 11) (by decide : 0 < 2 ^ 11) (by decide : 0 < 2 ^ 6) (by decide : 0 < 2 ^ 4) (tail_b rfl rfl rfl rfl rfl)

theorem kmov (h : Hdr) (kd : Nat) (ka : Nat) : Statement (.kmov h kd ka) := fun w _ e => by
  obtain ⟨c0, c1, c2⟩ := chkH2 (checks_of_wf w)
  cases e
  exact fit (by decide : 0x05 < 2 ^ 6) (by decide : 0x00 < 2 ^ 6) (hdr_fits (by decide) c0).1 (nw_lt _) (hdr_fits (by decide) c0).2.1 (kCode_lt c1) (kCode_lt c2) (by decide : 0 < 2 ^ 11) (tyCode_lt _) (hdr_fits (by decide) c0).2.2 (tail_b rfl rfl rfl rfl rfl)

theorem kadd (h : Hdr) (kd : Nat) (ka : Nat) (kb : Nat) : Statement (.kadd h kd ka kb) := fun w _ e => by
  obtain ⟨c0, c1, c2, c3⟩ := chkH3 (checks_of_wf w)
  cases e
  exact fit (by decide : 0x05 < 2 ^ 6) (by decide : 0x01 < 2 ^ 6) (hdr_fits (by decide) c0).1 (nw_lt _) (hdr_fits (by decide) c0).2.1 (kCode_lt c1) (kCode_lt c2) (kCode_lt c3) (tyCode_lt _) (hdr_fits (by decide) c0).2.2 (tail_b rfl rfl rfl rfl rfl)

theorem kaddImm (h : Hdr) (kd : Nat) (ka : Nat) (imm : W32) : Statement (.kaddImm h kd ka imm) := fun w _ e => by
  obtain ⟨c0, c1, c2⟩ := chkH2 (checks_of_wf w)
  cases e
  exact fit (by decide : 0x05 < 2 ^ 6) (by decide : 0x21 < 2 ^ 6) (hdr_fits (by decide) c0).1 (nw_lt _) (hdr_fits (by decide) c0).2.1 (kCode_lt c1) (kCode_lt c2) (by decide : 0 < 2 ^ 11) (tyCode_lt _) (hdr_fits (by decide) c0).2.2 (tail_i rfl (BitVec.isLt _) rfl rfl rfl)

theorem ksub (h : Hdr) (kd : Nat) (ka : Nat) (kb : Nat) : Statement (.ksub h kd ka kb) := fun w _ e => by
  obtain ⟨c0, c1, c2, c3⟩ := chkH3 (checks_of_wf w)
  cases e
  exact fit (by decide : 0x05 < 2 ^ 6) (by decide : 0x02 < 2 ^ 6) (hdr_fits (by decide) c0).1 (nw_lt _) (hdr_fits (by decide) c0).2.1 (kCode_lt c1) (kCode_lt c2) (kCode_lt c3) (tyCode_lt _) (hdr_fits (by decide) c0).2.2 (tail_b rfl rfl rfl rfl rfl)

theorem ksubImm (h : Hdr) (kd : Nat) (ka : Nat) (imm : W32) : Statement (.ksubImm h kd ka imm) := fun w _ e => by
  obtain ⟨c0, c1, c2⟩ := chkH2 (checks_of_wf w)
  cases e
  exact fit (by decide : 0x05 < 2 ^ 6) (by decide : 0x22 < 2 ^ 6) (hdr_fits (by decide) c0).1 (nw_lt _) (hdr_fits (by decide) c0).2.1 (kCode_lt c1) (kCode_lt c2) (by decide : 0 < 2 ^ 11) (tyCode_lt _) (hdr_fits (by decide) c0).2.2 (tail_i rfl (BitVec.isLt _) rfl rfl rfl)

theorem kmul (h : Hdr) (kd : Nat) (ka : Nat) (kb : Nat) : Statement (.kmul h kd ka kb) := fun w _ e => by
  obtain ⟨c0, c1, c2, c3⟩ := chkH3 (checks_of_wf w)
  cases e
  exact fit (by decide : 0x05 < 2 ^ 6) (by decide : 0x03 < 2 ^ 6) (hdr_fits (by decide) c0).1 (nw_lt _) (hdr_fits (by decide) c0).2.1 (kCode_lt c1) (kCode_lt c2) (kCode_lt c3) (tyCode_lt _) (hdr_fits (by decide) c0).2.2 (tail_b rfl rfl rfl rfl rfl)

theorem kmulImm (h : Hdr) (kd : Nat) (ka : Nat) (imm : W32) : Statement (.kmulImm h kd ka imm) := fun w _ e => by
  obtain ⟨c0, c1, c2⟩ := chkH2 (checks_of_wf w)
  cases e
  exact fit (by decide : 0x05 < 2 ^ 6) (by decide : 0x23 < 2 ^ 6) (hdr_fits (by decide) c0).1 (nw_lt _) (hdr_fits (by decide) c0).2.1 (kCode_lt c1) (kCode_lt c2) (by decide : 0 < 2 ^ 11) (tyCode_lt _) (hdr_fits (by decide) c0).2.2 (tail_i rfl (BitVec.isLt _) rfl rfl rfl)

theorem kmad (h : Hdr) (kd : Nat) (ka : Nat) (kb : Nat) (kc : Nat) : Statement (.kmad h kd ka kb kc) := fun w _ e => by
  obtain ⟨c0, c1, c2, c3, c4⟩ := chkH4 (checks_of_wf w)
  cases e
  exact fit (by decide : 0x05 < 2 ^ 6) (by decide : 0x04 < 2 ^ 6) (hdr_fits (by decide) c0).1 (nw_lt _) (hdr_fits (by decide) c0).2.1 (kCode_lt c1) (kCode_lt c2) (kCode_lt c3) (tyCode_lt _) (hdr_fits (by decide) c0).2.2 (tail_s rfl rfl rfl (kCode_lt c4) (by decide : 0 < 2 ^ 21))

theorem kmadImm (h : Hdr) (kd : Nat) (ka : Nat) (imm : W32) (kc : Nat) : Statement (.kmadImm h kd ka imm kc) := fun w _ e => by
  obtain ⟨c0, c1, c2, c3⟩ := chkH3 (checks_of_wf w)
  cases e
  exact fit (by decide : 0x05 < 2 ^ 6) (by decide : 0x24 < 2 ^ 6) (hdr_fits (by decide) c0).1 (nw_lt _) (hdr_fits (by decide) c0).2.1 (kCode_lt c1) (kCode_lt c2) (by decide : 0 < 2 ^ 11) (tyCode_lt _) (hdr_fits (by decide) c0).2.2 (tail_si rfl rfl (BitVec.isLt _) (kCode_lt c3) (by decide : 0 < 2 ^ 21))

theorem kand (h : Hdr) (kd : Nat) (ka : Nat) (kb : Nat) : Statement (.kand h kd ka kb) := fun w _ e => by
  obtain ⟨c0, c1, c2, c3⟩ := chkH3 (checks_of_wf w)
  cases e
  exact fit (by decide : 0x05 < 2 ^ 6) (by decide : 0x05 < 2 ^ 6) (hdr_fits (by decide) c0).1 (nw_lt _) (hdr_fits (by decide) c0).2.1 (kCode_lt c1) (kCode_lt c2) (kCode_lt c3) (tyCode_lt _) (hdr_fits (by decide) c0).2.2 (tail_b rfl rfl rfl rfl rfl)

theorem kandImm (h : Hdr) (kd : Nat) (ka : Nat) (imm : W32) : Statement (.kandImm h kd ka imm) := fun w _ e => by
  obtain ⟨c0, c1, c2⟩ := chkH2 (checks_of_wf w)
  cases e
  exact fit (by decide : 0x05 < 2 ^ 6) (by decide : 0x25 < 2 ^ 6) (hdr_fits (by decide) c0).1 (nw_lt _) (hdr_fits (by decide) c0).2.1 (kCode_lt c1) (kCode_lt c2) (by decide : 0 < 2 ^ 11) (tyCode_lt _) (hdr_fits (by decide) c0).2.2 (tail_i rfl (BitVec.isLt _) rfl rfl rfl)

theorem kor (h : Hdr) (kd : Nat) (ka : Nat) (kb : Nat) : Statement (.kor h kd ka kb) := fun w _ e => by
  obtain ⟨c0, c1, c2, c3⟩ := chkH3 (checks_of_wf w)
  cases e
  exact fit (by decide : 0x05 < 2 ^ 6) (by decide : 0x06 < 2 ^ 6) (hdr_fits (by decide) c0).1 (nw_lt _) (hdr_fits (by decide) c0).2.1 (kCode_lt c1) (kCode_lt c2) (kCode_lt c3) (tyCode_lt _) (hdr_fits (by decide) c0).2.2 (tail_b rfl rfl rfl rfl rfl)

theorem korImm (h : Hdr) (kd : Nat) (ka : Nat) (imm : W32) : Statement (.korImm h kd ka imm) := fun w _ e => by
  obtain ⟨c0, c1, c2⟩ := chkH2 (checks_of_wf w)
  cases e
  exact fit (by decide : 0x05 < 2 ^ 6) (by decide : 0x26 < 2 ^ 6) (hdr_fits (by decide) c0).1 (nw_lt _) (hdr_fits (by decide) c0).2.1 (kCode_lt c1) (kCode_lt c2) (by decide : 0 < 2 ^ 11) (tyCode_lt _) (hdr_fits (by decide) c0).2.2 (tail_i rfl (BitVec.isLt _) rfl rfl rfl)

theorem kxor (h : Hdr) (kd : Nat) (ka : Nat) (kb : Nat) : Statement (.kxor h kd ka kb) := fun w _ e => by
  obtain ⟨c0, c1, c2, c3⟩ := chkH3 (checks_of_wf w)
  cases e
  exact fit (by decide : 0x05 < 2 ^ 6) (by decide : 0x07 < 2 ^ 6) (hdr_fits (by decide) c0).1 (nw_lt _) (hdr_fits (by decide) c0).2.1 (kCode_lt c1) (kCode_lt c2) (kCode_lt c3) (tyCode_lt _) (hdr_fits (by decide) c0).2.2 (tail_b rfl rfl rfl rfl rfl)

theorem kxorImm (h : Hdr) (kd : Nat) (ka : Nat) (imm : W32) : Statement (.kxorImm h kd ka imm) := fun w _ e => by
  obtain ⟨c0, c1, c2⟩ := chkH2 (checks_of_wf w)
  cases e
  exact fit (by decide : 0x05 < 2 ^ 6) (by decide : 0x27 < 2 ^ 6) (hdr_fits (by decide) c0).1 (nw_lt _) (hdr_fits (by decide) c0).2.1 (kCode_lt c1) (kCode_lt c2) (by decide : 0 < 2 ^ 11) (tyCode_lt _) (hdr_fits (by decide) c0).2.2 (tail_i rfl (BitVec.isLt _) rfl rfl rfl)

theorem kshl (h : Hdr) (kd : Nat) (ka : Nat) (kb : Nat) : Statement (.kshl h kd ka kb) := fun w _ e => by
  obtain ⟨c0, c1, c2, c3⟩ := chkH3 (checks_of_wf w)
  cases e
  exact fit (by decide : 0x05 < 2 ^ 6) (by decide : 0x08 < 2 ^ 6) (hdr_fits (by decide) c0).1 (nw_lt _) (hdr_fits (by decide) c0).2.1 (kCode_lt c1) (kCode_lt c2) (kCode_lt c3) (tyCode_lt _) (hdr_fits (by decide) c0).2.2 (tail_b rfl rfl rfl rfl rfl)

theorem kshlImm (h : Hdr) (kd : Nat) (ka : Nat) (imm : W32) : Statement (.kshlImm h kd ka imm) := fun w _ e => by
  obtain ⟨c0, c1, c2⟩ := chkH2 (checks_of_wf w)
  cases e
  exact fit (by decide : 0x05 < 2 ^ 6) (by decide : 0x28 < 2 ^ 6) (hdr_fits (by decide) c0).1 (nw_lt _) (hdr_fits (by decide) c0).2.1 (kCode_lt c1) (kCode_lt c2) (by decide : 0 < 2 ^ 11) (tyCode_lt _) (hdr_fits (by decide) c0).2.2 (tail_i rfl (BitVec.isLt _) rfl rfl rfl)

theorem kshr (h : Hdr) (kd : Nat) (ka : Nat) (kb : Nat) : Statement (.kshr h kd ka kb) := fun w _ e => by
  obtain ⟨c0, c1, c2, c3⟩ := chkH3 (checks_of_wf w)
  cases e
  exact fit (by decide : 0x05 < 2 ^ 6) (by decide : 0x09 < 2 ^ 6) (hdr_fits (by decide) c0).1 (nw_lt _) (hdr_fits (by decide) c0).2.1 (kCode_lt c1) (kCode_lt c2) (kCode_lt c3) (tyCode_lt _) (hdr_fits (by decide) c0).2.2 (tail_b rfl rfl rfl rfl rfl)

theorem kshrImm (h : Hdr) (kd : Nat) (ka : Nat) (imm : W32) : Statement (.kshrImm h kd ka imm) := fun w _ e => by
  obtain ⟨c0, c1, c2⟩ := chkH2 (checks_of_wf w)
  cases e
  exact fit (by decide : 0x05 < 2 ^ 6) (by decide : 0x29 < 2 ^ 6) (hdr_fits (by decide) c0).1 (nw_lt _) (hdr_fits (by decide) c0).2.1 (kCode_lt c1) (kCode_lt c2) (by decide : 0 < 2 ^ 11) (tyCode_lt _) (hdr_fits (by decide) c0).2.2 (tail_i rfl (BitVec.isLt _) rfl rfl rfl)

theorem ksra (h : Hdr) (kd : Nat) (ka : Nat) (kb : Nat) : Statement (.ksra h kd ka kb) := fun w _ e => by
  obtain ⟨c0, c1, c2, c3⟩ := chkH3 (checks_of_wf w)
  cases e
  exact fit (by decide : 0x05 < 2 ^ 6) (by decide : 0x0A < 2 ^ 6) (hdr_fits (by decide) c0).1 (nw_lt _) (hdr_fits (by decide) c0).2.1 (kCode_lt c1) (kCode_lt c2) (kCode_lt c3) (tyCode_lt _) (hdr_fits (by decide) c0).2.2 (tail_b rfl rfl rfl rfl rfl)

theorem ksraImm (h : Hdr) (kd : Nat) (ka : Nat) (imm : W32) : Statement (.ksraImm h kd ka imm) := fun w _ e => by
  obtain ⟨c0, c1, c2⟩ := chkH2 (checks_of_wf w)
  cases e
  exact fit (by decide : 0x05 < 2 ^ 6) (by decide : 0x2A < 2 ^ 6) (hdr_fits (by decide) c0).1 (nw_lt _) (hdr_fits (by decide) c0).2.1 (kCode_lt c1) (kCode_lt c2) (by decide : 0 < 2 ^ 11) (tyCode_lt _) (hdr_fits (by decide) c0).2.2 (tail_i rfl (BitVec.isLt _) rfl rfl rfl)

theorem kmin (h : Hdr) (kd : Nat) (ka : Nat) (kb : Nat) : Statement (.kmin h kd ka kb) := fun w _ e => by
  obtain ⟨c0, c1, c2, c3⟩ := chkH3 (checks_of_wf w)
  cases e
  exact fit (by decide : 0x05 < 2 ^ 6) (by decide : 0x0B < 2 ^ 6) (hdr_fits (by decide) c0).1 (nw_lt _) (hdr_fits (by decide) c0).2.1 (kCode_lt c1) (kCode_lt c2) (kCode_lt c3) (tyCode_lt _) (hdr_fits (by decide) c0).2.2 (tail_b rfl rfl rfl rfl rfl)

theorem kminImm (h : Hdr) (kd : Nat) (ka : Nat) (imm : W32) : Statement (.kminImm h kd ka imm) := fun w _ e => by
  obtain ⟨c0, c1, c2⟩ := chkH2 (checks_of_wf w)
  cases e
  exact fit (by decide : 0x05 < 2 ^ 6) (by decide : 0x2B < 2 ^ 6) (hdr_fits (by decide) c0).1 (nw_lt _) (hdr_fits (by decide) c0).2.1 (kCode_lt c1) (kCode_lt c2) (by decide : 0 < 2 ^ 11) (tyCode_lt _) (hdr_fits (by decide) c0).2.2 (tail_i rfl (BitVec.isLt _) rfl rfl rfl)

theorem kmax (h : Hdr) (kd : Nat) (ka : Nat) (kb : Nat) : Statement (.kmax h kd ka kb) := fun w _ e => by
  obtain ⟨c0, c1, c2, c3⟩ := chkH3 (checks_of_wf w)
  cases e
  exact fit (by decide : 0x05 < 2 ^ 6) (by decide : 0x0C < 2 ^ 6) (hdr_fits (by decide) c0).1 (nw_lt _) (hdr_fits (by decide) c0).2.1 (kCode_lt c1) (kCode_lt c2) (kCode_lt c3) (tyCode_lt _) (hdr_fits (by decide) c0).2.2 (tail_b rfl rfl rfl rfl rfl)

theorem kmaxImm (h : Hdr) (kd : Nat) (ka : Nat) (imm : W32) : Statement (.kmaxImm h kd ka imm) := fun w _ e => by
  obtain ⟨c0, c1, c2⟩ := chkH2 (checks_of_wf w)
  cases e
  exact fit (by decide : 0x05 < 2 ^ 6) (by decide : 0x2C < 2 ^ 6) (hdr_fits (by decide) c0).1 (nw_lt _) (hdr_fits (by decide) c0).2.1 (kCode_lt c1) (kCode_lt c2) (by decide : 0 < 2 ^ 11) (tyCode_lt _) (hdr_fits (by decide) c0).2.2 (tail_i rfl (BitVec.isLt _) rfl rfl rfl)

theorem kcmp (h : Hdr) (kd : Nat) (ka : Nat) (kb : Nat) : Statement (.kcmp h kd ka kb) := fun w _ e => by
  obtain ⟨c0, c1, c2, c3⟩ := chkH3 (checks_of_wf w)
  cases e
  exact fit (by decide : 0x05 < 2 ^ 6) (by decide : 0x0D < 2 ^ 6) (hdr_fits (by decide) c0).1 (nw_lt _) (hdr_fits (by decide) c0).2.1 (kCode_lt c1) (kCode_lt c2) (kCode_lt c3) (tyCode_lt _) (hdr_fits (by decide) c0).2.2 (tail_b rfl rfl rfl rfl rfl)

theorem kcmpImm (h : Hdr) (kd : Nat) (ka : Nat) (imm : W32) : Statement (.kcmpImm h kd ka imm) := fun w _ e => by
  obtain ⟨c0, c1, c2⟩ := chkH2 (checks_of_wf w)
  cases e
  exact fit (by decide : 0x05 < 2 ^ 6) (by decide : 0x2D < 2 ^ 6) (hdr_fits (by decide) c0).1 (nw_lt _) (hdr_fits (by decide) c0).2.1 (kCode_lt c1) (kCode_lt c2) (by decide : 0 < 2 ^ 11) (tyCode_lt _) (hdr_fits (by decide) c0).2.2 (tail_i rfl (BitVec.isLt _) rfl rfl rfl)

theorem ksel (h : Hdr) (kd : Nat) (ka : Nat) (kb : Nat) (kc : Nat) : Statement (.ksel h kd ka kb kc) := fun w _ e => by
  obtain ⟨c0, c1, c2, c3, c4⟩ := chkH4 (checks_of_wf w)
  cases e
  exact fit (by decide : 0x05 < 2 ^ 6) (by decide : 0x0E < 2 ^ 6) (hdr_fits (by decide) c0).1 (nw_lt _) (hdr_fits (by decide) c0).2.1 (kCode_lt c1) (kCode_lt c2) (kCode_lt c3) (tyCode_lt _) (hdr_fits (by decide) c0).2.2 (tail_s rfl rfl rfl (kCode_lt c4) (by decide : 0 < 2 ^ 21))

theorem klea (h : Hdr) (kd : Nat) (ka : Nat) (kb : Nat) (sh : Nat) (disp : Nat) : Statement (.klea h kd ka kb sh disp) := fun w _ e => by
  obtain ⟨c0, c1, c2, c3, c4, c5⟩ := chkH5 (checks_of_wf w)
  have c4 := of_decide_eq_true c4
  have c5 := of_decide_eq_true c5
  cases e
  exact fit (by decide : 0x05 < 2 ^ 6) (by decide : 0x0F < 2 ^ 6) (hdr_fits (by decide) c0).1 (nw_lt _) (hdr_fits (by decide) c0).2.1 (kCode_lt c1) (kCode_lt c2) (kCode_lt c3) (tyCode_lt _) (hdr_fits (by decide) c0).2.2 (tail_s rfl rfl rfl (by decide : 0 < 2 ^ 11) (show sh + disp * 2 ^ 3 < 2 ^ 21 by omega))

theorem kpopc (h : Hdr) (kd : Nat) (ka : Nat) : Statement (.kpopc h kd ka) := fun w _ e => by
  obtain ⟨c0, c1, c2⟩ := chkH2 (checks_of_wf w)
  cases e
  exact fit (by decide : 0x05 < 2 ^ 6) (by decide : 0x10 < 2 ^ 6) (hdr_fits (by decide) c0).1 (nw_lt _) (hdr_fits (by decide) c0).2.1 (kCode_lt c1) (kCode_lt c2) (by decide : 0 < 2 ^ 11) (tyCode_lt _) (hdr_fits (by decide) c0).2.2 (tail_b rfl rfl rfl rfl rfl)

theorem kclz (h : Hdr) (kd : Nat) (ka : Nat) : Statement (.kclz h kd ka) := fun w _ e => by
  obtain ⟨c0, c1, c2⟩ := chkH2 (checks_of_wf w)
  cases e
  exact fit (by decide : 0x05 < 2 ^ 6) (by decide : 0x11 < 2 ^ 6) (hdr_fits (by decide) c0).1 (nw_lt _) (hdr_fits (by decide) c0).2.1 (kCode_lt c1) (kCode_lt c2) (by decide : 0 < 2 ^ 11) (tyCode_lt _) (hdr_fits (by decide) c0).2.2 (tail_b rfl rfl rfl rfl rfl)

theorem kli (h : Hdr) (kd : Nat) (imm : W32) : Statement (.kli h kd imm) := fun w _ e => by
  obtain ⟨c0, c1⟩ := chkH1 (checks_of_wf w)
  cases e
  exact fit (by decide : 0x06 < 2 ^ 6) (by decide : 0x00 < 2 ^ 6) (hdr_fits (by decide) c0).1 (nw_lt _) (hdr_fits (by decide) c0).2.1 (kCode_lt c1) (by decide : 0 < 2 ^ 11) (by decide : 0 < 2 ^ 11) (tyCode_lt _) (hdr_fits (by decide) c0).2.2 (tail_i rfl (BitVec.isLt _) rfl rfl rfl)

theorem kli64 (h : Hdr) (kd : Nat) (imm : W64) : Statement (.kli64 h kd imm) := fun w _ e => by
  obtain ⟨c0, c1⟩ := chkH1 (checks_of_wf w)
  cases e
  exact fit (by decide : 0x06 < 2 ^ 6) (by decide : 0x01 < 2 ^ 6) (hdr_fits (by decide) c0).1 (nw_lt _) (hdr_fits (by decide) c0).2.1 (kCode_lt c1) (by decide : 0 < 2 ^ 11) (by decide : 0 < 2 ^ 11) (tyCode_lt _) (hdr_fits (by decide) c0).2.2 (tail_q rfl (BitVec.isLt _) rfl rfl rfl)

theorem kfromv (h : Hdr) (kd : Nat) (va : Nat) (sel : LaneSel) : Statement (.kfromv h kd va sel) := fun w _ e => by
  obtain ⟨c0, c1, c2, c3⟩ := chkH3 (checks_of_wf w)
  have c2 := of_decide_eq_true c2
  cases e
  exact fit (by decide : 0x07 < 2 ^ 6) (by decide : 0x00 < 2 ^ 6) (hdr_fits (by decide) c0).1 (nw_lt _) (hdr_fits (by decide) c0).2.1 (kCode_lt c1) (show va < 2 ^ 11 by omega) (lane_lt c3).1 (tyCode_lt _) (hdr_fits (by decide) c0).2.2 (tail_s rfl rfl rfl (by decide : 0 < 2 ^ 11) (lane_lt c3).2)

theorem add (h : Hdr) (d : VDst) (a : VSrc) (b : VSrc) : Statement (.add h d a b) := fun w _ e => by
  obtain ⟨c0, c1, c2, c3⟩ := chkH3 (checks_of_wf w)
  cases e
  exact fit (by decide : 0x08 < 2 ^ 6) (by decide : 0x00 < 2 ^ 6) (hdr_fits (by decide) c0).1 (nw_lt _) (hdr_fits (by decide) c0).2.1 (vdst_lt c1) (vsrc_lt c2) (vsrc_lt c3) (tyCode_lt _) (hdr_fits (by decide) c0).2.2 (tail_b rfl rfl rfl rfl rfl)

theorem addImm (h : Hdr) (d : VDst) (a : VSrc) (imm : W32) : Statement (.addImm h d a imm) := fun w _ e => by
  obtain ⟨c0, c1, c2⟩ := chkH2 (checks_of_wf w)
  cases e
  exact fit (by decide : 0x08 < 2 ^ 6) (by decide : 0x20 < 2 ^ 6) (hdr_fits (by decide) c0).1 (nw_lt _) (hdr_fits (by decide) c0).2.1 (vdst_lt c1) (vsrc_lt c2) (by decide : 0 < 2 ^ 11) (tyCode_lt _) (hdr_fits (by decide) c0).2.2 (tail_i rfl (BitVec.isLt _) rfl rfl rfl)

theorem addc (h : Hdr) (d : VDst) (a : VSrc) (b : VSrc) (cin : Nat) (cout : Nat) : Statement (.addc h d a b cin cout) := fun w _ e => by
  obtain ⟨c0, c1, c2, c3, c4, c5, c6⟩ := chkH6 (checks_of_wf w)
  have c4 := of_decide_eq_true c4
  have c5 := of_decide_eq_true c5
  have c6 := of_decide_eq_true c6
  cases e
  exact fit (by decide : 0x08 < 2 ^ 6) (by decide : 0x01 < 2 ^ 6) (hdr_fits (by decide) c0).1 (nw_lt _) (hdr_fits (by decide) c0).2.1 (vdst_lt c1) (vsrc_lt c2) (vsrc_lt c3) (tyCode_lt _) (hdr_fits (by decide) c0).2.2 (tail_s rfl rfl rfl (show cin < 2 ^ 11 by omega) (show cout < 2 ^ 21 by omega))

theorem sub (h : Hdr) (d : VDst) (a : VSrc) (b : VSrc) : Statement (.sub h d a b) := fun w _ e => by
  obtain ⟨c0, c1, c2, c3⟩ := chkH3 (checks_of_wf w)
  cases e
  exact fit (by decide : 0x08 < 2 ^ 6) (by decide : 0x02 < 2 ^ 6) (hdr_fits (by decide) c0).1 (nw_lt _) (hdr_fits (by decide) c0).2.1 (vdst_lt c1) (vsrc_lt c2) (vsrc_lt c3) (tyCode_lt _) (hdr_fits (by decide) c0).2.2 (tail_b rfl rfl rfl rfl rfl)

theorem subImm (h : Hdr) (d : VDst) (a : VSrc) (imm : W32) : Statement (.subImm h d a imm) := fun w _ e => by
  obtain ⟨c0, c1, c2⟩ := chkH2 (checks_of_wf w)
  cases e
  exact fit (by decide : 0x08 < 2 ^ 6) (by decide : 0x22 < 2 ^ 6) (hdr_fits (by decide) c0).1 (nw_lt _) (hdr_fits (by decide) c0).2.1 (vdst_lt c1) (vsrc_lt c2) (by decide : 0 < 2 ^ 11) (tyCode_lt _) (hdr_fits (by decide) c0).2.2 (tail_i rfl (BitVec.isLt _) rfl rfl rfl)

theorem mul (h : Hdr) (d : VDst) (a : VSrc) (b : VSrc) : Statement (.mul h d a b) := fun w _ e => by
  obtain ⟨c0, c1, c2, c3⟩ := chkH3 (checks_of_wf w)
  cases e
  exact fit (by decide : 0x08 < 2 ^ 6) (by decide : 0x03 < 2 ^ 6) (hdr_fits (by decide) c0).1 (nw_lt _) (hdr_fits (by decide) c0).2.1 (vdst_lt c1) (vsrc_lt c2) (vsrc_lt c3) (tyCode_lt _) (hdr_fits (by decide) c0).2.2 (tail_b rfl rfl rfl rfl rfl)

theorem mulImm (h : Hdr) (d : VDst) (a : VSrc) (imm : W32) : Statement (.mulImm h d a imm) := fun w _ e => by
  obtain ⟨c0, c1, c2⟩ := chkH2 (checks_of_wf w)
  cases e
  exact fit (by decide : 0x08 < 2 ^ 6) (by decide : 0x23 < 2 ^ 6) (hdr_fits (by decide) c0).1 (nw_lt _) (hdr_fits (by decide) c0).2.1 (vdst_lt c1) (vsrc_lt c2) (by decide : 0 < 2 ^ 11) (tyCode_lt _) (hdr_fits (by decide) c0).2.2 (tail_i rfl (BitVec.isLt _) rfl rfl rfl)

theorem mulh (h : Hdr) (d : VDst) (a : VSrc) (b : VSrc) : Statement (.mulh h d a b) := fun w _ e => by
  obtain ⟨c0, c1, c2, c3⟩ := chkH3 (checks_of_wf w)
  cases e
  exact fit (by decide : 0x08 < 2 ^ 6) (by decide : 0x04 < 2 ^ 6) (hdr_fits (by decide) c0).1 (nw_lt _) (hdr_fits (by decide) c0).2.1 (vdst_lt c1) (vsrc_lt c2) (vsrc_lt c3) (tyCode_lt _) (hdr_fits (by decide) c0).2.2 (tail_b rfl rfl rfl rfl rfl)

theorem mulhImm (h : Hdr) (d : VDst) (a : VSrc) (imm : W32) : Statement (.mulhImm h d a imm) := fun w _ e => by
  obtain ⟨c0, c1, c2⟩ := chkH2 (checks_of_wf w)
  cases e
  exact fit (by decide : 0x08 < 2 ^ 6) (by decide : 0x24 < 2 ^ 6) (hdr_fits (by decide) c0).1 (nw_lt _) (hdr_fits (by decide) c0).2.1 (vdst_lt c1) (vsrc_lt c2) (by decide : 0 < 2 ^ 11) (tyCode_lt _) (hdr_fits (by decide) c0).2.2 (tail_i rfl (BitVec.isLt _) rfl rfl rfl)

theorem mad (h : Hdr) (d : VDst) (a : VSrc) (b : VSrc) (c : VSrc) : Statement (.mad h d a b c) := fun w _ e => by
  obtain ⟨c0, c1, c2, c3, c4⟩ := chkH4 (checks_of_wf w)
  cases e
  exact fit (by decide : 0x08 < 2 ^ 6) (by decide : 0x05 < 2 ^ 6) (hdr_fits (by decide) c0).1 (nw_lt _) (hdr_fits (by decide) c0).2.1 (vdst_lt c1) (vsrc_lt c2) (vsrc_lt c3) (tyCode_lt _) (hdr_fits (by decide) c0).2.2 (tail_s rfl rfl rfl (vsrc_lt c4) (by decide : 0 < 2 ^ 21))

theorem madImm (h : Hdr) (d : VDst) (a : VSrc) (imm : W32) (c : VSrc) : Statement (.madImm h d a imm c) := fun w _ e => by
  obtain ⟨c0, c1, c2, c3⟩ := chkH3 (checks_of_wf w)
  cases e
  exact fit (by decide : 0x08 < 2 ^ 6) (by decide : 0x25 < 2 ^ 6) (hdr_fits (by decide) c0).1 (nw_lt _) (hdr_fits (by decide) c0).2.1 (vdst_lt c1) (vsrc_lt c2) (by decide : 0 < 2 ^ 11) (tyCode_lt _) (hdr_fits (by decide) c0).2.2 (tail_si rfl rfl (BitVec.isLt _) (vsrc_lt c3) (by decide : 0 < 2 ^ 21))

theorem abs (h : Hdr) (d : VDst) (a : VSrc) : Statement (.abs h d a) := fun w _ e => by
  obtain ⟨c0, c1, c2⟩ := chkH2 (checks_of_wf w)
  cases e
  exact fit (by decide : 0x08 < 2 ^ 6) (by decide : 0x06 < 2 ^ 6) (hdr_fits (by decide) c0).1 (nw_lt _) (hdr_fits (by decide) c0).2.1 (vdst_lt c1) (vsrc_lt c2) (by decide : 0 < 2 ^ 11) (tyCode_lt _) (hdr_fits (by decide) c0).2.2 (tail_b rfl rfl rfl rfl rfl)

theorem and (h : Hdr) (d : VDst) (a : VSrc) (b : VSrc) : Statement (.and h d a b) := fun w _ e => by
  obtain ⟨c0, c1, c2, c3⟩ := chkH3 (checks_of_wf w)
  cases e
  exact fit (by decide : 0x09 < 2 ^ 6) (by decide : 0x00 < 2 ^ 6) (hdr_fits (by decide) c0).1 (nw_lt _) (hdr_fits (by decide) c0).2.1 (vdst_lt c1) (vsrc_lt c2) (vsrc_lt c3) (tyCode_lt _) (hdr_fits (by decide) c0).2.2 (tail_b rfl rfl rfl rfl rfl)

theorem andImm (h : Hdr) (d : VDst) (a : VSrc) (imm : W32) : Statement (.andImm h d a imm) := fun w _ e => by
  obtain ⟨c0, c1, c2⟩ := chkH2 (checks_of_wf w)
  cases e
  exact fit (by decide : 0x09 < 2 ^ 6) (by decide : 0x20 < 2 ^ 6) (hdr_fits (by decide) c0).1 (nw_lt _) (hdr_fits (by decide) c0).2.1 (vdst_lt c1) (vsrc_lt c2) (by decide : 0 < 2 ^ 11) (tyCode_lt _) (hdr_fits (by decide) c0).2.2 (tail_i rfl (BitVec.isLt _) rfl rfl rfl)

theorem or (h : Hdr) (d : VDst) (a : VSrc) (b : VSrc) : Statement (.or h d a b) := fun w _ e => by
  obtain ⟨c0, c1, c2, c3⟩ := chkH3 (checks_of_wf w)
  cases e
  exact fit (by decide : 0x09 < 2 ^ 6) (by decide : 0x01 < 2 ^ 6) (hdr_fits (by decide) c0).1 (nw_lt _) (hdr_fits (by decide) c0).2.1 (vdst_lt c1) (vsrc_lt c2) (vsrc_lt c3) (tyCode_lt _) (hdr_fits (by decide) c0).2.2 (tail_b rfl rfl rfl rfl rfl)

theorem orImm (h : Hdr) (d : VDst) (a : VSrc) (imm : W32) : Statement (.orImm h d a imm) := fun w _ e => by
  obtain ⟨c0, c1, c2⟩ := chkH2 (checks_of_wf w)
  cases e
  exact fit (by decide : 0x09 < 2 ^ 6) (by decide : 0x21 < 2 ^ 6) (hdr_fits (by decide) c0).1 (nw_lt _) (hdr_fits (by decide) c0).2.1 (vdst_lt c1) (vsrc_lt c2) (by decide : 0 < 2 ^ 11) (tyCode_lt _) (hdr_fits (by decide) c0).2.2 (tail_i rfl (BitVec.isLt _) rfl rfl rfl)

theorem xor (h : Hdr) (d : VDst) (a : VSrc) (b : VSrc) : Statement (.xor h d a b) := fun w _ e => by
  obtain ⟨c0, c1, c2, c3⟩ := chkH3 (checks_of_wf w)
  cases e
  exact fit (by decide : 0x09 < 2 ^ 6) (by decide : 0x02 < 2 ^ 6) (hdr_fits (by decide) c0).1 (nw_lt _) (hdr_fits (by decide) c0).2.1 (vdst_lt c1) (vsrc_lt c2) (vsrc_lt c3) (tyCode_lt _) (hdr_fits (by decide) c0).2.2 (tail_b rfl rfl rfl rfl rfl)

theorem xorImm (h : Hdr) (d : VDst) (a : VSrc) (imm : W32) : Statement (.xorImm h d a imm) := fun w _ e => by
  obtain ⟨c0, c1, c2⟩ := chkH2 (checks_of_wf w)
  cases e
  exact fit (by decide : 0x09 < 2 ^ 6) (by decide : 0x22 < 2 ^ 6) (hdr_fits (by decide) c0).1 (nw_lt _) (hdr_fits (by decide) c0).2.1 (vdst_lt c1) (vsrc_lt c2) (by decide : 0 < 2 ^ 11) (tyCode_lt _) (hdr_fits (by decide) c0).2.2 (tail_i rfl (BitVec.isLt _) rfl rfl rfl)

theorem lop3 (h : Hdr) (d : VDst) (a : VSrc) (b : VSrc) (c : VSrc) (tbl : BitVec 8) : Statement (.lop3 h d a b c tbl) := fun w _ e => by
  obtain ⟨c0, c1, c2, c3, c4⟩ := chkH4 (checks_of_wf w)
  cases e
  exact fit (by decide : 0x09 < 2 ^ 6) (by decide : 0x03 < 2 ^ 6) (hdr_fits (by decide) c0).1 (nw_lt _) (hdr_fits (by decide) c0).2.1 (vdst_lt c1) (vsrc_lt c2) (vsrc_lt c3) (tyCode_lt _) (hdr_fits (by decide) c0).2.2 (tail_si rfl rfl (Nat.lt_trans (BitVec.isLt _) (by decide)) (vsrc_lt c4) (by decide : 0 < 2 ^ 21))

theorem shl (h : Hdr) (d : VDst) (a : VSrc) (b : VSrc) : Statement (.shl h d a b) := fun w _ e => by
  obtain ⟨c0, c1, c2, c3⟩ := chkH3 (checks_of_wf w)
  cases e
  exact fit (by decide : 0x09 < 2 ^ 6) (by decide : 0x04 < 2 ^ 6) (hdr_fits (by decide) c0).1 (nw_lt _) (hdr_fits (by decide) c0).2.1 (vdst_lt c1) (vsrc_lt c2) (vsrc_lt c3) (tyCode_lt _) (hdr_fits (by decide) c0).2.2 (tail_b rfl rfl rfl rfl rfl)

theorem shlImm (h : Hdr) (d : VDst) (a : VSrc) (imm : W32) : Statement (.shlImm h d a imm) := fun w _ e => by
  obtain ⟨c0, c1, c2⟩ := chkH2 (checks_of_wf w)
  cases e
  exact fit (by decide : 0x09 < 2 ^ 6) (by decide : 0x24 < 2 ^ 6) (hdr_fits (by decide) c0).1 (nw_lt _) (hdr_fits (by decide) c0).2.1 (vdst_lt c1) (vsrc_lt c2) (by decide : 0 < 2 ^ 11) (tyCode_lt _) (hdr_fits (by decide) c0).2.2 (tail_i rfl (BitVec.isLt _) rfl rfl rfl)

theorem shr (h : Hdr) (d : VDst) (a : VSrc) (b : VSrc) : Statement (.shr h d a b) := fun w _ e => by
  obtain ⟨c0, c1, c2, c3⟩ := chkH3 (checks_of_wf w)
  cases e
  exact fit (by decide : 0x09 < 2 ^ 6) (by decide : 0x05 < 2 ^ 6) (hdr_fits (by decide) c0).1 (nw_lt _) (hdr_fits (by decide) c0).2.1 (vdst_lt c1) (vsrc_lt c2) (vsrc_lt c3) (tyCode_lt _) (hdr_fits (by decide) c0).2.2 (tail_b rfl rfl rfl rfl rfl)

theorem shrImm (h : Hdr) (d : VDst) (a : VSrc) (imm : W32) : Statement (.shrImm h d a imm) := fun w _ e => by
  obtain ⟨c0, c1, c2⟩ := chkH2 (checks_of_wf w)
  cases e
  exact fit (by decide : 0x09 < 2 ^ 6) (by decide : 0x25 < 2 ^ 6) (hdr_fits (by decide) c0).1 (nw_lt _) (hdr_fits (by decide) c0).2.1 (vdst_lt c1) (vsrc_lt c2) (by decide : 0 < 2 ^ 11) (tyCode_lt _) (hdr_fits (by decide) c0).2.2 (tail_i rfl (BitVec.isLt _) rfl rfl rfl)

theorem sra (h : Hdr) (d : VDst) (a : VSrc) (b : VSrc) : Statement (.sra h d a b) := fun w _ e => by
  obtain ⟨c0, c1, c2, c3⟩ := chkH3 (checks_of_wf w)
  cases e
  exact fit (by decide : 0x09 < 2 ^ 6) (by decide : 0x06 < 2 ^ 6) (hdr_fits (by decide) c0).1 (nw_lt _) (hdr_fits (by decide) c0).2.1 (vdst_lt c1) (vsrc_lt c2) (vsrc_lt c3) (tyCode_lt _) (hdr_fits (by decide) c0).2.2 (tail_b rfl rfl rfl rfl rfl)

theorem sraImm (h : Hdr) (d : VDst) (a : VSrc) (imm : W32) : Statement (.sraImm h d a imm) := fun w _ e => by
  obtain ⟨c0, c1, c2⟩ := chkH2 (checks_of_wf w)
  cases e
  exact fit (by decide : 0x09 < 2 ^ 6) (by decide : 0x26 < 2 ^ 6) (hdr_fits (by decide) c0).1 (nw_lt _) (hdr_fits (by decide) c0).2.1 (vdst_lt c1) (vsrc_lt c2) (by decide : 0 < 2 ^ 11) (tyCode_lt _) (hdr_fits (by decide) c0).2.2 (tail_i rfl (BitVec.isLt _) rfl rfl rfl)

theorem min (h : Hdr) (d : VDst) (a : VSrc) (b : VSrc) : Statement (.min h d a b) := fun w _ e => by
  obtain ⟨c0, c1, c2, c3⟩ := chkH3 (checks_of_wf w)
  cases e
  exact fit (by decide : 0x0A < 2 ^ 6) (by decide : 0x00 < 2 ^ 6) (hdr_fits (by decide) c0).1 (nw_lt _) (hdr_fits (by decide) c0).2.1 (vdst_lt c1) (vsrc_lt c2) (vsrc_lt c3) (tyCode_lt _) (hdr_fits (by decide) c0).2.2 (tail_b rfl rfl rfl rfl rfl)

theorem minImm (h : Hdr) (d : VDst) (a : VSrc) (imm : W32) : Statement (.minImm h d a imm) := fun w _ e => by
  obtain ⟨c0, c1, c2⟩ := chkH2 (checks_of_wf w)
  cases e
  exact fit (by decide : 0x0A < 2 ^ 6) (by decide : 0x20 < 2 ^ 6) (hdr_fits (by decide) c0).1 (nw_lt _) (hdr_fits (by decide) c0).2.1 (vdst_lt c1) (vsrc_lt c2) (by decide : 0 < 2 ^ 11) (tyCode_lt _) (hdr_fits (by decide) c0).2.2 (tail_i rfl (BitVec.isLt _) rfl rfl rfl)

theorem max (h : Hdr) (d : VDst) (a : VSrc) (b : VSrc) : Statement (.max h d a b) := fun w _ e => by
  obtain ⟨c0, c1, c2, c3⟩ := chkH3 (checks_of_wf w)
  cases e
  exact fit (by decide : 0x0A < 2 ^ 6) (by decide : 0x01 < 2 ^ 6) (hdr_fits (by decide) c0).1 (nw_lt _) (hdr_fits (by decide) c0).2.1 (vdst_lt c1) (vsrc_lt c2) (vsrc_lt c3) (tyCode_lt _) (hdr_fits (by decide) c0).2.2 (tail_b rfl rfl rfl rfl rfl)

theorem maxImm (h : Hdr) (d : VDst) (a : VSrc) (imm : W32) : Statement (.maxImm h d a imm) := fun w _ e => by
  obtain ⟨c0, c1, c2⟩ := chkH2 (checks_of_wf w)
  cases e
  exact fit (by decide : 0x0A < 2 ^ 6) (by decide : 0x21 < 2 ^ 6) (hdr_fits (by decide) c0).1 (nw_lt _) (hdr_fits (by decide) c0).2.1 (vdst_lt c1) (vsrc_lt c2) (by decide : 0 < 2 ^ 11) (tyCode_lt _) (hdr_fits (by decide) c0).2.2 (tail_i rfl (BitVec.isLt _) rfl rfl rfl)

theorem cmp (h : Hdr) (md : Nat) (a : VSrc) (b : VSrc) : Statement (.cmp h md a b) := fun w _ e => by
  obtain ⟨c0, c1, c2, c3⟩ := chkH3 (checks_of_wf w)
  have c1 := of_decide_eq_true c1
  cases e
  exact fit (by decide : 0x0A < 2 ^ 6) (by decide : 0x02 < 2 ^ 6) (hdr_fits (by decide) c0).1 (nw_lt _) (hdr_fits (by decide) c0).2.1 (show md < 2 ^ 11 by omega) (vsrc_lt c2) (vsrc_lt c3) (tyCode_lt _) (hdr_fits (by decide) c0).2.2 (tail_b rfl rfl rfl rfl rfl)

theorem cmpImm (h : Hdr) (md : Nat) (a : VSrc) (imm : W32) : Statement (.cmpImm h md a imm) := fun w _ e => by
  obtain ⟨c0, c1, c2⟩ := chkH2 (checks_of_wf w)
  have c1 := of_decide_eq_true c1
  cases e
  exact fit (by decide : 0x0A < 2 ^ 6) (by decide : 0x22 < 2 ^ 6) (hdr_fits (by decide) c0).1 (nw_lt _) (hdr_fits (by decide) c0).2.1 (show md < 2 ^ 11 by omega) (vsrc_lt c2) (by decide : 0 < 2 ^ 11) (tyCode_lt _) (hdr_fits (by decide) c0).2.2 (tail_i rfl (BitVec.isLt _) rfl rfl rfl)

theorem sel (h : Hdr) (d : VDst) (a : VSrc) (b : VSrc) (mc : Nat) : Statement (.sel h d a b mc) := fun w _ e => by
  obtain ⟨c0, c1, c2, c3, c4⟩ := chkH4 (checks_of_wf w)
  have c4 := of_decide_eq_true c4
  cases e
  exact fit (by decide : 0x0A < 2 ^ 6) (by decide : 0x03 < 2 ^ 6) (hdr_fits (by decide) c0).1 (nw_lt _) (hdr_fits (by decide) c0).2.1 (vdst_lt c1) (vsrc_lt c2) (vsrc_lt c3) (tyCode_lt _) (hdr_fits (by decide) c0).2.2 (tail_s rfl rfl rfl (show mc < 2 ^ 11 by omega) (by decide : 0 < 2 ^ 21))

theorem mov (h : Hdr) (d : VDst) (a : VSrc) : Statement (.mov h d a) := fun w _ e => by
  obtain ⟨c0, c1, c2⟩ := chkH2 (checks_of_wf w)
  cases e
  exact fit (by decide : 0x0A < 2 ^ 6) (by decide : 0x04 < 2 ^ 6) (hdr_fits (by decide) c0).1 (nw_lt _) (hdr_fits (by decide) c0).2.1 (vdst_lt c1) (vsrc_lt c2) (by decide : 0 < 2 ^ 11) (tyCode_lt _) (hdr_fits (by decide) c0).2.2 (tail_b rfl rfl rfl rfl rfl)

theorem movImm (h : Hdr) (d : VDst) (imm : W32) : Statement (.movImm h d imm) := fun w _ e => by
  obtain ⟨c0, c1⟩ := chkH1 (checks_of_wf w)
  cases e
  exact fit (by decide : 0x0A < 2 ^ 6) (by decide : 0x24 < 2 ^ 6) (hdr_fits (by decide) c0).1 (nw_lt _) (hdr_fits (by decide) c0).2.1 (vdst_lt c1) (by decide : 0 < 2 ^ 11) (by decide : 0 < 2 ^ 11) (tyCode_lt _) (hdr_fits (by decide) c0).2.2 (tail_i rfl (BitVec.isLt _) rfl rfl rfl)

theorem movk (h : Hdr) (d : VDst) (kv : Nat) (kl : Nat) : Statement (.movk h d kv kl) := fun w _ e => by
  obtain ⟨c0, c1, c2, c3⟩ := chkH3 (checks_of_wf w)
  cases e
  exact fit (by decide : 0x0A < 2 ^ 6) (by decide : 0x05 < 2 ^ 6) (hdr_fits (by decide) c0).1 (nw_lt _) (hdr_fits (by decide) c0).2.1 (vdst_lt c1) (kCode_lt c2) (kCode_lt c3) (tyCode_lt _) (hdr_fits (by decide) c0).2.2 (tail_b rfl rfl rfl rfl rfl)

theorem popc (h : Hdr) (d : VDst) (a : VSrc) : Statement (.popc h d a) := fun w _ e => by
  obtain ⟨c0, c1, c2⟩ := chkH2 (checks_of_wf w)
  cases e
  exact fit (by decide : 0x0B < 2 ^ 6) (by decide : 0x00 < 2 ^ 6) (hdr_fits (by decide) c0).1 (nw_lt _) (hdr_fits (by decide) c0).2.1 (vdst_lt c1) (vsrc_lt c2) (by decide : 0 < 2 ^ 11) (tyCode_lt _) (hdr_fits (by decide) c0).2.2 (tail_b rfl rfl rfl rfl rfl)

theorem clz (h : Hdr) (d : VDst) (a : VSrc) : Statement (.clz h d a) := fun w _ e => by
  obtain ⟨c0, c1, c2⟩ := chkH2 (checks_of_wf w)
  cases e
  exact fit (by decide : 0x0B < 2 ^ 6) (by decide : 0x01 < 2 ^ 6) (hdr_fits (by decide) c0).1 (nw_lt _) (hdr_fits (by decide) c0).2.1 (vdst_lt c1) (vsrc_lt c2) (by decide : 0 < 2 ^ 11) (tyCode_lt _) (hdr_fits (by decide) c0).2.2 (tail_b rfl rfl rfl rfl rfl)

theorem brev (h : Hdr) (d : VDst) (a : VSrc) : Statement (.brev h d a) := fun w _ e => by
  obtain ⟨c0, c1, c2⟩ := chkH2 (checks_of_wf w)
  cases e
  exact fit (by decide : 0x0B < 2 ^ 6) (by decide : 0x02 < 2 ^ 6) (hdr_fits (by decide) c0).1 (nw_lt _) (hdr_fits (by decide) c0).2.1 (vdst_lt c1) (vsrc_lt c2) (by decide : 0 < 2 ^ 11) (tyCode_lt _) (hdr_fits (by decide) c0).2.2 (tail_b rfl rfl rfl rfl rfl)

theorem bfe (h : Hdr) (d : VDst) (a : VSrc) (b : VSrc) : Statement (.bfe h d a b) := fun w _ e => by
  obtain ⟨c0, c1, c2, c3⟩ := chkH3 (checks_of_wf w)
  cases e
  exact fit (by decide : 0x0B < 2 ^ 6) (by decide : 0x03 < 2 ^ 6) (hdr_fits (by decide) c0).1 (nw_lt _) (hdr_fits (by decide) c0).2.1 (vdst_lt c1) (vsrc_lt c2) (vsrc_lt c3) (tyCode_lt _) (hdr_fits (by decide) c0).2.2 (tail_b rfl rfl rfl rfl rfl)

theorem bfeImm (h : Hdr) (d : VDst) (a : VSrc) (imm : W32) : Statement (.bfeImm h d a imm) := fun w _ e => by
  obtain ⟨c0, c1, c2⟩ := chkH2 (checks_of_wf w)
  cases e
  exact fit (by decide : 0x0B < 2 ^ 6) (by decide : 0x23 < 2 ^ 6) (hdr_fits (by decide) c0).1 (nw_lt _) (hdr_fits (by decide) c0).2.1 (vdst_lt c1) (vsrc_lt c2) (by decide : 0 < 2 ^ 11) (tyCode_lt _) (hdr_fits (by decide) c0).2.2 (tail_i rfl (BitVec.isLt _) rfl rfl rfl)

theorem bfi (h : Hdr) (d : VDst) (a : VSrc) (b : VSrc) (c : VSrc) : Statement (.bfi h d a b c) := fun w _ e => by
  obtain ⟨c0, c1, c2, c3, c4⟩ := chkH4 (checks_of_wf w)
  cases e
  exact fit (by decide : 0x0B < 2 ^ 6) (by decide : 0x04 < 2 ^ 6) (hdr_fits (by decide) c0).1 (nw_lt _) (hdr_fits (by decide) c0).2.1 (vdst_lt c1) (vsrc_lt c2) (vsrc_lt c3) (tyCode_lt _) (hdr_fits (by decide) c0).2.2 (tail_s rfl rfl rfl (vsrc_lt c4) (by decide : 0 < 2 ^ 21))

theorem bfiImm (h : Hdr) (d : VDst) (a : VSrc) (imm : W32) (c : VSrc) : Statement (.bfiImm h d a imm c) := fun w _ e => by
  obtain ⟨c0, c1, c2, c3⟩ := chkH3 (checks_of_wf w)
  cases e
  exact fit (by decide : 0x0B < 2 ^ 6) (by decide : 0x24 < 2 ^ 6) (hdr_fits (by decide) c0).1 (nw_lt _) (hdr_fits (by decide) c0).2.1 (vdst_lt c1) (vsrc_lt c2) (by decide : 0 < 2 ^ 11) (tyCode_lt _) (hdr_fits (by decide) c0).2.2 (tail_si rfl rfl (BitVec.isLt _) (vsrc_lt c3) (by decide : 0 < 2 ^ 21))

theorem fadd (h : Hdr) (d : VDst) (a : VSrc) (b : VSrc) : Statement (.fadd h d a b) := fun w _ e => by
  obtain ⟨c0, c1, c2, c3⟩ := chkH3 (checks_of_wf w)
  cases e
  exact fit (by decide : 0x10 < 2 ^ 6) (by decide : 0x00 < 2 ^ 6) (hdr_fits (by decide) c0).1 (nw_lt _) (hdr_fits (by decide) c0).2.1 (vdst_lt c1) (vsrc_lt c2) (vsrc_lt c3) (tyCode_lt _) (hdr_fits (by decide) c0).2.2 (tail_b rfl rfl rfl rfl rfl)

theorem faddImm (h : Hdr) (d : VDst) (a : VSrc) (imm : W32) : Statement (.faddImm h d a imm) := fun w _ e => by
  obtain ⟨c0, c1, c2⟩ := chkH2 (checks_of_wf w)
  cases e
  exact fit (by decide : 0x10 < 2 ^ 6) (by decide : 0x20 < 2 ^ 6) (hdr_fits (by decide) c0).1 (nw_lt _) (hdr_fits (by decide) c0).2.1 (vdst_lt c1) (vsrc_lt c2) (by decide : 0 < 2 ^ 11) (tyCode_lt _) (hdr_fits (by decide) c0).2.2 (tail_i rfl (BitVec.isLt _) rfl rfl rfl)

theorem fsub (h : Hdr) (d : VDst) (a : VSrc) (b : VSrc) : Statement (.fsub h d a b) := fun w _ e => by
  obtain ⟨c0, c1, c2, c3⟩ := chkH3 (checks_of_wf w)
  cases e
  exact fit (by decide : 0x10 < 2 ^ 6) (by decide : 0x01 < 2 ^ 6) (hdr_fits (by decide) c0).1 (nw_lt _) (hdr_fits (by decide) c0).2.1 (vdst_lt c1) (vsrc_lt c2) (vsrc_lt c3) (tyCode_lt _) (hdr_fits (by decide) c0).2.2 (tail_b rfl rfl rfl rfl rfl)

theorem fsubImm (h : Hdr) (d : VDst) (a : VSrc) (imm : W32) : Statement (.fsubImm h d a imm) := fun w _ e => by
  obtain ⟨c0, c1, c2⟩ := chkH2 (checks_of_wf w)
  cases e
  exact fit (by decide : 0x10 < 2 ^ 6) (by decide : 0x21 < 2 ^ 6) (hdr_fits (by decide) c0).1 (nw_lt _) (hdr_fits (by decide) c0).2.1 (vdst_lt c1) (vsrc_lt c2) (by decide : 0 < 2 ^ 11) (tyCode_lt _) (hdr_fits (by decide) c0).2.2 (tail_i rfl (BitVec.isLt _) rfl rfl rfl)

theorem fmul (h : Hdr) (d : VDst) (a : VSrc) (b : VSrc) : Statement (.fmul h d a b) := fun w _ e => by
  obtain ⟨c0, c1, c2, c3⟩ := chkH3 (checks_of_wf w)
  cases e
  exact fit (by decide : 0x10 < 2 ^ 6) (by decide : 0x02 < 2 ^ 6) (hdr_fits (by decide) c0).1 (nw_lt _) (hdr_fits (by decide) c0).2.1 (vdst_lt c1) (vsrc_lt c2) (vsrc_lt c3) (tyCode_lt _) (hdr_fits (by decide) c0).2.2 (tail_b rfl rfl rfl rfl rfl)

theorem fmulImm (h : Hdr) (d : VDst) (a : VSrc) (imm : W32) : Statement (.fmulImm h d a imm) := fun w _ e => by
  obtain ⟨c0, c1, c2⟩ := chkH2 (checks_of_wf w)
  cases e
  exact fit (by decide : 0x10 < 2 ^ 6) (by decide : 0x22 < 2 ^ 6) (hdr_fits (by decide) c0).1 (nw_lt _) (hdr_fits (by decide) c0).2.1 (vdst_lt c1) (vsrc_lt c2) (by decide : 0 < 2 ^ 11) (tyCode_lt _) (hdr_fits (by decide) c0).2.2 (tail_i rfl (BitVec.isLt _) rfl rfl rfl)

theorem fma (h : Hdr) (d : VDst) (a : VSrc) (b : VSrc) (c : VSrc) : Statement (.fma h d a b c) := fun w _ e => by
  obtain ⟨c0, c1, c2, c3, c4⟩ := chkH4 (checks_of_wf w)
  cases e
  exact fit (by decide : 0x10 < 2 ^ 6) (by decide : 0x03 < 2 ^ 6) (hdr_fits (by decide) c0).1 (nw_lt _) (hdr_fits (by decide) c0).2.1 (vdst_lt c1) (vsrc_lt c2) (vsrc_lt c3) (tyCode_lt _) (hdr_fits (by decide) c0).2.2 (tail_s rfl rfl rfl (vsrc_lt c4) (by decide : 0 < 2 ^ 21))

theorem fmaImm (h : Hdr) (d : VDst) (a : VSrc) (imm : W32) (c : VSrc) : Statement (.fmaImm h d a imm c) := fun w _ e => by
  obtain ⟨c0, c1, c2, c3⟩ := chkH3 (checks_of_wf w)
  cases e
  exact fit (by decide : 0x10 < 2 ^ 6) (by decide : 0x23 < 2 ^ 6) (hdr_fits (by decide) c0).1 (nw_lt _) (hdr_fits (by decide) c0).2.1 (vdst_lt c1) (vsrc_lt c2) (by decide : 0 < 2 ^ 11) (tyCode_lt _) (hdr_fits (by decide) c0).2.2 (tail_si rfl rfl (BitVec.isLt _) (vsrc_lt c3) (by decide : 0 < 2 ^ 21))

theorem fmin (h : Hdr) (d : VDst) (a : VSrc) (b : VSrc) : Statement (.fmin h d a b) := fun w _ e => by
  obtain ⟨c0, c1, c2, c3⟩ := chkH3 (checks_of_wf w)
  cases e
  exact fit (by decide : 0x10 < 2 ^ 6) (by decide : 0x04 < 2 ^ 6) (hdr_fits (by decide) c0).1 (nw_lt _) (hdr_fits (by decide) c0).2.1 (vdst_lt c1) (vsrc_lt c2) (vsrc_lt c3) (tyCode_lt _) (hdr_fits (by decide) c0).2.2 (tail_b rfl rfl rfl rfl rfl)

theorem fminImm (h : Hdr) (d : VDst) (a : VSrc) (imm : W32) : Statement (.fminImm h d a imm) := fun w _ e => by
  obtain ⟨c0, c1, c2⟩ := chkH2 (checks_of_wf w)
  cases e
  exact fit (by decide : 0x10 < 2 ^ 6) (by decide : 0x24 < 2 ^ 6) (hdr_fits (by decide) c0).1 (nw_lt _) (hdr_fits (by decide) c0).2.1 (vdst_lt c1) (vsrc_lt c2) (by decide : 0 < 2 ^ 11) (tyCode_lt _) (hdr_fits (by decide) c0).2.2 (tail_i rfl (BitVec.isLt _) rfl rfl rfl)

theorem fmax (h : Hdr) (d : VDst) (a : VSrc) (b : VSrc) : Statement (.fmax h d a b) := fun w _ e => by
  obtain ⟨c0, c1, c2, c3⟩ := chkH3 (checks_of_wf w)
  cases e
  exact fit (by decide : 0x10 < 2 ^ 6) (by decide : 0x05 < 2 ^ 6) (hdr_fits (by decide) c0).1 (nw_lt _) (hdr_fits (by decide) c0).2.1 (vdst_lt c1) (vsrc_lt c2) (vsrc_lt c3) (tyCode_lt _) (hdr_fits (by decide) c0).2.2 (tail_b rfl rfl rfl rfl rfl)

theorem fmaxImm (h : Hdr) (d : VDst) (a : VSrc) (imm : W32) : Statement (.fmaxImm h d a imm) := fun w _ e => by
  obtain ⟨c0, c1, c2⟩ := chkH2 (checks_of_wf w)
  cases e
  exact fit (by decide : 0x10 < 2 ^ 6) (by decide : 0x25 < 2 ^ 6) (hdr_fits (by decide) c0).1 (nw_lt _) (hdr_fits (by decide) c0).2.1 (vdst_lt c1) (vsrc_lt c2) (by decide : 0 < 2 ^ 11) (tyCode_lt _) (hdr_fits (by decide) c0).2.2 (tail_i rfl (BitVec.isLt _) rfl rfl rfl)

theorem fcmp (h : Hdr) (md : Nat) (a : VSrc) (b : VSrc) : Statement (.fcmp h md a b) := fun w _ e => by
  obtain ⟨c0, c1, c2, c3⟩ := chkH3 (checks_of_wf w)
  have c1 := of_decide_eq_true c1
  cases e
  exact fit (by decide : 0x11 < 2 ^ 6) (by decide : 0x00 < 2 ^ 6) (hdr_fits (by decide) c0).1 (nw_lt _) (hdr_fits (by decide) c0).2.1 (show md < 2 ^ 11 by omega) (vsrc_lt c2) (vsrc_lt c3) (tyCode_lt _) (hdr_fits (by decide) c0).2.2 (tail_b rfl rfl rfl rfl rfl)

theorem fcmpImm (h : Hdr) (md : Nat) (a : VSrc) (imm : W32) : Statement (.fcmpImm h md a imm) := fun w _ e => by
  obtain ⟨c0, c1, c2⟩ := chkH2 (checks_of_wf w)
  have c1 := of_decide_eq_true c1
  cases e
  exact fit (by decide : 0x11 < 2 ^ 6) (by decide : 0x20 < 2 ^ 6) (hdr_fits (by decide) c0).1 (nw_lt _) (hdr_fits (by decide) c0).2.1 (show md < 2 ^ 11 by omega) (vsrc_lt c2) (by decide : 0 < 2 ^ 11) (tyCode_lt _) (hdr_fits (by decide) c0).2.2 (tail_i rfl (BitVec.isLt _) rfl rfl rfl)

theorem fclass (h : Hdr) (d : VDst) (a : VSrc) : Statement (.fclass h d a) := fun w _ e => by
  obtain ⟨c0, c1, c2⟩ := chkH2 (checks_of_wf w)
  cases e
  exact fit (by decide : 0x11 < 2 ^ 6) (by decide : 0x01 < 2 ^ 6) (hdr_fits (by decide) c0).1 (nw_lt _) (hdr_fits (by decide) c0).2.1 (vdst_lt c1) (vsrc_lt c2) (by decide : 0 < 2 ^ 11) (tyCode_lt _) (hdr_fits (by decide) c0).2.2 (tail_b rfl rfl rfl rfl rfl)

theorem fscale (h : Hdr) (d : VDst) (a : VSrc) (b : VSrc) : Statement (.fscale h d a b) := fun w _ e => by
  obtain ⟨c0, c1, c2, c3⟩ := chkH3 (checks_of_wf w)
  cases e
  exact fit (by decide : 0x11 < 2 ^ 6) (by decide : 0x02 < 2 ^ 6) (hdr_fits (by decide) c0).1 (nw_lt _) (hdr_fits (by decide) c0).2.1 (vdst_lt c1) (vsrc_lt c2) (vsrc_lt c3) (tyCode_lt _) (hdr_fits (by decide) c0).2.2 (tail_b rfl rfl rfl rfl rfl)

theorem fscaleImm (h : Hdr) (d : VDst) (a : VSrc) (imm : W32) : Statement (.fscaleImm h d a imm) := fun w _ e => by
  obtain ⟨c0, c1, c2⟩ := chkH2 (checks_of_wf w)
  cases e
  exact fit (by decide : 0x11 < 2 ^ 6) (by decide : 0x22 < 2 ^ 6) (hdr_fits (by decide) c0).1 (nw_lt _) (hdr_fits (by decide) c0).2.1 (vdst_lt c1) (vsrc_lt c2) (by decide : 0 < 2 ^ 11) (tyCode_lt _) (hdr_fits (by decide) c0).2.2 (tail_i rfl (BitVec.isLt _) rfl rfl rfl)

theorem frnd (h : Hdr) (d : VDst) (a : VSrc) : Statement (.frnd h d a) := fun w _ e => by
  obtain ⟨c0, c1, c2⟩ := chkH2 (checks_of_wf w)
  cases e
  exact fit (by decide : 0x11 < 2 ^ 6) (by decide : 0x03 < 2 ^ 6) (hdr_fits (by decide) c0).1 (nw_lt _) (hdr_fits (by decide) c0).2.1 (vdst_lt c1) (vsrc_lt c2) (by decide : 0 < 2 ^ 11) (tyCode_lt _) (hdr_fits (by decide) c0).2.2 (tail_b rfl rfl rfl rfl rfl)

theorem frcp (h : Hdr) (d : VDst) (a : VSrc) : Statement (.frcp h d a) := fun w _ e => by
  obtain ⟨c0, c1, c2⟩ := chkH2 (checks_of_wf w)
  cases e
  exact fit (by decide : 0x12 < 2 ^ 6) (by decide : 0x00 < 2 ^ 6) (hdr_fits (by decide) c0).1 (nw_lt _) (hdr_fits (by decide) c0).2.1 (vdst_lt c1) (vsrc_lt c2) (by decide : 0 < 2 ^ 11) (tyCode_lt _) (hdr_fits (by decide) c0).2.2 (tail_b rfl rfl rfl rfl rfl)

theorem fsqrt (h : Hdr) (d : VDst) (a : VSrc) : Statement (.fsqrt h d a) := fun w _ e => by
  obtain ⟨c0, c1, c2⟩ := chkH2 (checks_of_wf w)
  cases e
  exact fit (by decide : 0x12 < 2 ^ 6) (by decide : 0x01 < 2 ^ 6) (hdr_fits (by decide) c0).1 (nw_lt _) (hdr_fits (by decide) c0).2.1 (vdst_lt c1) (vsrc_lt c2) (by decide : 0 < 2 ^ 11) (tyCode_lt _) (hdr_fits (by decide) c0).2.2 (tail_b rfl rfl rfl rfl rfl)

theorem frsq (h : Hdr) (d : VDst) (a : VSrc) : Statement (.frsq h d a) := fun w _ e => by
  obtain ⟨c0, c1, c2⟩ := chkH2 (checks_of_wf w)
  cases e
  exact fit (by decide : 0x12 < 2 ^ 6) (by decide : 0x02 < 2 ^ 6) (hdr_fits (by decide) c0).1 (nw_lt _) (hdr_fits (by decide) c0).2.1 (vdst_lt c1) (vsrc_lt c2) (by decide : 0 < 2 ^ 11) (tyCode_lt _) (hdr_fits (by decide) c0).2.2 (tail_b rfl rfl rfl rfl rfl)

theorem fexp2 (h : Hdr) (d : VDst) (a : VSrc) : Statement (.fexp2 h d a) := fun w _ e => by
  obtain ⟨c0, c1, c2⟩ := chkH2 (checks_of_wf w)
  cases e
  exact fit (by decide : 0x12 < 2 ^ 6) (by decide : 0x03 < 2 ^ 6) (hdr_fits (by decide) c0).1 (nw_lt _) (hdr_fits (by decide) c0).2.1 (vdst_lt c1) (vsrc_lt c2) (by decide : 0 < 2 ^ 11) (tyCode_lt _) (hdr_fits (by decide) c0).2.2 (tail_b rfl rfl rfl rfl rfl)

theorem flog2 (h : Hdr) (d : VDst) (a : VSrc) : Statement (.flog2 h d a) := fun w _ e => by
  obtain ⟨c0, c1, c2⟩ := chkH2 (checks_of_wf w)
  cases e
  exact fit (by decide : 0x12 < 2 ^ 6) (by decide : 0x04 < 2 ^ 6) (hdr_fits (by decide) c0).1 (nw_lt _) (hdr_fits (by decide) c0).2.1 (vdst_lt c1) (vsrc_lt c2) (by decide : 0 < 2 ^ 11) (tyCode_lt _) (hdr_fits (by decide) c0).2.2 (tail_b rfl rfl rfl rfl rfl)

theorem cvt (h : Hdr) (d : VDst) (a : VSrc) (src : Ty) (elem : Nat) : Statement (.cvt h d a src elem) := fun w _ e => by
  obtain ⟨c0, c1, c2, c3, c4, c5⟩ := chkH5 (checks_of_wf w)
  have c3 := of_decide_eq_true c3
  have c5 := of_decide_eq_true c5
  cases e
  exact fit (by decide : 0x13 < 2 ^ 6) (by decide : 0x00 < 2 ^ 6) (hdr_fits (cvtMods_lt _) c0).1 (nw_lt _) (hdr_fits (cvtMods_lt _) c0).2.1 (vdst_lt c1) (vsrc_lt c2) (by decide : 0 < 2 ^ 11) (tyCode_lt _) (hdr_fits (cvtMods_lt _) c0).2.2 (tail_s rfl rfl rfl (by decide : 0 < 2 ^ 11) (show src.code + elem * 2 ^ 6 < 2 ^ 21 by have := tyCode_lt src; omega))

theorem lpack (h : Hdr) (d : VDst) (va : Nat) (src : Ty) : Statement (.lpack h d va src) := fun w _ e => by
  obtain ⟨c0, c1, c2, -⟩ := chkH3 (checks_of_wf w)
  have c2 := of_decide_eq_true c2
  cases e
  exact fit (by decide : 0x13 < 2 ^ 6) (by decide : 0x01 < 2 ^ 6) (hdr_fits (by decide) c0).1 (nw_lt _) (hdr_fits (by decide) c0).2.1 (vdst_lt c1) (show va < 2 ^ 11 by omega) (by decide : 0 < 2 ^ 11) (tyCode_lt _) (hdr_fits (by decide) c0).2.2 (tail_s rfl rfl rfl (by decide : 0 < 2 ^ 11) (Nat.lt_trans (tyCode_lt _) (by decide)))

theorem lunpk (h : Hdr) (d : VDst) (va : Nat) : Statement (.lunpk h d va) := fun w _ e => by
  obtain ⟨c0, c1, c2⟩ := chkH2 (checks_of_wf w)
  have c2 := of_decide_eq_true c2
  cases e
  exact fit (by decide : 0x13 < 2 ^ 6) (by decide : 0x02 < 2 ^ 6) (hdr_fits (by decide) c0).1 (nw_lt _) (hdr_fits (by decide) c0).2.1 (vdst_lt c1) (show va < 2 ^ 11 by omega) (by decide : 0 < 2 ^ 11) (tyCode_lt _) (hdr_fits (by decide) c0).2.2 (tail_s rfl rfl rfl (by decide : 0 < 2 ^ 11) (by decide : 0 < 2 ^ 21))

theorem shfl (h : Hdr) (d : VDst) (a : VSrc) (b : VSrc) : Statement (.shfl h d a b) := fun w _ e => by
  obtain ⟨c0, c1, c2, c3⟩ := chkH3 (checks_of_wf w)
  cases e
  exact fit (by decide : 0x14 < 2 ^ 6) (by decide : 0x00 < 2 ^ 6) (hdr_fits (by decide) c0).1 (nw_lt _) (hdr_fits (by decide) c0).2.1 (vdst_lt c1) (vsrc_lt c2) (vsrc_lt c3) (tyCode_lt _) (hdr_fits (by decide) c0).2.2 (tail_b rfl rfl rfl rfl rfl)

theorem shflImm (h : Hdr) (d : VDst) (a : VSrc) (imm : W32) : Statement (.shflImm h d a imm) := fun w _ e => by
  obtain ⟨c0, c1, c2⟩ := chkH2 (checks_of_wf w)
  cases e
  exact fit (by decide : 0x14 < 2 ^ 6) (by decide : 0x20 < 2 ^ 6) (hdr_fits (by decide) c0).1 (nw_lt _) (hdr_fits (by decide) c0).2.1 (vdst_lt c1) (vsrc_lt c2) (by decide : 0 < 2 ^ 11) (tyCode_lt _) (hdr_fits (by decide) c0).2.2 (tail_i rfl (BitVec.isLt _) rfl rfl rfl)

theorem bcast (h : Hdr) (d : VDst) (a : VSrc) (kl : Nat) : Statement (.bcast h d a kl) := fun w _ e => by
  obtain ⟨c0, c1, c2, c3⟩ := chkH3 (checks_of_wf w)
  cases e
  exact fit (by decide : 0x14 < 2 ^ 6) (by decide : 0x01 < 2 ^ 6) (hdr_fits (by decide) c0).1 (nw_lt _) (hdr_fits (by decide) c0).2.1 (vdst_lt c1) (vsrc_lt c2) (kCode_lt c3) (tyCode_lt _) (hdr_fits (by decide) c0).2.2 (tail_b rfl rfl rfl rfl rfl)

theorem bcastImm (h : Hdr) (d : VDst) (a : VSrc) (imm : W32) : Statement (.bcastImm h d a imm) := fun w _ e => by
  obtain ⟨c0, c1, c2⟩ := chkH2 (checks_of_wf w)
  cases e
  exact fit (by decide : 0x14 < 2 ^ 6) (by decide : 0x21 < 2 ^ 6) (hdr_fits (by decide) c0).1 (nw_lt _) (hdr_fits (by decide) c0).2.1 (vdst_lt c1) (vsrc_lt c2) (by decide : 0 < 2 ^ 11) (tyCode_lt _) (hdr_fits (by decide) c0).2.2 (tail_i rfl (BitVec.isLt _) rfl rfl rfl)

theorem compress (h : Hdr) (d : VDst) (a : VSrc) (b : VSrc) (vm : Nat) (slot : Nat) : Statement (.compress h d a b vm slot) := fun w _ e => by
  obtain ⟨c0, c1, c2, c3, c4, c5, c6⟩ := chkH6 (checks_of_wf w)
  have c4 := of_decide_eq_true c4
  have c5 := of_decide_eq_true c5
  have c6 := of_decide_eq_true c6
  cases e
  exact fit (by decide : 0x14 < 2 ^ 6) (by decide : 0x02 < 2 ^ 6) (hdr_fits (by decide) c0).1 (nw_lt _) (hdr_fits (by decide) c0).2.1 (vdst_lt c1) (vsrc_lt c2) (vsrc_lt c3) (tyCode_lt _) (hdr_fits (by decide) c0).2.2 (tail_s rfl rfl rfl (show vm < 2 ^ 11 by omega) (show slot < 2 ^ 21 by omega))

theorem expand (h : Hdr) (d : VDst) (a : VSrc) (vm : VSrc) (slot : Nat) : Statement (.expand h d a vm slot) := fun w _ e => by
  obtain ⟨c0, c1, c2, c3, c4⟩ := chkH4 (checks_of_wf w)
  have c4 := of_decide_eq_true c4
  cases e
  exact fit (by decide : 0x14 < 2 ^ 6) (by decide : 0x03 < 2 ^ 6) (hdr_fits (by decide) c0).1 (nw_lt _) (hdr_fits (by decide) c0).2.1 (vdst_lt c1) (vsrc_lt c2) (vsrc_lt c3) (tyCode_lt _) (hdr_fits (by decide) c0).2.2 (tail_s rfl rfl rfl (by decide : 0 < 2 ^ 11) (show slot < 2 ^ 21 by omega))

theorem redadd (h : Hdr) (d : VDst) (a : VSrc) : Statement (.redadd h d a) := fun w _ e => by
  obtain ⟨c0, c1, c2⟩ := chkH2 (checks_of_wf w)
  cases e
  exact fit (by decide : 0x15 < 2 ^ 6) (by decide : 0x00 < 2 ^ 6) (hdr_fits (by decide) c0).1 (nw_lt _) (hdr_fits (by decide) c0).2.1 (vdst_lt c1) (vsrc_lt c2) (by decide : 0 < 2 ^ 11) (tyCode_lt _) (hdr_fits (by decide) c0).2.2 (tail_b rfl rfl rfl rfl rfl)

theorem redmin (h : Hdr) (d : VDst) (a : VSrc) : Statement (.redmin h d a) := fun w _ e => by
  obtain ⟨c0, c1, c2⟩ := chkH2 (checks_of_wf w)
  cases e
  exact fit (by decide : 0x15 < 2 ^ 6) (by decide : 0x01 < 2 ^ 6) (hdr_fits (by decide) c0).1 (nw_lt _) (hdr_fits (by decide) c0).2.1 (vdst_lt c1) (vsrc_lt c2) (by decide : 0 < 2 ^ 11) (tyCode_lt _) (hdr_fits (by decide) c0).2.2 (tail_b rfl rfl rfl rfl rfl)

theorem redmax (h : Hdr) (d : VDst) (a : VSrc) : Statement (.redmax h d a) := fun w _ e => by
  obtain ⟨c0, c1, c2⟩ := chkH2 (checks_of_wf w)
  cases e
  exact fit (by decide : 0x15 < 2 ^ 6) (by decide : 0x02 < 2 ^ 6) (hdr_fits (by decide) c0).1 (nw_lt _) (hdr_fits (by decide) c0).2.1 (vdst_lt c1) (vsrc_lt c2) (by decide : 0 < 2 ^ 11) (tyCode_lt _) (hdr_fits (by decide) c0).2.2 (tail_b rfl rfl rfl rfl rfl)

theorem redand (h : Hdr) (d : VDst) (a : VSrc) : Statement (.redand h d a) := fun w _ e => by
  obtain ⟨c0, c1, c2⟩ := chkH2 (checks_of_wf w)
  cases e
  exact fit (by decide : 0x15 < 2 ^ 6) (by decide : 0x03 < 2 ^ 6) (hdr_fits (by decide) c0).1 (nw_lt _) (hdr_fits (by decide) c0).2.1 (vdst_lt c1) (vsrc_lt c2) (by decide : 0 < 2 ^ 11) (tyCode_lt _) (hdr_fits (by decide) c0).2.2 (tail_b rfl rfl rfl rfl rfl)

theorem redor (h : Hdr) (d : VDst) (a : VSrc) : Statement (.redor h d a) := fun w _ e => by
  obtain ⟨c0, c1, c2⟩ := chkH2 (checks_of_wf w)
  cases e
  exact fit (by decide : 0x15 < 2 ^ 6) (by decide : 0x04 < 2 ^ 6) (hdr_fits (by decide) c0).1 (nw_lt _) (hdr_fits (by decide) c0).2.1 (vdst_lt c1) (vsrc_lt c2) (by decide : 0 < 2 ^ 11) (tyCode_lt _) (hdr_fits (by decide) c0).2.2 (tail_b rfl rfl rfl rfl rfl)

theorem redxor (h : Hdr) (d : VDst) (a : VSrc) : Statement (.redxor h d a) := fun w _ e => by
  obtain ⟨c0, c1, c2⟩ := chkH2 (checks_of_wf w)
  cases e
  exact fit (by decide : 0x15 < 2 ^ 6) (by decide : 0x05 < 2 ^ 6) (hdr_fits (by decide) c0).1 (nw_lt _) (hdr_fits (by decide) c0).2.1 (vdst_lt c1) (vsrc_lt c2) (by decide : 0 < 2 ^ 11) (tyCode_lt _) (hdr_fits (by decide) c0).2.2 (tail_b rfl rfl rfl rfl rfl)

theorem scan (h : Hdr) (d : VDst) (a : VSrc) : Statement (.scan h d a) := fun w _ e => by
  obtain ⟨c0, c1, c2, -⟩ := chkH3 (checks_of_wf w)
  cases e
  exact fit (by decide : 0x15 < 2 ^ 6) (by decide : 0x06 < 2 ^ 6) (hdr_fits (by decide) c0).1 (nw_lt _) (hdr_fits (by decide) c0).2.1 (vdst_lt c1) (vsrc_lt c2) (by decide : 0 < 2 ^ 11) (tyCode_lt _) (hdr_fits (by decide) c0).2.2 (tail_b rfl rfl rfl rfl rfl)

theorem redminIndex (h : Hdr) (d : VDst) (di : VDst) (a : VSrc) (b : VSrc) : Statement (.redminIndex h d di a b) := fun w _ e => by
  obtain ⟨c0, c1, c2, c3, c4⟩ := chkH4 (checks_of_wf w)
  cases e
  exact fit (by decide : 0x15 < 2 ^ 6) (by decide : 0x08 < 2 ^ 6) (hdr_fits (by decide) c0).1 (nw_lt _) (hdr_fits (by decide) c0).2.1 (vdst_lt c1) (vsrc_lt c3) (vsrc_lt c4) (tyCode_lt _) (hdr_fits (by decide) c0).2.2 (tail_s rfl rfl rfl (vdst_lt c2) (by decide : 0 < 2 ^ 21))

theorem redmaxIndex (h : Hdr) (d : VDst) (di : VDst) (a : VSrc) (b : VSrc) : Statement (.redmaxIndex h d di a b) := fun w _ e => by
  obtain ⟨c0, c1, c2, c3, c4⟩ := chkH4 (checks_of_wf w)
  cases e
  exact fit (by decide : 0x15 < 2 ^ 6) (by decide : 0x09 < 2 ^ 6) (hdr_fits (by decide) c0).1 (nw_lt _) (hdr_fits (by decide) c0).2.1 (vdst_lt c1) (vsrc_lt c3) (vsrc_lt c4) (tyCode_lt _) (hdr_fits (by decide) c0).2.2 (tail_s rfl rfl rfl (vdst_lt c2) (by decide : 0 < 2 ^ 21))

theorem ballot (h : Hdr) (kd : Nat) (a : VSrc) : Statement (.ballot h kd a) := fun w _ e => by
  obtain ⟨c0, c1, c2⟩ := chkH2 (checks_of_wf w)
  cases e
  exact fit (by decide : 0x16 < 2 ^ 6) (by decide : 0x00 < 2 ^ 6) (hdr_fits (by decide) c0).1 (nw_lt _) (hdr_fits (by decide) c0).2.1 (kCode_lt c1) (vsrc_lt c2) (by decide : 0 < 2 ^ 11) (tyCode_lt _) (hdr_fits (by decide) c0).2.2 (tail_b rfl rfl rfl rfl rfl)

theorem vany (h : Hdr) (kd : Nat) (a : VSrc) : Statement (.vany h kd a) := fun w _ e => by
  obtain ⟨c0, c1, c2⟩ := chkH2 (checks_of_wf w)
  cases e
  exact fit (by decide : 0x16 < 2 ^ 6) (by decide : 0x01 < 2 ^ 6) (hdr_fits (by decide) c0).1 (nw_lt _) (hdr_fits (by decide) c0).2.1 (kCode_lt c1) (vsrc_lt c2) (by decide : 0 < 2 ^ 11) (tyCode_lt _) (hdr_fits (by decide) c0).2.2 (tail_b rfl rfl rfl rfl rfl)

theorem vall (h : Hdr) (kd : Nat) (a : VSrc) : Statement (.vall h kd a) := fun w _ e => by
  obtain ⟨c0, c1, c2⟩ := chkH2 (checks_of_wf w)
  cases e
  exact fit (by decide : 0x16 < 2 ^ 6) (by decide : 0x02 < 2 ^ 6) (hdr_fits (by decide) c0).1 (nw_lt _) (hdr_fits (by decide) c0).2.1 (kCode_lt c1) (vsrc_lt c2) (by decide : 0 < 2 ^ 11) (tyCode_lt _) (hdr_fits (by decide) c0).2.2 (tail_b rfl rfl rfl rfl rfl)

theorem elect (h : Hdr) (md : Nat) (ms : Nat) : Statement (.elect h md ms) := fun w _ e => by
  obtain ⟨c0, c1, c2⟩ := chkH2 (checks_of_wf w)
  have c1 := of_decide_eq_true c1
  have c2 := of_decide_eq_true c2
  cases e
  exact fit (by decide : 0x16 < 2 ^ 6) (by decide : 0x03 < 2 ^ 6) (hdr_fits (by decide) c0).1 (nw_lt _) (hdr_fits (by decide) c0).2.1 (show md < 2 ^ 11 by omega) (show ms < 2 ^ 11 by omega) (by decide : 0 < 2 ^ 11) (tyCode_lt _) (hdr_fits (by decide) c0).2.2 (tail_b rfl rfl rfl rfl rfl)

theorem mcnt (h : Hdr) (kd : Nat) (ms : Nat) : Statement (.mcnt h kd ms) := fun w _ e => by
  obtain ⟨c0, c1, c2⟩ := chkH2 (checks_of_wf w)
  have c2 := of_decide_eq_true c2
  cases e
  exact fit (by decide : 0x16 < 2 ^ 6) (by decide : 0x04 < 2 ^ 6) (hdr_fits (by decide) c0).1 (nw_lt _) (hdr_fits (by decide) c0).2.1 (kCode_lt c1) (show ms < 2 ^ 11 by omega) (by decide : 0 < 2 ^ 11) (tyCode_lt _) (hdr_fits (by decide) c0).2.2 (tail_b rfl rfl rfl rfl rfl)

theorem mlog (h : Hdr) (md : Nat) (ma : Nat) (mb : Nat) : Statement (.mlog h md ma mb) := fun w _ e => by
  obtain ⟨c0, c1, c2, c3, c4, c5⟩ := chkH5 (checks_of_wf w)
  have c1 := of_decide_eq_true c1
  have c2 := of_decide_eq_true c2
  have c3 := of_decide_eq_true c3
  have c4 := of_decide_eq_true c4
  have c5 := of_decide_eq_true c5
  cases e
  exact fit (by decide : 0x16 < 2 ^ 6) (by decide : 0x05 < 2 ^ 6) (hdr_fits (by decide) c0).1 (nw_lt _) (hdr_fits (by decide) c0).2.1 (show md < 2 ^ 11 by omega) (show ma < 2 ^ 11 by omega) (show mb < 2 ^ 11 by omega) (tyCode_lt _) (hdr_fits (by decide) c0).2.2 (tail_b rfl rfl rfl rfl rfl)

theorem ldg (h : Hdr) (d : VDst) (ad : Addr) (scope : Nat) : Statement (.ldg h d ad scope) := fun w _ e => by
  obtain ⟨c0, c1, c2, c3⟩ := chkH3 (checks_of_wf w)
  cases e
  exact fit (by decide : 0x18 < 2 ^ 6) (by decide : 0x00 < 2 ^ 6) (hdr_fits (by decide) c0).1 (nw_lt _) (hdr_fits (by decide) c0).2.1 (vdst_lt c1) (addrOp_lt c2) (by decide : 0 < 2 ^ 11) (tyCode_lt _) (hdr_fits (by decide) c0).2.2 (tail_s rfl rfl rfl (by decide : 0 < 2 ^ 11) (ext_scope (addrExt_lt c2) (of_decide_eq_true c3)))

theorem stg (h : Hdr) (ad : Addr) (b : VSrc) (scope : Nat) : Statement (.stg h ad b scope) := fun w _ e => by
  obtain ⟨c0, c1, c2, c3⟩ := chkH3 (checks_of_wf w)
  cases e
  exact fit (by decide : 0x18 < 2 ^ 6) (by decide : 0x01 < 2 ^ 6) (hdr_fits (by decide) c0).1 (nw_lt _) (hdr_fits (by decide) c0).2.1 (by decide : 0 < 2 ^ 11) (addrOp_lt c1) (vsrc_lt c2) (tyCode_lt _) (hdr_fits (by decide) c0).2.2 (tail_s rfl rfl rfl (by decide : 0 < 2 ^ 11) (ext_scope (addrExt_lt c1) (of_decide_eq_true c3)))

theorem pref (h : Hdr) (ad : Addr) : Statement (.pref h ad) := fun w _ e => by
  obtain ⟨c0, c1⟩ := chkH1 (checks_of_wf w)
  cases e
  exact fit (by decide : 0x18 < 2 ^ 6) (by decide : 0x02 < 2 ^ 6) (hdr_fits (by decide) c0).1 (nw_lt _) (hdr_fits (by decide) c0).2.1 (by decide : 0 < 2 ^ 11) (addrOp_lt c1) (by decide : 0 < 2 ^ 11) (tyCode_lt _) (hdr_fits (by decide) c0).2.2 (tail_s rfl rfl rfl (by decide : 0 < 2 ^ 11) (Nat.lt_trans (addrExt_lt c1) (by decide)))

theorem lds (h : Hdr) (d : VDst) (ad : Addr) : Statement (.lds h d ad) := fun w _ e => by
  obtain ⟨c0, c1, c2⟩ := chkH2 (checks_of_wf w)
  cases e
  exact fit (by decide : 0x19 < 2 ^ 6) (by decide : 0x00 < 2 ^ 6) (hdr_fits (by decide) c0).1 (nw_lt _) (hdr_fits (by decide) c0).2.1 (vdst_lt c1) (addrOp_lt c2) (by decide : 0 < 2 ^ 11) (tyCode_lt _) (hdr_fits (by decide) c0).2.2 (tail_s rfl rfl rfl (by decide : 0 < 2 ^ 11) (Nat.lt_trans (addrExt_lt c2) (by decide)))

theorem sts (h : Hdr) (ad : Addr) (b : VSrc) : Statement (.sts h ad b) := fun w _ e => by
  obtain ⟨c0, c1, c2⟩ := chkH2 (checks_of_wf w)
  cases e
  exact fit (by decide : 0x19 < 2 ^ 6) (by decide : 0x01 < 2 ^ 6) (hdr_fits (by decide) c0).1 (nw_lt _) (hdr_fits (by decide) c0).2.1 (by decide : 0 < 2 ^ 11) (addrOp_lt c1) (vsrc_lt c2) (tyCode_lt _) (hdr_fits (by decide) c0).2.2 (tail_s rfl rfl rfl (by decide : 0 < 2 ^ 11) (Nat.lt_trans (addrExt_lt c1) (by decide)))

theorem ldc (h : Hdr) (d : VDst) (off : VSrc) (disp : Nat) (rank : Nat) (file : Nat) (scope : Nat) : Statement (.ldc h d off disp rank file scope) := fun w _ e => by
  obtain ⟨c0, c1, c2, c3, c4, c5, c6, c7⟩ := chkH7 (checks_of_wf w)
  have c3 := of_decide_eq_true c3
  have c4 := of_decide_eq_true c4
  have c5 := of_decide_eq_true c5
  have c6 := of_decide_eq_true c6
  have c7 := of_decide_eq_true c7
  cases e
  exact fit (by decide : 0x19 < 2 ^ 6) (by decide : 0x02 < 2 ^ 6) (hdr_fits (by decide) c0).1 (nw_lt _) (hdr_fits (by decide) c0).2.1 (vdst_lt c1) (off_lt c2) (by decide : 0 < 2 ^ 11) (tyCode_lt _) (hdr_fits (by decide) c0).2.2 (tail_s rfl rfl rfl (by decide : 0 < 2 ^ 11) (show disp * 2 ^ 8 + rank + file * 2 ^ 4 + scope * 2 ^ 18 + 2 * 2 ^ 16 < 2 ^ 21 by omega))

theorem stc (h : Hdr) (off : VSrc) (disp : Nat) (rank : Nat) (file : Nat) (b : VSrc) (scope : Nat) : Statement (.stc h off disp rank file b scope) := fun w _ e => by
  obtain ⟨c0, c1, c2, c3, c4, c5, c6, c7⟩ := chkH7 (checks_of_wf w)
  have c2 := of_decide_eq_true c2
  have c3 := of_decide_eq_true c3
  have c4 := of_decide_eq_true c4
  have c6 := of_decide_eq_true c6
  have c7 := of_decide_eq_true c7
  cases e
  exact fit (by decide : 0x19 < 2 ^ 6) (by decide : 0x03 < 2 ^ 6) (hdr_fits (by decide) c0).1 (nw_lt _) (hdr_fits (by decide) c0).2.1 (by decide : 0 < 2 ^ 11) (off_lt c1) (vsrc_lt c5) (tyCode_lt _) (hdr_fits (by decide) c0).2.2 (tail_s rfl rfl rfl (by decide : 0 < 2 ^ 11) (show disp * 2 ^ 8 + rank + file * 2 ^ 4 + scope * 2 ^ 18 + 2 * 2 ^ 16 < 2 ^ 21 by omega))

theorem ldd (h : Hdr) (d : VDst) (ad : Addr) (scope : Nat) : Statement (.ldd h d ad scope) := fun w _ e => by
  obtain ⟨c0, c1, c2, c3⟩ := chkH3 (checks_of_wf w)
  cases e
  exact fit (by decide : 0x19 < 2 ^ 6) (by decide : 0x04 < 2 ^ 6) (hdr_fits (by decide) c0).1 (nw_lt _) (hdr_fits (by decide) c0).2.1 (vdst_lt c1) (addrOp_lt c2) (by decide : 0 < 2 ^ 11) (tyCode_lt _) (hdr_fits (by decide) c0).2.2 (tail_s rfl rfl rfl (by decide : 0 < 2 ^ 11) (ext_scope (addrExt_lt c2) (of_decide_eq_true c3)))

theorem std (h : Hdr) (ad : Addr) (b : VSrc) (scope : Nat) : Statement (.std h ad b scope) := fun w _ e => by
  obtain ⟨c0, c1, c2, c3⟩ := chkH3 (checks_of_wf w)
  cases e
  exact fit (by decide : 0x19 < 2 ^ 6) (by decide : 0x05 < 2 ^ 6) (hdr_fits (by decide) c0).1 (nw_lt _) (hdr_fits (by decide) c0).2.1 (by decide : 0 < 2 ^ 11) (addrOp_lt c1) (vsrc_lt c2) (tyCode_lt _) (hdr_fits (by decide) c0).2.2 (tail_s rfl rfl rfl (by decide : 0 < 2 ^ 11) (ext_scope (addrExt_lt c1) (of_decide_eq_true c3)))

theorem ldl (h : Hdr) (d : VDst) (ad : Addr) : Statement (.ldl h d ad) := fun w _ e => by
  obtain ⟨c0, c1, c2⟩ := chkH2 (checks_of_wf w)
  cases e
  exact fit (by decide : 0x19 < 2 ^ 6) (by decide : 0x06 < 2 ^ 6) (hdr_fits (by decide) c0).1 (nw_lt _) (hdr_fits (by decide) c0).2.1 (vdst_lt c1) (addrOp_lt c2) (by decide : 0 < 2 ^ 11) (tyCode_lt _) (hdr_fits (by decide) c0).2.2 (tail_s rfl rfl rfl (by decide : 0 < 2 ^ 11) (Nat.lt_trans (addrExt_lt c2) (by decide)))

theorem stl (h : Hdr) (ad : Addr) (b : VSrc) : Statement (.stl h ad b) := fun w _ e => by
  obtain ⟨c0, c1, c2⟩ := chkH2 (checks_of_wf w)
  cases e
  exact fit (by decide : 0x19 < 2 ^ 6) (by decide : 0x07 < 2 ^ 6) (hdr_fits (by decide) c0).1 (nw_lt _) (hdr_fits (by decide) c0).2.1 (by decide : 0 < 2 ^ 11) (addrOp_lt c1) (vsrc_lt c2) (tyCode_lt _) (hdr_fits (by decide) c0).2.2 (tail_s rfl rfl rfl (by decide : 0 < 2 ^ 11) (Nat.lt_trans (addrExt_lt c1) (by decide)))

theorem atom (h : Hdr) (d : VDst) (ad : Addr) (b : VSrc) (aop : Nat) (scope : Nat) : Statement (.atom h d ad b aop scope) := fun w _ e => by
  obtain ⟨c0, c1, c2, c3, c4, c5, -, -⟩ := chkH7 (checks_of_wf w)
  cases e
  exact fit (by decide : 0x1A < 2 ^ 6) (by decide : 0x00 < 2 ^ 6) (hdr_fits (by decide) c0).1 (nw_lt _) (hdr_fits (by decide) c0).2.1 (vdst_lt c1) (addrOp_lt (and_l c2)) (vsrc_lt c3) (tyCode_lt _) (hdr_fits (by decide) c0).2.2 (tail_s rfl rfl rfl (by decide : 0 < 2 ^ 11) (ext_aop (addrExt_aop (and_l c2) (and_r c2)) (of_decide_eq_true c4) (of_decide_eq_true c5)))

theorem atomc (h : Hdr) (d : VDst) (ad : Addr) (b : VSrc) (c : VSrc) (scope : Nat) : Statement (.atomc h d ad b c scope) := fun w _ e => by
  obtain ⟨c0, c1, c2, c3, c4, c5⟩ := chkH5 (checks_of_wf w)
  cases e
  exact fit (by decide : 0x1A < 2 ^ 6) (by decide : 0x01 < 2 ^ 6) (hdr_fits (by decide) c0).1 (nw_lt _) (hdr_fits (by decide) c0).2.1 (vdst_lt c1) (addrOp_lt (and_l c2)) (vsrc_lt c3) (tyCode_lt _) (hdr_fits (by decide) c0).2.2 (tail_s rfl rfl rfl (vsrc_lt c4) (ext_scope (addrExt_lt (and_l c2)) (of_decide_eq_true c5)))

theorem red (h : Hdr) (ad : Addr) (b : VSrc) (aop : Nat) (scope : Nat) : Statement (.red h ad b aop scope) := fun w _ e => by
  obtain ⟨c0, c1, c2, c3, c4, -, -⟩ := chkH6 (checks_of_wf w)
  cases e
  exact fit (by decide : 0x1A < 2 ^ 6) (by decide : 0x02 < 2 ^ 6) (hdr_fits (by decide) c0).1 (nw_lt _) (hdr_fits (by decide) c0).2.1 (by decide : 0 < 2 ^ 11) (addrOp_lt (and_l c1)) (vsrc_lt c2) (tyCode_lt _) (hdr_fits (by decide) c0).2.2 (tail_s rfl rfl rfl (by decide : 0 < 2 ^ 11) (ext_aop (addrExt_aop (and_l c1) (and_r c1)) (of_decide_eq_true c3) (of_decide_eq_true c4)))

theorem atoms (h : Hdr) (ad : Addr) (b : VSrc) (scope : Nat) : Statement (.atoms h ad b scope) := fun w _ e => by
  obtain ⟨c0, c1, c2, c3⟩ := chkH3 (checks_of_wf w)
  cases e
  exact fit (by decide : 0x1A < 2 ^ 6) (by decide : 0x03 < 2 ^ 6) (hdr_fits (by decide) c0).1 (nw_lt _) (hdr_fits (by decide) c0).2.1 (by decide : 0 < 2 ^ 11) (addrOp_lt (and_l c1)) (vsrc_lt c2) (tyCode_lt _) (hdr_fits (by decide) c0).2.2 (tail_s rfl rfl rfl (by decide : 0 < 2 ^ 11) (ext_scope (addrExt_lt (and_l c1)) (of_decide_eq_true c3)))

theorem fence (sc : Bool) (p : Nat) (q : Nat) (scope : Nat) : Statement (.fence sc p q scope) := fun w _ e => by
  obtain ⟨c1, c2, c3, c4⟩ := chk4 (checks_of_wf w)
  have c1 := of_decide_eq_true c1
  have c2 := of_decide_eq_true c2
  have c3 := of_decide_eq_true c3
  have c4 := of_decide_eq_true c4
  cases e
  exact fit (by decide : 0x1B < 2 ^ 6) (by decide : 0x00 < 2 ^ 6) (by decide : 0 < 2 ^ 4) (by decide : 0 < 2) (by decide : 0 < 2 ^ 2) (by decide : 0 < 2 ^ 11) (by decide : 0 < 2 ^ 11) (by decide : 0 < 2 ^ 11) (by decide : 0 < 2 ^ 6) (scMod_lt _) (tail_s rfl rfl rfl (by decide : 0 < 2 ^ 11) (show p + q * 2 ^ 6 + scope * 2 ^ 18 < 2 ^ 21 by omega))

theorem ofence : Statement (.ofence) := fun _ _ e => by
  cases e
  exact fit (by decide : 0x1B < 2 ^ 6) (by decide : 0x01 < 2 ^ 6) (by decide : 0 < 2 ^ 4) (by decide : 0 < 2) (by decide : 0 < 2 ^ 2) (by decide : 0 < 2 ^ 11) (by decide : 0 < 2 ^ 11) (by decide : 0 < 2 ^ 11) (by decide : 0 < 2 ^ 6) (by decide : 0 < 2 ^ 4) (tail_b rfl rfl rfl rfl rfl)

theorem waitp (p : Nat) (kn : Nat) : Statement (.waitp p kn) := fun w _ e => by
  obtain ⟨c1, c2⟩ := chk2 (checks_of_wf w)
  have c1 := of_decide_eq_true c1
  cases e
  exact fit (by decide : 0x1B < 2 ^ 6) (by decide : 0x02 < 2 ^ 6) (by decide : 0 < 2 ^ 4) (by decide : 0 < 2) (by decide : 0 < 2 ^ 2) (by decide : 0 < 2 ^ 11) (show p < 2 ^ 11 by omega) (kCode_lt c2) (by decide : 0 < 2 ^ 6) (by decide : 0 < 2 ^ 4) (tail_b rfl rfl rfl rfl rfl)

theorem cflush (h : Hdr) (ad : Addr) : Statement (.cflush h ad) := fun w _ e => by
  obtain ⟨c0, c1⟩ := chkH1 (checks_of_wf w)
  cases e
  exact fit (by decide : 0x1B < 2 ^ 6) (by decide : 0x03 < 2 ^ 6) (hdr_fits (by decide) c0).1 (nw_lt _) (hdr_fits (by decide) c0).2.1 (by decide : 0 < 2 ^ 11) (addrOp_lt c1) (by decide : 0 < 2 ^ 11) (tyCode_lt _) (hdr_fits (by decide) c0).2.2 (tail_s rfl rfl rfl (by decide : 0 < 2 ^ 11) (Nat.lt_trans (addrExt_lt c1) (by decide)))

theorem cinv (h : Hdr) (ad : Addr) : Statement (.cinv h ad) := fun w _ e => by
  obtain ⟨c0, c1⟩ := chkH1 (checks_of_wf w)
  cases e
  exact fit (by decide : 0x1B < 2 ^ 6) (by decide : 0x04 < 2 ^ 6) (hdr_fits (by decide) c0).1 (nw_lt _) (hdr_fits (by decide) c0).2.1 (by decide : 0 < 2 ^ 11) (addrOp_lt c1) (by decide : 0 < 2 ^ 11) (tyCode_lt _) (hdr_fits (by decide) c0).2.2 (tail_s rfl rfl rfl (by decide : 0 < 2 ^ 11) (Nat.lt_trans (addrExt_lt c1) (by decide)))

theorem tcopy (nw : Bool) (d : Option Nat) (krec : Nat) : Statement (.tcopy nw d krec) := fun w _ e => by
  obtain ⟨c1, c2, c3⟩ := chk3 (checks_of_wf w)
  have c3 := of_decide_eq_true c3
  cases e
  exact fit (by decide : 0x1C < 2 ^ 6) (by decide : 0x00 < 2 ^ 6) (by decide : 0 < 2 ^ 4) (nw_lt _) (by decide : 0 < 2 ^ 2) (optReg_lt c1) (kCode_lt c2) (by decide : 0 < 2 ^ 11) (by decide : 0 < 2 ^ 6) (by decide : 0 < 2 ^ 4) (tail_s rfl rfl rfl (by decide : 0 < 2 ^ 11) (by decide : 0 < 2 ^ 21))

theorem tstore (krec : Nat) (vs : Nat) : Statement (.tstore krec vs) := fun w _ e => by
  obtain ⟨c1, c2⟩ := chk2 (checks_of_wf w)
  have c2 := of_decide_eq_true c2
  cases e
  exact fit (by decide : 0x1C < 2 ^ 6) (by decide : 0x01 < 2 ^ 6) (by decide : 0 < 2 ^ 4) (by decide : 0 < 2) (by decide : 0 < 2 ^ 2) (by decide : 0 < 2 ^ 11) (kCode_lt c1) (show vs < 2 ^ 11 by omega) (by decide : 0 < 2 ^ 6) (by decide : 0 < 2 ^ 4) (tail_s rfl rfl rfl (by decide : 0 < 2 ^ 11) (by decide : 0 < 2 ^ 21))

theorem tfill (krec : Nat) (kval : Nat) : Statement (.tfill krec kval) := fun w _ e => by
  obtain ⟨c1, c2⟩ := chk2 (checks_of_wf w)
  cases e
  exact fit (by decide : 0x1C < 2 ^ 6) (by decide : 0x02 < 2 ^ 6) (by decide : 0 < 2 ^ 4) (by decide : 0 < 2) (by decide : 0 < 2 ^ 2) (by decide : 0 < 2 ^ 11) (kCode_lt c1) (kCode_lt c2) (by decide : 0 < 2 ^ 6) (by decide : 0 < 2 ^ 4) (tail_s rfl rfl rfl (by decide : 0 < 2 ^ 11) (by decide : 0 < 2 ^ 21))

theorem bdgather (kd : Nat) (ka : Nat) (kl : Nat) (kc : Nat) (rsz : Nat) (iw : Bool) : Statement (.bdgather kd ka kl kc rsz iw) := fun w _ e => by
  obtain ⟨c1, c2, c3, c4, c5⟩ := chk5 (checks_of_wf w)
  have c5 := of_decide_eq_true c5
  cases e
  exact fit (by decide : 0x1D < 2 ^ 6) (by decide : 0x00 < 2 ^ 6) (by decide : 0 < 2 ^ 4) (by decide : 0 < 2) (by decide : 0 < 2 ^ 2) (kCode_lt c1) (kCode_lt c2) (kCode_lt c3) (by decide : 0 < 2 ^ 6) (by decide : 0 < 2 ^ 4) (tail_s rfl rfl rfl (kCode_lt c4) (show rsz + iw.toNat * 2 ^ 10 < 2 ^ 21 by have := nw_lt iw; omega))

theorem bdscat (kd : Nat) (ka : Nat) (kl : Nat) (kc : Nat) (rsz : Nat) (iw : Bool) : Statement (.bdscat kd ka kl kc rsz iw) := fun w _ e => by
  obtain ⟨c1, c2, c3, c4, c5⟩ := chk5 (checks_of_wf w)
  have c5 := of_decide_eq_true c5
  cases e
  exact fit (by decide : 0x1D < 2 ^ 6) (by decide : 0x01 < 2 ^ 6) (by decide : 0 < 2 ^ 4) (by decide : 0 < 2) (by decide : 0 < 2 ^ 2) (kCode_lt c1) (kCode_lt c2) (kCode_lt c3) (by decide : 0 < 2 ^ 6) (by decide : 0 < 2 ^ 4) (tail_s rfl rfl rfl (kCode_lt c4) (show rsz + iw.toNat * 2 ^ 10 < 2 ^ 21 by have := nw_lt iw; omega))

theorem bdred (ty : Ty) (kd : Nat) (ka : Nat) (kl : Option Nat) (kc : Nat) (rsz : Nat) (iw : Bool) (rop : Nat) : Statement (.bdred ty kd ka kl kc rsz iw rop) := fun w _ e => by
  obtain ⟨-, c2, c3, c4, c5, c6, c7, c8, c9⟩ := chkC9 (checks_of_wf w)
  have c6 := of_decide_eq_true c6
  have c7 := of_decide_eq_true c7
  have c8 := of_decide_eq_true c8
  have c9 := of_decide_eq_true c9
  cases e
  exact fit (by decide : 0x1D < 2 ^ 6) (by decide : 0x02 < 2 ^ 6) (by decide : 0 < 2 ^ 4) (by decide : 0 < 2) (by decide : 0 < 2 ^ 2) (kCode_lt c2) (kCode_lt c3) (kCodeZ_lt c4) (tyCode_lt _) (by decide : 0 < 2 ^ 4) (tail_s rfl rfl rfl (kCode_lt c5) (show rsz + iw.toNat * 2 ^ 10 + rop * 2 ^ 11 < 2 ^ 21 by have := nw_lt iw; omega))

theorem bdconv (ty : Ty) (src : Ty) (kd : Nat) (ka : Nat) (kc : Nat) : Statement (.bdconv ty src kd ka kc) := fun w _ e => by
  obtain ⟨-, c2, c3, c4, -⟩ := chkC5 (checks_of_wf w)
  cases e
  exact fit (by decide : 0x1D < 2 ^ 6) (by decide : 0x03 < 2 ^ 6) (by decide : 0 < 2 ^ 4) (by decide : 0 < 2) (by decide : 0 < 2 ^ 2) (kCode_lt c2) (kCode_lt c3) (by decide : 1539 < 2 ^ 11) (tyCode_lt _) (by decide : 0 < 2 ^ 4) (tail_s rfl rfl rfl (kCode_lt c4) (Nat.lt_trans (tyCode_lt _) (by decide)))

theorem accwin (kg : Nat) (kb : Nat) (kl : Nat) : Statement (.accwin kg kb kl) := fun w _ e => by
  obtain ⟨c1, c2, c3⟩ := chk3 (checks_of_wf w)
  cases e
  exact fit (by decide : 0x20 < 2 ^ 6) (by decide : 0x00 < 2 ^ 6) (by decide : 0 < 2 ^ 4) (by decide : 0 < 2) (by decide : 0 < 2 ^ 2) (kCode_lt c1) (kCode_lt c2) (kCode_lt c3) (by decide : 0 < 2 ^ 6) (by decide : 0 < 2 ^ 4) (tail_b rfl rfl rfl rfl rfl)

theorem accz (r : RowOp) (c : Nat) : Statement (.accz r c) := fun w _ e => by
  obtain ⟨c1, c2, c3⟩ := chk3 (checks_of_wf w)
  have c2 := of_decide_eq_true c2
  have c3 := of_decide_eq_true c3
  cases e
  exact fit (by decide : 0x20 < 2 ^ 6) (by decide : 0x01 < 2 ^ 6) (by decide : 0 < 2 ^ 4) (by decide : 0 < 2) (by decide : 0 < 2 ^ 2) (kCodeZ_lt c1) (by decide : 0 < 2 ^ 11) (by decide : 0 < 2 ^ 11) (by decide : 0 < 2 ^ 6) (by decide : 0 < 2 ^ 4) (tail_s rfl rfl rfl (show c - 1 < 2 ^ 11 by omega) (show r.e < 2 ^ 21 by omega))

theorem accld (r : RowOp) (krec : Nat) : Statement (.accld r krec) := fun w _ e => by
  obtain ⟨c1, c2, c3⟩ := chk3 (checks_of_wf w)
  have c2 := of_decide_eq_true c2
  cases e
  exact fit (by decide : 0x20 < 2 ^ 6) (by decide : 0x02 < 2 ^ 6) (by decide : 0 < 2 ^ 4) (by decide : 0 < 2) (by decide : 0 < 2 ^ 2) (kCodeZ_lt c1) (kCode_lt c3) (by decide : 0 < 2 ^ 11) (tyCode_lt Ty.f32) (by decide : 0 < 2 ^ 4) (tail_s rfl rfl rfl (by decide : 0 < 2 ^ 11) (show r.e < 2 ^ 21 by omega))

theorem accst (krec : Nat) (r : RowOp) : Statement (.accst krec r) := fun w _ e => by
  obtain ⟨c1, c2, c3⟩ := chk3 (checks_of_wf w)
  have c3 := of_decide_eq_true c3
  cases e
  exact fit (by decide : 0x20 < 2 ^ 6) (by decide : 0x03 < 2 ^ 6) (by decide : 0 < 2 ^ 4) (by decide : 0 < 2) (by decide : 0 < 2 ^ 2) (kCode_lt c1) (kCodeZ_lt c2) (by decide : 0 < 2 ^ 11) (tyCode_lt Ty.f32) (by decide : 0 < 2 ^ 4) (tail_s rfl rfl rfl (by decide : 0 < 2 ^ 11) (show r.e < 2 ^ 21 by omega))

theorem accout (h : Hdr) (d : AccDst) (r : RowOp) (c : Nat) : Statement (.accout h d r c) := fun w _ e => by
  obtain ⟨c0, c1, c2, c3, c4, c5⟩ := chkH5 (checks_of_wf w)
  have c3 := of_decide_eq_true c3
  have c4 := of_decide_eq_true c4
  cases e
  exact fit (by decide : 0x20 < 2 ^ 6) (by decide : 0x04 < 2 ^ 6) (hdr_fits (accoutMods_lt _) c0).1 (nw_lt _) (hdr_fits (accoutMods_lt _) c0).2.1 (accDst_lt c1) (kCodeZ_lt c2) (by decide : 0 < 2 ^ 11) (tyCode_lt _) (hdr_fits (accoutMods_lt _) c0).2.2 (tail_s rfl rfl rfl (show c - 1 < 2 ^ 11 by omega) (show r.e < 2 ^ 21 by omega))

theorem mma (r : RowOp) (a : Nat) (b : Nat) (sc : Nat) : Statement (.mma r a b sc) := fun w _ e => by
  obtain ⟨c1, c2, c3, c4, c5⟩ := chk5 (checks_of_wf w)
  have c2 := of_decide_eq_true c2
  have c3 := of_decide_eq_true c3
  have c4 := of_decide_eq_true c4
  have c5 := of_decide_eq_true c5
  cases e
  exact fit (by decide : 0x21 < 2 ^ 6) (by decide : 0x00 < 2 ^ 6) (by decide : 0 < 2 ^ 4) (by decide : 0 < 2) (by decide : 0 < 2 ^ 2) (kCodeZ_lt c1) (show a < 2 ^ 11 by omega) (show b < 2 ^ 11 by omega) (by decide : 0 < 2 ^ 6) (by decide : 0 < 2 ^ 4) (tail_s rfl rfl rfl (show sc < 2 ^ 11 by omega) (show r.e < 2 ^ 21 by omega))

theorem mmat (r : RowOp) (a : Nat) (b : Nat) (sc : Nat) : Statement (.mmat r a b sc) := fun w _ e => by
  obtain ⟨c1, c2, c3, c4, c5⟩ := chk5 (checks_of_wf w)
  have c2 := of_decide_eq_true c2
  have c3 := of_decide_eq_true c3
  have c4 := of_decide_eq_true c4
  have c5 := of_decide_eq_true c5
  cases e
  exact fit (by decide : 0x21 < 2 ^ 6) (by decide : 0x01 < 2 ^ 6) (by decide : 0 < 2 ^ 4) (by decide : 0 < 2) (by decide : 0 < 2 ^ 2) (kCodeZ_lt c1) (show a < 2 ^ 11 by omega) (show b < 2 ^ 11 by omega) (by decide : 0 < 2 ^ 6) (by decide : 0 < 2 ^ 4) (tail_s rfl rfl rfl (show sc < 2 ^ 11 by omega) (show r.e < 2 ^ 21 by omega))

theorem mmas (r : RowOp) (a : Nat) (b : Nat) (sc : Nat) : Statement (.mmas r a b sc) := fun w _ e => by
  obtain ⟨c1, c2, c3, c4, c5, c6⟩ := chk6 (checks_of_wf w)
  have c2 := of_decide_eq_true c2
  have c3 := of_decide_eq_true c3
  have c4 := of_decide_eq_true c4
  have c5 := of_decide_eq_true c5
  have c6 := of_decide_eq_true c6
  cases e
  exact fit (by decide : 0x21 < 2 ^ 6) (by decide : 0x02 < 2 ^ 6) (by decide : 0 < 2 ^ 4) (by decide : 0 < 2) (by decide : 0 < 2 ^ 2) (kCodeZ_lt c1) (show a < 2 ^ 11 by omega) (show b < 2 ^ 11 by omega) (by decide : 0 < 2 ^ 6) (by decide : 0 < 2 ^ 4) (tail_s rfl rfl rfl (show sc < 2 ^ 11 by omega) (show r.e < 2 ^ 21 by omega))

theorem mfence (kd : Nat) : Statement (.mfence kd) := fun w _ e => by
  obtain c1 := chk1 (checks_of_wf w)
  cases e
  exact fit (by decide : 0x22 < 2 ^ 6) (by decide : 0x00 < 2 ^ 6) (by decide : 0 < 2 ^ 4) (by decide : 0 < 2) (by decide : 0 < 2 ^ 2) (kCode_lt c1) (by decide : 0 < 2 ^ 11) (by decide : 0 < 2 ^ 11) (by decide : 0 < 2 ^ 6) (by decide : 0 < 2 ^ 4) (tail_b rfl rfl rfl rfl rfl)

theorem mwait (ka : Nat) : Statement (.mwait ka) := fun w _ e => by
  obtain c1 := chk1 (checks_of_wf w)
  cases e
  exact fit (by decide : 0x22 < 2 ^ 6) (by decide : 0x01 < 2 ^ 6) (by decide : 0 < 2 ^ 4) (by decide : 0 < 2) (by decide : 0 < 2 ^ 2) (by decide : 0 < 2 ^ 11) (kCode_lt c1) (by decide : 0 < 2 ^ 11) (by decide : 0 < 2 ^ 6) (by decide : 0 < 2 ^ 4) (tail_b rfl rfl rfl rfl rfl)

theorem mstat (kd : Nat) (ka : Option Nat) : Statement (.mstat kd ka) := fun w _ e => by
  obtain ⟨c1, c2⟩ := chk2 (checks_of_wf w)
  cases e
  exact fit (by decide : 0x22 < 2 ^ 6) (by decide : 0x02 < 2 ^ 6) (by decide : 0 < 2 ^ 4) (by decide : 0 < 2) (by decide : 0 < 2 ^ 2) (kCode_lt c1) (kCodeZ_lt c2) (by decide : 0 < 2 ^ 11) (by decide : 0 < 2 ^ 6) (by decide : 0 < 2 ^ 4) (tail_b rfl rfl rfl rfl rfl)

theorem sgen (zd : Nat) (a : VSrc) (cls : Nat) : Statement (.sgen zd a cls) := fun w _ e => by
  obtain ⟨c1, c2, c3⟩ := chk3 (checks_of_wf w)
  have c1 := of_decide_eq_true c1
  have c3 := of_decide_eq_true c3
  cases e
  exact fit (by decide : 0x28 < 2 ^ 6) (by decide : 0x00 < 2 ^ 6) (by decide : 0 < 2 ^ 4) (by decide : 0 < 2) (by decide : 0 < 2 ^ 2) (show zd < 2 ^ 11 by omega) (vsrc_lt c2) (by decide : 0 < 2 ^ 11) (by decide : 0 < 2 ^ 6) (by decide : 0 < 2 ^ 4) (tail_s rfl rfl rfl (by decide : 0 < 2 ^ 11) (show cls < 2 ^ 21 by omega))

theorem sgenb (zd : Nat) (a : VSrc) (cls : Nat) : Statement (.sgenb zd a cls) := fun w _ e => by
  obtain ⟨c1, c2, c3⟩ := chk3 (checks_of_wf w)
  have c1 := of_decide_eq_true c1
  have c3 := of_decide_eq_true c3
  cases e
  exact fit (by decide : 0x28 < 2 ^ 6) (by decide : 0x01 < 2 ^ 6) (by decide : 0 < 2 ^ 4) (by decide : 0 < 2) (by decide : 0 < 2 ^ 2) (show zd < 2 ^ 11 by omega) (vsrc_lt c2) (by decide : 0 < 2 ^ 11) (by decide : 0 < 2 ^ 6) (by decide : 0 < 2 ^ 4) (tail_s rfl rfl rfl (by decide : 0 < 2 ^ 11) (show cls < 2 ^ 21 by omega))

theorem sregen (zd : Nat) (za : Nat) (cls : Nat) : Statement (.sregen zd za cls) := fun w _ e => by
  obtain ⟨c1, c2, c3⟩ := chk3 (checks_of_wf w)
  have c1 := of_decide_eq_true c1
  have c2 := of_decide_eq_true c2
  have c3 := of_decide_eq_true c3
  cases e
  exact fit (by decide : 0x28 < 2 ^ 6) (by decide : 0x02 < 2 ^ 6) (by decide : 0 < 2 ^ 4) (by decide : 0 < 2) (by decide : 0 < 2 ^ 2) (show zd < 2 ^ 11 by omega) (show za < 2 ^ 11 by omega) (by decide : 0 < 2 ^ 11) (by decide : 0 < 2 ^ 6) (by decide : 0 < 2 ^ 4) (tail_s rfl rfl rfl (by decide : 0 < 2 ^ 11) (show cls < 2 ^ 21 by omega))

theorem sseed (ka : Nat) (cls : Nat) : Statement (.sseed ka cls) := fun w _ e => by
  obtain ⟨c1, c2⟩ := chk2 (checks_of_wf w)
  have c2 := of_decide_eq_true c2
  cases e
  exact fit (by decide : 0x28 < 2 ^ 6) (by decide : 0x03 < 2 ^ 6) (by decide : 0 < 2 ^ 4) (by decide : 0 < 2) (by decide : 0 < 2 ^ 2) (by decide : 0 < 2 ^ 11) (kCode_lt c1) (by decide : 0 < 2 ^ 11) (by decide : 0 < 2 ^ 6) (by decide : 0 < 2 ^ 4) (tail_s rfl rfl rfl (by decide : 0 < 2 ^ 11) (show cls < 2 ^ 21 by omega))

theorem slen (imm : W32) : Statement (.slen imm) := fun _ _ e => by
  cases e
  exact fit (by decide : 0x28 < 2 ^ 6) (by decide : 0x04 < 2 ^ 6) (by decide : 0 < 2 ^ 4) (by decide : 0 < 2) (by decide : 0 < 2 ^ 2) (by decide : 0 < 2 ^ 11) (by decide : 0 < 2 ^ 11) (by decide : 0 < 2 ^ 11) (by decide : 0 < 2 ^ 6) (by decide : 0 < 2 ^ 4) (tail_i rfl (BitVec.isLt _) rfl rfl rfl)

theorem srnd (msk : Nat) (d : VDst) (cls : Nat) : Statement (.srnd msk d cls) := fun w _ e => by
  obtain ⟨c1, c2, c3⟩ := chkC3 (checks_of_wf w)
  have c1 := of_decide_eq_true c1
  have c3 := of_decide_eq_true c3
  cases e
  exact fit (by decide : 0x28 < 2 ^ 6) (by decide : 0x05 < 2 ^ 6) (show msk < 2 ^ 4 by omega) (by decide : 0 < 2) (by decide : 0 < 2 ^ 2) (vdst_lt c2) (show cls < 2 ^ 11 by omega) (by decide : 0 < 2 ^ 11) (by decide : 0 < 2 ^ 6) (by decide : 0 < 2 ^ 4) (tail_b rfl rfl rfl rfl rfl)

theorem sand (zd : Nat) (za : Nat) (zb : Nat) : Statement (.sand zd za zb) := fun w _ e => by
  obtain ⟨c1, c2, c3⟩ := chk3 (checks_of_wf w)
  have c1 := of_decide_eq_true c1
  have c2 := of_decide_eq_true c2
  have c3 := of_decide_eq_true c3
  cases e
  exact fit (by decide : 0x29 < 2 ^ 6) (by decide : 0x00 < 2 ^ 6) (by decide : 0 < 2 ^ 4) (by decide : 0 < 2) (by decide : 0 < 2 ^ 2) (show zd < 2 ^ 11 by omega) (show za < 2 ^ 11 by omega) (show zb < 2 ^ 11 by omega) (by decide : 0 < 2 ^ 6) (by decide : 0 < 2 ^ 4) (tail_b rfl rfl rfl rfl rfl)

theorem sor (zd : Nat) (za : Nat) (zb : Nat) : Statement (.sor zd za zb) := fun w _ e => by
  obtain ⟨c1, c2, c3⟩ := chk3 (checks_of_wf w)
  have c1 := of_decide_eq_true c1
  have c2 := of_decide_eq_true c2
  have c3 := of_decide_eq_true c3
  cases e
  exact fit (by decide : 0x29 < 2 ^ 6) (by decide : 0x01 < 2 ^ 6) (by decide : 0 < 2 ^ 4) (by decide : 0 < 2) (by decide : 0 < 2 ^ 2) (show zd < 2 ^ 11 by omega) (show za < 2 ^ 11 by omega) (show zb < 2 ^ 11 by omega) (by decide : 0 < 2 ^ 6) (by decide : 0 < 2 ^ 4) (tail_b rfl rfl rfl rfl rfl)

theorem sxor (zd : Nat) (za : Nat) (zb : Nat) : Statement (.sxor zd za zb) := fun w _ e => by
  obtain ⟨c1, c2, c3⟩ := chk3 (checks_of_wf w)
  have c1 := of_decide_eq_true c1
  have c2 := of_decide_eq_true c2
  have c3 := of_decide_eq_true c3
  cases e
  exact fit (by decide : 0x29 < 2 ^ 6) (by decide : 0x02 < 2 ^ 6) (by decide : 0 < 2 ^ 4) (by decide : 0 < 2) (by decide : 0 < 2 ^ 2) (show zd < 2 ^ 11 by omega) (show za < 2 ^ 11 by omega) (show zb < 2 ^ 11 by omega) (by decide : 0 < 2 ^ 6) (by decide : 0 < 2 ^ 4) (tail_b rfl rfl rfl rfl rfl)

theorem sxnor (zd : Nat) (za : Nat) (zb : Nat) : Statement (.sxnor zd za zb) := fun w _ e => by
  obtain ⟨c1, c2, c3⟩ := chk3 (checks_of_wf w)
  have c1 := of_decide_eq_true c1
  have c2 := of_decide_eq_true c2
  have c3 := of_decide_eq_true c3
  cases e
  exact fit (by decide : 0x29 < 2 ^ 6) (by decide : 0x03 < 2 ^ 6) (by decide : 0 < 2 ^ 4) (by decide : 0 < 2) (by decide : 0 < 2 ^ 2) (show zd < 2 ^ 11 by omega) (show za < 2 ^ 11 by omega) (show zb < 2 ^ 11 by omega) (by decide : 0 < 2 ^ 6) (by decide : 0 < 2 ^ 4) (tail_b rfl rfl rfl rfl rfl)

theorem snot (zd : Nat) (za : Nat) : Statement (.snot zd za) := fun w _ e => by
  obtain ⟨c1, c2⟩ := chk2 (checks_of_wf w)
  have c1 := of_decide_eq_true c1
  have c2 := of_decide_eq_true c2
  cases e
  exact fit (by decide : 0x29 < 2 ^ 6) (by decide : 0x04 < 2 ^ 6) (by decide : 0 < 2 ^ 4) (by decide : 0 < 2) (by decide : 0 < 2 ^ 2) (show zd < 2 ^ 11 by omega) (show za < 2 ^ 11 by omega) (by decide : 0 < 2 ^ 11) (by decide : 0 < 2 ^ 6) (by decide : 0 < 2 ^ 4) (tail_b rfl rfl rfl rfl rfl)

theorem smux (zd : Nat) (za : Nat) (zb : Nat) (zs : Nat) : Statement (.smux zd za zb zs) := fun w _ e => by
  obtain ⟨c1, c2, c3, c4⟩ := chk4 (checks_of_wf w)
  have c1 := of_decide_eq_true c1
  have c2 := of_decide_eq_true c2
  have c3 := of_decide_eq_true c3
  have c4 := of_decide_eq_true c4
  cases e
  exact fit (by decide : 0x29 < 2 ^ 6) (by decide : 0x05 < 2 ^ 6) (by decide : 0 < 2 ^ 4) (by decide : 0 < 2) (by decide : 0 < 2 ^ 2) (show zd < 2 ^ 11 by omega) (show za < 2 ^ 11 by omega) (show zb < 2 ^ 11 by omega) (by decide : 0 < 2 ^ 6) (by decide : 0 < 2 ^ 4) (tail_s rfl rfl rfl (show zs < 2 ^ 11 by omega) (by decide : 0 < 2 ^ 21))

theorem smin (zd : Nat) (za : Nat) (zb : Nat) : Statement (.smin zd za zb) := fun w _ e => by
  obtain ⟨c1, c2, c3⟩ := chk3 (checks_of_wf w)
  have c1 := of_decide_eq_true c1
  have c2 := of_decide_eq_true c2
  have c3 := of_decide_eq_true c3
  cases e
  exact fit (by decide : 0x29 < 2 ^ 6) (by decide : 0x06 < 2 ^ 6) (by decide : 0 < 2 ^ 4) (by decide : 0 < 2) (by decide : 0 < 2 ^ 2) (show zd < 2 ^ 11 by omega) (show za < 2 ^ 11 by omega) (show zb < 2 ^ 11 by omega) (by decide : 0 < 2 ^ 6) (by decide : 0 < 2 ^ 4) (tail_b rfl rfl rfl rfl rfl)

theorem smax (zd : Nat) (za : Nat) (zb : Nat) : Statement (.smax zd za zb) := fun w _ e => by
  obtain ⟨c1, c2, c3⟩ := chk3 (checks_of_wf w)
  have c1 := of_decide_eq_true c1
  have c2 := of_decide_eq_true c2
  have c3 := of_decide_eq_true c3
  cases e
  exact fit (by decide : 0x29 < 2 ^ 6) (by decide : 0x07 < 2 ^ 6) (by decide : 0 < 2 ^ 4) (by decide : 0 < 2) (by decide : 0 < 2 ^ 2) (show zd < 2 ^ 11 by omega) (show za < 2 ^ 11 by omega) (show zb < 2 ^ 11 by omega) (by decide : 0 < 2 ^ 6) (by decide : 0 < 2 ^ 4) (tail_b rfl rfl rfl rfl rfl)

theorem sdep (kd : Nat) (za : Nat) (zb : Nat) : Statement (.sdep kd za zb) := fun w _ e => by
  obtain ⟨c1, c2, c3⟩ := chk3 (checks_of_wf w)
  have c2 := of_decide_eq_true c2
  have c3 := of_decide_eq_true c3
  cases e
  exact fit (by decide : 0x29 < 2 ^ 6) (by decide : 0x08 < 2 ^ 6) (by decide : 0 < 2 ^ 4) (by decide : 0 < 2) (by decide : 0 < 2 ^ 2) (kCode_lt c1) (show za < 2 ^ 11 by omega) (show zb < 2 ^ 11 by omega) (by decide : 0 < 2 ^ 6) (by decide : 0 < 2 ^ 4) (tail_b rfl rfl rfl rfl rfl)

theorem scnt (msk : Nat) (d : VDst) (za : Nat) (out : Nat) : Statement (.scnt msk d za out) := fun w _ e => by
  obtain ⟨c1, c2, c3, c4, c5⟩ := chkC5 (checks_of_wf w)
  have c1 := of_decide_eq_true c1
  have c3 := of_decide_eq_true c3
  have c4 := of_decide_eq_true c4
  have c5 := of_decide_eq_true c5
  cases e
  exact fit (by decide : 0x2A < 2 ^ 6) (by decide : 0x00 < 2 ^ 6) (show msk < 2 ^ 4 by omega) (by decide : 0 < 2) (by decide : 0 < 2 ^ 2) (vdst_lt c2) (show za < 2 ^ 11 by omega) (by decide : 0 < 2 ^ 11) (by decide : 0 < 2 ^ 6) (by decide : 0 < 2 ^ 4) (tail_s rfl rfl rfl (by decide : 0 < 2 ^ 11) (show out < 2 ^ 21 by omega))

theorem scnta (msk : Nat) (d : VDst) (za : Nat) : Statement (.scnta msk d za) := fun w _ e => by
  obtain ⟨c1, c2, c3⟩ := chkC3 (checks_of_wf w)
  have c1 := of_decide_eq_true c1
  have c3 := of_decide_eq_true c3
  cases e
  exact fit (by decide : 0x2A < 2 ^ 6) (by decide : 0x01 < 2 ^ 6) (show msk < 2 ^ 4 by omega) (by decide : 0 < 2) (by decide : 0 < 2 ^ 2) (vdst_lt c2) (show za < 2 ^ 11 by omega) (by decide : 0 < 2 ^ 11) (by decide : 0 < 2 ^ 6) (by decide : 0 < 2 ^ 4) (tail_s rfl rfl rfl (by decide : 0 < 2 ^ 11) (by decide : 0 < 2 ^ 21))

theorem wlcfg (ka : Option Nat) : Statement (.wlcfg ka) := fun w _ e => by
  obtain c1 := chk1 (checks_of_wf w)
  cases e
  exact fit (by decide : 0x2C < 2 ^ 6) (by decide : 0x00 < 2 ^ 6) (by decide : 0 < 2 ^ 4) (by decide : 0 < 2) (by decide : 0 < 2 ^ 2) (by decide : 0 < 2 ^ 11) (kCodeZ_lt c1) (by decide : 0 < 2 ^ 11) (by decide : 0 < 2 ^ 6) (by decide : 0 < 2 ^ 4) (tail_b rfl rfl rfl rfl rfl)

theorem wlpush (msk : Nat) (n64 : Bool) (a : VSrc) (b : VSrc) : Statement (.wlpush msk n64 a b) := fun w _ e => by
  obtain ⟨c1, c2, c3⟩ := chkC3 (checks_of_wf w)
  have c1 := of_decide_eq_true c1
  cases e
  exact fit (by decide : 0x2C < 2 ^ 6) (by decide : 0x01 < 2 ^ 6) (show msk < 2 ^ 4 by omega) (by decide : 0 < 2) (by decide : 0 < 2 ^ 2) (by decide : 0 < 2 ^ 11) (vsrc_lt c2) (vsrc_lt c3) (tyCode_lt (if n64 then Ty.n64 else Ty.n32)) (by decide : 0 < 2 ^ 4) (tail_b rfl rfl rfl rfl rfl)

theorem wlpop (msk : Nat) (n64 : Bool) (d : VDst) (md : Nat) (wait : Bool) : Statement (.wlpop msk n64 d md wait) := fun w _ e => by
  obtain ⟨c1, c2, c3⟩ := chkC3 (checks_of_wf w)
  have c1 := of_decide_eq_true c1
  have c3 := of_decide_eq_true c3
  cases e
  exact fit (by decide : 0x2C < 2 ^ 6) (by decide : 0x02 < 2 ^ 6) (show msk < 2 ^ 4 by omega) (by decide : 0 < 2) (by decide : 0 < 2 ^ 2) (vdst_lt c2) (show md < 2 ^ 11 by omega) (bool_lt _) (tyCode_lt (if n64 then Ty.n64 else Ty.n32)) (by decide : 0 < 2 ^ 4) (tail_b rfl rfl rfl rfl rfl)

theorem wlret (msk : Nat) (b : VSrc) : Statement (.wlret msk b) := fun w _ e => by
  obtain ⟨c1, c2⟩ := chkC2 (checks_of_wf w)
  have c1 := of_decide_eq_true c1
  cases e
  exact fit (by decide : 0x2C < 2 ^ 6) (by decide : 0x03 < 2 ^ 6) (show msk < 2 ^ 4 by omega) (by decide : 0 < 2) (by decide : 0 < 2 ^ 2) (by decide : 0 < 2 ^ 11) (vsrc_lt c2) (by decide : 0 < 2 ^ 11) (by decide : 0 < 2 ^ 6) (by decide : 0 < 2 ^ 4) (tail_b rfl rfl rfl rfl rfl)

theorem wlfloor (kd : Nat) : Statement (.wlfloor kd) := fun w _ e => by
  obtain c1 := chk1 (checks_of_wf w)
  cases e
  exact fit (by decide : 0x2C < 2 ^ 6) (by decide : 0x04 < 2 ^ 6) (by decide : 0 < 2 ^ 4) (by decide : 0 < 2) (by decide : 0 < 2 ^ 2) (kCode_lt c1) (by decide : 0 < 2 ^ 11) (by decide : 0 < 2 ^ 11) (by decide : 0 < 2 ^ 6) (by decide : 0 < 2 ^ 4) (tail_b rfl rfl rfl rfl rfl)

theorem wldone (kd : Nat) : Statement (.wldone kd) := fun w _ e => by
  obtain c1 := chk1 (checks_of_wf w)
  cases e
  exact fit (by decide : 0x2C < 2 ^ 6) (by decide : 0x05 < 2 ^ 6) (by decide : 0 < 2 ^ 4) (by decide : 0 < 2) (by decide : 0 < 2 ^ 2) (kCode_lt c1) (by decide : 0 < 2 ^ 11) (by decide : 0 < 2 ^ 11) (by decide : 0 < 2 ^ 6) (by decide : 0 < 2 ^ 4) (tail_b rfl rfl rfl rfl rfl)

theorem wlstat (kd : Nat) (sel : Nat) : Statement (.wlstat kd sel) := fun w _ e => by
  obtain ⟨c1, c2⟩ := chk2 (checks_of_wf w)
  have c2 := of_decide_eq_true c2
  cases e
  exact fit (by decide : 0x2C < 2 ^ 6) (by decide : 0x06 < 2 ^ 6) (by decide : 0 < 2 ^ 4) (by decide : 0 < 2) (by decide : 0 < 2 ^ 2) (kCode_lt c1) (show sel < 2 ^ 11 by omega) (by decide : 0 < 2 ^ 11) (by decide : 0 < 2 ^ 6) (by decide : 0 < 2 ^ 4) (tail_b rfl rfl rfl rfl rfl)

theorem lblrd (kd : Nat) (ka : Nat) : Statement (.lblrd kd ka) := fun w _ e => by
  obtain ⟨c1, c2⟩ := chk2 (checks_of_wf w)
  cases e
  exact fit (by decide : 0x2D < 2 ^ 6) (by decide : 0x00 < 2 ^ 6) (by decide : 0 < 2 ^ 4) (by decide : 0 < 2) (by decide : 0 < 2 ^ 2) (kCode_lt c1) (kCode_lt c2) (by decide : 0 < 2 ^ 11) (by decide : 0 < 2 ^ 6) (by decide : 0 < 2 ^ 4) (tail_b rfl rfl rfl rfl rfl)

theorem lblset (kd : Nat) (ka : Nat) (lbl : Nat) : Statement (.lblset kd ka lbl) := fun w _ e => by
  obtain ⟨c1, c2, c3⟩ := chk3 (checks_of_wf w)
  have c3 := of_decide_eq_true c3
  cases e
  exact fit (by decide : 0x2D < 2 ^ 6) (by decide : 0x01 < 2 ^ 6) (by decide : 0 < 2 ^ 4) (by decide : 0 < 2) (by decide : 0 < 2 ^ 2) (kCode_lt c1) (kCode_lt c2) (show lbl < 2 ^ 11 by omega) (by decide : 0 < 2 ^ 6) (by decide : 0 < 2 ^ 4) (tail_b rfl rfl rfl rfl rfl)

theorem lbllock (kd : Nat) (ka : Nat) : Statement (.lbllock kd ka) := fun w _ e => by
  obtain ⟨c1, c2⟩ := chk2 (checks_of_wf w)
  cases e
  exact fit (by decide : 0x2D < 2 ^ 6) (by decide : 0x02 < 2 ^ 6) (by decide : 0 < 2 ^ 4) (by decide : 0 < 2) (by decide : 0 < 2 ^ 2) (kCode_lt c1) (kCode_lt c2) (by decide : 0 < 2 ^ 11) (by decide : 0 < 2 ^ 6) (by decide : 0 < 2 ^ 4) (tail_b rfl rfl rfl rfl rfl)

theorem lblunl (kd : Nat) (ka : Nat) : Statement (.lblunl kd ka) := fun w _ e => by
  obtain ⟨c1, c2⟩ := chk2 (checks_of_wf w)
  cases e
  exact fit (by decide : 0x2D < 2 ^ 6) (by decide : 0x03 < 2 ^ 6) (by decide : 0 < 2 ^ 4) (by decide : 0 < 2) (by decide : 0 < 2 ^ 2) (kCode_lt c1) (kCode_lt c2) (by decide : 0 < 2 ^ 11) (by decide : 0 < 2 ^ 6) (by decide : 0 < 2 ^ 4) (tail_b rfl rfl rfl rfl rfl)

theorem lblhist (kd : Nat) (ka : Nat) : Statement (.lblhist kd ka) := fun w _ e => by
  obtain ⟨c1, c2⟩ := chk2 (checks_of_wf w)
  cases e
  exact fit (by decide : 0x2D < 2 ^ 6) (by decide : 0x04 < 2 ^ 6) (by decide : 0 < 2 ^ 4) (by decide : 0 < 2) (by decide : 0 < 2 ^ 2) (kCode_lt c1) (kCode_lt c2) (by decide : 0 < 2 ^ 11) (by decide : 0 < 2 ^ 6) (by decide : 0 < 2 ^ 4) (tail_b rfl rfl rfl rfl rfl)

end Sys2Proof.Laws.Fits
end

