-- ==== Sys2Proof/Laws/Results.lean ====
section
/-! SUPPORT. What writing a result can do, said once for each kind of destination (R238, R318, R329, R356, R366): after an issue, the
registers named take the result, and everything else stays. -/

namespace Sys2Proof.Machine

open Sys2Proof

variable {i : Sig} {s : State} {x : Iss}

theorem unlatched_putLatch (x : Iss) (hold tag : Nat) (pair : Bool) (vals : List W64) (e : Entry) :
    unlatched (putLatch x hold tag pair vals e) = unlatched e := rfl

theorem map_unlatched_modEntry (low : Bool) (f : Entry → Entry) (hf : ∀ e, unlatched (f e) = unlatched e) (g : Group) :
    (modEntry low f g).stack.map unlatched = g.stack.map unlatched := by
  unfold modEntry
  match hst : g.stack with
  | [] => simp [hst]
  | [t] => cases low <;> simp [hst, hf]
  | t :: u :: r => cases low <;> simp [hf]

/-- A live slot stands after the issue. -/
theorem live_issued (h : issOf i s = some x) : ∃ e, liveEntry (issuedGrp i x s) x.g.low = some e := by
  obtain ⟨-, -, -, -, ⟨e, he, -⟩, -⟩ := issOf_spec h
  refine ⟨nextEntry i x s (invalidate i.writes e), ?_⟩
  show liveEntry (modEntry x.g.low (nextEntry i x s) (modEntries (invalidate i.writes) x.grp)) x.g.low = _
  rw [liveEntry_modEntry, liveEntry_modEntries (invalidate i.writes) (fun _ => rfl), he]
  rfl

theorem latchOf_putLatch (x : Iss) {hold : Nat} (tag : Nat) (pair : Bool) (vals : List W64) (e : Entry) :
    latchOf (putLatch x hold tag pair vals e) (hold - 1) =
      some ⟨hold - 1, tag, pair, vals, 0, !(latchRegs tag pair).any (pending x.grp)⟩ := by
  unfold latchOf putLatch
  rw [List.find?_append]
  have : (e.latches.filter (·.idx != hold - 1)).find? (·.idx == hold - 1) = none := by
    rw [List.find?_eq_none]
    intro c hc
    rw [List.mem_filter] at hc
    simpa using hc.2
  simp [this]

/-- After a change of its own group that keeps the stack but for latches, the path has moved on. -/
theorem movedOn_of {g : Group} (h : issOf i s = some x) (hl : g.stack.map unlatched = (issuedGrp i x s).stack.map unlatched) :
    MovedOn x g := fun hr => pathAt_congr (pathAt_issued h hr) hl

/-- The group after the issue and one further change of it. -/
theorem grpOf_effect {f : Group → Group} (h : issOf i s = some x) (hf : ∀ y, y.gid = x.g.gid → (f y).gid = x.g.gid) :
    grpOf (modGrp x.g f (advance i x s)) x.g = some (f (issuedGrp i x s)) := by
  have hg := grpOf_advance h
  exact grpOf_modGrp_known hg (hf _ (grpOf_gid hg))

theorem only_effect {f : Group → Group} (hf : ∀ y, y.gid = x.g.gid → (f y).gid = x.g.gid) :
    OnlyGroup x.g s (modGrp x.g f (advance i x s)) :=
  (advance_only i x s).trans (onlyGroup_modGrp hf _)

theorem modEntry_frame (low : Bool) (f : Entry → Entry) (g : Group) : ∃ st, modEntry low f g = { g with stack := st } := by
  unfold modEntry
  split
  · exact ⟨g.stack, rfl⟩
  · split
    · exact ⟨g.stack, rfl⟩
    · exact ⟨_, rfl⟩
  · split <;> exact ⟨_, rfl⟩

theorem issuedGrp_frame (i : Sig) (x : Iss) (s : State) :
    ∃ st, issuedGrp i x s = { x.grp with stack := st, turn := !x.g.low, waitFrom := s.mcyc } := by
  obtain ⟨st, h⟩ := modEntry_frame x.g.low (nextEntry i x s) (modEntries (invalidate i.writes) x.grp)
  exact ⟨st, by unfold issuedGrp; rw [h]; rfl⟩

/-! ## HOLD -/

/-- The group after the latch of HOLD is put, if there is one. -/
def held (x : Iss) (hold tag : Nat) (pair : Bool) (vals : List W64) (g : Group) : Group :=
  if hold = 0 then g else modEntry x.g.low (putLatch x hold tag pair vals) g

theorem held_frame (x : Iss) (hold tag : Nat) (pair : Bool) (vals : List W64) (g : Group) :
    ∃ st, held x hold tag pair vals g = { g with stack := st } := by
  unfold held
  split
  · exact ⟨g.stack, rfl⟩
  · exact modEntry_frame ..

theorem held_stack (x : Iss) (hold tag : Nat) (pair : Bool) (vals : List W64) (g : Group) :
    (held x hold tag pair vals g).stack.map unlatched = g.stack.map unlatched := by
  unfold held
  split
  · rfl
  · exact map_unlatched_modEntry _ _ (fun e => unlatched_putLatch x hold tag pair vals e) g

theorem held_latched {hold tag : Nat} {pair : Bool} {vals : Nat → W64} {g : Group} {e : Entry}
    (he : liveEntry g x.g.low = some e) : Latched x hold tag pair vals (held x hold tag pair (lanes.map vals) g) := by
  intro hh
  refine ⟨putLatch x hold tag pair (lanes.map vals) e, _, ?_, latchOf_putLatch x (hold := hold) _ _ _ _, rfl, rfl, rfl, rfl⟩
  unfold held
  rw [if_neg hh, liveEntry_modEntry, he]
  rfl

theorem liveEntry_congr {g g' : Group} (h : g'.stack = g.stack) (low : Bool) : liveEntry g' low = liveEntry g low := by
  unfold liveEntry; rw [h]

/-! ## Uniform results -/

theorem writeUni_eq (nw : Bool) (hold kd : Nat) (v : W64) (x : Iss) (s : State) : writeUni nw hold kd v x s =
    modGrp x.g (fun g => held x hold (1600 + kd) true (lanes.map fun _ => v) (if nw then g else kset kd v g)) s := rfl

theorem writeUni_done (nw : Bool) (hold kd : Nat) (v : W64) (h : issOf i s = some x) :
    UniDone nw hold kd (fun _ _ => v) x s (writeUni nw hold kd v x (advance i x s)) := by
  rw [writeUni_eq]
  have hk : ∀ y : Group, (if nw then y else kset kd v y) = { y with k := (if nw then y.k else FMap.set 0 y.k kd v) } :=
    fun y => by cases nw <;> rfl
  have hgid : ∀ y : Group, y.gid = x.g.gid →
      (held x hold (1600 + kd) true (lanes.map fun _ => v) (if nw then y else kset kd v y)).gid = x.g.gid := by
    intro y hy
    obtain ⟨st, hst⟩ := held_frame x hold (1600 + kd) true (lanes.map fun _ => v) (if nw then y else kset kd v y)
    rw [hst, hk]; exact hy
  obtain ⟨st, hst⟩ := held_frame x hold (1600 + kd) true (lanes.map fun _ => v) (if nw then issuedGrp i x s else kset kd v (issuedGrp i x s))
  obtain ⟨st', hst'⟩ := issuedGrp_frame i x s
  refine ⟨only_effect hgid, _, grpOf_effect h hgid, ?_, ?_, ?_, ?_⟩
  · rw [hst, hk, hst']
  · intro n
    rw [hst, hk, hst']
    cases nw <;> simp [kget, fmap_get_set]
  · refine movedOn_of h ?_
    rw [held_stack, hk]
  · obtain ⟨e, he⟩ := live_issued h
    refine held_latched (e := e) ?_
    rw [hk]
    exact he

/-! ## Per-lane results -/

theorem lane_key {a b l j : Nat} (hl : l < 64) (hj : j < 64) : (64 * a + l = 64 * b + j) ↔ (a = b ∧ l = j) := by omega

theorem mem_activeLanes {m : Mask} {l : Nat} : l ∈ activeLanes m ↔ l < 64 ∧ laneOn m l = true := by
  simp [activeLanes, lanes]

theorem pset_frame (n l v : Nat) (g : Group) : pset n l v g = { g with v := (pset n l v g).v } := rfl

/-- One step of a per-lane write. -/
def putLane (n : Nat) (pair : Bool) (r : Nat → Nat) (g : Group) (l : Nat) : Group :=
  if pair then pset n l (r l) g else vset n l (BitVec.ofNat 32 (r l)) g

theorem putLane_frame (n : Nat) (pair : Bool) (r : Nat → Nat) (g : Group) (l : Nat) :
    putLane n pair r g l = { g with v := (putLane n pair r g l).v } := by unfold putLane; cases pair <;> rfl

theorem foldl_putLane_frame (n : Nat) (pair : Bool) (r : Nat → Nat) (ls : List Nat) (g : Group) :
    ls.foldl (putLane n pair r) g = { g with v := (ls.foldl (putLane n pair r) g).v } := by
  induction ls generalizing g with
  | nil => rfl
  | cons l t ih => rw [List.foldl_cons, ih, putLane_frame]

theorem vget_putLane (n : Nat) (pair : Bool) (r : Nat → Nat) (g : Group) {l : Nat} (hl : l < 64) (m : Nat) {j : Nat} (hj : j < 64) :
    vget (putLane n pair r g l) m j = if j = l ∧ m = n then BitVec.ofNat 32 (r l)
      else if j = l ∧ pair = true ∧ m = n + 1 then BitVec.ofNat 32 (r l / 2 ^ 32) else vget g m j := by
  unfold putLane
  cases pair
  · simp only [Bool.false_eq_true, if_false, vget_vset, lane_key hj hl, false_and, and_false]
    by_cases h : m = n ∧ j = l
    · simp [h.1, h.2]
    · rw [if_neg h, if_neg fun e => h ⟨e.2, e.1⟩]
  · simp only [if_true, pset, vget_vset, lane_key hj hl, true_and]
    by_cases h : j = l
    · by_cases h1 : m = n
      · simp [h, h1]
      · by_cases h2 : m = n + 1 <;> simp [h, h1, h2]
    · simp [h]

theorem vget_foldl_putLane (n : Nat) (pair : Bool) (r : Nat → Nat) (ls : List Nat) (hls : ∀ l ∈ ls, l < 64) (g : Group) (m : Nat)
    {j : Nat} (hj : j < 64) : vget (ls.foldl (putLane n pair r) g) m j =
      if j ∈ ls ∧ m = n then BitVec.ofNat 32 (r j)
      else if j ∈ ls ∧ pair = true ∧ m = n + 1 then BitVec.ofNat 32 (r j / 2 ^ 32) else vget g m j := by
  induction ls generalizing g with
  | nil => simp
  | cons l t ih =>
    rw [List.foldl_cons, ih fun a ha => hls a (List.mem_cons_of_mem _ ha), vget_putLane _ _ _ _ (hls l (List.mem_cons_self ..)) _ hj]
    simp only [List.mem_cons]
    by_cases h1 : j = l <;> by_cases h2 : j ∈ t <;> by_cases h3 : m = n <;> by_cases h4 : m = n + 1 <;> cases pair <;>
      simp [h1, h2, h3, h4]

theorem putLanes_eq (n : Nat) (pair : Bool) (mask : Mask) (r : Nat → Nat) (g : Group) :
    putLanes n pair mask r g = (activeLanes mask).foldl (putLane n pair r) g := rfl

/-- The group after a per-lane result, before its latch. -/
def laned (h : Hdr) (d : VDst) (x : Iss) (r : Nat → Nat) (g : Group) : Group := match d with
  | .reg n => if h.nw then g else putLanes n h.ty.pair x.mask r g
  | .zero => g
  | .k _ => g

theorem laned_frame (h : Hdr) (d : VDst) (x : Iss) (r : Nat → Nat) (g : Group) :
    laned h d x r g = { g with v := (laned h d x r g).v } := by
  cases d <;> unfold laned <;> simp only []
  split
  · rfl
  · rw [putLanes_eq, foldl_putLane_frame]

theorem vget_laned (h : Hdr) (d : VDst) (x : Iss) (r : Nat → Nat) (g : Group) (n : Nat) {l : Nat} (hl : l < 64) :
    vget (laned h d x r g) n l = laneAfter h.nw h.ty.pair d x.mask r g n l := by
  cases d with
  | reg k =>
    unfold laned laneAfter
    cases hnw : h.nw
    · simp only [Bool.false_eq_true, if_false]
      rw [putLanes_eq, vget_foldl_putLane _ _ _ _ (fun a ha => (mem_activeLanes.1 ha).1) _ _ hl]
      simp only [mem_activeLanes, hl, true_and]
    · simp
  | zero => rfl
  | k _ => rfl

theorem writeLanes_eq (h : Hdr) (d : VDst) (x : Iss) (r : Nat → Nat) (s : State) : writeLanes h d x r s =
    modGrp x.g (fun g => held x h.hold d.code h.ty.pair (latched x h.ty.pair d.code r) (laned h d x r g)) s := rfl

theorem writeLanes_done (h : Hdr) (d : VDst) (r : Nat → Nat) (hi : issOf i s = some x) :
    LanesDone h d (fun _ _ => r) x s (writeLanes h d x r (advance i x s)) := by
  rw [writeLanes_eq]
  have hgid : ∀ y : Group, y.gid = x.g.gid →
      (held x h.hold d.code h.ty.pair (latched x h.ty.pair d.code r) (laned h d x r y)).gid = x.g.gid := by
    intro y hy
    obtain ⟨st, hst⟩ := held_frame x h.hold d.code h.ty.pair (latched x h.ty.pair d.code r) (laned h d x r y)
    rw [hst, laned_frame]; exact hy
  obtain ⟨st, hst⟩ := held_frame x h.hold d.code h.ty.pair (latched x h.ty.pair d.code r) (laned h d x r (issuedGrp i x s))
  obtain ⟨st', hst'⟩ := issuedGrp_frame i x s
  refine ⟨only_effect hgid, _, grpOf_effect hi hgid, ?_, ?_, ?_, ?_⟩
  · rw [hst, laned_frame, hst']
  · intro n l hl
    have e1 : vget (held x h.hold d.code h.ty.pair (latched x h.ty.pair d.code r) (laned h d x r (issuedGrp i x s))) n l =
        vget (laned h d x r (issuedGrp i x s)) n l := by rw [hst]; rfl
    have e2 : ∀ m, laneAfter h.nw h.ty.pair d x.mask r (issuedGrp i x s) n m = laneAfter h.nw h.ty.pair d x.mask r x.grp n m := by
      intro m
      have : (issuedGrp i x s).v = x.grp.v := by rw [hst']
      cases d <;> simp [laneAfter, vget, this]
    rw [e1, vget_laned _ _ _ _ _ _ hl, e2]
  · refine movedOn_of hi ?_
    rw [held_stack, laned_frame]
  · obtain ⟨e, he⟩ := live_issued hi
    refine held_latched (e := e) ?_
    rw [laned_frame]
    exact he

/-! ## Mask results -/

theorem laneOn_maskOf (p : Nat → Bool) {l : Nat} (hl : l < 64) : laneOn (maskOf p) l = p l := by
  have key : ∀ n ≤ 64, ∀ j, (((List.range n).foldl (fun a l => if p l then a + 2 ^ l else a) 0) < 2 ^ n) ∧
      (((List.range n).foldl (fun a l => if p l then a + 2 ^ l else a) 0).testBit j = (decide (j < n) && p j)) := by
    intro n hn
    induction n with
    | zero => intro j; simp
    | succ n ih =>
      intro j
      obtain ⟨h1, h2⟩ := ih (by omega) j
      have h2n := (ih (by omega) n).2
      rw [List.range_succ, List.foldl_append]
      simp only [List.foldl_cons, List.foldl_nil]
      generalize hw : (List.range n).foldl (fun a l => if p l then a + 2 ^ l else a) 0 = w at h1 h2 h2n ⊢
      by_cases hp : p n
      · simp only [hp, if_true]
        refine ⟨by rw [Nat.pow_succ]; omega, ?_⟩
        have : w + 2 ^ n = 2 ^ n + w := Nat.add_comm _ _
        rw [this]
        by_cases hj : j < n
        · rw [Nat.testBit_two_pow_add_gt hj, h2]; simp [hj, Nat.lt_succ_of_lt hj]
        · by_cases hj' : j = n
          · subst hj'; rw [Nat.testBit_two_pow_add_eq, h2n]; simp [hp]
          · have : n < j := by omega
            rw [Nat.testBit_lt_two_pow]
            · simp; omega
            · calc 2 ^ n + w < 2 ^ n + 2 ^ n := by omega
                _ = 2 ^ (n + 1) := by rw [Nat.pow_succ]; omega
                _ ≤ 2 ^ j := Nat.pow_le_pow_right (by omega) this
      · simp only [hp]
        refine ⟨by rw [Nat.pow_succ]; simp; omega, ?_⟩
        simp only [Bool.false_eq_true, if_false]
        rw [h2]
        by_cases hj : j < n
        · simp [hj, Nat.lt_succ_of_lt hj]
        · by_cases hj' : j = n
          · subst hj'; simp [hp]
          · have : ¬ j < n + 1 := by omega
            simp [hj, this]
  obtain ⟨h1, h2⟩ := key 64 (Nat.le_refl _) l
  unfold laneOn maskOf lanes
  rw [BitVec.getLsbD_ofNat, h2]
  simp [hl]

theorem writeMaskBits_done (md : Nat) (p : Nat → Bool) (h : issOf i s = some x) :
    MaskDone md (fun _ _ => p) x s (writeMaskBits md x p (advance i x s)) := by
  have hm : ∀ (y : Group) (v : Mask), mset md v y = { y with m := (mset md v y).m } := fun y v => by unfold mset; split <;> rfl
  have hgid : ∀ y : Group, y.gid = x.g.gid → (mset md ((mget x.grp md &&& ~~~x.mask) ||| (maskOf p &&& x.mask)) y).gid = x.g.gid := by
    intro y hy; rw [hm]; exact hy
  obtain ⟨st', hst'⟩ := issuedGrp_frame i x s
  refine ⟨only_effect hgid, _, grpOf_effect h hgid, ?_, ?_, ?_⟩
  · rw [hm, hst']
  · intro n l hl
    rw [mget_mset]
    have hsame : mget (issuedGrp i x s) n = mget x.grp n := by rw [hst']; rfl
    by_cases hn : n = md ∧ md ≠ 0
    · obtain ⟨rfl, h0⟩ := hn
      rw [if_pos ⟨rfl, h0⟩]
      unfold laneOn
      have hp := laneOn_maskOf p hl
      unfold laneOn at hp
      simp only [BitVec.getLsbD_or, BitVec.getLsbD_and, BitVec.getLsbD_not, hl, decide_true, Bool.true_and, hp]
      by_cases hx : x.mask.getLsbD l = true <;> simp [hx, h0]
    · rw [if_neg hn, hsame, if_neg]
      rintro ⟨rfl, h0, -⟩
      exact hn ⟨rfl, h0⟩
  · exact movedOn_of h (by rw [hm])

end Sys2Proof.Machine
end

