-- ==== Sys2Proof/Tests/Slice0.lean ====
section
/-! SUPPORT. Small tests: what well-formedness refuses, words of the spec and what they decode to, a few steps on small states, and for
every statement of the obligations a state and operands that meet its hypotheses. -/

namespace Sys2Proof.Tests

open Sys2Proof Sys2Proof.Machine Sys2Proof.Stmt

set_option Elab.async false

/-! ## States to test on -/

/-- Group 0 of block 1, its top path. -/
def here : GRef := ⟨1, 0, false⟩

/-- The reset machine with one group placed, which issues; its page 0x10000 is mapped. -/
def base : State := { State.reset.withFetchWord 0 0 with cur := some here }

/-- `base` with its group changed. -/
def withGrp (f : Group → Group) : State := modGrp here f base

/-- `base` with its block changed. -/
def withBlk (f : Block → Block) : State := modBlk 1 f base

/-- `base` with its launch changed. -/
def withLau (f : Launch → Launch) : State := { base with launches := base.launches.map f }

/-- The view of the issuing group. -/
def view (g : Sig) (s : State) : Iss := (issOf g s).getD ⟨here, fetchBlock s, fetchLaunch s, fetchGroup s, fetchEntry, 0, 0⟩

/-- Whether the instruction gets past issue. -/
def ready (g : Sig) (s : State) : Bool :=
  let x := view g s
  (issOf g s).isSome && (absentFor g x).isNone && x.grp.ahead.isNone && !debugDue g x && !chainIll g x.ent && !hazard g x &&
    !g.beyond (vregsOf x.lrec x.grp) x.lrec.zreg

theorem ready_view {g : Sig} {s : State} (h : ready g s = true) : Ready g s (view g s) := by
  simp only [ready, Bool.and_eq_true, Option.isNone_iff_eq_none, Bool.not_eq_true'] at h
  obtain ⟨⟨⟨⟨⟨⟨h1, h2⟩, h3⟩, h4⟩, h5⟩, h6⟩, h7⟩ := h
  refine ⟨?_, h2, h3, h4, h5, h6, h7⟩
  obtain ⟨x, hx⟩ := Option.isSome_iff_exists.1 h1
  rw [view, hx]; rfl

/-- Some state and view meet the hypotheses of a statement about an instruction of signature `g`. -/
def Met (g : Sig) (Q : Iss → State → Prop) : Prop := ∃ s x, Ready g s x ∧ Q x s

theorem met {g : Sig} {Q : Iss → State → Prop} (s : State) (h : ready g s = true) (q : Q (view g s) s) : Met g Q :=
  ⟨s, view g s, ready_view h, q⟩

/-- A header with nothing set but the type. -/
def hdr (t : Ty) : Hdr := ⟨0, t, 0, false, 0⟩

/-! ## Well-formedness refuses an ill-formed term for each of its checks (R314 to R325) -/

theorem test_wf_accepts : (Instr.add ⟨1, .i64, 2, true, 15⟩ (.reg 8) (.latch 2) (.k 63)).wf = true := by decide +kernel
theorem test_wf_operand_k : (Instr.kadd (hdr .i64) 64 0 0).wf = false := by decide +kernel
theorem test_wf_operand_v : (Instr.add (hdr .i32) (.reg 1536) .zero .zero).wf = false := by decide +kernel
theorem test_wf_operand_latch : (Instr.add (hdr .i32) (.reg 4) (.latch 3) .zero).wf = false := by decide +kernel
theorem test_wf_operand_m0 : (Instr.cmp (hdr .i32) 0 .zero .zero).wf = false := by decide +kernel
theorem test_wf_operand_kdst : (Instr.add (hdr .i32) (.k 5) .zero .zero).wf = false := by decide +kernel
theorem test_wf_operand_z : (Instr.sand 64 0 0).wf = false := by decide +kernel
theorem test_wf_operand_addr : (Instr.lds (hdr .b32) (.reg 4) (.pair 2 0)).wf = false := by decide +kernel
theorem test_wf_operand_rank : (Instr.cbar 0 none 10 0).wf = false := by decide +kernel
theorem test_wf_operand_barrier : (Instr.bar 16 none).wf = false := by decide +kernel
theorem test_wf_pair_even : (Instr.add (hdr .i64) (.reg 5) .zero .zero).wf = false := by decide +kernel
theorem test_wf_pair_mmas : (Instr.mmas ⟨none, 0⟩ 5 0 0).wf = false := by decide +kernel
theorem test_wf_scope : (Instr.ldg (hdr .b32) (.reg 4) (.pair 2 0) 7).wf = false := by decide +kernel
theorem test_wf_type : (Instr.add (hdr .f32) (.reg 4) .zero .zero).wf = false := by decide +kernel
theorem test_wf_modifier : (Instr.kcmp ⟨6, .i64, 0, false, 0⟩ 5 1 2).wf = false := by decide +kernel
theorem test_wf_hold : (Instr.kli ⟨0, .i64, 1, false, 0⟩ 5 1).wf = false := by decide +kernel
theorem test_wf_nw : (Instr.compress ⟨0, .i8x4, 0, true, 0⟩ (.reg 4) .zero .zero 8 0).wf = false := by decide +kernel
theorem test_wf_mask : (Instr.kadd ⟨0, .i64, 0, false, 1⟩ 5 1 2).wf = false := by decide +kernel
theorem test_wf_immediate : (Instr.slen 8).wf = false := by decide +kernel
theorem test_wf_range : (Instr.portDown 16).wf = false := by decide +kernel
theorem test_wf_length : (Instr.padWordSkip 4).wf = false := by decide +kernel

/-! ## Words written out in the spec (chapters 12 to 18) and the instructions they stand for -/

theorem test_word_add_twin : decodeWord 12 0x000000010040000400802021 =
    .ok (.addImm ⟨0, .i32, 0, false, 0⟩ (.reg 4) (.reg 4) 1) := rfl
theorem test_word_fadd_hold : decodeWord 8 0x5400280401480040 =
    .ok (.fadd ⟨5, .f32, 1, false, 0⟩ (.reg 10) (.reg 4) (.reg 5)) := rfl
theorem test_word_fma : decodeWord 12 0x000000065400280401400341 =
    .ok (.fma ⟨5, .f32, 0, false, 0⟩ (.reg 10) (.reg 4) (.reg 5) (.reg 6)) := rfl
theorem test_word_kli64 : decodeWord 16 0x123456789ABCDEF000000000C8A0011A =
    .ok (.kli64 ⟨0, .b32, 0, false, 0⟩ 5 0x123456789ABCDEF0) := rfl
theorem test_word_bra : decodeWord 12 0xFFFFFFFC0000000300000101 =
    .ok (.bra 3 false 0xFFFFFFFC) := rfl
theorem test_word_brd : decodeWord 16 0x00000014000000060000000200000202 =
    .ok (.brd 2 false 6 20) := rfl
theorem test_word_ret : decodeWord 8 0x0000067F00000500 =
    .ok (.ret 63) := rfl
theorem test_word_exit : decodeWord 8 0x0600 =
    .ok (.exit) := rfl
theorem test_word_kadd_twin : decodeWord 12 0x0000006401C00641C8A02115 =
    .ok (.kaddImm ⟨0, .i64, 0, false, 0⟩ 5 1 100) := rfl
theorem test_word_setfmt : decodeWord 12 0x008005550000000000002011 =
    .ok (.setfmtImm 0x800555) := rfl
theorem test_word_crd : decodeWord 8 0x0000000AC8A00210 =
    .ok (.crd false 5 10) := rfl
theorem test_word_cbar : decodeWord 12 0x000210000000000100000309 =
    .ok (.cbar 1 none 2 4) := rfl
theorem test_word_xacq : decodeWord 12 0x0000000C000000000000000D =
    .ok (.xacq 12) := rfl
theorem test_word_popc : decodeWord 8 0x000000080120002C =
    .ok (.popc ⟨0, .b32, 0, false, 0⟩ (.reg 9) (.reg 8)) := rfl
theorem test_word_shfl : decodeWord 12 0x000000410000000401402051 =
    .ok (.shflImm ⟨0, .b32, 0, false, 0⟩ (.reg 10) (.reg 4) 0x41) := rfl
theorem test_word_cvt : decodeWord 12 0x000280000440000400C0004D =
    .ok (.cvt ⟨0, .bf16x2, 0, false, 0⟩ (.reg 6) (.reg 4) .f32 1) := rfl
theorem test_word_compress : decodeWord 12 0x0000103004C0480805000251 =
    .ok (.compress ⟨0, .e4m3x4, 0, false, 0⟩ (.reg 40) (.reg 8) (.reg 9) 48 2) := rfl
theorem test_word_redmin : decodeWord 12 0x0000064600B0200CC8A00855 =
    .ok (.redminIndex ⟨0, .n32, 0, false, 0⟩ (.k 5) (.k 6) (.reg 12) .lane) := rfl
theorem test_word_accwin : decodeWord 8 0x00321E42C8200080 =
    .ok (.accwin 1 2 3) := rfl
theorem test_word_mma : decodeWord 12 0x000200000000C010C8800085 =
    .ok (.mma ⟨some 4, 64⟩ 16 24 0) := rfl
theorem test_word_mfence : decodeWord 8 0x00000000C8A00088 =
    .ok (.mfence 5) := rfl
theorem test_word_mwait : decodeWord 8 0x0000064500000188 =
    .ok (.mwait 5) := rfl
theorem test_word_mstat : decodeWord 8 0x00000645C8C00288 =
    .ok (.mstat 6 (some 5)) := rfl
theorem test_word_ldg : decodeWord 12 0x680000000000000200800061 =
    .ok (.ldg ⟨0, .b32, 0, false, 0⟩ (.reg 4) (.base 0 (.reg 2) 0) 3) := rfl
theorem test_word_atomc : decodeWord 12 0x600000011000000200800169 =
    .ok (.atomc ⟨1, .b32, 0, false, 0⟩ (.reg 4) (.pair 2 0) (.reg 0) (.reg 1) 3) := rfl
theorem test_word_fence : decodeWord 12 0x60081000000000000000006D =
    .ok (.fence false 2 4 3) := rfl
theorem test_word_fence_block : decodeWord 12 0x20061800000000000000006D =
    .ok (.fence false 3 3 1) := rfl
theorem test_word_fence_sc : decodeWord 12 0xC0000000400000000000006D =
    .ok (.fence true 0 0 6) := rfl
theorem test_word_ofence : decodeWord 8 0x000000000000016C =
    .ok (.ofence) := rfl
theorem test_word_waitp : decodeWord 8 0x003200030000026C =
    .ok (.waitp 3 0) := rfl
theorem test_word_sgen : decodeWord 12 0x0000700000000004006000A1 =
    .ok (.sgen 3 (.reg 4) 14) := rfl
theorem test_word_sand : decodeWord 8 0x0000200300A000A4 =
    .ok (.sand 5 3 4) := rfl
theorem test_word_scnta : decodeWord 12 0x0000000000000005028001A9 =
    .ok (.scnta 0 (.reg 20) 5) := rfl
theorem test_word_slen : decodeWord 12 0x00003F0400000000000004A1 =
    .ok (.slen 0x3F04) := rfl
theorem test_word_wlpop : decodeWord 8 0x00800803010002B0 =
    .ok (.wlpop 0 false (.reg 8) 3 true) := rfl
theorem test_word_lblset : decodeWord 8 0x00001641C8A001B4 =
    .ok (.lblset 5 1 2) := rfl

/-! ## Words that the spec calls illegal, each with the check that fails first (R325) -/

theorem test_illegal_reserved_major : decodeWord 8 0x0000000000000030 = .error .major := rfl
theorem test_illegal_firmware : decodeWord 8 0x00000000000000FC = .error .major := rfl
theorem test_illegal_function : decodeWord 8 0x0000000000003F00 = .error .function := rfl
theorem test_illegal_length : decodeWord 16 0x00000000000000000000000000000022 = .error .length := rfl
theorem test_illegal_hold : decodeWord 12 0x600000000000000000080061 = .error .hold := rfl
theorem test_illegal_type : decodeWord 8 0x0000064100000040 = .error .type := rfl
theorem test_illegal_reserved_bit : decodeWord 8 0x0000000100000600 = .error .reserved := rfl
theorem test_illegal_operand : decodeWord 8 0x0000000000000500 = .error .operand := rfl
theorem test_legal_hold : decodeWord 8 0x0400000000080040 =
    .ok (.fadd ⟨0, .f32, 1, false, 0⟩ (.reg 0) (.reg 0) (.reg 0)) := rfl

/-- A word that crosses the end of its window is illegal, a pad word there is not (R310). -/
theorem test_window : decodeAt 28 (toBytes 4 0x0500) = .error .crossesWindow ∧
    decodeAt 28 (toBytes 4 0x3) = .ok (.padWordSkip 3, 4) := ⟨rfl, rfl⟩

/-- The host's reading of a word: nop. -/
theorem test_table_word : decodeTableWord 64 0 = some .nop := rfl

/-- Every operand at the end of its range, in a word put together by hand from the fields of R312 and R313. -/
theorem test_word_ends : decodeWord 16 0xFFFFFFFF0000067F11C00604BFDFE522 =
    .ok (.madImm ⟨1, .i64, 3, true, 15⟩ (.reg 1534) .lane 0xFFFFFFFF (.k 63)) := rfl

/-! ## Witnesses: uniform, vector, float and cross-lane instructions

Their statements ask for a type and that the instruction gets past issue (`Ready`); one theorem for each statement shows both. -/

theorem witness_UniformArithmetic : uniTy (hdr .i64) ∧ uniTy (hdr .n64) ∧
    [sigKadd (hdr .i64) 5 1 2, sigKaddImm (hdr .n64) 63 0 7, sigKsub (hdr .i64) 5 5 5, sigKsubImm (hdr .i64) 5 1 0, sigKmul (hdr .n64) 0 63 1,
      sigKmulImm (hdr .i64) 5 1 0xFFFFFFFF, sigKmad (hdr .i64) 5 1 2 3, sigKmadImm (hdr .n64) 5 1 9 3, sigKmin (hdr .i64) 5 1 2,
      sigKminImm (hdr .i64) 5 1 2, sigKmax (hdr .n64) 5 1 2, sigKmaxImm (hdr .n64) 5 1 2].all (ready · base) = true :=
  ⟨.inl rfl, .inr rfl, by decide +kernel⟩

theorem witness_UniformCompare : uniTy ⟨5, .n64, 0, false, 0⟩ ∧ ready (sigKcmp ⟨5, .n64, 0, false, 0⟩ 5 1 2) base = true ∧
    ready (sigKcmpImm ⟨0, .i64, 1, true, 0⟩ 5 1 2) base = true := ⟨.inr rfl, by decide +kernel, by decide +kernel⟩

theorem witness_UniformLogic : (hdr .b32).ty = .b32 ∧ uniTy (hdr .n64) ∧
    [sigKmov (hdr .b32) 5 1, sigKand (hdr .b32) 5 1 2, sigKandImm (hdr .b32) 5 1 9, sigKor (hdr .b32) 5 1 2, sigKorImm (hdr .b32) 5 1 9,
      sigKxor (hdr .b32) 5 1 2, sigKxorImm (hdr .b32) 5 1 9, sigKshl (hdr .b32) 5 1 2, sigKshlImm (hdr .b32) 5 1 64, sigKshr (hdr .b32) 5 1 2,
      sigKshrImm (hdr .b32) 5 1 63, sigKsra (hdr .b32) 5 1 2, sigKsraImm (hdr .b32) 5 1 64, sigKsel (hdr .b32) 5 1 2 3,
      sigKlea (hdr .b32) 5 1 2 7 262143, sigKpopc (hdr .b32) 5 1, sigKclz (hdr .b32) 5 1, sigKli64 (hdr .b32) 5 1,
      sigKli (hdr .n64) 5 0xFFFFFFFF].all (ready · base) = true := ⟨rfl, .inr rfl, by decide +kernel⟩

theorem witness_LaneRead : (23 : Nat) < 1536 ∧ [sigKfromv (hdr .b32) 5 23 (.lane 63), sigKfromv (hdr .i32) 5 0 (.k 2),
    sigKfromv (hdr .i64) 5 22 .first].all (ready · base) = true ∧
    (view (sigKfromv (hdr .b32) 5 23 .first) base).ent.mask ≠ 0 := ⟨by decide, by decide +kernel, by decide +kernel⟩

theorem witness_VectorInteger : (hdr .i8x4).ty ∈ intTys ∧ (hdr .n64).ty ∈ intTys ∧
    [sigAdd (hdr .i8x4) (.reg 23) (.reg 1) .lane, sigAddImm (hdr .n64) (.reg 22) (.k 3) 9, sigSub (hdr .i32) .zero .zero .lane,
      sigSubImm (hdr .i32) (.reg 4) (.reg 4) 1, sigMul (hdr .i16x2) (.reg 4) (.reg 5) (.reg 6), sigMulImm (hdr .n32) (.reg 4) (.k 63) 3,
      sigMulh (hdr .i64) (.reg 4) (.reg 6) (.reg 8), sigMulhImm (hdr .n32) (.reg 4) (.reg 6) 3, sigMad (hdr .n8x4) (.reg 4) (.reg 5) (.reg 6) .lane,
      sigMadImm (hdr .i32) (.reg 4) (.reg 5) 3 (.k 0), sigAbs (hdr .i8x4) (.reg 4) (.reg 4), sigMin (hdr .n32) (.reg 4) (.reg 5) (.reg 6),
      sigMinImm (hdr .i32) (.reg 4) (.reg 5) 0, sigMax (hdr .i64) (.reg 4) (.reg 6) .zero, sigMaxImm (hdr .n16x2) (.reg 4) (.reg 5) 9].all
      (ready · base) = true := ⟨by decide, by decide, by decide +kernel⟩

theorem witness_AddWithCarry : ((hdr .n32).ty = .n32 ∨ (hdr .n32).ty = .n64) ∧
    ready (sigAddc (hdr .n32) (.reg 10) (.reg 2) (.reg 4) 0 15) base = true ∧
    ready (sigAddc (hdr .n64) (.reg 10) (.reg 2) (.reg 4) 1 0) base = true := ⟨.inl rfl, by decide +kernel, by decide +kernel⟩

theorem witness_VectorLogic :
    [sigAnd (hdr .b32) (.reg 4) (.reg 5) .lane, sigAndImm (hdr .n64) (.reg 4) (.reg 6) 9, sigOr (hdr .b32) (.reg 4) (.reg 5) .lane,
      sigOrImm (hdr .b32) (.reg 4) (.reg 5) 9, sigXor (hdr .b32) (.reg 4) (.reg 5) .zero, sigXorImm (hdr .b32) (.reg 4) (.k 5) 9,
      sigLop3 (hdr .b32) (.reg 4) (.reg 5) (.reg 6) (.reg 7) 0xCA, sigShl (hdr .n8x4) (.reg 4) (.reg 5) .lane, sigShlImm (hdr .b32) (.reg 4) (.reg 5) 32,
      sigShr (hdr .n16x2) (.reg 4) (.reg 5) .lane, sigShrImm (hdr .b32) (.reg 4) (.reg 5) 31, sigSra (hdr .n64) (.reg 4) (.reg 6) .lane,
      sigSraImm (hdr .b32) (.reg 4) (.reg 5) 32, sigSel (hdr .b32) (.reg 4) (.reg 5) .lane 0, sigMov (hdr .n64) (.reg 4) (.k 5),
      sigMovImm (hdr .i64) (.reg 4) 0xFFFFFFFF, sigMovk (hdr .b32) (.reg 4) 1 2].all (ready · base) = true := by decide +kernel

theorem witness_BitFields : (hdr .b32).ty = .b32 ∧ (hdr .n64).ty = .n64 ∧ (hdr .i32).ty = .i32 ∧
    [sigPopc (hdr .n64) (.reg 4) (.reg 6), sigClz (hdr .b32) (.reg 4) .zero, sigBrev (hdr .b32) (.reg 4) .lane, sigBfe (hdr .i32) (.reg 4) (.reg 5) .lane,
      sigBfeImm (hdr .n32) (.reg 4) (.reg 5) 0x0804, sigBfi (hdr .b32) (.reg 4) (.reg 5) (.reg 6) .lane,
      sigBfiImm (hdr .b32) (.reg 4) (.reg 5) 0x0410 (.reg 5)].all (ready · base) = true := ⟨rfl, rfl, rfl, by decide +kernel⟩

theorem witness_VectorCompare : (hdr .i32).ty = .i32 ∧ (hdr .n64).ty = .n64 ∧ ready (sigCmp (hdr .i32) 15 (.reg 4) .lane) base = true ∧
    ready (sigCmpImm (hdr .n64) 1 (.reg 4) 9) base = true := ⟨rfl, rfl, by decide +kernel, by decide +kernel⟩

theorem witness_FloatArithmetic : fltOf (hdr .f32).ty fmtF32 ∧ fltOf (hdr .bf16x2).ty fmtBf16 ∧ fltOf (hdr .f16x2).ty fmtF16 ∧
    [sigFadd (hdr .f32) (.reg 4) (.reg 5) (.reg 6), sigFaddImm (hdr .bf16x2) (.reg 4) (.reg 5) 9, sigFsub (hdr .f16x2) (.reg 4) (.reg 5) .lane,
      sigFsubImm (hdr .f32) (.reg 4) (.reg 5) 9, sigFmul ⟨4, .f32, 0, false, 0⟩ (.reg 4) (.reg 5) .zero, sigFmulImm (hdr .f32) (.reg 4) (.k 5) 9,
      sigFma ⟨5, .f32, 1, true, 0⟩ (.reg 4) (.reg 5) (.reg 6) (.reg 7), sigFmaImm (hdr .f32) (.reg 4) (.reg 5) 9 .zero,
      sigFscale (hdr .f32) (.reg 4) (.reg 5) .lane, sigFscaleImm (hdr .f32) (.reg 4) (.reg 5) 0xFFFFFFFF, sigFrnd (hdr .f32) (.reg 4) (.reg 5),
      sigFrcp (hdr .bf16x2) (.reg 4) (.reg 5), sigFsqrt (hdr .f32) (.reg 4) (.reg 5)].all (ready · base) = true :=
  ⟨.inl ⟨rfl, rfl⟩, .inr (.inl ⟨rfl, rfl⟩), .inr (.inr ⟨rfl, rfl⟩), by decide +kernel⟩

theorem witness_Transcendentals : (hdr .f32).ty = .f32 ∧ [sigFrsq (hdr .f32) (.reg 4) (.reg 5), sigFexp2 (hdr .f32) (.reg 4) .zero,
    sigFlog2 (hdr .f32) (.reg 4) .lane].all (ready · base) = true := ⟨rfl, by decide +kernel⟩

theorem witness_FloatSelect : fltOf (hdr .f32).ty fmtF32 ∧ [sigFmin (hdr .f32) (.reg 4) (.reg 5) .lane, sigFminImm (hdr .f32) (.reg 4) (.reg 5) 9,
    sigFmax (hdr .f32) (.reg 4) (.reg 5) .zero, sigFmaxImm (hdr .f32) (.reg 4) (.reg 5) 0, sigFclass (hdr .f32) (.reg 4) (.reg 5)].all
    (ready · base) = true := ⟨.inl ⟨rfl, rfl⟩, by decide +kernel⟩

/-- An infinity, both zeros, a subnormal, a normal number and both NaNs of f32: every clause of fclass, and every pair of fmin, has a case. -/
theorem witness_FloatSelect_classes : fmtF32.decode 0x7FC00000 = .nan ∧ fmtF32.decode 0x7F800001 = .nan ∧ (∃ s, fmtF32.decode 0xFF800000 = .inf s) ∧
    fmtF32.decode 0x3F800000 ≠ .nan ∧ 0x80000000 % 2 ^ (fmtF32.bits - 1) = 0 ∧ 0 < 1 % 2 ^ (fmtF32.bits - 1) ∧ 1 < 2 ^ fmtF32.fb ∧
    2 ^ fmtF32.fb ≤ 0x7F7FFFFF ∧ 0x7F7FFFFF ≤ fmtF32.maxBits := by
  refine ⟨by decide +kernel, by decide +kernel, ⟨true, by decide +kernel⟩, by decide +kernel, by decide, by decide, by decide, by decide, by decide⟩

theorem witness_FloatCompare : (⟨7, .f32, 0, false, 0⟩ : Hdr).ty = .f32 ∧ (⟨7, .f32, 0, false, 0⟩ : Hdr).mod < 8 ∧
    ready (sigFcmp ⟨7, .f32, 0, false, 0⟩ 3 (.reg 4) .zero) base = true ∧ ready (sigFcmpImm (hdr .f32) 3 (.reg 4) 0x7FC00000) base = true ∧
    fmtF32.decode 0x7FC00000 = .nan ∧ fmtF32.decode 0 ≠ .nan :=
  ⟨rfl, by decide, by decide +kernel, by decide +kernel, by decide +kernel, by decide +kernel⟩

theorem witness_Conversions : (hdr .bf16x2).ty ∈ cvtTys ∧ Ty.f32 ∈ cvtTys ∧
    1 < max Ty.f32.elems (hdr .bf16x2).ty.elems / min Ty.f32.elems (hdr .bf16x2).ty.elems ∧
    ready (sigCvt (hdr .bf16x2) (.reg 6) (.reg 4) .f32 1) base = true ∧ ready (sigCvt (hdr .f32) (.reg 6) (.reg 4) .bf16x2 1) base = true ∧
    ready (sigLpack (hdr .l6) (.reg 4) 8 .f32) base = true ∧ ready (sigLpack (hdr .l6) (.reg 4) 8 .l6) base = true ∧
    ready (sigLunpk (hdr .f32) (.reg 4) 20) base = true ∧ ready (sigLunpk (hdr .l6) (.reg 4) 20) base = true := by decide +kernel

theorem witness_RoundingAndDraws : fmtE5m2 ∈ [fmtF32, fmtBf16, fmtF16, fmtE4m3, fmtE5m2] ∧
    fmtF32.decode (roundF fmtF32 .rne 0 .nan) = .nan ∧ (65535 : Nat) < 2 ^ 16 ∧ 0x3F800000 < 2 ^ fmtF32.bits ∧
    fmtF32.decode 0x3F800000 ≠ .nan ∧ (15 : Nat) < 16 ∧ [0, 63].Nodup ∧ (∀ l ∈ [0, 63], l < 64) ∧ (13 ≠ 15 ∨ 0 ∉ [0, 63]) ∧ (14 : Nat) ≤ 15 := by
  refine ⟨by decide, by decide +kernel, by decide, by decide, by decide +kernel, by decide, by decide, by decide, by decide, by decide⟩

theorem witness_CrossLaneMoves : [sigShfl (hdr .b32) (.reg 10) (.reg 4) .lane, sigShflImm (hdr .n64) (.reg 10) (.reg 4) 0x7F,
    sigBcast (hdr .b32) (.reg 10) (.reg 4) 1, sigBcastImm (hdr .b32) (.reg 10) (.reg 4) 63,
    sigCompress (hdr .e4m3x4) (.reg 10) (.reg 8) (.reg 9) 20 3, sigCompress (hdr .bf16x2) (.reg 10) (.reg 8) (.reg 9) 20 0,
    sigExpand (hdr .e4m3x4) (.reg 10) (.reg 8) (.reg 20) 3, sigExpand (hdr .f16x2) (.reg 22) (.reg 8) (.reg 20) 0].all (ready · base) = true ∧
    (10 : Nat) ≠ 20 ∧ (3 : Nat) < 4 ∧ (hdr .e4m3x4).ty ∈ [Ty.i8x4, .n8x4, .e4m3x4, .e5m2x4, .bf16x2, .f16x2] ∧
    (hdr .e4m3x4).nw = false ∧ (hdr .e4m3x4).hold = 0 := by decide +kernel

theorem witness_Reductions : (hdr .f32).ty = .f32 ∧ (hdr .i32).ty = .i32 ∧ (hdr .n64).ty = .n64 ∧
    [sigRedmin (hdr .i32) (.k 5) (.reg 4), sigRedmax (hdr .f32) (.reg 5) (.reg 4), sigRedadd (hdr .n64) (.k 5) (.reg 4),
      sigRedand (hdr .b32) (.k 5) (.reg 4), sigRedor (hdr .n64) (.reg 6) (.reg 4), sigRedxor (hdr .b32) .zero (.reg 4)].all (ready · base) = true ∧
    Met (sigRedadd (hdr .f32) (.k 5) (.reg 4)) (fun x _ => modeOf (hdr .f32) x ≠ .sr) ∧
    Met (sigRedadd ⟨4, .f32, 0, false, 0⟩ (.k 5) (.reg 4)) (fun x _ => modeOf ⟨4, .f32, 0, false, 0⟩ x = .sr) :=
  ⟨rfl, rfl, rfl, by decide +kernel, met base (by decide +kernel) (by decide +kernel), met base (by decide +kernel) (by decide +kernel)⟩

theorem witness_ReductionIndex : (hdr .n32).ty = .n32 ∧ ready (sigRedminIndex (hdr .n32) (.k 5) (.k 6) (.reg 12) .lane) base = true ∧
    ready (sigRedmaxIndex (hdr .i64) (.reg 4) (.reg 6) (.reg 12) (.reg 8)) base = true := ⟨rfl, by decide +kernel, by decide +kernel⟩

theorem witness_Scans : (hdr .f32).mod % 8 < 3 ∧ (hdr .f32).ty = .f32 ∧ ready (sigScan (hdr .f32) (.reg 4) (.reg 5)) base = true ∧
    3 ≤ (⟨13, .n64, 0, false, 0⟩ : Hdr).mod % 8 ∧ (⟨13, .n64, 0, false, 0⟩ : Hdr).mod % 8 < 6 ∧
    ready (sigScan ⟨13, .n64, 0, false, 0⟩ (.reg 4) (.reg 6)) base = true := by decide +kernel

theorem witness_VotesAndMasks : (hdr .b32).ty = .b32 ∧ (hdr .b32).hold = 0 ∧ [sigBallot (hdr .b32) 5 (.reg 4), sigVany (hdr .b32) 5 .lane,
    sigVall (hdr .b32) 5 .zero, sigMcnt (hdr .b32) 5 0, sigElect (hdr .b32) 4 0, sigMlog ⟨6, .b32, 0, false, 0⟩ 6 0 0].all (ready · base) = true := by
  decide +kernel

/-! ## Witnesses: control, launch, barrier and register-model instructions -/

/-- `base` with k registers given. -/
def kregs (l : List (Nat × W64)) : State := withGrp fun g => l.foldl (fun g e => kset e.1 e.2 g) g

/-- `base` with mask register 3 given. -/
def m3 (v : Mask) : State := withGrp (mset 3 v)

/-- The value 64 or 0 by lane in the register pair v4. -/
def split4 : State := withGrp fun g => vset 4 0 0x40 g

/-- The group in handler mode. -/
def inHandler (f : Group → Group) : State := withGrp fun g => f { g with handler := some ⟨1, false, 0⟩ }

theorem witness_Branches : ready sigNop base = true ∧
    Met (sigBra 3 false 4) (fun x _ => inEvery x fun l => cond x 3 false l = true) ∧
    Met (sigBra 3 false 4) (fun x _ => inEvery x fun l => cond x 3 false l = false) ∧
    Met (sigBra 3 true 4) (fun x _ => (inSome x fun l => cond x 3 true l = true) ∧ inSome x fun l => cond x 3 true l = false) ∧
    (64 : W64).toNat % 4 = 0 ∧ Met (sigBrx (.k 1)) (fun x _ => inEvery x fun l => srcVal x true (.k 1) l = (64 : W64).toNat) ∧
    (62 : W64).toNat % 4 ≠ 0 ∧ Met (sigBrx (.k 1)) (fun x _ => inEvery x fun l => srcVal x true (.k 1) l = (62 : W64).toNat) ∧
    Met (sigBrx (.reg 4)) (fun x _ => (inSome x fun l => srcVal x true (.reg 4) l = 64) ∧ inSome x fun l => srcVal x true (.reg 4) l ≠ 64) ∧
    ready (sigCall true 5 4) base = true ∧ Met (sigRet 1) (fun x _ => (kget x.grp 1).toNat % 4 = 0) ∧
    Met (sigRet 1) (fun x _ => (kget x.grp 1).toNat % 4 ≠ 0) := by
  refine ⟨by decide +kernel, met (m3 (BitVec.allOnes 64)) (by decide +kernel) ?_, met (m3 0) (by decide +kernel) ?_,
    met (m3 0xF) (by decide +kernel) ?_, by decide, met (kregs [(1, 64)]) (by decide +kernel) ?_, by decide,
    met (kregs [(1, 62)]) (by decide +kernel) ?_, met split4 (by decide +kernel) ?_, by decide +kernel,
    met (kregs [(1, 64)]) (by decide +kernel) (by decide +kernel), met (kregs [(1, 1)]) (by decide +kernel) (by decide +kernel)⟩ <;>
  · dsimp only [inEvery, inSome]; decide +kernel

theorem witness_DivergentBranch :
    Met (sigBrd 3 false 4 8) (fun x _ => inEvery x fun l => cond x 3 false l = true) ∧
    Met (sigBrd 3 false 4 8) (fun x _ => inEvery x fun l => cond x 3 false l = false) ∧
    Met (sigBrd 3 false 4 8)
      (fun x _ => (inSome x fun l => cond x 3 false l = true) ∧ (inSome x fun l => cond x 3 false l = false) ∧ x.grp.onChip ≤ 14) ∧
    Met (sigBrd 3 false 4 8) (fun x _ => (inSome x fun l => cond x 3 false l = true) ∧ (inSome x fun l => cond x 3 false l = false) ∧
      14 < x.grp.onChip ∧ x.grp.dstk = 0) := by
  refine ⟨met (m3 (BitVec.allOnes 64)) (by decide +kernel) ?_, met (m3 0) (by decide +kernel) ?_, met (m3 0xF) (by decide +kernel) ?_,
    met (withGrp fun g => { mset 3 0xF g with stack := List.replicate 15 fetchEntry, onChip := 15 }) (by decide +kernel) ?_⟩ <;>
  · dsimp only [inEvery, inSome]; decide +kernel

theorem witness_ExitAndYield : let ends := fun (m : Mask) (x : Iss) (e : Entry) => e.mask &&& ~~~m = 0 ∧ m = exitLanes x
    Met sigExit (fun x _ => (0xF : Mask) = exitLanes x ∧ ∃ e ∈ x.grp.stack, ¬ ends 0xF x e) ∧
    Met sigExit (fun x _ => (∀ e ∈ x.grp.stack, ends (BitVec.allOnes 64) x e) ∧ cnt x.grp 4 < 255) ∧
    Met sigExit (fun x _ => (∀ e ∈ x.grp.stack, ends (BitVec.allOnes 64) x e) ∧ 255 ≤ cnt x.grp 4) ∧
    (view sigExit base).grp.handler = none ∧ ready sigYield base = true :=
  ⟨met (withGrp fun g => { g with stack := [{ fetchEntry with mask := 0xF }, fetchEntry], onChip := 2 }) (by decide +kernel) (by decide +kernel),
    met base (by decide +kernel) (by decide +kernel),
    met (withGrp fun g => { g with flights := List.replicate 255 ⟨4, 9, false⟩ }) (by decide +kernel) (by decide +kernel), by decide +kernel, by decide +kernel⟩

/-- The context of the group. -/
def ctx1 : Ctx := fetchCtx

theorem witness_TrapEntry : (∀ a : List Granule, a = [] ∨ a = [.slab 0] → ∃ (s : State) (b : Block) (x : Iss), x.blk.absent = a ∧ x.grp.trec / 2048 = 0 ∧ blkOf s x.g.blk = some b ∧ (grpIn b x.g.gid).isSome = true ∧
      x.grp.gid = x.g.gid ∧ (liveEntry x.grp x.g.low).map (·.mask) = some x.ent.mask ∧ x.grp.tvec ≠ 0 ∧ x.grp.handler = none ∧ x.grp.trec + 64 ≤ 256 * x.lrec.slab) ∧
    ∃ (s : State) (b : Block) (x : Iss) (c : Ctx), blkOf s x.g.blk = some b ∧ (grpIn b x.g.gid).isSome = true ∧ x.grp.gid = x.g.gid ∧
      (liveEntry x.grp x.g.low).map (·.mask) = some x.ent.mask ∧ x.grp.tvec = 0 ∧ ctxOf s x.ctx = some c ∧ c.vf < s.faultQs.length := by
  refine ⟨fun a h => ?_, ⟨base, fetchBlock State.reset, view sigNop base, ctx1, by decide +kernel⟩⟩
  let s := fun a : List Granule => modBlk 1 (fun b => { b with absent := a }) (withGrp fun g => { g with tvec := 0x10100 })
  refine ⟨s a, (blkOf (s a) 1).getD (fetchBlock base), view sigNop (s a), ?_⟩
  rcases h with rfl | rfl <;> decide +kernel

/-- A group in handler mode whose trap record holds the number `r`. -/
def withRec (r : Nat) : State :=
  modBlk 1 (fun b => { b with slab := FMap.setAll 0 b.slab ((List.range 64).zip (toBytes 64 r)) }) (inHandler id)

/-- The group is in handler mode at the depth of its record, which names these addresses. -/
def records (x : Iss) (pc npc : Nat) (again : Bool) : Prop := x.grp.handler = some ⟨1, false, 0⟩ ∧ x.grp.stack.length = 1 ∧
  bits (ofBytes (slabRead x.blk x.grp.trec 64)) 255 192 = pc ∧ bits (ofBytes (slabRead x.blk x.grp.trec 64)) 191 128 = npc ∧
  bit (ofBytes (slabRead x.blk x.grp.trec 64)) 9 = again

theorem witness_SoftTrapAndReturn : ready (sigTrap 9) base = true ∧ Met sigTret (fun x _ => x.grp.handler = none) ∧
    Met sigTret (fun x _ => x.grp.handler = some ⟨2, false, 0⟩ ∧ x.grp.stack.length ≠ 2) ∧
    Met sigTret (fun x _ => records x 0x40 0x48 false) ∧ Met sigTret (fun x _ => records x 0x40 0x48 true) ∧
    Met sigTret (fun x _ => records x 0x41 0x48 true) ∧ Met sigTret (fun x _ => records x 0x41 0x48 false) ∧
    (∀ x : Iss, x = view sigTret base → ∃ c, ctxOf base x.ctx = some c ∧ c.vf < base.faultQs.length) :=
  ⟨by decide +kernel, met base (by decide +kernel) (by decide +kernel),
    met (withGrp fun g => { g with handler := some ⟨2, false, 0⟩ }) (by decide +kernel) (by decide +kernel),
    met (withRec (0x40 * 2 ^ 192 + 0x48 * 2 ^ 128)) (by decide +kernel) (by unfold records; decide +kernel),
    met (withRec (0x40 * 2 ^ 192 + 0x48 * 2 ^ 128 + 2 ^ 9)) (by decide +kernel) (by unfold records; decide +kernel),
    met (withRec (0x41 * 2 ^ 192 + 0x48 * 2 ^ 128 + 2 ^ 9)) (by decide +kernel) (by unfold records; decide +kernel),
    met (withRec (0x41 * 2 ^ 192 + 0x48 * 2 ^ 128)) (by decide +kernel) (by unfold records; decide +kernel), fun x h => ⟨ctx1, by subst h; decide +kernel⟩⟩

/-- A launch beside the group's own, that has ended with `st`. -/
def otherLaunch (st : LStatus) : Launch := { fetchLaunch base with id := 0, handle := 7, status := st }

/-- The path has taken handle 1 for the record at `va`. -/
def taken1 (va : W64) : State := withGrp fun g => { g with stack := [{ fetchEntry with launching := some (1, va, none) }] }

theorem witness_Launching :
    Met (sigLaunch false 5 1) (fun x _ => 10 ≤ x.lau.depth) ∧
    Met (sigSpawn false 5 1 (some 2)) (fun x s => x.lau.depth < 10 ∧ Stmt.openOf x s < 64 ∧ relReady x s = true ∧ x.ent.launching = none) ∧
    Met (sigSpawn false 5 1 (some 2)) (fun x _ => (x.lau.depth < 10 ∧ x.ent.launching = some (1, (1 : W64), none)) ∧ (1 : W64).toNat % 128 ≠ 0) ∧
    Met (sigLaunch false 5 1) (fun x s => (x.lau.depth < 10 ∧ x.ent.launching = some (1, (0x10000 : W64), none)) ∧ (0x10000 : W64).toNat % 128 = 0 ∧
      canonical (0x10000 : W64) = true ∧
      ∃ bs s', readAt (.core x.core) (groupKey x.g) x.ctx 0x10000 128 (advance (sigLaunch false 5 1) x s) = .ok bs s') ∧
    Met (sigLaunch true 5 1) (fun x s => x.lau.depth < 10 ∧ 64 ≤ Stmt.openOf x s ∧ x.ent.launching = none) ∧
    Met (sigLwait false 5 1) (fun x _ => kget x.grp 1 = 0) ∧
    Met (sigLwait false 5 1) (fun x s => kget x.grp 1 ≠ 0 ∧ ∀ l ∈ s.launches, ¬ (l.ctx = x.ctx ∧ l.handle = (kget x.grp 1).toNat)) ∧
    (otherLaunch .nofit).status ≠ .running ∧ Met (sigLwait true 5 1) (fun x s => kget x.grp 1 ≠ 0 ∧
      (s.launches.find? fun m => m.ctx == x.ctx && m.handle == (kget x.grp 1).toNat) = some (otherLaunch .nofit)) ∧
    (otherLaunch .running).status = .running ∧ Met (sigLwait true 5 1) (fun x s => kget x.grp 1 ≠ 0 ∧
      (s.launches.find? fun m => m.ctx == x.ctx && m.handle == (kget x.grp 1).toNat) = some (otherLaunch .running)) := by
  refine ⟨met (withLau fun l => { l with depth := 10 }) (by decide +kernel) (by decide +kernel), met (kregs [(1, 1)]) (by decide +kernel) (by decide +kernel),
    met (taken1 1) (by decide +kernel) (by decide +kernel),
    met (taken1 0x10000) (by decide +kernel) ⟨by decide +kernel, by decide +kernel, by decide +kernel, ?_⟩,
    met (withBlk fun b => { b with issued := List.replicate 64 1 }) (by decide +kernel) (by decide +kernel), met base (by decide +kernel) (by decide +kernel),
    met (kregs [(1, 9)]) (by decide +kernel) (by decide +kernel), by decide,
    met { kregs [(1, 7)] with launches := base.launches ++ [otherLaunch .nofit] } (by decide +kernel) (by decide +kernel), by decide,
    met { kregs [(1, 7)] with launches := base.launches ++ [otherLaunch .running] } (by decide +kernel) (by decide +kernel)⟩
  let x := view (sigLaunch false 5 1) (taken1 0x10000)
  have : (match readAt (.core x.core) (groupKey x.g) x.ctx 0x10000 128 (advance (sigLaunch false 5 1) x (taken1 0x10000)) with
    | .ok _ _ => true
    | _ => false) = true := by decide +kernel
  revert this
  split
  · rename_i bs s' e; exact fun _ => ⟨bs, s', e⟩
  · intro h; cases h
/-- `base` with a second group in the block. -/
def twoGroups : State := modBlk 1 (fun b => { b with groups := b.groups ++ [{ fetchGroup base with gid := 1, ridx := 1 }] }) (withLau fun l =>
  { l with lrec := { l.lrec with gpb := 1 } })

/-- A load of the group with number `n`, no lane of it performed. -/
def loadOf (n : Nat) : Access :=
  { id := n, g := here, core := 0, ctx := 1, vf := 0, kind := .load, level := .g, ty := .b32, aop := 0, dst := some 4, target := 0,
    lanes := [], tags := [], naks := [], pc := 0x10000, mask := 1, chained := false, chainPc := 0x10000, returned := false }

/-- `base` with a load of the group in flight, so that a release waits. -/
def inFlight : State := { base with eng := { base.eng with accs := [loadOf 9] } }

theorem witness_BlockBarriers : Met (sigBar 15 none) (fun x s => relReady x s = true ∧ x.ent.wait = .none) ∧
    Met (sigArrive false 5 0 (some 1)) (fun x s => relReady x s = true ∧ x.ent.wait = .none) ∧
    Met (sigBar 3 none) (fun x s => relReady x s = false) ∧ Met (sigArrive false 5 3 none) (fun x s => relReady x s = false) ∧
    Met (sigAwait 2 1) (fun x _ => (kget x.grp 1).toNat < ((FMap.get ⟨0, [], 0⟩ x.blk.barriers 2).phase).toNat) ∧
    Met (sigAwait 2 1) (fun x _ => ((FMap.get ⟨0, [], 0⟩ x.blk.barriers 2).phase).toNat ≤ (kget x.grp 1).toNat) :=
  ⟨met twoGroups (by decide +kernel) (by decide +kernel), met base (by decide +kernel) (by decide +kernel),
    met inFlight (by decide +kernel) (by decide +kernel), met inFlight (by decide +kernel) (by decide +kernel),
    met (withBlk fun b => { b with barriers := [(2, ⟨1, [], 1⟩)] }) (by decide +kernel) (by decide +kernel),
    met base (by decide +kernel) (by decide +kernel)⟩

theorem witness_ClusterBarrier :
    Met (sigCbar 3 none 0 0) (fun x s => ((fetchBlock State.reset).id = (if x.lrec.clm then (fetchBlock State.reset).id else x.g.blk) ∧
      blkOf s (fetchBlock State.reset).id = some (fetchBlock State.reset) ∧ (fetchBlock State.reset).launch = x.blk.launch ∧
      (fetchBlock State.reset).setId = x.blk.setId ∧ (fetchBlock State.reset).core = 0 * 16 + 0 ∧
      ∀ d ∈ s.blocks, d.launch = 1 → d.setId = 1 → d.core = 0 → d = fetchBlock State.reset) ∧ relReady x s = true ∧ x.ent.wait = .none) ∧
    Met (sigCbar 0 none 9 15) (fun x s => if x.lrec.clm then
      ∀ d ∈ s.blocks, d.launch = x.blk.launch → d.setId = x.blk.setId → d.core ≠ 9 * 16 + 15 else x.core ≠ 9 * 16 + 15) ∧
    Met (sigCbar 0 none 9 15) (fun x s => x.lrec.clm = true ∧
      ∀ d ∈ s.blocks, d.launch = x.blk.launch → d.setId = x.blk.setId → d.core ≠ 9 * 16 + 15) :=
  ⟨met base (by decide +kernel) (by decide +kernel), met base (by decide +kernel) (by decide +kernel),
    met (withLau fun l => { l with lrec := { l.lrec with clm := true } }) (by decide +kernel) (by decide +kernel)⟩

/-- A launch with one role that takes 16 extended registers. -/
def withRole (f : Group → Group) (p : Nat) : State := modBlk 1 (fun b => { b with pool := p }) (modGrp here f (withLau fun l =>
  { l with lrec := { l.lrec with nrole := 2, roles := [⟨0, 2, 0, 0⟩, ⟨4, 0, 0, 0⟩] } }))

theorem witness_RegisterPool :
    Met (sigXacq 1) (fun x _ => x.grp.ext ≠ 0) ∧ Met (sigXacq 0) (fun _ _ => (0 : Nat) = 0) ∧
    Met (sigXacq 1) (fun x _ => ¬ (1 = 0 ∨ 191 < 1 ∨ x.grp.ext ≠ 0 ∨ 1536 < baseRegs x.lrec + 8 * 1 ∨
      ((x.lrec.roles.take x.lrec.nrole).map fun r => 8 * r.xsz * (r.ghi + 1 - r.glo)).sum < 8 * 1)) ∧
    Met sigXrel (fun x _ => regsInUse x.grp (baseRegs x.lrec) (baseRegs x.lrec + x.grp.ext) = false) ∧
    Met sigXrel (fun x _ => regsInUse x.grp (baseRegs x.lrec) (baseRegs x.lrec + x.grp.ext) = true) ∧
    Met (sigRgive 191) (fun x _ => x.grp.ext < 8 * 191) ∧
    Met (sigRgive 188) (fun x _ => 0 < 188 ∧ 188 ≤ 191 ∧ 8 * 188 ≤ x.grp.ext ∧
      regsInUse x.grp (baseRegs x.lrec + x.grp.ext - 8 * 188) (baseRegs x.lrec + x.grp.ext) = false) ∧
    Met (sigRclaim false 5 192) (fun _ _ => 192 = 0 ∨ 191 < 192) ∧
    Met (sigRclaim false 5 1) (fun x _ => 0 < 1 ∧ 1 ≤ 191 ∧ 8 * 1 ≤ x.blk.pool ∧ x.blk.acqQueue = [] ∧
      baseRegs x.lrec + x.grp.ext + 8 * 1 ≤ 1536) ∧
    Met (sigRclaim false 5 191) (fun x _ => 0 < 191 ∧ 191 ≤ 191 ∧ (x.blk.pool < 8 * 191 ∨ x.blk.acqQueue ≠ [] ∨
      1536 < baseRegs x.lrec + x.grp.ext + 8 * 191)) :=
  ⟨met base (by decide +kernel) (by decide +kernel), met base (by decide +kernel) (by decide +kernel),
    met (withRole (fun g => { g with ext := 0 }) 16) (by decide +kernel) (by decide +kernel), met base (by decide +kernel) (by decide +kernel),
    met (withGrp fun g => { g with pend := [⟨40, 9⟩] }) (by decide +kernel) (by decide +kernel), met base (by decide +kernel) (by decide +kernel),
    met base (by decide +kernel) (by decide +kernel), met base (by decide +kernel) (by decide +kernel),
    met (withRole (fun g => { g with ext := 0 }) 16) (by decide +kernel) (by decide +kernel), met base (by decide +kernel) (by decide +kernel)⟩

/-- The group as a block's only waiter for 8 registers and a role. -/
def acquiring : Group := { fetchGroup State.reset with ext := 0, stack := [{ fetchEntry with wait := .xacq 1 (some 0) 5 }] }
def acquireBlock : Block := { fetchBlock State.reset with groups := [acquiring], pool := 8, acqQueue := [5] }
def acquireState : State := { withRole id 8 with blocks := [acquireBlock] }

theorem witness_RolesAndGrants :
    Met (sigRolesw 0) (fun x _ => 1 < x.grp.stack.length) ∧ Met (sigRolesw 3) (fun x _ => x.grp.stack.length ≤ 1 ∧ (4 ≤ 3 ∨ x.lrec.nrole ≤ 3)) ∧
    Met (sigRolesw 1) (fun x _ => x.grp.stack.length ≤ 1 ∧ 1 < 4 ∧ 1 < x.lrec.nrole ∧ x.grp.flights ≠ []) ∧
    (let quiet := fun (n : Nat) (x : Iss) (s : State) => x.grp.stack.length ≤ 1 ∧ n < 4 ∧ n < x.lrec.nrole ∧ x.grp.flights = [] ∧
      (∀ e ∈ s.eng.mops, ∀ o ∈ e.2, ¬ (o.g.blk = x.g.blk ∧ o.g.gid = x.g.gid)) ∧
      regsInUse x.grp (baseRegs x.lrec) (baseRegs x.lrec + x.grp.ext) = false
     Met (sigRolesw 1) (fun x s => quiet 1 x s ∧ ((x.lrec.roles[1]?).map (·.xsz)).getD 0 = 0) ∧
     Met (sigRolesw 0) (fun x s => quiet 0 x s ∧ ((x.lrec.roles[0]?).map (·.xsz)).getD 0 ≠ 0)) ∧
    ∃ l, blkOf acquireState acquireBlock.id = some acquireBlock ∧ launchOf acquireState acquireBlock.launch = some l ∧
      acquireBlock.acqQueue = [5] ∧ (∀ y ∈ acquireBlock.groups, ∀ u ∈ y.stack, asks 5 u.wait = true → y = acquiring) ∧ acquiring.ext = 0 ∧ grpIn acquireBlock acquiring.gid = some acquiring ∧
      acquiring.stack = [{ fetchEntry with wait := .xacq 1 (some 0) 5 }] ∧ 8 * 1 ≤ acquireBlock.pool ∧ acquireBlock.state = .resident :=
  ⟨met (withGrp fun g => { g with stack := [fetchEntry, fetchEntry] }) (by decide +kernel) (by decide +kernel),
    met base (by decide +kernel) (by decide +kernel),
    met (withRole (fun g => { g with flights := [⟨0, 5, false⟩] }) 8) (by decide +kernel) (by decide +kernel),
    ⟨met (withRole id 8) (by decide +kernel) (by decide +kernel), met (withRole id 8) (by decide +kernel) (by decide +kernel)⟩,
    (launchOf acquireState 1).getD (fetchLaunch base), by decide +kernel⟩

/-- The legal values and the others, by clause. -/
theorem witness_ControlRegisters :
    Met (sigSetfmt 1) (fun x _ => fmtLegal (kget x.grp 1)) ∧ Met (sigSetfmt 1) (fun x _ => ¬ fmtLegal (kget x.grp 1)) ∧
    fmtLegal ((0x800555 : W32).zeroExtend 64) ∧ ready (sigSetfmtImm 0x800555) base = true ∧ ¬ fmtLegal ((0 : W32).zeroExtend 64) ∧
    ready (sigSetfmtImm 0) base = true ∧ ready (sigGetfmt false 5) base = true ∧ (18 : Nat) ≤ 18 ∧ ready (sigCrd true 5 18) base = true ∧
    ready (sigClock false 5) base = true ∧ Met (sigCwr 0 1) (fun x _ => fmtLegal (kget x.grp 1)) ∧
    Met (sigCwr 0 1) (fun x _ => ¬ fmtLegal (kget x.grp 1)) ∧ Met (sigCwr 4 1) (fun x _ => (kget x.grp 1).toNat % 4 = 0) ∧
    Met (sigCwr 4 1) (fun x _ => (kget x.grp 1).toNat % 4 ≠ 0) ∧
    Met (sigCwr 5 1) (fun x _ => (kget x.grp 1).toNat % 64 = 0 ∧ (kget x.grp 1).toNat + 64 ≤ 256 * x.lrec.slab) ∧
    Met (sigCwr 5 1) (fun x _ => (kget x.grp 1).toNat % 64 ≠ 0) ∧
    Met (sigCwr 5 1) (fun x _ => (kget x.grp 1).toNat % 64 = 0 ∧ 256 * x.lrec.slab < (kget x.grp 1).toNat + 64) ∧
    Met (sigCwr 6 1) (fun x _ => x.grp.stack.length ≤ 16) ∧ Met (sigCwr 6 1) (fun x _ => 16 < x.grp.stack.length) ∧
    Met (sigCwr 9 1) (fun x _ => dsectlLegal (kget x.grp 1) ∧ x.grp.window = []) ∧ Met (sigCwr 9 1) (fun x _ => ¬ dsectlLegal (kget x.grp 1)) ∧
    18 ∉ [0, 4, 5, 6, 8, 9] ∧ ready (sigCwr 8 1) base = true ∧ ready (sigCwr 18 1) base = true := by
  refine ⟨met (kregs [(1, 0x8004D3)]) (by decide +kernel) ?_, met base (by decide +kernel) ?_, ?_, by decide +kernel, ?_, by decide +kernel,
    by decide +kernel, by decide, by decide +kernel, by decide +kernel, met (kregs [(1, 0x8004D3)]) (by decide +kernel) ?_,
    met base (by decide +kernel) ?_, met base (by decide +kernel) (by decide +kernel), met (kregs [(1, 3)]) (by decide +kernel) (by decide +kernel),
    met (kregs [(1, 262080)]) (by decide +kernel) (by decide +kernel), met (kregs [(1, 32)]) (by decide +kernel) (by decide +kernel),
    met (kregs [(1, 262144)]) (by decide +kernel) (by decide +kernel), met base (by decide +kernel) (by decide +kernel),
    met (withGrp fun g => { g with stack := List.replicate 17 fetchEntry }) (by decide +kernel) (by decide +kernel),
    met (kregs [(1, 0x4)]) (by decide +kernel) ?_, met (kregs [(1, 5)]) (by decide +kernel) ?_, by decide, by decide +kernel, by decide +kernel⟩ <;>
  first
    | (unfold fmtLegal; decide +kernel)
    | (unfold dsectlLegal; decide +kernel)


/-! ## Witnesses: memory instructions and their service -/

/-- No path of the group waits at all. -/
def nowait (x : Iss) : Bool := x.grp.stack.all fun e => e.wait == .none

theorem noAcquire_of {x : Iss} (h : nowait x = true) : noAcquire x := by
  intro e he
  have := (List.all_eq_true.1 h) e he
  simp only [beq_iff_eq] at this
  exact ⟨fun n => by rw [this]; simp, fun a b => by rw [this]; simp⟩

/-- A slab address held in k1, the same for every lane. -/
def at1 : Addr := .base 1 .zero 0

/-- `base` with a cluster store of the group to byte 8 of its own slab in flight. -/
def slabBusy : State := { base with eng := { base.eng with accs := [{ loadOf 9 with
  kind := .store, level := .c, target := 1, lanes := [⟨0, 8, 8, 128, false, 1, 0, .waiting, 0⟩] }] } }

/-- `base` with the first granule of the slab absent. -/
def slabGone : State := withBlk fun b => { b with absent := [.slab 0] }

theorem witness_SlabAccess : memTy (hdr .i8x4) ∧ memTy (hdr .b32) ∧
    (∀ g ∈ [sigLds (hdr .i8x4) (.reg 5) (.off .lane 3), sigSts (hdr .i8x4) (.off .lane 3) .lane], Met g fun x s =>
      (allActive x (fun l => ¬ Stmt.misaligned .i8x4 (ea (.off .lane 3) x l) ∧ ¬ beyondExtent .i8x4 (256 * x.lrec.slab) (ea (.off .lane 3) x l)) ∧ noAcquire x) ∧
        (allActive x fun l => slabWaits x.g x.g.blk (ea (.off .lane 3) x l).toNat 1 s.eng.accs = false) ∧ ∀ n, Granule.slab n ∉ x.blk.absent) ∧
    (∀ g ∈ [sigLds (hdr .i8x4) (.reg 5) (.off .lane 3), sigSts (hdr .i8x4) (.off .lane 3) .lane], Met g fun x s =>
      (allActive x (fun l => ¬ Stmt.misaligned .i8x4 (ea (.off .lane 3) x l) ∧ ¬ beyondExtent .i8x4 (256 * x.lrec.slab) (ea (.off .lane 3) x l)) ∧ noAcquire x) ∧
        (allActive x fun l => slabWaits x.g x.g.blk (ea (.off .lane 3) x l).toNat 1 s.eng.accs = false) ∧ x.blk.state ≠ .halted ∧
        ∃ n j, Granule.slab n ∈ x.blk.absent ∧ j < 64 ∧ laneOn x.mask j = true ∧ 2048 * n < (ea (.off .lane 3) x j).toNat + 1 ∧
          (ea (.off .lane 3) x j).toNat < 2048 * n + 2048) ∧
    (∀ g ∈ [sigLds (hdr .i8x4) (.reg 5) (.off .lane 3), sigSts (hdr .i8x4) (.off .lane 3) .lane], Met g fun x s =>
      (allActive x (fun l => ¬ Stmt.misaligned .i8x4 (ea (.off .lane 3) x l) ∧ ¬ beyondExtent .i8x4 (256 * x.lrec.slab) (ea (.off .lane 3) x l)) ∧ noAcquire x) ∧
        ¬ allActive x fun l => slabWaits x.g x.g.blk (ea (.off .lane 3) x l).toNat 1 s.eng.accs = false) ∧
    (∀ g ∈ [sigLdl (hdr .n64) (.reg 6) at1, sigStl (hdr .n64) at1 (.reg 6)], Met g fun x _ =>
      (allActive x (fun l => ¬ Stmt.misaligned .n64 (ea at1 x l) ∧ ¬ beyondExtent .n64 (16 * x.lrec.lpriv) (ea at1 x l)) ∧ noAcquire x) ∧
        ∀ n, Granule.slab n ∉ x.blk.absent) ∧
    (∀ g ∈ [sigLds (hdr .b32) (.reg 5) (.off .lane 0), sigLdl (hdr .b32) (.reg 5) (.off .lane 0), sigSts (hdr .b32) (.off .lane 0) .lane,
      sigStl (hdr .b32) (.off .lane 0) .lane], Met g fun x _ => lowest x (fun l => Stmt.misaligned .b32 (ea (.off .lane 0) x l)) 1) ∧
    (∀ g ∈ [sigLds (hdr .b32) (.reg 5) at1, sigSts (hdr .b32) at1 .lane], Met g fun x _ =>
      (allActive x fun l => ¬ Stmt.misaligned .b32 (ea at1 x l)) ∧ lowest x (fun l => beyondExtent .b32 (256 * x.lrec.slab) (ea at1 x l)) 0) ∧
    (∀ g ∈ [sigLdl (hdr .b32) (.reg 5) at1, sigStl (hdr .b32) at1 .lane], Met g fun x _ =>
      (allActive x fun l => ¬ Stmt.misaligned .b32 (ea at1 x l)) ∧ lowest x (fun l => beyondExtent .b32 (16 * x.lrec.lpriv) (ea at1 x l)) 0) := by
  have none (s : State) (g : Sig) (h : (view g s).blk.absent = []) : ∀ n, Granule.slab n ∉ (view g s).blk.absent := by simp [h]
  refine ⟨by unfold memTy; decide, by unfold memTy; decide, ?_, ?_, ?_, ?_, ?_, ?_, ?_⟩ <;>
    simp only [List.forall_mem_cons, List.not_mem_nil, false_implies, implies_true, and_true]
  · refine ⟨met base (by decide +kernel) ⟨⟨?_, noAcquire_of (by decide +kernel)⟩, fun _ _ _ => rfl, none _ _ (by decide +kernel)⟩,
      met base (by decide +kernel) ⟨⟨?_, noAcquire_of (by decide +kernel)⟩, fun _ _ _ => rfl, none _ _ (by decide +kernel)⟩⟩ <;>
    · unfold allActive Stmt.misaligned beyondExtent; decide +kernel
  · refine ⟨met slabGone (by decide +kernel) ⟨⟨?_, noAcquire_of (by decide +kernel)⟩, fun _ _ _ => rfl, by decide +kernel, 0, 5, by decide +kernel⟩,
      met slabGone (by decide +kernel) ⟨⟨?_, noAcquire_of (by decide +kernel)⟩, fun _ _ _ => rfl, by decide +kernel, 0, 5, by decide +kernel⟩⟩ <;>
    · unfold allActive Stmt.misaligned beyondExtent; decide +kernel
  · refine ⟨met slabBusy (by decide +kernel) ⟨⟨?_, noAcquire_of (by decide +kernel)⟩, fun h => absurd (h 5 (by decide) (by decide +kernel)) (by decide +kernel)⟩,
      met slabBusy (by decide +kernel) ⟨⟨?_, noAcquire_of (by decide +kernel)⟩, fun h => absurd (h 5 (by decide) (by decide +kernel)) (by decide +kernel)⟩⟩ <;>
    · unfold allActive Stmt.misaligned beyondExtent; decide +kernel
  · refine ⟨met (kregs [(1, 248)]) (by decide +kernel) ⟨⟨?_, noAcquire_of (by decide +kernel)⟩, none _ _ (by decide +kernel)⟩,
      met (kregs [(1, 248)]) (by decide +kernel) ⟨⟨?_, noAcquire_of (by decide +kernel)⟩, none _ _ (by decide +kernel)⟩⟩ <;>
    · unfold allActive Stmt.misaligned beyondExtent; decide +kernel
  · refine ⟨met base (by decide +kernel) ?_, met base (by decide +kernel) ?_, met base (by decide +kernel) ?_, met base (by decide +kernel) ?_⟩ <;>
    · unfold lowest Stmt.misaligned; decide +kernel
  · refine ⟨met (kregs [(1, 262144)]) (by decide +kernel) ?_, met (kregs [(1, 262144)]) (by decide +kernel) ?_⟩ <;>
    · unfold allActive lowest Stmt.misaligned beyondExtent; decide +kernel
  · refine ⟨met (kregs [(1, 256)]) (by decide +kernel) ?_, met (kregs [(1, 256)]) (by decide +kernel) ?_⟩ <;>
    · unfold allActive lowest Stmt.misaligned beyondExtent; decide +kernel

/-- The state after the lanes' translation, where every lane is mapped to its place in a grain of 128 bytes. -/
def mapped (pl : Nat → Nat) : Lanes → Option State
  | .ok ts bad s => if bad.isEmpty && ts.all (fun q => q.2.2.1 == pl q.1 && q.2.2.2.grain == 128) then some s else none
  | _ => none

theorem mapsTo_of {x : Iss} {acc : AccType} {addr : Nat → W64} {pl : Nat → Nat} {s s' : State}
    (h : mapped pl (xlatLanes x.core x.ctx acc ((lanes.filter fun l => laneOn x.mask l).map fun l => (l, addr l)) s) = some s') :
    mapsTo x acc addr pl (fun _ => 128) s s' := by
  unfold mapsTo
  revert h
  cases xlatLanes x.core x.ctx acc ((lanes.filter fun l => laneOn x.mask l).map fun l => (l, addr l)) s with
  | ok ts bad s1 =>
    intro h
    simp only [mapped, Option.ite_none_right_eq_some, Bool.and_eq_true, List.isEmpty_iff, Option.some.injEq] at h
    obtain ⟨⟨rfl, h⟩, rfl⟩ := h
    refine ⟨ts, rfl, fun q hq => ?_⟩
    simpa using (List.all_eq_true.1 h) q hq
  | fault p s' => intro h; simp [mapped] at h
  | wait => intro h; simp [mapped] at h

/-- A copy of the grain at 0x10000 in core 0's L1. -/
def copyAt (st : LSt) : Copy := ⟨0, 0x10000, 128, 1, 0, st, .uncl, List.replicate 128 0xA5, 0, false, []⟩

/-- `base` with k1 the address 64 bytes into its mapped page, and perhaps a copy of its grain. -/
def global (cs : List Copy) : State := { kregs [(1, 0x10040)] with coh := { Coh.reset with l1 := cs } }
/-- The place of every lane there. -/
def place1 (_ : Nat) : Nat := 0x10040

/-- The hypotheses of `GlobalAccess`, its lanes in grains of 128 bytes. -/
def goodAt (h : Hdr) (g : Sig) (path : Nat) (acc : AccType) (s' : State) (x : Iss) (s : State) : Prop :=
  allActive x (fun l => ¬ Stmt.misaligned h.ty (ea at1 x l) ∧ canonical (ea at1 x l) = true) ∧
    mayStart h path 0 x s ∧ mapsTo x acc (ea at1 x) place1 (fun _ => 128) (advance g x s) s' ∧ accNumbers s ∧ copiesOk s' ∧
    oneSize x place1 (fun _ => 128) ∧ x.grp.exited = false

theorem goodOf (cs : List Copy) (h : Hdr) (g : Sig) (path : Nat) (acc : AccType) (r : ready g (global cs) = true)
    (c : (mapped place1 (xlatLanes (view g (global cs)).core (view g (global cs)).ctx acc
      ((lanes.filter fun l => laneOn (view g (global cs)).mask l).map fun l => (l, ea at1 (view g (global cs)) l)) (advance g (view g (global cs)) (global cs)))).map
        (fun s => (s.coh.l1, s.eng.accs)) = some (cs, []))
    (a : lanes.all (fun l => (ea at1 (view g (global cs)) l).toNat % widthOf h.ty == 0 && canonical (ea at1 (view g (global cs)) l)) = true)
    (n : nowait (view g (global cs)) = true) (k : (view g (global cs)).grp.flights.length = 0) (q : (view g (global cs)).grp.exited = false)
    (m : h.mod = 3) (o : cs = [] ∨ ∃ st, cs = [copyAt st]) :
    ∃ s', Met g (fun x s => goodAt h g path acc s' x s ∧ alone x s') ∧ s'.coh.l1 = cs := by
  obtain ⟨s', hs, e⟩ := Option.map_eq_some_iff.1 c
  simp only [Prod.mk.injEq] at e
  obtain ⟨e, e2⟩ := e
  refine ⟨s', met (global cs) r ⟨⟨fun l hl _ => ?_, ⟨noAcquire_of n, ?_, fun _ => rfl, fun h4 => ?_, .inl (by decide)⟩, mapsTo_of hs, ?_, ?_, fun _ _ _ _ _ _ _ => rfl, q⟩, ?_⟩, e⟩
  · have hm : l ∈ lanes := by simp only [lanes]; exact List.mem_range.2 hl
    have := (List.all_eq_true.1 a) l hm
    simp only [Bool.and_eq_true, beq_iff_eq] at this
    exact ⟨fun h => h this.1, this.2⟩
  · have : (view g (global cs)).grp.flights = [] := List.length_eq_zero_iff.1 k
    simp [cnt, this]
  · omega
  · intro b hb
    simp [global, kregs, withGrp, modGrp, modBlk, base, State.withFetchWord, State.reset, Eng.reset, memWrite] at hb
  · rw [copiesOk, e]
    rcases o with rfl | ⟨st, rfl⟩ <;> simp [copyAt]
  · intro b hb
    simp [e2] at hb

/-- A header that makes an access acquire and release. -/
def acqrel (t : Ty) : Hdr := ⟨3, t, 0, false, 0⟩

/-- The global accesses at k1, with what they do to memory. -/
def globals (h : Hdr) : List Sig := [sigLdg h (.reg 6) at1 0, sigAtom h (.reg 6) at1 (.reg 8) 0 0, sigAtomc h (.reg 6) at1 (.reg 8) (.reg 10) 0,
  sigStg h at1 (.reg 8) 0, sigRed h at1 (.reg 8) 0 0, sigAtoms h at1 (.reg 8) 0]

/-- `base` whose context is not enabled, so that no page is mapped. -/
def unmapped : State := { global [] with ctxs := [{ fetchCtx with en := false }] }

/-- Reads, atomics and writes with every lane mapped, the L1 without the grain and with it in E and in M; a lane that faults, is misaligned or not
canonical, and a scope that is not allowed. -/
theorem witness_GlobalAccess : (memTy (hdr .i8x4) ∨ (hdr .f32).ty = .f32) ∧
    (∀ p ∈ [(AccType.read, 0), (.atomic, 0), (.write, 1), (.atomic, 1)], ∀ cs ∈ [[], [copyAt .e], [copyAt .m]], ∀ g ∈ globals (acqrel .b32),
      ∃ s', Met g (fun x s => goodAt (acqrel .b32) g p.2 p.1 s' x s ∧ alone x s') ∧ s'.coh.l1 = cs) ∧
    (∀ p ∈ [(AccType.read, 0), (.write, 1), (.atomic, 0), (.atomic, 1)], ∀ g ∈ globals (hdr .b32), ∃ s', Met g fun x s =>
      allActive x (fun l => ¬ Stmt.misaligned .b32 (ea at1 x l) ∧ canonical (ea at1 x l) = true) ∧
        mayStart (hdr .b32) p.2 0 x s ∧ faultsAt x p.1 (ea at1 x) 0 0 (advance g x s) s') ∧
    (∀ g ∈ globals (hdr .b32), Met g (fun x s => (5 ≤ 3 ∨ 5 ≤ maxScope s x.vf) ∧ lowest x (fun l => Stmt.misaligned .b32 (ea at1 x l)) 0) ∧
      Met g (fun x s => (0 ≤ 3 ∨ 0 ≤ maxScope s x.vf) ∧ (allActive x fun l => ¬ Stmt.misaligned .b32 (ea at1 x l)) ∧
        lowest x (fun l => canonical (ea at1 x l) = false) 0) ∧
      Met g fun x s => 4 ≤ 7 ∧ maxScope s x.vf < 7) := by
  refine ⟨.inl (by unfold memTy; decide), ?_, ?_, ?_⟩
  · intro p hp cs hc g hg
    have o : cs = [] ∨ ∃ st, cs = [copyAt st] := by
      simp only [List.mem_cons, List.not_mem_nil, or_false] at hc
      rcases hc with rfl | rfl | rfl
      · exact .inl rfl
      all_goals exact .inr ⟨_, rfl⟩
    refine goodOf cs (acqrel .b32) g p.2 p.1 ?_ ?_ ?_ ?_ ?_ ?_ rfl o <;> clear o <;> revert p cs g <;> decide +kernel
  · intro p hp g hg
    refine ⟨advance g (view g unmapped) unmapped, met unmapped ?_ ⟨?_, ⟨noAcquire_of ?_, ?_, ?_, ?_, .inl (by decide)⟩, by decide, ?_, [], [], advance g (view g unmapped) unmapped, ?_, ?_⟩⟩
    all_goals (try unfold allActive Stmt.misaligned)
    all_goals first | (revert p g; decide +kernel) | simp [xlatLanes]
  · simp only [globals, List.forall_mem_cons, List.not_mem_nil, false_implies, implies_true, and_true]
    refine ⟨⟨?_, ?_, ?_⟩, ⟨?_, ?_, ?_⟩, ⟨?_, ?_, ?_⟩, ⟨?_, ?_, ?_⟩, ⟨?_, ?_, ?_⟩, ⟨?_, ?_, ?_⟩⟩ <;>
      first
        | (refine met (kregs [(1, 0x10041)]) (by decide +kernel) ?_; unfold lowest Stmt.misaligned; decide +kernel)
        | (refine met (kregs [(1, 0x800000000000)]) (by decide +kernel) ?_; unfold allActive lowest Stmt.misaligned; decide +kernel)
        | exact met base (by decide +kernel) (by decide +kernel)

/-- A lane of an access to the byte `pa` in a 128-byte grain. -/
def laneAt (l pa : Nat) (b : W64) : LaneAcc := ⟨l, BitVec.ofNat 64 pa, pa, 128, false, b, 0, .waiting, 0⟩
/-- A 32-bit access of group 0 of block 1 with two lanes that name the same place. -/
def accAt (k : AccKind) (lv : Level) (pa : Nat) : Access :=
  { id := 7, g := here, core := 0, ctx := 1, vf := 0, kind := k, level := lv, ty := .b32, aop := 0, dst := some 4, target := 1,
    lanes := [laneAt 3 pa 9, laneAt 5 pa 8], tags := [], naks := [], pc := 0, mask := 0x28, chained := false, chainPc := 0, returned := false }
/-- `base` with an access in flight and copies. -/
def flying (a : Access) (cs : List Copy) : State :=
  { withGrp (fun g => { g with flights := [⟨0, 7, false⟩], pend := [⟨4, 7⟩] }) with
    eng := { Eng.reset with accs := [a] }, coh := { Coh.reset with l1 := cs } }

/-- A load that finds its grain shared, and an add that finds it exclusive. -/
theorem witness_GrainPerformed : ∀ e ∈ [(AccKind.load, LSt.s), (.red, .e), (.store, .m)],
    ∃ s a c rest, (a : Access).kind = e.1 ∧ (c : Copy).st = e.2 ∧
    (s : State).eng.accs = a :: rest ∧ a.level = .g ∧ a.kind ≠ .pref ∧ a.kind ≠ .atoms ∧ a.returned = false ∧ a.ty.width = 8 * widthOf a.ty ∧
    (a.lanes.map (·.lane)).Nodup ∧ (∀ b ∈ rest, b.id ≠ a.id) ∧ (∀ l ∈ a.lanes, l.st = .waiting) ∧
    s.coh.l1.find? (fun e => e.agent == a.core && overlap e.pa e.gsz c.pa c.gsz) = some c ∧ c.agent = a.core ∧ c.ctx = a.ctx ∧
    c.data.length = c.gsz ∧ 0 < c.gsz ∧ c.pa % c.gsz = 0 ∧ c.staged = [] ∧ (a.kind = .load ∨ c.st = .e ∨ c.st = .m) ∧
    (∀ l ∈ a.lanes, l.gsz = c.gsz ∧ c.pa ≤ l.pa ∧ l.pa + widthOf a.ty ≤ c.pa + c.gsz) ∧ a.lanes ≠ [] := by
  intro e he
  refine ⟨flying (accAt e.1 .g 0x1007C) [copyAt e.2], accAt e.1 .g 0x1007C, copyAt e.2, [], rfl, rfl, ?_⟩
  revert e
  decide +kernel

/-- A load that returns with one lane performed, and with a lane met by an error, and by a refusal. -/
theorem witness_AccessReturns : ∀ n ∈ [[], [([5], { homeMsg 0x10000 128 with reason := 0 })], [([5], { homeMsg 0x10000 128 with reason := 2 })]],
    ∃ s a g b, accOf s (a : Access).id = some a ∧ blkOf s a.g.blk = some b ∧ grpIn b a.g.gid = some g ∧
    g.exited = false ∧ b.absent = [] ∧ a.naks = n ∧ (∀ c ∈ s.ctxs, c.cst ≠ 3) ∧ (a.lanes.map (·.lane)).Nodup ∧ (∀ l ∈ a.lanes, l.lane < 64) ∧ a.dst = some 4 ∧
    (a.lanes.find? (fun y => y.lane == 5)).isSome = true ∧ ∃ l ∈ a.lanes, l.st = .performed ∧ l.lane = 3 := by
  intro n hn
  let a : Access := { accAt .load .g 0x10000 with naks := n, lanes := [{ laneAt 3 0x10000 0 with st := .performed, val := 6 }, laneAt 5 0x10000 0] }
  refine ⟨flying a [], a, (grpOf (flying a []) here).getD (fetchGroup base), (blkOf (flying a []) 1).getD (fetchBlock base), ?_⟩
  revert n; decide +kernel

/-- `base` with k1 an offset that lane numbers are not added to. -/
theorem goodSlab (h : Hdr) (g : Sig) (s : State) (ext : Iss → State → Nat) (ad : Iss → Nat → W64) (r : ready g s = true)
    (a : lanes.all (fun l => (ad (view g s) l).toNat % widthOf h.ty == 0 && decide ((ad (view g s) l).toNat + widthOf h.ty ≤ ext (view g s) s)) = true)
    (n : nowait (view g s) = true) (k : (view g s).grp.flights.length = 0) (q : (view g s).grp.exited = false) (m : h.mod = 3) (e : s.eng.accs = [])
    (v : (lanes.any fun l => laneOn (view g s).mask l) = true) :
    Met g fun x s => (allActive x (fun l => ¬ Stmt.misaligned h.ty (ad x l) ∧ ¬ beyondExtent h.ty (ext x s) (ad x l)) ∧ mayStart h 2 0 x s ∧ accNumbers s ∧
      x.grp.exited = false) ∧ ∃ l, l < 64 ∧ laneOn x.mask l = true := by
  refine met s r ⟨⟨fun l hl _ => ?_, ⟨noAcquire_of n, ?_, fun _ => ?_, fun h4 => ?_, .inl (by decide)⟩, fun b hb => ?_, q⟩, ?_⟩
  · have hm : l ∈ lanes := by simp only [lanes]; exact List.mem_range.2 hl
    have := (List.all_eq_true.1 a) l hm
    simp only [Bool.and_eq_true, beq_iff_eq, decide_eq_true_eq] at this
    exact ⟨fun h => h this.1, by unfold beyondExtent; omega⟩
  · have : (view g s).grp.flights = [] := List.length_eq_zero_iff.1 k
    simp [cnt, this]
  · simp [relReady, e]
  · omega
  · simp [e] at hb
  · obtain ⟨l, hl, hv⟩ := List.any_eq_true.1 v
    exact ⟨l, by simpa [lanes] using hl, hv⟩

/-- The window of the reset pad, and the slab of core 0 or none. -/
def windowOf (x : Iss) (s : State) : Nat := (((ctxOf s x.ctx).map fun c => (c.padBase * 4096, min (c.padLim * 4096) (96 * 2 ^ 20 - c.padBase * 4096))).getD (0, 0)).2
def slabOf (rank file : Nat) (x : Iss) (s : State) : Nat :=
  if (if x.lrec.clm then (s.blocks.filter fun c => c.launch == x.blk.launch && c.setId == x.blk.setId && c.core == rank * 16 + file).head?
    else if x.core = rank * 16 + file then some x.blk else none).isSome then 256 * x.lrec.slab else 0

theorem witness_ClusterAndPad :
    (∀ g ∈ [sigLdc (acqrel .b32) (.reg 6) (.k 1) 0 0 0 0, sigStc (acqrel .b32) (.k 1) 0 0 0 .lane 0], Met g fun x s =>
      (allActive x (fun l => ¬ Stmt.misaligned .b32 (eaCore (.k 1) 0 x l) ∧ ¬ beyondExtent .b32 (slabOf 0 0 x s) (eaCore (.k 1) 0 x l)) ∧
        mayStart (acqrel .b32) 2 0 x s ∧ accNumbers s ∧ x.grp.exited = false) ∧ ∃ l, l < 64 ∧ laneOn x.mask l = true) ∧
    (∀ g ∈ [sigLdd (acqrel .b32) (.reg 6) at1 0, sigStd (acqrel .b32) at1 .lane 0], Met g fun x s =>
      (allActive x (fun l => ¬ Stmt.misaligned .b32 (ea at1 x l) ∧ ¬ beyondExtent .b32 (windowOf x s) (ea at1 x l)) ∧
        mayStart (acqrel .b32) 2 0 x s ∧ accNumbers s ∧ x.grp.exited = false) ∧ ∃ l, l < 64 ∧ laneOn x.mask l = true) ∧
    (∀ g ∈ [sigLdc (hdr .b32) (.reg 6) (.k 1) 1 0 0 0, sigStc (hdr .b32) (.k 1) 1 0 0 .lane 0], Met g fun x s =>
      (0 ≤ 3 ∨ 0 ≤ maxScope s x.vf) ∧ lowest x (fun l => Stmt.misaligned .b32 (eaCore (.k 1) 1 x l)) 0) ∧
    (∀ g ∈ [sigLdc (hdr .b32) (.reg 6) (.k 1) 0 9 15 0, sigStc (hdr .b32) (.k 1) 0 9 15 .lane 0], Met g fun x s => (0 ≤ 3 ∨ 0 ≤ maxScope s x.vf) ∧
      (allActive x fun l => ¬ Stmt.misaligned .b32 (eaCore (.k 1) 0 x l)) ∧
      lowest x (fun l => beyondExtent .b32 (slabOf 9 15 x s) (eaCore (.k 1) 0 x l)) 0) ∧
    (∀ g ∈ [sigLdd (hdr .b32) (.reg 6) (.off .lane 0) 0, sigStd (hdr .b32) (.off .lane 0) .lane 0], Met g fun x s =>
      (0 ≤ 3 ∨ 0 ≤ maxScope s x.vf) ∧ lowest x (fun l => Stmt.misaligned .b32 (ea (.off .lane 0) x l)) 1) ∧
    (∀ g ∈ [sigLdd (hdr .b32) (.reg 6) at1 0, sigStd (hdr .b32) at1 .lane 0], Met g fun x s => (0 ≤ 3 ∨ 0 ≤ maxScope s x.vf) ∧
      (allActive x fun l => ¬ Stmt.misaligned .b32 (ea at1 x l)) ∧ lowest x (fun l => beyondExtent .b32 (windowOf x s) (ea at1 x l)) 0) := by
  refine ⟨?_, ?_, ?_, ?_, ?_, ?_⟩ <;> simp only [List.forall_mem_cons, List.not_mem_nil, false_implies, implies_true, and_true]
  · exact ⟨goodSlab (acqrel .b32) _ (kregs [(1, 262140)]) (slabOf 0 0) (eaCore (.k 1) 0) (by decide +kernel) (by decide +kernel) (by decide +kernel)
      (by decide +kernel) (by decide +kernel) rfl (by decide +kernel) (by decide +kernel),
      goodSlab (acqrel .b32) _ (kregs [(1, 262140)]) (slabOf 0 0) (eaCore (.k 1) 0) (by decide +kernel) (by decide +kernel) (by decide +kernel)
      (by decide +kernel) (by decide +kernel) rfl (by decide +kernel) (by decide +kernel)⟩
  · exact ⟨goodSlab (acqrel .b32) _ (kregs [(1, 100663292)]) windowOf (ea at1) (by decide +kernel) (by decide +kernel) (by decide +kernel)
      (by decide +kernel) (by decide +kernel) rfl (by decide +kernel) (by decide +kernel),
      goodSlab (acqrel .b32) _ (kregs [(1, 100663292)]) windowOf (ea at1) (by decide +kernel) (by decide +kernel) (by decide +kernel)
      (by decide +kernel) (by decide +kernel) rfl (by decide +kernel) (by decide +kernel)⟩
  · refine ⟨met base (by decide +kernel) ?_, met base (by decide +kernel) ?_⟩ <;> (unfold lowest Stmt.misaligned; decide +kernel)
  · refine ⟨met base (by decide +kernel) ?_, met base (by decide +kernel) ?_⟩ <;>
      (unfold allActive lowest Stmt.misaligned beyondExtent; decide +kernel)
  · refine ⟨met base (by decide +kernel) ?_, met base (by decide +kernel) ?_⟩ <;> (unfold lowest Stmt.misaligned; decide +kernel)
  · refine ⟨met (kregs [(1, 100663296)]) (by decide +kernel) ?_, met (kregs [(1, 100663296)]) (by decide +kernel) ?_⟩ <;>
      (unfold allActive lowest Stmt.misaligned beyondExtent; decide +kernel)

theorem witness_SlabAndPadService : ∀ e ∈ [(AccKind.load, Level.c), (.store, .c), (.load, .d), (.store, .d)], ∃ s a, (a : Access).level = e.2 ∧
    (s : State).eng.accs = [a] ∧ (∀ b ∈ s.blocks, b.absent = []) ∧ (∀ l ∈ a.lanes, padBase ≤ l.pa) ∧ (a.kind = .load ∨ a.kind = .store) ∧ (∀ l ∈ a.lanes, l.st = .waiting) ∧ a.ty.width = 8 * widthOf a.ty ∧
    a.returned = false ∧ (a.lanes.map (·.lane)).Nodup ∧ (blkOf s a.target).isSome = true ∧ ∀ l ∈ a.lanes, sliceOf l.pa = sliceOf (padBase + 512) := by
  intro e he
  refine ⟨flying (accAt e.1 e.2 (padBase + 512)) [], accAt e.1 e.2 (padBase + 512), rfl, ?_⟩
  revert e
  decide +kernel

/-- `base` with a load of the group that has returned and whose error is still to be reported. -/
def nakked : State := flying { accAt .load .g 0x10000 with naks := [([3], homeMsg 0x10000 128)], returned := true } []

theorem witness_FencesAndWaits :
    let own := fun (x : Iss) (a : Access) => a.g.blk = x.g.blk ∧ a.g.gid = x.g.gid ∧ a.kind ≠ .pref ∧ (a.returned = false ∨ a.naks ≠ [])
    Met (sigFence true 0 0 3) (fun x s => (3 ≤ 3 ∨ 3 ≤ maxScope s x.vf) ∧ nowait x = true ∧ s.eng.accs = [] ∧ copyOut x s = false ∧ moveOut x s = false) ∧
    Met (sigFence false 0 1 3) (fun x _ => nowait x = true ∧ (0 = 0 ∨ 1 = 0)) ∧
    Met (sigFence false 2 1 3) (fun x s => nowait x = true ∧ ∃ a ∈ s.eng.accs, own x a ∧ a.kind ∈ [.store, .atom, .atomc, .red, .atoms]) ∧
    Met (sigFence true 0 0 3) (fun x s => nowait x = true ∧ ∃ a ∈ s.eng.accs, own x a ∧ a.returned = true) ∧
    Met (sigFence true 0 0 3) (fun x _ => ∃ e ∈ x.grp.stack, e.wait = .access 7) ∧
    Met (sigFence true 0 0 7) (fun x s => 4 ≤ 7 ∧ maxScope s x.vf < 7) ∧
    Met (sigWaitp 3 1) (fun x _ => cnt x.grp 3 ≤ (kget x.grp 1).toNat) ∧ Met (sigWaitp 3 1) (fun x _ => (kget x.grp 1).toNat < cnt x.grp 3) ∧
    ready sigOfence base = true := by
  refine ⟨met base (by decide +kernel) (by decide +kernel), met base (by decide +kernel) (by decide +kernel),
    met (flying (accAt .store .g 0x10000) []) (by decide +kernel) (by decide +kernel), met nakked (by decide +kernel) (by decide +kernel),
    met (withGrp fun g => { g with stack := [fetchEntry, { fetchEntry with wait := .access 7 }] }) (by decide +kernel) (by decide +kernel),
    met base (by decide +kernel) (by decide +kernel), met base (by decide +kernel) (by decide +kernel),
    met (withGrp fun g => { g with flights := [⟨3, 5, false⟩] }) (by decide +kernel) (by decide +kernel), by decide +kernel⟩

/-- One active lane, whose address is in the mapped page, and perhaps a copy of its grain. -/
def oneLane (cs : List Copy) : State :=
  { withGrp (fun g => kset 1 0x10044 { g with stack := [{ fetchEntry with mask := 1#64 <<< 5 }] }) with coh := { Coh.reset with l1 := cs } }

theorem translate_ok (g : Sig) (s : State) (h : (translate (.core (view g s).core) (view g s).ctx .read (ea at1 (view g s) 5) (advance g (view g s) s)) =
    (.ok 0x10044 fetchLeaf, advance g (view g s) s)) (r : ready g s = true) (n : nowait (view g s) = true)
    (c : decide ((view g s).mask = 1#64 <<< 5 ∧ (ea at1 (view g s) 5).toNat % 4 = 0 ∧ canonical (ea at1 (view g s) 5) = true ∧
      pendOf s (view g s).core 0x10044 1 = none) = true) (P : Iss → State → Prop) (p : P (view g s) s) :
    Met g fun x s => (x.mask = 1#64 <<< 5 ∧ 5 < 64 ∧ noAcquire x ∧ (ea at1 x 5).toNat % 4 = 0 ∧ canonical (ea at1 x 5) = true ∧
      translate (.core x.core) x.ctx .read (ea at1 x 5) (advance g x s) = (.ok 0x10044 fetchLeaf, advance g x s) ∧ pendOf s x.core 0x10044 1 = none ∧
      fetchLeaf.grain > 0) ∧ P x s := by
  obtain ⟨c1, c2, c3, c4⟩ := of_decide_eq_true c
  exact met s r ⟨⟨c1, by decide, noAcquire_of n, c2, c3, h, c4, by decide⟩, p⟩

/-- `oneLane` whose page is not in the TLB, the home of its page table being halted. -/
def awayFrom : State := { oneLane [] with tlbs := [], pkg := { base.pkg with haltDies := 1 } }

/-- A copy in each state for cinv and cflush, no copy for pref; every lane left out. -/
theorem witness_CacheOperations : (hdr .b32).ty = .b32 ∧
    (∀ g ∈ [sigCinv (hdr .b32) at1, sigCflush (hdr .b32) at1], Met g fun x _ =>
      (allActive x (fun l => (ea at1 x l).toNat % 4 ≠ 0 ∨ canonical (ea at1 x l) = false) ∧ noAcquire x) ∧ x.ent.reissue = none) ∧
    (∀ st ∈ [LSt.s, .t, .e, .m, .o], ∀ g ∈ [sigCinv (hdr .b32) at1, sigCflush (hdr .b32) at1], ready g (oneLane [copyAt st]) = true ∧
      copyOf (oneLane [copyAt st]) (view g (oneLane [copyAt st])).core 0x10044 1 = some (copyAt st) ∧
      pendOf (oneLane [copyAt st]) (view g (oneLane [copyAt st])).core 0x10000 128 = none ∧
      translate (.core (view g (oneLane [copyAt st])).core) (view g (oneLane [copyAt st])).ctx .read (ea at1 (view g (oneLane [copyAt st])) 5)
        (advance g (view g (oneLane [copyAt st])) (oneLane [copyAt st])) = (.ok 0x10044 fetchLeaf, advance g (view g (oneLane [copyAt st])) (oneLane [copyAt st]))) ∧
    Met (sigPref (hdr .b32) at1) (fun x s => (x.mask = 1#64 <<< 5 ∧ 5 < 64 ∧ noAcquire x ∧ (ea at1 x 5).toNat % 4 = 0 ∧ canonical (ea at1 x 5) = true ∧
      translate (.core x.core) x.ctx .read (ea at1 x 5) (advance (sigPref (hdr .b32) at1) x s) = (.ok 0x10044 fetchLeaf, advance (sigPref (hdr .b32) at1) x s) ∧
      pendOf s x.core 0x10044 1 = none ∧ fetchLeaf.grain > 0) ∧ s.eng.accs = [] ∧ copyOf s x.core 0x10000 128 = none ∧
      wbufOf s x.core 0x10000 128 = none ∧ pendOf s x.core 0x10000 128 = none ∧ uncachedBy s x.core 0x10000 128 = false ∧
      tagBusy s x.core 0x10000 128 x.ctx = false) ∧
    (∀ g ∈ [sigCinv (hdr .b32) at1, sigCflush (hdr .b32) at1, sigPref (hdr .b32) at1], Met g fun x s => x.mask = 1#64 <<< 5 ∧ 5 < 64 ∧
      (ea at1 x 5).toNat % 4 = 0 ∧ canonical (ea at1 x 5) = true ∧ (translate (.core x.core) x.ctx .read (ea at1 x 5) (advance g x s)).1 = .wait) := by
  refine ⟨rfl, ?_, by decide +kernel, translate_ok _ (oneLane []) (by decide +kernel) (by decide +kernel) (by decide +kernel) (by decide +kernel) _
    (by decide +kernel), ?_⟩ <;>
  simp only [List.forall_mem_cons, List.not_mem_nil, false_implies, implies_true, and_true]
  · refine ⟨met (kregs [(1, 0x800000000000)]) (by decide +kernel) ⟨⟨?_, noAcquire_of (by decide +kernel)⟩, by decide +kernel⟩,
      met (kregs [(1, 0x10001)]) (by decide +kernel) ⟨⟨?_, noAcquire_of (by decide +kernel)⟩, by decide +kernel⟩⟩ <;>
    (unfold allActive; decide +kernel)
  · exact ⟨met awayFrom (by decide +kernel) (by decide +kernel), met awayFrom (by decide +kernel) (by decide +kernel),
      met awayFrom (by decide +kernel) (by decide +kernel)⟩

/-! ## Witnesses: copy engines and base-die commands

`nowait` is decidable and implies `noAcquire` (`noAcquire_of`). -/

def bytesOf : Got → List Byte
  | .ok bs _ => bs
  | _ => []
def stateOf : Got → State
  | .ok _ s => s
  | _ => base
def gotOk : Got → Bool
  | .ok _ _ => true
  | _ => false
theorem got_eq {r : Got} (h : gotOk r = true) : r = .ok (bytesOf r) (stateOf r) := by cases r <;> first | rfl | simp [gotOk] at h

/-- A tensor record: levels, element size, extents less 1, base addresses and the two first strides. -/
def recNat (slv dlv esz n0 n1 src dst s1 d1 : Nat) : Nat :=
  src * 2 ^ 448 + dst * 2 ^ 384 + s1 * 2 ^ 352 + d1 * 2 ^ 256 + n0 * 2 ^ 176 + n1 * 2 ^ 160 + slv * 2 ^ 126 + dlv * 2 ^ 124 + esz * 2 ^ 122

/-- `base` with k1 the address of a record that stands in the mapped page, and k2 a value. -/
def recState (r : Nat) : State := 
  let s := memWrite 0x10040 (toBytes 64 r) (kregs [(1, 0x10040), (2, 0x1122334455667788)])
  { s with tlbs := s.tlbs ++ [⟨.copy 0, 1, 0x10, { fetchLeaf with w := true, d := true }⟩] }

/-- The read of the record that k1 names. -/
def recRead (g : Sig) (s : State) : Got :=
  readAt (.core (view g s).core) (groupKey (view g s).g) (view g s).ctx (kget (view g s).grp 1) 64 (advance g (view g s) s)

/-- An instruction of signature `g` reads its record at k1, and what it read meets `Q`. -/
def MetRead (g : Sig) (Q : List Byte → State → Iss → State → Prop) : Prop := ∃ bs s' s x, Ready g s x ∧
  readAt (.core x.core) (groupKey x.g) x.ctx (kget x.grp 1) 64 (advance g x s) = .ok bs s' ∧ Q bs s' x s

theorem metRead {g : Sig} {Q : List Byte → State → Iss → State → Prop} (s : State) (r : ready g s = true) (k : gotOk (recRead g s) = true)
    (q : Q (bytesOf (recRead g s)) (stateOf (recRead g s)) (view g s) s) : MetRead g Q :=
  ⟨_, _, s, view g s, ready_view r, got_eq k, q⟩

/-- The premises that the statement puts on a copy's record read. -/
def copyReads (g : Sig) (s' : State) (x : Iss) (s : State) : Prop := nowait x = true ∧ cnt x.grp 3 < 255 ∧ (kget x.grp 1).toNat % 64 = 0 ∧
  canonical (kget x.grp 1) = true ∧ (∀ c ∈ s'.eng.copies, c.op < s'.nextId) ∧ x.grp.exited = false ∧ s'.blocks = (advance g x s).blocks ∧
  probe s' (.core x.core) x.ctx .read (kget x.grp 1) = .ok 0x10040 fetchLeaf
/-- Whether a translation meets an error. -/
def naks : Xlat → Bool
  | .nak _ => true
  | _ => false
/-- The first element of neither side at level g meets an error. -/
def copyClean (t : TRec) (a b : Bool) (s' : State) (x : Iss) : Prop :=
  (a = true → t.slv = 0 → naks (translate (.copy x.core) x.ctx .read t.srca s').1 = false) ∧
    (b = true → t.dlv = 0 → naks (translate (.copy x.core) x.ctx .write t.dsta s').1 = false)
def padOf (s' : State) (x : Iss) : Nat := ((ctxOf s' x.ctx).map fun c => min (c.padLim * 4096) (96 * 2 ^ 20 - c.padBase * 4096)).getD 0
def copyReachable (t : TRec) (a b : Bool) : Prop := ∀ q ∈ sidesOf t a b, q.1 = 0 → ∀ k, k < elements t →
  canonical (q.2.1 + BitVec.ofInt 64 (elementAt t q.2.2 k)) = true
def copyAligned (t : TRec) (a b : Bool) : Prop := ∀ q ∈ sidesOf t a b, sideAligned t q.1 q.2.1 q.2.2
def copyInside (t : TRec) (s' : State) (x : Iss) (a b : Bool) : Prop :=
  ∀ q ∈ sidesOf t a b, sideInside t (256 * x.lrec.slab) (padOf s' x) q.1 q.2.1 q.2.2
/-- The four checks pass, with a register side of 4 registers from v4, or none. -/
def copyPasses (g : Sig) (a b regs : Bool) (bs : List Byte) (s' : State) (x : Iss) (s : State) : Prop :=
  copyReads g s' x s ∧ copyClean (trecOf bs) a b s' x ∧ copyReachable (trecOf bs) a b ∧ copyAligned (trecOf bs) a b ∧ copyInside (trecOf bs) s' x a b ∧
    x.blk.state = .resident ∧ x.blk.absent = [] ∧ s'.pkg.haltDies = 0 ∧ s'.pkg.lostDies = 0 ∧ elements (trecOf bs) ≤ 4096 ∧ x.grp.pend = [] ∧ x.grp.busy = [] ∧
    (regs = true → regSideOk (trecOf bs) ∧ 4 < baseRegs x.lrec + x.grp.ext ∧ 4 + (extent (trecOf bs) 0 + 1) * 2 ^ (trecOf bs).esz / 4 ≤ baseRegs x.lrec + x.grp.ext)

/-- 64 elements of 4 bytes from the end of the slab to its start; 64 rows of 16 bytes for registers. -/
def memRec : Nat := recNat 1 1 2 63 0 261888 0 0 0
def regRec : Nat := recNat 1 1 2 3 63 261120 0 16 16
/-- One element at level g on each side; `recState` with the copy engine's translation of its page. -/
def globalRec : Nat := recNat 0 0 2 0 0 0x10080 0x10084 0 0

theorem witness_CopyIssue :
    (∀ e ∈ [(sigTcopy true none 1, true, true, false, memRec), (sigTcopy false (some 4) 1, true, false, true, regRec),
        (sigTstore 1 4, false, true, true, regRec), (sigTfill 1 2, false, true, false, memRec)],
      MetRead e.1 (copyPasses e.1 e.2.1 e.2.2.1 e.2.2.2.1) ∧
      Met e.1 (fun x _ => nowait x = true ∧ cnt x.grp 3 < 255 ∧ 4 < baseRegs x.lrec + x.grp.ext ∧ (kget x.grp 1).toNat % 64 ≠ 0) ∧
      Met e.1 (fun x s => nowait x = true ∧ cnt x.grp 3 < 255 ∧ 4 < baseRegs x.lrec + x.grp.ext ∧ (kget x.grp 1).toNat % 64 = 0 ∧
        canonical (kget x.grp 1) = false ∧ x.grp.exited = false ∧ ∀ c ∈ s.ctxs, c.cst ≠ 3) ∧
      MetRead e.1 (fun bs s' x s => copyReads e.1 s' x s ∧ ¬ copyAligned (trecOf bs) e.2.1 e.2.2.1) ∧
      MetRead e.1 (fun bs s' x s => copyReads e.1 s' x s ∧ copyAligned (trecOf bs) e.2.1 e.2.2.1 ∧ ¬ copyInside (trecOf bs) s' x e.2.1 e.2.2.1)) ∧
    (∀ e ∈ [(sigTcopy true none 1, true, true, false, globalRec), (sigTfill 1 2, false, true, false, globalRec)],
      MetRead e.1 (copyPasses e.1 e.2.1 e.2.2.1 e.2.2.2.1)) ∧
    (∀ e ∈ [(sigTcopy false (some 4) 1, true, false), (sigTstore 1 4, false, true)],
      MetRead e.1 (fun bs s' x s => copyReads e.1 s' x s ∧ copyAligned (trecOf bs) e.2.1 e.2.2 ∧ copyInside (trecOf bs) s' x e.2.1 e.2.2 ∧
        ¬ regSideOk (trecOf bs))) ∧
    ∀ e ∈ [(sigTcopy false (some 1534) 1, true, false), (sigTstore 1 1534, false, true)],
      MetRead e.1 (fun bs s' x s => copyReads e.1 s' x s ∧ copyAligned (trecOf bs) e.2.1 e.2.2 ∧ copyInside (trecOf bs) s' x e.2.1 e.2.2 ∧
        regSideOk (trecOf bs) ∧ 1534 < baseRegs x.lrec + x.grp.ext ∧ baseRegs x.lrec + x.grp.ext < 1534 + (extent (trecOf bs) 0 + 1) * 2 ^ (trecOf bs).esz / 4) := by
  refine ⟨?_, ?_, ?_, ?_⟩ <;> simp only [List.forall_mem_cons, List.not_mem_nil, false_implies, implies_true, and_true]
  · refine ⟨⟨metRead (recState memRec) (by decide +kernel) (by decide +kernel) ?_, ?_, ?_, ?_, ?_⟩,
      ⟨metRead (recState regRec) (by decide +kernel) (by decide +kernel) ?_, ?_, ?_, ?_, ?_⟩,
      ⟨metRead (recState regRec) (by decide +kernel) (by decide +kernel) ?_, ?_, ?_, ?_, ?_⟩,
      ⟨metRead (recState memRec) (by decide +kernel) (by decide +kernel) ?_, ?_, ?_, ?_, ?_⟩⟩ <;>
    first
      | (unfold copyPasses copyReads copyClean copyReachable copyAligned copyInside sideAligned sideInside regSideOk; decide +kernel)
      | exact met (kregs [(1, 0x10044)]) (by decide +kernel) (by decide +kernel)
      | exact met (kregs [(1, 0x800000000000)]) (by decide +kernel) (by decide +kernel)
      | (refine metRead (recState (recNat 1 1 2 3 0 2 2 0 0)) (by decide +kernel) (by decide +kernel) ?_
         unfold copyReads copyAligned sideAligned; decide +kernel)
      | (refine metRead (recState (recNat 1 1 2 63 0 261892 261892 0 0)) (by decide +kernel) (by decide +kernel) ?_
         unfold copyReads copyAligned copyInside sideAligned sideInside; decide +kernel)
  · refine ⟨metRead (recState globalRec) (by decide +kernel) (by decide +kernel) ?_, metRead (recState globalRec) (by decide +kernel) (by decide +kernel) ?_⟩ <;>
    (unfold copyPasses copyReads copyClean copyReachable copyAligned copyInside sideAligned sideInside regSideOk; decide +kernel)
  · refine ⟨metRead (recState memRec) (by decide +kernel) (by decide +kernel) ?_, metRead (recState memRec) (by decide +kernel) (by decide +kernel) ?_⟩ <;>
    (unfold copyReads copyAligned copyInside sideAligned sideInside regSideOk; decide +kernel)
  · refine ⟨metRead (recState regRec) (by decide +kernel) (by decide +kernel) ?_, metRead (recState regRec) (by decide +kernel) (by decide +kernel) ?_⟩ <;>
    (unfold copyReads copyAligned copyInside sideAligned sideInside regSideOk; decide +kernel)

/-- A command of the group on core 0. -/
def cmdAt (k : CopyKind) (t : TRec) (next : Nat) (buf : List Byte) : CopyCmd :=
  { op := 7, g := some here, core := 0, ctx := 1, vf := 0, kind := k, trecd := t, next := next, tag := 0, val := none, buf := buf, stopped := none,
    queue := none, pc := 0, mask := 0 }
def copying (c : CopyCmd) : State :=
  let s := withGrp fun g => { g with flights := [⟨3, 7, false⟩] }
  { s with eng := { Eng.reset with copies := [c] }, tlbs := s.tlbs ++ [⟨.copy 0, 1, 0x10, fetchLeaf⟩] }

/-- Two elements of 4 bytes between the page at 0x10000, or the slab, and the other. -/
def pairRec (slv dlv : Nat) : TRec := trecOf (toBytes 64 (recNat slv dlv 2 1 0 (if slv = 0 then 0x10080 else 0x80) (if dlv = 0 then 0x10100 else 0x100) 0 0))

/-- The premises on the command's group and block. -/
def copyRuns (c : CopyCmd) : Prop := ∃ b gr, let s := copying c
  copyCmd s c.op = some c ∧ c.g = some here ∧ blkOf s here.blk = some b ∧ grpIn b here.gid = some gr ∧ gr.exited = false ∧
    b.state = .resident ∧ s.pkg.haltDies = 0 ∧ s.pkg.lostDies = 0 ∧ b.absent = [] ∧ c.stopped = none ∧ c.queue = none ∧ c.trecd.n.length = 4 ∧
    c.trecd.ss.length = 3 ∧ c.trecd.ds.length = 3

/-- A fill, and a copy, that lie in the slab; an element read from a page and one written to it; the answers to both; rows that have come to
registers. -/
theorem witness_CopyPerforms :
    (∀ c ∈ [cmdAt (.fill 9) (trecOf (toBytes 64 memRec)) 0 [], cmdAt .copy (trecOf (toBytes 64 memRec)) 0 []], copyRuns c ∧
      c.tag = 0 ∧ c.next = 0 ∧ c.val = none ∧ elements c.trecd ≤ 4096 ∧ c.trecd.dlv = 1 ∧ c.trecd.esz ≤ 3 ∧
      sideInside c.trecd (2 ^ 20) 0 1 c.trecd.dsta c.trecd.ds ∧ c.trecd.slv = 1 ∧ sideInside c.trecd (2 ^ 20) 0 1 c.trecd.srca c.trecd.ss) ∧
    (∀ k ∈ [CopyKind.copy, .toRegs none], let c := cmdAt k (pairRec 0 1) 1 []
      copyRuns c ∧ c.tag = 0 ∧ c.next < elements c.trecd ∧ c.val = none ∧ c.trecd.slv = 0 ∧
        (let va := c.trecd.srca + BitVec.ofInt 64 (elementAt c.trecd c.trecd.ss c.next)
         canonical va = true ∧ translate (.copy c.core) c.ctx .read va (copying c) = (.ok 0x10084 fetchLeaf, copying c)) ∧
        fetchLeaf.grain > 0 ∧ pendOf (copying c) c.core 0x10080 128 = none ∧ wbufOf (copying c) c.core 0x10080 128 = none ∧
        copyOf (copying c) c.core 0x10080 128 = none) ∧
    (∀ c ∈ [{ cmdAt .copy (pairRec 1 0) 1 [] with val := some 5 }],
      copyRuns c ∧ c.tag = 0 ∧ c.next < elements c.trecd ∧ c.val = some 5 ∧ c.trecd.dlv = 0 ∧
        (let va := c.trecd.dsta + BitVec.ofInt 64 (elementAt c.trecd c.trecd.ds c.next)
         canonical va = true ∧ translate (.copy c.core) c.ctx .write va (copying c) = (.ok 0x10104 fetchLeaf, copying c)) ∧
        fetchLeaf.grain > 0 ∧ pendOf (copying c) c.core 0x10100 128 = none ∧ wbufOf (copying c) c.core 0x10100 128 = none ∧
        copyOf (copying c) c.core 0x10100 128 = none ∧ 0x10104 % fetchLeaf.grain + 2 ^ c.trecd.esz ≤ fetchLeaf.grain) ∧
    (∀ c ∈ [{ cmdAt .copy (pairRec 0 1) 1 [] with tag := 3 }, { cmdAt .copy (pairRec 1 0) 1 [] with tag := 3, val := some 5 }],
      let m := { homeMsg 0x10080 128 with tag := 3 }
      copyRuns c ∧ m.tag ≠ 0 ∧ c.tag = m.tag ∧ m.frm = 512 ∧ m.dst = c.core ∧ c.core < 160 ∧ pendTag m (copying c) = none ∧
        asked m (copying c) = false ∧ (∀ e ∈ (copying c).eng.copies, e.tag = m.tag → e = c) ∧ c.next + 1 = elements c.trecd ∧ c.kind = .copy ∧
        (c.val = none → c.trecd.slv = 0 ∧ c.trecd.dlv = 1 ∧ c.trecd.esz ≤ 3 ∧ sideInside c.trecd (2 ^ 20) 0 1 c.trecd.dsta c.trecd.ds)) ∧
    ∀ d ∈ [some 4, none], let c := cmdAt (.toRegs d) (trecOf (toBytes 64 regRec)) 256 []
      copyRuns c ∧ c.next = elements c.trecd ∧ regSideOk c.trecd := by
  have run (c : CopyCmd) (h : (let s := copying c
      copyCmd s c.op == some c && c.g == some here && (blkOf s here.blk).any (fun b => (grpIn b here.gid).any (fun g => !g.exited) &&
        b.state == .resident && b.absent.isEmpty) && s.pkg.haltDies == 0 && s.pkg.lostDies == 0 && c.stopped.isNone && c.queue.isNone &&
        c.trecd.n.length == 4 && c.trecd.ss.length == 3 && c.trecd.ds.length == 3) = true) : copyRuns c := by
    simp only [Bool.and_eq_true, beq_iff_eq, Option.any_eq_true, Option.isNone_iff_eq_none, List.isEmpty_iff, Bool.not_eq_true'] at h
    obtain ⟨⟨⟨⟨⟨⟨⟨⟨⟨h1, h2⟩, b, hb, ⟨⟨g, hg, he⟩, hr⟩, ha⟩, h4⟩, h5⟩, h6⟩, h7⟩, h8⟩, h9⟩, h10⟩ := h
    exact ⟨b, g, h1, h2, hb, hg, he, hr, h4, h5, ha, h6, h7, h8, h9, h10⟩
  refine ⟨fun c hc => ⟨run c ?_, ?_⟩, fun k hk => ⟨run _ ?_, ?_⟩, fun c hc => ⟨run c ?_, ?_⟩, fun c hc => ⟨run c ?_, ?_⟩, fun d hd => ⟨run _ ?_, ?_⟩⟩ <;>
    (try unfold sideInside) <;> (try unfold regSideOk) <;>
    first
      | (revert c; decide +kernel)
      | (revert k; decide +kernel)
      | (revert d; decide +kernel)

theorem tlbHit_of {s : State} {core ctx va : Nat} {w : Bool} {l : Leaf} (h : ((ctxOf s ctx).any (·.en) &&
    (tlbFind s (.core core) ctx (va % 2 ^ 48 / 4096) == some l) && (!w || (l.w && l.d))) = true) : tlbHit s core ctx w va l := by
  simp only [Bool.and_eq_true, beq_iff_eq, Bool.or_eq_true, Bool.not_eq_true'] at h
  obtain ⟨⟨h1, h2⟩, h3⟩ := h
  refine ⟨?_, h2, fun hw => ?_⟩
  · cases hc : ctxOf s ctx with
    | none => simp [hc] at h1
    | some c => exact ⟨c, rfl, by simpa [hc] using h1⟩
  · rcases h3 with h3 | h3
    · simp [hw] at h3
    · exact h3

/-- What the statement asks of one word's move. -/
def moveOk (s' : State) (x : Iss) (lS lD : Leaf) (a b : Nat) : Prop := canonical (BitVec.ofNat 64 a) = true ∧ canonical (BitVec.ofNat 64 b) = true ∧
  a < 2 ^ 64 ∧ b < 2 ^ 64 ∧ tlbHit s' x.core x.ctx false a lS ∧ tlbHit s' x.core x.ctx true b lD
def moveBit (s' : State) (x : Iss) (lS lD : Leaf) (a b : Nat) : Bool := canonical (BitVec.ofNat 64 a) && canonical (BitVec.ofNat 64 b) &&
  decide (a < 2 ^ 64) && decide (b < 2 ^ 64) &&
  ((ctxOf s' x.ctx).any (·.en) && (tlbFind s' (.core x.core) x.ctx (a % 2 ^ 48 / 4096) == some lS) && (!false || (lS.w && lS.d))) &&
  ((ctxOf s' x.ctx).any (·.en) && (tlbFind s' (.core x.core) x.ctx (b % 2 ^ 48 / 4096) == some lD) && (!true || (lD.w && lD.d)))
theorem moveOk_of {s' : State} {x : Iss} {lS lD : Leaf} {a b : Nat} (h : moveBit s' x lS lD a b = true) : moveOk s' x lS lD a b := by
  simp only [moveBit, Bool.and_eq_true, decide_eq_true_eq] at h
  obtain ⟨⟨⟨⟨⟨h1, h2⟩, h3⟩, h4⟩, h5⟩, h6⟩ := h
  exact ⟨h1, h2, h3, h4, tlbHit_of (by simpa [Bool.and_eq_true] using h5), tlbHit_of (by simpa [Bool.and_eq_true] using h6)⟩

/-- The word moves of rows of r bytes, k bytes at a time. -/
def rowWords (n r k : Nat) (f h : Nat → Nat) (a b : Nat) : Prop := ∃ i e, i < n ∧ e < r / k ∧ a = (f i + e * k) % 2 ^ 64 ∧ b = (h i + e * k) % 2 ^ 64
theorem rowWords_of {n r k : Nat} {f h : Nat → Nat} {s' : State} {x : Iss} {lS lD : Leaf}
    (q : ((List.range n).all fun i => (List.range (r / k)).all fun e => moveBit s' x lS lD ((f i + e * k) % 2 ^ 64) ((h i + e * k) % 2 ^ 64)) = true) :
    ∀ a b, rowWords n r k f h a b → moveOk s' x lS lD a b := by
  rintro a b ⟨i, e, hi, he, rfl, rfl⟩
  have := (List.all_eq_true.1 q) i (List.mem_range.2 hi)
  exact moveOk_of ((List.all_eq_true.1 this) e (List.mem_range.2 he))

/-- A page that R84 does not allow. -/
def foreign : Leaf := { fetchLeaf with page := 0x20000, kind := 2 }
/-- `base` with k1 the destination, k2 the source, k3 the list of the indices 1 and 0, and k4 the count. -/
def bdState (d s n : W64) : State :=
  let b := kregs [(1, d), (2, s), (3, 0x10040), (4, n)]
  memWrite 0x10040 (toBytes 8 1) { b with tlbs := b.tlbs ++ [⟨.core 0, 1, 0x20, foreign⟩] }

/-- Count, alignment and room of a base-die command with elements of dw bytes. -/
def bdGood (sw dw : Nat) (s' : State) (g : Sig) (x : Iss) (s : State) : Prop := nowait x = true ∧ cnt x.grp 5 < 255 ∧ (kget x.grp 4).toNat ≤ 65536 ∧
  (kget x.grp 1).toNat % dw = 0 ∧ (kget x.grp 2).toNat % sw = 0 ∧ (∀ c ∈ s'.eng.bds, c.op < s'.nextId) ∧ x.grp.exited = false ∧
  grpOf s' x.g = grpOf (advance g x s) x.g ∧ s'.pkg.lostDies = 0
/-- What the statement asks of a list, but the read itself. -/
def bdListed (x : Iss) : Prop := (kget x.grp 3).toNat % 4 = 0 ∧
  ((kget x.grp 4).toNat ≠ 0 → canonical (kget x.grp 3) = true ∧ canonical (kget x.grp 3 + BitVec.ofNat 64 ((kget x.grp 4).toNat * 4 - 1)) = true)
def bdList (g : Sig) (s : State) : Got := readList (view g s) 4 (kget (view g s).grp 4).toNat (kget (view g s).grp 3) (advance g (view g s) s)

/-- A listed command of two rows of 8 bytes, with its moves; the same with a destination in a page that R84 forbids; one without a list. -/
theorem witness_BaseDieIssue :
    (∀ e ∈ [(sigBdgather 1 2 3 4 1 false, true), (sigBdscat 1 2 3 4 1 false, false), (sigBdred .i32 1 2 (some 3) 4 1 false 0, false)],
      ∃ list s' s x, Ready e.1 s x ∧ bdGood 4 4 s' e.1 x s ∧ bdListed x ∧
        readList x 4 (kget x.grp 4).toNat (kget x.grp 3) (advance e.1 x s) = .ok list s' ∧ ∀ a b,
          rowWords 2 8 4 (fun i => (kget x.grp 2).toNat + (if e.2 then indexAt list 4 i else i) * 8)
            (fun i => (kget x.grp 1).toNat + (if e.2 then i else indexAt list 4 i) * 8) a b → moveOk s' x fetchLeaf fetchLeaf a b) ∧
    (∃ list s' s x, Ready (sigBdgather 1 2 3 4 1 false) s x ∧ bdGood 4 4 s' (sigBdgather 1 2 3 4 1 false) x s ∧ bdListed x ∧
        readList x 4 (kget x.grp 4).toNat (kget x.grp 3) (advance (sigBdgather 1 2 3 4 1 false) x s) = .ok list s' ∧ (kget x.grp 4).toNat = 2 ∧ ∀ a b,
          rowWords 2 8 4 (fun i => (kget x.grp 2).toNat + indexAt list 4 i * 8) (fun i => (kget x.grp 1).toNat + i * 8) a b →
          moveOk s' x fetchLeaf foreign a b ∧ foreign.kind = 2) ∧
    (∃ s x, Ready (sigBdred .i64 1 2 none 4 1 false 1) s x ∧ bdGood 8 8 (advance (sigBdred .i64 1 2 none 4 1 false 1) x s) (sigBdred .i64 1 2 none 4 1 false 1) x s ∧
      ∀ a b, rowWords 2 8 8 (fun i => (kget x.grp 2).toNat + i * 8) (fun i => (kget x.grp 1).toNat + i * 8) a b →
        moveOk (advance (sigBdred .i64 1 2 none 4 1 false 1) x s) x fetchLeaf fetchLeaf a b) ∧
    (∃ s x, Ready (sigBdconv .e4m3x4 .f32 1 2 4) s x ∧ bdGood 4 1 (advance (sigBdconv .e4m3x4 .f32 1 2 4) x s) (sigBdconv .e4m3x4 .f32 1 2 4) x s ∧
      ∀ i, i < 2 → moveOk (advance (sigBdconv .e4m3x4 .f32 1 2 4) x s) x fetchLeaf fetchLeaf
        (((kget x.grp 2).toNat + i * (Ty.width .f32 / 8)) % 2 ^ 64) (((kget x.grp 1).toNat + i * (Ty.width .e4m3x4 / 8)) % 2 ^ 64)) ∧
  (∀ g ∈ [sigBdgather 1 2 3 4 1 false, sigBdscat 1 2 3 4 1 true], Met g fun x s => nowait x = true ∧ cnt x.grp 5 < 255 ∧ (kget x.grp 4).toNat ≤ 65536 ∧
      (kget x.grp 4).toNat ≠ 0 ∧ (kget x.grp 1).toNat % 4 = 0 ∧ (kget x.grp 2).toNat % 4 = 0 ∧ (kget x.grp 3).toNat % 8 = 0 ∧
      canonical (kget x.grp 3) = false ∧ x.grp.exited = false ∧ ∀ c ∈ s.ctxs, c.cst ≠ 3) ∧
    (∃ list s' s x, Ready (sigBdgather 1 2 3 4 1 false) s x ∧ bdGood 4 4 s' (sigBdgather 1 2 3 4 1 false) x s ∧ bdListed x ∧ (kget x.grp 4).toNat = 0 ∧
        readList x 4 (kget x.grp 4).toNat (kget x.grp 3) (advance (sigBdgather 1 2 3 4 1 false) x s) = .ok list s') ∧
    ∀ g ∈ [sigBdgather 1 2 3 4 1 false, sigBdscat 1 2 3 4 1 true, sigBdred .i32 1 2 (some 3) 4 1 false 0, sigBdred .i32 1 2 none 4 1 false 0,
        sigBdconv .f32 .i32 1 2 4],
      Met g (fun x _ => nowait x = true ∧ cnt x.grp 5 < 255 ∧ 65536 < (kget x.grp 4).toNat) ∧
      Met g (fun x _ => nowait x = true ∧ cnt x.grp 5 < 255 ∧ (kget x.grp 4).toNat ≤ 65536 ∧ (kget x.grp 1).toNat % 4 ≠ 0) ∧
      Met g (fun x _ => nowait x = true ∧ cnt x.grp 5 < 255 ∧ (kget x.grp 4).toNat ≤ 65536 ∧ (kget x.grp 1).toNat % 4 = 0 ∧
        (kget x.grp 2).toNat % 4 ≠ 0) := by
  refine ⟨?_, ?_, ?_, ?_, ?_, ?_, ?_⟩
  · intro e he
    refine ⟨bytesOf (bdList e.1 (bdState 0x10100 0x10200 2)), stateOf (bdList e.1 (bdState 0x10100 0x10200 2)), bdState 0x10100 0x10200 2,
      view e.1 (bdState 0x10100 0x10200 2), ready_view ?_, ?_, ?_, got_eq ?_, rowWords_of ?_⟩
    · revert e; decide +kernel
    · unfold bdGood; revert e; decide +kernel
    · unfold bdListed; revert e; decide +kernel
    · revert e; decide +kernel
    · revert e; decide +kernel
  · refine ⟨bytesOf (bdList (sigBdgather 1 2 3 4 1 false) (bdState 0x20100 0x10200 2)), stateOf (bdList (sigBdgather 1 2 3 4 1 false) (bdState 0x20100 0x10200 2)),
      bdState 0x20100 0x10200 2, view (sigBdgather 1 2 3 4 1 false) (bdState 0x20100 0x10200 2), ready_view (by decide +kernel), ?_, ?_,
      got_eq (by decide +kernel), by decide +kernel, fun a b h => ⟨rowWords_of (by decide +kernel) a b h, rfl⟩⟩
    · unfold bdGood; decide +kernel
    · unfold bdListed; decide +kernel
  · refine ⟨bdState 0x10100 0x10200 2, view _ (bdState 0x10100 0x10200 2), ready_view (by decide +kernel), ?_, rowWords_of (by decide +kernel)⟩
    unfold bdGood; decide +kernel
  · refine ⟨bdState 0x10101 0x10200 2, view _ (bdState 0x10101 0x10200 2), ready_view (by decide +kernel), ?_, fun i hi => moveOk_of ?_⟩
    · unfold bdGood; decide +kernel
    · revert i; decide +kernel
  · intro g hg
    refine met (kregs [(1, 0x10100), (2, 0x10200), (3, 0x800000000000), (4, 2)]) ?_ ?_ <;> (revert g; decide +kernel)
  · refine ⟨bytesOf (bdList (sigBdgather 1 2 3 4 1 false) (bdState 0x10100 0x10200 0)), stateOf (bdList (sigBdgather 1 2 3 4 1 false) (bdState 0x10100 0x10200 0)),
      bdState 0x10100 0x10200 0, view (sigBdgather 1 2 3 4 1 false) (bdState 0x10100 0x10200 0), ready_view (by decide +kernel), ?_, ?_, by decide +kernel,
      got_eq (by decide +kernel)⟩
    · unfold bdGood; decide +kernel
    · unfold bdListed; decide +kernel
  · simp only [List.forall_mem_cons, List.not_mem_nil, false_implies, implies_true, and_true]
    refine ⟨⟨?_, ?_, ?_⟩, ⟨?_, ?_, ?_⟩, ⟨?_, ?_, ?_⟩, ⟨?_, ?_, ?_⟩, ⟨?_, ?_, ?_⟩⟩ <;>
      first
        | exact met (bdState 0 0 65537) (by decide +kernel) (by decide +kernel)
        | exact met (bdState 2 0 65536) (by decide +kernel) (by decide +kernel)
        | exact met (bdState 4 2 65536) (by decide +kernel) (by decide +kernel)

/-! ## Witnesses: the matrix engine -/

def rowAt (n : Nat) : RowOp := ⟨none, n⟩
/-- All c rows lie in the window. -/
def wins (r : RowOp) (c : Nat) (x : Iss) : Prop := ∀ j, rowOf r x ≤ j → j < rowOf r x + c → inWindow x j
/-- `base` with its group's window narrowed. -/
def narrow (lo hi : Nat) : State := withGrp fun g => { g with accBase := lo, accLim := hi }
/-- Another group of the block has an op in an incomplete batch that writes rows 0 to 63. -/
def rivals : State := modGrp ⟨1, 1, false⟩ (fun g => { g with batch := { noBatch with nops := 1, rows := [(0, 64)] } }) twoGroups
/-- `s` with the record `r` where k1 names it. -/
def withRecAt (r : Nat) (s : State) : State := memWrite 0x10040 (toBytes 64 r) (modGrp here (kset 1 0x10040) s)

/-- What the statement asks of an accumulator move's record: a 64-lane record of 4 rows on the slab. -/
def moveReads (load : Bool) (esz : Nat) (r : RowOp) (g : Sig) (bs : List Byte) (s' : State) (x : Iss) (s : State) : Prop :=
  (kget x.grp 1).toNat % 64 = 0 ∧ canonical (kget x.grp 1) = true ∧ s'.blocks = (advance g x s).blocks ∧
    (∀ q ∈ sidesOf (trecOf bs) load (!load), sideAligned (trecOf bs) q.1 q.2.1 q.2.2 ∧
      sideInside (trecOf bs) (256 * x.lrec.slab) (padOf s' x) q.1 q.2.1 q.2.2) ∧
    extent (trecOf bs) 0 = 63 ∧ extent (trecOf bs) 1 = 3 ∧ extent (trecOf bs) 2 = 0 ∧ extent (trecOf bs) 3 = 0 ∧ (trecOf bs).esz = esz ∧ rowOf r x = 0

/-- A record of 4 rows of 64 elements. -/
def accRec (esz : Nat) : Nat := recNat 1 1 esz 63 3 0 261120 (64 * 2 ^ esz) (64 * 2 ^ esz)

theorem witness_AccumulatorIssue :
    Met (sigAccwin 1 2 3) (fun x _ => x.g.gid = 0 ∧ (kget x.grp 1).toNat ≤ x.lrec.gpb ∧ (kget x.grp 2).toNat ≤ (kget x.grp 3).toNat ∧
      (kget x.grp 3).toNat ≤ 8 * x.lrec.accr) ∧
    Met (sigAccwin 1 2 3) (fun x _ => x.g.gid = 0 ∧ (kget x.grp 3).toNat = 8 * x.lrec.accr + 1) ∧
    Met (sigAccz (rowAt 511) 1) (fun x _ => wins (rowAt 511) 1 x ∧ ¬ rowsBusy x (rowOf (rowAt 511) x) 1 ∧ opRoom [] x) ∧
    Met (sigAccz (rowAt 60) 8) (fun x _ => wins (rowAt 60) 8 x ∧ rowsBusy x (rowOf (rowAt 60) x) 8) ∧
    Met (sigAccz (rowAt 508) 8) (fun x _ => outAt x (rowOf (rowAt 508) x) 8 512) ∧
    (∀ e ∈ [(sigAccld (rowAt 0) 1, true, 2), (sigAccst 1 (rowAt 0), false, 2), (sigAccout (hdr .bf16x2) (.mem 1) (rowAt 0) 4, false, 1)],
      MetRead e.1 (fun bs s' x s => moveReads e.2.1 e.2.2 (rowAt 0) e.1 bs s' x s ∧ wins (rowAt 0) 4 x ∧ ¬ rowsBusy x 0 4 ∧ opRoom [] x) ∧
      MetRead e.1 (fun bs s' x s => moveReads e.2.1 e.2.2 (rowAt 0) e.1 bs s' x s ∧ wins (rowAt 0) 4 x ∧ rowsBusy x 0 4) ∧
      MetRead e.1 (fun bs s' x s => moveReads e.2.1 e.2.2 (rowAt 0) e.1 bs s' x s ∧ outAt x 0 4 3) ∧
      Met e.1 (fun x _ => (kget x.grp 1).toNat % 64 ≠ 0)) ∧
    Ty.f32 ∈ outTys ∧
    Met (sigAccout (hdr .e4m3x4) (.reg 1534) (rowAt 0) 12) (fun x _ => baseRegs x.lrec + x.grp.ext < 1534 + 12 / Ty.elems .e4m3x4) ∧
    Met (sigAccout (hdr .e4m3x4) (.reg 4) (rowAt 508) 12) (fun x _ => 4 + 12 / Ty.elems .e4m3x4 ≤ baseRegs x.lrec + x.grp.ext ∧
      outAt x (rowOf (rowAt 508) x) 12 512) ∧
    Met (sigAccout (hdr .e4m3x4) (.reg 4) (rowAt 0) 12) (fun x _ => 4 + 12 / Ty.elems .e4m3x4 ≤ baseRegs x.lrec + x.grp.ext ∧
      wins (rowAt 0) 12 x ∧ ¬ rowsBusy x 0 12 ∧ opRoom [4, 5, 6] x) ∧
    Met (sigAccout (hdr .l6) (.reg 4) (rowAt 0) 2) (fun x _ => 4 + 2 / Ty.elems .l6 ≤ baseRegs x.lrec + x.grp.ext ∧
      wins (rowAt 0) 2 x ∧ ¬ rowsBusy x 0 2 ∧ opRoom [4, 5] x) ∧
    Met (sigAccout ⟨5, .f32, 0, false, 0⟩ (.reg 4) (rowAt 0) 2) (fun x _ => effRnd 5 x.ent.fmt = .sr ∧ 4 + 2 / Ty.elems .f32 ≤ baseRegs x.lrec + x.grp.ext ∧
      wins (rowAt 0) 2 x ∧ ¬ rowsBusy x 0 2 ∧ opRoom [4, 5] x) := by
  refine ⟨met (kregs [(2, 8), (3, 512)]) (by decide +kernel) (by decide +kernel), met (kregs [(3, 513)]) (by decide +kernel) (by decide +kernel),
    met base (by decide +kernel) ?_, met rivals (by decide +kernel) ?_, met base (by decide +kernel) ?_, ?_, by decide,
    met base (by decide +kernel) (by decide +kernel), met base (by decide +kernel) ?_, met base (by decide +kernel) ?_, met base (by decide +kernel) ?_,
    met (modGrp here (fun g => { g with stack := [{ fetchEntry with fmt := 0x4000 }] }) base) (by decide +kernel) ?_⟩
  · unfold wins inWindow rowsBusy opRoom; decide +kernel
  · unfold wins inWindow rowsBusy; decide +kernel
  · unfold outAt inWindow; decide +kernel
  · simp only [List.forall_mem_cons, List.not_mem_nil, false_implies, implies_true, and_true]
    refine ⟨⟨metRead (withRecAt (accRec 2) base) (by decide +kernel) (by decide +kernel) ?_,
        metRead (withRecAt (accRec 2) rivals) (by decide +kernel) (by decide +kernel) ?_,
        metRead (withRecAt (accRec 2) (narrow 0 3)) (by decide +kernel) (by decide +kernel) ?_, met (kregs [(1, 0x10020)]) (by decide +kernel) (by decide +kernel)⟩,
      ⟨metRead (withRecAt (accRec 2) base) (by decide +kernel) (by decide +kernel) ?_,
        metRead (withRecAt (accRec 2) rivals) (by decide +kernel) (by decide +kernel) ?_,
        metRead (withRecAt (accRec 2) (narrow 0 3)) (by decide +kernel) (by decide +kernel) ?_, met (kregs [(1, 0x10020)]) (by decide +kernel) (by decide +kernel)⟩,
      ⟨metRead (withRecAt (accRec 1) base) (by decide +kernel) (by decide +kernel) ?_,
        metRead (withRecAt (accRec 1) rivals) (by decide +kernel) (by decide +kernel) ?_,
        metRead (withRecAt (accRec 1) (narrow 0 3)) (by decide +kernel) (by decide +kernel) ?_, met (kregs [(1, 0x10020)]) (by decide +kernel) (by decide +kernel)⟩⟩ <;>
    (unfold moveReads; first
      | (unfold wins inWindow rowsBusy opRoom sideAligned sideInside; decide +kernel)
      | (unfold wins inWindow rowsBusy sideAligned sideInside; decide +kernel)
      | (unfold outAt inWindow sideAligned sideInside; decide +kernel))
  · unfold outAt inWindow; decide +kernel
  all_goals unfold wins inWindow rowsBusy opRoom; decide +kernel

/-! The types of an op, its registers and its rows. -/

def fmtOf (a b : Ty) (scale : Nat) : W64 := BitVec.ofNat 64 (0x800000 + scale * 2 ^ 19 + b.code * 64 + a.code)
/-- `s` with its path's FMT set. -/
def withFmt (f : W64) (s : State) : State := modGrp here (fun g => { g with stack := [{ fetchEntry with fmt := f }] }) s
/-- `s` with teams of two. -/
def teamed (s : State) : State := { s with launches := s.launches.map fun l => { l with lrec := { l.lrec with team := 1, gpb := 1 } } }

def legalTys : List Nat := [Ty.e4m3x4.code, Ty.e5m2x4.code, Ty.i8x4.code, Ty.n8x4.code, Ty.bf16x2.code, Ty.f16x2.code, Ty.l6.code]
def taOf (x : Iss) : Nat := bits x.ent.fmt.toNat 5 0
def tbOf (x : Iss) : Nat := bits x.ent.fmt.toNat 11 6
def legalTypes (x : Iss) : Prop := ∀ t ∈ [taOf x, tbOf x], t ∈ legalTys
def oneByte (x : Iss) : Prop := (taOf x ∈ [Ty.e4m3x4.code, Ty.e5m2x4.code] ∧ tbOf x ∈ [Ty.e4m3x4.code, Ty.e5m2x4.code]) ∨
  (taOf x ∈ [Ty.i8x4.code, Ty.n8x4.code] ∧ tbOf x ∈ [Ty.i8x4.code, Ty.n8x4.code])
def typedOp (sparse : Bool) (sc : Nat) (x : Iss) : Prop := (oneByte x ∨ (taOf x = tbOf x ∧ taOf x ∈ [Ty.bf16x2.code, Ty.f16x2.code, Ty.l6.code])) ∧
  (sparse = true → taOf x ≠ Ty.l6.code) ∧ (bits x.ent.fmt.toNat 20 19 = 1 → oneByte x) ∧ (¬ bits x.ent.fmt.toNat 20 19 = 1 → sc = 0)
def opUses (sparse team : Bool) (a b sc : Nat) (x : Iss) : List (Nat × Nat) :=
  let k := if taOf x = Ty.l6.code then 12 else 8
  [(a, if sparse then 10 else k)] ++
    (if team ∧ x.grp.gid % (x.lrec.team + 1) ≠ 0 then [] else [(b, if sparse then 16 else k)]) ++ (if bits x.ent.fmt.toNat 20 19 = 1 then [(sc, 1)] else [])
def opExists (sparse team : Bool) (a b sc : Nat) (x : Iss) : Prop := ∀ q ∈ opUses sparse team a b sc x,
  q.1 < 8192 ∧ (q.1 < 1536 → q.1 + q.2 ≤ min 1536 (baseRegs x.lrec + x.grp.ext))
/-- The op may join its batch. -/
def opReady (sparse team : Bool) (sc : Nat) (x : Iss) (b : Nat := 40) : Prop := legalTypes x ∧ typedOp sparse sc x ∧ opExists sparse team 20 b sc x ∧
  wins (rowAt 0) 64 x ∧ ¬ rowsBusy x 0 64 ∧ opRoom [] x

theorem witness_MatrixIssue :
    Met (sigMma (rowAt 0) 20 40 0) (fun x _ => opReady false false 0 x) ∧
    Met (sigMma (rowAt 0) 20 40 7) (fun x _ => opReady false false 7 x) ∧ Met (sigMmas (rowAt 0) 20 40 0) (fun x _ => opReady true false 0 x) ∧
    (∀ b ∈ [1539, 1540, 1605], Met (sigMma (rowAt 0) 20 b 0) (fun x _ => opReady false false 0 x b)) ∧
    Met (sigMmat (rowAt 0) 20 40 0) (fun x _ => opReady false true 0 x ∧ x.lrec.team ≠ 0 ∧ x.blk.broken = [] ∧
      ∀ g ∈ x.blk.groups, g.gid / (x.lrec.team + 1) = x.grp.gid / (x.lrec.team + 1) → g.exited = false) ∧
    Met (sigMmat (rowAt 0) 20 40 0) (fun x _ => opReady false true 0 x ∧ x.lrec.team ≠ 0 ∧
      ∃ g ∈ x.blk.groups, g.gid / (x.lrec.team + 1) = x.grp.gid / (x.lrec.team + 1) ∧ g.gid ≠ x.g.gid ∧ g.exited = true ∧ g.teamOps ≤ x.grp.teamOps) ∧
    Met (sigMmat (rowAt 0) 20 40 0) (fun x _ => x.lrec.team = 0) ∧
    (∀ e ∈ [((fun b => sigMma (rowAt 0) 20 b 0), false, false), ((fun b => sigMmas (rowAt 0) 20 b 0), true, false), ((fun b => sigMmat (rowAt 0) 20 b 0), false, true)],
      Met (e.1 40) (fun x _ => legalTypes x ∧ (e.2.2 = true → x.lrec.team ≠ 0) ∧ ¬ typedOp e.2.1 0 x) ∧
      Met (e.1 1533) (fun x _ => legalTypes x ∧ (e.2.2 = true → x.lrec.team ≠ 0) ∧ typedOp e.2.1 0 x ∧ ¬ opExists e.2.1 e.2.2 20 1533 0 x) ∧
      Met (e.1 40) (fun x _ => legalTypes x ∧ (e.2.2 = true → x.lrec.team ≠ 0) ∧ typedOp e.2.1 0 x ∧ opExists e.2.1 e.2.2 20 40 0 x ∧ outAt x 0 64 63) ∧
      Met (e.1 40) (fun x _ => legalTypes x ∧ (e.2.2 = true → x.lrec.team ≠ 0) ∧ typedOp e.2.1 0 x ∧ opExists e.2.1 e.2.2 20 40 0 x ∧
        wins (rowAt 0) 64 x ∧ rowsBusy x 0 64)) := by
  refine ⟨met (withFmt (fmtOf .l6 .l6 0) base) (by decide +kernel) ?_, met (withFmt (fmtOf .e4m3x4 .e5m2x4 1) base) (by decide +kernel) ?_,
    met (withFmt (fmtOf .i8x4 .n8x4 0) base) (by decide +kernel) ?_,
    fun b hb => met (withFmt (fmtOf .i8x4 .n8x4 0) base) (by revert b; decide +kernel) ?_, met (teamed twoGroups) (by decide +kernel) ?_,
    met (teamed (modGrp ⟨1, 1, false⟩ (fun g => { g with exited := true }) twoGroups)) (by decide +kernel) ?_,
    met base (by decide +kernel) (by decide +kernel), ?_⟩
  · unfold opReady legalTypes typedOp oneByte opExists wins inWindow rowsBusy opRoom; decide +kernel
  · unfold opReady legalTypes typedOp oneByte opExists wins inWindow rowsBusy opRoom; decide +kernel
  · unfold opReady legalTypes typedOp oneByte opExists wins inWindow rowsBusy opRoom; decide +kernel
  · simp only [List.mem_cons, List.not_mem_nil, or_false] at hb
    rcases hb with rfl | rfl | rfl <;>
    (unfold opReady legalTypes typedOp oneByte opExists wins inWindow rowsBusy opRoom; refine ⟨?_, ?_, ?_, ?_, ?_, ?_⟩ <;> decide +kernel)
  · unfold opReady legalTypes typedOp oneByte opExists wins inWindow rowsBusy opRoom; decide +kernel
  · unfold opReady legalTypes typedOp oneByte opExists wins inWindow rowsBusy opRoom
    refine ⟨⟨?_, ?_, ?_, ?_, ?_, ?_⟩, ?_, ?_⟩ <;> decide +kernel
  · simp only [List.forall_mem_cons, List.not_mem_nil, false_implies, implies_true, and_true]
    refine ⟨⟨?_, ?_, ?_, ?_⟩, ⟨?_, ?_, ?_, ?_⟩, ⟨?_, ?_, ?_, ?_⟩⟩ <;>
    first
      | (refine met (teamed (withFmt (fmtOf .e4m3x4 .bf16x2 0) base)) (by decide +kernel) ?_; unfold legalTypes typedOp oneByte; decide +kernel)
      | (refine met (teamed base) (by decide +kernel) ?_; unfold legalTypes typedOp oneByte opExists; decide +kernel)
      | (refine met (teamed (narrow 0 63)) (by decide +kernel) ?_; unfold legalTypes typedOp oneByte opExists outAt inWindow; decide +kernel)
      | (refine met (teamed rivals) (by decide +kernel) ?_; unfold legalTypes typedOp oneByte opExists wins inWindow rowsBusy; decide +kernel)
def closedBatch (n : Nat) (d : Bool) : Batch := { noBatch with num := n, isOpen := false, done := d }
def runAt : Run := { batch := 1, r0 := 8, interval := 4, count := 1, acc := [], nar := [] }

theorem witness_BatchControl :
    Met (sigMfence 5) (fun x _ => cnt x.grp 4 < 255 ∧ x.grp.run = none) ∧
    Met (sigMfence 5) (fun x _ => cnt x.grp 4 < 255 ∧ x.grp.run = some runAt ∧ runAt.batch = x.grp.nextBatch ∧ x.grp.batch.dops = x.grp.batch.nops) ∧
    Met (sigMfence 5) (fun x _ => 255 ≤ cnt x.grp 4) ∧
    Met (sigMwait 1) (fun x _ => (x.grp.closed.all fun b => !decide (b.num ≤ (kget x.grp 1).toNat) || b.done) = true) ∧
    Met (sigMwait 1) (fun x _ => (x.grp.closed.all fun b => !decide (b.num ≤ (kget x.grp 1).toNat) || b.done) = false) ∧
    ready (sigMstat 5 none) base = true ∧
    Met (sigMstat 5 (some 1)) (fun x _ => x.grp.closed.find? (fun c => c.num == (kget x.grp 1).toNat) = some (closedBatch 3 true) ∧
      x.grp.nextBatch ≤ (kget x.grp 1).toNat + 16) ∧
    Met (sigMstat 5 (some 1)) (fun x _ => (kget x.grp 1).toNat + 16 < x.grp.nextBatch) ∧
    Met (sigMstat 5 (some 1)) (fun x _ => ∀ b ∈ x.grp.closed, b.num ≠ (kget x.grp 1).toNat) ∧
    (closedBatch 3 true).nops ≤ 4096 ∧ (closedBatch 3 true).dops ≤ (closedBatch 3 true).nops := by
  refine ⟨met base (by decide +kernel) (by decide +kernel), met (withGrp fun g => { g with run := some runAt }) (by decide +kernel) (by decide +kernel),
    met (withGrp fun g => { g with flights := List.replicate 255 ⟨4, 5, false⟩ }) (by decide +kernel) (by decide +kernel),
    met (withGrp fun g => kset 1 3 { g with closed := [closedBatch 3 true, closedBatch 4 false] }) (by decide +kernel) (by decide +kernel),
    met (withGrp fun g => kset 1 4 { g with closed := [closedBatch 3 true, closedBatch 4 false] }) (by decide +kernel) (by decide +kernel),
    by decide +kernel, met (withGrp fun g => kset 1 3 { g with closed := [closedBatch 3 true], nextBatch := 19 }) (by decide +kernel) (by decide +kernel),
    met (withGrp fun g => kset 1 3 { g with closed := [closedBatch 3 true], nextBatch := 20 }) (by decide +kernel) (by decide +kernel),
    met (withGrp fun g => kset 1 9 { g with closed := [closedBatch 3 true] }) (by decide +kernel) (by decide +kernel), by decide, by decide⟩

/-- An op of the group in core 0's engine. -/
def mopAt (k : MKind) (r0 c : Nat) (f : W64) : MOp :=
  { op := 7, g := here, ctx := 1, vf := 0, kind := k, r0 := r0, c := c, fmt := f, batch := 1, after := [], old := [], draw := 0, row := 0, lane := 0,
    started := true, noEffect := false, stopped := none, pc := 0, mask := 0 }
/-- Ops in core 0's engine. -/
def engine (ops : List MOp) (s : State) : State := { s with eng := { s.eng with mops := [(0, ops)] } }

/-- `base` with the op alone in core 0's engine and the group's run, whose batch is open. -/
def running (o : MOp) (r : Option Run) : State := engine [o] (withGrp fun g => { g with run := r })
/-- The same in a team of two. -/
def runningTeam (o : MOp) (r : Option Run) : State := engine [o] (teamed (modGrp here (fun g => { g with run := r }) twoGroups))

/-- An op alone in the engine, of each kind that the statement treats, with no run open and with one that it ends. -/
theorem witness_MatrixPerforms : ∀ o ∈ [mopAt .accz 0 4 0, mopAt (.mma 20 40 0) 0 64 (fmtOf .e4m3x4 .e5m2x4 0), mopAt (.mmas 20 40 0) 0 64 (fmtOf .bf16x2 .bf16x2 0),
      mopAt (.mmat 20 40 0 1 (some (6, 3))) 0 64 (fmtOf .i8x4 .n8x4 1), mopAt (.accld (trecOf (toBytes 64 (accRec 2)))) 0 4 0,
      mopAt (.accst (trecOf (toBytes 64 (accRec 2)))) 0 4 0, mopAt (.accoutMem (trecOf (toBytes 64 (accRec 1))) .bf16x2 0 []) 0 4 0,
      mopAt (.accoutReg 4 .e4m3x4 0 []) 0 12 0],
    (∀ r ∈ [none, some runAt], ∃ s b g, OneOp s 0 o b g ∧ g.run = r ∧
      ∃ l, launchOf s b.launch = some l ∧ (grpIn b (here.gid / (l.lrec.team + 1) * (l.lrec.team + 1))).isSome = true) ∧
    o.noEffect = false ∧ o.c % 4 = 0 ∧ 0 < o.c ∧
    match o.kind with
    | .accld t => t.slv = 1 ∧ t.esz = 2 ∧ t.n = [63, o.c - 1, 0, 0] ∧ t.ss.length = 3 ∧ sideInside t (2 ^ 20) 0 1 t.srca t.ss
    | .accst t => t.dlv = 1 ∧ t.n = [63, o.c - 1, 0, 0] ∧ t.ds.length = 3 ∧ t.esz = 2 ∧ sideInside t (2 ^ 20) 0 1 t.dsta t.ds
    | .accoutMem t ty _ _ => t.dlv = 1 ∧ t.n = [63, o.c - 1, 0, 0] ∧ t.ds.length = 3 ∧ t.esz = Nat.log2 (4 / ty.elems) ∧ sideInside t (2 ^ 20) 0 1 t.dsta t.ds
    | .accoutReg _ ty _ _ => ty ∈ outTys ∧ o.c % ty.elems = 0
    | _ => o.c = 4 ∨ fmtA o.fmt ≠ .l6 ∧ fmtB o.fmt ≠ .l6 := by
  intro o ho
  refine ⟨fun r hr => ⟨running o r, (blkOf (running o r) 1).getD (fetchBlock base), (grpOf (running o r) here).getD (fetchGroup base), ?_, ?_,
    (launchOf base 1).getD (fetchLaunch base), ?_, ?_⟩, ?_⟩
  · unfold OneOp; revert o r; decide +kernel
  · clear ho; revert r; show ∀ r ∈ _, ((grpOf (engine [o] (withGrp fun g => { g with run := r })) here).getD (fetchGroup base)).run = r; intro r _; rfl
  · clear ho; revert r; intro r _; rfl
  · clear ho; revert r; intro r _; rfl
  · simp only [List.mem_cons, List.not_mem_nil, or_false] at ho
    rcases ho with rfl | rfl | rfl | rfl | rfl | rfl | rfl | rfl <;> dsimp only [mopAt] <;>
      first | decide +kernel | (unfold sideInside; decide +kernel)

/-- FMT for l6 ops with PROM = p. -/
def promote (p : Nat) : W64 := BitVec.ofNat 64 (p * 2 ^ 21 + Ty.l6.code * 65)

/-- A share that takes no effect. -/
def idle : MOp := { mopAt (.mmat 20 40 0 1 none) 0 64 0 with noEffect := true }

/-- An l6 op with no run open, that goes on with one, that completes one, and that ends one of other rows; the same for a share of a team op; a share
without effect. -/
theorem witness_NarrowAccumulation :
    (∀ e ∈ [(none, 4), (none, 0), (some { runAt with r0 := 0 }, 4), (some { runAt with r0 := 0, count := 3 }, 4), (some runAt, 4)],
      ∀ k ∈ [(.mma 20 40 0, running), (MKind.mmat 20 40 0 1 (some (7, 0)), runningTeam)], let o := mopAt k.1 0 64 (promote e.2)
      ∃ b g, OneOp (k.2 o e.1) 0 o b g ∧ g.run = e.1 ∧ o.noEffect = false ∧ fmtA o.fmt = .l6 ∧
        ∃ l, launchOf (k.2 o e.1) b.launch = some l ∧ (grpIn b (here.gid / (l.lrec.team + 1) * (l.lrec.team + 1))).isSome = true) ∧
    (runAt.count + 1 ≠ runAt.interval ∧ 3 + 1 = runAt.interval ∧ (∀ k ∈ runAt.nar, k < 4096) ∧ 2 ^ bits (promote 4).toNat 23 21 ≠ 1 ∧
      2 ^ bits (promote 0).toNat 23 21 = 1) ∧
    ∃ b g, OneOp (running idle none) 0 idle b g ∧ g.run = none := by
  refine ⟨fun e he k hk => ⟨(blkOf (k.2 (mopAt k.1 0 64 (promote e.2)) e.1) 1).getD (fetchBlock base),
      (grpOf (k.2 (mopAt k.1 0 64 (promote e.2)) e.1) here).getD (fetchGroup base), ?_, ?_, ?_, ?_,
      (launchOf (k.2 (mopAt k.1 0 64 (promote e.2)) e.1) 1).getD (fetchLaunch base), ?_, ?_⟩, by decide +kernel,
    (blkOf (running idle none) 1).getD (fetchBlock base), (grpOf (running idle none) here).getD (fetchGroup base), ?_, ?_⟩
  · unfold OneOp; revert e k; decide +kernel
  · revert e k; decide +kernel
  · rfl
  · revert e k; decide +kernel
  · revert e k; decide +kernel
  · revert e k; decide +kernel
  · unfold OneOp; decide +kernel
  · decide +kernel

/-- A share of a team op that no one has started. -/
def shareAt (i : Nat) : MOp := { mopAt (.mmat 20 40 0 1 none) 0 64 (fmtOf .i8x4 .i8x4 0) with op := 7 + i, g := ⟨1, i, false⟩, started := false }

/-- A closed batch that is complete, with and without its run open, and one that is not. -/
theorem witness_BatchCompletion :
    (∀ b ∈ [closedBatch 1 false, { closedBatch 1 false with nops := 2, dops := 1 }], ∀ r ∈ [none, some runAt], ∃ s bk g, blkOf s here.blk = some bk ∧
      bk.absent = [] ∧ grpOf s here = some g ∧ g.exited = false ∧ g.run = r ∧ g.closed = [b] ∧ b.done = false ∧ b.num < g.nextBatch) ∧
    (closedBatch 1 false).dops = (closedBatch 1 false).nops ∧ runAt.batch = (closedBatch 1 false).num ∧
    ∃ s b l, blkOf s b.id = some b ∧ launchOf s b.launch = some l ∧ l.lrec.team + 1 = 2 ∧ (∀ i, i < 2 → shareAt i ∈ coreMops s b.core) ∧
      (∀ o ∈ coreMops s b.core, ∃ i, i < 2 ∧ o = shareAt i) ∧ (coreMops s b.core).Nodup ∧
      (∀ i, i < 2 → (shareAt i).g.blk = b.id ∧ (shareAt i).g.gid = 0 * 2 + i ∧ (shareAt i).started = false ∧ (shareAt i).op = 7 + i ∧
        (shareAt i).kind = .mmat 20 40 0 1 none) ∧ (∀ i j, i < 2 → j < 2 → 7 + i = 7 + j → i = j) ∧
      ∀ j, j < 2 → (fmtA (shareAt j).fmt, fmtB (shareAt j).fmt, fmtScale (shareAt j).fmt) =
        (fmtA (shareAt 0).fmt, fmtB (shareAt 0).fmt, fmtScale (shareAt 0).fmt) := by
  let st (b : Batch) (r : Option Run) : State := withGrp fun g => { g with closed := [b], run := r, nextBatch := 2 }
  refine ⟨fun b hb r hr => ⟨st b r, (blkOf (st b r) 1).getD (fetchBlock base), (grpOf (st b r) here).getD (fetchGroup base), ?_⟩, by decide, by decide,
    engine [shareAt 1, shareAt 0] (teamed twoGroups), (blkOf (teamed twoGroups) 1).getD (fetchBlock base), (launchOf (teamed twoGroups) 1).getD (fetchLaunch base),
    by decide +kernel, by decide +kernel, by decide +kernel, ?_, ?_, ?_, ?_, fun i j _ _ h => by omega, by decide +kernel⟩
  · revert b r; decide +kernel
  all_goals decide +kernel

/-! ## Witnesses: the stream engine -/

/-- `base` with n instructions in the group's open window. -/
def windowed (n : Nat) : State := withGrp fun g => { g with window := List.replicate n ⟨.inv, 1, 2, 0, 0, 0, [], none, 0, 0⟩ }
/-- `base` with tags on the stream registers 2 and 3, and 4. -/
def tagged (a b c : BitVec 16) : State := withBlk fun k => { k with zdep := [(2, a), (3, b), (4, c)] }
def depAt (x : Iss) (z : Nat) : BitVec 16 := FMap.get 0 x.blk.zdep z

theorem witness_StreamIssue :
    (∀ g ∈ [sigSgen 5 .lane 0, sigSgenb 5 (.k 1) 15, sigSregen 5 2 9, sigSnot 5 2, sigSand 5 2 3, sigSor 5 2 3, sigSxor 5 2 3, sigSxnor 5 2 3,
        sigSmin 5 2 2, sigSmax 5 2 2, sigSmux 5 2 3 4],
      Met g (fun x _ => cnt x.grp 7 < 255 ∧ x.grp.window.length < 63 ∧ depAt x 2 &&& depAt x 3 = 0 ∧ depAt x 4 &&& (depAt x 2 ||| depAt x 3) = 0) ∧
      Met g (fun x _ => cnt x.grp 7 < 255 ∧ x.grp.window.length = 63 ∧ depAt x 2 &&& depAt x 3 = 0 ∧ depAt x 4 &&& (depAt x 2 ||| depAt x 3) = 0) ∧
      Met g (fun x _ => 255 ≤ cnt x.grp 7 ∧ depAt x 2 &&& depAt x 3 = 0 ∧ depAt x 4 &&& (depAt x 2 ||| depAt x 3) = 0)) ∧
    (∀ g ∈ [sigSand 5 2 3, sigSor 5 2 3, sigSxor 5 2 3, sigSxnor 5 2 3], Met g (fun x _ => ¬ (depAt x 2 &&& depAt x 3 = 0))) ∧
    (∀ g ∈ [sigSmin 5 2 3, sigSmax 5 2 3], Met g (fun x _ => depAt x 2 ≠ depAt x 3)) ∧
    Met (sigSmux 5 2 3 4) (fun x _ => depAt x 4 &&& (depAt x 2 ||| depAt x 3) ≠ 0) ∧
    (∀ g ∈ [sigScnt 0 (.reg 4) 2 2, sigScnta 0 (.reg 4) 2], Met g (fun x _ => cnt x.grp 7 < 255) ∧ Met g (fun x _ => 255 ≤ cnt x.grp 7)) := by
  refine ⟨fun g hg => ⟨met (tagged 1 2 4) ?_ ?_, met (windowed 63) ?_ ?_, met (withGrp fun g => { g with flights := List.replicate 255 ⟨7, 5, false⟩ }) ?_ ?_⟩,
    fun g hg => met (tagged 3 2 4) ?_ ?_, fun g hg => met (tagged 3 2 4) ?_ ?_, met (tagged 3 2 1) (by decide +kernel) (by decide +kernel),
    fun g hg => ⟨met base ?_ ?_, met (withGrp fun g => { g with flights := List.replicate 255 ⟨7, 5, false⟩ }) ?_ ?_⟩⟩ <;>
  (revert g; decide +kernel)

theorem witness_StreamControl :
    (∀ g ∈ [sigSseed 1 13, sigSseed 1 15, sigSlen 0x4, sigSrnd 0 (.reg 4) 15], Met g (fun x _ => cnt x.grp 7 < 255 ∧ x.grp.window = [] ∧ x.grp.exited = false)) ∧
    dsectlLegal ((0x4 : W32).zeroExtend 64) ∧ ¬ dsectlLegal ((0x5 : W32).zeroExtend 64) ∧ Met (sigSlen 5) (fun x _ => cnt x.grp 7 < 255) ∧
    Met (sigSdep 5 2 3) (fun x _ => cnt x.grp 7 < 255 ∧ x.grp.exited = false) := by
  refine ⟨fun g hg => met base ?_ ?_, ?_, ?_, met base (by decide +kernel) (by decide +kernel), met base (by decide +kernel) (by decide +kernel)⟩
  · revert g; decide +kernel
  · revert g; decide +kernel
  · unfold dsectlLegal; decide +kernel
  · unfold dsectlLegal; decide +kernel

/-- One instruction of each kind, alone in a closed window of L = 256, in its only pass, in the last of three and before the last. -/
theorem witness_WindowRuns : ∀ i ∈ [(⟨.gen, 5, 0, 0, 0, 15, [], none, 0, 7⟩ : StrIns), ⟨.regen, 5, 2, 0, 0, 9, [], none, 0, 7⟩, ⟨.and, 5, 2, 3, 0, 0, [], none, 0, 7⟩,
      ⟨.or, 5, 2, 3, 0, 0, [], none, 0, 7⟩, ⟨.xor, 5, 2, 3, 0, 0, [], none, 0, 7⟩, ⟨.xnor, 5, 2, 3, 0, 0, [], none, 0, 7⟩, ⟨.inv, 5, 2, 0, 0, 0, [], none, 0, 7⟩,
      ⟨.mux, 5, 2, 3, 4, 0, [], none, 0, 7⟩, ⟨.cnt 0, 0, 2, 0, 0, 0, [], some 4, 3, 7⟩, ⟨.cnt 1, 0, 2, 0, 0, 0, [], some 4, 3, 7⟩,
      ⟨.cnt 2, 0, 2, 0, 0, 0, [], some 4, 3, 7⟩, ⟨.cnta, 0, 2, 0, 0, 0, [], some 4, 3, 7⟩],
    ∀ e ∈ [(1, 0), (3, 2), (3, 1)], ∃ s w b g l, FMap.get [] (s : State).eng.windows 0 = [w] ∧ w.ins = [i] ∧ s.pkg.haltDies = 0 ∧ s.pkg.lostDies = 0 ∧ b.absent = [] ∧ blkOf s w.g.blk = some b ∧ grpIn b w.g.gid = some g ∧
      b.state = .resident ∧ g.exited = false ∧ launchOf s b.launch = some l ∧ w.len ∈ [16, 32, 64, 128, 256] ∧ 0 < w.passes ∧ w.passes = e.1 ∧ w.pass = e.2 ∧ i.cls < 16 := by
  intro i hi e he
  refine ⟨{ base with eng := { Eng.reset with windows := [(0, [⟨here, 256, e.1, [i], [], [], e.2, [(64 * 7 + 5, 9)]⟩])] } },
    ⟨here, 256, e.1, [i], [], [], e.2, [(64 * 7 + 5, 9)]⟩,
    (blkOf base 1).getD (fetchBlock base), (grpOf base here).getD (fetchGroup base), (launchOf base 1).getD (fetchLaunch base), ?_⟩
  revert i e; decide +kernel

/-! ## Witnesses: worklists and labels -/

def shardAt (core : Nat) (items : List Item) (holds : List (Nat × Nat × Nat × Nat)) : Shard :=
  { core := core, bound := true, f := 8, cap := 9, capRound := 0, items := items, chunks := [], given := [], taken := [], push := 5, ret := 4,
    reported := none, lowering := none, pushes := [], pops := [], rets := [], doing := none, holds := holds, spillToken := none, known := true, vacated := false, leaving := false }
def wlRecAt : WlRec := { ctx := 1, addr := 0x10080, spbase := 0, stbase := 0x10000, spch := 1, clmask := 1, spanmask := 0, w := 0, lambda := 2 }
def wlAt (shards : List Shard) : Worklist :=
  { id := 9, wrec := wlRecAt, shards := shards, armed := true, terminated := false, round := 3, result := some 7, roundOpen := false,
    wave := some (10, 10, true), killed := false, unreachable := none }
/-- `base` with the group bound to `w`. -/
def wlState (w : Worklist) (f : Group → Group) : State := { withGrp (fun g => f { g with wlBound := some 9 }) with worklists := [w] }
/-- `Still`, with what decides it. -/
abbrev stillNow (w : Worklist) (sh : Shard) : Prop := sh.pushes = [] ∧ sh.pops = [] ∧ sh.rets = [] ∧ sh.spillToken = none ∧ sh.doing = none ∧ (∀ i ∈ sh.items, i.prio.toNat / 2 ^ w.wrec.w ≤ sh.f + 63) ∧
  ∀ c ∈ sh.chunks, sh.f + 63 < c.minKey
/-- `BoundTo`, with what decides it. -/
def boundNow (w : Worklist) (sh : Shard) (x : Iss) (s : State) : Prop :=
  x.grp.wlBound = some w.id ∧ wlOf s w.id = some w ∧ boundTo s x.core = some w ∧ shardIn w x.core = some sh ∧ w.unreachable = none ∧ w.killed = false ∧
    (w.shards.map (·.core)).Nodup ∧ sh.vacated = false ∧ stillNow w sh ∧ w.wrec.spanmask = 0 ∧ cnt x.grp 6 < 255 ∧ nowait x = true ∧ x.grp.exited = false
theorem boundNow_of {w : Worklist} {sh : Shard} {x : Iss} {s : State} (h : boundNow w sh x s) : BoundTo w sh x s :=
  let ⟨h1, h2, h3, h4, h5, h6, h7, h8, h9, h10, h11, h12, h13⟩ := h
  ⟨h1, h2, h3, h4, h5, h6, h7, h8, h9, h10, h11, noAcquire_of h12, h13⟩

/-- Two shards, one of which is empty. -/
def pairWl (sh : Shard) : Worklist := wlAt [sh, shardAt 1 [] []]
def lostWl : Worklist := { wlAt [shardAt 0 [] []] with unreachable := some 5 }
/-- `base`, its context a VF's, with the 128-byte record `r` at 0x10080, and k1 its address. -/
def wlRecState (r : Nat) : State := memWrite 0x10080 (toBytes 128 r)
  (modBlk 1 (fun b => { b with vf := 1 }) { kregs [(1, 0x10080)] with ctxs := [{ fetchCtx with vf := 1 }] })
def wlRecRead (s : State) : Got :=
  let g := sigWlcfg (some 1)
  let x := view g s
  readAt (.core x.core) (groupKey x.g) x.ctx (kget x.grp 1) 128 (modGrp x.g (fun g => { g with wlrec := kget x.grp 1 }) (advance g x s))
/-- What the statement asks before a record that is read for the first time. -/
def wlFresh (bs : List Byte) (s' : State) (x : Iss) (s : State) : Prop :=
  cnt x.grp 6 < 255 ∧ nowait x = true ∧ x.grp.exited = false ∧ x.grp.wlBound = none ∧ kget x.grp 1 ≠ 0 ∧ (kget x.grp 1).toNat % 128 = 0 ∧
    canonical (kget x.grp 1) = true ∧ (∀ w ∈ s.worklists, ¬ (w.wrec.ctx = x.ctx ∧ w.wrec.addr = kget x.grp 1)) ∧
    readAt (.core x.core) (groupKey x.g) x.ctx (kget x.grp 1) 128 (modGrp x.g (fun g => { g with wlrec := kget x.grp 1 }) (advance (sigWlcfg (some 1)) x s)) = .ok bs s' ∧
    s'.blocks = (modGrp x.g (fun g => { g with wlrec := kget x.grp 1 }) (advance (sigWlcfg (some 1)) x s)).blocks ∧ s'.worklists = s.worklists ∧
    (∀ w ∈ s.worklists, w.id < s'.nextId) ∧ (boundTo s' x.core).isNone = true ∧ x.core < 160
def wlInScope (bs : List Byte) (s' : State) (x : Iss) : Prop := bits (ofBytes bs) 823 808 = 0 ∨ (4 ≤ maxScope s' x.vf ∧ (x.vf = 0 ∨
  ∀ d, d < 16 → bit (bits (ofBytes bs) 823 808) d = true → bit (bits (fnOf s' x.vf).policy.toNat 39 24) d = true))
def wlLegal (bs : List Byte) (x : Iss) : Prop := bits (ofBytes bs) 796 0 = 0 ∧ bits (ofBytes bs) 1023 960 % 4096 = 0 ∧ bits (ofBytes bs) 959 896 % 256 = 0 ∧
  bit (bits (ofBytes bs) 863 824) (coreCluster x.core) = true

theorem witness_WorklistBinding :
    (∀ g ∈ [sigWlfloor 5, sigWldone 5, sigWlstat 5 0, sigWlstat 5 3, sigWlcfg none],
      Met g (boundNow (pairWl (shardAt 0 [⟨3, 9⟩] [(1, 0, 8, 2)])) (shardAt 0 [⟨3, 9⟩] [(1, 0, 8, 2)])) ∧ Met g (boundNow (pairWl (shardAt 0 [] [])) (shardAt 0 [] []))) ∧
    localMin (pairWl (shardAt 0 [] [(1, 0, 8, 2)])) (shardAt 0 [] [(1, 0, 8, 2)]) < 2 ^ 32 ∧
    Met (sigWlcfg (some 1)) (fun x s => boundNow (pairWl (shardAt 0 [] [])) (shardAt 0 [] []) x s ∧ kget x.grp 1 = 0x10080) ∧
    Met (sigWlcfg (some 1)) (fun x s => boundNow (pairWl (shardAt 0 [] [])) (shardAt 0 [] []) x s ∧ kget x.grp 1 ≠ 0x10080) ∧
    Met (sigWlcfg none) (fun x s => boundNow (pairWl (shardAt 0 [] [])) (shardAt 0 [] []) x s ∧ x.grp.wlrec = wlRecAt.addr) ∧
    Met (sigWlcfg none) (fun x s => boundNow (pairWl (shardAt 0 [] [])) (shardAt 0 [] []) x s ∧ x.grp.wlrec ≠ wlRecAt.addr) ∧
    (∀ v ∈ [(0 : Nat), 4], ∀ g ∈ [sigWlcfg (some 1), sigWlfloor 5, sigWldone 5, sigWlstat 5 1], Met g (fun x _ => cnt x.grp 6 < 255 ∧ nowait x = true ∧ x.grp.exited = false ∧
      x.grp.wlBound = none ∧ kget x.grp 1 = BitVec.ofNat 64 v ∧ x.grp.wlrec = BitVec.ofNat 64 v)) ∧ (4 : W64).toNat % 128 ≠ 0 ∧
    (∀ g ∈ [sigWlfloor 5, sigWldone 5, sigWlstat 5 1], Met g (fun x s => cnt x.grp 6 < 255 ∧ nowait x = true ∧ x.grp.exited = false ∧ x.grp.wlBound = some 9 ∧
      wlOf s 9 = some lostWl ∧ lostWl.wrec.spanmask = 0 ∧ lostWl.killed = false ∧ lostWl.unreachable = some 5)) ∧
    (∀ e ∈ [(2 ^ 1023 + 2 ^ 824, true, true), (2 ^ 1023, true, false), (2 ^ 1023 + 2 ^ 824 + 2 ^ 808, false, true)], ∃ bs s' s x,
      Ready (sigWlcfg (some 1)) s x ∧ wlFresh bs s' x s ∧ (e.2.1 = true ↔ wlInScope bs s' x) ∧ (e.2.2 = true ↔ wlLegal bs x)) := by
  refine ⟨fun g hg => ⟨met (wlState (pairWl (shardAt 0 [⟨3, 9⟩] [(1, 0, 8, 2)])) id) ?_ ?_, met (wlState (pairWl (shardAt 0 [] [])) id) ?_ ?_⟩, by decide +kernel,
    met (wlState (pairWl (shardAt 0 [] [])) (kset 1 0x10080)) (by decide +kernel) ?_, met (wlState (pairWl (shardAt 0 [] [])) id) (by decide +kernel) ?_,
    met (wlState (pairWl (shardAt 0 [] [])) fun g => { g with wlrec := 0x10080 }) (by decide +kernel) ?_,
    met (wlState (pairWl (shardAt 0 [] [])) id) (by decide +kernel) ?_,
    fun v hv g hg => met (withGrp fun g => kset 1 (BitVec.ofNat 64 v) { g with wlrec := BitVec.ofNat 64 v }) ?_ ?_, by decide, fun g hg => met (wlState lostWl id) ?_ ?_, fun e he => ⟨bytesOf (wlRecRead (wlRecState e.1)),
      stateOf (wlRecRead (wlRecState e.1)), wlRecState e.1, view (sigWlcfg (some 1)) (wlRecState e.1), ready_view ?_, ?_, ?_, ?_⟩⟩
  · revert g; decide +kernel
  · unfold boundNow; revert g; decide +kernel
  · revert g; decide +kernel
  · unfold boundNow; revert g; decide +kernel
  · unfold boundNow; decide +kernel
  · unfold boundNow; decide +kernel
  · unfold boundNow; decide +kernel
  · unfold boundNow; decide +kernel
  · revert v g; decide +kernel
  · revert v g; decide +kernel
  · revert g; decide +kernel
  · revert g; decide +kernel
  · revert e; decide +kernel
  · unfold wlFresh; revert e; decide +kernel
  · unfold wlInScope; revert e; decide +kernel
  · unfold wlLegal; revert e; decide +kernel

/-- A state whose one active lane is lane 5, with k2 a priority. -/
def lane5 (w : Worklist) (p : W64) (f : Group → Group) : State :=
  wlState w fun g => f (kset 2 p { g with stack := [{ fetchEntry with mask := 1#64 <<< 5 }] })
def calmNow (w : Worklist) (f : Nat) (sh : Shard) : Prop := sh.chunks = [] ∧ sh.pushes = [] ∧ sh.pops = [] ∧ sh.rets = [] ∧ sh.lowering = none ∧ sh.spillToken = none ∧ sh.doing = none ∧
  ∀ i ∈ sh.items, i.prio.toNat / 2 ^ w.wrec.w ≤ f + 63
def doneWl : Worklist := { pairWl (shardAt 0 [] []) with terminated := true }
def oneItem : Shard := shardAt 0 [⟨3, 9⟩] [(1, 0, 9, 2)]
/-- The item lies beyond the hand-out window: its key is above F plus LAMBDA. -/
def farItem : Shard := shardAt 0 [⟨3, 11⟩] []

theorem handOrder_one : handOrder (pairWl oneItem) oneItem = [⟨3, 9⟩] := by
  have : oneItem.items.filter (fun i => decide (keyBy (pairWl oneItem) i.prio ≤ oneItem.f + (pairWl oneItem).wrec.lambda)) = [⟨3, 9⟩] := by decide +kernel
  rw [handOrder, this, List.mergeSort_singleton]
theorem handOrder_far : handOrder (pairWl farItem) farItem = [] := by
  have : farItem.items.filter (fun i => decide (keyBy (pairWl farItem) i.prio ≤ farItem.f + (pairWl farItem).wrec.lambda)) = [] := by decide +kernel
  rw [handOrder, this, List.mergeSort_nil]

/-- Items that a shard hands out and does not, holds, and priorities at, above and below its threshold. -/
theorem witness_WorklistItems :
    ((pairWl oneItem).shards.map (·.core)).Nodup ∧ OneHold oneItem ∧ OneHold farItem ∧ OneHold (shardAt 0 [] []) ∧ calmNow (pairWl oneItem) 8 oneItem ∧
    calmNow (pairWl farItem) 8 farItem ∧
    Met (sigWlpush 0 true (.reg 4) (.k 2)) (fun x s => boundNow (pairWl oneItem) oneItem x s ∧ released x s ∧ (pairWl oneItem).terminated = false ∧
      oneItem.items.length + (active x).length ≤ 4096 ∧ ∀ l ∈ active x, oneItem.reported.getD oneItem.f ≤ srcVal x false (.k 2) l ∧ srcVal x false (.k 2) l ≤ oneItem.f + 63) ∧
    Met (sigWlpush 0 true (.reg 4) (.k 2)) (fun x s => boundNow (pairWl oneItem) oneItem x s ∧ released x s ∧ active x = [5] ∧ srcVal x false (.k 2) 5 = 7 ∧
      ∃ o ∈ (pairWl oneItem).shards, o.core ≠ x.core) ∧
    Met (sigWlpush 0 true (.reg 4) (.k 2)) (fun x s => boundNow doneWl (shardAt 0 [] []) x s ∧ released x s ∧ doneWl.terminated = true ∧ active x = 5 :: []) ∧
    Met (sigWlpop 0 true (.reg 4) 3 true) (fun x s => BoundTo (pairWl oneItem) oneItem x s ∧
      ((active x).zip (handOrder (pairWl oneItem) oneItem)).take (256 - heldBy oneItem x.g) ≠ []) ∧
    Met (sigWlpop 0 false (.reg 4) 3 false) (boundNow (pairWl farItem) farItem) ∧ Met (sigWlpop 0 false (.reg 4) 3 true) (boundNow doneWl (shardAt 0 [] [])) ∧
    Met (sigWlpop 0 false (.reg 4) 3 true) (fun x s => BoundTo (pairWl farItem) farItem x s ∧ handOrder (pairWl farItem) farItem = []) ∧
    Met (sigWlret 0 (.k 2)) (fun x s => boundNow (pairWl oneItem) oneItem x s ∧ released x s ∧ heldAt oneItem x.g 9 = 2 ∧ active x = [5] ∧ srcVal x false (.k 2) 5 = 9) ∧
    Met (sigWlret 0 (.k 2)) (fun x s => boundNow (pairWl oneItem) oneItem x s ∧ ¬ released x s ∧ heldAt oneItem x.g 9 = 2 ∧ active x = [5] ∧ srcVal x false (.k 2) 5 = 9) ∧
    Met (sigWlret 0 (.k 2)) (fun x s => boundNow (pairWl oneItem) oneItem x s ∧ heldAt oneItem x.g 8 = 0 ∧ active x = [5] ∧ srcVal x false (.k 2) 5 = 8) := by
  refine ⟨by decide +kernel, by unfold OneHold; decide +kernel, by unfold OneHold; decide +kernel, by unfold OneHold; decide +kernel, by unfold calmNow; decide +kernel,
    by unfold calmNow; decide +kernel, met (lane5 (pairWl oneItem) 8 id) (by decide +kernel) ?_, met (lane5 (pairWl oneItem) 7 id) (by decide +kernel) ?_,
    met (lane5 doneWl 8 id) (by decide +kernel) ?_, met (lane5 (pairWl oneItem) 8 id) (by decide +kernel) ⟨boundNow_of ?_, ?_⟩,
    met (lane5 (pairWl farItem) 8 id) (by decide +kernel) ?_, met (lane5 doneWl 8 id) (by decide +kernel) ?_,
    met (lane5 (pairWl farItem) 8 id) (by decide +kernel) ⟨boundNow_of ?_, handOrder_far⟩, met (lane5 (pairWl oneItem) 9 id) (by decide +kernel) ?_,
    met { lane5 (pairWl oneItem) 9 id with eng := { Eng.reset with accs := [loadOf 9] } } (by decide +kernel) ?_,
    met (lane5 (pairWl oneItem) 8 id) (by decide +kernel) ?_⟩
  · unfold boundNow released; decide +kernel
  · unfold boundNow released; decide +kernel
  · unfold boundNow released; decide +kernel
  · unfold boundNow; decide +kernel
  · rw [handOrder_one]; decide +kernel
  · unfold boundNow; decide +kernel
  · unfold boundNow; decide +kernel
  · unfold boundNow; decide +kernel
  · unfold boundNow released; decide +kernel
  · unfold boundNow released; decide +kernel
  · unfold boundNow; decide +kernel

/-- A shard whose push waits for the others' acknowledgements, and one that has them. -/
def lowering (acks : List Nat) : Shard :=
  { shardAt 0 [⟨3, 9⟩] [] with lowering := some 4, pushes := [⟨7, here, [(5, ⟨2, 4⟩)], acks, 0, 0⟩] }
def reporting : Shard := { shardAt 0 [] [] with reported := some 9, capRound := 2 }
def quietState (w : Worklist) : State := wlState w id
/-- A worklist that spans device 3, to which there is no route. -/
def farWl : Worklist := { pairWl oneItem with wrec := { wlRecAt with spanmask := 8 } }

theorem witness_FloorAndTermination :
    (∀ w ∈ [pairWl (lowering [1]), pairWl (lowering []), pairWl oneItem, pairWl reporting, { pairWl reporting with result := none }],
      wlOf (quietState w) w.id = some w ∧ (w.shards.map (·.core)).Nodup ∧ (quietState w).pkg.haltDies = 0 ∧ (quietState w).pkg.lostDies = 0 ∧ Reach w (quietState w) ∧ w.terminated = false ∧ w.roundOpen = false ∧ w.armed = true ∧
      w.unreachable = none ∧ (ctxOf (quietState w) w.wrec.ctx).any (·.en) = true) ∧
    ¬ Reach farWl (quietState farWl) ∧
    (∃ sh ∈ (pairWl (lowering [1])).shards, ∃ frm ∈ (pairWl (lowering [1])).shards, frm.core ≠ sh.core ∧ calmNow (pairWl (lowering [1])) (min sh.f 4) sh ∧ frm.pushes ≠ []) ∧
    (pairWl (lowering [])).killed = false ∧ (∃ sh ∈ (pairWl (lowering [])).shards, ∃ p, ∃ i : Item, ∃ b g, sh.bound = true ∧ sh.pushes = [p] ∧ p.items = [(5, i)] ∧ p.acks = [] ∧ sh.lowering = some 4 ∧ sh.chunks = [] ∧
      sh.pops = [] ∧ sh.spillToken = none ∧ sh.doing = none ∧ sh.rets = [] ∧ (∀ j ∈ sh.items, j.prio.toNat ≤ sh.f + 63) ∧ i.prio.toNat ≤ sh.f + 63 ∧ sh.items.length < 4096 ∧
      blkOf (quietState (pairWl (lowering []))) p.g.blk = some b ∧ grpIn b p.g.gid = some g ∧ g.exited = false) ∧
    (∃ sh ∈ (pairWl oneItem).shards, localMin (pairWl oneItem) sh < 2 ^ 32) ∧
    ∃ sh ∈ (pairWl reporting).shards, sh.reported = some 9 ∧ sh.taken = [] ∧ calmNow (pairWl reporting) (min 7 sh.cap) sh ∧ calmNow (pairWl reporting) sh.f sh := by
  refine ⟨by unfold Reach; decide +kernel, by unfold Reach; decide +kernel, ⟨shardAt 1 [] [], by decide +kernel, lowering [1], by decide +kernel, by decide +kernel, by unfold calmNow; decide +kernel, by decide +kernel⟩, by decide +kernel,
    ⟨lowering [], by decide +kernel, ⟨7, here, [(5, ⟨2, 4⟩)], [], 0, 0⟩, ⟨2, 4⟩, (blkOf (quietState (pairWl (lowering []))) 1).getD (fetchBlock base),
      (grpOf (quietState (pairWl (lowering []))) here).getD (fetchGroup base), by decide +kernel⟩, by decide +kernel,
    ⟨reporting, by decide +kernel, by decide +kernel, by decide +kernel, by unfold calmNow; decide +kernel, by unfold calmNow; decide +kernel⟩⟩

def thief : Shard := { shardAt 1 [] [] with taken := [(0, [⟨3, 9⟩])] }
def thiefNow : Shard := { thief with reported := some 9 }
def victim : Shard := { shardAt 0 [] [] with given := [(1, [⟨3, 9⟩])] }
/-- `base` with a worklist that no group uses, its state slot in the mapped page. -/
def unused : State := { base with worklists := [pairWl (shardAt 0 [] [])] }
/-- `unused` while its shard leaves. -/
def leaving : State := modShard 9 0 (fun sh => { sh with leaving := true }) unused
def slotWrite : Spill := shardAccess (pairWl (shardAt 0 [] [])) 0 2 (slotVa unused (pairWl (shardAt 0 [] [])) 0) 256
  (some ((List.range 256).map (Config.spillByte unused.free))) { leaving with free := unused.free + 1 }
def spillOk : Spill → Bool
  | .ok _ u => decide (u.worklists = leaving.worklists)
  | _ => false

theorem witness_StealsAndHandover :
    (∃ t ∈ (pairWl oneItem).shards, ∃ v ∈ (pairWl oneItem).shards, v.core ≠ t.core ∧ (∀ o ∈ (pairWl oneItem).shards, o.core = t.core ∨ o.core = v.core) ∧ v.core < 160 ∧
      v.bound = true ∧ (pairWl oneItem).terminated = false ∧ t.taken = [] ∧ handOrder (pairWl oneItem) t = [] ∧ handOrder (pairWl oneItem) v ≠ []) ∧
    (∀ h ∈ [thief, thiefNow], ∃ v ∈ (wlAt [victim, h]).shards, h.taken = [(v.core, [⟨3, 9⟩])] ∧ v.given = [(h.core, [⟨3, 9⟩])] ∧ v.core ≠ h.core ∧
      calmNow (wlAt [victim, h]) h.f h ∧ h.items.length + 1 ≤ 4096) ∧ thief.reported = none ∧ thiefNow.reported.isSome = true ∧
    ((∀ i ∈ [(⟨3, 9⟩ : Item)], i.prio.toNat ≤ thief.f + 63) ∧ thief.items.length + 1 ≤ 4096) ∧
    boundTo unused 0 = some (pairWl (shardAt 0 [] [])) ∧ (pairWl (shardAt 0 [] [])).killed = false ∧ (pairWl (shardAt 0 [] [])).unreachable = none ∧
    ((shardIn (pairWl (shardAt 0 [] [])) 0).all fun sh => sh.items.isEmpty && sh.spillToken.isNone && sh.doing.isNone) = true ∧ unused.pkg.haltDies = 0 ∧ unused.pkg.lostDies = 0 ∧
    (wlOf unused 9).isSome = true := by
  refine ⟨⟨shardAt 1 [] [], by decide +kernel, oneItem, by decide +kernel, by decide +kernel, by decide +kernel, by decide +kernel, by decide +kernel, by decide +kernel,
    by decide +kernel, ?_, ?_⟩, fun h hh => ⟨victim, ?_⟩, by decide +kernel, by decide +kernel, by decide +kernel⟩
  · have : (shardAt 1 [] []).items.filter (fun i => decide (keyBy (pairWl oneItem) i.prio ≤ (shardAt 1 [] []).f + (pairWl oneItem).wrec.lambda)) = [] := by decide +kernel
    rw [handOrder, this, List.mergeSort_nil]
  · rw [handOrder_one]; decide
  · unfold calmNow; revert h; decide +kernel

theorem witness_StealsAndHandover_slot : ∃ bs u, slotWrite = .ok bs u ∧ u.worklists = leaving.worklists := by
  have h : spillOk slotWrite = true := by decide +kernel
  revert h
  cases slotWrite with
  | ok bs u => intro h; exact ⟨bs, u, rfl, of_decide_eq_true h⟩
  | _ => intro h; simp [spillOk] at h

/-- `base` with its page not writable, and k1 an address in it. -/
def readOnly : State := { kregs [(1, 0x10040)] with tlbs := [⟨.core 0, 1, 0x10, { fetchLeaf with w := false }⟩] }
/-- The group waits at a label command. -/
def labelling : State := withGrp fun g => { g with stack := [{ fetchEntry with wait := .label 7 5 }] }
/-- What a label command's address comes to. -/
def labelHere (g : Sig) (l : Leaf) (x : Iss) (s : State) : Prop := canonical (kget x.grp 1) = true ∧
  translate (.core x.core) x.ctx .read (kget x.grp 1) (advance g x s) = (.ok 0x10040 l, advance g x s)

theorem witness_LabelCommands :
    (∀ g ∈ [sigLblrd 5 1, sigLblset 5 1 3, sigLbllock 5 1, sigLblunl 5 1, sigLblhist 5 1],
      Met g (fun x s => labelHere g fetchLeaf x s ∧ fetchLeaf.w = true ∧ nowait x = true ∧ released x s) ∧
      Met g (fun x s => labelHere g fetchLeaf x s ∧ fetchLeaf.w = true ∧ ¬ released x s) ∧
      Met g (fun x s => labelHere g { fetchLeaf with w := false } x s ∧ ({ fetchLeaf with w := false } : Leaf).w = false) ∧
      Met g (fun x _ => canonical (kget x.grp 1) = false)) ∧
    ∃ b g, blkOf labelling b.id = some b ∧ grpIn b g.gid = some g ∧ (∃ e ∈ g.stack, e.wait = .label (agentMsg 0 0x10040 128 1 0 7 false).tag 5) ∧
      (labelling.blocks.all fun c => c.groups.all fun h => h.stack.all fun e => !(e.wait == .label 7 5) || (c.id == b.id && h.gid == g.gid)) = true := by
  refine ⟨fun g hg => ⟨met (kregs [(1, 0x10040)]) ?_ ?_, met ({ kregs [(1, 0x10040)] with eng := { Eng.reset with accs := [loadOf 9] } }) ?_ ?_, met readOnly ?_ ?_,
      met (kregs [(1, 0x800000000000)]) ?_ ?_⟩, (blkOf labelling 1).getD (fetchBlock base), (grpOf labelling here).getD (fetchGroup base), by decide +kernel, by decide +kernel,
    by decide +kernel, by decide +kernel⟩
  · revert g; decide +kernel
  · unfold labelHere released; revert g; decide +kernel
  · revert g; decide +kernel
  · unfold labelHere released; revert g; decide +kernel
  · revert g; decide +kernel
  · unfold labelHere; revert g; decide +kernel
  · revert g; decide +kernel
  · revert g; decide +kernel

/-! ## Witnesses: package and management events -/

/-- `base` with MSEM given: OWN = 1, a lease of 2 ms. -/
def owned : State := { base with mg := { Mgmt.reset with msem := 2 * 2 ^ 16 + 1 * 2 ^ 4 }, ns := 5000000 }

theorem witness_ManagementSemaphore : msemOwn base = 0 ∧ msemOwn owned = ownerNum .a ∧ msemOwn owned ≠ ownerNum .b ∧ msemOwn owned ≠ 0 ∧ msemLease owned ≠ 0 ∧
    owned.mg.leaseFrom + msemLease owned * 1000000 ≤ owned.ns ∧ owned.pkg.lostDies.getLsbD 4 = false := by
  decide +kernel

/-- A context that has touched die 2, with a group that waits there; and another context. -/
def lossState : State := { base with ctxs := [{ fetchCtx with tdm := 4 }, { fetchCtx with id := 2 }] }

theorem witness_ResetAndLoss : lossState.eng.bds = [] ∧ (lossState.ctxs.map (·.id)).Nodup ∧ (lossState.blocks.map (·.id)).Nodup ∧
    (∀ b ∈ lossState.blocks, (b.groups.map (·.gid)).Nodup) ∧ (∃ c ∈ lossState.ctxs, c.tdm &&& 0x14 ≠ 0 ∧ c.cst ≠ 3) ∧
    (∃ c ∈ lossState.ctxs, c.tdm &&& 0x14 = 0) ∧ (∃ b ∈ lossState.blocks, ∃ g ∈ b.groups, g.exited = false) ∧ (0x14 : BitVec 16).getLsbD 4 = true ∧ (12 : Nat) < 13 ∧
    lossState.coh.homeQ = [] ∧ (∀ r ∈ lossState.coh.regions, r.sw = false) := by
  decide +kernel

theorem witness_ClockAndHealth : (100 : Nat) ≤ 100 ∧ (13 : Nat) ≤ 13 ∧ (2 ^ 32 - 1 : Nat) < 2 ^ 32 ∧ 7 < base.pkg.hbmErrors.length ∧
    base.pkg.hbmErrors.length = base.pkg.hbmClosed.length := by decide +kernel

/-- Port 15 up, and down after eight failed replays. -/
def portsAt (f : UPort → UPort) : State := { base with pkg := { Pkg.reset with ports := Pkg.reset.ports.map f } }

/-- The bytes of a flit of class 5 without slots, and of one of the reserved class 6. -/
def goodBytes : List Byte := flitImage (flitBody 5 0 0 0 [])
def reservedFlit : Flit := { bytes := (192#8 : Byte) :: List.replicate 255 0, corr := 0, margin := 9 }

theorem crc_read (b : List Byte) (h : b.length = 244) (n : W32) : ofBytes (slice 0 (b ++ toBytes 4 n.toNat ++ (List.range 8).map (Config.flitFec b)) 244 4) = n.toNat := by
  have hs : slice 0 (b ++ toBytes 4 n.toNat ++ (List.range 8).map (Config.flitFec b)) 244 4 = toBytes 4 n.toNat := by
    simp [slice, List.range_succ, toBytes, List.getElem?_append_right, h]
  have := n.isLt
  rw [hs]; simp [ofBytes, toBytes]; omega

theorem good_crc : flitCrcOk goodBytes = true := by
  have h : (flitBody 5 0 0 0 []).length = 244 := by decide +kernel
  have e : goodBytes.take 244 = flitBody 5 0 0 0 [] := by rw [goodBytes, flitImage, List.append_assoc, List.take_append_of_le_length (by omega), List.take_of_length_le (by omega)]
  rw [flitCrcOk, e, goodBytes, flitImage, crc_read _ h]; simp

theorem witness_UbyozoPorts : 15 < (portsAt id).pkg.ports.length ∧ ((portsAt id).pkg.ports.getD 15 UPort.reset).up = true ∧
    ((portsAt fun p => { p with up := false }).pkg.ports.getD 15 UPort.reset).up = false ∧ 8 ≤ ((portsAt fun p => { p with fails := 8 }).pkg.ports.getD 15 UPort.reset).fails ∧
    ((portsAt id).pkg.ports.getD 15 UPort.reset).waiting = [] ∧
    (∃ f : Flit, flitCrcOk f.bytes = true ∧ flitClass f.bytes < 6 ∧ flitSeq f.bytes = ((portsAt id).pkg.ports.getD 15 UPort.reset).seq.toNat) ∧
    (∃ f : Flit, flitCrcOk f.bytes = true ∧ flitClass f.bytes < 6 ∧ flitSeq f.bytes ≠ ((portsAt fun p => { p with seq := 1 }).pkg.ports.getD 15 UPort.reset).seq.toNat) ∧
    (∃ f : Flit, ¬ (flitCrcOk f.bytes = true ∧ flitClass f.bytes < 6)) ∧ (let p := (portsAt id).pkg.ports.getD 15 UPort.reset
      p.downCnt < 256 ∧ p.margin < 256 ∧ p.replay < 65536 ∧ p.corr < 2 ^ 32) := by
  refine ⟨by decide +kernel, by decide +kernel, by decide +kernel, by decide +kernel, by decide +kernel, ⟨⟨goodBytes, 0, 9⟩, good_crc, by decide +kernel, by decide +kernel⟩,
    ⟨⟨goodBytes, 0, 9⟩, good_crc, by decide +kernel, by decide +kernel⟩, ⟨reservedFlit, fun h => absurd h.2 (by decide +kernel)⟩, by decide +kernel⟩

/-- Port 15 up with a flit in its retry buffer and a message that waits, both for device 3, to which port 2 has a route; `k` replays have failed. -/
def replaying (k : Nat) : State :=
  let s := portsAt id
  { s with pkg := { s.pkg with
      routes := s.pkg.routes.set 3 4
      ports := s.pkg.ports.set 15 { UPort.reset with up := true, tries := k, fails := k, retry := [(goodBytes, [(3, 0, [])])], waiting := [(3, 1, [])] } } }

/-- A peer that asks for a replay while there are some left and when there are none; traffic that another port takes when the port goes down. -/
theorem witness_UbyozoPorts_replay : (∀ k ∈ [3, 8, 9], let s := replaying k
      15 < s.pkg.ports.length ∧ (s.pkg.ports.getD 15 UPort.reset).up = true ∧ (s.pkg.ports.getD 15 UPort.reset).retry ≠ [] ∧ (s.pkg.ports.getD 15 UPort.reset).tries = k ∧
      ∃ m ∈ (s.pkg.ports.getD 15 UPort.reset).waiting ++ (s.pkg.ports.getD 15 UPort.reset).retry.flatMap (·.2), m.1 < 16 ∧
        routeTo { s with pkg := { s.pkg with ports := s.pkg.ports.set 15 UPort.reset } } m.1 = some 2 ∧ 2 < s.pkg.ports.length) ∧
    (∃ s : State, 15 < s.pkg.ports.length ∧ (s.pkg.ports.getD 15 UPort.reset).waiting = [] ∧ (s.pkg.ports.getD 15 UPort.reset).retry = [] ∧
      (s.pkg.ports.getD 15 UPort.reset).up = true ∧ 9 ≤ (s.pkg.ports.getD 15 UPort.reset).fails) ∧
    ∃ s : State, 15 < s.pkg.ports.length ∧ (s.pkg.ports.getD 15 UPort.reset).up = false := by
  refine ⟨by decide +kernel, ⟨portsAt fun p => { p with fails := 9 }, by decide +kernel⟩, ⟨portsAt fun p => { p with up := false }, by decide +kernel⟩⟩

/-- Two enabled VFs of port A with ranges side by side; MSEM is held by port A; a queue of VF 1. -/
def polOf (lo cnt : Nat) : W64 := BitVec.ofNat 64 (lo * 2 ^ 52 + cnt * 2 ^ 40 + 3 * 2 ^ 17 + 3 * 2 ^ 14 + 2 ^ 12)
def queueAt (id vf : Nat) : Queue :=
  { id := id, cptr := 0x10000, done := 0, caddr := 0, ctx := 1, vf := vf, prio := 0, state := .stopped, fcode := 0, stopAsked := false, serWait := false, served := false,
    condDone := false, faulted := [], seq := 0, work := [] }
def managed : State := { owned with
  mg := { owned.mg with fns := (Mgmt.reset.fns.set 1 { Fn.reset with policy := polOf 0 7 }).set 2 { Fn.reset with policy := polOf 8 7 } }
  queues := [queueAt 3 1, queueAt 9 2] }

theorem witness_PoliciesAndTenants : managed.mg.fns.length = 65 ∧ managed.faultQs.length = 65 ∧ (managed.queues.map (·.id)).Nodup ∧
    (bit (pol managed 1) 13 = (Port.a == .b) ∧ msemOwn managed = ownerNum .a ∧ bit (pol managed 1) 12 = true) ∧ bit (pol managed 1) 13 ≠ (Port.b == .b) ∧
    (bit (pol base 1) 13 = (Port.a == .b) ∧ msemOwn base ≠ ownerNum .a) := by decide +kernel

/-- `RangeFits`, decided. -/
def fitsNow (s : State) (vf lo cnt : Nat) (en : Bool) : Bool := decide (lo + cnt ≤ 4095) && (!en || (List.range 65).all fun v => v == 0 || v == vf || !bit (pol s v) 12 ||
  decide (lo + cnt < bits (pol s v) 63 52) || decide (bits (pol s v) 63 52 + bits (pol s v) 51 40 < lo))
theorem fitsNow_iff {s : State} {vf lo cnt : Nat} {en : Bool} : fitsNow s vf lo cnt en = true ↔ RangeFits s vf lo cnt en := by
  simp only [fitsNow, RangeFits, Bool.and_eq_true, Bool.or_eq_true, Bool.not_eq_true', List.all_eq_true, List.mem_range, decide_eq_true_eq, beq_iff_eq]
  refine and_congr_right fun _ => ⟨fun h he v h1 h2 hv hb => ?_, fun h => ?_⟩
  · rcases h with h | h
    · simp [h] at he
    · have := h v (by omega); simp [hb] at this; omega
  · cases en with
    | false => exact .inl rfl
    | true =>
      refine .inr fun v hv => ?_
      by_cases h0 : v = 0
      · simp [h0]
      by_cases h1 : v = vf
      · simp [h1]
      cases hb : bit (pol s v) 12 with
      | false => simp
      | true => have := h rfl v (by omega) (by omega) h1 hb; omega

theorem witness_PoliciesAndTenants_ranges : RangesOk managed ∧ RangeFits managed 1 0 7 true ∧ ¬ RangeFits managed 1 0 8 true ∧ ¬ RangeFits managed 1 4095 1 false := by
  refine ⟨fun v h1 h2 => fitsNow_iff.1 ?_, fitsNow_iff.1 (by decide +kernel), fun h => ?_, fun h => ?_⟩
  · have h : (List.range 65).all (fun v => fitsNow managed v (bits (pol managed v) 63 52) (bits (pol managed v) 51 40) (bit (pol managed v) 12)) = true := by decide +kernel
    exact List.all_eq_true.1 h v (List.mem_range.2 (by omega))
  · exact absurd (fitsNow_iff.2 h) (by decide +kernel)
  · exact absurd (fitsNow_iff.2 h) (by decide +kernel)

theorem witness_DeviceRegisters : managed.mg.fns.length = 65 ∧ managed.faultQs.length = 65 ∧ (2 : Nat) ≤ 64 ∧ bit (pol managed 2) 13 = (Port.a == .b) ∧
    bit (pol managed 2) 13 ≠ (Port.b == .b) ∧ (2 : Nat) ≠ 0 ∧ bit managed.mg.heatctl.toNat 2 = false ∧ bit (2 : W64).toNat 1 = true ∧ 6 ≤ (6 : W64).toNat % 32 ∧ (16 : W64).toNat % 32 ≤ 16 := by
  decide +kernel

/-- The heat table at 0x5000000, a halving and a CTSYNC under way. -/
def halving : State := { managed with mg := { managed.mg with heatctl := 0x5000005, ctsyncp := BitVec.ofNat 64 (2 ^ 63 + 5) } }

theorem witness_ManagementWork : bit halving.mg.ctsyncp.toNat 63 = true ∧ bit managed.mg.ctsyncp.toNat 63 = false ∧ bit halving.mg.heatctl.toNat 2 = true ∧
    bit managed.mg.heatctl.toNat 2 = false ∧ (4 : Nat) < 5 ∧ managed.mg.pdbase.length = 16 ∧ managed.mg.pdmap.length = 16 := by decide +kernel

theorem witness_ManagementWork_home : AllHome halving := by unfold AllHome; decide +kernel

/-- A halving under way whose bytes have not been looked at, and one whose last step is under way at its home. -/
def halvingLast : State := { halving with
  mg := { halving.mg with halved := true }
  coh := { Coh.reset with txns := [{ pa := 0x5000000, gsz := 128, req := ⟨.halve, homeMsg 0x5000000 128, [], false⟩, kind := .uncachedW, lab := .uncl, await := [3],
                                     wbAwait := [], wbSeen := [], needAck := false, dirty := false, counts := [], keepAwait := false, keepSeen := false }] } }

theorem witness_ManagementWork_halving : bit halving.mg.heatctl.toNat 2 = true ∧ halving.mg.halved = false ∧
    (let base := bits halving.mg.heatctl.toNat 51 12 * 4096
     base + heatSize halving ≤ 2 ^ 48 ∧ halving.mg.ctbase.toNat + 64 * halving.mg.ctlim.toNat ≤ 2 ^ 48) ∧
    bit halvingLast.mg.heatctl.toNat 2 = true ∧ halvingLast.mg.halved = true ∧
    ∃ x ∈ halvingLast.coh.txns, x.req.kind = .halve ∧ homeLost halvingLast x.req.msg.pa = false := by decide +kernel

/-- A descriptor with a window of 2 pages, and with an empty one. -/
def descAt (vf : Nat) : DescWrite := { root := 1, vf := vf, padBase := 4, padLim := 2, wdt := 3 }
def emptyDesc (vf : Nat) : DescWrite := { descAt vf with padLim := 0 }

theorem witness_Contexts :
    ((0 : Nat) = 0 ∨ bit (pol managed 0) 13 = (Port.a == .b)) ∧ (descAt 2).vf < 128 ∧ (descAt 2).padBase < 2 ^ 15 ∧ (descAt 2).padLim < 2 ^ 15 ∧ (descAt 2).wdt < 2 ^ 16 ∧
    (emptyDesc 2).padLim < 2 ^ 15 ∧ (emptyDesc 2).padLim = 0 ∧
    managed.mg.cxbase.toNat + 64 * 65535 + 64 ≤ 2 ^ 48 ∧ (managed.ctxs.map (·.id)).Nodup ∧ (ctxOf managed 1).isSome = true ∧ (ctxOf managed 2).isNone = true ∧
    ¬ ((2 : Nat) = 0 ∨ ∃ c ∈ managed.ctxs, c.id = 1 ∧ c.vf = 2) ∧
    (∃ x ∈ managed.ctxs, x.en = true ∧ x.id ≠ 2 ∧ x.vf ≠ (descAt 2).vf ∧ 0 < (descAt 2).padLim ∧ 0 < x.padLim ∧ (descAt 2).padBase < x.padBase + x.padLim ∧ x.padBase < (descAt 2).padBase + (descAt 2).padLim) ∧
    (∀ q ∈ managed.queues, q.ctx = 1 → q.state = .stopped) ∧
    ∃ q ∈ ({ managed with queues := [{ queueAt 3 1 with state := .parked }] } : State).queues, q.ctx = 1 ∧ q.state ≠ .stopped := by decide +kernel

theorem witness_Contexts_home : AllHome managed := by unfold AllHome; decide +kernel

/-- The PF names context 1, page 0x10 and cluster 0; the same with a SHOOT under way, and with a save area in the descriptor. -/
def shooting (busy : Nat) (f : Ctx → Ctx) : State := { base with
  mg := { Mgmt.reset with fns := Mgmt.reset.fns.set 0 { Fn.reset with
    shootva := BitVec.ofNat 64 (2 ^ 48 + 0x10000), shootn := BitVec.ofNat 64 (busy * 2 ^ 63 + 1), preemptc := BitVec.ofNat 64 (2 ^ 16 + 1) } }
  ctxs := [f fetchCtx], coh := { Coh.reset with ibuf := [⟨0, 1, 0x10000 / 32, 0, []⟩] } }

theorem witness_ShootAndPreempt : (shooting 0 id).mg.fns.length = 65 ∧ bit (fnOf (shooting 0 id) 0).shootn.toNat 63 = false ∧ bit (fnOf (shooting 1 id) 0).shootn.toNat 63 = true ∧
    bits (fnOf (shooting 0 id) 0).shootva.toNat 63 48 = 1 ∧ bits (fnOf (shooting 0 id) 0).preemptc.toNat 15 0 = 1 ∧ (ctxOf (shooting 0 id) 1).isSome = true ∧
    (∃ e ∈ (shooting 0 id).tlbs, e.ctx = 1 ∧ e.vpn = 0x10) ∧ (∃ w ∈ (shooting 0 id).coh.ibuf, w.ctx = 1 ∧ w.win % 2 ^ 43 / 128 = 0x10) ∧ ((shooting 0 id).blocks.map (·.id)).Nodup ∧ ((shooting 0 id).ctxs.map (·.id)).Nodup ∧
    (∃ b ∈ (shooting 0 id).blocks, b.ctx = 1 ∧ coreCluster b.core = 0 ∧ b.state = .resident) ∧ (saveArea (shooting 0 id) 1).isNone = true ∧ (saveArea (memWrite 8 [1] (shooting 0 id)) 1).isSome = true ∧
    (fnOf base 5).shootva.toNat / 2 ^ 48 = 0 ∧ (ctxOf base 0).isNone = true := by decide +kernel

/-- A launch that waits on a halted die of its context, and one that does not. -/
def haltedState : State := { base with
  pkg := { Pkg.reset with haltDies := 4 }, mg := owned.mg, ctxs := [{ fetchCtx with tdm := 4 }, { fetchCtx with id := 2, tdm := 1 }]
  launches := [{ fetchLaunch base with wdPause := some 0 }, { fetchLaunch base with id := 2, ctx := 2 }] }

theorem witness_DieHalts : msemOwn haltedState = ownerNum .a ∧ (haltedState.launches.map (·.id)).Nodup ∧ haltedState.coh.homeQ = [] ∧ (∀ r ∈ haltedState.coh.regions, r.sw = false) ∧
    (∃ l ∈ haltedState.launches, l.wdPause = some 0 ∧ ∀ c ∈ haltedState.ctxs, c.id = l.ctx → c.tdm &&& (haltedState.pkg.haltDies &&& ~~~4) = 0) ∧
    ∃ l ∈ haltedState.launches, l.wdPause = none ∧ ∃ c ∈ haltedState.ctxs, c.id = l.ctx ∧ c.tdm &&& (haltedState.pkg.haltDies ||| 1) ≠ 0 := by decide +kernel

/-! ## Witnesses: queues and compression -/

/-- `managed` with a queue record for queue 3: CPTR, function 1 and PRIO. -/
def tableOf (prio : Nat) : State := memWrite 192 (toBytes 64 (0x10000 * 2 ^ 448 + 2 ^ 304 + 2 ^ 297 + prio * 2 ^ 294)) managed
/-- The range that function 1 holds. -/
def inRange1 (s : State) : Prop := bit (pol s 1) 12 = true ∧ bits (pol s 1) 63 52 ≤ 3 ∧ 3 ≤ bits (pol s 1) 63 52 + bits (pol s 1) 51 40
def queued (f : Queue → Queue) : State := { managed with queues := [f (queueAt 3 1)] }

theorem witness_QueueCommands : (bit (pol (tableOf 0) 1) 13 = (Port.a == .b)) ∧ inRange1 (tableOf 0) ∧ inRange1 (tableOf 5) ∧ ¬ inRange1 base ∧
    (∀ x ∈ (tableOf 0).queues, x.id = 3 → x.state = .stopped) ∧ (tableOf 0).coh.wbufs = [] ∧
    (∀ p ∈ [0, 5], bit (pol (tableOf p) (bits (memNum (tableOf p) 192 64) 303 297)) 12 = true ∧ bits (memNum (tableOf p) 192 64) 303 297 = 1) ∧
    bits (pol (tableOf 5) 1) 16 14 < bits (memNum (tableOf 5) 192 64) 296 294 ∧ ¬ bits (pol (tableOf 0) 1) 16 14 < bits (memNum (tableOf 0) 192 64) 296 294 ∧
    (∀ st ∈ [(QState.running, false), (.running, true), (.parked, false), (.waiting, false), (.stopped, false)], ∃ x,
      queueOf (queued fun q => { q with state := st.1, serWait := st.2 }) 3 = some x ∧ x.state = st.1 ∧ x.serWait = st.2) := by
  refine ⟨by decide +kernel, by unfold inRange1; decide +kernel, by unfold inRange1; decide +kernel, by unfold inRange1; decide +kernel, by decide +kernel, by decide +kernel,
    by decide +kernel, by decide +kernel, by decide +kernel, fun st h => ⟨(queueOf (queued fun q => { q with state := st.1, serWait := st.2 }) 3).getD (queueAt 3 1), ?_⟩⟩
  revert st; decide +kernel

theorem witness_QueueCommands_home : AllHome (tableOf 0) ∧ AllHome (tableOf 5) := by unfold AllHome; decide +kernel

/-- A queue at the block of 128 bytes that stands at 0x10080, whose page the engine's TLB holds; the words of the block come in order. -/
def walking (f : Queue → Queue) (ws : List Nat) : State :=
  { memWrite 0x10080 (ws.flatMap (toBytes 8)) base with queues := [f { queueAt 3 0 with cptr := 0x10080, state := .running }], tlbs := [⟨.queue, 1, 0x10, fetchLeaf⟩] }
def queue3 (s : State) : Queue := (queueOf s 3).getD (queueAt 3 0)
def blockGot (s : State) : Got := readAt .queue (queueKey 3 0) (queue3 s).ctx (queue3 s).cptr 128 (setTdm (queue3 s).ctx 16 s)
def blockAt (s : State) : CBlock := cblockOf (bytesOf (blockGot s))
/-- `BlockRead` of queue 3, with what decides it; the block has passed its checks up to `code`. -/
def blockNow (s : State) : Prop := (queue3 s).id = 3 ∧ (queue3 s).cptr.toNat % 128 = 0 ∧ canonical (queue3 s).cptr = true ∧ gotOk (blockGot s) = true ∧
  queueOf (stateOf (blockGot s)) 3 = some (queue3 s)
theorem blockRead_of {s : State} (h : blockNow s) : BlockRead (queue3 s) s (blockAt s) (stateOf (blockGot s)) := by
  obtain ⟨h1, h2, h3, h4, h5⟩ := h
  exact ⟨h2, h3, bytesOf (blockGot s), by rw [h1]; exact got_eq h4, rfl, by rw [h1]; exact h5⟩
def flawNow (s : State) : Option Nat := flaw (queue3 s) (blockAt s) (stateOf (blockGot s))

/-- A block's words: NEXT 0x10100, ALT 0x10180, its header, the condition word at 0x10200 with value 1 and a full mask, P0 and P1. -/
def blockWords (hdr p0 : Nat) : List Nat := [0x10100, 0x10180, hdr, 0x10200, 1, 2 ^ 64 - 1, p0, 5]
def hdrOf (op cond fail ser : Nat) : Nat := op * 2 ^ 56 + ser * 2 ^ 40 + cond * 2 ^ 36 + fail * 2 ^ 34
def actingNow (s : State) : Prop := queueOf s 3 = some (queue3 s) ∧ (queue3 s).id = 3 ∧ s.pkg.lostDies.getLsbD 4 = false ∧ s.pkg.haltDies.getLsbD 4 = false ∧
  (queue3 s).faulted = []
theorem acting_of {s : State} (h : actingNow s) : Acting (queue3 s) s := by
  obtain ⟨h1, h2, h3⟩ := h
  exact ⟨by rw [h2]; exact h1, h3⟩
def servingNow (s : State) : Prop := actingNow s ∧ (queue3 s).state = .running ∧ (queue3 s).served = false ∧ (queue3 s).serWait = false
/-- The engine holds the grain at `pa` exclusive, the words in it being `v`. -/
def engineHolds (pa v : Nat) (s : State) : State :=
  { s with coh := { s.coh with l1 := [⟨178, pa, 128, 1, 0, .e, .uncl, (List.replicate 16 v).flatMap (toBytes 8), 0, false, []⟩] } }

def qresOk : QRes → Bool
  | .ok _ _ => true
  | _ => false
def qresVal : QRes → W64
  | .ok v _ => v
  | _ => 0
def qresState : QRes → State
  | .ok _ s => s
  | _ => base
theorem qres_eq {r : QRes} (h : qresOk r = true) : r = .ok (qresVal r) (qresState r) := by cases r <;> first | rfl | simp [qresOk] at h

/-- The condition word of the block that has been read, read or acquired; it has been read, and the queue is as it was. -/
def condGot (s : State) : QRes :=
  let b := blockAt s
  let u := stateOf (blockGot s)
  if b.cond = 5 then qAtomic (queue3 s) 1 b.cadr (fun n => condHolds b n.toNat) (fun n => n - BitVec.ofNat 64 b.cval) u else qRead (queue3 s) 1 b.cadr u
def condNow (s : State) : Prop := 1 ≤ (blockAt s).cond ∧ (blockAt s).cond ≤ 5 ∧ qresOk (condGot s) = true ∧ (queue3 s).id = 3 ∧
  queueOf (qresState (condGot s)) 3 = some (queue3 s)
theorem condRead_of {s : State} (h : condNow s) (ok : Bool) (hm : ok = true ↔ condMet (blockAt s) (qresVal (condGot s)).toNat) :
    CondRead (queue3 s) (blockAt s) ok (stateOf (blockGot s)) (qresState (condGot s)) := by
  obtain ⟨h1, h2, h3, h4, h5⟩ := h
  refine ⟨by rw [h4]; exact h5, .inr ?_⟩
  by_cases hc : (blockAt s).cond = 5
  · exact .inr ⟨hc, qresVal (condGot s), by simpa [condGot, hc] using qres_eq h3, hm⟩
  · exact .inl ⟨h1, by omega, qresVal (condGot s), by simpa [condGot, hc] using qres_eq h3, hm⟩

/-- Each operation behind no condition; a condition that holds or does not, with each way to fail; SEMACQ with a grain that the engine holds. -/
theorem witness_QueueWalk :
    (∀ op ∈ [0, 1, 2, 3, 4], let s := walking id (blockWords (hdrOf op 0 0 0) 0x10280)
      servingNow s ∧ blockNow s ∧ flawNow s = none ∧ (blockAt s).op = op ∧ (queue3 s).condDone = false) ∧
    (∀ e ∈ [(1, 0), (1, 1), (1, 2), (2, 0)], let s := walking id (blockWords (hdrOf 0 e.1 e.2 0) 0)
      blockNow s ∧ flawNow s = none ∧ servingNow s ∧ (blockAt s).cond = e.1 ∧ (blockAt s).onFail = e.2 ∧ condNow s ∧ qresVal (condGot s) = 0) ∧
    (∀ v ∈ [0, 3], let s := engineHolds 0x10200 v (walking id (blockWords (hdrOf 0 5 1 0) 0))
      blockNow s ∧ flawNow s = none ∧ servingNow s ∧ condNow s ∧ qresVal (condGot s) = BitVec.ofNat 64 v) ∧
    (let busy := walking (fun q => { q with work := [⟨0, 0, false, .pending⟩] }) (blockWords (hdrOf 0 0 0 1) 0)
     servingNow busy ∧ blockNow busy ∧ flawNow busy = none ∧ (blockAt busy).ser = true ∧ ∃ w ∈ (queue3 busy).work, w.fin = .pending) ∧
    (∀ e ∈ [(hdrOf 5 0 0 0, 0x10280, 0, 1), (hdrOf 2 0 0 0, 0x10284, 0, 2), (hdrOf 2 0 0 0, 0x10280, 1, 5)], let s := walking (fun q => { q with vf := e.2.2.1 }) (blockWords e.1 e.2.1)
      servingNow s ∧ blockNow s ∧ flawNow s = some e.2.2.2) ∧
    (let odd := walking (fun q => { q with cptr := 0x10084 }) []
     servingNow odd ∧ (queue3 odd).cptr.toNat % 128 ≠ 0) := by
  refine ⟨?_, ?_, ?_, ?_, ?_, ?_⟩ <;> (unfold servingNow actingNow; try unfold blockNow) <;> (try unfold condNow) <;> decide +kernel

theorem witness_QueueWalk_reads (s : State) (h : blockNow s) (a : actingNow s) :
    BlockRead (queue3 s) s (blockAt s) (stateOf (blockGot s)) ∧ Acting (queue3 s) s := ⟨blockRead_of h, acting_of a⟩

/-- Operations on words, a launch record that is not legal and one that is, and what a waiting and a parked queue find. -/
theorem witness_QueueWalk_performs :
    (let s := engineHolds 0x10280 6 (walking id (blockWords 0 0))
     let u := modQueue 3 (fun q => { q with condDone := true }) (stateOf (blockGot s))
     ∀ r ∈ [qWrite (queue3 s) 1 0x10300 5 u, qAtomic (queue3 s) 1 0x10280 (fun _ => true) (fun n => n + 5) u, qRead (queue3 s) 1 0x10300 u],
       qresOk r = true ∧ queueOf (qresState r) 3 = queueOf u 3) ∧
    (∀ e ∈ [(0, false), (0x10000 * 2 ^ 960 + 2 ^ 672, true)],
      let s := memWrite 0x10280 (toBytes 128 e.1) (walking id (blockWords (hdrOf 1 0 0 0) 0x10280))
      let u := modQueue 3 (fun q => { q with condDone := true }) (stateOf (blockGot s))
      let r := readAt .queue (queueKey 3 2) 1 0x10280 128 u
      gotOk r = true ∧ queueOf (stateOf r) 3 = queueOf u 3 ∧ (∀ c ∈ (stateOf r).ctxs, c.cst ≠ 3) ∧ (∀ w ∈ (queue3 s).work, w.seq ≠ (queue3 s).seq) ∧
        (∀ n ∈ (stateOf r).launches, n.id ≠ (stateOf r).nextId) ∧ (lrecOk (ofBytes (bytesOf r)) (lrecOf false (ofBytes (bytesOf r))) = true ↔ e.2 = true) ∧
        (e.2 = true → (footOf (lrecOf false (ofBytes (bytesOf r)))).le emptyCore = true)) ∧
    (let s := walking (fun q => { q with state := .waiting }) [0, 0x10180, hdrOf 0 1 2 0, 0x10200, 1, 1, 0, 0]
     (queue3 s).state = .waiting ∧ actingNow s ∧ blockNow s ∧ flawNow s = none ∧ condNow s) ∧
    (∀ next ∈ [0x10100, 0x10104, 0], let s := walking (fun q => { q with state := .parked }) [next, 0x10180, 0, 0x10200, 1, 1, 0, 0]
      let r := qRead (queue3 s) 1 (queue3 s).cptr (setTdm 1 16 s)
      (queue3 s).state = .parked ∧ (queue3 s).ctx = 1 ∧ actingNow s ∧ qresOk r = true ∧ (qresVal r).toNat = next ∧ queueOf (qresState r) 3 = some (queue3 s)) ∧
    (let s := walking (fun q => { q with caddr := 0x10300, serWait := true, work := [⟨0, 0x10080, true, .success⟩] }) (blockWords 0 0)
     let r := qWrite (queue3 s) 3 (queue3 s).caddr ((queue3 s).done + 1) s
     actingNow s ∧ (queue3 s).caddr ≠ 0 ∧ (queue3 s).serWait = true ∧ (queue3 s).work = [⟨0, 0x10080, true, .success⟩] ∧ qresOk r = true ∧ queueOf (qresState r) 3 = some (queue3 s)) := by
  refine ⟨?_, ?_, ?_, ?_, ?_⟩ <;> (try unfold actingNow) <;> (try unfold blockNow condNow) <;> decide +kernel

/-- A COPY block of queue 3 whose record at 0x10280 is `r`, and the read of that record. -/
def copyBlock (r : Nat) : State :=
  let s := memWrite 0x10280 (toBytes 64 r) (walking id (blockWords (hdrOf 3 0 0 0) 0x10280))
  modQueue 3 (fun q => { q with condDone := true }) (stateOf (blockGot s))
def copyGot (r : Nat) : Got := readAt .queue (queueKey 3 2) 1 0x10280 64 (copyBlock r)
def copySides (r : Nat) : List (Nat × W64 × List Int) := sidesOf (trecOf (bytesOf (copyGot r))) true true

/-- A record that passes its checks, one that is not aligned, and one that names the slab. -/
theorem witness_QueueWalk_copies :
    (∀ r ∈ [recNat 0 0 2 0 0 0x10300 0x10304 0 0, recNat 0 0 2 0 0 0x10301 0x10304 0 0, recNat 1 0 2 0 0 0 0x10304 0 0], gotOk (copyGot r) = true ∧
      queueOf (stateOf (copyGot r)) 3 = queueOf (copyBlock r) 3 ∧ (stateOf (copyGot r)).eng.copies = [] ∧
      (∀ q ∈ copySides r, q.1 = 0 → ∀ k, k < elements (trecOf (bytesOf (copyGot r))) →
        canonical (q.2.1 + BitVec.ofInt 64 (elementAt (trecOf (bytesOf (copyGot r))) q.2.2 k)) = true) ∧
      naks (translate .queue 1 .read (trecOf (bytesOf (copyGot r))).srca (stateOf (copyGot r))).1 = false ∧
      naks (translate .queue 1 .write (trecOf (bytesOf (copyGot r))).dsta (stateOf (copyGot r))).1 = false) ∧
    (let r := recNat 0 0 2 0 0 0x10300 0x10304 0 0
     ∀ q ∈ copySides r, sideAligned (trecOf (bytesOf (copyGot r))) q.1 q.2.1 q.2.2 ∧ sideInside (trecOf (bytesOf (copyGot r))) 0 0 q.1 q.2.1 q.2.2) ∧
    (let r := recNat 0 0 2 0 0 0x10301 0x10304 0 0
     ¬ ∀ q ∈ copySides r, sideAligned (trecOf (bytesOf (copyGot r))) q.1 q.2.1 q.2.2) ∧
    (let r := recNat 1 0 2 0 0 0 0x10304 0 0
     (∀ q ∈ copySides r, sideAligned (trecOf (bytesOf (copyGot r))) q.1 q.2.1 q.2.2) ∧
       ¬ ∀ q ∈ copySides r, sideInside (trecOf (bytesOf (copyGot r))) 0 0 q.1 q.2.1 q.2.2) := by
  refine ⟨?_, ?_, ?_, ?_⟩ <;> (try unfold sideAligned) <;> (try unfold sideInside) <;> decide +kernel

/-- Page 5 of the compressed space with a table entry at 0x5000, not yet in the L2. -/
def compPageNo : Nat := 2 ^ 36 + 5
def compState (entry : Nat) (l : List CompPage) : State :=
  { memWrite (0x5000 + 64 * 5) (toBytes 64 entry) base with mg := { Mgmt.reset with ctbase := 0x5000, ctlim := 64 }, coh := { Coh.reset with comp := l } }
def quietNow (s : State) : Prop := Quiet s
/-- An entry of function 2 with sectors 0x800 to 0x807 and the CRC of 4,096 zero bytes, which its flags say is kept raw. -/
def rawEntry (crc : Nat) : Nat := crc * 2 ^ 480 + 2 * 2 ^ 465 + 2 ^ 463 + 8 * 2 ^ 458 + 8 * 2 ^ 454 + ((List.range 8).map fun i => (0x800 + i) * 2 ^ (32 * i)).sum
def compEntry (s : State) : Nat := memNum s (s.mg.ctbase.toNat + 64 * (compPageNo % 2 ^ 36)) 64

theorem witness_CompressedPages :
    (∀ e ∈ [2 ^ 464, 0, rawEntry 0x98F94189, rawEntry 1], quietNow (compState e []) ∧ ((compState e []).coh.comp.filter (·.lines)).length < 128 ∧ (compState e []).mg.fns.length = 65 ∧
      (compOf (compState e []) compPageNo).isNone = true ∧ compEntry (compState e []) = e) ∧
    bit (2 ^ 464 : Nat) 464 = true ∧ bits (rawEntry 1) 461 458 = 8 ∧ bit (rawEntry 1) 463 = true ∧ bit (rawEntry 1) 464 = false ∧ bits (rawEntry 1) 471 465 ≤ 64 ∧
    bits (rawEntry 0x98F94189) 511 480 = 0x98F94189 ∧
    (∀ e ∈ [(false, false), (true, true)], let c : CompPage := { page := compPageNo, entry := BitVec.ofNat 512 (rawEntry 1), early := [], lines := true, dirty := true, pinned := e.1, drop := e.2 }
      let s := compState (rawEntry 1) [c]
      quietNow s ∧ compOf s compPageNo = some c ∧ (c.drop = true ∨ c.entry = BitVec.ofNat 512 (compEntry s)) ∧
        (0x5000 + 64 * 5 + 64 ≤ compPageNo * 4096 ∨ compPageNo * 4096 + 4096 ≤ 0x5000 + 64 * 5) ∧ (s.coh.comp.filter (·.pinned)).length < 32) := by
  refine ⟨?_, ?_, ?_, ?_, ?_, ?_, ?_, ?_⟩ <;> (try unfold quietNow Quiet AllHome) <;> decide +kernel

/-- CRC-32C of the nine digits is 0xE3069283, the check value of the Castagnoli polynomial (R75). -/
theorem test_crc32c : crc32c [0x31, 0x32, 0x33, 0x34, 0x35, 0x36, 0x37, 0x38, 0x39] = 0xE3069283 := by decide +kernel

/-! ## Witnesses: the scheduler, faults and traps -/

/-- A launch of 8 blocks of the PF with one block on core 0. -/
def placing (f : Launch → Launch) : State := { base with launches := [f { fetchLaunch base with lrec := { fetchRec with blocks := 8 } }] }
def placed (f : Launch → Launch) : Launch := f { fetchLaunch base with lrec := { fetchRec with blocks := 8 } }
/-- A launch that fits no core beside another block: it takes all of a core's accumulator rows. -/
def wide (l : Launch) : Launch := { l with lrec := { l.lrec with accr := 4095 } }
def inSet (l : Launch) : Launch := { l with lrec := { l.lrec with clm := true }, lastCore := none }

def freeNow (s : State) (l : Launch) (c : Nat) : Prop := s.pkg.lostDies.getLsbD (coreDie c) = false ∧ heldOn s l.ctx c = false ∧
  ((heldThere s c).add (footOf l.lrec)).le emptyCore = true

/-- `ControlRoom`, with what decides it. -/
abbrev controlNow (s : State) (l : Launch) (c : Nat) : Prop :=
  ((s.blocks.filter fun b => b.core == c && b.state != .retired).map fun b => b.groups.length).sum + (l.lrec.gpb + 1) ≤ 512

/-- `NoneBefore`, with what decides it. -/
abbrev noneBefore (s : State) (p : Nat) : Prop := ∀ d ∈ s.agenda, d.time ≤ s.ns → d.cyc ≤ s.mcyc → spaceRank s d.ev ≤ p

theorem witness_Placement :
    (∀ f ∈ [id, wide, inSet, fun l => { l with status := .done }, fun l => { l with nextBid := 8 }], launchOf (placing f) (placed f).id = some (placed f) ∧
      ((placing f).launches.map (·.id)).Nodup ∧ (placing f).worklists = [] ∧ noneBefore (placing f) (placed f).prio ∧ (∀ b ∈ (placing f).blocks, (saveArea (placing f) b.ctx).isNone = true)) ∧
    (placed id).nextBid < (placed id).lrec.blocks ∧ 0 < ((partOf (placing id) 0).flatMap coresOf).length ∧
    walkAt ((partOf (placing id) 0).flatMap coresOf) (placed id).lastCore 0 = some 1 ∧ freeNow (placing id) (placed id) 1 ∧
    controlNow (placing id) (placed id) 1 ∧ (∀ d ∈ coresOf 1, controlNow (placing inSet) (placed inSet) d) ∧
    (∀ c ∈ (partOf (placing wide) 0).flatMap coresOf, ¬ freeNow (placing wide) (placed wide) c) ∧
    (partOf (placing inSet) 0)[1]? = some 1 ∧ (∀ d ∈ coresOf 1, freeNow (placing inSet) (placed inSet) d) ∧ ∃ e ∈ coresOf 0, ¬ freeNow (placing inSet) (placed inSet) e := by
  refine ⟨?_, by decide +kernel, by decide +kernel, by decide +kernel, by unfold freeNow; decide +kernel, by decide +kernel, by decide +kernel, by unfold freeNow; decide +kernel, by decide +kernel,
    by unfold freeNow; decide +kernel, by unfold freeNow; decide +kernel⟩
  simp only [List.forall_mem_cons, List.not_mem_nil, false_implies, implies_true, and_true]
  decide +kernel

/-- Whether a launch waits for space, decided. -/
def pendingNow (s : State) (l : Launch) : Prop := launchOf s l.id = some l ∧ l.status = .running ∧ l.nextBid < l.lrec.blocks ∧ l.lrec.clm = false ∧
  ∀ c ∈ (partOf s l.vf).flatMap coresOf, fitsOn s c l.ctx l.prio none (footOf l.lrec) = false
def haltingState (f : Group → Group) (b : BState) : State := modBlk 1 (fun k => { k with state := b }) (withGrp f)
/-- What the group would roll back to. -/
def aheadAt : RunAhead :=
  { stack := [fetchEntry], k := [], m := [], v := [], gens := [], ctrs := [], fault := (0x20, 0, 0), kill := ⟨0x10000, 0x10008, 1, false, 0, 0x10000⟩, found := [(0x21, 1, 0)],
    passed := 1, unknown := [], low := false }
def lone (s : State) : Block := (blkOf s 1).getD (fetchBlock base)
/-- The last group has gone, and the launch has but the one block. -/
def goneState (f : Launch → Launch) : State := { withGrp (fun g => { g with exited := true }) with launches := [f (fetchLaunch base)], queues := [queueAt 3 0] }
def watched (f : Launch → Launch) : State := { base with ns := 5000000, ctxs := [{ fetchCtx with wdt := 4 }], launches := [f (fetchLaunch base)] }

theorem witness_PreemptionAndRetirement :
    pendingNow (placing wide) (placed wide) ∧ noneBefore (placing wide) (placed wide).prio ∧ ((placing wide).blocks.map (·.id)).Nodup ∧ ((placing wide).launches.map (·.id)).Nodup ∧
    (∃ b ∈ (haltingState (fun g => { g with ahead := some aheadAt }) .halting).blocks, b.ctx = 1 ∧ b.state = .halting ∧
      atBoundary (haltingState (fun g => { g with ahead := some aheadAt }) .halting) b = false) ∧
    (∀ b ∈ (haltingState (fun g => { g with stack := [{ fetchEntry with wait := .waitp 1 0 }] }) .halting).blocks,
      atBoundary (haltingState (fun g => { g with stack := [{ fetchEntry with wait := .waitp 1 0 }] }) .halting) b = true) ∧
    (let s := haltingState (fun g => { g with run := some runAt, stack := [{ fetchEntry with wait := .waitp 1 0 }] }) .halting
     (∀ b ∈ s.blocks, atBoundary s b = true) ∧ (grpOf s here).any (fun g => g.run == some runAt && runAt.batch == g.nextBatch && runAt.count != 0) = true) ∧
    (let s := haltingState id .halted
     blkOf s 1 = some (lone s) ∧ s.worklists = [] ∧ noneBefore s (prioOf s (lone s)) ∧ setBlocks s (lone s) = [lone s] ∧ (lone s).state = .halted ∧ heldOn s (lone s).ctx (lone s).core = false ∧
       (launchOf s 1).any (fun l => fitsOn s (lone s).core (lone s).ctx (prioOf s (lone s)) (some (lone s).id) (footOf l.lrec)) = true ∧ (ctxOf s 1).any (·.cst != 3) = true ∧
       (∀ c ∈ s.blocks, c.core = (lone s).core → c.state = .resident → parentWaits s c = false) ∧ s.eng.accs = []) ∧
    (base.pkg.haltDies = 0 ∧ base.pkg.lostDies = 0 ∧ ∃ b ∈ base.blocks, b.state ≠ .halted) ∧ (∃ b ∈ (haltingState id .halted).blocks, b.state = .halted) ∧
    (∀ q ∈ [none, some (3, 0)], let s := goneState fun l => { l with queue := q }
      (lone s).state = .resident ∧ (∀ g ∈ (lone s).groups, g.exited = true ∧ g.flights = []) ∧ (lone s).issued = [] ∧ setBlocks s (lone s) = [lone s] ∧
        (launchOf s 1).any (fun l => l.parent != some (lone s).id && l.parent.isNone && l.status == .running && l.retired + 1 == l.lrec.blocks && l.queue == q) = true ∧ (queueOf s 3).isSome = true) ∧
    (∀ e ∈ [(0, false), (4000000, false), (0, true)], let s := watched fun l => { l with started := e.1, wdPosted := e.2 }
      (launchOf s 1).any (fun l => l.status == .running && l.wdPosted == e.2 && l.wdPause.isNone) = true ∧ ((ctxOf s 1).map (·.wdt)).getD 0 * 1000000 ≠ 0) := by
  unfold pendingNow; decide +kernel

def recAt (token : Nat) : FRec := ⟨0x123000, 1, token, 0, true, 1, 2, 3, 4, 5⟩
/-- Function 0 with a ring of 64 slots at 0x7000 and two records of different tokens waiting. -/
def ringState (tail : W32) : State := { base with faultQs := base.faultQs.set 0 { FaultQ.reset with base := 0x7006, tail := tail, waiting := [recAt 9, recAt 10], filter := [(1, 0x21, 0, 7)] } }
def runningAhead : State := withGrp fun g => { g with ahead := some aheadAt }
/-- The group at a page that is not mapped. -/
def lostPage : State := withGrp fun g => { g with stack := [{ fetchEntry with pc := 0x99000 }] }
def waiterState (w : Waiter) (tok : Option Nat) : State :=
  { withGrp (fun g => { g with faultWait := tok, tvec := 0x10200 }) with
    faultQs := base.faultQs.set 0 { FaultQ.reset with filter := [(1, 0x20, 0, 7), (1, 0x22, 1, 8)], waiters := [(7, w)] }
    queues := [{ queueAt 3 0 with state := .running, faulted := [7] }], worklists := [pairWl { shardAt 0 [] [] with spillToken := some 7 }] }
def xlatFault : Xlat → Bool
  | .fault _ => true
  | _ => false

theorem witness_FaultRing : base.faultQs.length = 65 ∧
    (∀ t ∈ [(0 : Nat), 63], let q := fqOf (ringState (BitVec.ofNat 32 t)) 0
      6 ≤ q.base.toNat % 32 ∧ q.base.toNat % 32 ≤ 16 ∧ q.waiting = [recAt 9, recAt 10] ∧ q.filter.length ≤ 256 ∧
        (q.tail - q.head).toNat + (q.waiting.takeWhile (·.token == 9)).length ≤ 2 ^ (q.base.toNat % 32)) ∧
    (let q := fqOf (ringState 64) 0
     2 ^ (q.base.toNat % 32) < (q.tail - q.head).toNat + (q.waiting.takeWhile (·.token == 9)).length) ∧
    (fqOf base 0).waiting = [] ∧
    (∃ b x, blkOf runningAhead here.blk = some b ∧ b.vf = 0 ∧ grpIn b here.gid = some x ∧ x.gid = here.gid ∧ x.ahead = some aheadAt ∧
      ∀ p ∈ aheadAt.fault :: aheadAt.found, outstanding (fqOf runningAhead 0) b.ctx ⟨p.1, p.2.1, p.2.2, 0, 0⟩ = none) ∧
    (∃ v, issRaw here 0 0 lostPage = some v ∧ v.vf = 0 ∧ (v.ent.chain = 0 ∨ 3 ≤ v.ent.chain) ∧ v.grp.gid = here.gid ∧ xlatFault (probe lostPage (.core v.core) v.ctx .fetch v.ent.pc) = true ∧
      outstanding (fqOf lostPage 0) v.ctx (pageOf v.ent.pc 2 0) = none) ∧
    (∀ w ∈ [Waiter.group here ⟨0, 0, 0, false, 0, 0⟩, .stack here ⟨0, 0, 0, false, 0, 0⟩, .queue 3, .comp 5, .spill 9 0],
      (fqOf (waiterState w (some 7)) 0).waiters.filter (·.1 == 7) = [(7, w)] ∧ (queueOf (waiterState w (some 7)) 3).any (·.faulted.contains 7) = true ∧ (shardOf (waiterState w (some 7)) 9 0).any (·.spillToken == some 7) = true ∧
        ∃ v, issRaw here 0 0 (waiterState w (some 7)) = some v ∧ v.grp.faultWait = some 7 ∧ v.grp.gid = here.gid ∧ v.grp.tvec ≠ 0 ∧ v.grp.handler = none ∧
          v.grp.trec + 64 ≤ 256 * v.lrec.slab) ∧
    ((∀ w ∈ (fqOf base 0).waiters, w.1 ≠ 7) ∧ ∀ e ∈ (fqOf base 0).filter, e.2.2.2 ≠ 7) := by
  refine ⟨by decide +kernel, by decide +kernel, by decide +kernel, by decide +kernel,
    ⟨lone runningAhead, (grpOf runningAhead here).getD (fetchGroup base), by decide +kernel, by decide +kernel, by decide +kernel, by decide +kernel, by decide +kernel, by decide +kernel⟩,
    ⟨(issRaw here 0 0 lostPage).getD (view sigNop base), by decide +kernel, by decide +kernel, by decide +kernel, by decide +kernel, by decide +kernel⟩,
    fun w hw => ⟨?_, ?_, ?_, (issRaw here 0 0 (waiterState w (some 7))).getD (view sigNop base), ?_⟩, by decide +kernel⟩ <;>
  (revert w; decide +kernel)

theorem witness_FaultRing_quiet : quietNow (ringState 0) ∧ (ringState 0).coh.txns = [] ∧ (ringState 0).coh.wbufs = [] ∧ (ringState 0).pkg.haltDies = 0 := by
  unfold quietNow Quiet AllHome; decide +kernel

def trapOf (c : TrapCode) : Trap := ⟨c, 0, false, none⟩
/-- The refusal of an access of lane 5. -/
def refused : Trap := ⟨.prot, 0, true, some (0x10000, 1#64 <<< 5, false, 0x10000)⟩
def takenNow (v : Iss) (t : Trap) : Bool := match t.named with
  | some (_, m, _, _) => !t.restart || v.ent.mask &&& m != 0 || v.grp.stack.all fun u => u.mask &&& m == 0
  | none => true
theorem taken_of {v : Iss} {t : Trap} (h : takenNow v t = true) : TakenOn v t := by
  unfold TakenOn
  unfold takenNow at h
  split at h <;> simp_all [or_assoc]
/-- The group with traps held. -/
def holding (ts : List Trap) : State := withGrp fun g => { g with held := ts }

theorem witness_TrapsAtBoundaries :
    (∀ ts ∈ [[trapOf .debug, trapOf .dieLost], [trapOf .debug, trapOf .dataUe], [trapOf .debug], []], ∃ v, issRaw here 0 0 (holding ts) = some v ∧ v.ent.reissue = none ∧
      v.grp.held = ts ∧ v.grp.gid = here.gid) ∧
    (∃ v, issRaw here 0 0 (holding [trapOf .debug, refused]) = some v ∧ TakenOn v refused ∧ refused.code ≠ .debug) ∧ (∀ x ∈ [trapOf .debug, refused], x.code ≠ .dieLost) ∧
    (∀ x ∈ [trapOf .debug], x.code ≠ .dieLost) ∧ (∀ x ∈ [trapOf .debug, trapOf .dataUe], x.code ≠ .dieLost) ∧ trapOf .dieLost ∉ [trapOf .debug] ∧
    (let gone := withGrp fun g => { g with stack := [], exited := true, held := [trapOf .dataUe] }
     (issRaw here 0 0 gone).isNone = true ∧ ∃ b x, blkOf gone 1 = some b ∧ grpIn b 0 = some x ∧ x.gid = 0 ∧ x.exited = true ∧ x.held = [trapOf .dataUe] ∧ b.vf < gone.faultQs.length ∧
       (ctxOf gone b.ctx).all (·.cst != 3) = true) ∧
    (base.cur = some here ∧ ∃ v, issRaw here (lenOf 1) (bits 1 17 14) base = some v ∧ v.grp.ahead = none ∧ v.ent.reissue = none) ∧
    (∃ x e, grpOf base here = some x ∧ x.gid = here.gid ∧ liveEntry x here.low = some e) ∧
    (∀ til ∈ [0, 9], ∃ x, grpOf (withGrp fun g => { g with stack := [{ fetchEntry with wait := .yielding til }] }) here = some x ∧ ∃ e ∈ x.stack, e.wait = .yielding til) ∧
    (let spilled := withGrp fun g => { g with stack := List.replicate 5 fetchEntry, onChip := 1, dstk := 1 }
     ∃ v, issRaw here 0 0 spilled = some v ∧ v.blk.absent = [] ∧ ∀ p, p < 3 → v.grp.stack.length - 3 + p < 64 * bits v.grp.dstk.toNat 7 0) := by
  refine ⟨fun ts h => ⟨(issRaw here 0 0 (holding ts)).getD (view sigNop base), ?_⟩,
    ⟨(issRaw here 0 0 (holding [trapOf .debug, refused])).getD (view sigNop base), by decide +kernel, taken_of (by decide +kernel), by decide +kernel⟩, by decide +kernel, by decide +kernel, by decide +kernel, by decide +kernel,
    ⟨by decide +kernel, (blkOf (withGrp fun g => { g with stack := [], exited := true, held := [trapOf .dataUe] }) 1).getD (fetchBlock base),
      (grpOf (withGrp fun g => { g with stack := [], exited := true, held := [trapOf .dataUe] }) here).getD (fetchGroup base), by decide +kernel⟩,
    ⟨by decide +kernel, (issRaw here (lenOf 1) (bits 1 17 14) base).getD (view sigNop base), by decide +kernel⟩, ⟨fetchGroup State.reset, fetchEntry, by decide +kernel⟩,
    fun til h => ⟨(grpOf (withGrp fun g => { g with stack := [{ fetchEntry with wait := .yielding til }] }) here).getD (fetchGroup base), ?_, ?_⟩,
    ⟨(issRaw here 0 0 (withGrp fun g => { g with stack := List.replicate 5 fetchEntry, onChip := 1, dstk := 1 })).getD (view sigNop base), by decide +kernel⟩⟩
  · revert ts; decide +kernel
  · revert til; decide +kernel
  · revert til; decide +kernel

/-! ## Witnesses: the homes, the caches and the step -/

/-- A message about the grain at 0x10000, from and to the given agents. -/
def msgAt (req frm dst tag pend : Nat) : Msg := { agentMsg req 0x10000 128 1 0 tag false with frm := frm, dst := dst, pend := pend }
/-- `base` with the coherence state given. -/
def coherent (f : Coh → Coh) : State := { base with coh := f Coh.reset }
def dirAt (h : HSt) (owner : Nat) (shr : Nat) : DirEnt := ⟨0x10000, 128, h, owner, 0, BitVec.ofNat 40 shr, 0, 0⟩
def txnAt (k : HKind) (kind : TxnKind) (await : List Nat) (ack : Bool) : Txn :=
  { pa := 0x10000, gsz := 128, req := ⟨k, msgAt 8 8 512 77 0, [], false⟩, kind := kind, lab := .uncl, await := await, wbAwait := [], wbSeen := [], needAck := ack, dirty := false, counts := [], keepAwait := false, keepSeen := false }

/-- No entry, sharers, an owner, an owner that shares; and each kind of open transaction with the answer that it awaits. -/
theorem witness_HomeServesRequests :
    (∀ d ∈ [[], [dirAt .s 0 1], [dirAt .s 0 3], [dirAt .x 8 0], [dirAt .os 8 0]], HomeFree (coherent fun c => { c with dir := d })) ∧
    (∀ e ∈ [dirAt .s 0 1, dirAt .s 0 3, ⟨0x10000, 128, .s, 0, 8, 0, 0, 0⟩, dirAt .x 8 0, dirAt .os 8 0], Reached base e) ∧
    (0 < (msgAt 0 0 512 5 0).gsz ∧ (msgAt 0 0 512 5 0).pa + (msgAt 0 0 512 5 0).gsz ≤ 2 ^ 48) ∧
    sharersOf base (dirAt .s 0 1) ≠ [] ∧ (sharersOf base (dirAt .s 0 1)).filter (· != 0) ≠ [] ∧
    sharersOf base ⟨0x10000, 128, .s, 0, 8, 0, 0, 0⟩ = [160] ∧ (sharersOf base ⟨0x10000, 128, .s, 0, 8, 0, 0, 0⟩).filter (· != (msgAt 160 160 512 5 0).req) = [] ∧
    sharersOf base (dirAt .os 8 0) = [] ∧ (msgAt 8 8 512 5 0).req = (dirAt .os 8 0).owner ∧ (dirAt .x 8 0).owner ≠ (msgAt 0 0 512 5 0).req ∧
    (∀ x ∈ [txnAt .rdx .grant [] true, txnAt .rdx .inv [9] true, txnAt .rds .fwdS [9] false, txnAt .rdx .fwdX [9] false, txnAt .update .update [] false],
      x.pa = 0x10000 ∧ x.gsz = 128 ∧ x.req.msg.pa = 0x10000 ∧ x.req.msg.gsz = 128 ∧ x.lab = .uncl ∧ x.wbAwait = [] ∧ x.wbSeen = [] ∧ x.counts = [] ∧ x.keepAwait = false ∧ x.req.kind ≠ .hostSnoop) ∧
    (msgAt 9 9 512 77 0).wb = false ∧ (msgAt 9 9 512 77 0).tag = (txnAt .rdx .grant [] true).req.msg.tag ∧ (msgAt 9 9 512 77 3).pend ≠ 0 ∧ (msgAt 9 9 512 77 0).frm = 9 ∧
    (let e : DirEnt := ⟨hostBase, 128, .x, 8, 0, 0, 0, 0⟩
     hostBase ≤ hostBase + 64 ∧ e.pa = (hostBase + 64) / 128 * 128 ∧ HomeFree (coherent fun c => { c with dir := [e] })) := by
  unfold HomeFree Reached; decide +kernel

def copyNow (s : State) (c : Copy) : Prop := copyOf s c.agent c.pa c.gsz = some c ∧ c.pa = 0x10000 ∧ c.gsz = 128 ∧ 0 < c.gsz ∧ c.agent = 0 ∧ s.eng.accs = []
def pendAt (k : ReqKind) (d : Bool) : Pending := ⟨0, 0x10000, 128, 1, 0, k, 5, d, false, ([], []), 0⟩
/-- A copy with an update that waits for its commit. -/
def stagedAt : Copy := { copyAt .s with staged := [(5, List.replicate 128 1, List.replicate 128 true)] }
def wbAt (d : Bool) : WbBuf := ⟨0, 0x10000, 128, List.replicate 128 0xA5, d⟩

theorem witness_CachesAnswer :
    (∀ st ∈ [LSt.s, .e, .m, .o, .t], copyNow (coherent fun c => { c with l1 := [copyAt st] }) (copyAt st) ∧
      (pendOf (coherent fun c => { c with l1 := [copyAt st] }) 0 0x10000 128).isNone = true ∧ (wbufOf (coherent fun c => { c with l1 := [copyAt st] }) 0 0x10000 128).isNone = true ∧ Gets base 0 ∧
      (coherent fun c => { c with l1 := [copyAt st] }).coh.l1.find? (fun x => x.agent == 0 && x.pa == 0x10000) = some (copyAt st)) ∧
    (copyAt .e).since + 1024000 ≤ ({ base with mcyc := 1024000 } : State).mcyc ∧ (msgAt 0 0 512 5 0).region = false ∧ ({ msgAt 0 0 512 5 0 with region := true } : Msg).region = true ∧
    (∀ st ∈ [LSt.s, .e, .m, .o], copyNow (coherent fun c => { c with l1 := [copyAt st], pends := [pendAt .upg false] }) (copyAt st) ∧
      pendOf (coherent fun c => { c with l1 := [copyAt st], pends := [pendAt .upg false] }) 0 0x10000 128 = some (pendAt .upg false) ∧ (pendAt .upg false).tag ≠ 0) ∧
    (∀ d ∈ [false, true], let s := coherent fun c => { c with wbufs := [wbAt d] }
      (copyOf s 0 0x10000 128).isNone = true ∧ (pendOf s 0 0x10000 128).isNone = true ∧ s.eng.accs = [] ∧ wbufOf s 0 0x10000 128 = some (wbAt d)) ∧
    (let s := coherent fun c => { c with pends := [pendAt .rds true] }
     s.eng.accs = [] ∧ s.coh.pends.find? (fun q => q.agent == 0 && q.tag == 5) = some (pendAt .rds true) ∧ (0 : Nat) < 160 ∧ (pendAt .rds true).kind ≠ .upd ∧
       s.coh.pends.find? (fun q => q.agent == 0 && q.pa == 0x10000 && q.delayed) = some (pendAt .rds true)) ∧
    (let m := { msgAt 160 160 512 0 0 with pa := hostBase + 64, off := 64 }
     base.eng.accs = [] ∧ base.coh.dir = [] ∧ base.coh.pends = [] ∧ base.coh.wbufs = [] ∧ base.coh.l1 = [] ∧ base.coh.bounces = [] ∧ m.req = 160 ∧ 1 ≤ m.off ∧ m.pa % 128 + m.off ≤ 128 ∧
       m.write = false ∧ uncachedBy base m.req (m.pa / 128 * 128) 128 = false) := by
  unfold copyNow Gets; decide +kernel

/-- A span peer to which no route goes: no transaction, one that ends in an Ack, and one that the missing answer ends in a Nak; and a copy with an update that waits for its commit. -/
theorem witness_CachesAnswer_cut :
    (∀ xs ∈ [[], [txnAt .rds .recall [163] false], [txnAt .update .update [163] false], [txnAt .poke .uncachedW [163] false], [txnAt .hostSnoop .inv [163] false], [txnAt .rdx .inv [163] true]],
      ¬ Gets (coherent fun c => { c with txns := xs }) (msgAt 8 512 163 77 0).dst ∧ txnOn (coherent fun c => { c with txns := xs }) 0x10000 128 = xs.head? ∧
        (coherent fun c => { c with txns := xs }).coh.homeQ = [] ∧ (coherent fun c => { c with txns := xs }).coh.regions = []) ∧
    HKind.poke.isDevice = true ∧ HKind.rdx.isDevice = false ∧
    copyNow (coherent fun c => { c with l1 := [stagedAt] }) stagedAt ∧ stagedAt.staged = [((msgAt 0 0 0 5 0).tag, List.replicate 128 1, List.replicate 128 true)] := by
  unfold Gets copyNow; decide +kernel

/-- An entry of the region at page 0x10. -/
def regionAt (f : Region → Region) : Region :=
  f ⟨0x10, 0, false, false, 0, 1, 0, false, 0, 0, false, 0, false, 0, false, 0, false, 0, false, false, 0, 0, 0, 0, 0, 0, 0, [], false, false, none, (0, 0, 0)⟩
def labelsOn (rs : List Region) : State := { coherent (fun c => { c with regions := rs }) with mg := { Mgmt.reset with ltctl := 0x9000001 } }

theorem witness_RegionLabels :
    (0 < (msgAt 0 0 512 5 0).gsz ∧ (msgAt 0 0 512 5 0).pa + (msgAt 0 0 512 5 0).gsz ≤ 2 ^ 48) ∧ bit base.mg.ltctl.toNat 0 = false ∧ base.coh.regions = [] ∧
    (∀ r ∈ [regionAt id, regionAt (fun r => { r with lock := true, actx := 9 }), regionAt (fun r => { r with closing := true }), regionAt (fun r => { r with closing := true, cv := true, cand := 1 }),
        regionAt (fun r => { r with asrt := true })],
      (labelsOn [r]).coh.l1 = [] ∧ (labelsOn [r]).coh.txns = [] ∧ (labelsOn [r]).coh.homeQ = [] ∧ (labelsOn [r]).coh.dir = [] ∧ (labelsOn [r]).pkg.haltDies = 0 ∧ (labelsOn [r]).pkg.lostDies = 0 ∧ (labelsOn [r]).coh.wbufs = [] ∧
        bit (labelsOn [r]).mg.ltctl.toNat 0 = true ∧ (labelsOn [r]).coh.regions = [r] ∧ r.page = (msgAt 0 0 512 5 0).pa / 4096 ∧ r.sw = false ∧ r.label ≤ 5 ∧ r.label ≠ 2 ∧ r.nchg < 512) ∧
    ((msgAt 0 0 512 5 0).ctx = (regionAt id).actx ∧ ¬ ((regionAt fun r => { r with lock := true, actx := 9 }).lock = false ∨ (msgAt 0 0 512 5 0).ctx = (regionAt fun r => { r with lock := true, actx := 9 }).actx)) ∧
    (∀ a ∈ [[], [(3, 0x10000)]], let r := regionAt fun r => { r with sw := true, tgt := 5, swAwait := a, swCmd := some (msgAt 0 0 512 5 0) }
      (labelsOn [r]).coh.regions = [r] ∧ r.sw = true ∧ r.swAwait = a ∧ r.tgt ≤ 5) ∧
    (let r := regionAt fun r => { r with label := 2 }
     (labelsOn [r]).coh.regions = [r] ∧ r.label = 2 ∧ r.page = (msgAt 0 0 512 5 0).pa / 4096 ∧ r.sw = false ∧ (msgAt 0 0 512 5 0).ctx = r.actx) := by
  decide +kernel

def bdAt (k : BdKind) (ps : List (Nat × List BdMove)) : BdCmd :=
  { op := 7, g := here, core := 0, ctx := 1, vf := 0, kind := k, todo := [], pieces := ps, tags := [], applied := false, stopped := none, pc := 0, mask := 0 }
def moveAt : BdMove := ⟨0x10100, 0x10200, (false, false), (128, 128), (true, true), (0, 4), false, 0x10100, 0x10200⟩
/-- The same move where an older piece overlaps its source. -/
def lostAt : BdMove := { moveAt with lost := true }

theorem witness_BaseDiePieces : (moveAt.src + moveAt.gsz.1 ≤ 2 ^ 48 ∧ moveAt.dst + moveAt.gsz.2 ≤ 2 ^ 48 ∧ moveAt.src % moveAt.gsz.1 + 8 ≤ moveAt.gsz.1 ∧ moveAt.dst % moveAt.gsz.2 + 8 ≤ moveAt.gsz.2 ∧ moveAt.lost = false ∧ lostAt.lost = true ∧
      0 < moveAt.part.2 ∧ moveAt.part.1 + moveAt.part.2 ≤ 4 ∧ moveAt.part.1 + moveAt.part.2 ≤ (Ty.f32).width / 8) ∧
    ∀ c ∈ [bdAt .gather [(3, [moveAt])], bdAt .scat [(3, [moveAt])], bdAt (.conv .bf16x2 .f32) [(3, [moveAt])], bdAt (.red .f32 0) [(3, [moveAt])], bdAt .gather [], bdAt (.conv .bf16x2 .f32) [(3, [lostAt])], bdAt .gather [(3, [lostAt]), (2, [moveAt])]],
      let s : State := { withGrp (fun g => { g with flights := [⟨5, 7, false⟩] }) with eng := { Eng.reset with bds := [c] } }
      s.eng.bds = [c] ∧ c.tags = [] ∧ c.stopped = none ∧ c.todo = [] ∧ s.coh.l1 = [] ∧ s.coh.wbufs = [] ∧ s.coh.dir = [] ∧ s.coh.pends = [] ∧ HomeFree s ∧
        ∃ b x, blkOf s c.g.blk = some b ∧ grpIn b c.g.gid = some x ∧ x.exited = false ∧ x.flights = [⟨5, c.op, false⟩] := by
  refine ⟨by decide +kernel, fun c hc => ?_⟩
  have s : ∃ b x, blkOf (withGrp fun g => { g with flights := [⟨5, 7, false⟩] }) 1 = some b ∧ grpIn b 0 = some x ∧ x.exited = false ∧ x.flights = [⟨5, 7, false⟩] :=
    ⟨lone (withGrp fun g => { g with flights := [⟨5, 7, false⟩] }), (grpOf (withGrp fun g => { g with flights := [⟨5, 7, false⟩] }) here).getD (fetchGroup base), by decide +kernel⟩
  simp only [List.mem_cons, List.not_mem_nil, or_false] at hc
  rcases hc with rfl | rfl | rfl | rfl | rfl | rfl | rfl <;>
  exact ⟨rfl, rfl, rfl, rfl, rfl, rfl, rfl, rfl, by unfold HomeFree; decide +kernel, s⟩

/-- `base` before any issue: the step turns to the group. -/
def fresh1 (w : Nat) : State := { State.reset.withFetchWord 64 w with pace := [1000] }
def turnOf (s : State) (b : Block) (g : Group) (e : Entry) : Prop :=
  pick s = .issue here ∧ blkOf s here.blk = some b ∧ grpIn b here.gid = some g ∧ liveEntry g here.low = some e
theorem turn_of {s : State} {b : Block} {g : Group} {e : Entry} (h : turnOf s b g e) : Turn s here b g e := ⟨h.1, h.2.1, h.2.2.1, h.2.2.2⟩
def theBlock (s : State) : Block := (blkOf s 1).getD (fetchBlock s)
def theGroup (s : State) : Group := (grpOf s here).getD (fetchGroup s)
def theEntry (s : State) : Entry := (liveEntry (theGroup s) false).getD fetchEntry
def stepping (f : Group → Group) : State := modGrp here f (fresh1 0)
def xlatHow : Xlat → Nat
  | .ok _ _ => 0
  | .fault _ => 1
  | .wait => 2
  | .nak _ => 3
/-- The fetch window, read where the fetch has translated to. -/
def fetchLook (s : State) : Coh1 := match Walks s (theBlock s) (theGroup s) (theEntry s) with
  | (.ok pa _, u) => cohLook u (pa / 32 * 32) 32
  | _ => .wait
/-- What the instruction buffer gives. -/
def fetchBuf (s : State) : Option (List Byte) :=
  bufFind (Walks s (theBlock s) (theGroup s) (theEntry s)).2 (theBlock s).core (theBlock s).ctx (theBlock s).id (theEntry s).pc
def lookBytes : Coh1 → List Byte
  | .ok bs => bs
  | _ => []
def fetchHow (s : State) : Nat := xlatHow (Walks s (theBlock s) (theGroup s) (theEntry s)).1
/-- Nothing comes before the word. -/
def clearNow (s : State) : Prop := (theBlock s).absent = [] ∧ (theGroup s).held = [] ∧ atJoin (theGroup s) false (theEntry s) = false

/-- The group in run-ahead. -/
def aheadOf (f : Entry → Entry) (s : State) : State := modGrp here (fun g => { g with ahead := some aheadAt, stack := [f fetchEntry] }) s
/-- The step turns to the group at a word that decodes, a pad word, an illegal word, and each of the events that come before a word; and to an event that is due. -/
theorem witness_StepRunsDecoded :
    (∀ w ∈ [0x00800803010002B0, 3, 0xFFFFFFFFFFFFFFFC], let s := fresh1 w
      turnOf s (theBlock s) (theGroup s) (theEntry s) ∧ atJoin (theGroup s) false (theEntry s) = false ∧ min (theGroup s).stack.length 3 ≤ (theGroup s).onChip ∧ (theGroup s).held = [] ∧
        canonical (theEntry s).pc = true ∧ fetchHow s = 0 ∧
        (theGroup s).ahead = none ∧ (theBlock s).absent = [] ∧ fetchBuf s = none ∧ (theEntry s).pc.toNat % 32 = 0 ∧
        fetchLook s = .ok (toBytes 8 w ++ List.replicate 24 0) ∧ ((lookBytes (fetchLook s)).headD 0).toNat % 4 = w % 4) ∧
    (let s := { fresh1 0 with coh := { Coh.reset with ibuf := [⟨0, 1, 0x10000 / 32, 5, List.replicate 32 3⟩] } }
     turnOf s (theBlock s) (theGroup s) (theEntry s) ∧ clearNow s ∧ fetchHow s = 0 ∧ fetchBuf s = some (List.replicate 32 3)) ∧
    (let s := aheadOf (fun e => e) (fresh1 0x00800803010002B0)
     turnOf s (theBlock s) (theGroup s) (theEntry s) ∧ clearNow s ∧ (theGroup s).ahead = some aheadAt ∧ fetchHow s = 0 ∧ fetchBuf s = none) := by
  unfold turnOf clearNow; decide +kernel

theorem witness_StepRunsDecoded_words : (∃ i n, decodeAt 0 (toBytes 8 0x00800803010002B0 ++ List.replicate 24 0) = .ok (i, n)) ∧ ∃ x, decodeAt 0 (toBytes 8 0xFFFFFFFFFFFFFFFC ++ List.replicate 24 0) = .error x :=
  ⟨⟨_, _, rfl⟩, _, rfl⟩

theorem witness_StepMeetsEvents :
    (∀ f ∈ [(fun g => { g with stack := [{ fetchEntry with rpc := 0x10000 }, fetchEntry], onChip := 2 } : Group → Group), (fun g => { g with onChip := 0 }), (fun g => { g with held := [trapOf .dataUe] }),
        (fun g => { g with stack := [{ fetchEntry with pc := 0x800000000000 }] }), (fun g => { g with stack := [{ fetchEntry with pc := 0x99000 }] })],
      let s := stepping f
      turnOf s (theBlock s) (theGroup s) (theEntry s) ∧ (theGroup s).ahead = none ∧ (theGroup s).handler = none ∧ (theEntry s).reissue = none ∧ (theEntry s).launching = none ∧ (theBlock s).absent = [] ∧ chainOpen (tick s) (theBlock s) (theEntry s) = false) ∧
    (let s := stepping fun g => { g with stack := [{ fetchEntry with rpc := 0x10000 }, fetchEntry], onChip := 2 }
     atJoin (theGroup s) false (theEntry s) = true) ∧
    (let s := stepping fun g => { g with onChip := 0 }
     atJoin (theGroup s) false (theEntry s) = false ∧ (theGroup s).onChip < min (theGroup s).stack.length 3) ∧
    (let s := stepping fun g => { g with held := [trapOf .dataUe] }
     nextHeld (theGroup s) (theEntry s) = some (trapOf .dataUe)) ∧
    (∀ a ∈ [[], [loadOf 9]], let s := { stepping fun g => { g with stack := [{ fetchEntry with rpc := 0x10000 }, fetchEntry], onChip := 2 } with eng := { Eng.reset with accs := a } }
      turnOf s (theBlock s) (theGroup s) (theEntry s) ∧ atJoin (theGroup s) false (theEntry s) = true ∧ nextHeld (theGroup s) (theEntry s) = none ∧ loadsOut (tick s) here (theEntry s) = !a.isEmpty) ∧
    (∀ e ∈ [({ Coh.reset with txns := [{ txnAt .rds .grant [] true with pa := 0 }] }, 2), ({ Coh.reset with ue := [0] }, 3)], let s := { fresh1 0 with tlbs := [], coh := e.1 }
      turnOf s (theBlock s) (theGroup s) (theEntry s) ∧ fetchHow s = e.2 ∧ canonical (theEntry s).pc = true) ∧
    (let s := { fresh1 0 with coh := { Coh.reset with ue := [0x10000] } }
     turnOf s (theBlock s) (theGroup s) (theEntry s) ∧ fetchHow s = 0 ∧ fetchBuf s = none ∧ fetchLook s = .nak 0) ∧
    (let s := { fresh1 0 with coh := { Coh.reset with txns := [txnAt .rds .grant [] true] } }
     turnOf s (theBlock s) (theGroup s) (theEntry s) ∧ fetchHow s = 0 ∧ fetchBuf s = none ∧ fetchLook s = .wait) ∧
    (let s := modBlk 1 (fun b => { b with absent := [.control 0] }) (fresh1 0)
     turnOf s (theBlock s) (theGroup s) (theEntry s) ∧ (theBlock s).absent.contains (.control here.gid) = true) ∧
    (∀ e ∈ [fetchEntry, { fetchEntry with pc := 0x800000000000 }, { fetchEntry with pc := 0x99000 }], let s := aheadOf (fun _ => e) (fresh1 0)
      turnOf s (theBlock s) (theGroup s) (theEntry s) ∧ clearNow s ∧ (theGroup s).ahead ≠ none) ∧
    (let s := stepping fun g => { g with stack := [{ fetchEntry with pc := 0x800000000000 }] }
     atJoin (theGroup s) false (theEntry s) = false ∧ (theGroup s).held = [] ∧ canonical (theEntry s).pc = false) ∧
    (let s := stepping fun g => { g with stack := [{ fetchEntry with pc := 0x99000 }] }
     canonical (theEntry s).pc = true ∧ fetchHow s = 1) ∧
    pick State.reset = .idle ∧ (∃ n ev, pick { State.reset with agenda := [⟨0, 0, .clockThrottle⟩] } = .event n ev) := by
  refine ⟨?_, by decide +kernel, by decide +kernel, by decide +kernel, ?_, ?_, ?_, ?_, ?_, ?_, by decide +kernel, by decide +kernel, by decide +kernel, ⟨0, .clockThrottle, by decide +kernel⟩⟩
  all_goals (unfold turnOf; (try unfold clearNow); decide +kernel)

/-- The word of an fma that reads a latch. -/
def latchWord : Nat := ((encode (.fma ⟨0, .f32, 0, false, 0⟩ (.reg 10) (.reg 4) (.reg 5) (.latch 0))).map (·.2)).getD 0
/-- Two groups that may issue in one slot; one was selected. -/
def contest : State := modBlk 1 (fun b => { b with groups := b.groups ++ [{ fetchGroup base with gid := 4, ridx := 4 }] }) (withLau fun l => { l with lrec := { l.lrec with gpb := 4 } })
theorem witness_SlotSelection : ∃ c ∈ winners contest, ∃ d ∈ candsOf contest, slotOf d = slotOf c ∧ d.ref ≠ c.ref ∧ (chainLows contest c.blk c.grp = [] ↔ chainLows contest d.blk d.grp = []) ∧
    c.prio = d.prio ∧ holdsFloor contest c.blk c.grp = holdsFloor contest d.blk d.grp := by decide +kernel

/-- A group whose chain goes on with a word that reads a latch. -/
def chained : State :=
  modBlk 1 (fun b => { b with groups := b.groups.map fun g => if g.gid = 4 then { g with stack := [{ fetchEntry with chain := 1 }] } else g })
    { contest with mem := (State.reset.withFetchWord 96 latchWord).mem }
theorem witness_SlotSelection_chain : (∃ b ∈ chained.blocks, ∃ g ∈ b.groups, chainLows chained b g ≠ []) ∧ ∃ c ∈ winners chained, chainLows chained c.blk c.grp ≠ [] ∧
    ∃ d ∈ candsOf chained, slotOf d = slotOf c ∧ d.ref ≠ c.ref := by decide +kernel

theorem witness_MemoryFormKept : Memory.wf State.reset.mem ∧ Memory.wf base.mem := by unfold Memory.wf; decide +kernel

/-- Time goes on where an event other than a reset happens. -/
theorem witness_TimeGoesOn : ∀ n, pick State.reset ≠ .event n .moduleReset ∧ pick State.reset ≠ .event n .powerLoss := by
  have h : pick State.reset = .idle := by decide +kernel
  rw [h]; intro n; exact ⟨by simp, by simp⟩

/-- Instructions of each form are well-formed and have fields. -/
theorem witness_EncodeDecode : (∃ i f, i.wf = true ∧ instrFields i = some f ∧ formLen f.form = 8) ∧ (∃ i f, i.wf = true ∧ instrFields i = some f ∧ formLen f.form = 12) ∧
    (∃ i f, i.wf = true ∧ instrFields i = some f ∧ formLen f.form = 16) ∧ (Instr.padWordSkip 0x7F).wf = true :=
  ⟨⟨.wlpop 0 false (.reg 8) 3 true, _, by decide, rfl, rfl⟩, ⟨.addImm ⟨0, .i32, 0, false, 0⟩ (.reg 4) (.reg 4) 1, _, by decide, rfl, rfl⟩,
    ⟨.kli64 ⟨0, .b32, 0, false, 0⟩ 5 0x123456789ABCDEF0, _, by decide, rfl, rfl⟩, by decide⟩

theorem witness_DecodeEncode : ∃ form w i, w < 2 ^ (8 * formLen form) ∧ w % 4 = formCode form ∧ decodeWord (formLen form) w = .ok i ∧ formLen form = 8 :=
  ⟨.b, 0x00800803010002B0, _, by decide, by decide, rfl, by decide⟩

/-! ## Single steps, with the values of the spec's own examples -/

/-- What an instruction leaves of the group, the state and its path. -/
def after (i : Instr) (s : State) : Option State := match exec i s with
  | .next t => some t
  | _ => none
def grpAfter (i : Instr) (s : State) : Option Group := (after i s).bind fun t => grpOf t here
def kAfter (i : Instr) (s : State) (n : Nat) : Option W64 := (grpAfter i s).map (kget · n)
def vAfter (i : Instr) (s : State) (n l : Nat) : Option W32 := (grpAfter i s).map (vget · n l)
def pcAfter (i : Instr) (s : State) : Option W64 := (grpAfter i s).bind fun g => (liveEntry g false).map (·.pc)
/-- `base` with the first lanes of a vector register given. -/
def vreg (n : Nat) (vs : List W32) (s : State) : State := modGrp here (fun g => (vs.zip (List.range 64)).foldl (fun g e => vset n e.2 e.1 g) g) s
/-- The group with only some lanes active. -/
def lanesOn (m : Mask) (s : State) : State := modGrp here (fun g => { g with stack := [{ fetchEntry with mask := m }] }) s
/-- The trap number that the group's trap record holds after an entry at 0x10100. -/
def trapAfter (i : Instr) (s : State) : Option Nat := (after i (modGrp here (fun g => { g with tvec := 0x10100 }) s)).bind fun t =>
  (blkOf t 1).map fun b => bits (ofBytes (slabRead b 0 64)) 47 40

/-- R350 and R352, chapter 14's example. -/
theorem test_kadd_sat : kAfter (.kaddImm ⟨1, .i64, 0, false, 0⟩ 5 1 100) (kregs [(1, 0x7FFFFFFFFFFFFFF0)]) 5 = some 0x7FFFFFFFFFFFFFFF := by decide +kernel
theorem test_kadd_wrap : kAfter (.kaddImm ⟨0, .i64, 0, false, 0⟩ 5 1 100) (kregs [(1, 0x7FFFFFFFFFFFFFF0)]) 5 = some 0x8000000000000054 := by decide +kernel
theorem test_kadd_sat_unsigned : kAfter (.kaddImm ⟨1, .n64, 0, false, 0⟩ 5 1 100) (kregs [(1, 0x7FFFFFFFFFFFFFF0)]) 5 = some 0x8000000000000054 := by decide +kernel
theorem test_ksra_beyond : kAfter (.ksraImm (hdr .b32) 6 5 70) (kregs [(5, 0x8000000000000054)]) 6 = some 0xFFFFFFFFFFFFFFFF := by decide +kernel

/-- R331, chapter 14's example: a branch that splits its lanes traps with UNIF, number 3. -/
theorem test_bra_splits : trapAfter (.bra 3 false 4) (modGrp here (mset 3 0xF) (lanesOn 0xFF base)) = some (trapNum .unif) := by decide +kernel
theorem test_bra_never : pcAfter (.bra 0 true 4) base = some 0x1000C := by decide +kernel
/-- R334: lanes 0 to 3 go to the target, lanes 4 to 7 fall through 16 bytes on. -/
theorem test_brd_splits : ((grpAfter (.brd 3 false 6 20) (modGrp here (mset 3 0xF) (lanesOn 0xFF base))).map fun g => g.stack.map fun e => (e.pc, e.mask)) =
    some [(0x10018, 0xF), (0x10010, 0xF0), (0x10050, 0xFF)] := by decide +kernel

/-- R366, chapter 15's example: 8 bits from bit 4, sign-extended. -/
theorem test_bfe : vAfter (.bfeImm (hdr .i32) (.reg 4) (.reg 3) 0x0804) (vreg 3 [0xF80] base) 4 0 = some 0xFFFFFFF8 := by decide +kernel

/-- R383 and R384, chapter 15's examples. -/
theorem test_redmin_index : let s := lanesOn 0x3F (vreg 12 [7, 3, 9, 3, 3, 4] base)
    (kAfter (.redminIndex (hdr .n32) (.k 5) (.k 6) (.reg 12) .lane) s 5, kAfter (.redminIndex (hdr .n32) (.k 5) (.k 6) (.reg 12) .lane) s 6) = (some 3, some 1) := by decide +kernel
theorem test_redadd_exact : kAfter (.redadd (hdr .f32) (.k 5) (.reg 4)) (lanesOn 0xF (vreg 4 [0x4B800000, 0x3F800000, 0x3F800000, 0xCB800000] base)) 5 = some 0x40000000 := by
  decide +kernel
/-- R385: 2^24, 2^24, 2^24 + 2 and 2.0. -/
theorem test_scan_add : (List.range 4).map (vAfter (.scan (hdr .f32) (.reg 6) (.reg 4)) (lanesOn 0xF (vreg 4 [0x4B800000, 0x3F800000, 0x3F800000, 0xCB800000] base)) 6) =
    [some 0x4B800000, some 0x4B800000, some 0x4B800001, some 0x40000000] := by decide +kernel

/-- R275: 1.0 + 2^-23 to e4m3 is 1.0 for the highest random word, and 0x3F808000 to bf16 rounds up from 0x8000 on. -/
theorem test_stochastic : roundF fmtE4m3 .sr 0xFFFF (fmtF32.decode 0x3F800001) = 0x38 ∧ roundF fmtBf16 .sr 0xFFFE (fmtF32.decode 0x3F800001) = 0x3F80 ∧
    roundF fmtBf16 .sr 0xFFFF (fmtF32.decode 0x3F800001) = 0x3F81 ∧ roundF fmtBf16 .sr 0x7FFF (fmtF32.decode 0x3F808000) = 0x3F80 ∧
    roundF fmtBf16 .sr 0x8000 (fmtF32.decode 0x3F808000) = 0x3F81 := by decide +kernel

/-- R285, chapter 11's examples of l6 products, in units of 2^-16. -/
theorem test_l6_products : (l6Product 0x05 0x1F).1 = 131072 ∧ (l6Product 0x03 0x02).1 = 155872 ∧ (l6Product 0x02 0x02).1 = 131072 := by decide +kernel

/-- R376 and R287, chapter 15's example of lpack: word 0 of the packed lane. -/
theorem test_lpack : vAfter (.lpack (hdr .l6) (.reg 40) 8 .f32) (vreg 8 [0x3F800000] (vreg 9 [0x3F000000] (vreg 10 [0x40000000] (vreg 11 [0xBF800000] base)))) 40 0 =
    some 0x10804700 := by decide +kernel

/-- R380, chapter 15's example: the kept elements and their metadata byte. -/
theorem test_compress : let i : Instr := .compress (hdr .e4m3x4) (.reg 40) (.reg 8) (.reg 9) 48 2
    let s := vreg 8 [0x007FB838] (vreg 9 [0x80000080] base)
    (vAfter i s 40 0, vAfter i s 48 0) = (some 0x00807F38, some 0x00480000) := by decide +kernel

/-- R390, chapter 16's example: lane 2's address is odd, so the group traps with ALIGN naming it. -/
theorem test_ldg_align : (after (.ldg (hdr .n16x2) (.reg 9) (.base 2 (.reg 1) 0) 3) (modGrp here (fun g => kset 2 0x7F0000300000 { g with tvec := 0x10100 }) (lanesOn 0xF (vreg 1 [0, 2, 5, 6] base)))).bind
    (fun t => (blkOf t 1).map fun b => let r := ofBytes (slabRead b 0 64)
      (bits r 511 448, bits r 331 326, bits r 47 40)) = some (0x7F0000300005, 2, trapNum .align) := by decide +kernel

/-- R398, chapter 16's example: each lane compares with what the lanes before it left. -/
theorem test_atomc_order : let a : Access := { accAt .atomc .g 0x10000 with
    lanes := [(0, 5, 6), (1, 6, 9), (2, 5, 8), (3, 7, 1)].map fun e => { laneAt e.1 0x10000 (BitVec.ofNat 64 e.2.1) with c := BitVec.ofNat 64 e.2.2 } }
    let t := tryGrain 7 0x10000 128 (flying a [{ copyAt .m with data := 5 :: List.replicate 127 0 }])
    ((accOf t 7).map fun a => a.lanes.map (·.val.toNat), (copyOf t 0 0x10000 128).map fun c => c.data.headD 0) = (some [5, 6, 9, 9], some 9) := by decide +kernel

/-- Chapter 18's product checked by hand: the AND of two streams and its density. -/
theorem test_stream_product : let w : Window := ⟨here, 16, 1, [⟨.gen, 3, 0, 0, 0, 14, List.replicate 64 0x8000, none, 0, 7⟩], [], [], 0, []⟩
    let s : State := { base with eng := { Eng.reset with windows := [(0, [w])] } }
    ((after (.streamWindowRun 0) s).bind fun t => (blkOf t 1).map fun b => FMap.get 0 b.z (64 * 3 + 9)) = some 0x00FF := by decide +kernel
theorem test_stream_reversed : let w : Window := ⟨here, 16, 1, [⟨.gen, 4, 0, 0, 0, 15, List.replicate 64 0xC000, none, 0, 7⟩], [], [], 0, []⟩
    let s : State := { base with eng := { Eng.reset with windows := [(0, [w])] } }
    ((after (.streamWindowRun 0) s).bind fun t => (blkOf t 1).map fun b => FMap.get 0 b.z (64 * 4 + 63)) = some 0x7777 := by decide +kernel
theorem test_stream_density : let s0 : State := modBlk 1 (fun b => { b with z := [(64 * 5, 0x77)] }) base
    let s : State := { s0 with eng := { Eng.reset with windows := [(0, [⟨here, 16, 1, [⟨.cnt 1, 0, 5, 0, 0, 0, [], some 20, 1, 7⟩], [], [], 0, []⟩])] } }
    ((after (.streamWindowRun 0) s).bind fun t => (grpOf t here).map (vget · 20 0)) = some 0x6000 := by decide +kernel

/-- R452, chapter 18's example: three lanes name key 3 and the group holds two, so no lane retires. -/
theorem test_wlret_all_or_none : let w : Worklist := { wlAt [shardAt 0 [] [(1, 0, 3, 2)]] with wrec := { wlRecAt with w := 2 } }
    let s := fun m : Mask => modGrp here (fun g => { g with stack := [{ fetchEntry with mask := m }] }) (vreg 9 [12, 13, 15] (wlState w id))
    ((after (.wlret 0 (.reg 9)) (s 7)).bind fun t => shardOf t 9 0).map (·.ret) = some 4 ∧ ((after (.wlret 0 (.reg 9)) (s 3)).bind fun t => shardOf t 9 0).map (·.ret) = some 6 := by
  decide +kernel

/-- R334 and R327: the step that reset, with a word placed, makes first is that instruction's. -/
theorem test_first_step : (match step (State.reset.withFetchWord 96 0xC8C8A04EB) with
    | .next _ => true
    | _ => false) = true := by decide +kernel

/-- R15: die d has the cores of files 4d to 4d + 3, 40 of its 44 physical cores. -/
theorem test_core_of_file : coreDie 4 = 1 ∧ coreDie 19 = 0 ∧ 44 ≤ physicalCore State.reset 4 ∧ physicalCore State.reset 4 < 88 := by decide +kernel

/-- R24: CLS and the credits in byte 0, ACKD in byte 1, SEQ in bytes 3:2, the payload from byte 4 on. -/
theorem test_flit_bytes : (flitBody 5 3 7 0x1234 [List.replicate 48 0xAB]).take 5 = [0xA3, 7, 0x34, 0x12, 0xAB] := by decide +kernel

/-- R167 and R9: a write of DBGHALT keeps no reserved bit. -/
theorem test_halt_reserved : ((after (.dieHalt .a 0xFFFF) owned).map (·.pkg.haltDies)) = some 0x1FFF := by decide +kernel

/-- R36: through the port that does not serve a VF its registers read as 0. -/
theorem test_other_port : let s : State := { managed with mg := { managed.mg with fns := managed.mg.fns.set 1 { fnOf managed 1 with preemptc := 5 } } }
    (regRead .a 1 .preemptc s, regRead .b 1 .preemptc s) = (5, 0) := by decide +kernel

end Sys2Proof.Tests
end

section
/-! SUPPORT. The uniform ALU (R351 to R354): the values that the model computes are those of the table of R352, and every
instruction whose meaning is `uni` completes with its value and changes nothing else. -/

namespace Sys2Proof.Machine

open Sys2Proof Sys2Proof.Stmt

/-! ## Values -/

/-- The clamp of R291 between ordered bounds, as R352 words it. -/
theorem clampI_eq_max_min {lo hi : Int} (h : lo ≤ hi) (v : Int) : clampI v lo hi = max lo (min v hi) := by
  unfold clampI
  split
  · omega
  · split <;> omega

/-- An exact result is wrapped or saturated to the range of the uniform type (R352). -/
theorem kWrap_eq_fit {h : Hdr} (hu : uniTy h) (v : Int) : kWrap h v = fit h v := by
  unfold kWrap fit
  by_cases hm : h.mod = 1
  · obtain ht | ht := hu
    · have hmin : h.ty.minI = -2 ^ 63 := by rw [ht]; rfl
      have hmax : h.ty.maxI = 2 ^ 63 - 1 := by rw [ht]; rfl
      rw [if_pos hm, if_pos hm, if_pos ht, hmin, hmax, clampI_eq_max_min (by norm_num)]
    · have hmin : h.ty.minI = 0 := by rw [ht]; rfl
      have hmax : h.ty.maxI = 2 ^ 64 - 1 := by rw [ht]; rfl
      rw [if_pos hm, if_pos hm, if_neg (by rw [ht]; decide), hmin, hmax, clampI_eq_max_min (by norm_num)]
  · rw [if_neg hm, if_neg hm]

/-- The conditions of family CMP, as R352 words them. -/
theorem cmpI_iff_holds (cond : Nat) (a b : Int) : cmpI cond a b = true ↔ holds cond a b := by
  unfold cmpI holds
  split <;> simp

/-- The immediate of a logic or shift twin is zero-extended (R321). -/
theorem kImm_b32 {t : Ty} (h : t = .b32) (imm : W32) : kImm t imm = imm.zeroExtend 64 := by
  subst h; rfl

theorem kImm_b32_toNat {t : Ty} (h : t = .b32) (imm : W32) : (kImm t imm).toNat = imm.toNat := by
  rw [kImm_b32 h, BitVec.zeroExtend, BitVec.toNat_setWidth, Nat.mod_eq_of_lt (by have := imm.isLt; omega)]

/-- An arithmetic right shift by the whole width or more leaves copies of the sign (R352). -/
theorem sshiftRight_of_width_le (a : W64) {n : Nat} (h : 64 ≤ n) :
    a.sshiftRight n = if a.msb then BitVec.allOnes 64 else 0 := by
  ext j hj
  rw [BitVec.getElem_sshiftRight, dif_neg (by omega)]
  cases a.msb
  · exact (BitVec.getElem_zero ..).symm
  · exact (BitVec.getElem_allOnes ..).symm

theorem kSra_eq (a b : W64) :
    kSra a b = if 64 ≤ b.toNat then (if a.msb then BitVec.allOnes 64 else 0) else a.sshiftRight b.toNat := by
  unfold kSra
  split
  · rename_i h
    rw [Nat.min_eq_right h, sshiftRight_of_width_le a (Nat.le_refl 64)]
  · rename_i h
    rw [Nat.min_eq_left (by omega)]

/-- The field of w bits read as two's complement (R291) is the signed reading of the word of w bits. -/
theorem sext_eq_toInt {w : Nat} (hw : 0 < w) (n : Nat) : sext w n = (BitVec.ofNat w n).toInt := by
  have hb : bit n (w - 1) = (BitVec.ofNat w n).msb := by
    rw [BitVec.msb_eq_getLsbD_last, BitVec.getLsbD_ofNat, Nat.testBit_eq_decide_div_mod_eq]
    simp [bit, hw]
  rw [BitVec.toInt_eq_msb_cond, ← hb, BitVec.toNat_ofNat]
  rfl

theorem ofInt_sext {w : Nat} (hw : 0 < w) (n : Nat) : BitVec.ofInt 64 (sext w n) = (BitVec.ofNat w n).signExtend 64 := by
  rw [sext_eq_toInt hw, BitVec.signExtend]

theorem kLea_eq (a b : W64) (sh disp : Nat) :
    kLea a b sh disp = a + b <<< sh + (BitVec.ofNat 18 disp).signExtend 64 := by
  unfold kLea
  rw [ofInt_sext (by omega)]

/-- The number of 1 bits is the number of places that hold one. -/
theorem popcountN_eq_length (n x : Nat) : popcountN n x = ((List.range n).filter x.testBit).length := by
  induction n generalizing x with
  | zero => rfl
  | succ n ih =>
    have hshift : x.testBit ∘ Nat.succ = (x / 2).testBit := funext fun j => Nat.testBit_succ x j
    rw [popcountN, ih, List.range_succ_eq_map, List.filter_cons, List.filter_map, hshift, Nat.testBit_zero]
    obtain hx | hx := Nat.mod_two_eq_zero_or_one x <;> simp [hx, Nat.add_comm]

/-- kclz counts the 0 bits above the highest 1 (R352). -/
theorem clzN_spec (a : W64) : clzN 64 a.toNat ≤ 64 ∧ (∀ j, j < clzN 64 a.toNat → a.getMsbD j = false) ∧
    (clzN 64 a.toNat < 64 → a.getMsbD (clzN 64 a.toNat) = true) := by
  unfold clzN
  rw [Nat.mod_eq_of_lt a.isLt]
  by_cases h0 : a.toNat = 0
  · have ha : a = 0#64 := BitVec.eq_of_toNat_eq h0
    simp [ha]
  · have hlog : a.toNat.log2 < 64 := (Nat.log2_lt h0).2 a.isLt
    rw [if_neg h0]
    refine ⟨by omega, fun j hj => ?_, fun _ => ?_⟩
    · have hlow : a.toNat < 2 ^ (63 - j) :=
        Nat.lt_of_lt_of_le Nat.lt_log2_self (Nat.pow_le_pow_right (by omega) (by omega))
      rw [BitVec.getMsbD, BitVec.getLsbD, Nat.testBit_lt_two_pow hlow, Bool.and_false]
    · have hplace : 64 - 1 - (64 - 1 - a.toNat.log2) = a.toNat.log2 := by omega
      have hin : 64 - 1 - a.toNat.log2 < 64 := by omega
      rw [BitVec.getMsbD, BitVec.getLsbD, hplace, Nat.testBit_log2 h0, decide_eq_true hin, Bool.and_self]

/-! ## Lane reads (R354) -/

/-- The lowest active lane of a path that has one. -/
theorem headD_activeLanes {m : Mask} (h : m ≠ 0) :
    laneOn m ((activeLanes m).headD 0) = true ∧ ∀ j, j < (activeLanes m).headD 0 → laneOn m j = false := by
  obtain ⟨l, hl⟩ : ∃ l, laneOn m l = true := by
    by_contra hno
    exact h (BitVec.eq_of_getLsbD_eq fun l _ => by simpa [laneOn] using fun hl => hno ⟨l, hl⟩)
  have hmem : l ∈ lanes := List.mem_range.2 (BitVec.lt_of_getLsbD hl)
  obtain ⟨n, hn⟩ := Option.isSome_iff_exists.1 (List.find?_isSome.2 ⟨l, hmem, hl⟩)
  have hhead : (activeLanes m).headD 0 = n := by
    rw [List.headD_eq_head?_getD, activeLanes, List.head?_filter, hn, Option.getD_some]
  obtain ⟨hon, -, hoff⟩ := List.find?_range_eq_some.1 hn
  rw [hhead]
  exact ⟨hon, fun j hj => by simpa using hoff j hj⟩

/-- The lane that kfromv reads (R354). -/
theorem pickLane_spec (x : Iss) (sel : LaneSel) : match sel with
    | .lane n => pickLane x sel = n
    | .k n => pickLane x sel = (kget x.grp n).toNat % 64
    | .first => x.ent.mask ≠ 0 →
      laneOn x.ent.mask (pickLane x sel) = true ∧ ∀ j, j < pickLane x sel → laneOn x.ent.mask j = false := by
  cases sel with
  | lane n => rfl
  | k n => rfl
  | first => exact headD_activeLanes

/-- The value of one lane of a vector register, or of a pair under a pair type, as a 64-bit result (R354). -/
theorem laneVal_fileVal (t : Ty) (g : Group) {va : Nat} (hva : va < 1536) (l : Nat) :
    laneVal t (fileVal g t.pair va l) = if t = .i64 ∨ t = .n64 then BitVec.ofNat 64 (pget g va l)
      else if t = .i32 then (vget g va l).signExtend 64 else (vget g va l).zeroExtend 64 := by
  unfold laneVal fileVal
  rw [if_pos hva]
  by_cases hp : t = .i64 ∨ t = .n64
  · obtain rfl | rfl := hp <;> rfl
  · have hpair : t.pair = false := by cases t <;> simp_all [Ty.pair]
    have hback : BitVec.ofNat 32 (vget g va l).toNat = vget g va l := BitVec.ofNat_toNat ..
    rw [if_neg hp, hpair, if_neg Bool.false_ne_true, ofInt_sext (by omega), hback, BitVec.ofNat_toNat]

/-! ## Completion -/

variable {i : Instr} {g : Sig} {h : Hdr} {kd : Nat} {f : Iss → W64}

/-- An instruction whose meaning is `uni` writes the value of its view to kd and changes nothing else. -/
theorem uni_completes_with {P : Iss → State → State → Prop} (hexec : ∀ s, exec i s = uni g h kd f s)
    (hP : ∀ x s t, UniDone h.nw h.hold kd (fun _ _ => f x) x s t → P x s t) : Completes i g Always P := by
  intro s x hr _
  refine ⟨writeUni h.nw h.hold kd (f x) x (advance g x s), ?_, hP x s _ (writeUni_done _ _ _ _ hr.view)⟩
  rw [hexec, uni]
  exact issue_next hr rfl rfl

theorem uni_completes {v : Iss → W64} (hexec : ∀ s, exec i s = uni g h kd f s) (hv : ∀ x, f x = v x) :
    Completes i g Always (UniDone h.nw h.hold kd fun x _ => v x) :=
  uni_completes_with hexec fun x s t hd => by rw [hv] at hd; exact hd

/-- A comparison writes 1 where its condition holds and 0 where it does not. -/
theorem uni_completes_cond {c : Iss → Bool} {p : Iss → Prop} (hexec : ∀ s, exec i s = uni g h kd (fun x => if c x then 1 else 0) s)
    (hc : ∀ x, c x = true ↔ p x) : Completes i g Always fun x s t =>
      ∃ v : W64, UniDone h.nw h.hold kd (fun _ _ => v) x s t ∧ (p x → v = 1) ∧ (¬ p x → v = 0) :=
  uni_completes_with hexec fun x _ _ hd =>
    ⟨_, hd, fun hp => if_pos ((hc x).2 hp), fun hp => if_neg fun hcx => hp ((hc x).1 hcx)⟩

end Sys2Proof.Machine

namespace Sys2Proof

open Sys2Proof.Machine Sys2Proof.Stmt

/-! ## The four parts of the statement -/

theorem uniformArithmetic : UniformArithmetic := by
  intro h kd ka kb kc imm hu a b c j done
  have hfit := kWrap_eq_fit hu
  exact ⟨
    uni_completes (fun _ => rfl) fun _ => hfit _, uni_completes (fun _ => rfl) fun _ => hfit _,
    uni_completes (fun _ => rfl) fun _ => hfit _, uni_completes (fun _ => rfl) fun _ => hfit _,
    uni_completes (fun _ => rfl) fun _ => hfit _, uni_completes (fun _ => rfl) fun _ => hfit _,
    uni_completes (fun _ => rfl) fun _ => hfit _, uni_completes (fun _ => rfl) fun _ => hfit _,
    uni_completes (fun _ => rfl) fun _ => rfl, uni_completes (fun _ => rfl) fun _ => rfl,
    uni_completes (fun _ => rfl) fun _ => rfl, uni_completes (fun _ => rfl) fun _ => rfl⟩

theorem uniformCompare : UniformCompare := fun _ _ _ _ _ _ =>
  ⟨uni_completes_cond (fun _ => rfl) fun _ => cmpI_iff_holds .., uni_completes_cond (fun _ => rfl) fun _ => cmpI_iff_holds ..⟩

theorem uniformLogic : UniformLogic := by
  intro h kd ka kb kc sh disp imm imm64 a b z done
  refine ⟨fun hb => ?_, fun _ => uni_completes (fun _ => rfl) fun _ => rfl⟩
  have hz : kImm h.ty imm = z := kImm_b32 hb imm
  have hn : (kImm h.ty imm).toNat = imm.toNat := kImm_b32_toNat hb imm
  refine ⟨?kmov, ?kand, ?kandImm, ?kor, ?korImm, ?kxor, ?kxorImm, ?kshl, ?kshlImm, ?kshr, ?kshrImm, ?ksra, ?ksraImm, ?ksel, ?klea,
    ?kpopc, ?kclz, ?kli64⟩
  case kmov | kand | kor | kxor | kshl | kshr | ksel | kli64 => exact uni_completes (fun _ => rfl) fun _ => rfl
  case kandImm | korImm | kxorImm => exact uni_completes (fun _ => rfl) fun _ => by rw [hz]
  case kshlImm => exact uni_completes (fun _ => rfl) fun _ => by rw [kShl, hn]
  case kshrImm => exact uni_completes (fun _ => rfl) fun _ => by rw [kShr, hn]
  case ksra => exact uni_completes (fun _ => rfl) fun _ => kSra_eq ..
  case ksraImm => exact uni_completes (fun _ => rfl) fun _ => by rw [kSra_eq, hn]
  case klea => exact uni_completes (fun _ => rfl) fun _ => kLea_eq ..
  case kpopc => exact uni_completes (fun _ => rfl) fun x => congrArg (BitVec.ofNat 64) (popcountN_eq_length 64 (a x).toNat)
  case kclz => exact uni_completes_with (fun _ => rfl) fun x _ _ hd => ⟨clzN 64 (a x).toNat, hd, clzN_spec (a x)⟩

theorem laneRead : LaneRead := fun h _ _ sel hva =>
  uni_completes_with (fun _ => rfl) fun x _ _ hd =>
    ⟨pickLane x sel, by rw [laneVal_fileVal h.ty x.grp hva] at hd; exact hd, pickLane_spec x sel⟩

/-- Settles O34: each uniform instruction writes the value of its row of R352 to R354 and nothing else. -/
theorem uniformInstructions : Obligations.UniformInstructions := ⟨uniformArithmetic, uniformCompare, uniformLogic, laneRead⟩

end Sys2Proof
end

section
/-! SUPPORT. What the per-lane instructions share: the elements of a lane (R272), exact integers as element codes (R291, R362), and the
completion of an instruction that writes a value to every active lane (R356) or a bit for each of them to a mask register (R366). -/

namespace Sys2Proof.Machine

open Sys2Proof Sys2Proof.Stmt

/-! ## Elements of a lane -/

theorem elem_lt (t : Ty) (v j : Nat) : elem t v j < 2 ^ t.width := Nat.mod_lt _ (Nat.two_pow_pos _)

theorem packTo_lt (t : Ty) (f : Nat → Nat) (n : Nat) : packTo t f n < 2 ^ (t.width * n) := by
  induction n with
  | zero => simp [packTo]
  | succ n ih =>
    have hf : f n % 2 ^ t.width + 1 ≤ 2 ^ t.width := Nat.mod_lt _ (Nat.two_pow_pos _)
    calc packTo t f n + f n % 2 ^ t.width * 2 ^ (t.width * n)
        < 2 ^ (t.width * n) + f n % 2 ^ t.width * 2 ^ (t.width * n) := by omega
      _ = (f n % 2 ^ t.width + 1) * 2 ^ (t.width * n) := by ring
      _ ≤ 2 ^ t.width * 2 ^ (t.width * n) := Nat.mul_le_mul_right _ hf
      _ = 2 ^ (t.width * (n + 1)) := by ring

theorem elem_packTo (t : Ty) (f : Nat → Nat) {j n : Nat} (hj : j < n) : elem t (packTo t f n) j = f j % 2 ^ t.width := by
  induction n with
  | zero => omega
  | succ n ih =>
    rw [packTo, elem]
    obtain rfl | h := Nat.eq_or_lt_of_le (Nat.lt_succ_iff.1 hj)
    · rw [Nat.add_mul_div_right _ _ (Nat.two_pow_pos _), Nat.div_eq_of_lt (packTo_lt t f j), Nat.zero_add, Nat.mod_mod]
    · obtain ⟨k, rfl⟩ := Nat.exists_eq_add_of_lt h
      have hplace : f (j + k + 1) % 2 ^ t.width * 2 ^ (t.width * (j + k + 1)) =
          f (j + k + 1) % 2 ^ t.width * 2 ^ (t.width * k) * 2 ^ t.width * 2 ^ (t.width * j) := by ring
      rw [hplace, Nat.add_mul_div_right _ _ (Nat.two_pow_pos _), Nat.add_mul_mod_self_right]
      exact ih h

theorem pack_lt (t : Ty) (f : Nat → Nat) : pack t f < 2 ^ (t.width * t.elems) := packTo_lt t f t.elems

theorem elem_pack (t : Ty) (f : Nat → Nat) {j : Nat} (hj : j < t.elems) : elem t (pack t f) j = f j % 2 ^ t.width :=
  elem_packTo t f hj

theorem width_mul_elems {t : Ty} (h : t.pair = false) : t.width * t.elems = 32 := by
  revert h
  cases t <;> decide

/-! ## Exact integers as codes -/

theorem wrapN_cast (w : Nat) (v : Int) : ((wrapN w v : Nat) : Int) = v % (2 ^ w : Nat) :=
  Int.toNat_of_nonneg (Int.emod_nonneg _ (by positivity))

/-- The immediate of a per-lane twin is that of R321. -/
theorem immLane_eq (h : Hdr) (imm : W32) : immLane h imm = immOpnd h imm := by
  funext x l
  unfold immLane immOpnd immVal wide
  split
  · rfl
  · rw [BitVec.zeroExtend, BitVec.toNat_setWidth, Nat.mod_eq_of_lt (by omega)]

/-- An exact element wrapped or saturated by MOD, as R362 words it. -/
theorem narrow_cast (h : Hdr) (v : Int) :
    ((narrow h v : Nat) : Int) = (if h.mod = 1 then max h.ty.minI (min v h.ty.maxI) else v) % (2 ^ h.ty.width : Nat) := by
  have hle : h.ty.minI ≤ h.ty.maxI := by cases h.ty <;> decide
  rw [narrow, wrapN_cast, clampI_eq_max_min hle]

/-! ## Completion -/

variable {i : Instr} {g : Sig} {h : Hdr} {d : VDst}

/-- A per-lane instruction writes the value of its view to every active lane and changes nothing else. -/
theorem lanewise_completes {f : Iss → Nat → Nat} {P : Iss → Nat → Nat → Prop} (hexec : ∀ s, exec i s = lanewise g h d f s)
    (hP : ∀ x l, l < 64 → P x l (f x l)) : Completes i g Always (Each h d P) := by
  intro s x hr _
  refine ⟨writeLanes h d x (f x) (advance g x s), ?_, f x, writeLanes_done h d (f x) hr.view, hP x⟩
  rw [hexec, lanewise]
  exact issue_next hr rfl rfl

theorem lanewise_completes_val {f v : Iss → Nat → Nat} (hexec : ∀ s, exec i s = lanewise g h d f s)
    (hv : ∀ x l, f x l = v x l) : Completes i g Always (Val h d v) := lanewise_completes hexec fun x l _ => hv x l

/-- A per-lane instruction that works element by element on exact integers. -/
theorem ints_completes {F : Int → Int → Int → Nat} {f : Int → Int → Int → Int} {sat : Bool} {a b c : Iss → Nat → Nat}
    (hexec : ∀ s, exec i s = lanewise g h d (fun x l => ints h.ty F (a x l) (b x l) (c x l)) s)
    (hF : ∀ u v w, ((F u v w : Nat) : Int) =
      (if sat ∧ h.mod = 1 then max h.ty.minI (min (f u v w) h.ty.maxI) else f u v w) % (2 ^ h.ty.width : Nat)) :
    Completes i g Always (IntElems h d sat f a b c) := by
  refine lanewise_completes hexec fun x l _ => ⟨pack_lt .., fun j hj => ?_⟩
  rw [ints, elem_pack _ _ hj, Int.natCast_mod, hF, Int.emod_emod]

/-- A per-lane instruction that works element by element on codes. -/
theorem codes_completes {F f : Nat → Nat → Nat} {a b : Iss → Nat → Nat}
    (hexec : ∀ s, exec i s = lanewise g h d (fun x l => codes h.ty F (a x l) (b x l)) s)
    (hF : ∀ u v, u < 2 ^ h.ty.width → F u v % 2 ^ h.ty.width = f u v) : Completes i g Always (CodeElems h d f a b) := by
  refine lanewise_completes hexec fun x l _ => ⟨pack_lt .., fun j hj => ?_⟩
  rw [codes, elem_pack _ _ hj, hF _ _ (elem_lt ..)]

/-- An instruction that writes mask bits writes those of the active lanes and changes nothing else. -/
theorem maskBits_completes {md : Nat} {p : Iss → Nat → Bool} {Q : Iss → (Nat → Bool) → Prop}
    (hexec : ∀ s, exec i s = issue g noPre (fun x s => .next (writeMaskBits md x (p x) s)) s) (hQ : ∀ x, Q x (p x)) :
    Completes i g Always fun x s t => ∃ q : Nat → Bool, MaskDone md (fun _ _ => q) x s t ∧ Q x q := by
  intro s x hr _
  refine ⟨writeMaskBits md x (p x) (advance g x s), ?_, p x, writeMaskBits_done md (p x) hr.view, hQ x⟩
  rw [hexec]
  exact issue_next hr rfl rfl

/-! ## Results of more than one write -/

section

variable {x : Iss} {s : State}

/-- A change of the issuing group after the issue touches nothing else, and where it leaves the stack as it was but for latches the path
has moved on. -/
theorem modGrp_issued {f : Group → Group} (hi : issOf g s = some x) (hgid : ∀ y, (f y).gid = y.gid)
    (hst : ∀ y, (f y).stack.map unlatched = y.stack.map unlatched) :
    OnlyGroup x.g s (modGrp x.g f (advance g x s)) ∧
      grpOf (modGrp x.g f (advance g x s)) x.g = some (f (issuedGrp g x s)) ∧ MovedOn x (f (issuedGrp g x s)) :=
  have hname : ∀ y : Group, y.gid = x.g.gid → (f y).gid = x.g.gid := fun y hy => (hgid y).trans hy
  ⟨only_effect hname, grpOf_effect hi hname, movedOn_of hi (hst _)⟩

/-- What a per-lane result does to the group (R238, R356). -/
def laneEffect (h : Hdr) (d : VDst) (x : Iss) (r : Nat → Nat) (y : Group) : Group :=
  held x h.hold d.code h.ty.pair (latched x h.ty.pair d.code r) (laned h d x r y)

theorem writeLanes_eq_laneEffect (h : Hdr) (d : VDst) (x : Iss) (r : Nat → Nat) (s : State) :
    writeLanes h d x r s = modGrp x.g (laneEffect h d x r) s := rfl

theorem laneEffect_frame (h : Hdr) (d : VDst) (x : Iss) (r : Nat → Nat) (y : Group) :
    ∃ st, laneEffect h d x r y = { y with v := (laned h d x r y).v, stack := st } := by
  obtain ⟨st, hst⟩ := held_frame x h.hold d.code h.ty.pair (latched x h.ty.pair d.code r) (laned h d x r y)
  exact ⟨st, by rw [laneEffect, hst, laned_frame]⟩

theorem laneEffect_gid (h : Hdr) (d : VDst) (x : Iss) (r : Nat → Nat) (y : Group) : (laneEffect h d x r y).gid = y.gid := by
  obtain ⟨st, hst⟩ := laneEffect_frame h d x r y
  rw [hst]

theorem laneEffect_stack (h : Hdr) (d : VDst) (x : Iss) (r : Nat → Nat) (y : Group) :
    (laneEffect h d x r y).stack.map unlatched = y.stack.map unlatched := by
  rw [laneEffect, held_stack, laned_frame]

/-- The registers after the issue and a per-lane result. -/
theorem vget_laneEffect_issued (i : Sig) (h : Hdr) (d : VDst) (x : Iss) (r : Nat → Nat) (s : State) (n : Nat) {l : Nat} (hl : l < 64)
    (m : Mask) : vget (laneEffect h d { x with mask := m } r (issuedGrp i x s)) n l =
      laneAfter h.nw h.ty.pair d m r x.grp n l := by
  obtain ⟨st, hst⟩ := laneEffect_frame h d { x with mask := m } r (issuedGrp i x s)
  obtain ⟨st', hst'⟩ := issuedGrp_frame i x s
  have hv : vget (laneEffect h d { x with mask := m } r (issuedGrp i x s)) n l =
      vget (laned h d { x with mask := m } r (issuedGrp i x s)) n l := by rw [hst]; rfl
  rw [hv, vget_laned _ _ _ _ _ _ hl, hst']
  rfl

/-- A per-lane result that reaches only the lanes of a mask `m` of the instruction's own (R366, movk). -/
theorem writeLanes_done_under (h : Hdr) (d : VDst) (r : Nat → Nat) (m : Mask) (hi : issOf g s = some x) :
    LanesDone h d (fun _ _ => r) { x with mask := m } s (writeLanes h d { x with mask := m } r (advance g x s)) := by
  rw [writeLanes_eq_laneEffect]
  obtain ⟨honly, hgrp, hmoved⟩ := modGrp_issued hi (laneEffect_gid h d _ r) (laneEffect_stack h d { x with mask := m } r)
  obtain ⟨st, hst⟩ := laneEffect_frame h d { x with mask := m } r (issuedGrp g x s)
  obtain ⟨st', hst'⟩ := issuedGrp_frame g x s
  refine ⟨honly, _, hgrp, by rw [hst, hst'], fun n l hl => vget_laneEffect_issued g h d x r s n hl m, hmoved, ?_⟩
  obtain ⟨e, he⟩ := live_issued hi
  refine held_latched (e := e) ?_
  rw [laned_frame]
  exact he

end

end Sys2Proof.Machine
end

section
/-! SUPPORT. Vector integer arithmetic (R362, R366): every element of every active lane takes the exact value wrapped or clamped, and addc
takes its carries from one mask and leaves them in another. -/

namespace Sys2Proof.Machine

open Sys2Proof Sys2Proof.Stmt

/-- The bits that a masked write of a mask register leaves (R362, R366). -/
theorem laneOn_merge (a m : Mask) (p : Nat → Bool) {l : Nat} (hl : l < 64) :
    laneOn (a &&& ~~~m ||| maskOf p &&& m) l = if laneOn m l then p l else laneOn a l := by
  have hp : (maskOf p).getLsbD l = p l := laneOn_maskOf p hl
  unfold laneOn
  rw [BitVec.getLsbD_or, BitVec.getLsbD_and, BitVec.getLsbD_and, BitVec.getLsbD_not, hp]
  cases m.getLsbD l <;> simp [hl]

theorem mset_frame (n : Nat) (v : Mask) (y : Group) : mset n v y = { y with m := (mset n v y).m } := by
  unfold mset
  split <;> rfl

/-- What addc does to the group: the sums in its destination, the carries of its active lanes in its carry-out mask (none for m0). -/
def addcEffect (h : Hdr) (d : VDst) (cout : Nat) (x : Iss) (r : Nat → Nat) (p : Nat → Bool) (y : Group) : Group :=
  mset cout (mget x.grp cout &&& ~~~x.mask ||| maskOf p &&& x.mask) (laneEffect h d x r y)

theorem addc_writes (h : Hdr) (d : VDst) (cout : Nat) (x : Iss) (r : Nat → Nat) (p : Nat → Bool) (s : State) :
    (if cout = 0 then writeLanes h d x r s else writeMaskBits cout x p (writeLanes h d x r s)) =
      modGrp x.g (addcEffect h d cout x r p) s := by
  by_cases hc : cout = 0
  · subst hc
    rfl
  · rw [if_neg hc, writeLanes_eq_laneEffect, writeMaskBits, modGrp_modGrp _ _ _ (laneEffect_gid h d x r)]
    rfl

theorem addcEffect_frame (h : Hdr) (d : VDst) (cout : Nat) (x : Iss) (r : Nat → Nat) (p : Nat → Bool) (y : Group) :
    ∃ st, addcEffect h d cout x r p y =
      { y with v := (laned h d x r y).v, stack := st, m := (addcEffect h d cout x r p y).m } := by
  obtain ⟨st, hst⟩ := laneEffect_frame h d x r y
  exact ⟨st, by rw [addcEffect, mset_frame, hst]⟩

theorem addcEffect_stack (h : Hdr) (d : VDst) (cout : Nat) (x : Iss) (r : Nat → Nat) (p : Nat → Bool) (y : Group) :
    (addcEffect h d cout x r p y).stack.map unlatched = y.stack.map unlatched := by
  rw [addcEffect, mset_stack, laneEffect_stack]

theorem addcEffect_gid (h : Hdr) (d : VDst) (cout : Nat) (x : Iss) (r : Nat → Nat) (p : Nat → Bool) (y : Group) :
    (addcEffect h d cout x r p y).gid = y.gid := by
  rw [addcEffect, mset_gid, laneEffect_gid]

/-- The carries after addc (R362). -/
theorem laneOn_addcEffect_issued (i : Sig) (h : Hdr) (d : VDst) (cout : Nat) (x : Iss) (r : Nat → Nat) (p : Nat → Bool) (s : State)
    (n : Nat) {l : Nat} (hl : l < 64) : laneOn (mget (addcEffect h d cout x r p (issuedGrp i x s)) n) l =
      if n = cout ∧ n ≠ 0 ∧ laneOn x.mask l = true then p l else laneOn (mget x.grp n) l := by
  obtain ⟨st, hst⟩ := laneEffect_frame h d x r (issuedGrp i x s)
  obtain ⟨st', hst'⟩ := issuedGrp_frame i x s
  have hm : mget (laneEffect h d x r (issuedGrp i x s)) n = mget x.grp n := by rw [hst, hst']; rfl
  rw [addcEffect, mget_mset, hm]
  by_cases hn : n = cout ∧ n ≠ 0
  · obtain ⟨rfl, h0⟩ := hn
    rw [if_pos ⟨rfl, h0⟩, laneOn_merge _ _ _ hl]
    simp only [ne_eq, h0, not_false_eq_true, true_and]
  · rw [if_neg, if_neg]
    · rintro ⟨rfl, h0, -⟩
      exact hn ⟨rfl, h0⟩
    · rintro ⟨rfl, h0⟩
      exact hn ⟨rfl, h0⟩

/-- The registers after addc: those of its per-lane result. -/
theorem vget_addcEffect_issued (i : Sig) (h : Hdr) (d : VDst) (cout : Nat) (x : Iss) (r : Nat → Nat) (p : Nat → Bool) (s : State)
    (n : Nat) {l : Nat} (hl : l < 64) : vget (addcEffect h d cout x r p (issuedGrp i x s)) n l =
      laneAfter h.nw h.ty.pair d x.mask r x.grp n l := by
  rw [vget, addcEffect, mset_v]
  exact vget_laneEffect_issued i h d x r s n hl x.mask

end Sys2Proof.Machine

namespace Sys2Proof

open Sys2Proof.Machine Sys2Proof.Stmt

theorem vectorInteger : VectorInteger := by
  intro h d a b c imm _
  rw [immLane_eq]
  have hn : ∀ v : Int, ((narrow h v : Nat) : Int) =
      (if true ∧ h.mod = 1 then max h.ty.minI (min v h.ty.maxI) else v) % (2 ^ h.ty.width : Nat) := fun v => by
    rw [narrow_cast]; simp only [true_and]
  have hw : ∀ v : Int, ((wrapN h.ty.width v : Nat) : Int) =
      (if false = true ∧ h.mod = 1 then max h.ty.minI (min v h.ty.maxI) else v) % (2 ^ h.ty.width : Nat) := fun v => by
    rw [wrapN_cast]; simp only [Bool.false_eq_true, false_and, if_false]
  have hmin : ∀ u v : Int, (if v < u then v else u) = min u v := fun u v => by split <;> omega
  have hmax : ∀ u v : Int, (if u < v then v else u) = max u v := fun u v => by split <;> omega
  refine ⟨?add, ?addImm, ?sub, ?subImm, ?mul, ?mulImm, ?mulh, ?mulhImm, ?mad, ?madImm, ?abs, ?min, ?minImm, ?max, ?maxImm⟩
  case add | addImm | sub | subImm | mul | mulImm | mad | madImm | abs => exact ints_completes (fun _ => rfl) fun _ _ _ => hn _
  case mulh | mulhImm => exact ints_completes (fun _ => rfl) fun _ _ _ => hw _
  case min | minImm => exact ints_completes (fun _ => rfl) fun u v _ => by rw [hmin, hw]
  case max | maxImm => exact ints_completes (fun _ => rfl) fun u v _ => by rw [hmax, hw]

theorem addWithCarry : AddWithCarry := by
  intro h d a b cin cout _ s x hr _
  refine ⟨modGrp x.g (addcEffect h d cout x (fun l => addcSum x h.ty a b cin l % 2 ^ h.ty.width)
    fun l => carryOut h.ty.width (addcSum x h.ty a b cin l)) (advance (sigAddc h d a b cin cout) x s), ?_, ?_⟩
  · rw [← addc_writes]
    exact issue_next hr rfl rfl
  · obtain ⟨honly, hgrp, hmoved⟩ := modGrp_issued hr.view (addcEffect_gid h d cout x _ _) (addcEffect_stack h d cout x _ _)
    obtain ⟨st, hst⟩ := addcEffect_frame h d cout x _ _ (issuedGrp (sigAddc h d a b cin cout) x s)
    obtain ⟨st', hst'⟩ := issuedGrp_frame (sigAddc h d a b cin cout) x s
    exact ⟨honly, _, hgrp, by rw [hst, hst'], fun n l hl => vget_addcEffect_issued _ h d cout x _ _ s n hl,
      fun n l hl => laneOn_addcEffect_issued _ h d cout x _ _ s n hl, hmoved⟩

/-- Settles O35: the element-wise integers of R362 and R366, and the carries of addc. -/
theorem vectorArithmetic : Obligations.VectorArithmetic := ⟨vectorInteger, addWithCarry⟩

end Sys2Proof
end

section
/-! SUPPORT. Logic, shifts, moves, comparisons, bit counts and bit fields (R364, R366, R368): each value bit by bit. -/

namespace Sys2Proof.Machine

open Sys2Proof Sys2Proof.Stmt

/-! ## Numbers built bit by bit -/

theorem bit_eq_testBit (x i : Nat) : bit x i = x.testBit i := by
  rw [bit, Nat.testBit_eq_decide_div_mod_eq]

/-- The sum of the powers of two of the places where `p` holds has a 1 in just those places. -/
theorem foldl_places (p : Nat → Bool) (n : Nat) : (List.range n).foldl (fun r i => if p i then r + 2 ^ i else r) 0 < 2 ^ n ∧
    ∀ j, ((List.range n).foldl (fun r i => if p i then r + 2 ^ i else r) 0).testBit j = (decide (j < n) && p j) := by
  induction n with
  | zero => simp
  | succ n ih =>
    obtain ⟨hlt, hbit⟩ := ih
    rw [List.range_succ, List.foldl_append, List.foldl_cons, List.foldl_nil]
    generalize (List.range n).foldl (fun r i => if p i then r + 2 ^ i else r) 0 = r at hlt hbit ⊢
    have hstep : (if p n then r + 2 ^ n else r) = 2 ^ n * (p n).toNat + r := by cases p n <;> simp [Nat.add_comm]
    rw [hstep]
    refine ⟨by have := (p n).toNat_le; rw [Nat.pow_succ]; nlinarith, fun j => ?_⟩
    rw [Nat.testBit_two_pow_mul_add _ hlt, hbit]
    obtain hj | rfl | hj := Nat.lt_trichotomy j n
    · simp [hj, Nat.lt_succ_of_lt hj]
    · cases p j <;> simp
    · have h0 : (p n).toNat < 2 ^ (j - n) := Nat.lt_of_le_of_lt (p n).toNat_le (Nat.one_lt_two_pow (by omega))
      rw [if_neg (by omega), Nat.testBit_lt_two_pow h0, decide_eq_false (by omega), Bool.false_and]

theorem lop3_spec (w : Nat) (tbl : BitVec 8) (a b c : Nat) : lop3 w tbl a b c < 2 ^ w ∧ ∀ i, i < w →
    (lop3 w tbl a b c).testBit i = tbl.getLsbD ((a.testBit i).toNat + 2 * (b.testBit i).toNat + 4 * (c.testBit i).toNat) := by
  obtain ⟨hlt, hbit⟩ := foldl_places (fun i => tbl.getLsbD ((bit a i).toNat + 2 * (bit b i).toNat + 4 * (bit c i).toNat)) w
  refine ⟨hlt, fun i hi => ?_⟩
  rw [lop3, hbit, decide_eq_true hi, Bool.true_and]
  simp only [bit_eq_testBit]

theorem bitRevN_spec (n x : Nat) : bitRevN n x < 2 ^ n ∧ ∀ i, i < n → (bitRevN n x).testBit i = x.testBit (n - 1 - i) := by
  induction n generalizing x with
  | zero => simp [bitRevN]
  | succ n ih =>
    obtain ⟨hlt, hbit⟩ := ih (x / 2)
    have hx : x % 2 < 2 := Nat.mod_lt _ (by omega)
    rw [bitRevN, Nat.mul_comm]
    refine ⟨by rw [Nat.pow_succ]; nlinarith, fun i hi => ?_⟩
    rw [Nat.testBit_two_pow_mul_add _ hlt]
    by_cases hn : i < n
    · have hplace : n + 1 - 1 - i = (n - 1 - i) + 1 := by omega
      rw [if_pos hn, hbit i hn, hplace, Nat.testBit_succ]
    · obtain rfl : i = n := by omega
      simp

/-- clz counts the 0 bits above the highest 1 of the low w bits (R368). -/
theorem clzN_places (w v : Nat) : clzN w v ≤ w ∧ (∀ i, i < w → w ≤ i + clzN w v → v.testBit i = false) ∧
    (clzN w v < w → v.testBit (w - 1 - clzN w v) = true) := by
  have hlow : ∀ i, i < w → (v % 2 ^ w).testBit i = v.testBit i := fun i hi => by
    rw [Nat.testBit_mod_two_pow, decide_eq_true hi, Bool.true_and]
  have hm : v % 2 ^ w < 2 ^ w := Nat.mod_lt _ (Nat.two_pow_pos w)
  unfold clzN
  generalize v % 2 ^ w = m at hlow hm ⊢
  split
  · rename_i h0
    subst h0
    exact ⟨Nat.le_refl w, fun i hi _ => by rw [← hlow i hi, Nat.zero_testBit], fun hw => absurd hw (Nat.lt_irrefl w)⟩
  · rename_i h0
    have hlog : m.log2 < w := (Nat.log2_lt h0).2 hm
    refine ⟨by omega, fun i hi hge => ?_, fun _ => ?_⟩
    · rw [← hlow i hi]
      exact Nat.testBit_lt_two_pow (Nat.lt_of_lt_of_le Nat.lt_log2_self (Nat.pow_le_pow_right (by omega) (by omega)))
    · have hplace : w - 1 - (w - 1 - m.log2) = m.log2 := by omega
      rw [hplace, ← hlow _ hlog, Nat.testBit_log2 h0]

/-! ## Two's complement -/

theorem wrapN_of_nonneg {w : Nat} {v : Int} (h0 : 0 ≤ v) (hv : v < (2 ^ w : Nat)) : (wrapN w v : Int) = v := by
  rw [wrapN_cast, Int.emod_eq_of_lt h0 hv]

theorem wrapN_of_neg {w : Nat} {v : Int} (h0 : v < 0) (hv : -(2 ^ w : Nat) ≤ v) : (wrapN w v : Int) = v + (2 ^ w : Nat) := by
  rw [wrapN_cast, ← Int.add_emod_right, Int.emod_eq_of_lt (by omega) (by omega)]

/-- A code of w bits read as two's complement (R291). -/
theorem sext_of_lt {w v : Nat} (hw : 0 < w) (hv : v < 2 ^ w) :
    sext w v = if v < 2 ^ (w - 1) then (v : Int) else (v : Int) - (2 ^ w : Nat) := by
  have hpow : 2 ^ w = 2 * 2 ^ (w - 1) := by rw [← Nat.pow_succ', Nat.succ_eq_add_one, Nat.sub_add_cancel hw]
  rw [sext, bit_eq_testBit, Nat.mod_eq_of_lt hv]
  by_cases h : v < 2 ^ (w - 1)
  · rw [Nat.testBit_lt_two_pow h, if_neg Bool.false_ne_true, if_pos h]
  · have htop : v.testBit (w - 1) = true := by
      rw [Nat.testBit_eq_decide_div_mod_eq, Nat.div_eq_of_lt_le (k := 1) (by omega) (by omega)]
      rfl
    rw [if_pos htop, if_neg h]

/-! ## Shifts -/

theorem sraN_of_lt {w v : Nat} (n : Nat) (hw : 0 < w) (hv : v < 2 ^ (w - 1)) :
    sraN w v n = if w ≤ n then 0 else v / 2 ^ n := by
  have hlt : v < 2 ^ w := Nat.lt_of_lt_of_le hv (Nat.pow_le_pow_right (by omega) (by omega))
  have hq : v / 2 ^ min n w < 2 ^ w := Nat.lt_of_le_of_lt (Nat.div_le_self ..) hlt
  have hval : sraN w v n = v / 2 ^ min n w := by
    rw [sraN, sext_of_lt hw hlt, if_pos hv, ← Int.natCast_div]
    exact_mod_cast wrapN_of_nonneg (Int.natCast_nonneg _) (Int.ofNat_lt.2 hq)
  rw [hval]
  split
  · rename_i hn
    rw [Nat.min_eq_right hn, Nat.div_eq_of_lt hlt]
  · rename_i hn
    rw [Nat.min_eq_left (by omega)]

/-- An arithmetic right shift of a negative code brings in copies of its top bit (R364). -/
theorem sraN_of_not_lt {w v : Nat} (n : Nat) (hw : 0 < w) (hlt : v < 2 ^ w) (hv : ¬ v < 2 ^ (w - 1)) :
    sraN w v n = if w ≤ n then 2 ^ w - 1 else v / 2 ^ n + (2 ^ w - 2 ^ (w - n)) := by
  have hpos : 0 < 2 ^ w := Nat.two_pow_pos w
  rw [sraN, sext_of_lt hw hlt, if_neg hv]
  split
  · rename_i hn
    have hq : ((v : Int) - (2 ^ w : Nat)) / (2 ^ w : Nat) = -1 := by
      rw [Int.ediv_eq_iff_of_pos (by omega)]
      omega
    have := wrapN_of_neg (w := w) (v := -1) (by omega) (by omega)
    rw [Nat.min_eq_right hn, hq]
    omega
  · rename_i hn
    have hsplit : 2 ^ w = 2 ^ (w - n) * 2 ^ n := by rw [← Nat.pow_add, Nat.sub_add_cancel (by omega)]
    have hq : ((v : Int) - (2 ^ w : Nat)) / (2 ^ n : Nat) = (v / 2 ^ n : Nat) - (2 ^ (w - n) : Nat) := by
      rw [hsplit, Nat.cast_mul, Int.sub_mul_ediv_right _ _ (by positivity), Int.natCast_div]
    have hlow : v / 2 ^ n < 2 ^ (w - n) := (Nat.div_lt_iff_lt_mul (Nat.two_pow_pos n)).2 (by omega)
    have hle : 2 ^ (w - n) ≤ 2 ^ w := Nat.pow_le_pow_right (by omega) (by omega)
    rw [Nat.min_eq_left (by omega), hq]
    generalize v / 2 ^ n = q at hlow ⊢
    generalize 2 ^ (w - n) = p at hlow hle ⊢
    have := wrapN_of_neg (w := w) (v := (q : Int) - (p : Nat)) (by omega) (by omega)
    omega

theorem sraN_spec {w v : Nat} (n : Nat) (hw : 0 < w) (hlt : v < 2 ^ w) :
    sraN w v n % 2 ^ w = if v < 2 ^ (w - 1) then (if w ≤ n then 0 else v / 2 ^ n)
      else if w ≤ n then 2 ^ w - 1 else v / 2 ^ n + (2 ^ w - 2 ^ (w - n)) := by
  have hr : sraN w v n < 2 ^ w := by
    have := Int.emod_lt_of_pos (sext w v / (2 ^ min n w : Nat)) (b := (2 ^ w : Nat)) (by positivity)
    rw [← wrapN_cast] at this
    exact_mod_cast this
  rw [Nat.mod_eq_of_lt hr]
  split
  · exact sraN_of_lt n hw ‹_›
  · exact sraN_of_not_lt n hw hlt ‹_›

theorem shlN_mod (w v n : Nat) : shlN w v n % 2 ^ w = if w ≤ n then 0 else v * 2 ^ n % 2 ^ w := by
  unfold shlN
  split
  · exact Nat.zero_mod _
  · exact Nat.mod_mod ..

theorem shrN_mod {w v : Nat} (n : Nat) (hv : v < 2 ^ w) : shrN w v n % 2 ^ w = if w ≤ n then 0 else v / 2 ^ n := by
  unfold shrN
  split
  · exact Nat.zero_mod _
  · exact Nat.mod_eq_of_lt (Nat.lt_of_le_of_lt (Nat.div_le_self ..) hv)

/-! ## Moves (R366) -/

/-- A k register as a lane value: whole under a pair type, its low half otherwise (R314). -/
theorem fileVal_k (y : Group) (pair : Bool) (n l : Nat) :
    fileVal y pair (1600 + n) l = if pair then (kget y n).toNat else (kget y n).toNat % 2 ^ 32 := by
  rw [fileVal, if_neg (by omega), if_neg (by omega), Nat.add_sub_cancel_left]

/-! ## Bit fields (R368) -/

theorem bfe_eq (t : Ty) (v f : Nat) : bfe t v f =
    (if t = .i32 ∧ 0 < min (f / 256 % 64) 32 ∧
        2 ^ (min (f / 256 % 64) 32 - 1) ≤ v / 2 ^ (f % 32) % 2 ^ min (f / 256 % 64) 32 then
      v / 2 ^ (f % 32) % 2 ^ min (f / 256 % 64) 32 + (2 ^ 32 - 2 ^ min (f / 256 % 64) 32)
    else v / 2 ^ (f % 32) % 2 ^ min (f / 256 % 64) 32) := by
  have hp : fieldPos f = f % 32 := by simp [fieldPos, bits]
  have hw : fieldWidth f = min (f / 256 % 64) 32 := by simp [fieldWidth, bits]
  rw [bfe, hp, hw]
  have hlt : v / 2 ^ (f % 32) % 2 ^ min (f / 256 % 64) 32 < 2 ^ min (f / 256 % 64) 32 := Nat.mod_lt _ (Nat.two_pow_pos _)
  have hle : min (f / 256 % 64) 32 ≤ 32 := Nat.min_le_right ..
  generalize min (f / 256 % 64) 32 = w at hlt hle ⊢
  generalize v / 2 ^ (f % 32) % 2 ^ w = u at hlt ⊢
  by_cases ht : t = .i32 ∧ 0 < w
  · obtain ⟨ht, hw0⟩ := ht
    have hpow : 2 ^ w ≤ 2 ^ 32 := Nat.pow_le_pow_right (by omega) hle
    simp only [ht, hw0, true_and, and_self, if_true]
    rw [sext_of_lt hw0 hlt]
    by_cases hneg : u < 2 ^ (w - 1)
    · rw [if_pos hneg, if_neg (by omega)]
      exact_mod_cast wrapN_of_nonneg (w := 32) (v := u) (by omega) (by omega)
    · rw [if_neg hneg, if_pos (by omega)]
      have := wrapN_of_neg (w := 32) (v := (u : Int) - (2 ^ w : Nat)) (by omega) (by omega)
      omega
  · rw [if_neg ht, if_neg fun hc => ht ⟨hc.1, hc.2.1⟩]

theorem bfi_spec (v f base : Nat) : bfi v f base < 2 ^ 32 ∧ ∀ i, i < 32 → (bfi v f base).testBit i =
    if f % 32 ≤ i ∧ i < f % 32 + min (f / 256 % 64) 32 then v.testBit (i - f % 32) else base.testBit i := by
  have hp : fieldPos f = f % 32 := by simp [fieldPos, bits]
  have hw : fieldWidth f = min (f / 256 % 64) 32 := by simp [fieldWidth, bits]
  rw [bfi, hp, hw]
  generalize min (f / 256 % 64) 32 = w
  generalize f % 32 = p
  have hm : ∀ i, i < 32 → ((2 ^ w - 1) * 2 ^ p % 2 ^ 32).testBit i = decide (p ≤ i ∧ i < p + w) := fun i hi => by
    rw [Nat.testBit_mod_two_pow, Nat.testBit_mul_two_pow, Nat.testBit_two_pow_sub_one]
    by_cases hpi : p ≤ i <;> simp [hi, hpi]
    omega
  have hlt : (2 ^ w - 1) * 2 ^ p % 2 ^ 32 < 2 ^ 32 := Nat.mod_lt _ (Nat.two_pow_pos 32)
  generalize (2 ^ w - 1) * 2 ^ p % 2 ^ 32 = m at hm hlt ⊢
  refine ⟨Nat.or_lt_two_pow (Nat.and_lt_two_pow _ (by omega)) (Nat.and_lt_two_pow _ hlt), fun i hi => ?_⟩
  have hnot : (2 ^ 32 - 1 - m).testBit i = !decide (p ≤ i ∧ i < p + w) := by
    have := Nat.testBit_two_pow_sub_succ hlt i
    rw [Nat.sub_sub, Nat.add_comm, this, hm i hi, decide_eq_true hi, Bool.true_and]
  rw [Nat.testBit_or, Nat.testBit_and, Nat.testBit_and, hnot, hm i hi, Nat.testBit_mul_two_pow]
  by_cases hin : p ≤ i ∧ i < p + w
  · simp [hin]
  · simp [hin]

end Sys2Proof.Machine

namespace Sys2Proof

open Sys2Proof.Machine Sys2Proof.Stmt

theorem vectorLogic : VectorLogic := by
  intro h d a b c imm tbl mc kv kl
  rw [immLane_eq]
  have hpos : 0 < h.ty.width := by cases h.ty <;> decide
  refine ⟨?and, ?andImm, ?or, ?orImm, ?xor, ?xorImm, ?lop3, ?shl, ?shlImm, ?shr, ?shrImm, ?sra, ?sraImm, ?sel, ?mov, ?movImm, ?movk⟩
  case and | andImm | or | orImm | xor | xorImm | sel | mov | movImm =>
    exact lanewise_completes_val (fun _ => rfl) fun _ _ => rfl
  case lop3 => exact lanewise_completes (fun _ => rfl) fun _ _ _ => lop3_spec ..
  case shl | shlImm => exact codes_completes (fun _ => rfl) fun _ _ _ => shlN_mod ..
  case shr | shrImm => exact codes_completes (fun _ => rfl) fun _ n hv => shrN_mod n hv
  case sra | sraImm => exact codes_completes (fun _ => rfl) fun _ n hv => sraN_spec n hpos hv
  case movk =>
    intro s x hr _
    refine ⟨_, issue_next hr rfl rfl, ?_⟩
    rw [fileVal_k]
    exact writeLanes_done_under h d _ _ hr.view

theorem vectorCompare : VectorCompare := by
  intro h md a b imm _
  rw [immLane_eq]
  exact ⟨maskBits_completes (fun _ => rfl) fun _ _ _ => cmpI_iff_holds .., maskBits_completes (fun _ => rfl) fun _ _ _ => cmpI_iff_holds ..⟩

theorem bitFields : BitFields := by
  intro h d a b c imm
  rw [immLane_eq]
  refine ⟨fun _ => ⟨?popc, ?clz, ?brev⟩, fun _ => ⟨?bfe, ?bfeImm⟩, fun _ => ⟨?bfi, ?bfiImm⟩⟩
  case popc => exact lanewise_completes_val (fun _ => rfl) fun _ _ => popcountN_eq_length ..
  case clz => exact lanewise_completes (fun _ => rfl) fun _ _ _ => clzN_places ..
  case brev => exact lanewise_completes (fun _ => rfl) fun _ _ _ => bitRevN_spec ..
  case bfe | bfeImm => exact lanewise_completes_val (fun _ => rfl) fun _ _ => bfe_eq ..
  case bfi | bfiImm => exact lanewise_completes (fun _ => rfl) fun _ _ _ => bfi_spec ..

/-- Settles O36: each logic, shift, select, move, comparison, bit-count and bit-field instruction writes the value of R364, R366 or R368. -/
theorem vectorLogicAndFields : Obligations.VectorLogicAndFields := ⟨vectorLogic, vectorCompare, bitFields⟩

end Sys2Proof
end

section
/-! SUPPORT. The float instructions that round nothing (R370 to R372): the selection of fmin and fmax, the classes of fclass and the
conditions of fcmp, on the exact values that codes stand for. -/

namespace Sys2Proof.Machine

open Sys2Proof Sys2Proof.Stmt

/-! ## The formats of the float instructions -/

theorem fltOf_fmtOf {t : Ty} {F : Fmt} (h : fltOf t F) : fmtOf t = F := by
  obtain ⟨rfl, rfl⟩ | ⟨rfl, rfl⟩ | ⟨rfl, rfl⟩ := h <;> rfl

theorem fltOf_pair {t : Ty} {F : Fmt} (h : fltOf t F) : t.pair = false := by
  obtain ⟨rfl, -⟩ | ⟨rfl, -⟩ | ⟨rfl, -⟩ := h <;> rfl

theorem fltOf_nanBits_lt {t : Ty} {F : Fmt} (h : fltOf t F) : F.nanBits < 2 ^ t.width := by
  obtain ⟨rfl, rfl⟩ | ⟨rfl, rfl⟩ | ⟨rfl, rfl⟩ := h <;> decide

/-- A class word of fclass fits the element (R372). -/
theorem fltOf_class_lt {t : Ty} {F : Fmt} (h : fltOf t F) {n : Nat} (hn : n < 10) : 2 ^ n < 2 ^ t.width := by
  have hw : 10 ≤ t.width := by obtain ⟨rfl, -⟩ | ⟨rfl, -⟩ | ⟨rfl, -⟩ := h <;> decide
  exact Nat.pow_lt_pow_right (by omega) (by omega)

theorem fltOf_normal_le {t : Ty} {F : Fmt} (h : fltOf t F) : 2 ^ F.fb ≤ F.maxBits := by
  obtain ⟨-, rfl⟩ | ⟨-, rfl⟩ | ⟨-, rfl⟩ := h <;> decide

/-- A float type's immediate is taken as it is (R321). -/
theorem immOpnd_flt {h : Hdr} {F : Fmt} (hf : fltOf h.ty F) (imm : W32) : immOpnd h imm = fun _ _ => imm.toNat := by
  have hne : h.ty ≠ .i64 := by obtain ⟨ht, -⟩ | ⟨ht, -⟩ | ⟨ht, -⟩ := hf <;> rw [ht] <;> decide
  unfold immOpnd immVal
  rw [if_neg hne]

/-! ## The order of values -/

theorem FVal.lt_asymm {z : Bool} {a b : FVal} (h : a.lt z b = true) : b.lt z a = false := by
  match a, b with
  | .nan, _ | .inf _, .nan | .fin .., .nan => simp [FVal.lt] at h
  | .inf x, .inf y => cases x <;> cases y <;> simp [FVal.lt] at h ⊢
  | .inf x, .fin .. | .fin .., .inf x => simpa [FVal.lt] using h
  | .fin x m e, .fin y n f =>
    simp only [FVal.lt] at h ⊢
    rw [min_comm (FVal.expo (.fin y n f))]
    generalize min (FVal.expo (.fin x m e)) (FVal.expo (.fin y n f)) = p at h ⊢
    generalize FVal.units p (.fin x m (if m = 0 then p else e)) = u at h ⊢
    generalize FVal.units p (.fin y n (if n = 0 then p else f)) = v at h ⊢
    by_cases h0 : u = 0 ∧ v = 0
    · rw [if_pos h0] at h
      rw [if_pos h0.symm]
      cases x <;> cases y <;> simp at h ⊢
    · rw [if_neg h0, decide_eq_true_iff] at h
      rw [if_neg fun hc => h0 hc.symm, decide_eq_false_iff_not]
      omega

theorem FVal.lt_irrefl (z : Bool) (a : FVal) : a.lt z a = false := by
  cases h : a.lt z a
  · rfl
  · rw [FVal.lt_asymm h] at h; cases h

/-! ## fmin and fmax (R370) -/

/-- A NaN gives way to a number, and two give the canonical NaN. -/
theorem fminF_nan (F : Fmt) (mx : Bool) (a b : Nat) :
    (F.decode a = .nan → F.decode b = .nan → fminF F mx a b = F.nanBits) ∧
      (F.decode a = .nan → F.decode b ≠ .nan → fminF F mx a b = b) ∧
      (F.decode a ≠ .nan → F.decode b = .nan → fminF F mx a b = a) := by
  refine ⟨fun ha hb => ?_, fun ha hb => ?_, fun ha hb => ?_⟩ <;> simp only [fminF, ha, hb, if_true, if_false]

/-- Of two numbers, the one that the other does not go before. -/
theorem fminF_numbers {F : Fmt} (mx : Bool) {a b : Nat} (ha : F.decode a ≠ .nan) (hb : F.decode b ≠ .nan) :
    (fminF F mx a b = a ∨ fminF F mx a b = b) ∧
      (if mx then (F.decode (fminF F mx a b)).lt true (F.decode a) = false ∧ (F.decode (fminF F mx a b)).lt true (F.decode b) = false
       else (F.decode a).lt true (F.decode (fminF F mx a b)) = false ∧ (F.decode b).lt true (F.decode (fminF F mx a b)) = false) := by
  have hpick : fminF F mx a b = if (if mx then (F.decode b).lt true (F.decode a) else (F.decode a).lt true (F.decode b)) then a else b := by
    rw [fminF, if_neg ha, if_neg hb]
  rw [hpick]
  cases mx
  · by_cases hlt : (F.decode a).lt true (F.decode b) = true
    · simp [hlt, FVal.lt_irrefl, FVal.lt_asymm hlt]
    · simp [hlt, FVal.lt_irrefl]
  · by_cases hlt : (F.decode b).lt true (F.decode a) = true
    · simp [hlt, FVal.lt_irrefl, FVal.lt_asymm hlt]
    · simp [hlt, FVal.lt_irrefl]

theorem fminF_lt {F : Fmt} (mx : Bool) {a b n : Nat} (ha : a < n) (hb : b < n) (hF : F.nanBits < n) : fminF F mx a b < n := by
  obtain ⟨hboth, hleft, hright⟩ := fminF_nan F mx a b
  by_cases hna : F.decode a = .nan <;> by_cases hnb : F.decode b = .nan
  · rwa [hboth hna hnb]
  · rwa [hleft hna hnb]
  · rwa [hright hna hnb]
  · obtain hr | hr := (fminF_numbers mx hna hnb).1 <;> rwa [hr]

theorem elem_codes2_fminF {t : Ty} {F : Fmt} (hf : fltOf t F) (mx : Bool) (u v : Nat) {j : Nat} (hj : j < t.elems) :
    elem t (codes2 t (fminF (fmtOf t) mx) u v) j = fminF F mx (elem t u j) (elem t v j) := by
  rw [codes2, elem_pack _ _ hj, fltOf_fmtOf hf, Nat.mod_eq_of_lt (fminF_lt mx (elem_lt ..) (elem_lt ..) (fltOf_nanBits_lt hf))]

/-! ## fclass (R372) -/

/-- The value of a code by its magnitude: NaN or an infinity beyond the largest finite code, else the fraction, with the hidden bit from
the smallest normal code up (R271). -/
theorem decode_cases (F : Fmt) (c : Nat) :
    (F.maxBits < c % 2 ^ (F.bits - 1) ∧ (F.decode c = .nan ∨ F.decode c = .inf (bit c (F.bits - 1)))) ∨
    (c % 2 ^ (F.bits - 1) ≤ F.maxBits ∧ ∃ m e, F.decode c = .fin (bit c (F.bits - 1)) m e ∧
      (m = 0 ↔ c % 2 ^ (F.bits - 1) = 0) ∧ (m < 2 ^ F.fb ↔ c % 2 ^ (F.bits - 1) < 2 ^ F.fb)) := by
  unfold Fmt.decode
  generalize bit c (F.bits - 1) = neg
  generalize c % 2 ^ (F.bits - 1) = mag
  have hpos : 0 < 2 ^ F.fb := Nat.two_pow_pos _
  by_cases hmax : F.maxBits < mag
  · left
    refine ⟨hmax, ?_⟩
    simp only [hmax, if_true]
    split
    · exact .inr rfl
    · exact .inl rfl
  · right
    refine ⟨by omega, ?_⟩
    simp only [hmax, if_false]
    by_cases hex : mag / 2 ^ F.fb = 0
    · have hlt : mag < 2 ^ F.fb := (Nat.div_eq_zero_iff_lt hpos).1 hex
      exact ⟨mag % 2 ^ F.fb, _, if_pos hex, by rw [Nat.mod_eq_of_lt hlt], by rw [Nat.mod_eq_of_lt hlt]⟩
    · have hge : 2 ^ F.fb ≤ mag := by
        by_contra hlt
        exact hex (Nat.div_eq_of_lt (by omega))
      exact ⟨2 ^ F.fb + mag % 2 ^ F.fb, _, if_neg hex, by omega, by omega⟩

/-- fclass names exactly one class, that of the value's kind, sign and size (R372). -/
theorem fclassF_spec {F : Fmt} (hF : 2 ^ F.fb ≤ F.maxBits) (c : Nat) : ∃ n, n < 10 ∧ fclassF F c = 2 ^ n ∧
    (F.decode c = .nan → n = if bit c (F.fb - 1) then 9 else 8) ∧
    (∀ s, F.decode c = .inf s → n = if bit c (F.bits - 1) then 0 else 7) ∧
    (c % 2 ^ (F.bits - 1) = 0 → n = if bit c (F.bits - 1) then 3 else 4) ∧
    (0 < c % 2 ^ (F.bits - 1) → c % 2 ^ (F.bits - 1) < 2 ^ F.fb → n = if bit c (F.bits - 1) then 2 else 5) ∧
    (2 ^ F.fb ≤ c % 2 ^ (F.bits - 1) → c % 2 ^ (F.bits - 1) ≤ F.maxBits → n = if bit c (F.bits - 1) then 1 else 6) := by
  have hpos : 0 < 2 ^ F.fb := Nat.two_pow_pos _
  obtain ⟨hbig, hnan | hinf⟩ | ⟨hfin, m, e, hdec, hzero, hsub⟩ := decode_cases F c
  · refine ⟨if bit c (F.fb - 1) then 9 else 8, by split <;> omega, ?_, fun _ => rfl, ?_, by omega, by omega, by omega⟩
    · rw [fclassF, hnan]; simp only []; split <;> rfl
    · rw [hnan]; intro s hs; cases hs
  · refine ⟨if bit c (F.bits - 1) then 0 else 7, by split <;> omega, ?_, ?_, fun _ _ => rfl, by omega, by omega, by omega⟩
    · rw [fclassF, hinf]; simp only []; split <;> rfl
    · rw [hinf]; intro hs; cases hs
  · refine ⟨if m = 0 then (if bit c (F.bits - 1) then 3 else 4) else if m < 2 ^ F.fb then (if bit c (F.bits - 1) then 2 else 5)
      else (if bit c (F.bits - 1) then 1 else 6), by split_ifs <;> omega, ?_, ?_, ?_, fun h => ?_, fun h0 h => ?_, fun h _ => ?_⟩
    · rw [fclassF, hdec]; simp only []; split_ifs <;> rfl
    · rw [hdec]; intro hs; cases hs
    · rw [hdec]; intro s hs; cases hs
    · rw [if_pos (hzero.2 h)]
    · rw [if_neg (by omega), if_pos (hsub.2 h)]
    · rw [if_neg (by omega), if_neg (by omega)]

/-! ## fcmp (R371) -/

theorem fcmpF_nan {F : Fmt} {cond a b : Nat} (hc : cond < 8) (h : F.decode a = .nan ∨ F.decode b = .nan) :
    fcmpF F cond a b = decide (cond = 1 ∨ cond = 6) := by
  have hun : (decide (F.decode a = .nan) || decide (F.decode b = .nan)) = true := by simpa using h
  unfold fcmpF
  simp only [hun]
  interval_cases cond <;> rfl

theorem fcmpF_numbers {F : Fmt} (cond : Nat) {a b : Nat} (ha : F.decode a ≠ .nan) (hb : F.decode b ≠ .nan) :
    fcmpF F cond a b = (match cond with
      | 0 => !(F.decode a).lt false (F.decode b) && !(F.decode b).lt false (F.decode a)
      | 1 => (F.decode a).lt false (F.decode b) || (F.decode b).lt false (F.decode a)
      | 2 => (F.decode a).lt false (F.decode b)
      | 3 => !(F.decode b).lt false (F.decode a)
      | 4 => (F.decode b).lt false (F.decode a)
      | 5 => !(F.decode a).lt false (F.decode b)
      | 6 => false
      | _ => true) := by
  match cond with
  | 0 | 1 | 2 | 3 | 4 | 5 | 6 | _ + 7 => simp [fcmpF, ha, hb]

end Sys2Proof.Machine

namespace Sys2Proof

open Sys2Proof.Machine Sys2Proof.Stmt

theorem floatSelect : FloatSelect := by
  intro h d a b imm F hf
  have hlanes : 2 ^ (h.ty.width * h.ty.elems) = 2 ^ 32 := by rw [width_mul_elems (fltOf_pair hf)]
  rw [← immOpnd_flt hf]
  refine ⟨?fmin, ?fminImm, ?fmax, ?fmaxImm, ?fclass⟩
  case fmin | fminImm | fmax | fmaxImm =>
    refine lanewise_completes (fun _ => rfl) fun x l _ => ⟨hlanes ▸ pack_lt .., fun j hj => ?_⟩
    rw [elem_codes2_fminF hf _ _ _ hj]
    obtain ⟨hboth, hleft, hright⟩ := fminF_nan F _ _ _
    exact ⟨hboth, hleft, hright, fminF_numbers _⟩
  case fclass =>
    refine lanewise_completes (fun _ => rfl) fun x l _ => ⟨hlanes ▸ pack_lt .., fun j hj => ?_⟩
    obtain ⟨n, hn, hval, hspec⟩ := fclassF_spec (fltOf_normal_le hf) (elem h.ty (srcVal x h.ty.pair a l) j)
    refine ⟨n, hn, ?_, hspec⟩
    rw [codes2, elem_pack _ _ hj, fltOf_fmtOf hf, hval, Nat.mod_eq_of_lt (fltOf_class_lt hf hn)]

theorem floatCompare : FloatCompare := by
  intro h md a b imm ht hc
  rw [← immOpnd_flt (.inl ⟨ht, rfl⟩)]
  exact ⟨maskBits_completes (fun _ => rfl) fun _ _ _ => ⟨fcmpF_nan hc, fcmpF_numbers h.mod⟩,
    maskBits_completes (fun _ => rfl) fun _ _ _ => ⟨fcmpF_nan hc, fcmpF_numbers h.mod⟩⟩

/-- Settles O38: fmin and fmax by the order of R370, fclass by the classes of R372, and fcmp by the conditions of R371. -/
theorem floatSelectAndCompare : Obligations.FloatSelectAndCompare := ⟨floatSelect, floatCompare⟩

end Sys2Proof
end

section
/-! SUPPORT. The cross-lane moves (R379), and a compress that names the zero code as its metadata register (R314, R380): the code is one
that compress accepts, and the write to it is discarded, so that no indices stand there afterwards. -/

namespace Sys2Proof.Machine

open Sys2Proof Sys2Proof.Stmt

theorem shflSrc_eq (l sel : Nat) : shflSrc l sel = if sel.testBit 6 then l ^^^ (sel % 64) else sel % 64 := by
  rw [shflSrc, bit_eq_testBit]

/-- A compress whose metadata register is the zero code writes its data and nothing else. -/
theorem compress_zero_meta_completes (h : Hdr) (d : VDst) (a b : VSrc) (slot : Nat) :
    Completes (.compress h d a b 1539 slot) (sigCompress h d a b 1539 slot) Always
      (Val h d fun x l => compData h.ty (srcVal x false a l) (srcVal x false b l)) := by
  intro s x hr _
  exact ⟨_, issue_next hr rfl rfl, _, writeLanes_done h d _ hr.view, fun _ _ => rfl⟩

/-! ## A state that issues it -/

/-- The header of an instruction on i8x4 with nothing else set. -/
def hdrI8x4 : Hdr := ⟨0, .i8x4, 0, false, 0⟩

/-- `compress.i8x4 v10, 0, 0` to slot 0 of the zero code is a well-formed instruction. -/
theorem compress_zero_meta_wf : (Instr.compress hdrI8x4 (.reg 10) .zero .zero 1539 0).wf = true := by decide +kernel

/-- Its signature. -/
def sigZeroMeta : Sig := sigCompress hdrI8x4 (.reg 10) .zero .zero 1539 0

/-- The machine after reset with one group placed, all of whose lanes are active and which issues. -/
def oneGroup : State := { State.reset.withFetchWord 0 0 with cur := some ⟨1, 0, false⟩ }

/-- It gets past issue with lane 0 active and nothing in the register file at the zero code. -/
theorem oneGroup_ready : ∃ x, Ready sigZeroMeta oneGroup x ∧ laneOn x.mask 0 = true ∧ vget x.grp 1539 0 = 0 := by
  have hchecks : (issOf sigZeroMeta oneGroup).any (fun x => decide (absentFor sigZeroMeta x = none ∧
      x.grp.ahead = none ∧ debugDue sigZeroMeta x = false ∧ chainIll sigZeroMeta x.ent = false ∧
      hazard sigZeroMeta x = false ∧ sigZeroMeta.beyond (vregsOf x.lrec x.grp) x.lrec.zreg = false ∧
      laneOn x.mask 0 = true ∧ vget x.grp 1539 0 = 0)) = true := by decide +kernel
  obtain ⟨x, hx, hall⟩ := (Option.any_eq_true ..).1 hchecks
  obtain ⟨present, settled, calm, legal, clear, fits, hon, hzero⟩ := of_decide_eq_true hall
  exact ⟨x, ⟨hx, present, settled, calm, legal, clear, fits⟩, hon, hzero⟩

end Sys2Proof.Machine

namespace Sys2Proof

open Sys2Proof.Machine Sys2Proof.Stmt

theorem laneMoves : LaneMoves := by
  intro h d a b kl imm pick
  refine ⟨?shfl, ?shflImm, ?bcast, ?bcastImm⟩
  case shfl | shflImm => exact lanewise_completes_val (fun _ => rfl) fun _ _ => by rw [shflSrc_eq]; rfl
  case bcast | bcastImm => exact lanewise_completes_val (fun _ => rfl) fun _ _ => rfl

/-- The indices of two kept elements, in the four bits where compress puts them, are not all 0. -/
theorem keeps_indices_pos {t : Ty} {es : List Nat} {i j : Nat} (h : keeps t es i j) : i + 4 * j ≠ 0 := by
  obtain ⟨hij, -, -⟩ := h
  omega

theorem not_sparsePairs : ¬ SparsePairs := by
  intro hall
  obtain ⟨x, hr, hon, hzero⟩ := oneGroup_ready
  obtain ⟨hcompress, -⟩ := hall hdrI8x4 10 1539 0 .zero .zero .zero rfl rfl (by decide) (by decide) (by decide)
  obtain ⟨t, hexec, -, g, hg, -, -, -, hlanes⟩ := hcompress oneGroup x hr trivial
  obtain ⟨t', hexec', _, ⟨-, g', hg', -, hregs, -⟩, -⟩ :=
    compress_zero_meta_completes hdrI8x4 (.reg 10) .zero .zero 0 oneGroup x hr trivial
  obtain rfl : t = t' := by rw [hexec] at hexec'; cases hexec'; rfl
  obtain rfl : g = g' := by rw [hg] at hg'; cases hg'; rfl
  have hmeta : vget g 1539 0 = 0 := by
    rw [hregs 1539 0 (by decide), laneAfter, if_neg fun hc => absurd hc.2.2 (by decide), if_neg fun hc => absurd hc.2.2.2 (by decide), hzero]
  obtain ⟨i, j, hkeeps, -, -, hindices, -⟩ := hlanes 0 (by decide) hon 0 Nat.two_pos
  rw [hmeta] at hindices
  exact keeps_indices_pos hkeeps hindices.symm

/-- Refutes O40: where compress names the zero code as its metadata register, which R314 allows and `Instr.wf` accepts, the indices are
discarded, and the statement claims that they stand there. (Its part on shfl and bcast holds: `laneMoves`.) -/
theorem not_crossLaneMoves : ¬ Obligations.CrossLaneMoves := fun h => not_sparsePairs h.2

end Sys2Proof
end
